-- ==== Sys2Proof/Word.lean ====
section
/-! DEFINITION. The word types of the BC416 and the table type its fixed-size banks use.
A frame count and a byte are bit vectors because the manual compares them modulo their width and lays
them out on the wire; counts, levels, gains and loads are natural numbers. -/

namespace Sys2Proof

/-- One byte of a link frame (12.1). -/
abbrev Byte := BitVec 8

/-- A frame count value, compared modulo 2^32 (Conventions, R8). -/
abbrev FC := BitVec 32

/-- Donor links D0 to D3. -/
abbrev DonorId := Fin 4
/-- Carriers C0 to C11. -/
abbrev CarrierId := Fin 12
/-- Remote ports 0 to 15. -/
abbrev RemoteId := Fin 16
/-- Sectors 0 to 7. -/
abbrev SectorId := Fin 8
/-- Plans 0 to 3. -/
abbrev PlanId := Fin 4

/-- A bank of exactly `n` like things, held as a list of that length. -/
structure Tab (n : Nat) (α : Type) where
  items : List α
  len : items.length = n
deriving DecidableEq, Repr

/-- The entry at place `i`. -/
def Tab.get {n : Nat} {α : Type} (t : Tab n α) (i : Fin n) : α :=
  t.items.get ⟨i.val, by rw [t.len]; exact i.isLt⟩

/-- The bank with the entry at place `i` replaced. -/
def Tab.set {n : Nat} {α : Type} (t : Tab n α) (i : Fin n) (a : α) : Tab n α :=
  ⟨t.items.set i.val a, by rw [List.length_set]; exact t.len⟩

/-- The bank whose entry at `i` is `f i`. -/
def Tab.ofFn {n : Nat} {α : Type} (f : Fin n → α) : Tab n α :=
  ⟨List.ofFn f, List.length_ofFn⟩

/-- The bank with one value everywhere. -/
def Tab.const (n : Nat) {α : Type} (a : α) : Tab n α :=
  ⟨List.replicate n a, List.length_replicate⟩

/-- The bank with the entry at `i` changed by `f`. -/
def Tab.modify {n : Nat} {α : Type} (t : Tab n α) (i : Fin n) (f : α → α) : Tab n α :=
  t.set i (f (t.get i))

/-- The bank with every entry changed by `f`, which also sees the place. -/
def Tab.mapIdx {n : Nat} {α β : Type} (t : Tab n α) (f : Fin n → α → β) : Tab n β :=
  Tab.ofFn fun i => f i (t.get i)

/-- The bank with every entry changed by `f`. -/
def Tab.map {n : Nat} {α β : Type} (t : Tab n α) (f : α → β) : Tab n β :=
  ⟨t.items.map f, by rw [List.length_map]; exact t.len⟩

end Sys2Proof
end

