-- ==== Sys2Proof/Syntax.lean ====
section
/-! DEFINITION. The commands of the BC416: one constructor per row of spec/opcode_table.json, and the
data that reaches the part with them (link frames, the reading of the configuration memory). -/

namespace Sys2Proof

/-- The 21 links: four donor links, sixteen remote links and the service link S (chapter 1). -/
inductive Link where
  | donor (n : DonorId)
  | remote (r : RemoteId)
  | service
deriving DecidableEq, Repr

/-- The links that carry requests: S and the donor links (R15). -/
inductive MsgLink where
  | service
  | donor (n : DonorId)
deriving DecidableEq, Repr

/-- A complex sample: I and Q, each a signed 16-bit integer (Conventions). -/
structure Sample where
  i : BitVec 16
  q : BitVec 16
deriving DecidableEq, Repr

/-- The 2,048 samples of one branch, in order from sample 0. Samples past the end of the list are zero
samples, so a silent branch is the empty list (log entry 4). -/
abbrev Branch := List Sample

/-- One lane of a frame, or one carrier slot of a donor frame: branches A and B; in an uplink frame the
antenna inputs u and v (12.1, R51). -/
structure Lane where
  a : Branch
  b : Branch
deriving DecidableEq, Repr

/-- A link frame as it stands at a frame position (12.1): delimiter, frame number, gap mark, slot flag, the
16 bytes of the control slot, the 6 lane map bytes of a remote frame (none on other links), the lanes (6 on
a remote link, 3 carrier slots on a donor link, 1 on the service link), and the frame check it carries. -/
structure LinkFrame where
  delimiter : BitVec 32
  number : BitVec 16
  gapMark : Byte
  flag : Byte
  slot : List Byte
  map : List Byte
  lanes : List Lane
  check : BitVec 32
deriving DecidableEq, Repr

/-- One stored plan as the image holds it: the part encodings of 12.3. -/
structure RawPlan where
  head : List Byte
  remotes : Tab 16 (List Byte)
  sectors : Tab 8 (List Byte)
deriving DecidableEq, Repr

/-- The fields of a configuration image, before they are judged (R165): 25 settings in item order, 12
carrier records, 4 plans, the start plan byte and the label field of SAVE, each in the encodings of
12.3 (log entry 9). -/
structure RawImage where
  settings : Tab 25 (BitVec 16)
  carriers : Tab 12 (List Byte)
  plans : Tab 4 RawPlan
  start : Byte
  label : List Byte
deriving DecidableEq, Repr

/-- What the read of the serial configuration memory found (R165). `stored`: the memory answers and
gives back what this hub last wrote into it. `image`: the memory holds an image written elsewhere, of
the bytes before its check, the check stored with them, and the fields those bytes hold. -/
inductive ImageRead where
  | noAnswer
  | noImage
  | stored
  | image (bytes : List Byte) (check : BitVec 32) (fields : RawImage)
deriving DecidableEq, Repr

/-- How much of a frame boundary a FRAME_BOUNDARY command takes (log entry 2): the whole of it, or only
the emission by the Frame Clock, or only the blocks' work at the boundary emitted before. R39 and R40
tell the two moments apart: "the instant between a boundary and the Combiner's release at it". `releaseFirst`
is the blocks' work with the release taken before a switch that falls at the boundary, which R48 and R113
allow beside the other order. -/
inductive BoundaryPart where
  | whole
  | emit
  | act
  | releaseFirst
deriving DecidableEq, Repr

/-- How much of a window end a WINDOW_END command takes (log entry 32): the whole of it, or only the Meter's and the
Combiner's work, or only the Spreader's, or only the taking of its start request by the Move Engine. R91, R99 and R101
tell the moments apart: "after the Meter computed the loads and before the Spreader takes the event", and "after the
Spreader read its state in the gate". -/
inductive WindowPart where
  | whole
  | meter
  | spread
  | start
deriving DecidableEq, Repr

/-- The commands and events of the BC416, one constructor per row of spec/opcode_table.json. A frame row
carries what stands at the frame position, which the framer judges (R1, R169). A request row (IDENTIFY to
UNKNOWN_REQUEST) has no operand of its own: its link, tag and body stand at the head of the request input queue, where
R152 takes them. -/
inductive Instr where
  | powerOnReset
  | imageReadEnd (read : ImageRead)
  | frameBoundary (part : BoundaryPart)
  | lossOfSignal (l : Link)
  | signalReturns (l : Link)
  | goodFrame (l : Link) (f : LinkFrame)
  | erroredFrame (l : Link) (f : LinkFrame)
  | serviceMessageArrival (l : MsgLink)
  | status (r : RemoteId)
  | reply (r : RemoteId)
  | busyReply (r : RemoteId)
  | responseStart (l : MsgLink)
  | notice
  | arbiterMessageBoundary (r : RemoteId)
  | relayedMessageSent (r : RemoteId)
  | donorGraceExpiry (n : DonorId)
  | linkGraceExpiry (r : RemoteId)
  | pollEvent
  | flapDecayExpiry (r : RemoteId)
  | rampStepEvent
  | windowEnd (part : WindowPart := .whole)
  | pacingTimerExpiry
  | passTimeout (r : RemoteId)
  | passRetryDelayEnd (r : RemoteId)
  | scheduleDue
  | dueWaitingRetest
  | switch
  | batchSwitch
  | saveWriteCompletion
  | saveWriteFailure
  | restartTakesEffect
  | identify
  | readSettings
  | writeSettings
  | readCarrier
  | writeCarrier
  | readPlan
  | writePlan
  | readLive
  | setRemote
  | readLoad
  | move
  | abort
  | cutOver
  | schedule
  | cue
  | cancel
  | isolate
  | restore
  | readEvents
  | readCounters
  | clearCounters
  | tap
  | save
  | restart
  | unknownRequest
deriving DecidableEq, Repr

end Sys2Proof
end

