-- ==== Sys2Proof/Decode.lean ====
section
/-! DEFINITION. Reading a command from bits. No row of spec/opcode_table.json gives its command any bits:
requests, frames and events reach the part through its links, pins and timers (log entry 1). -/

namespace Sys2Proof

/-- The command a word spells by the table's bits: none, since no row gives bits. -/
def decodeTableWord (_nbits _w : Nat) : Option Instr := none

end Sys2Proof
end

