-- ==== Sys2Proof/Config.lean ====
section
/-! DEFINITION. What this device fixes (its codes) and the free values: values the manual leaves open,
of which nothing in Lean can compute or prove anything. -/

namespace Sys2Proof.Config

/-- Vendor code of the IDENTIFY response (12.3). -/
def vendorCode : BitVec 16 := 0x5543

/-- Part code of the IDENTIFY response (12.3). -/
def partCode : BitVec 16 := 0x0416

/-- Device revision of the IDENTIFY response (12.3). -/
def revision : Byte := 0x01

/-- FREE VALUE (log entry 5). The current FC before the first boundary after power-on reset: R8 defines
the current FC as that of the most recent boundary, and there is none yet. -/
opaque fcBeforeFirstBoundary : FC

/-- FREE VALUE (log entry 6). The bytes a response carries when the content its rule lists is longer
than the 224 bytes a message may have (R13, R148): the links group of READ-COUNTERS is. -/
opaque oversizeBody : List Byte → List Byte

/-- FREE VALUE (log entry 7). The two count bytes READ-LIVE sends for a timer whose count does not fit
them: a flap decay count reaches 2,040,000 (R132, 12.3). -/
opaque wideTimerCount : Nat → BitVec 16

end Sys2Proof.Config
end

