-- ==== Sys2Proof/Machine/State.lean ====
section
/-! DEFINITION. The state of the BC416 as plain data, block by block (the block table of 00_scope.md),
its reset values and the reasons a step may stop. INVENTORY.md lists every field with its rule. -/

namespace Sys2Proof.Machine

/-! ## Messages and records (chapters 12.2, 12.3) -/

/-- The 16-byte message header (12.2). -/
structure Header where
  dest : Byte
  port : Byte
  mask : BitVec 16
  tag : Byte
  kind : Byte
  status : Byte
  length : Byte
deriving DecidableEq, Repr

/-- A completed message: its header and its body of `length` bytes (R13, R15). -/
structure Message where
  head : Header
  body : List Byte
deriving DecidableEq, Repr

/-- Status codes of responses, in the order of their codes (R148, 12.2). -/
inductive Status where
  | done | busy | denied | badTable | badIndex | badValue | conflict | notReady | tooLate | timeout
  | remoteBusy | aborted
deriving DecidableEq, Repr

/-- Branch modes (R26, R51), in the order of their codes. -/
inductive Mode where
  | straight | cross | foldA | foldB
deriving DecidableEq, Repr

/-- A carrier record of the carrier table (R19). -/
structure Carrier where
  enabled : Bool
  donor : DonorId
  slot : Fin 3
  tag : Fin 16
  sector : Option SectorId
  twoBranches : Bool
  gain : Nat
  headroom : Nat
deriving DecidableEq, Repr

/-- The default record of carrier `c` (R19). -/
def Carrier.default (c : CarrierId) : Carrier where
  enabled := false
  donor := ⟨c.val / 3, by omega⟩
  slot := ⟨c.val % 3, by omega⟩
  tag := 0
  sector := none
  twoBranches := true
  gain := 512
  headroom := 2

/-- A remote entry of a plan, and the configured fields of a live remote record (R105, R110). -/
structure RemoteEntry where
  configured : Bool
  sector : Option SectorId
  baseGain : Nat
  weight : Nat
  mode : Mode
  alternates : List SectorId
  partners : List RemoteId
  boost : Nat
  position : Option (BitVec 16)
  gatingAllowed : Bool
deriving DecidableEq, Repr

/-- The default remote entry (R105). -/
def RemoteEntry.default : RemoteEntry where
  configured := false
  sector := none
  baseGain := 512
  weight := 2048
  mode := .straight
  alternates := []
  partners := []
  boost := 0
  position := none
  gatingAllowed := true

/-- A sector entry of a plan, and a live sector record (R106). -/
structure SectorEntry where
  ceiling : Nat
  minimum : Nat
  source : Bool
  destination : Bool
  gating : Bool
deriving DecidableEq, Repr

/-- The default sector entry (R106). -/
def SectorEntry.default : SectorEntry where
  ceiling := 16000
  minimum := 1
  source := false
  destination := false
  gating := true

/-- A plan record (R104). -/
structure Plan where
  valid : Bool
  label : Option (List Byte)
  remotes : Tab 16 RemoteEntry
  sectors : Tab 8 SectorEntry
deriving DecidableEq, Repr

/-- The plan of a hub started on defaults (R104). -/
def Plan.default : Plan where
  valid := false
  label := none
  remotes := Tab.const 16 RemoteEntry.default
  sectors := Tab.const 8 SectorEntry.default

/-- The reference source setting (R9). -/
inductive RefSource where
  | auto
  | link (n : DonorId)
  | none
deriving DecidableEq, Repr

/-- An access grant (R149). -/
inductive Grant where
  | none | read | full
deriving DecidableEq, Repr

/-- The 25 settings, in item order (R154). Items 1, 5 and 11 are the requested values. -/
structure Settings where
  alignment : Nat
  gateMargin : Nat
  clipLimit : Nat
  lateLimit : Nat
  window : Nat
  activityMargin : Nat
  rampStep : Nat
  rampInterval : Nat
  reference : RefSource
  grace : Nat
  poll : Nat
  missLimit : Nat
  flapLimit : Nat
  flapPeriod : Nat
  autoSpread : Bool
  overloadHold : Nat
  homingHold : Nat
  notices : Bool
  pacing : Nat
  passTimeout : Nat
  passRetries : Nat
  grants : Tab 4 Grant
deriving DecidableEq, Repr

/-- The default settings (R154). -/
def Settings.default : Settings where
  alignment := 4
  gateMargin := 6
  clipLimit := 64
  lateLimit := 16
  window := 8000
  activityMargin := 12
  rampStep := 8
  rampInterval := 1
  reference := .auto
  grace := 16
  poll := 800
  missLimit := 3
  flapLimit := 4
  flapPeriod := 30
  autoSpread := false
  overloadHold := 5
  homingHold := 10
  notices := true
  pacing := 8
  passTimeout := 400
  passRetries := 3
  grants := Tab.const 4 .none

/-- What the image holds and a SAVE writes: settings, carrier table, plans, start plan id and hub label
(chapter 11, R166). -/
structure Stored where
  settings : Settings
  carriers : Tab 12 Carrier
  plans : Tab 4 Plan
  start : Option PlanId
  label : Option (List Byte)
deriving DecidableEq, Repr

/-- The defaults a refused image leaves (R165). -/
def Stored.default : Stored where
  settings := Settings.default
  carriers := Tab.ofFn Carrier.default
  plans := Tab.const 4 Plan.default
  start := none
  label := none

/-! ## Configuration Loader (chapter 11) -/

/-- Why the hub started on defaults: 1 absent, 2 check failed, 3 contents refused (R165). -/
inductive DefaultCause where
  | absent | checkFailed | refused
deriving DecidableEq, Repr

/-- The image state (chapter 11). -/
inductive ImageState where
  | loaded
  | defaulted (cause : DefaultCause)
  | saved
  | saveFailed
deriving DecidableEq, Repr

/-- The external configuration memory as far as this hub has written it (R166): never written by it,
holding a partial image, or holding a whole snapshot. -/
inductive ConfigMemory where
  | unwritten
  | partialImage
  | holds (snapshot : Stored)
deriving DecidableEq, Repr

/-- The Configuration Loader: whether the read after power-on has ended, the image state (absent until
then), the saving flag with the snapshot being written, the hub label and the external memory. -/
structure Loader where
  readEnded : Bool
  image : Option ImageState
  snapshot : Option Stored
  label : Option (List Byte)
  memory : ConfigMemory
deriving DecidableEq, Repr

/-! ## Frame Clock (chapter 1.5) -/

/-- The Frame Clock: the frame count, whether boundary FC 0 has been emitted, and the reference
selection. The holdover flag is yes exactly when the selection is none (R9; `Clock.holdover`). -/
structure Clock where
  fc : FC
  started : Bool
  reference : Option DonorId
deriving DecidableEq, Repr

/-! ## Link Framers (chapter 1) -/

/-- Receive states (R1). -/
inductive RxState where
  | down | hunt | verify | locked
deriving DecidableEq, Repr

/-- The counters of a framer (R6); gaps and overruns count on donor links alone. -/
structure LinkCounters where
  good : Nat
  checkErrors : Nat
  slips : Nat
  jumps : Nat
  lockLosses : Nat
  malformed : Nat
  sendAborts : Nat
  gaps : Nat
  overruns : Nat
deriving DecidableEq, Repr

/-- All counters 0 (R6). -/
def LinkCounters.zero : LinkCounters := ⟨0, 0, 0, 0, 0, 0, 0, 0, 0⟩

/-- A message in assembly: its header and the body pieces received so far (R14). -/
structure Assembly where
  head : Header
  pieces : List (List Byte)
deriving DecidableEq, Repr

/-- One control slot: flag and 16 bytes (R13). -/
structure Slot where
  flag : Byte
  bytes : List Byte
deriving DecidableEq, Repr

/-- What a message in emission is: a response (and whether it is the response to RESTART), a notice, a
POLL, or a relayed message with its relay tag. -/
inductive Sending where
  | response (restart : Bool)
  | notice
  | poll
  | relayed (tag : Byte)
deriving DecidableEq, Repr

/-- The message in emission: what it is and its slots not yet sent (R16, R17). -/
structure Emission where
  what : Sending
  slots : List Slot
deriving DecidableEq, Repr

/-- A message the Relay sends to a remote: a pass-through attempt or a set copy (R160). -/
structure Relayed where
  copy : Bool
  tag : Byte
  kind : Byte
  body : List Byte
deriving DecidableEq, Repr

/-- A Link Framer: receive state, verify count, last number, errored streak, control-in assembler, the
completed messages handed on and not yet taken (log entry 3), the donor input buffer (donor links), the
message in emission, the POLL place and relay queue of the arbiter (remote links), the counters, and the
frame sent at the most recent boundary. -/
structure Framer where
  rx : RxState
  verifyCount : Nat
  lastNumber : Option (BitVec 16)
  streak : Nat
  assembly : Option Assembly
  handed : List Message
  buffer : List LinkFrame
  emission : Option Emission
  pollPlace : Bool
  relayQueue : List Relayed
  counters : LinkCounters
  sent : Option LinkFrame
deriving DecidableEq, Repr

/-- A framer after power-on reset (R7). -/
def Framer.reset : Framer where
  rx := .down
  verifyCount := 0
  lastNumber := none
  streak := 0
  assembly := none
  handed := []
  buffer := []
  emission := none
  pollPlace := false
  relayQueue := []
  counters := LinkCounters.zero
  sent := none

/-- The 21 framers. -/
structure Links where
  donors : Tab 4 Framer
  remotes : Tab 16 Framer
  service : Framer
deriving DecidableEq, Repr

/-! ## Downlink Distributor (chapter 2) -/

/-- A lane map: for each of the lanes 0 to 5 the carrier it carries, or idle (R22). -/
abbrev LaneMap := List (Option CarrierId)

/-- The all-idle map (R22). -/
def LaneMap.idle : LaneMap := List.replicate 6 none

/-- Present gain, target and ramp-done flag of a remote (R30). -/
structure Ramp where
  present : Nat
  target : Nat
  done : Bool
deriving DecidableEq, Repr

/-- The map and applied mode of one frame sent to a remote (R23). -/
structure SentRecord where
  number : FC
  map : LaneMap
  mode : Mode
deriving DecidableEq, Repr

/-- The donor grace timer, muted flag and loss reported flag of a donor link (R28). -/
structure DonorState where
  timer : Option Nat
  muted : Bool
  reported : Bool
deriving DecidableEq, Repr

/-- The Downlink Distributor: carrier table, sector lane maps, ramps, sent record (newest first),
applied mode and map of the last frame per remote, donor loss state and downlink clip counters. -/
structure Distributor where
  carriers : Tab 12 Carrier
  maps : Tab 8 LaneMap
  ramps : Tab 16 Ramp
  sent : Tab 16 (List SentRecord)
  applied : Tab 16 Mode
  lastMap : Tab 16 LaneMap
  donors : Tab 4 DonorState
  clips : Tab 12 Nat
deriving DecidableEq, Repr

/-! ## Uplink Combiner (chapter 3) -/

/-- An alignment queue entry (R38): expanded number, echoed lane map bytes, the lanes with antenna
inputs u (`a`) and v (`b`), and the arrival FC. -/
structure Entry where
  number : FC
  echo : List Byte
  lanes : List Lane
  arrival : FC
deriving DecidableEq, Repr

/-- A switch history (R47); `since` is the previous from. -/
structure History where
  previous : Option SectorId
  since : Option FC
  switchFc : FC
deriving DecidableEq, Repr

/-- The uplink counters of a remote port (R56). -/
structure UplinkCounters where
  outOfWindow : Nat
  late : Nat
  duplicates : Nat
  overflows : Nat
  mismatches : Nat
  missing : Nat
deriving DecidableEq, Repr

/-- All counters 0 (R56). -/
def UplinkCounters.zero : UplinkCounters := ⟨0, 0, 0, 0, 0, 0⟩

/-- The window state of a remote port: window late count, minimum lead and zero-lead count (R40, R57). -/
structure PortWindow where
  late : Nat
  minLead : Option Nat
  zeroLead : Nat
deriving DecidableEq, Repr

/-- An empty window state (R57). -/
def PortWindow.zero : PortWindow := ⟨0, none, 0⟩

/-- The Uplink Combiner: alignment queues (in number order), switch histories, weight notes (newest
first), D in force, last released number L, counters, clip counters and window state. The requested D
is setting item 1. -/
structure Combiner where
  queues : Tab 16 (List Entry)
  history : Tab 16 History
  weights : Tab 16 (List (FC × Nat))
  delay : Nat
  last : Option FC
  counters : Tab 16 UplinkCounters
  clips : Tab 12 Nat
  window : Tab 16 PortWindow
  windowClips : Tab 12 Nat
deriving DecidableEq, Repr

/-! ## Remote Supervisor (chapter 8) -/

/-- Health states, in the order of their codes (R119). -/
inductive Health where
  | vacant | waiting | joining | serving | impaired | lost | isolated
deriving DecidableEq, Repr

/-- Causes of LOST and of ISOLATED (R119). -/
inductive Cause where
  | link | noReply | output | identityChanged | flapping | command
deriving DecidableEq, Repr

/-- The four alarm flags of a remote (R119). -/
structure Alarms where
  outA : Bool
  outB : Bool
  hot : Bool
  supply : Bool
deriving DecidableEq, Repr

/-- All alarm flags no. -/
def Alarms.none : Alarms := ⟨false, false, false, false⟩

/-- The last report: STATUS body and arrival FC (R119). -/
structure Report where
  body : List Byte
  arrival : FC
deriving DecidableEq, Repr

/-- A supervision record (R119). -/
structure SupRecord where
  health : Health
  cause : Option Cause
  miss : Nat
  awaiting : Bool
  grace : Option Nat
  flap : Nat
  decay : Option Nat
  serial : Option (BitVec 32)
  position : Option (BitVec 16)
  alarms : Alarms
  report : Option Report
  mode : Mode
  sources : List RemoteId
  boost : Nat
  held : Bool
deriving DecidableEq, Repr

/-- A supervision record after reset (R119). -/
def SupRecord.reset : SupRecord where
  health := .vacant
  cause := none
  miss := 0
  awaiting := false
  grace := none
  flap := 0
  decay := none
  serial := none
  position := none
  alarms := Alarms.none
  report := none
  mode := .straight
  sources := []
  boost := 0
  held := false

/-- The Remote Supervisor: one record per port, the degraded flag and serving count of each sector, and
the poll timer (P in force and count; the requested P is setting item 11). -/
structure Supervisor where
  records : Tab 16 SupRecord
  degraded : Tab 8 Bool
  serving : Tab 8 Nat
  pollForce : Nat
  pollCount : Nat
deriving DecidableEq, Repr

/-! ## Activity Meter (chapter 4) -/

/-- An activity record (R59). -/
structure Activity where
  floor : Nat
  settled : Bool
  frames : Nat
  busy : Nat
  minLevel : Option Nat
  occupancy : Nat
  stale : Bool
deriving DecidableEq, Repr

/-- An activity record after reset (R59). -/
def Activity.reset : Activity where
  floor := 125
  settled := false
  frames := 0
  busy := 0
  minLevel := none
  occupancy := 0
  stale := true

/-- The published loads with what R69 stores beside them. -/
structure Published where
  startFc : FC
  endFc : FC
  window : Nat
  seq : Nat
  remote : Tab 16 Nat
  sector : Tab 8 Nat
  carrier : Tab 12 Nat
  members : Tab 8 Nat
  labels : Tab 12 (Fin 16 × Option SectorId)
  health : Tab 16 Health
deriving DecidableEq, Repr

/-- The Activity Meter: records, window timer (W in force, boundary count, window start FC, and whether
the next boundary begins the first window, R64), window sequence and published loads. The requested W is
setting item 5. -/
structure Meter where
  records : Tab 16 (Tab 12 Activity)
  window : Nat
  count : Nat
  startFc : FC
  firstNext : Bool
  seq : Nat
  published : Option Published
deriving DecidableEq, Repr

/-! ## Sector Map (chapter 7.3) -/

/-- A live remote record: the fields of R105, with `entry.sector` as membership, and the home sector
(R110). -/
structure LiveRemote where
  entry : RemoteEntry
  home : Option SectorId
deriving DecidableEq, Repr

/-- The Sector Map: live map, active plan id, diverged flag, and whether the next boundary loads the
live map from the start plan (R110). -/
structure SectorMap where
  remotes : Tab 16 LiveRemote
  sectors : Tab 8 SectorEntry
  active : Option PlanId
  diverged : Bool
  loadNext : Bool
deriving DecidableEq, Repr

/-! ## Move Engine (chapter 5) -/

/-- Engine states, in the order of their codes (R73). -/
inductive EngineState where
  | idle | fadeOut | switchPending | fadeIn | recovering
deriving DecidableEq, Repr

/-- Move kinds, in the order of their codes (R74). -/
inductive MoveKind where
  | manual | auto | homing | batch
deriving DecidableEq, Repr

/-- Outcomes of a move (R74). -/
inductive MoveOutcome where
  | done | abandoned | aborted
deriving DecidableEq, Repr

/-- Where a remote of a move goes: a sector, none, or unconfigured (R74). -/
inductive Dest where
  | sector (s : SectorId)
  | none
  | unconfigured
deriving DecidableEq, Repr

/-- One remote of a move record with its from and to (R74). -/
structure Place where
  remote : RemoteId
  origin : Option SectorId
  dest : Dest
deriving DecidableEq, Repr

/-- The move record (R74). `fading` holds the remotes of the fading set that have not left service since
the start (R81, R83, R86); for a single move it is the moving remote. -/
structure MoveRecord where
  kind : MoveKind
  plan : Option PlanId
  places : List Place
  startFc : FC
  switchFc : Option FC
  outcome : Option MoveOutcome
  fading : List RemoteId
deriving DecidableEq, Repr

/-- The pending map: the sixteen remote entries and eight sector entries of a plan (R112). -/
structure PlanMap where
  remotes : Tab 16 RemoteEntry
  sectors : Tab 8 SectorEntry
deriving DecidableEq, Repr

/-- The Move Engine (R73). -/
structure Engine where
  state : EngineState
  record : Option MoveRecord
  phaseSet : List RemoteId
  holdSet : List RemoteId
  pendingMap : Option PlanMap
deriving DecidableEq, Repr

/-- The engine IDLE, with nothing held (R73). -/
def Engine.idle : Engine := ⟨.idle, none, [], [], none⟩

/-! ## Spreader (chapter 6) -/

/-- Why the evaluation gate failed, in the order tested (R95). -/
inductive GateReason where
  | disabled | engineBusy | scheduleWaiting | unsettled
deriving DecidableEq, Repr

/-- Why a source sector was blocked, in the order judged (R100). -/
inductive BlockReason where
  | noCandidate | minimum | noRoom
deriving DecidableEq, Repr

/-- The result of a window end, with the fields R102 says are present for it. -/
inductive Result where
  | notEvaluated (reason : GateReason)
  | noAction
  | relief (r : RemoteId) (source dest : SectorId)
  | homing (r : RemoteId) (source dest : SectorId)
  | blocked (source : SectorId) (reason : BlockReason)
  | refused (r : RemoteId) (source dest : SectorId)
deriving DecidableEq, Repr

/-- The last decision record (R102). -/
structure Decision where
  seq : Nat
  endFc : FC
  result : Result
deriving DecidableEq, Repr

/-- The two kinds of move the Spreader asks for (R99, R101). -/
inductive SpreadKind where
  | relief | homing
deriving DecidableEq, Repr

/-- A start request that the Spreader has sent (R99, R101), with what its decision record will name (R102). -/
structure StartRequest where
  kind : SpreadKind
  remote : RemoteId
  source : SectorId
  dest : SectorId
  seq : Nat
  endFc : FC
deriving DecidableEq, Repr

/-- The Spreader (R89). `request` is a start request sent and not yet taken by the Move Engine (R99, R101). -/
structure Spreader where
  overload : Tab 8 Nat
  homing : Tab 16 Nat
  lastEnd : Option FC
  decision : Option Decision
  settled : Option Bool
  request : Option StartRequest
deriving DecidableEq, Repr

/-- The Spreader after either reset (R89). -/
def Spreader.reset : Spreader := ⟨Tab.const 8 0, Tab.const 16 0, none, none, none, none⟩

/-! ## Plan Store (chapter 7) -/

/-- The schedule record (R115). -/
structure Schedule where
  plan : PlanId
  dueFc : FC
  waiting : Bool
deriving DecidableEq, Repr

/-- The Plan Store: plans, start plan id and schedule record. -/
structure PlanStore where
  plans : Tab 4 Plan
  start : Option PlanId
  schedule : Option Schedule
deriving DecidableEq, Repr

/-! ## Event Queue (chapter 9) -/

/-- The 25 event kinds, in the order of their codes (R139). -/
inductive EventKind where
  | remoteLost | remoteIsolated | identityMismatch | identityDuplicate | branchFault | thermalBackoff
  | donorLost | referenceLost | sectorDegraded | uplinkClipping | saveFailed | configDefaulted
  | remoteJoined | branchRestored | thermalCleared | donorRestored | referenceRestored | sectorRestored
  | moveDone | cutoverDone | cutoverAborted | spreadBlocked | lateUplink | lowMargin | saveDone
deriving DecidableEq, Repr

/-- The subject of an event (R138). -/
inductive Subject where
  | hub
  | donor (n : DonorId)
  | remote (r : RemoteId)
  | carrier (c : CarrierId)
  | sector (s : SectorId)
  | plan (p : PlanId)
deriving DecidableEq, Repr

/-- An event record (R138); its priority is fixed by the kind (`EventKind.urgent`). -/
structure Event where
  kind : EventKind
  subject : Subject
  tag : Option (Fin 16)
  detail : BitVec 16
  firstFc : FC
  lastFc : Option FC
  repeats : Nat
deriving DecidableEq, Repr

/-- The Event Queue: records in insertion order, overflow count, pacing timer count, notice offer and
notice sequence (chapter 9). -/
structure EventQueue where
  records : List Event
  overflow : Nat
  pacing : Nat
  offer : Bool
  seq : Byte
deriving DecidableEq, Repr

/-- The Event Queue after either reset (R140). -/
def EventQueue.reset : EventQueue := ⟨[], 0, 0, false, 0⟩

/-! ## Service Interpreter and Relay (chapter 10) -/

/-- A request in the input queue: its link and the tag, kind and body of its message (R151). -/
structure Request where
  link : MsgLink
  tag : Byte
  kind : Byte
  body : List Byte
deriving DecidableEq, Repr

/-- A response in a filled place (R148, R150). -/
structure Response where
  link : MsgLink
  tag : Byte
  kind : Byte
  status : Status
  body : List Byte
  restart : Bool
deriving DecidableEq, Repr

/-- The operation a reserved place belongs to (R150). -/
inductive Reservation where
  | pass (r : RemoteId)
  | setRelay
  | save (link : MsgLink) (tag : Byte)
deriving DecidableEq, Repr

/-- The phase of an open pass-through (R161): SENDING with an optional retry delay, or AWAITING with the
timeout count. -/
inductive PassPhase where
  | sending (delay : Option Nat)
  | awaiting (count : Nat)
deriving DecidableEq, Repr

/-- An open pass-through slot (R161). -/
structure Pass where
  link : MsgLink
  tag : Byte
  kind : Byte
  body : List Byte
  relayTag : Byte
  retries : Nat
  phase : PassPhase
deriving DecidableEq, Repr

/-- The set relay in progress (R164). -/
structure SetRelay where
  link : MsgLink
  tag : Byte
  kind : Byte
  body : List Byte
  remaining : List RemoteId
deriving DecidableEq, Repr

/-- The tap selection (R158). -/
inductive Tap where
  | none
  | combined (c : CarrierId)
  | raw (r : RemoteId) (c : CarrierId)
  | downlink (r : RemoteId) (c : CarrierId)
deriving DecidableEq, Repr

/-- The service counters of a message link (R159). -/
structure LinkService where
  queued : Nat
  refusals : Nat
  accessDiscards : Nat
  strays : Nat
  roomDiscards : Nat
  removals : Nat
deriving DecidableEq, Repr

/-- All counters 0. -/
def LinkService.zero : LinkService := ⟨0, 0, 0, 0, 0, 0⟩

/-- The service counters of a remote port (R159). -/
structure PortService where
  opened : Nat
  timeouts : Nat
  busies : Nat
  unmatched : Nat
deriving DecidableEq, Repr

/-- All counters 0. -/
def PortService.zero : PortService := ⟨0, 0, 0, 0⟩

/-- The Service Interpreter and Relay. The 8 places of the response queue are `filled` (oldest first)
and `reserved`; the rest are free (R150). `refused` holds the offers an arbiter refused, in the order
refused (R17). `taking` says whether the Interpreter takes requests (R152). -/
structure Service where
  input : List Request
  filled : List Response
  reserved : List Reservation
  pass : Tab 16 (Option Pass)
  setRelay : Option SetRelay
  relayTags : Tab 16 Byte
  refused : Tab 16 (List Relayed)
  tap : Tap
  serviceCount : LinkService
  donorCounts : Tab 4 LinkService
  portCounts : Tab 16 PortService
  taking : Bool
deriving DecidableEq, Repr

/-! ## The model's own state -/

/-- An event of a boundary, or one that follows from another event, that has fallen due and has not been
taken yet (log entry 2). -/
inductive Due where
  | switch
  | rampStep
  | sender (l : Link)
  | window
  | spread
  | startRequest
  | poll
  | pacing
  | donorGrace (n : DonorId)
  | linkGrace (r : RemoteId)
  | flap (r : RemoteId)
  | passTimeout (r : RemoteId)
  | retryEnd (r : RemoteId)
  | schedule
  | retest
  | sent (r : RemoteId) (tag : Byte)
  | restart
deriving DecidableEq, Repr

/-- The boundary in progress: whether the blocks have still to act on the boundary emitted last, and the
events due and not yet taken, oldest first (log entry 2). -/
structure Boundary where
  acting : Bool
  due : List Due
deriving DecidableEq, Repr

/-! ## The state -/

/-- The whole state of the hub, and the queue of commands waiting at it, first in, first out. -/
structure State where
  pending : List Instr
  loader : Loader
  clock : Clock
  settings : Settings
  links : Links
  dist : Distributor
  comb : Combiner
  meter : Meter
  map : SectorMap
  engine : Engine
  spreader : Spreader
  store : PlanStore
  sup : Supervisor
  events : EventQueue
  svc : Service
  boundary : Boundary
deriving DecidableEq, Repr

/-- Nothing in this block faults: the manual gives every command an effect in every state. -/
inductive Fault where
deriving DecidableEq, Repr

/-- Why a step is refused. -/
inductive Refusal where
  /-- Raised by exec for a command without a meaning yet (none is left). Safe: the machine stops. -/
  | notModelled (mnemonic : String)
deriving DecidableEq, Repr

/-- A live remote record of a hub whose live map is the defaults (R110). -/
def LiveRemote.default : LiveRemote := ⟨RemoteEntry.default, none⟩

/-- The hub right after power-on reset (R165): every block in the reset state of its chapter, the read
of the configuration memory not yet ended. Where the manual gives no reset value, log entry 8 names the
one used here. -/
def State.reset : State where
  pending := []
  loader := ⟨false, none, none, none, .unwritten⟩
  clock := ⟨0, false, none⟩
  settings := Settings.default
  links := ⟨Tab.const 4 Framer.reset, Tab.const 16 Framer.reset, Framer.reset⟩
  dist :=
    { carriers := Tab.ofFn Carrier.default
      maps := Tab.const 8 LaneMap.idle
      ramps := Tab.const 16 ⟨0, 0, true⟩
      sent := Tab.const 16 []
      applied := Tab.const 16 .straight
      lastMap := Tab.const 16 LaneMap.idle
      donors := Tab.const 4 ⟨some 0, false, false⟩
      clips := Tab.const 12 0 }
  comb :=
    { queues := Tab.const 16 []
      history := Tab.const 16 ⟨none, none, 0⟩
      weights := Tab.const 16 []
      delay := 4
      last := none
      counters := Tab.const 16 UplinkCounters.zero
      clips := Tab.const 12 0
      window := Tab.const 16 PortWindow.zero
      windowClips := Tab.const 12 0 }
  meter :=
    { records := Tab.const 16 (Tab.const 12 Activity.reset)
      window := 8000
      count := 0
      startFc := 0
      firstNext := true
      seq := 0
      published := none }
  map := ⟨Tab.const 16 LiveRemote.default, Tab.const 8 SectorEntry.default, none, false, true⟩
  engine := Engine.idle
  spreader := Spreader.reset
  store := ⟨Tab.const 4 Plan.default, none, none⟩
  sup := ⟨Tab.const 16 SupRecord.reset, Tab.const 8 false, Tab.const 8 0, 800, 0⟩
  events := EventQueue.reset
  svc :=
    { input := []
      filled := []
      reserved := []
      pass := Tab.const 16 none
      setRelay := none
      relayTags := Tab.const 16 0
      refused := Tab.const 16 []
      tap := .none
      serviceCount := LinkService.zero
      donorCounts := Tab.const 4 LinkService.zero
      portCounts := Tab.const 16 PortService.zero
      taking := false }
  boundary := ⟨false, []⟩

end Sys2Proof.Machine
end

