-- ==== Sys2Proof/Machine/Ops.lean ====
section
/-! DEFINITION. The shared operations: frame count comparison, saturation, accessors of the banks, the
Event Queue's posting and taking of records, and the events that have fallen due. -/

namespace Sys2Proof.Machine

/-! ## Frame counts and counters -/

/-- A is at or after B when (A − B) mod 2^32 is less than 2^31 (Conventions). -/
def atOrAfter (a b : FC) : Bool := decide ((a - b).toNat < 2147483648)

/-- A is before B when it is not at or after B (Conventions). -/
def isBefore (a b : FC) : Bool := !atOrAfter a b

/-- A is after B when it is at or after B and not equal to it (Conventions). -/
def isAfter (a b : FC) : Bool := atOrAfter a b && decide (a ≠ b)

/-- The low 16 bits of a frame count (R4). -/
def low16 (n : FC) : BitVec 16 := n.truncate 16

/-- One more on a 16-bit saturating counter (Conventions, R6). -/
def satInc (n : Nat) : Nat := min 65535 (n + 1)

/-- `k` more on a 16-bit saturating counter. -/
def satAdd (n k : Nat) : Nat := min 65535 (n + k)

/-- A number clamped to the nearest end of a range (Conventions). -/
def clampTo (lo hi n : Nat) : Nat := max lo (min hi n)

/-- A number as a 16-bit value. -/
def word16 (n : Nat) : BitVec 16 := BitVec.ofNat 16 n

/-- The expanded frame number: the FC value nearest to `fc` whose low 16 bits are `n`, from 32,768
before to 32,767 after it (R11). Sign extension of the 16-bit difference is the reduction of d. -/
def expand (fc : FC) (n : BitVec 16) : FC := fc + (n - low16 fc).signExtend 32

/-! ## Accessors -/

/-- The current FC: that of the most recent boundary (R8); before boundary FC 0 a free value (log 5). -/
def State.now (s : State) : FC :=
  if s.clock.started then s.clock.fc else Config.fcBeforeFirstBoundary

/-- The framer of a link. -/
def State.framer (s : State) : Link → Framer
  | .donor n => s.links.donors.get n
  | .remote r => s.links.remotes.get r
  | .service => s.links.service

/-- The framer of a link, changed. -/
def State.modFramer (s : State) (l : Link) (f : Framer → Framer) : State :=
  match l with
  | .donor n => { s with links := { s.links with donors := s.links.donors.modify n f } }
  | .remote r => { s with links := { s.links with remotes := s.links.remotes.modify r f } }
  | .service => { s with links := { s.links with service := f s.links.service } }

/-- The counters of a link's framer, changed (R6). -/
def State.countLink (s : State) (l : Link) (f : LinkCounters → LinkCounters) : State :=
  s.modFramer l fun fr => { fr with counters := f fr.counters }

/-- A link is LOCKED when its receive side is in that state (chapter 1.1). -/
def State.locked (s : State) (l : Link) : Bool := decide ((s.framer l).rx = .locked)

/-- The framer link of a message link. -/
def linkOf : MsgLink → Link
  | .service => .service
  | .donor n => .donor n

/-- All 21 links. -/
def allLinks : List Link :=
  (List.finRange 4).map .donor ++ (List.finRange 16).map .remote ++ [.service]

/-- The supervision record of a remote. -/
def State.supRec (s : State) (r : RemoteId) : SupRecord := s.sup.records.get r

/-- The supervision record of a remote, changed. -/
def State.modSup (s : State) (r : RemoteId) (f : SupRecord → SupRecord) : State :=
  { s with sup := { s.sup with records := s.sup.records.modify r f } }

/-- The health of a remote. -/
def State.health (s : State) (r : RemoteId) : Health := (s.supRec r).health

/-- The live configured fields of a remote (R110). -/
def State.live (s : State) (r : RemoteId) : RemoteEntry := (s.map.remotes.get r).entry

/-- The current sector of a remote in the live map. -/
def State.sectorOf (s : State) (r : RemoteId) : Option SectorId := (s.live r).sector

/-- The live configured fields of a remote, changed. -/
def State.modLive (s : State) (r : RemoteId) (f : RemoteEntry → RemoteEntry) : State :=
  { s with map := { s.map with remotes := s.map.remotes.modify r fun v => { v with entry := f v.entry } } }

/-- The carrier record of a carrier. -/
def State.carrier (s : State) (c : CarrierId) : Carrier := s.dist.carriers.get c

/-- The ramp state of a remote. -/
def State.ramp (s : State) (r : RemoteId) : Ramp := s.dist.ramps.get r

/-- The ramp state of a remote, changed. -/
def State.modRamp (s : State) (r : RemoteId) (f : Ramp → Ramp) : State :=
  { s with dist := { s.dist with ramps := s.dist.ramps.modify r f } }

/-- The donor loss state of a donor link, changed. -/
def State.modDonor (s : State) (n : DonorId) (f : DonorState → DonorState) : State :=
  { s with dist := { s.dist with donors := s.dist.donors.modify n f } }

/-- The uplink counters of a port, changed. -/
def State.countPort (s : State) (r : RemoteId) (f : UplinkCounters → UplinkCounters) : State :=
  { s with comb := { s.comb with counters := s.comb.counters.modify r f } }

/-- The service counters of a message link, changed (R159). -/
def State.countSvc (s : State) (l : MsgLink) (f : LinkService → LinkService) : State :=
  match l with
  | .service => { s with svc := { s.svc with serviceCount := f s.svc.serviceCount } }
  | .donor n => { s with svc := { s.svc with donorCounts := s.svc.donorCounts.modify n f } }

/-- The service counters of a remote port, changed (R159). -/
def State.countRelay (s : State) (r : RemoteId) (f : PortService → PortService) : State :=
  { s with svc := { s.svc with portCounts := s.svc.portCounts.modify r f } }

/-- The index of a byte as a member of `Fin n`, when it is one. -/
def finOf (n : Nat) (b : Byte) : Option (Fin n) :=
  if h : b.toNat < n then some ⟨b.toNat, h⟩ else none

/-! ## Events that have fallen due (log entry 2) -/

/-- The event is marked due. -/
def State.markDue (s : State) (e : Due) : State :=
  if s.boundary.due.contains e then s
  else { s with boundary := { s.boundary with due := s.boundary.due ++ [e] } }

/-- The events are marked due, in order. -/
def State.markAll (s : State) (es : List Due) : State := es.foldl State.markDue s

/-- The event is no longer due: it has been taken, or what it waited for was cancelled. -/
def State.unDue (s : State) (e : Due) : State :=
  { s with boundary := { s.boundary with due := s.boundary.due.filter (fun d => decide (d ≠ e)) } }

/-- An event that is due is taken: its mark is removed and `f` acts. An event that is not due does not
occur and leaves the state as it is. -/
def State.takeDue (s : State) (e : Due) (f : State → State) : State :=
  if s.boundary.due.contains e then f (s.unDue e) else s

/-! ## The Event Queue (chapter 9) -/

/-- A kind's code, 1 to 25 in the order of R139's table (12.2). -/
def EventKind.code : EventKind → Nat
  | .remoteLost => 1 | .remoteIsolated => 2 | .identityMismatch => 3 | .identityDuplicate => 4
  | .branchFault => 5 | .thermalBackoff => 6 | .donorLost => 7 | .referenceLost => 8
  | .sectorDegraded => 9 | .uplinkClipping => 10 | .saveFailed => 11 | .configDefaulted => 12
  | .remoteJoined => 13 | .branchRestored => 14 | .thermalCleared => 15 | .donorRestored => 16
  | .referenceRestored => 17 | .sectorRestored => 18 | .moveDone => 19 | .cutoverDone => 20
  | .cutoverAborted => 21 | .spreadBlocked => 22 | .lateUplink => 23 | .lowMargin => 24
  | .saveDone => 25

/-- The kinds of codes 1 to 12 are URGENT, the rest ROUTINE (R139). -/
def EventKind.urgent (k : EventKind) : Bool := decide (k.code ≤ 12)

/-- The operator tag of a post: that of the carrier for a CARRIER subject, else none (R138, R139). -/
def State.eventTag (s : State) : Subject → Option (Fin 16)
  | .carrier c => some (s.carrier c).tag
  | _ => none

/-- A new event record (R138). -/
def newEvent (k : EventKind) (sub : Subject) (tag : Option (Fin 16)) (detail : BitVec 16) (fc : FC) : Event :=
  ⟨k, sub, tag, detail, fc, none, 1⟩

/-- The record is of this kind and subject (R141). -/
def Event.isFor (e : Event) (k : EventKind) (sub : Subject) : Bool :=
  decide (e.kind = k) && decide (e.subject = sub)

/-- A held record takes a further post (R141, case 1). -/
def Event.merge (e : Event) (tag : Option (Fin 16)) (detail : BitVec 16) (fc : FC) : Event :=
  { e with repeats := min 255 (e.repeats + 1), lastFc := some fc, detail := detail, tag := tag }

/-- The first record for the kind and subject takes the post; the others are as they were. -/
def mergeInto (k : EventKind) (sub : Subject) (f : Event → Event) : List Event → List Event
  | [] => []
  | e :: es => if e.isFor k sub then f e :: es else e :: mergeInto k sub f es

/-- The earliest ROUTINE record removed, when there is one (R141, case 3). -/
def dropRoutine : List Event → Option (List Event)
  | [] => none
  | e :: es => if e.kind.urgent then (dropRoutine es).map (e :: ·) else some es

/-- A post: merge, append, displace or drop, the first case that fits (R141). -/
def EventQueue.post (q : EventQueue) (k : EventKind) (sub : Subject) (tag : Option (Fin 16))
    (detail : BitVec 16) (fc : FC) : EventQueue :=
  if q.records.any (fun e => e.isFor k sub) then
    { q with records := mergeInto k sub (fun e => e.merge tag detail fc) q.records }
  else if q.records.length < 64 then
    { q with records := q.records ++ [newEvent k sub tag detail fc] }
  else
    match k.urgent, dropRoutine q.records with
    | true, some rest =>
      { q with records := rest ++ [newEvent k sub tag detail fc], overflow := satInc q.overflow }
    | _, _ => { q with overflow := satInc q.overflow }

/-- A block posts an event with the current FC (R141). -/
def State.post (s : State) (k : EventKind) (sub : Subject) (detail : BitVec 16) : State :=
  { s with events := s.events.post k sub (s.eventTag sub) detail s.now }

/-- The delivery order: URGENT records, then ROUTINE ones, each in insertion order (R143). -/
def deliveryOrder (es : List Event) : List Event :=
  es.filter (fun e => e.kind.urgent) ++ es.filter (fun e => !e.kind.urgent)

/-- The list without its first `k` members that satisfy `p`. -/
def dropMatching (p : Event → Bool) : Nat → List Event → List Event
  | _, [] => []
  | 0, es => es
  | k + 1, e :: es => if p e then dropMatching p k es else e :: dropMatching p (k + 1) es

/-- Up to `n` records from the head of the delivery order, and the queue without them, its overflow
count handed out (R145, R146): URGENT records go first, ROUTINE ones only when those have run out. -/
def EventQueue.take (q : EventQueue) (n : Nat) : List Event × EventQueue :=
  let urgents := (q.records.filter fun e => e.kind.urgent).length
  ((deliveryOrder q.records).take n, { q with
    records := dropMatching (fun e => !e.kind.urgent) (n - urgents)
      (dropMatching (fun e => e.kind.urgent) n q.records)
    overflow := 0 })

/-! ## Health and sector tests (chapter 8) -/

/-- In service: JOINING, SERVING or IMPAIRED (8.2). -/
def Health.inService : Health → Bool
  | .joining | .serving | .impaired => true
  | _ => false

/-- SERVING or IMPAIRED: what the serving count and the boost sources treat alike (R134, R136). -/
def Health.serves : Health → Bool
  | .serving | .impaired => true
  | _ => false

/-- LOST or ISOLATED: a source of cover boost (R134). -/
def Health.isOut : Health → Bool
  | .lost | .isolated => true
  | _ => false

/-- The remote is in service. -/
def State.serviced (s : State) (r : RemoteId) : Bool := (s.health r).inService

/-- The members of a sector in the live map. -/
def State.members (s : State) (x : SectorId) : List RemoteId :=
  (List.finRange 16).filter fun r => decide (s.sectorOf r = some x)

/-- The number of members whose health is SERVING or IMPAIRED (R136). -/
def State.servingNow (s : State) (x : SectorId) : Nat :=
  ((s.members x).filter fun r => (s.health r).serves).length

/-- The enabled carriers of a sector in ascending order (R22). -/
def State.carriersOf (s : State) (x : SectorId) : List CarrierId :=
  (List.finRange 12).filter fun c => (s.carrier c).enabled && decide ((s.carrier c).sector = some x)

/-- The enabled carriers of a donor link, bit c for Cc (R28, R29). -/
def State.donorCarriers (s : State) (n : DonorId) : Nat :=
  ((List.finRange 12).filter fun c => (s.carrier c).enabled && decide ((s.carrier c).donor = n)).foldl
    (fun m c => m + 2 ^ c.val) 0

end Sys2Proof.Machine
end

