-- ==== Sys2Proof/Machine/Flags.lean ====
section
/-! DEFINITION. Derived indications: everything the manual computes from other state rather than stores
on its own account, each in one place. -/

namespace Sys2Proof.Machine

/-- The holdover flag: yes exactly when the reference selection is none (R9). -/
def Clock.holdover (c : Clock) : Bool := c.reference.isNone

/-- The donor links the reference source permits (R9). -/
def RefSource.permits : RefSource → DonorId → Bool
  | .auto, _ => true
  | .link m, n => decide (m = n)
  | .none, _ => false

/-- A carrier is source lost when it is enabled and its donor link is muted (R19). -/
def State.sourceLost (s : State) (c : CarrierId) : Bool :=
  (s.carrier c).enabled && (s.dist.donors.get (s.carrier c).donor).muted

/-- Both output faults are yes (R127). -/
def Alarms.bothOut (a : Alarms) : Bool := a.outA && a.outB

/-- An alarm is active when exactly one output fault is yes, or over-temperature is yes (R127). -/
def Alarms.active (a : Alarms) : Bool := (a.outA != a.outB) || a.hot

/-- The set of faulted outputs: output A counts 1, output B counts 2 (R128). -/
def Alarms.outputs (a : Alarms) : Nat := (if a.outA then 1 else 0) + (if a.outB then 2 else 0)

/-- The effective mode from the configured mode and the output faults (R128). -/
def Alarms.effective (a : Alarms) (configured : Mode) : Mode :=
  match a.outA, a.outB with
  | true, false => .foldB
  | false, true => .foldA
  | _, _ => configured

/-- The backed-off target: floor(base gain × 3 / 4) (R31, R129). -/
def thermalTarget (base : Nat) : Nat := base * 3 / 4

/-- The target of a remote, the first case that applies (R31). -/
def State.targetOf (s : State) (r : RemoteId) : Nat :=
  if !s.serviced r then 0
  else if s.engine.holdSet.contains r then 0
  else if (s.supRec r).alarms.hot then thermalTarget (s.live r).baseGain
  else min 1023 ((s.live r).baseGain + (s.supRec r).boost)

/-- X is a boost source of Y (R134), Y's own health apart. -/
def State.isSource (s : State) (y x : RemoteId) : Bool :=
  (s.health x).isOut && (s.sectorOf y).isSome && decide (s.sectorOf x = s.sectorOf y) &&
    (s.live x).partners.contains y && decide (0 < (s.live x).boost)

/-- The boost source set of Y (R134). -/
def State.sourcesOf (s : State) (y : RemoteId) : List RemoteId :=
  if (s.health y).serves then (List.finRange 16).filter (s.isSource y) else []

/-- The largest cover boost among the remotes, 0 for none (R134). -/
def State.largestBoost (s : State) (xs : List RemoteId) : Nat :=
  xs.foldl (fun m x => max m (s.live x).boost) 0

/-- The applied boost of Y with the given source set (R134). -/
def State.appliedBoost (s : State) (y : RemoteId) (sources : List RemoteId) : Nat :=
  if (s.supRec y).alarms.hot then 0 else s.largestBoost sources

/-- A sector is degraded when its serving count is below its minimum remotes (R136). -/
def State.degradedNow (s : State) (x : SectorId) : Bool :=
  decide (s.servingNow x < (s.map.sectors.get x).minimum)

/-- A member of sector x whose health is LOST or ISOLATED names r as a cover partner (R94, R97). -/
def State.namedByOut (s : State) (x : SectorId) (r : RemoteId) : Bool :=
  (s.members x).any fun m => (s.health m).isOut && (s.live m).partners.contains r

/-- The response queue has a free place: 8 places, filled or reserved (R150). -/
def Service.hasRoom (v : Service) : Bool := decide (v.filled.length + v.reserved.length < 8)

/-- The Move Engine is IDLE (R73). -/
def State.engineIdle (s : State) : Bool := decide (s.engine.state = .idle)

/-- A move is a batch. -/
def MoveRecord.isBatch (m : MoveRecord) : Bool := decide (m.kind = .batch)

/-- The engine is running a batch (R155). -/
def State.batchRunning (s : State) : Bool :=
  match s.engine.record with
  | some m => m.isBatch
  | none => false

/-- The grant of a message link: FULL for S at all times (R149). -/
def State.grantOf (s : State) : MsgLink → Grant
  | .service => .full
  | .donor n => s.settings.grants.get n

/-- A schedule falls due at boundary B when B is at or after its due FC (R116). -/
def Schedule.reached (c : Schedule) (b : FC) : Bool := atOrAfter b c.dueFc

/-- The sector of remote r for frame N (R48). -/
def State.sectorFor (s : State) (r : RemoteId) (n : FC) : Option SectorId :=
  let h := s.comb.history.get r
  if atOrAfter n h.switchFc then s.sectorOf r
  else
    match h.since with
    | none => h.previous
    | some f => if atOrAfter n f then h.previous else none

/-- What the sent record of r holds for frame N; a number it does not hold reads as the all-idle map
with mode STRAIGHT (R23). -/
def State.sentFor (s : State) (r : RemoteId) (n : FC) : LaneMap × Mode :=
  match (s.dist.sent.get r).find? (fun e => decide (e.number = n)) with
  | some e => (e.map, e.mode)
  | none => (LaneMap.idle, .straight)

/-- The weight noted for r and frame N; 0 without a note (R50). -/
def State.weightFor (s : State) (r : RemoteId) (n : FC) : Nat :=
  match (s.comb.weights.get r).find? (fun e => decide (e.1 = n)) with
  | some e => e.2
  | none => 0

end Sys2Proof.Machine
end

