-- ==== Sys2Proof/Machine/Samples.lean ====
section
/-! DEFINITION. Sample arithmetic on exact integers: branch mappings (R26, R51), the gain product (R27),
the frame level (R61), the weighted sum (R53), and the frame check (R169). -/

namespace Sys2Proof.Machine

/-- The zero sample. -/
def zeroSample : Sample := ⟨0, 0⟩

/-- A silent lane. -/
def silentLane : Lane := ⟨[], []⟩

/-- A branch brought to length `n` with the zero samples that follow its list. -/
def padTo (n : Nat) (b : Branch) : Branch := b ++ List.replicate (n - b.length) zeroSample

/-- Two branches combined sample by sample, over the longer of the two lists. -/
def zipBranch {β : Type} (f : Sample → Sample → β) (x y : Branch) : List β :=
  let n := max x.length y.length
  List.zipWith f (padTo n x) (padTo n y)

/-- Saturation to 16 bits (Conventions). -/
def sat16 (y : Int) : BitVec 16 :=
  BitVec.ofInt 16 (if y < -32768 then -32768 else if y > 32767 then 32767 else y)

/-- Whether saturation changes the value: a saturated component (R27, R53). -/
def clipped (y : Int) : Bool := decide (y < -32768) || decide (y > 32767)

/-- The number of saturated components of a sample. -/
def clipsOf (i q : Int) : Nat := (if clipped i then 1 else 0) + (if clipped q then 1 else 0)

/-! ## Downlink -/

/-- ½(a + b) of one component: floor((a + b + 1) / 2) (R26). -/
def halfSum (a b : BitVec 16) : BitVec 16 := BitVec.ofInt 16 ((a.toInt + b.toInt + 1) / 2)

/-- The half sum of two branches, I and Q separately (R26). -/
def halfBranch (a b : Branch) : Branch :=
  zipBranch (fun x y => ⟨halfSum x.i y.i, halfSum x.q y.q⟩) a b

/-- The downlink branch mapping: antenna outputs A and B from donor branches a and b (R26). -/
def mapDown (m : Mode) (twoBranches : Bool) (a b : Branch) : Lane :=
  match m, twoBranches with
  | .straight, true => ⟨a, b⟩
  | .straight, false => ⟨a, []⟩
  | .cross, true => ⟨b, a⟩
  | .cross, false => ⟨[], a⟩
  | .foldA, true => ⟨halfBranch a b, []⟩
  | .foldA, false => ⟨a, []⟩
  | .foldB, true => ⟨[], halfBranch a b⟩
  | .foldB, false => ⟨[], a⟩

/-- The gain product before saturation: floor((x × gc × gp + 131,072) / 262,144) (R27). -/
def gainProduct (x : BitVec 16) (gc gp : Nat) : Int := (x.toInt * gc * gp + 131072) / 262144

/-- The gain product of a branch (R27). -/
def gainBranch (gc gp : Nat) (b : Branch) : Branch :=
  b.map fun x => ⟨sat16 (gainProduct x.i gc gp), sat16 (gainProduct x.q gc gp)⟩

/-- The saturated components of the gain product of a branch (R27, R37). -/
def gainClips (gc gp : Nat) (b : Branch) : Nat :=
  (b.map fun x => clipsOf (gainProduct x.i gc gp) (gainProduct x.q gc gp)).sum

/-! ## Uplink -/

/-- The uplink branch mapping: carrier branches A and B from antenna inputs u and v; branch B is absent
on a single-branch carrier (R51). -/
def mapUp (m : Mode) (twoBranches : Bool) (u v : Branch) : Lane :=
  match m, twoBranches with
  | .straight, true => ⟨u, v⟩
  | .cross, true => ⟨v, u⟩
  | .foldA, true => ⟨u, u⟩
  | .foldB, true => ⟨v, v⟩
  | .straight, false => ⟨u, []⟩
  | .cross, false => ⟨v, []⟩
  | .foldA, false => ⟨u, []⟩
  | .foldB, false => ⟨v, []⟩

/-- E of a branch: the sum of I² + Q² over its 2,048 samples (R61, step 1). -/
def energy (b : Branch) : Nat :=
  ((b.take 2048).map fun x => (x.i.toInt * x.i.toInt + x.q.toInt * x.q.toInt).toNat).sum

/-- The level of a mean power (R61, steps 3 and 4). -/
def levelOfPower (p : Nat) : Nat :=
  if p = 0 then 0
  else
    let e := p.log2
    4 * e + 4 * (p - 2 ^ e) / 2 ^ e + 1

/-- The level of a lane from its delivered branches (R61). -/
def laneLevel (twoBranches : Bool) (l : Lane) : Nat :=
  levelOfPower (if twoBranches then (energy l.a + energy l.b) / 4096 else energy l.a / 2048)

/-- A running weighted sum: I and Q per sample position (R53). -/
abbrev Sums := List (Int × Int)

/-- One contributor's share added: w × x (R53). -/
def addShare (acc : Sums) (w : Nat) (b : Branch) : Sums :=
  let n := max acc.length b.length
  List.zipWith (fun (p : Int × Int) (x : Sample) => (p.1 + w * x.i.toInt, p.2 + w * x.q.toInt))
    (acc ++ List.replicate (n - acc.length) (0, 0)) (padTo n b)

/-- y = floor((S + 2^(s − 1)) / 2^s) with s = 11 + headroom (R53). -/
def scaled (headroom : Nat) (sum : Int) : Int := (sum + 2 ^ (10 + headroom)) / 2 ^ (11 + headroom)

/-- The sum of one branch over the contributors, before scaling (R53). -/
def branchSum (shares : List (Nat × Branch)) : Sums :=
  shares.foldl (fun acc p => addShare acc p.1 p.2) []

/-- The output of one branch (R53). -/
def sumBranch (headroom : Nat) (shares : List (Nat × Branch)) : Branch :=
  (branchSum shares).map fun p => ⟨sat16 (scaled headroom p.1), sat16 (scaled headroom p.2)⟩

/-- The saturated components of one branch (R53). -/
def sumClips (headroom : Nat) (shares : List (Nat × Branch)) : Nat :=
  ((branchSum shares).map fun p => clipsOf (scaled headroom p.1) (scaled headroom p.2)).sum

/-! ## The frame check (R169) -/

/-- One bit of the check register: shift left, and add the generator 04C11DB7h when a one falls out. -/
def crcBit (reg : BitVec 32) : BitVec 32 :=
  if reg.msb then (reg <<< 1) ^^^ 0x04C11DB7#32 else reg <<< 1

/-- One byte fed into the check register, most significant bit first. -/
def crcByte (reg : BitVec 32) (b : Byte) : BitVec 32 :=
  Nat.repeat crcBit 8 (reg ^^^ (b.setWidth 32 <<< 24))

/-- The frame check over bytes: register at all ones at the start, inverted at the end (R169). -/
def frameCheck (bytes : List Byte) : BitVec 32 := ~~~ (bytes.foldl crcByte 0xFFFFFFFF#32)

/-- The big-endian bytes of a 16-bit value (chapter 12). -/
def bytes16 (v : BitVec 16) : List Byte := [v.extractLsb' 8 8, v.extractLsb' 0 8]

/-- The big-endian bytes of a 32-bit value (chapter 12). -/
def bytes32 (v : BitVec 32) : List Byte :=
  [v.extractLsb' 24 8, v.extractLsb' 16 8, v.extractLsb' 8 8, v.extractLsb' 0 8]

/-- The bytes of a branch: 2,048 samples of 4 bytes, I then Q (12.1). -/
def branchBytes (b : Branch) : List Byte :=
  (padTo 2048 b).flatMap fun x => bytes16 x.i ++ bytes16 x.q

/-- The fixed pattern that opens a frame (12.1). -/
def delimiterPattern : BitVec 32 := 0x7E5A81A5#32

/-- The bytes of a link frame before its check, from the delimiter to the end of the lanes (12.1). -/
def frameBody (f : LinkFrame) : List Byte :=
  bytes32 f.delimiter ++ bytes16 f.number ++ [f.gapMark, f.flag] ++ f.slot ++ f.map ++
    f.lanes.flatMap fun l => branchBytes l.a ++ branchBytes l.b

/-- The frame as the framer sends it: opened by the delimiter, with the check over it (R4, R169). -/
def sealed (f : LinkFrame) : LinkFrame :=
  let g := { f with delimiter := delimiterPattern }
  { g with check := frameCheck (frameBody g) }

/-- A frame was present: a delimiter was found where it belongs (R1, R2). -/
def isPresent (f : LinkFrame) : Bool := decide (f.delimiter = delimiterPattern)

/-- A received frame passes when the check computed over its bytes equals the check it carries (R1, R169). -/
def passesCheck (f : LinkFrame) : Bool := decide (frameCheck (frameBody f) = f.check)

/-- The frame position ends with a good frame: a frame was present and passes its check (R1). -/
def isGood (f : LinkFrame) : Bool := isPresent f && passesCheck f

/-- The lane map bytes of a frame: the carrier number, or FFh for an idle lane (12.1). -/
def mapBytes (m : LaneMap) : List Byte :=
  m.map fun
    | some c => BitVec.ofNat 8 c.val
    | none => 0xFF#8

end Sys2Proof.Machine
end

