-- ==== Sys2Proof/Machine/Operands.lean ====
section
/-! DEFINITION. The byte layouts of chapter 12: decoding message headers, request bodies and image
records, and encoding responses, notices and the slots of a message. -/

namespace Sys2Proof.Machine

/-! ## Kind codes (12.2) -/

def kindIdentify : Byte := 0x01
def kindReadSettings : Byte := 0x02
def kindWriteSettings : Byte := 0x03
def kindReadCarrier : Byte := 0x04
def kindWriteCarrier : Byte := 0x05
def kindReadPlan : Byte := 0x06
def kindWritePlan : Byte := 0x07
def kindReadLive : Byte := 0x08
def kindSetRemote : Byte := 0x09
def kindReadLoad : Byte := 0x0A
def kindMove : Byte := 0x0B
def kindAbort : Byte := 0x0C
def kindCutOver : Byte := 0x0D
def kindSchedule : Byte := 0x0E
def kindCue : Byte := 0x0F
def kindCancel : Byte := 0x10
def kindIsolate : Byte := 0x11
def kindRestore : Byte := 0x12
def kindReadEvents : Byte := 0x13
def kindReadCounters : Byte := 0x14
def kindClearCounters : Byte := 0x15
def kindTap : Byte := 0x16
def kindSave : Byte := 0x17
def kindRestart : Byte := 0x18
def kindNotice : Byte := 0x40
def kindPoll : Byte := 0x41
def kindStatus : Byte := 0x42
def kindReply : Byte := 0x43
def kindBusy : Byte := 0x44

/-- The status byte of requests and of messages the hub originates (12.2). -/
def statusNone : Byte := 0xFF

/-- A kind the hub sends or receives itself: NOTICE, POLL, STATUS, REPLY or BUSY (R148). -/
def hubKind (k : Byte) : Bool := decide (0x40 ≤ k.toNat) && decide (k.toNat ≤ 0x44)

/-- A request kind the hub knows (R153): codes 01h to 18h. -/
def requestKind (k : Byte) : Bool := decide (0x01 ≤ k.toNat) && decide (k.toNat ≤ 0x18)

/-- The request kinds READ access takes (R149). -/
def readKind (k : Byte) : Bool :=
  [kindIdentify, kindReadSettings, kindReadCarrier, kindReadPlan, kindReadLive, kindReadLoad,
    kindReadCounters].contains k

/-- Status codes (12.2). -/
def Status.code : Status → Byte
  | .done => 0 | .busy => 1 | .denied => 2 | .badTable => 3 | .badIndex => 4 | .badValue => 5
  | .conflict => 6 | .notReady => 7 | .tooLate => 8 | .timeout => 9 | .remoteBusy => 10 | .aborted => 11

/-! ## Reading bytes -/

/-- The byte at an offset; 0 past the end. -/
def byteAt (b : List Byte) (i : Nat) : Byte := b.getD i 0

/-- The 16-bit value at an offset, most significant byte first. -/
def wordAt (b : List Byte) (i : Nat) : BitVec 16 := byteAt b i ++ byteAt b (i + 1)

/-- The 32-bit value at an offset, most significant byte first. -/
def longAt (b : List Byte) (i : Nat) : BitVec 32 := wordAt b i ++ wordAt b (i + 2)

/-- A yes or no byte: 0 or 1, any other value refused (R170). -/
def yesNo (b : Byte) : Option Bool :=
  if b = 0 then some false else if b = 1 then some true else none

/-- A sector byte: 0 to 7, FFh none, any other value refused (R170). -/
def sectorByte (b : Byte) : Option (Option SectorId) :=
  if b = 0xFF then some none else (finOf 8 b).map some

/-- A mode byte (12.3). -/
def modeByte (b : Byte) : Option Mode :=
  if b = 0 then some .straight else if b = 1 then some .cross
  else if b = 2 then some .foldA else if b = 3 then some .foldB else none

/-- A list of members below `n`: a count byte at `i`, refused above `most`, and the entries after it;
entries beyond the count are ignored (12.3, R170). -/
def listAt (n most : Nat) (b : List Byte) (i : Nat) : Option (List (Fin n)) :=
  let count := (byteAt b i).toNat
  if count > most then none
  else ((List.range count).map fun k => finOf n (byteAt b (i + 1 + k))).mapM id

/-- A label: a length byte at `i`, 0 for absent, refused above `most`, and its characters, each 20h to
7Eh (R104, R107, R166). DESIGN CHOICE, unsafe (log entry 34): the bytes past the label's length are ignored, where 12.3
only says that they are 0. -/
def labelAt (most : Nat) (b : List Byte) (i : Nat) : Option (Option (List Byte)) :=
  let count := (byteAt b i).toNat
  let text := (List.range count).map fun k => byteAt b (i + 1 + k)
  if count = 0 then some none
  else if count > most then none
  else if text.all (fun c => decide (0x20 ≤ c.toNat) && decide (c.toNat ≤ 0x7E)) then some (some text)
  else none

/-- An optional 16-bit value: a presence byte and its value (12.3). DESIGN CHOICE, unsafe (log entry 34): the value bytes
of an absent one are ignored, where 12.3 only says that they are sent as 0. -/
def optWordAt (b : List Byte) (i : Nat) : Option (Option (BitVec 16)) :=
  (yesNo (byteAt b i)).map fun p => if p then some (wordAt b (i + 1)) else none

/-- The message header of a first slot (12.2). -/
def headerOf (b : List Byte) : Header where
  dest := byteAt b 0
  port := byteAt b 1
  mask := wordAt b 2
  tag := byteAt b 4
  kind := byteAt b 5
  status := byteAt b 6
  length := byteAt b 7

/-! ## Records (12.3) -/

/-- A branches byte: 1 or 2, any other value refused; the answer says whether there are two (R20). -/
def branchesByte (b : Byte) : Option Bool := if b = 1 then some false else if b = 2 then some true else none

/-- A carrier record at an offset, clamped; `none` where R20 check 2 refuses it. -/
def carrierAt (b : List Byte) (i : Nat) : Option Carrier := do
  let enabled ← yesNo (byteAt b i)
  let donor ← finOf 4 (byteAt b (i + 1))
  let slot ← finOf 3 (byteAt b (i + 2))
  let tag ← finOf 16 (byteAt b (i + 3))
  let sector ← sectorByte (byteAt b (i + 4))
  let two ← branchesByte (byteAt b (i + 5))
  return { enabled := enabled, donor := donor, slot := slot, tag := tag, sector := sector, twoBranches := two
           gain := min 1023 (wordAt b (i + 6)).toNat, headroom := min 4 (byteAt b (i + 8)).toNat }

/-- The fields of a remote entry at an offset past configured and sector, clamped (R107, R155). -/
def entryAt (b : List Byte) (i : Nat) (configured : Bool) (sector : Option SectorId) : Option RemoteEntry := do
  let mode ← modeByte (byteAt b (i + 6))
  let alternates ← listAt 8 3 b (i + 7)
  let partners ← listAt 16 2 b (i + 11)
  let position ← optWordAt b (i + 15)
  let gating ← yesNo (byteAt b (i + 18))
  return { configured := configured, sector := sector
           baseGain := min 1023 (wordAt b (i + 2)).toNat, weight := min 4095 (wordAt b (i + 4)).toNat
           mode := mode, alternates := alternates, partners := partners
           boost := (byteAt b (i + 14)).toNat, position := position, gatingAllowed := gating }

/-- R107 order 4 and R155: alternates distinct and none the given sector, partners distinct and none the
port itself. -/
def RemoteEntry.consistent (e : RemoteEntry) (r : RemoteId) (sector : Option SectorId) : Bool :=
  decide e.alternates.Nodup && decide e.partners.Nodup && !e.partners.contains r &&
    e.alternates.all (fun a => decide (some a ≠ sector))

/-- A remote entry of a plan at an offset; `none` where R107 orders 3 and 4 refuse it. -/
def planEntryAt (b : List Byte) (i : Nat) (r : RemoteId) : Option RemoteEntry := do
  let configured ← yesNo (byteAt b i)
  let sector ← sectorByte (byteAt b (i + 1))
  let e ← entryAt b i configured sector
  if e.consistent r sector then some e else none

/-- A sector entry at an offset, clamped (R106, R107). -/
def sectorEntryAt (b : List Byte) (i : Nat) : Option SectorEntry := do
  let source ← yesNo (byteAt b (i + 3))
  let destination ← yesNo (byteAt b (i + 4))
  let gating ← yesNo (byteAt b (i + 5))
  return { ceiling := min 16000 (wordAt b i).toNat, minimum := min 16 (byteAt b (i + 2)).toNat
           source := source, destination := destination, gating := gating }

/-- A plan header: valid, start marker and label (R107). -/
structure PlanHead where
  valid : Bool
  start : Bool
  label : Option (List Byte)
deriving DecidableEq, Repr

/-- A plan header at an offset (12.3). -/
def planHeadAt (b : List Byte) (i : Nat) : Option PlanHead := do
  let valid ← yesNo (byteAt b i)
  let start ← yesNo (byteAt b (i + 1))
  let label ← labelAt 16 b (i + 2)
  return ⟨valid, start, label⟩

/-! ## Settings (R154) -/

/-- The ramp step a written value stands for: 0 as 1, above 32 as 32, any other as the largest allowed
value not above it (R33). -/
def rampStepOf (v : Nat) : Nat :=
  if v ≥ 32 then 32 else if v ≥ 16 then 16 else if v ≥ 8 then 8 else if v ≥ 4 then 4
  else if v ≥ 2 then 2 else 1

/-- The reference source of a code (R154 item 9). -/
def refSourceOf (v : Nat) : Option RefSource :=
  if v = 0 then some .auto
  else if h : 1 ≤ v ∧ v ≤ 4 then some (.link ⟨v - 1, by omega⟩)
  else if v = 5 then some .none else none

/-- The code of a reference source (R154 item 9). -/
def RefSource.code : RefSource → Nat
  | .auto => 0
  | .link n => n.val + 1
  | .none => 5

/-- The grant of a code (R154 items 22 to 25). -/
def grantOfCode (v : Nat) : Option Grant :=
  if v = 0 then some .none else if v = 1 then some .read else if v = 2 then some .full else none

/-- The code of a grant (R154). -/
def Grant.code : Grant → Nat
  | .none => 0
  | .read => 1
  | .full => 2

/-- The settings with one item written, clamped as its owning rule states; `none` for an enumerated
item with a code outside its list, or for an item number that is none (R154). -/
def Settings.write (c : Settings) (item value : Nat) : Option Settings :=
  match item with
  | 1 => some { c with alignment := clampTo 2 8 value }
  | 2 => some { c with gateMargin := min 31 value }
  | 3 => some { c with clipLimit := value }
  | 4 => some { c with lateLimit := value }
  | 5 => some { c with window := max 800 value }
  | 6 => some { c with activityMargin := min 31 value }
  | 7 => some { c with rampStep := rampStepOf value }
  | 8 => some { c with rampInterval := clampTo 1 4 value }
  | 9 => (refSourceOf value).map fun r => { c with reference := r }
  | 10 => some { c with grace := clampTo 1 255 value }
  | 11 => some { c with poll := clampTo 80 8000 value }
  | 12 => some { c with missLimit := clampTo 1 7 value }
  | 13 => some { c with flapLimit := clampTo 1 15 value }
  | 14 => some { c with flapPeriod := clampTo 1 255 value }
  | 15 => if value = 0 then some { c with autoSpread := false }
          else if value = 1 then some { c with autoSpread := true } else none
  | 16 => some { c with overloadHold := clampTo 1 15 value }
  | 17 => some { c with homingHold := clampTo 1 15 value }
  | 18 => if value = 0 then some { c with notices := false }
          else if value = 1 then some { c with notices := true } else none
  | 19 => some { c with pacing := clampTo 1 255 value }
  | 20 => some { c with passTimeout := clampTo 8 4095 value }
  | 21 => some { c with passRetries := min 3 value }
  | 22 => (grantOfCode value).map fun g => { c with grants := c.grants.set 0 g }
  | 23 => (grantOfCode value).map fun g => { c with grants := c.grants.set 1 g }
  | 24 => (grantOfCode value).map fun g => { c with grants := c.grants.set 2 g }
  | 25 => (grantOfCode value).map fun g => { c with grants := c.grants.set 3 g }
  | _ => none

/-- The settings with a list of items written, all or none (R154). -/
def Settings.writeAll (c : Settings) (pairs : List (Nat × Nat)) : Option Settings :=
  pairs.foldlM (fun c p => c.write p.1 p.2) c

/-- The 25 values in item order (R154). -/
def Settings.values (c : Settings) : List Nat :=
  [c.alignment, c.gateMargin, c.clipLimit, c.lateLimit, c.window, c.activityMargin, c.rampStep,
    c.rampInterval, c.reference.code, c.grace, c.poll, c.missLimit, c.flapLimit, c.flapPeriod,
    if c.autoSpread then 1 else 0, c.overloadHold, c.homingHold, if c.notices then 1 else 0, c.pacing,
    c.passTimeout, c.passRetries] ++ c.grants.items.map Grant.code

/-- The item and value pairs of a WRITE-SETTINGS body (12.3). -/
def settingPairs (b : List Byte) : List (Nat × Nat) :=
  (List.range (b.length / 3)).map fun k => ((byteAt b (3 * k)).toNat, (wordAt b (3 * k + 1)).toNat)

/-! ## Selectors and lengths (R170) -/

/-- The refusal of a selector byte outside the codes of its request, for the kinds that have one; the
length is then not tested (R170). -/
def selectorStatus (k : Byte) (b : List Byte) : Option Status :=
  let above (i most : Nat) : Bool := decide (i < b.length) && decide ((byteAt b i).toNat > most)
  if k = kindReadPlan ∨ k = kindWritePlan then (if above 1 2 then some .badTable else none)
  else if k = kindReadLive ∨ k = kindSetRemote then (if above 0 1 then some .badTable else none)
  else if k = kindReadLoad then (if above 0 1 then some .badValue else none)
  else if k = kindTap ∨ k = kindReadCounters then (if above 0 3 then some .badValue else none)
  else none

/-- The body length a known kind and its selector ask for (12.3); WRITE-SETTINGS is tested apart. -/
def bodyLength (k : Byte) (b : List Byte) : Nat :=
  if k = kindReadCarrier ∨ k = kindCutOver ∨ k = kindIsolate ∨ k = kindRestore ∨ k = kindReadEvents ∨
      k = kindReadCounters ∨ k = kindClearCounters then 1
  else if k = kindReadLive ∨ k = kindReadLoad ∨ k = kindMove then 2
  else if k = kindReadPlan ∨ k = kindTap then 3
  else if k = kindSchedule then 5
  else if k = kindWriteCarrier then 10
  else if k = kindWritePlan then (if byteAt b 1 = 2 then 9 else 22)
  else if k = kindSetRemote then (if byteAt b 0 = 1 then 8 else 21)
  else if k = kindSave then 33
  else 0

/-- The length of a body fits its kind and selector (R153, R170). -/
def lengthFits (k : Byte) (b : List Byte) : Bool :=
  if k = kindWriteSettings then
    decide (b.length ≠ 0) && decide (b.length % 3 = 0) && decide (b.length ≤ 75)
  else decide (b.length = bodyLength k b)

/-- What the decoding of a body refuses before the owning rule acts (R170): a bad selector, then a bad
length. -/
def bodyStatus (k : Byte) (b : List Byte) : Option Status :=
  match selectorStatus k b with
  | some st => some st
  | none => if lengthFits k b then none else some .badValue

/-! ## Writing bytes -/

/-- A number as one byte. -/
def enc8 (n : Nat) : List Byte := [BitVec.ofNat 8 n]

/-- A number as two bytes (12.3). -/
def enc16 (n : Nat) : List Byte := bytes16 (word16 n)

/-- A yes or no byte (12.3). -/
def encYes (b : Bool) : List Byte := [if b then 1 else 0]

/-- A sector or donor byte that may be none, FFh (12.3). A plan id that is none is sent in the same way: DESIGN
CHOICE, unsafe (log entry 15), since 12.3 does not say how. -/
def encOptFin {n : Nat} : Option (Fin n) → List Byte
  | some x => enc8 x.val
  | none => [0xFF]

/-- An optional field: a presence byte and its value, of `width` zero bytes when absent (12.3). -/
def encOpt {α : Type} (width : Nat) (f : α → List Byte) : Option α → List Byte
  | some a => 1 :: f a
  | none => 0 :: List.replicate width 0

/-- A list: its count and room for `most` entries (12.3). -/
def encList {n : Nat} (most : Nat) (xs : List (Fin n)) : List Byte :=
  enc8 xs.length ++ (xs.map fun x => BitVec.ofNat 8 x.val) ++ List.replicate (most - xs.length) 0

/-- A set of remote ports as a 16-bit mask (12.3). -/
def encMask (xs : List RemoteId) : List Byte := enc16 (xs.foldl (fun m r => m ||| 2 ^ r.val) 0)

/-- A timer: a presence byte and a 2-byte count, 0 for idle (12.3); a count that does not fit is a free
value (log entry 7). -/
def encTimer (t : Option Nat) : List Byte :=
  encOpt 2 (fun n => if n ≤ 65535 then enc16 n else bytes16 (Config.wideTimerCount n)) t

/-- A label with its length byte and its room (12.3). -/
def encLabel (most : Nat) : Option (List Byte) → List Byte
  | none => List.replicate (most + 1) 0
  | some t => enc8 t.length ++ t ++ List.replicate (most - t.length) 0

/-- The code of a mode (12.3). -/
def Mode.code : Mode → Nat
  | .straight => 0
  | .cross => 1
  | .foldA => 2
  | .foldB => 3

/-- A carrier record (12.3). -/
def encCarrier (c : Carrier) : List Byte :=
  encYes c.enabled ++ enc8 c.donor.val ++ enc8 c.slot.val ++ enc8 c.tag.val ++ encOptFin c.sector ++
    enc8 (if c.twoBranches then 2 else 1) ++ enc16 c.gain ++ enc8 c.headroom

/-- A remote entry (12.3). -/
def encEntry (e : RemoteEntry) : List Byte :=
  encYes e.configured ++ encOptFin e.sector ++ enc16 e.baseGain ++ enc16 e.weight ++ enc8 e.mode.code ++
    encList 3 e.alternates ++ encList 2 e.partners ++ enc8 e.boost ++ encOpt 2 bytes16 e.position ++
    encYes e.gatingAllowed

/-- A sector entry (12.3). -/
def encSectorEntry (e : SectorEntry) : List Byte :=
  enc16 e.ceiling ++ enc8 e.minimum ++ encYes e.source ++ encYes e.destination ++ encYes e.gating

/-- Subject type and number (12.2). -/
def encSubject : Subject → List Byte
  | .hub => [0, 0]
  | .donor n => 1 :: enc8 n.val
  | .remote r => 2 :: enc8 r.val
  | .carrier c => 3 :: enc8 c.val
  | .sector x => 4 :: enc8 x.val
  | .plan p => 5 :: enc8 p.val

/-- An event record, 16 bytes (12.2). -/
def encEvent (e : Event) : List Byte :=
  enc8 e.kind.code ++ encYes (!e.kind.urgent) ++ encSubject e.subject ++
    (match e.tag with | some t => enc8 t.val | none => [0xFF]) ++
    enc8 e.repeats ++ bytes16 e.detail ++ bytes32 e.firstFc ++
    (match e.lastFc with | some f => bytes32 f | none => [0, 0, 0, 0])

/-- The body of a notice and of a READ-EVENTS response (12.2). -/
def encEvents (overflow left : Nat) (es : List Event) : List Byte :=
  enc16 overflow ++ enc8 es.length ++ enc8 left ++ es.flatMap encEvent

/-- A body that fits a message as it is; a longer content is carried as a free value of at most 224
bytes (R13, log entry 6). -/
def fitBody (content : List Byte) : List Byte :=
  if content.length ≤ 224 then content else (Config.oversizeBody content).take 224

/-! ## The slots of a message (R13) -/

/-- The 16 bytes of a message header (12.2). -/
def encHeader (h : Header) : List Byte :=
  [h.dest, h.port] ++ bytes16 h.mask ++ [h.tag, h.kind, h.status, h.length] ++ List.replicate 8 0

/-- Body piece `k`: 16 bytes, the last one padded (R13). DESIGN CHOICE (log entry 29): the padding is zeros for
every message the hub sends; the manual says so of responses alone. -/
def bodyPiece (body : List Byte) (k : Nat) : List Byte :=
  let p := (body.drop (16 * k)).take 16
  p ++ List.replicate (16 - p.length) 0

/-- The number of body pieces of a message of length L: ⌈L / 16⌉ (R13). -/
def pieceCount (l : Nat) : Nat := (l + 15) / 16

/-- The slots of a message: ONLY, or FIRST, MIDDLE and LAST (R13). -/
def messageSlots (h : Header) (body : List Byte) : List Slot :=
  let n := pieceCount body.length
  if n = 0 then [⟨1, encHeader h⟩]
  else ⟨2, encHeader h⟩ ::
    (List.range n).map fun k => ⟨if k + 1 = n then 4 else 3, bodyPiece body k⟩

/-- A header the hub fills: unused fields 0 (12.2, log entry 14). -/
def hubHeader (dest port tag kind status : Byte) (body : List Byte) : Header :=
  ⟨dest, port, 0, tag, kind, status, BitVec.ofNat 8 body.length⟩

/-- The slots of a response: kind and tag of its request, and its status (R148). -/
def responseSlots (p : Response) : List Slot :=
  messageSlots (hubHeader 0 0 p.tag p.kind p.status.code p.body) p.body

/-- The slots of a notice: destination HUB, no status, the sequence as tag (R145). -/
def noticeSlots (seq : Byte) (body : List Byte) : List Slot :=
  messageSlots (hubHeader 0 0 seq kindNotice statusNone body) body

/-- The slot of a POLL to remote r: tag 0 and length 0 (12.2). Its destination REMOTE and its port r are a DESIGN CHOICE,
unsafe (log entry 14): 12.2 names neither for a POLL. -/
def pollSlots (r : RemoteId) : List Slot :=
  messageSlots (hubHeader 1 (BitVec.ofNat 8 r.val) 0 kindPoll statusNone []) []

/-- The slots of a relayed message: destination REMOTE r and the relay tag (R160). -/
def relayedSlots (r : RemoteId) (m : Relayed) : List Slot :=
  messageSlots (hubHeader 1 (BitVec.ofNat 8 r.val) m.tag m.kind statusNone m.body) m.body

/-! ## STATUS bodies (12.2) -/

/-- The serial of a STATUS body. -/
def statusSerial (b : List Byte) : BitVec 32 := longAt b 0

/-- The position code of a STATUS body. -/
def statusPosition (b : List Byte) : BitVec 16 := wordAt b 4

/-- The alarms of a STATUS body: bits 0 to 3, bits 4 to 7 ignored. -/
def statusAlarms (b : List Byte) : Alarms :=
  let a := byteAt b 6
  ⟨a.getLsbD 0, a.getLsbD 1, a.getLsbD 2, a.getLsbD 3⟩

end Sys2Proof.Machine
end

