-- ==== Sys2Proof/Machine/Relay.lean ====
section
/-! DEFINITION. The response queue, the remote-link arbiters, pass-throughs and the set relay
(R16, R17, R150, R160 to R164). -/

namespace Sys2Proof.Machine

/-! ## The response queue (R150) -/

/-- A response fills a free place. -/
def State.fill (s : State) (p : Response) : State :=
  { s with svc := { s.svc with filled := s.svc.filled ++ [p] } }

/-- A place is reserved. -/
def State.reserve (s : State) (v : Reservation) : State :=
  { s with svc := { s.svc with reserved := s.svc.reserved ++ [v] } }

/-- A response fills the place reserved for it; without such a place it is never sent (R168). -/
def State.fillReserved (s : State) (v : Reservation) (p : Response) : State :=
  if s.svc.reserved.contains v then
    ({ s with svc := { s.svc with reserved := s.svc.reserved.erase v } }).fill p
  else s

/-- The slot of a port, changed. -/
def State.setPass (s : State) (r : RemoteId) (p : Option Pass) : State :=
  { s with svc := { s.svc with pass := s.svc.pass.set r p } }

/-- The refused offers of a port, replaced. -/
def State.setRefused (s : State) (r : RemoteId) (ms : List Relayed) : State :=
  { s with svc := { s.svc with refused := s.svc.refused.set r ms } }

/-- A relay tag is taken: the counter's value, and the counter one further (R160). -/
def State.takeTag (s : State) (r : RemoteId) : Byte × State :=
  (s.svc.relayTags.get r, { s with svc := { s.svc with relayTags := s.svc.relayTags.modify r (· + 1) } })

/-! ## The set relay (R164) -/

/-- The set relay ends with DONE when no port remains (R164). -/
def State.endSetRelay (s : State) : State :=
  match s.svc.setRelay with
  | some v =>
    if v.remaining.isEmpty then
      let s := s.fillReserved .setRelay ⟨v.link, v.tag, v.kind, .done, [], false⟩
      { s with svc := { s.svc with setRelay := none } }
    else s
  | none => s

/-- A port leaves the remaining set (R164). -/
def State.leaveRemaining (s : State) (r : RemoteId) : State :=
  match s.svc.setRelay with
  | some v =>
    ({ s with svc := { s.svc with setRelay := some { v with remaining := v.remaining.erase r } } }).endSetRelay
  | none => s

/-! ## The arbiter (R17) -/

/-- The arbiter accepts a message: it joins the relay queue, and the Relay is told (R17, R164). -/
def State.acceptOffer (s : State) (r : RemoteId) (m : Relayed) : State :=
  let s := s.modFramer (.remote r) fun f => { f with relayQueue := f.relayQueue ++ [m] }
  if m.copy then s.leaveRemaining r else s

/-- The Relay offers a message to the arbiter of port r: accepted while its queue holds fewer than 4,
else refused and kept for a later offer (R17). -/
def State.offer (s : State) (r : RemoteId) (m : Relayed) : State :=
  if (s.framer (.remote r)).relayQueue.length < 4 then s.acceptOffer r m
  else s.setRefused r (s.svc.refused.get r ++ [m])

/-- The arbiter reports that an entry has started: the offer refused earliest is made again (R17). -/
def State.reoffer (s : State) (r : RemoteId) : State :=
  match s.svc.refused.get r with
  | [] => s
  | m :: ms =>
    if (s.framer (.remote r)).relayQueue.length < 4 then (s.setRefused r ms).acceptOffer r m else s

/-- The Supervisor queues a POLL at the arbiter of port r, and sets poll awaiting to yes (R17, R122). -/
def State.queuePoll (s : State) (r : RemoteId) : State :=
  (s.modFramer (.remote r) fun f => { f with pollPlace := true }).modSup r fun v => { v with awaiting := true }

/-! ## Pass-through (R161 to R163) -/

/-- An attempt of port r's slot still waiting at the arbiter, or refused by it, is withdrawn (R161). -/
def State.withdraw (s : State) (r : RemoteId) : State :=
  (s.modFramer (.remote r) fun f => { f with relayQueue := f.relayQueue.filter fun m => m.copy }).setRefused r
    ((s.svc.refused.get r).filter fun m => m.copy)

/-- The pass-through of port r ends: its place is filled with a response of the origin request's kind and
tag, and the slot becomes idle (R162). -/
def State.endPass (s : State) (r : RemoteId) (st : Status) (body : List Byte) : State :=
  match s.svc.pass.get r with
  | some p =>
    let s := s.fillReserved (.pass r) ⟨p.link, p.tag, p.kind, st, body, false⟩
    ((((s.setPass r none).withdraw r).unDue (.passTimeout r)).unDue (.retryEnd r))
  | none => s

/-- An open pass-through of port r ends with ABORTED (R163). -/
def State.abortPass (s : State) (r : RemoteId) : State := s.endPass r .aborted []

/-- The attempt of an open slot, as relayed. -/
def Pass.attempt (p : Pass) : Relayed := ⟨false, p.relayTag, p.kind, p.body⟩

/-- A pass-through of port r is opened (R161). -/
def State.openPass (s : State) (r : RemoteId) (l : MsgLink) (m : Message) : State :=
  let (t, s) := s.takeTag r
  let p : Pass := ⟨l, m.head.tag, m.head.kind, m.body, t, s.settings.passRetries, .sending none⟩
  let s := ((s.setPass r (some p)).reserve (.pass r)).countRelay r fun c => { c with opened := satInc c.opened }
  s.offer r p.attempt

/-- The arbiter reports a relayed message sent (R161): it acts only on an open slot whose current attempt
has that relay tag. -/
def State.sentReport (s : State) (r : RemoteId) (t : Byte) : State :=
  match s.svc.pass.get r with
  | some p => if p.relayTag = t then s.setPass r (some { p with phase := .awaiting 0 }) else s
  | none => s

/-- The pass timeout of port r expires (R161). -/
def State.passExpires (s : State) (r : RemoteId) : State :=
  match s.svc.pass.get r with
  | some p =>
    match p.phase with
    | .awaiting _ => (s.countRelay r fun c => { c with timeouts := satInc c.timeouts }).endPass r .timeout []
    | .sending _ => s
  | none => s

/-- The retry delay of port r ends: the new attempt is offered to the arbiter (R162). -/
def State.retryEnds (s : State) (r : RemoteId) : State :=
  match s.svc.pass.get r with
  | some p =>
    match p.phase with
    | .sending (some _) => (s.setPass r (some { p with phase := .sending none })).offer r p.attempt
    | _ => s
  | none => s

/-- A REPLY or BUSY that matches no open attempt (R162). -/
def State.unmatchedReply (s : State) (r : RemoteId) : State :=
  s.countRelay r fun c => { c with unmatched := satInc c.unmatched }

/-- A REPLY from port r reaches the Relay (R162). -/
def State.replyArrives (s : State) (r : RemoteId) (m : Message) : State :=
  match s.svc.pass.get r with
  | some p => if p.relayTag = m.head.tag then s.endPass r .done m.body else s.unmatchedReply r
  | none => s.unmatchedReply r

/-- A matching BUSY with retries left starts a retry (R162). -/
def State.retryPass (s : State) (r : RemoteId) (p : Pass) : State :=
  let (t, s) := (s.withdraw r).takeTag r
  let s := s.setPass r (some { p with relayTag := t, retries := p.retries - 1, phase := .sending (some 1) })
  (s.unDue (.passTimeout r)).unDue (.retryEnd r)

/-- A BUSY from port r reaches the Relay (R162). -/
def State.busyArrives (s : State) (r : RemoteId) (m : Message) : State :=
  match s.svc.pass.get r with
  | some p =>
    if p.relayTag = m.head.tag then
      let s := s.countRelay r fun c => { c with busies := satInc c.busies }
      if p.retries = 0 then s.endPass r .remoteBusy [] else s.retryPass r p
    else s.unmatchedReply r
  | none => s.unmatchedReply r

/-- The timeout count or the retry delay of port r at a boundary (R161, R162): the count reaching the
pass timeout, or the delay that would pass 8, falls due. -/
def State.tickPass (s : State) (r : RemoteId) : State :=
  match s.svc.pass.get r with
  | some p =>
    match p.phase with
    | .awaiting n =>
      let s := s.setPass r (some { p with phase := .awaiting (n + 1) })
      if n + 1 ≥ s.settings.passTimeout then s.markDue (.passTimeout r) else s
    | .sending (some d) =>
      if d + 1 > 8 then s.markDue (.retryEnd r)
      else s.setPass r (some { p with phase := .sending (some (d + 1)) })
    | .sending none => s
  | none => s

/-- A set relay starts: every named LOCKED port is given a relay tag and offered a copy (R164). -/
def State.startSetRelay (s : State) (l : MsgLink) (m : Message) (ports : List RemoteId) : State :=
  let s := { s with svc := { s.svc with
    setRelay := some ⟨l, m.head.tag, m.head.kind, m.body, ports⟩
    reserved := s.svc.reserved ++ [Reservation.setRelay] } }
  let s := ports.foldl (fun s r =>
    let (t, s) := s.takeTag r
    s.offer r ⟨true, t, m.head.kind, m.body⟩) s
  s.endSetRelay

/-- The Relay's part when remote link r leaves LOCKED (R18, R163, R164): an open pass-through ends with
ABORTED, and a copy not accepted is not sent. -/
def State.relayLinkLost (s : State) (r : RemoteId) : State :=
  let s := s.abortPass r
  (s.setRefused r []).leaveRemaining r

/-! ## Senders (R16, R17) -/

/-- A message starts in emission on a link; its first slot goes in the frame of this boundary. -/
def State.startEmission (s : State) (l : Link) (w : Sending) (slots : List Slot) : State :=
  (s.modFramer l fun f => { f with emission := some ⟨w, slots⟩ }).unDue (.sender l)

/-- A message boundary of a link stands open: it is due, nothing is in emission and the link is LOCKED. -/
def State.senderFree (s : State) (l : Link) : Bool :=
  s.boundary.due.contains (.sender l) && (s.framer l).emission.isNone && s.locked l

/-- The response queue holds a response for the link. -/
def State.hasResponse (s : State) (l : MsgLink) : Bool := s.svc.filled.any fun p => decide (p.link = l)

/-- The sender takes the oldest response for the link and starts it; its place becomes free (R16). -/
def State.startResponse (s : State) (l : MsgLink) : State :=
  if s.senderFree (linkOf l) then
    match s.svc.filled.find? (fun p => decide (p.link = l)) with
    | some p =>
      ({ s with svc := { s.svc with filled := s.svc.filled.eraseP fun p => decide (p.link = l) } }).startEmission
        (linkOf l) (.response p.restart) (responseSlots p)
    | none => s
  else s

/-- The service sender takes the offered notice when no response waits for S (R16, R145). -/
def State.startNotice (s : State) : State :=
  if s.senderFree .service && !s.hasResponse .service && s.events.offer then
    let (es, q) := s.events.take 4
    let body := encEvents s.events.overflow q.records.length es
    ({ s with events := { q with seq := s.events.seq + 1, offer := false } }).startEmission .service .notice
      (noticeSlots s.events.seq body)
  else s

/-- The arbiter of port r starts the waiting POLL, or its oldest relayed message (R17). -/
def State.startRemote (s : State) (r : RemoteId) : State :=
  if s.senderFree (.remote r) then
    let f := s.framer (.remote r)
    if f.pollPlace then
      (s.modFramer (.remote r) fun f => { f with pollPlace := false }).startEmission (.remote r) .poll (pollSlots r)
    else
      match f.relayQueue with
      | m :: ms =>
        ((s.modFramer (.remote r) fun f => { f with relayQueue := ms }).startEmission (.remote r)
          (.relayed m.tag) (relayedSlots r m)).reoffer r
      | [] => s
  else s

/-- What a link's message boundary starts (R16, R17). -/
def State.startAny (s : State) : Link → State
  | .service => (s.startResponse .service).startNotice
  | .donor n => s.startResponse (.donor n)
  | .remote r => s.startRemote r

end Sys2Proof.Machine
end

