-- ==== Sys2Proof/Machine/Supervision.lean ====
section
/-! DEFINITION. Ramps, the end of a move, boosts, sector degradation and the health changes of remotes,
in the order in which one causes the next (R30 to R35, R79 to R86, R119 to R137).

A completion notice may end JOINING, which is itself a health change that recomputes targets. The
recompute made there meets no remote that is JOINING and not held, so its notices reach the Move Engine
alone: `engineRecompute` is that inner recompute, `recompute` the full one. -/

namespace Sys2Proof.Machine

/-! ## Holds -/

/-- The Supervisor is told that the remotes are held, or no longer held (R77, R78). -/
def State.tellHeld (s : State) (rs : List RemoteId) (b : Bool) : State :=
  rs.foldl (fun s r => s.modSup r fun v => { v with held := b }) s

/-- A remote is put into the hold set (R77, R81, R82). -/
def State.holdRemote (s : State) (r : RemoteId) : State :=
  if s.engine.holdSet.contains r then s
  else ({ s with engine := { s.engine with holdSet := s.engine.holdSet ++ [r] } }).tellHeld [r] true

/-- Every hold is released (R78, R83, R86). -/
def State.releaseHolds (s : State) : State :=
  ({ s with engine := { s.engine with holdSet := [] } }).tellHeld s.engine.holdSet false

/-! ## The end of a move (R79) -/

/-- The outcome codes: 1 DONE, 2 ABANDONED, 3 ABORTED (R139). -/
def MoveOutcome.code : MoveOutcome → Nat
  | .done => 1
  | .abandoned => 2
  | .aborted => 3

/-- The event that reports the end of a move (R79, R139). -/
def State.postEnd (s : State) (m : MoveRecord) (o : MoveOutcome) : State :=
  match m.kind, m.plan with
  | .batch, some p =>
    match o with
    | .done => s.post .cutoverDone (.plan p) (word16 o.code)
    | _ => s.post .cutoverAborted (.plan p) (word16 o.code)
  | .batch, none => s
  | _, _ =>
    match m.places with
    | p :: _ => s.post .moveDone (.remote p.remote) (word16 o.code)
    | [] => s

/-- A batch that ends DONE sets the active plan and clears the diverged flag (R84). -/
def State.adoptPlan (s : State) (m : MoveRecord) (o : MoveOutcome) : State :=
  if m.isBatch && decide (o = .done) then
    { s with map := { s.map with active := m.plan, diverged := false } }
  else s

/-- A due-waiting schedule is to be tested again, now that the engine is IDLE (R116). -/
def State.askRetest (s : State) : State :=
  match s.store.schedule with
  | some c => if c.waiting then s.markDue .retest else s
  | none => s

/-- The engine returns to IDLE: record and pending map removed, both sets emptied, and the end FC told to
the Spreader (R79). -/
def State.engineRests (s : State) : State :=
  { (s.releaseHolds).unDue .switch with
    engine := Engine.idle
    spreader := { s.spreader with lastEnd := some s.now } }

/-- The move ends (R79): outcome, event, the engine IDLE, and a due-waiting schedule to be tested again
(R116). -/
def State.moveEnd (s : State) (o : MoveOutcome) : State :=
  match s.engine.record with
  | none => s
  | some m =>
    let s := { s with engine := { s.engine with record := some { m with outcome := some o } } }
    (((s.adoptPlan m o).postEnd m o).engineRests).askRetest

/-- The phase in progress has nothing left to wait for: FADE-OUT goes to SWITCH-PENDING, FADE-IN and
RECOVERING end the move (R77, R79, R84, R86). -/
def State.phaseDone (s : State) : State :=
  match s.engine.state with
  | .fadeOut => { s with engine := { s.engine with state := .switchPending } }
  | .fadeIn => s.moveEnd .done
  | .recovering => s.moveEnd .aborted
  | _ => s

/-- A remote leaves the phase set; the last one ends the phase. -/
def State.leavePhase (s : State) (r : RemoteId) : State :=
  if s.engine.phaseSet.contains r then
    let left := s.engine.phaseSet.filter fun x => decide (x ≠ r)
    let s := { s with engine := { s.engine with phaseSet := left } }
    if left.isEmpty then s.phaseDone else s
  else s

/-- A completion notice reaches the Move Engine (R35, R77, R79, R82, R84, R86). -/
def State.engineNotice (s : State) (r : RemoteId) : State := s.leavePhase r

/-! ## Targets and ramps (R31 to R33) -/

/-- The target of r is computed and a new ramp begins; it is complete at once when present equals it
(R32). -/
def State.beginRamp (s : State) (r : RemoteId) : State :=
  let t := s.targetOf r
  s.modRamp r fun p => { p with target := t, done := decide (p.present = t) }

/-- A recompute whose completion notice reaches the Move Engine alone. -/
def State.engineRecompute (s : State) (r : RemoteId) : State :=
  let s := s.beginRamp r
  if (s.ramp r).done then s.engineNotice r else s

/-! ## Boosts and degradation (R134 to R136) -/

/-- The boost source set and applied boost of Y are re-evaluated; the second result says whether the
applied boost changed (R135). -/
def State.reevalBoost (s : State) (y : RemoteId) : State × Bool :=
  let xs := s.sourcesOf y
  let b := s.appliedBoost y xs
  (s.modSup y fun v => { v with sources := xs, boost := b }, decide (b ≠ (s.supRec y).boost))

/-- Re-evaluation of several remotes, with those whose applied boost changed. -/
def State.reevalBoosts (s : State) (ys : List RemoteId) : State × List RemoteId :=
  ys.foldl (fun acc y =>
    let (s, ch) := acc.1.reevalBoost y
    (s, if ch then acc.2 ++ [y] else acc.2)) (s, [])

/-- The degraded flag and serving count of sector x are evaluated, with or without posting a change
(R136). -/
def State.evalDegraded (s : State) (posting : Bool) (x : SectorId) : State :=
  let n := s.servingNow x
  let now := s.degradedNow x
  let was := s.sup.degraded.get x
  let s := { s with sup := { s.sup with serving := s.sup.serving.set x n, degraded := s.sup.degraded.set x now } }
  if posting && now && !was then s.post .sectorDegraded (.sector x) (word16 n)
  else if posting && !now && was then s.post .sectorRestored (.sector x) (word16 n)
  else s

/-- The same for a remote's sector, if it has one. -/
def State.evalSector (s : State) : Option SectorId → State
  | some x => s.evalDegraded true x
  | none => s

/-- The boosts a health change of r concerns: r and the remotes r names (R135). -/
def State.concerned (s : State) (r : RemoteId) : List RemoteId :=
  r :: (s.live r).partners.filter fun y => decide (y ≠ r)

/-- The remotes with a recompute to make: r first, then the others listed (the order is log entry 25). -/
def withFirst (r : RemoteId) (ys : List RemoteId) : List RemoteId :=
  r :: ys.filter fun y => decide (y ≠ r)

/-! ## The end of JOINING (R125) -/

/-- r enters SERVING, or IMPAIRED with an alarm active, and REMOTE-JOINED is posted (R125). -/
def State.joined (s : State) (r : RemoteId) : State :=
  let bad := (s.supRec r).alarms.active
  let s := s.modSup r fun v => { v with health := if bad then .impaired else .serving }
  let s := s.post .remoteJoined (.remote r) (if bad then 1 else 0)
  let (s, changed) := s.reevalBoosts (s.concerned r)
  let s := s.evalSector (s.sectorOf r)
  (withFirst r changed).foldl State.engineRecompute s

/-- A completion notice: to the Move Engine, and to the Supervisor, which ends JOINING of a remote that
is not held (R35, R125). DEDUCED, unsafe (log entry 10): the Move Engine acts first where both do, so MOVE-DONE or
CUTOVER-DONE is posted before REMOTE-JOINED; R35 gives no order. -/
def State.completion (s : State) (r : RemoteId) : State :=
  let s := s.engineNotice r
  if decide (s.health r = .joining) && !(s.supRec r).held then s.joined r else s

/-- The Distributor recomputes the target of r (R32). -/
def State.recompute (s : State) (r : RemoteId) : State :=
  let s := s.beginRamp r
  if (s.ramp r).done then s.completion r else s

/-- Recomputes for several remotes, one each. -/
def State.recomputeAll (s : State) (rs : List RemoteId) : State := rs.foldl State.recompute s

/-- What the Supervisor does after the report of a health change of r: boosts, degradation, and the one
recompute of each remote whose inputs changed (R32, R131). -/
def State.settleHealth (s : State) (r : RemoteId) : State :=
  let (s, changed) := s.reevalBoosts (s.concerned r)
  (s.evalSector (s.sectorOf r)).recomputeAll (withFirst r changed)

/-- A ramp moved one step toward its target, and no further (R33). -/
def Ramp.step (p : Ramp) (k : Nat) : Ramp :=
  if p.done then p
  else
    let x := if p.present ≤ p.target then min p.target (p.present + k) else max p.target (p.present - k)
    { p with present := x, done := decide (x = p.target) }

/-- A step event: every ramp in progress moves one step; then the completions are noticed (R33, R35). DESIGN CHOICE,
unsafe (log entry 35): the ramp step is the setting when the event is taken, also one written since the boundary. -/
def State.rampStep (s : State) : State :=
  let done := (List.finRange 16).filter fun r =>
    !(s.ramp r).done && ((s.ramp r).step s.settings.rampStep).done
  let s := { s with dist := { s.dist with ramps := s.dist.ramps.map fun p => p.step s.settings.rampStep } }
  done.foldl State.completion s

/-! ## Leaving service and other exits (R121, R123, R130, R131) -/

/-- The Meter marks the records of r stale (R63). -/
def State.markStale (s : State) (r : RemoteId) : State :=
  { s with meter := { s.meter with
      records := s.meter.records.modify r fun t => t.map fun a => { a with stale := true } } }

/-- The Move Engine learns that r has left service (R80, R82). -/
def State.engineDeparture (s : State) (r : RemoteId) : State :=
  match s.engine.record with
  | none => s
  | some m =>
    if decide (s.engine.state = .fadeOut) || decide (s.engine.state = .switchPending) then
      if m.isBatch then
        let left := m.fading.filter fun x => decide (x ≠ r)
        let s := { s with engine := { s.engine with record := some { m with fading := left } } }
        s.leavePhase r
      else if m.fading.contains r then s.moveEnd .abandoned
      else s
    else s

/-- r enters LOST, ISOLATED, WAITING or VACANT: present gain 0 at once, records stale, the report to the
engine on a departure from service and to the Relay, then boosts, degradation and recompute (R34, R63,
R131, R163). The link grace timer becomes idle (R123). -/
def State.enterOut (s : State) (r : RemoteId) (h : Health) (cause : Option Cause) : State :=
  let was := s.serviced r
  let s := s.modSup r fun v => { v with health := h, cause := cause, grace := none }
  let s := s.unDue (.linkGrace r)
  let s := s.modRamp r fun p => { p with present := 0 }
  let s := s.markStale r
  let s := if was then s.engineDeparture r else s
  let s := if h = .waiting then s else s.abortPass r
  s.settleHealth r

/-- The codes of a cause in event details (R139). -/
def Cause.code : Cause → Nat
  | .link => 1
  | .noReply => 2
  | .output => 3
  | .identityChanged => 4
  | .flapping => 1
  | .command => 2

/-- r enters LOST from service, and at the flap limit goes on at once to ISOLATED (R130, R132). -/
def State.lose (s : State) (r : RemoteId) (cause : Cause) : State :=
  let v := s.supRec r
  let flap := min 15 (v.flap + 1)
  let s := s.modSup r fun v => { v with flap := flap, decay := if v.flap = 0 then some 0 else v.decay }
  let s := s.post .remoteLost (.remote r) (word16 cause.code)
  if flap ≥ s.settings.flapLimit then
    (s.post .remoteIsolated (.remote r) (word16 Cause.flapping.code)).enterOut r .isolated (some .flapping)
  else s.enterOut r .lost (some cause)

/-- On entry to WAITING a POLL is queued at once when the link is LOCKED (R121). -/
def State.pollIfLocked (s : State) (r : RemoteId) : State :=
  if s.locked (.remote r) then s.queuePoll r else s

/-- The Supervisor's record of a remote that becomes unconfigured (R121): its effective mode is the
configured mode of the live record, and everything but that and `held` is as after reset. -/
def SupRecord.unconfigured (v : SupRecord) (mode : Mode) : SupRecord :=
  { SupRecord.reset with mode := mode, held := v.held }

/-! ## STATUS (R124 to R129) -/

/-- The effective mode of r is derived afresh (R128). -/
def State.deriveMode (s : State) (r : RemoteId) : State :=
  let m := (s.live r).mode
  s.modSup r fun v => { v with mode := v.alarms.effective m }

/-- BRANCH-RESTORED or BRANCH-FAULT when the set of faulted outputs changes (R128). -/
def State.postOutputs (s : State) (r : RemoteId) (old new : Alarms) : State :=
  if old.outputs = new.outputs then s
  else if new.outputs = 0 then s.post .branchRestored (.remote r) (word16 old.outputs)
  else s.post .branchFault (.remote r) (word16 new.outputs)

/-- THERMAL-BACKOFF or THERMAL-CLEARED when over-temperature changes (R129). -/
def State.postThermal (s : State) (r : RemoteId) (old new : Alarms) : State :=
  if old.hot = new.hot then s
  else if new.hot then s.post .thermalBackoff (.remote r) (word16 (thermalTarget (s.live r).baseGain))
  else s.post .thermalCleared (.remote r) 0

/-- The alarm flags are taken from an accepted STATUS, with the events they bring (R127 to R129). -/
def State.takeAlarms (s : State) (r : RemoteId) (new : Alarms) : State :=
  let old := (s.supRec r).alarms
  let s := (s.modSup r fun v => { v with alarms := new }).deriveMode r
  (s.postOutputs r old new).postThermal r old new

/-- A remote enters JOINING; a batch before its switch holds it (R82, R124). -/
def State.enterJoining (s : State) (r : RemoteId) : State :=
  let s := s.modSup r fun v => { v with health := .joining, cause := none }
  let s :=
    if s.batchRunning && (decide (s.engine.state = .fadeOut) || decide (s.engine.state = .switchPending)) then
      s.holdRemote r
    else s
  s.settleHealth r

/-- Another port whose in-service remote holds the serial (R124, check 2). -/
def State.serialHolder (s : State) (r : RemoteId) (serial : BitVec 32) : Option RemoteId :=
  (List.finRange 16).find? fun x =>
    decide (x ≠ r) && s.serviced x && decide ((s.supRec x).serial = some serial)

/-- The recompute a change of over-temperature asks for (R129, R135). -/
def State.thermalRecompute (s : State) (r : RemoteId) (old : Alarms) : State :=
  if old.hot = (s.supRec r).alarms.hot then s
  else
    let (s, changed) := s.reevalBoosts [r]
    s.recomputeAll (withFirst r changed)

/-- The STATUS is accepted for a remote in WAITING or LOST (R124, check 3). -/
def State.acceptJoin (s : State) (r : RemoteId) (b : List Byte) : State :=
  let old := (s.supRec r).alarms
  let s := s.modSup r fun v =>
    { v with serial := some (statusSerial b), position := some (statusPosition b) }
  let s := s.takeAlarms r (statusAlarms b)
  if (statusAlarms b).bothOut then s.thermalRecompute r old else s.enterJoining r

/-- Check 2 of R124, and acceptance otherwise. -/
def State.duplicateCheck (s : State) (r : RemoteId) (b : List Byte) : State :=
  match s.serialHolder r (statusSerial b) with
  | some x => s.post .identityDuplicate (.remote r) (word16 x.val)
  | none => s.acceptJoin r b

/-- The reported position is not the expected one (R124, check 1). -/
def State.mismatched (s : State) (r : RemoteId) (b : List Byte) : Bool :=
  match (s.live r).position with
  | some p => decide (p ≠ statusPosition b)
  | none => false

/-- The identity checks of WAITING and LOST, in order (R124). -/
def State.identityChecks (s : State) (r : RemoteId) (b : List Byte) : State :=
  if s.mismatched r b then s.post .identityMismatch (.remote r) (statusPosition b)
  else s.duplicateCheck r b

/-- SERVING and IMPAIRED follow the alarms (R127). -/
def healthByAlarms (h : Health) (a : Alarms) : Health :=
  match h with
  | .serving => if a.active then .impaired else .serving
  | .impaired => if a.active then .impaired else .serving
  | _ => h

/-- An accepted STATUS of a remote in service (R126, R127). -/
def State.acceptInService (s : State) (r : RemoteId) (b : List Byte) : State :=
  let old := (s.supRec r).alarms
  let s := s.modSup r fun v => { v with position := some (statusPosition b) }
  let s := s.takeAlarms r (statusAlarms b)
  if (statusAlarms b).bothOut then s.lose r .output
  else
    let h := healthByAlarms (s.health r) (statusAlarms b)
    if h = s.health r then s.thermalRecompute r old
    else (s.modSup r fun v => { v with health := h }).settleHealth r

/-- The in-service check of a STATUS: another serial is IDENTITY-CHANGED (R126). -/
def State.inServiceCheck (s : State) (r : RemoteId) (b : List Byte) : State :=
  if (s.supRec r).serial = some (statusSerial b) then s.acceptInService r b else s.lose r .identityChanged

/-- A STATUS from remote r (R124). -/
def State.statusArrives (s : State) (r : RemoteId) (b : List Byte) : State :=
  let s := s.modSup r fun v => { v with miss := 0, awaiting := false, report := some ⟨b, s.now⟩ }
  match s.health r with
  | .vacant | .isolated => s
  | .waiting | .lost => s.identityChecks r b
  | .joining | .serving | .impaired => s.inServiceCheck r b

/-! ## Polls, grace and flap decay (R122, R123, R132) -/

/-- The poll event for one port (R122). -/
def State.pollRemote (s : State) (r : RemoteId) : State :=
  if decide (s.health r = .vacant) || !s.locked (.remote r) then s
  else
    let s := if (s.supRec r).awaiting then s.modSup r fun v => { v with miss := min 15 (v.miss + 1) } else s
    let s := if s.serviced r && decide ((s.supRec r).miss ≥ s.settings.missLimit) then s.lose r .noReply else s
    s.queuePoll r

/-- The poll event (R122). -/
def State.pollEvent (s : State) : State := (List.finRange 16).foldl State.pollRemote s

/-- A link grace timer expires: idle, and a remote in service is LOST (LINK) (R123). -/
def State.graceExpires (s : State) (r : RemoteId) : State :=
  let s := s.modSup r fun v => { v with grace := none }
  if s.serviced r then s.lose r .link else s

/-- A flap decay timer expires (R132). -/
def State.flapExpires (s : State) (r : RemoteId) : State :=
  s.modSup r fun v =>
    { v with flap := v.flap - 1, decay := if v.flap - 1 > 0 then some 0 else none }

/-- The link grace timer of port r at a boundary (R123). -/
def State.tickGrace (s : State) (r : RemoteId) : State :=
  match (s.supRec r).grace with
  | some n =>
    let s := s.modSup r fun v => { v with grace := some (n + 1) }
    if n + 1 ≥ s.settings.grace then s.markDue (.linkGrace r) else s
  | none => s

/-- The flap decay timer of port r at a boundary (R132). -/
def State.tickDecay (s : State) (r : RemoteId) : State :=
  match (s.supRec r).decay with
  | some n =>
    let s := s.modSup r fun v => { v with decay := some (n + 1) }
    if n + 1 ≥ s.settings.flapPeriod * 8000 then s.markDue (.flap r) else s
  | none => s

/-- Link grace and flap decay of port r at a boundary (R123, R132). -/
def State.tickRemote (s : State) (r : RemoteId) : State := (s.tickGrace r).tickDecay r

/-! ## ISOLATE and RESTORE (R133) -/

/-- r enters ISOLATED with cause COMMAND (R133). DEDUCED, unsafe (log entry 10): the ABORTED of its open pass-through
fills its place here, before the ISOLATE is answered DONE; R133 and R163 give no order. -/
def State.isolate (s : State) (r : RemoteId) : State :=
  (s.post .remoteIsolated (.remote r) (word16 Cause.command.code)).enterOut r .isolated (some .command)

/-- An ISOLATED remote returns to WAITING (R133). -/
def State.restore (s : State) (r : RemoteId) : State :=
  let s := s.modSup r fun v => { v with flap := 0, decay := none }
  ((s.unDue (.flap r)).enterOut r .waiting none).pollIfLocked r

end Sys2Proof.Machine
end

