-- ==== Sys2Proof/Machine/Moves.lean ====
section
/-! DEFINITION. The Move Engine's starts, switches and aborts, the live map and the Plan Store
(R47, R75 to R86, R110 to R117). -/

namespace Sys2Proof.Machine

/-! ## Membership -/

/-- The switch history of r at a change of membership in force from the current boundary (R47). -/
def State.writeHistory (s : State) (r : RemoteId) : State :=
  let h := s.comb.history.get r
  { s with comb := { s.comb with
      history := s.comb.history.set r ⟨s.sectorOf r, some h.switchFc, s.now⟩ } }

/-- The membership of r changes, and its history is written (R47, R78). -/
def State.changeSector (s : State) (r : RemoteId) (x : Option SectorId) : State :=
  (s.writeHistory r).modLive r fun e => { e with sector := x }

/-- The remotes that name r as a cover partner. -/
def State.namers (s : State) (r : RemoteId) : List RemoteId :=
  (List.finRange 16).filter fun x => (s.live x).partners.contains r

/-! ## Starting a move (R75, R77, R81) -/

/-- A single move starts in an IDLE engine: record, FADE-OUT, hold and the recompute toward 0; the second
result says whether the start was taken (R75, R77). -/
def State.startSingle (s : State) (k : MoveKind) (r : RemoteId) (y : SectorId) : State × Bool :=
  if s.engineIdle then
    let m : MoveRecord := ⟨k, none, [⟨r, s.sectorOf r, .sector y⟩], s.now, none, none, [r]⟩
    let s := { s with engine := ⟨.fadeOut, some m, [r], [], none⟩ }
    ((s.holdRemote r).recompute r, true)
  else (s, false)

/-- The sector an entry gives its port: none when it is unconfigured (R113). -/
def RemoteEntry.place (e : RemoteEntry) : Option SectorId := if e.configured then e.sector else none

/-- The live record a plan entry gives a port (R110, R113). -/
def RemoteEntry.asLive (e : RemoteEntry) : LiveRemote := ⟨{ e with sector := e.place }, e.place⟩

/-- The remote is a changed remote of the batch (R81). -/
def changedRemote (live new : RemoteEntry) : Bool :=
  (live.configured && new.configured && decide (live.sector ≠ new.sector)) ||
    (live.configured != new.configured)

/-- Where a changed remote goes (R74). -/
def RemoteEntry.dest (e : RemoteEntry) : Dest :=
  if e.configured then
    match e.sector with
    | some x => .sector x
    | none => .none
  else .unconfigured

/-- A batch starts in an IDLE engine (R75, R81). -/
def State.startBatch (s : State) (p : PlanId) (new : PlanMap) : State × Bool :=
  if s.engineIdle then
    let changed := (List.finRange 16).filter fun r => changedRemote (s.live r) (new.remotes.get r)
    let fading := changed.filter s.serviced
    let places := changed.map fun r => ⟨r, s.sectorOf r, (new.remotes.get r).dest⟩
    let m : MoveRecord := ⟨.batch, some p, places, s.now, none, none, fading⟩
    let st : EngineState := if fading.isEmpty then .switchPending else .fadeOut
    let s := { s with engine := ⟨st, some m, fading, [], some new⟩ }
    ((fading.foldl State.holdRemote s).recomputeAll fading, true)
  else (s, false)

/-- The switch has fallen: every hold released, and FADE-IN with its phase set (R78, R83). -/
def State.enterFadeIn (s : State) (m : MoveRecord) (phase : List RemoteId) (p : Option PlanMap) : State :=
  { s.releaseHolds with engine := ⟨.fadeIn, some { m with switchFc := some s.now }, phase, [], p⟩ }

/-! ## The switch of a single move (R78) -/

/-- The diverged flag set (R78, R110). -/
def State.diverge (s : State) : State := { s with map := { s.map with diverged := true } }

/-- The single move's switch at the current boundary (R78). DESIGN CHOICE, unsafe (log entry 25): the degraded flag of
the from sector is evaluated before that of the to sector, which orders the events of a switch that changes both; R78
and R136 give no order. -/
def State.singleSwitch (s : State) : State :=
  match s.engine.record with
  | some m =>
    match m.places with
    | ⟨r, x, .sector y⟩ :: _ =>
      let s := s.changeSector r (some y)
      let s := if m.kind = .manual then s.diverge else s
      let s := s.enterFadeIn m [r] none
      let ys := withFirst r ((s.live r).partners ++ s.namers r).dedup
      let (s, changed) := s.reevalBoosts ys
      let s := (s.evalSector x).evalDegraded true y
      s.recomputeAll (withFirst r changed)
    | _ => s
  | none => s

/-! ## The switch of a batch (R83, R113, R114) -/

/-- A remote becomes unconfigured: VACANT, at zero gain, records stale, its pass-through ended (R114,
R121, R131). -/
def State.vacate (s : State) (r : RemoteId) : State :=
  let m := (s.live r).mode
  let s := s.modSup r fun v => v.unconfigured m
  let s := (s.unDue (.linkGrace r)).unDue (.flap r)
  ((s.modRamp r fun p => { p with present := 0 }).markStale r).abortPass r

/-- A VACANT remote becomes configured: WAITING, with a POLL at once on a LOCKED link (R121). -/
def State.bringIn (s : State) (r : RemoteId) : State :=
  let s := s.modSup r fun v => { v with health := .waiting, cause := none }
  ((s.modRamp r fun p => { p with present := 0 }).markStale r).pollIfLocked r

/-- The homing streak of r is set to 0 (R94). -/
def State.clearHoming (s : State) (r : RemoteId) : State :=
  { s with spreader := { s.spreader with homing := s.spreader.homing.set r 0 } }

/-- The live record of r, replaced. -/
def State.setLive (s : State) (r : RemoteId) (v : LiveRemote) : State :=
  { s with map := { s.map with remotes := s.map.remotes.set r v } }

/-- The pending entry of one port replaces the live record, with history and homing streak (R47, R94,
R113). -/
def State.applyEntry (s : State) (r : RemoteId) (e : RemoteEntry) : State :=
  let old := s.map.remotes.get r
  let s := if old.entry.sector = e.place then s else s.writeHistory r
  let s := if old.home = e.place then s else s.clearHoming r
  s.setLive r e.asLive

/-- The effect of the new configured field on the health of one port (R121), and its effective mode
(R128). -/
def State.applyConfigured (s : State) (r : RemoteId) (was : Bool) : State :=
  let now := (s.live r).configured
  let s := if was && !now then s.vacate r else if !was && now then s.bringIn r else s
  s.deriveMode r

/-- The live sector records, replaced. -/
def State.setSectors (s : State) (t : Tab 8 SectorEntry) : State := { s with map := { s.map with sectors := t } }

/-- The pending map replaces the live map (R113). -/
def State.applyMap (s : State) (new : PlanMap) : State :=
  ((List.finRange 16).foldl (fun s r => s.applyEntry r (new.remotes.get r)) s).setSectors new.sectors

/-- The health and effective mode of every port follow the new configured fields (R114, R121, R128);
`before` is the state at the switch. -/
def State.applyHealths (s before : State) : State :=
  (List.finRange 16).foldl (fun s r => s.applyConfigured r (before.live r).configured) s

/-- Boosts and degraded flags of every port and sector are evaluated, with the remotes whose applied boost
changed (R83, R135, R136). -/
def State.evaluateAll (s : State) : State × List RemoteId :=
  let (s, boosted) := s.reevalBoosts (List.finRange 16)
  ((List.finRange 8).foldl (fun s x => s.evalDegraded true x) s, boosted)

/-- The remotes whose target is computed again after a batch switch: base gain changed, hold released,
boost changed, or configured changed (R83). -/
def State.recomputedAfter (s before : State) (boosted : List RemoteId) : List RemoteId :=
  (List.finRange 16).filter fun r =>
    decide ((before.live r).baseGain ≠ (s.live r).baseGain) || before.engine.holdSet.contains r ||
      boosted.contains r || (before.live r).configured != (s.live r).configured

/-- The batch switch at the current boundary (R83, R113, R114). -/
def State.wholeSwitch (s : State) : State :=
  match s.engine.record, s.engine.pendingMap with
  | some m, some new =>
    let t := (s.applyMap new).applyHealths s
    let phase := m.fading.filter fun r => decide (t.health r ≠ .vacant)
    let (u, boosted) := (t.enterFadeIn m phase (some new)).evaluateAll
    let v := u.recomputeAll (u.recomputedAfter s boosted)
    if phase.isEmpty then v.moveEnd .done else v
  | _, _ => s

/-! ## Abort and recovery (R85, R86) -/

/-- RECOVERING with its phase set, every hold released (R86). -/
def State.enterRecovery (s : State) (m : MoveRecord) : State :=
  { s.releaseHolds with engine := { s.engine with state := .recovering, phaseSet := m.fading, holdSet := [] } }

/-- An accepted ABORT: RECOVERING, every hold released, and one recompute of each released remote (R86). DESIGN CHOICE,
unsafe (log entry 25): they come in the order in which they were put into the hold set, which orders the events posted;
R86 gives no order. -/
def State.startRecovery (s : State) : State :=
  match s.engine.record with
  | some m =>
    let t := (s.enterRecovery m).recomputeAll s.engine.holdSet
    if m.fading.isEmpty then t.moveEnd .aborted else t
  | none => s

/-! ## The live map (R110) -/

/-- The plan the live map is loaded from: the start plan when it is valid (R110). -/
def State.startPlan (s : State) : Option (PlanId × Plan) :=
  match s.store.start with
  | some p => if (s.store.plans.get p).valid then some (p, s.store.plans.get p) else none
  | none => none

/-- The map of the start plan, or of the defaults, with its active plan and every history afresh; the
Interpreter takes requests from here on (R47, R110, R152). -/
def State.takeStartPlan (s : State) : State :=
  let p : Plan :=
    match s.startPlan with
    | some p => p.2
    | none => Plan.default
  { s with
    map := ⟨p.remotes.map RemoteEntry.asLive, p.sectors, s.startPlan.map Prod.fst, false, false⟩
    comb := { s.comb with history := Tab.const 16 ⟨none, none, s.now⟩ }
    svc := { s.svc with taking := true } }

/-- The health and mode of one port at the load of the live map (R110, R121, R128). -/
def State.loadRemote (s : State) (r : RemoteId) : State :=
  let s := if (s.live r).configured && decide (s.health r = .vacant) then s.bringIn r
    else if !(s.live r).configured && decide (s.health r ≠ .vacant) then s.vacate r else s
  s.deriveMode r

/-- The live map is loaded at the current boundary, with histories afresh, health of the configured
remotes, and degraded flags set without posting (R47, R110, R121, R136). -/
def State.loadMap (s : State) : State :=
  let s := (List.finRange 16).foldl State.loadRemote s.takeStartPlan
  let (s, changed) := s.reevalBoosts (List.finRange 16)
  ((List.finRange 8).foldl (fun s x => s.evalDegraded false x) s).recomputeAll changed

/-! ## The Plan Store (R111, R116) -/

/-- The Plan Store starts a cut-over to plan p: the plan is copied into a pending map, and the engine is
asked to start the batch (R111, R112). -/
def State.startCutOver (s : State) (p : PlanId) : State × Bool :=
  let plan := s.store.plans.get p
  s.startBatch p ⟨plan.remotes, plan.sectors⟩

/-- The schedule record, replaced. -/
def State.setSchedule (s : State) (c : Option Schedule) : State :=
  { s with store := { s.store with schedule := c } }

/-- The test of a held schedule (R116): aborted when its plan is not valid, started in an IDLE engine,
due-waiting otherwise. -/
def State.testSchedule (s : State) (c : Schedule) : State :=
  if !(s.store.plans.get c.plan).valid then
    (s.post .cutoverAborted (.plan c.plan) 4).setSchedule none
  else
    let (t, taken) := s.startCutOver c.plan
    if taken then t.setSchedule none else s.setSchedule (some { c with waiting := true })

/-- The due test at a boundary (R116). -/
def State.dueTest (s : State) : State :=
  match s.store.schedule with
  | some c => if !c.waiting && c.reached s.now then s.testSchedule c else s
  | none => s

/-- The test of a due-waiting schedule at the engine's return to IDLE (R116). -/
def State.waitingTest (s : State) : State :=
  match s.store.schedule with
  | some c => if c.waiting then s.testSchedule c else s
  | none => s

end Sys2Proof.Machine
end

