-- ==== Sys2Proof/Machine/Spreading.lean ====
section
/-! DEFINITION. The window end: settling of the activity records, loads, window alarms and the Spreader
(R57, R65 to R69, R91 to R102). -/

namespace Sys2Proof.Machine

/-! ## Settling and loads (R65 to R69) -/

/-- A record settled at the end of a window of length `w` (R65), its window state cleared (R66). DEDUCED, unsafe
(log entry 28): a record with frames measured in the window settles with stale no, as R65 says, also when its
carrier left the map in that window, where R71's last sentence says stale yes. -/
def Activity.settle (a : Activity) (w : Nat) : Activity :=
  if a.frames = 0 then { a with stale := true, busy := 0, minLevel := none }
  else
    let m := a.minLevel.getD a.floor
    { a with
      occupancy := 1000 * a.busy / a.frames
      floor := if m < a.floor then m else min (a.floor + 1) m
      settled := a.settled || decide (a.frames ≥ w / 2)
      stale := false
      frames := 0
      busy := 0
      minLevel := none }

/-- The occupancy a record counts toward a load: a stale one counts 0 (R67, R68). -/
def Activity.counted (a : Activity) : Nat := if a.stale then 0 else a.occupancy

/-- The activity record of (r, c). -/
def State.activity (s : State) (r : RemoteId) (c : CarrierId) : Activity := (s.meter.records.get r).get c

/-- The carriers a lane map names. -/
def LaneMap.named (m : LaneMap) : List CarrierId := m.filterMap id

/-- The remote load L_r (R67). DESIGN CHOICE, unsafe (log entry 2): where a window end of boundary B is taken between the
emission of B and the blocks' work, the Distributor has not computed B's maps yet, and the map of boundary B - 1 stands;
R67 speaks of the most recent boundary and leaves that order open. -/
def State.remoteLoad (s : State) (r : RemoteId) : Nat :=
  if s.serviced r && (s.live r).configured then
    match s.sectorOf r with
    | some x => ((s.dist.maps.get x).named.map fun c => (s.activity r c).counted).foldl max 0
    | none => 0
  else 0

/-- The in-service members of a sector. -/
def State.activeMembers (s : State) (x : SectorId) : List RemoteId := (s.members x).filter s.serviced

/-- The load of sector x (R68). -/
def State.sectorLoad (s : State) (x : SectorId) : Nat := ((s.activeMembers x).map s.remoteLoad).sum

/-- The load of carrier c (R68). -/
def State.carrierLoad (s : State) (c : CarrierId) : Nat :=
  match (s.carrier c).enabled, (s.carrier c).sector with
  | true, some x => ((s.activeMembers x).map fun r => (s.activity r c).counted).sum
  | _, _ => 0

/-- The loads as published (R69), with the window sequence they will carry after R66. -/
def State.loadsNow (s : State) (endFc : FC) : Published where
  startFc := s.meter.startFc
  endFc := endFc
  window := s.meter.window
  seq := (s.meter.seq + 1) % 65536
  remote := Tab.ofFn s.remoteLoad
  sector := Tab.ofFn s.sectorLoad
  carrier := Tab.ofFn s.carrierLoad
  members := Tab.ofFn fun x => (s.activeMembers x).length
  labels := Tab.ofFn fun c => ((s.carrier c).tag, (s.carrier c).sector)
  health := Tab.ofFn s.health

/-- Records settled, loads published, sequence raised, and the next window begun (R64 to R66, R69). -/
def State.closeWindow (s : State) : State :=
  let s := { s with meter := { s.meter with
    records := s.meter.records.map fun t => t.map fun a => a.settle s.meter.window } }
  let p := s.loadsNow s.now
  { s with meter := { s.meter with
      published := some p
      seq := p.seq
      window := s.settings.window
      count := 0
      startFc := s.now } }

/-! ## Window alarms (R57) -/

/-- UPLINK-CLIPPING for one carrier (R57). -/
def State.clipAlarm (s : State) (c : CarrierId) : State :=
  let n := s.comb.windowClips.get c
  if s.settings.clipLimit ≠ 0 ∧ n > s.settings.clipLimit then
    s.post .uplinkClipping (.carrier c) (word16 n)
  else s

/-- LATE-UPLINK and LOW-MARGIN for one port (R57). DEDUCED, unsafe (log entry 10): LATE-UPLINK is posted first, as R57's
table lists it first; R57 and R142 give no order. -/
def State.portAlarms (s : State) (r : RemoteId) : State :=
  let w := s.comb.window.get r
  let s :=
    if s.settings.lateLimit ≠ 0 ∧ w.late > s.settings.lateLimit then
      s.post .lateUplink (.remote r) (word16 w.late)
    else s
  if w.minLead = some 0 then s.post .lowMargin (.remote r) (word16 w.zeroLead) else s

/-- The window counts of the Combiner cleared (R57). -/
def State.clearWindow (s : State) : State :=
  { s with comb := { s.comb with window := Tab.const 16 PortWindow.zero, windowClips := Tab.const 12 0 } }

/-- The window alarms, and the window counts cleared (R57). -/
def State.windowAlarms (s : State) : State :=
  ((List.finRange 16).foldl State.portAlarms ((List.finRange 12).foldl State.clipAlarm s)).clearWindow

/-! ## Streaks (R92 to R94) -/

/-- The Spreader is settled for a window that began at `startFc` (R92). -/
def Spreader.isSettled (p : Spreader) (startFc : FC) : Bool :=
  match p.lastEnd with
  | none => true
  | some e => isAfter startFc e

/-- The settled condition is judged and recorded, and an outlived end FC dropped (R92). -/
def State.judgeSettled (s : State) (p : Published) : State :=
  let ok := s.spreader.isSettled p.startFc
  { s with spreader := { s.spreader with
      settled := some ok, lastEnd := if ok then none else s.spreader.lastEnd } }

/-- The overload streak of sector x after this window end (R93). -/
def State.overloadStreak (s : State) (p : Published) (x : SectorId) : Nat :=
  if p.sector.get x > (s.map.sectors.get x).ceiling then min 15 (s.spreader.overload.get x + 1) else 0

/-- The serving count of x less one remote is at least its minimum remotes (R94, R98). -/
def State.canSpare (s : State) (x : SectorId) : Bool :=
  decide ((s.servingNow x : Int) - 1 ≥ (s.map.sectors.get x).minimum)

/-- No boost rests on r as a member of x (R94, R97). -/
def State.coversNone (s : State) (x : SectorId) (r : RemoteId) : Bool :=
  (s.supRec r).sources.isEmpty && !s.namedByOut x r

/-- The home conditions of r with home h and current sector x (R94). -/
def State.homeConditions (s : State) (p : Published) (r : RemoteId) (h x : SectorId) : Bool :=
  (s.live r).configured && decide (h ≠ x) && decide (s.health r = .serving) && s.coversNone x r &&
    (s.map.sectors.get h).destination && !(s.carriersOf h).isEmpty &&
    decide (p.sector.get h + p.remote.get r ≤ (s.map.sectors.get h).ceiling * 3 / 4) && s.canSpare x

/-- The homing streak of r after this window end (R94). -/
def State.homingStreak (s : State) (p : Published) (r : RemoteId) : Nat :=
  match (s.map.remotes.get r).home, s.sectorOf r with
  | some h, some x => if s.homeConditions p r h x then min 15 (s.spreader.homing.get r + 1) else 0
  | _, _ => 0

/-- Both kinds of streak updated (R93, R94). -/
def State.updateStreaks (s : State) (p : Published) : State :=
  { s with spreader := { s.spreader with
      overload := Tab.ofFn (s.overloadStreak p), homing := Tab.ofFn (s.homingStreak p) } }

/-! ## Gate, relief and homing (R95 to R102) -/

/-- The first gate condition that fails (R95). -/
def State.gateFails (s : State) : Option GateReason :=
  if !s.settings.autoSpread then some .disabled
  else if !s.engineIdle then some .engineBusy
  else if s.store.schedule.any (fun c => c.waiting) then some .scheduleWaiting
  else if s.spreader.settled ≠ some true then some .unsettled
  else none

/-- The better of two by a strict comparison: the first wins ties. -/
def bestBy {α : Type} (better : α → α → Bool) : List α → Option α
  | [] => none
  | x :: xs =>
    match bestBy better xs with
    | none => some x
    | some y => if better y x then some y else some x

/-- The excess of sector x: published load minus ceiling (R96). -/
def State.excess (s : State) (p : Published) (x : SectorId) : Int :=
  (p.sector.get x : Int) - (s.map.sectors.get x).ceiling

/-- The source of relief: the eligible sector of the largest excess, the lower number on a tie (R96). -/
def State.reliefSource (s : State) (p : Published) : Option SectorId :=
  bestBy (fun a b => decide (s.excess p a > s.excess p b))
    ((List.finRange 8).filter fun x =>
      decide (s.spreader.overload.get x ≥ s.settings.overloadHold) && (s.map.sectors.get x).source)

/-- A candidate put at its place: the largest load first, the lower port on a tie (R97). -/
def insertByLoad (load : RemoteId → Nat) (r : RemoteId) : List RemoteId → List RemoteId
  | [] => [r]
  | x :: xs =>
    if load r > load x ∨ (load r = load x ∧ r.val < x.val) then r :: x :: xs
    else x :: insertByLoad load r xs

/-- The candidates of the source sector, in the order tried (R97). -/
def State.candidates (s : State) (p : Published) (x : SectorId) : List RemoteId :=
  ((s.members x).filter fun r =>
    decide (s.health r = .serving) && s.coversNone x r && decide (p.remote.get r > 0)).foldr
      (insertByLoad p.remote.get) []

/-- y is a fitting destination for r in sector x (R98). -/
def State.fits (s : State) (p : Published) (x : SectorId) (r : RemoteId) (y : SectorId) : Bool :=
  decide (y ≠ x) && (s.map.sectors.get y).destination && !(s.carriersOf y).isEmpty &&
    decide (p.sector.get y + p.remote.get r ≤ (s.map.sectors.get y).ceiling)

/-- The first candidate with a fitting alternate, and that alternate (R98). -/
def State.reliefPair (s : State) (p : Published) (x : SectorId) : List RemoteId → Option (RemoteId × SectorId)
  | [] => none
  | r :: rs =>
    match (s.live r).alternates.find? (s.fits p x r) with
    | some y => some (r, y)
    | none => s.reliefPair p x rs

/-- The overload streak of x is set to 0 (R99). -/
def State.clearOverload (s : State) (x : SectorId) : State :=
  { s with spreader := { s.spreader with overload := s.spreader.overload.set x 0 } }

/-- The last decision record, replaced (R102). -/
def State.recordDecision (s : State) (d : Decision) : State := { s with spreader := { s.spreader with decision := some d } }

/-- The start request sent and not yet taken, replaced. -/
def State.setRequest (s : State) (q : Option StartRequest) : State :=
  { s with spreader := { s.spreader with request := q } }

/-- What the Spreader's evaluation comes to: a result, or a start request whose answer gives the result (R99, R101). -/
inductive Evaluation where
  | decided (result : Result)
  | asks (kind : SpreadKind) (r : RemoteId) (source dest : SectorId)
deriving DecidableEq, Repr

/-- Relief at a window end: NO-ACTION stands for none eligible (R96 to R100). -/
def State.relief (s : State) (p : Published) : State × Evaluation :=
  match s.reliefSource p with
  | none => (s, .decided .noAction)
  | some x =>
    let cs := s.candidates p x
    let block (b : BlockReason) (n : BitVec 16) : State × Evaluation :=
      (s.post .spreadBlocked (.sector x) n, .decided (.blocked x b))
    if cs.isEmpty then block .noCandidate 1
    else if !s.canSpare x then block .minimum 2
    else
      match s.reliefPair p x cs with
      | none => block .noRoom 3
      | some (r, y) => (s, .asks .relief r x y)

/-- The remote homing chooses: the largest streak at or above the hold, the lower port on a tie
(R101). -/
def State.homingChoice (s : State) : Option RemoteId :=
  bestBy (fun a b => decide (s.spreader.homing.get a > s.spreader.homing.get b))
    ((List.finRange 16).filter fun r =>
      decide (s.spreader.homing.get r ≥ s.settings.homingHold) && decide (s.spreader.homing.get r > 0))

/-- Homing after a relief that asks for no move (R101); `sofar` is relief's result, kept when homing does nothing
(R102). -/
def State.homing (s : State) (sofar : Result) : Evaluation :=
  match s.homingChoice with
  | none => .decided sofar
  | some r =>
    match s.sectorOf r, (s.map.remotes.get r).home with
    | some x, some h => .asks .homing r x h
    | _, _ => .decided sofar

/-- The evaluation after the streaks: gate, relief, homing (R95 to R101). -/
def State.evaluate (s : State) (p : Published) : State × Evaluation :=
  match s.gateFails with
  | some g => (s, .decided (.notEvaluated g))
  | none =>
    match s.relief p with
    | (t, .decided res) => (t, t.homing res)
    | asking => asking

/-- The Spreader takes the window-end event (R91): settled condition, streaks, gate, relief, homing, and then the
decision, or a start request sent to the Move Engine. -/
def State.spread (s : State) (p : Published) : State :=
  let (s, e) := ((s.judgeSettled p).updateStreaks p).evaluate p
  match e with
  | .decided res => (s.setRequest none).recordDecision ⟨p.seq, p.endFc, res⟩
  | .asks k r x y => s.setRequest (some ⟨k, r, x, y, p.seq, p.endFc⟩)

/-! ## The start request at the Move Engine (R75, R99, R101) -/

/-- The kind of move asked for (R99, R101). -/
def SpreadKind.move : SpreadKind → MoveKind
  | .relief => .auto
  | .homing => .homing

/-- The streak that a started move clears: of the source sector, or of the remote (R99, R101). -/
def State.clearStreak (s : State) (q : StartRequest) : State :=
  match q.kind with
  | .relief => s.clearOverload q.source
  | .homing => s.clearHoming q.remote

/-- The result of a start request that the engine took (R99, R101). -/
def StartRequest.started (q : StartRequest) : Result :=
  match q.kind with
  | .relief => .relief q.remote q.source q.dest
  | .homing => .homing q.remote q.source q.dest

/-- The engine answers the Spreader's start request: taken in IDLE, and refused in any other state, where the streak is
kept and the decision is REFUSED (R75, R99, R101). -/
def State.answerRequest (s : State) (q : StartRequest) : State :=
  let (t, taken) := (s.setRequest none).startSingle q.kind.move q.remote q.dest
  if taken then (t.clearStreak q).recordDecision ⟨q.seq, q.endFc, q.started⟩
  else t.recordDecision ⟨q.seq, q.endFc, .refused q.remote q.source q.dest⟩

/-- The start request sent and not yet taken, if there is one, is taken by the engine. -/
def State.takeRequested (s : State) : State :=
  match s.spreader.request with
  | some q => s.answerRequest q
  | none => s

/-! ## The window end in its parts (R65 to R69, R57, R91, log entry 32) -/

/-- The Meter's and the Combiner's work at a window end (R65 to R69, R57). -/
def State.meterEnds (s : State) : State := s.closeWindow.windowAlarms

/-- The Spreader's work on the published loads (R91). -/
def State.spreadEnds (s : State) : State :=
  match s.meter.published with
  | some p => s.spread p
  | none => s

/-- The window-end event: Meter, window alarms, Spreader and the start it asks for, with nothing in between. -/
def State.windowEnd (s : State) : State := s.meterEnds.spreadEnds.takeRequested

/-- The part of a window end that a WINDOW_END command takes, where it is due; the Meter's part makes the Spreader's
due, and that one the taking of a start request (log entry 32). -/
def State.windowPart (s : State) : WindowPart → State
  | .whole => s.takeDue .window State.windowEnd
  | .meter => s.takeDue .window fun s => s.meterEnds.markDue .spread
  | .spread => s.takeDue .spread fun s =>
      let t := s.spreadEnds
      if t.spreader.request.isSome then t.markDue .startRequest else t
  | .start => s.takeDue .startRequest State.takeRequested

end Sys2Proof.Machine
end

