-- ==== Sys2Proof/Machine/Links.lean ====
section
/-! DEFINITION. The receive side of the framers: receive states, delivery, control-in assembly, uplink
arrivals, and what the other blocks do at a change of link state (R1 to R3, R5, R9 to R15, R18, R29,
R39 to R41, R122, R123, R152). -/

namespace Sys2Proof.Machine

/-! ## Reference selection (R9, R10) -/

/-- The lowest-numbered permitted LOCKED donor link (R9). -/
def State.bestReference (s : State) : Option DonorId :=
  (List.finRange 4).find? fun n => s.settings.reference.permits n && s.locked (.donor n)

/-- The reference selection, replaced. -/
def State.setReference (s : State) (n : Option DonorId) : State :=
  { s with clock := { s.clock with reference := n } }

/-- With no selection, the lowest permitted LOCKED link is selected and REFERENCE-RESTORED posted (R9,
R10). -/
def State.selectReference (s : State) : State :=
  match s.clock.reference with
  | some _ => s
  | none =>
    match s.bestReference with
    | some n => (s.setReference (some n)).post .referenceRestored (.donor n) 0
    | none => s

/-- Donor link n has left LOCKED: if it was selected, another takes its place or none, with
REFERENCE-LOST (R9, R10). -/
def State.loseReference (s : State) (n : DonorId) : State :=
  if s.clock.reference = some n then
    let next := s.bestReference
    (s.setReference next).post .referenceLost (.donor n)
      (match next with | some m => word16 m.val | none => 0xFFFF)
  else s

/-- A write of the reference source: a selected link no longer permitted is dropped without an event, and
the selection made afresh (R9, R10). -/
def State.reviseReference (s : State) : State :=
  match s.clock.reference with
  | some n => if s.settings.reference.permits n then s else s.setReference s.bestReference
  | none => s.selectReference

/-! ## Leaving and entering LOCKED (R5) -/

/-- The framer's own part on leaving LOCKED: assembly discarded without counting, emission ended and
counted as a send abort, arbiter and buffer emptied (R12, R14, R18). What was handed on stays: a REPLY or BUSY not yet
taken, since of a loss and a reply the first taken decides (R163, log entry 31). -/
def Framer.unlock (f : Framer) : Framer :=
  { f with
    assembly := none
    buffer := []
    emission := none
    pollPlace := false
    relayQueue := []
    counters := { f.counters with
      sendAborts := if f.emission.isSome then satInc f.counters.sendAborts else f.counters.sendAborts } }

/-- The emission is that of the response to RESTART (R7, R167). -/
def Emission.isRestart (e : Emission) : Bool :=
  match e.what with
  | .response b => b
  | _ => false

/-- The requests of donor link n leave the input queue unexecuted, and are counted (R152). -/
def State.removeRequests (s : State) (n : DonorId) : State :=
  let gone := (s.svc.input.filter fun q => decide (q.link = MsgLink.donor n)).length
  ({ s with svc := { s.svc with input := s.svc.input.filter fun q => decide (q.link ≠ MsgLink.donor n) } }).countSvc
    (.donor n) fun c => { c with removals := satAdd c.removals gone }

/-- Effects of leaving LOCKED on a donor link: reference, donor grace, requests (R5, R9, R28, R152). -/
def State.donorUnlocked (s : State) (n : DonorId) : State :=
  (((s.loseReference n).modDonor n fun d => { d with timer := some 0 }).unDue (.donorGrace n)).removeRequests n

/-- The alignment queue of port r, replaced. -/
def State.setQueue (s : State) (r : RemoteId) (q : List Entry) : State :=
  { s with comb := { s.comb with queues := s.comb.queues.set r q } }

/-- A standing notice offer is withdrawn (R144). -/
def State.dropOffer (s : State) : State := { s with events := { s.events with offer := false } }

/-- Effects of leaving LOCKED on a remote link: alignment queue, poll awaiting, link grace, Relay (R5,
R18, R41, R122, R123). -/
def State.remoteUnlocked (s : State) (r : RemoteId) : State :=
  let s := s.setQueue r []
  let inSvc := s.serviced r
  let s := s.modSup r fun v => { v with awaiting := false, grace := if inSvc then some 0 else v.grace }
  (s.unDue (.linkGrace r)).relayLinkLost r

/-- A framer leaves LOCKED: its own end of work and each block's effect (R5, R18). The end of the
response to RESTART makes RESTART due (R167). -/
def State.leaveLocked (s : State) (l : Link) : State :=
  let restarting := (s.framer l).emission.any Emission.isRestart
  let s := s.modFramer l Framer.unlock
  let s := if restarting then s.markDue .restart else s
  match l with
  | .donor n => s.donorUnlocked n
  | .remote r => s.remoteUnlocked r
  | .service => s.dropOffer

/-- The Distributor's part when a donor link enters LOCKED (R29). DESIGN CHOICE, unsafe (log entry 27): a lock
after the boundary that brought the count to G, but before the expiry is taken, cancels the expiry already
due, so the link is not muted and nothing is posted (R28 leaves the case open). -/
def State.donorLocked (s : State) (n : DonorId) : State :=
  let d := s.dist.donors.get n
  let s := (s.modDonor n fun _ => ⟨none, false, false⟩).unDue (.donorGrace n)
  if d.muted && d.reported then s.post .donorRestored (.donor n) (word16 (s.donorCarriers n)) else s

/-- The Supervisor's part when a remote link enters LOCKED: grace cancelled, and a POLL at once for a
remote that is not VACANT (R122, R123). -/
def State.remoteLocked (s : State) (r : RemoteId) : State :=
  let s := (s.modSup r fun v => { v with grace := none }).unDue (.linkGrace r)
  if s.health r = .vacant then s else s.queuePoll r

/-- A framer enters LOCKED (R5). -/
def State.enterLocked (s : State) (l : Link) : State :=
  let s := s.modFramer l fun f => { f with rx := .locked, streak := 0 }
  match l with
  | .donor n => (s.selectReference).donorLocked n
  | .remote r => s.remoteLocked r
  | .service => s

/-! ## Control-in assembly (R14, R169) -/

/-- What a slot does to the assembler: the assembler after, how many malformed messages it counts, and
the message completed, if any. -/
structure Assembled where
  assembly : Option Assembly
  malformed : Nat
  complete : Option Message
deriving DecidableEq, Repr

/-- The number of messages discarded when what is in assembly is thrown away. -/
def discards (a : Option Assembly) : Nat := if a.isSome then 1 else 0

/-- One slot taken by the assembler, the table of R14 row by row; a flag above 4 is a slot out of place
(R169). -/
def assembleSlot (a : Option Assembly) (flag : Byte) (bytes : List Byte) : Assembled :=
  let h := headerOf bytes
  let l := h.length.toNat
  if flag = 0 then ⟨a, 0, none⟩
  else if flag = 1 then
    if l = 0 then ⟨none, discards a, some ⟨h, []⟩⟩ else ⟨none, discards a + 1, none⟩
  else if flag = 2 then
    if 1 ≤ l ∧ l ≤ 224 then ⟨some ⟨h, []⟩, discards a, none⟩ else ⟨none, discards a + 1, none⟩
  else
    match a with
    | none => ⟨none, 1, none⟩
    | some m =>
      let want := pieceCount m.head.length.toNat
      if flag = 3 then
        if m.pieces.length + 1 < want then ⟨some { m with pieces := m.pieces ++ [bytes] }, 0, none⟩
        else ⟨none, 1, none⟩
      else if flag = 4 then
        if m.pieces.length + 1 = want then
          ⟨none, 0, some ⟨m.head, ((m.pieces ++ [bytes]).flatten).take m.head.length.toNat⟩⟩
        else ⟨none, 1, none⟩
      else ⟨none, 1, none⟩

/-- A completed message goes on to its block (R15): every message of S and of donor links; of a remote
link a STATUS of length 9, a REPLY or a BUSY. -/
def deliverable (l : Link) (m : Message) : Bool :=
  match l with
  | .remote _ => (decide (m.head.kind = kindStatus) && decide (m.body.length = 9)) ||
      decide (m.head.kind = kindReply) || decide (m.head.kind = kindBusy)
  | _ => true

/-- The slot of a delivered frame taken by the link's assembler; a completed message is handed on, or
discarded and counted malformed (R14, R15). -/
def State.takeSlot (s : State) (l : Link) (flag : Byte) (bytes : List Byte) : State :=
  s.modFramer l fun f =>
    let a := assembleSlot f.assembly flag bytes
    let f := { f with assembly := a.assembly
                      counters := { f.counters with malformed := satAdd f.counters.malformed a.malformed } }
    match a.complete with
    | some m =>
      if deliverable l m then { f with handed := f.handed ++ [m] }
      else { f with counters := { f.counters with malformed := satInc f.counters.malformed } }
    | none => f

/-! ## Arrivals (R12, R39, R40) -/

/-- A good donor frame enters the input buffer; a full one drops its oldest frame as an overrun (R12). -/
def Framer.bufferFrame (f : Framer) (x : LinkFrame) : Framer :=
  if f.buffer.length < 2 then { f with buffer := f.buffer ++ [x] }
  else { f with buffer := f.buffer.drop 1 ++ [x]
                counters := { f.counters with overruns := satInc f.counters.overruns } }

/-- An entry at its place in number order (R38, R39). -/
def insertEntry (e : Entry) : List Entry → List Entry
  | [] => [e]
  | x :: xs => if isBefore e.number x.number then e :: x :: xs else x :: insertEntry e xs

/-- The number of an arrival is at or before the last released number (R39, test 2). -/
def State.isLate (s : State) (n : FC) : Bool :=
  match s.comb.last with
  | some l => atOrAfter l n
  | none => false

/-- An accepted frame is queued and its lead taken (R40). DESIGN CHOICE, unsafe (log entry 33): while no number has been
released a frame numbered before the current FC less D is accepted too, and its lead is kept modulo 2^32, above the
0 to D + 2 that R40 names. -/
def State.acceptEntry (s : State) (r : RemoteId) (e : Entry) : State :=
  let lead := (e.number + BitVec.ofNat 32 s.comb.delay - e.arrival).toNat
  let w := s.comb.window.get r
  { s with comb := { s.comb with
      queues := s.comb.queues.modify r (insertEntry e)
      window := s.comb.window.set r { w with
        minLead := some (match w.minLead with | some m => min m lead | none => lead)
        zeroLead := if lead = 0 then satInc w.zeroLead else w.zeroLead } } }

/-- A late arrival is counted in the port's counter and in its window (R39, R57). -/
def State.countLate (s : State) (r : RemoteId) : State :=
  { s with comb := { s.comb with
      counters := s.comb.counters.modify r fun c => { c with late := satInc c.late }
      window := s.comb.window.modify r fun w => { w with late := satInc w.late } } }

/-- The classification of an arrival, the first test that applies (R39). -/
def State.classify (s : State) (r : RemoteId) (e : Entry) : State :=
  let q := s.comb.queues.get r
  if isAfter e.number (s.now + 2) then s.countPort r fun c => { c with outOfWindow := satInc c.outOfWindow }
  else if s.isLate e.number then
    s.countLate r
  else if q.any (fun x => decide (x.number = e.number)) then
    s.countPort r fun c => { c with duplicates := satInc c.duplicates }
  else if q.length ≥ 8 then
    ((s.setQueue r (q.drop 1)).countPort r fun c => { c with overflows := satInc c.overflows }).acceptEntry r e
  else s.acceptEntry r e

/-- A remote uplink frame reaches the Combiner with its expanded number and arrival FC (R2, R11). -/
def State.uplinkArrives (s : State) (r : RemoteId) (f : LinkFrame) : State :=
  s.classify r ⟨expand s.now f.number, f.map, f.lanes, s.now⟩

/-! ## Frame positions (R1 to R3) -/

/-- The good frame is not the one expected after the last good one and the errored ones between (R3). -/
def Framer.jumps (f : Framer) (n : BitVec 16) : Bool :=
  match f.lastNumber with
  | some l => decide (n ≠ l + 1 + BitVec.ofNat 16 f.streak)
  | none => false

/-- The framer's own part of a good frame in LOCKED (R2, R3). -/
def Framer.goodLocked (f : Framer) (n : BitVec 16) : Framer :=
  { f with
    lastNumber := some n
    streak := 0
    counters := { f.counters with
      good := satInc f.counters.good
      jumps := if f.jumps n then satInc f.counters.jumps else f.counters.jumps } }

/-- A good frame in LOCKED is delivered by link kind (R2). -/
def State.deliver (s : State) (l : Link) (x : LinkFrame) : State :=
  let s := s.modFramer l fun f => f.goodLocked x.number
  let s :=
    match l with
    | .donor _ => s.modFramer l fun f => f.bufferFrame x
    | .remote r => s.uplinkArrives r x
    | .service => s
  s.takeSlot l x.flag x.slot

/-- A good frame at the end of a frame position (R1, R2). -/
def State.goodFrame (s : State) (l : Link) (x : LinkFrame) : State :=
  let f := s.framer l
  match f.rx with
  | .down => s
  | .hunt => s.modFramer l fun f => { f with rx := .verify, verifyCount := 1, lastNumber := some x.number }
  | .verify =>
    if f.lastNumber.any (fun n => decide (x.number = n + 1)) then
      if f.verifyCount + 1 ≥ 4 then
        ((s.modFramer l fun f => { f with verifyCount := f.verifyCount + 1 }).enterLocked l).deliver l x
      else s.modFramer l fun f => { f with verifyCount := f.verifyCount + 1, lastNumber := some x.number }
    else s.modFramer l fun f => { f with verifyCount := 1, lastNumber := some x.number }
  | .locked => s.deliver l x

/-- The framer's own part of an errored frame in LOCKED: the count of its cause, the streak, and the
message in assembly discarded and counted (R2, R14). -/
def Framer.erroredLocked (f : Framer) (present : Bool) : Framer :=
  { f with
    streak := f.streak + 1
    assembly := none
    counters := { f.counters with
      checkErrors := if present then satInc f.counters.checkErrors else f.counters.checkErrors
      slips := if present then f.counters.slips else satInc f.counters.slips
      malformed := satAdd f.counters.malformed (discards f.assembly) } }

/-- A lock loss: the receive state and the counter (R1, R6). -/
def Framer.loseLock (f : Framer) (next : RxState) : Framer :=
  { f with rx := next, counters := { f.counters with lockLosses := satInc f.counters.lockLosses } }

end Sys2Proof.Machine
end

