-- ==== Sys2Proof/Machine/Arrivals.lean ====
section
/-! DEFINITION. Completed messages: access checks and dispatch of those from S and the donor links
(R148, R149, R151), the messages of remote units (R15), and the ends of frame positions, at which a link may leave
LOCKED (R1, R2, R5). -/

namespace Sys2Proof.Machine

/-- A message answered when it arrives: a place filled and the refusal counted; without a free place it
is discarded and counted (R149, R151). -/
def State.answerArrival (s : State) (l : MsgLink) (m : Message) (st : Status) : State :=
  if s.svc.hasRoom then
    (s.fill ⟨l, m.head.tag, m.head.kind, st, [], false⟩).countSvc l fun c => { c with refusals := satInc c.refusals }
  else s.countSvc l fun c => { c with roomDiscards := satInc c.roomDiscards }

/-- What an arriving message with a free response place comes to (R151). -/
inductive Arrival where
  | refuse (st : Status)
  | queue
  | pass (r : RemoteId)
  | setRelay (ports : List RemoteId)
deriving DecidableEq, Repr

/-- The LOCKED remote ports among those named (R164). -/
def State.lockedPorts (s : State) (named : RemoteId → Bool) : List RemoteId :=
  (List.finRange 16).filter fun r => named r && s.locked (.remote r)

/-- The first case of R151's table that fits. -/
def State.arrivalCase (s : State) (h : Header) : Arrival :=
  if h.dest = 0 then (if s.svc.input.length ≥ 4 then .refuse .busy else .queue)
  else if h.dest = 1 then
    match finOf 16 h.port with
    | none => .refuse .badIndex
    | some r =>
      if hubKind h.kind then .refuse .badValue
      else if !s.locked (.remote r) then .refuse .notReady
      else if (s.svc.pass.get r).isSome then .refuse .busy
      else .pass r
  else if h.dest = 2 ∨ h.dest = 3 then
    if hubKind h.kind then .refuse .badValue
    else if s.svc.setRelay.isSome then .refuse .busy
    else .setRelay (s.lockedPorts fun r => decide (h.dest = 3) || h.mask.getLsbD r.val)
  else .refuse .badValue

/-- A message that passes R148 and R149, handled by its destination (R151). -/
def State.admitMessage (s : State) (l : MsgLink) (m : Message) : State :=
  if !s.svc.hasRoom then s.countSvc l fun c => { c with roomDiscards := satInc c.roomDiscards }
  else
    match s.arrivalCase m.head with
    | .refuse st => s.answerArrival l m st
    | .queue =>
      ({ s with svc := { s.svc with
          input := s.svc.input ++ [(⟨l, m.head.tag, m.head.kind, m.body⟩ : Request)] } }).countSvc l
        fun c => { c with queued := satInc c.queued }
    | .pass r => s.openPass r l m
    | .setRelay ports => s.startSetRelay l m ports

/-- What READ access takes: a HUB request of a reading kind; everything else addressed to the hub or to
remotes is answered DENIED (R149). -/
def deniedForRead (h : Header) : Bool :=
  if h.dest = 0 then !readKind h.kind else decide (h.dest.toNat ≤ 3)

/-- A completed message from S or a donor link (R148, R149, R151). -/
def State.serviceArrives (s : State) (l : MsgLink) (m : Message) : State :=
  if hubKind m.head.kind ∨ m.head.status ≠ statusNone then
    s.countSvc l fun c => { c with strays := satInc c.strays }
  else
    match s.grantOf l with
    | .none => s.countSvc l fun c => { c with accessDiscards := satInc c.accessDiscards }
    | .read => if deniedForRead m.head then s.answerArrival l m .denied else s.admitMessage l m
    | .full => s.admitMessage l m

/-- The oldest message handed on by a link is taken from it. -/
def State.dropHanded (s : State) (l : Link) : State :=
  s.modFramer l fun f => { f with handed := f.handed.drop 1 }

/-- The oldest completed message of a message link is taken by the Interpreter; with none, nothing
happens (log entry 3). A link that left LOCKED has none (`State.takeArrived`). -/
def State.takeServiceMessage (s : State) (l : MsgLink) : State :=
  match (s.framer (linkOf l)).handed with
  | m :: _ => (s.dropHanded (linkOf l)).serviceArrives l m
  | [] => s

/-- The oldest completed message of remote link r is taken when it is of the given kind (R15). -/
def State.takeRemoteMessage (s : State) (r : RemoteId) (kind : Byte) (f : State → Message → State) : State :=
  match (s.framer (.remote r)).handed with
  | m :: _ => if m.head.kind = kind then f (s.dropHanded (.remote r)) m else s
  | [] => s

/-- A STATUS of remote r is taken (R124). On a link that left LOCKED none is waiting (`State.takeArrived`), so a STATUS
counts on a LOCKED link alone, as the table of 8.2 says. -/
def State.takeStatus (s : State) (r : RemoteId) : State :=
  s.takeRemoteMessage r kindStatus fun s m => s.statusArrives r m.body

/-- A REPLY of remote r is taken (R162). -/
def State.takeReply (s : State) (r : RemoteId) : State :=
  s.takeRemoteMessage r kindReply fun s m => s.replyArrives r m

/-- A BUSY of remote r is taken (R162). -/
def State.takeBusy (s : State) (r : RemoteId) : State :=
  s.takeRemoteMessage r kindBusy fun s m => s.busyArrives r m

/-- The oldest message of remote r is taken, whatever its kind. -/
def State.takeAnyRemote (s : State) (r : RemoteId) : State :=
  match (s.framer (.remote r)).handed with
  | m :: _ =>
    if m.head.kind = kindStatus then s.takeStatus r
    else if m.head.kind = kindReply then s.takeReply r
    else s.takeBusy r
  | [] => s

/-- Every message link `l` has handed on is taken, at most `n` of them. -/
def State.drainService (s : State) (l : MsgLink) : Nat → State
  | 0 => s
  | n + 1 => (s.takeServiceMessage l).drainService l n

/-- Every message remote link `r` has handed on is taken, at most `n` of them. -/
def State.drainRemote (s : State) (r : RemoteId) : Nat → State
  | 0 => s
  | n + 1 => (s.takeAnyRemote r).drainRemote r n

/-- Every completed message handed on and not yet taken is taken, link by link (log entry 3). -/
def State.drainHanded (s : State) : State :=
  let s := (List.finRange 16).foldl (fun s r => s.drainRemote r (s.framer (.remote r)).handed.length) s
  let s : State := (List.finRange 4).foldl
    (fun s n => s.drainService (.donor n) (s.framer (.donor n)).handed.length) s
  s.drainService .service (s.framer .service).handed.length

/-! ## Leaving LOCKED: what arrived before is taken first (R5, R15) -/

/-- The message is a STATUS. -/
def Message.isStatus (m : Message) : Bool := decide (m.head.kind = kindStatus)

/-- The first STATUS that remote link r completed and the Supervisor has not taken yet is taken (R15, R124). -/
def State.takeWaitingStatus (s : State) (r : RemoteId) : State :=
  match (s.framer (.remote r)).handed.find? Message.isStatus with
  | some m =>
    (s.modFramer (.remote r) fun f => { f with handed := f.handed.eraseP Message.isStatus }).statusArrives r m.body
  | none => s

/-- The first n of them are taken, one after another. -/
def State.takeStatuses (s : State) (r : RemoteId) : Nat → State
  | 0 => s
  | n + 1 => (s.takeWaitingStatus r).takeStatuses r n

/-- Every message link `l` completed while it was LOCKED that waits for its block is taken before the link leaves LOCKED,
since it arrived before: of S and of a donor link every message (R15, R151), of a remote link every STATUS (R15, R124). A
REPLY or BUSY waits on (DESIGN CHOICE, unsafe, log entry 31), because of a loss and a reply the first taken decides
(R163). -/
def State.takeArrived (s : State) : Link → State
  | .donor n => s.drainService (.donor n) (s.framer (.donor n)).handed.length
  | .remote r => s.takeStatuses r ((s.framer (.remote r)).handed.countP Message.isStatus)
  | .service => s.drainService .service (s.framer .service).handed.length

/-- A framer loses the lock, and goes on in `next` (R1): what arrived before is taken, the framer's own change `own` and
the loss are counted, and the blocks do their part (R5). -/
def State.loseLock (s : State) (l : Link) (next : RxState) (own : Framer → Framer) : State :=
  ((s.takeArrived l).modFramer l fun f => (own f).loseLock next).leaveLocked l

/-- An errored frame at a frame position (R1, R2). -/
def State.erroredFrame (s : State) (l : Link) (present : Bool) : State :=
  let f := s.framer l
  match f.rx with
  | .down | .hunt => s
  | .verify => s.modFramer l fun f =>
      { f with rx := .hunt, counters := { f.counters with
          checkErrors := if present then satInc f.counters.checkErrors else f.counters.checkErrors } }
  | .locked =>
    if f.streak + 1 ≥ 4 then s.loseLock l .hunt fun f => f.erroredLocked present
    else s.modFramer l fun f => f.erroredLocked present

/-- A frame position ends with what stands there, and the framer judges it: a good frame, a frame that fails
its check, or no frame where one belongs (R1, R2, R169). -/
def State.frameEnds (s : State) (l : Link) (x : LinkFrame) : State :=
  if isGood x then s.goodFrame l x else s.erroredFrame l (isPresent x)

/-- Loss of signal (R1). -/
def State.lossOfSignal (s : State) (l : Link) : State :=
  if s.locked l then s.loseLock l .down id
  else s.modFramer l fun f => { f with rx := .down }

/-- The return of signal (R1). -/
def State.signalReturns (s : State) (l : Link) : State :=
  if (s.framer l).rx = .down then s.modFramer l fun f => { f with rx := .hunt } else s

end Sys2Proof.Machine
end

