-- ==== Sys2Proof/Machine/StartUp.lean ====
section
/-! DEFINITION. Power-on, the configuration image, SAVE's end and the moment RESTART takes effect
(chapter 11, and the RESTART sentences of the other chapters). -/

namespace Sys2Proof.Machine

/-! ## Power-on (R165) -/

/-- Power-on reset: every block in its reset state; the external memory holds what was last written into
it, and the commands waiting outside go on waiting. -/
def State.powerOn (s : State) : State :=
  { State.reset with
    pending := s.pending
    loader := { State.reset.loader with memory := s.loader.memory } }

/-! ## The image (R165) -/

/-- A bank decoded entry by entry; `none` when one entry is refused. -/
def decodeTab {n : Nat} {α β : Type} (t : Tab n α) (f : Fin n → α → Option β) : Option (Tab n β) :=
  match (List.finRange n).mapM fun i => f i (t.get i) with
  | some l => if h : l.length = n then some ⟨l, h⟩ else none
  | none => none

/-- The two constraints on the carrier table: no two enabled carriers on one donor link and slot, and at
most 6 enabled carriers in a sector (R20). -/
def carriersLegal (t : Tab 12 Carrier) : Bool :=
  ((List.finRange 12).all fun a => (List.finRange 12).all fun b =>
    decide (a = b) || !((t.get a).enabled && (t.get b).enabled &&
      decide ((t.get a).donor = (t.get b).donor) && decide ((t.get a).slot = (t.get b).slot))) &&
  (List.finRange 8).all fun x =>
    decide (((List.finRange 12).filter fun c =>
      (t.get c).enabled && decide ((t.get c).sector = some x)).length ≤ 6)

/-- One plan of the image (R107, R165). DESIGN CHOICE (log entry 9): the start marker of its header must be 0 or 1,
else the image is refused with cause 3, and is otherwise ignored: the start plan byte says which plan it is. -/
def decodePlan (p : RawPlan) : Option Plan := do
  let head ← planHeadAt p.head 0
  let remotes ← decodeTab p.remotes fun r b => planEntryAt b 0 r
  let sectors ← decodeTab p.sectors fun _ b => sectorEntryAt b 0
  return ⟨head.valid, head.label, remotes, sectors⟩

/-- The start plan byte of the image. -/
def startByte (b : Byte) : Option (Option PlanId) := if b = 0xFF then some none else (finOf 4 b).map some

/-- The image's fields taken, clamped, or refused whole (R165, steps 3 and 4). -/
def decodeImage (m : RawImage) : Option Stored := do
  let settings ← Settings.default.writeAll
    ((List.finRange 25).map fun i => (i.val + 1, (m.settings.get i).toNat))
  let carriers ← decodeTab m.carriers fun _ b => carrierAt b 0
  let plans ← decodeTab m.plans fun _ p => decodePlan p
  let start ← startByte m.start
  let label ← labelAt 32 m.label 0
  if carriersLegal carriers then some ⟨settings, carriers, plans, start, label⟩ else none

/-- The contents of an image, or the defaults, are put in force (R165); a donor link LOCKED meanwhile is
judged by the reference source now in force (R9). -/
def State.install (s : State) (t : Stored) (i : ImageState) : State :=
  ({ s with
    settings := t.settings
    loader := { s.loader with readEnded := true, image := some i, label := t.label }
    dist := { s.dist with carriers := t.carriers }
    store := { s.store with plans := t.plans, start := t.start }
    comb := { s.comb with delay := t.settings.alignment }
    meter := { s.meter with window := t.settings.window }
    sup := { s.sup with pollForce := t.settings.poll } }).reviseReference

/-- What the read of the memory comes to, the steps of R165 in order. -/
def State.judgeImage (s : State) : ImageRead → DefaultCause ⊕ Stored
  | .noAnswer => .inl .absent
  | .noImage => .inl .absent
  | .stored =>
    match s.loader.memory with
    | .unwritten => .inl .absent
    | .partialImage => .inl .checkFailed
    | .holds t => .inr t
  | .image bytes check fields =>
    if frameCheck bytes ≠ check then .inl .checkFailed
    else
      match decodeImage fields with
      | some t => .inr t
      | none => .inl .refused

/-- The Loader finishes its read (R165). -/
def State.readEnds (s : State) (read : ImageRead) : State :=
  if s.loader.readEnded then s
  else
    match s.judgeImage read with
    | .inl cause => s.install Stored.default (.defaulted cause)
    | .inr t => s.install t .loaded

/-- The codes of CONFIG-DEFAULTED (R139). -/
def DefaultCause.code : DefaultCause → Nat
  | .absent => 1
  | .checkFailed => 2
  | .refused => 3

/-- At boundary FC 0 a hub on defaults posts CONFIG-DEFAULTED (R165). -/
def State.postDefaulted (s : State) : State :=
  match s.loader.image with
  | some (.defaulted c) => s.post .configDefaulted .hub (word16 c.code)
  | _ => s

/-! ## SAVE (R166, R168) -/

/-- What the hub would store now (R166). -/
def State.stored (s : State) : Stored := ⟨s.settings, s.dist.carriers, s.store.plans, s.store.start, s.loader.label⟩

/-- A reservation is that of a SAVE. -/
def Reservation.isSave : Reservation → Bool
  | .save _ _ => true
  | _ => false

/-- The place reserved for the SAVE is filled; RESTART may have freed it (R168). -/
def State.answerSave (s : State) (st : Status) : State :=
  match s.svc.reserved.find? Reservation.isSave with
  | some (.save l t) => s.fillReserved (.save l t) ⟨l, t, kindSave, st, [], false⟩
  | _ => s

/-- The write of a save completes (R166). -/
def State.saveCompletes (s : State) : State :=
  match s.loader.snapshot with
  | some t =>
    let s := { s with loader := { s.loader with image := some .saved, snapshot := none, memory := .holds t } }
    (s.answerSave .done).post .saveDone .hub 0
  | none => s

/-- The write of a save fails (R166). -/
def State.saveFails (s : State) : State :=
  match s.loader.snapshot with
  | some _ =>
    let s := { s with loader := { s.loader with
      image := some .saveFailed, snapshot := none, memory := .partialImage } }
    (s.answerSave .aborted).post .saveFailed .hub 0
  | none => s

/-! ## RESTART takes effect (R167) -/

/-- A framer at RESTART: assembler idle, emission ended without counting, POLL place and relay queue
emptied, counters 0; the rest is kept (R7). -/
def Framer.restart (f : Framer) : Framer :=
  { f with assembly := none, emission := none, pollPlace := false, relayQueue := []
           counters := LinkCounters.zero }

/-- What stays due through a RESTART: donor grace expiries, whose timers are kept (R29), and the message
boundaries of the senders. -/
def Due.survives : Due → Bool
  | .donorGrace _ => true
  | .sender _ => true
  | _ => false

/-- Every block sets its state as R167 and the chapters state. -/
def State.restartEffect (s : State) : State :=
  { s with
    links := ⟨s.links.donors.map Framer.restart, s.links.remotes.map Framer.restart, s.links.service.restart⟩
    dist := { s.dist with ramps := Tab.const 16 ⟨0, 0, true⟩, clips := Tab.const 12 0 }
    comb := { s.comb with
      queues := Tab.const 16 []
      counters := Tab.const 16 UplinkCounters.zero
      clips := Tab.const 12 0
      window := Tab.const 16 PortWindow.zero
      windowClips := Tab.const 12 0 }
    meter := { s.meter with
      records := Tab.const 16 (Tab.const 12 Activity.reset)
      window := s.settings.window
      count := 0
      firstNext := true
      seq := 0
      published := none }
    map := { s.map with loadNext := true }
    engine := Engine.idle
    spreader := Spreader.reset
    store := { s.store with schedule := none }
    sup := ⟨Tab.const 16 SupRecord.reset, Tab.const 8 false, Tab.const 8 0, s.settings.poll, 0⟩
    events := EventQueue.reset
    svc := { s.svc with
      input := []
      filled := []
      reserved := []
      pass := Tab.const 16 none
      setRelay := none
      refused := Tab.const 16 []
      tap := .none
      serviceCount := LinkService.zero
      donorCounts := Tab.const 4 LinkService.zero
      portCounts := Tab.const 16 PortService.zero
      taking := false }
    boundary := { s.boundary with due := s.boundary.due.filter Due.survives } }

end Sys2Proof.Machine
end

