-- ==== Sys2Proof/Machine/Boundary.lean ====
section
/-! DEFINITION. The frame boundary: what the Frame Clock's emission sets going, and the blocks' work at it:
frame building, releases and transmission (R4, R8, R12, R16, R17, R21 to R27, R43 to R55, R60, R62,
R64, R122, R132, R144, R158). -/

namespace Sys2Proof.Machine

/-! ## Downlink frames (R12, R22 to R27) -/

/-- The donor frames taken at a boundary, one per donor link; `none` is a gap (R12). -/
abbrev DonorFrames := Tab 4 (Option LinkFrame)

/-- The oldest frame of each donor input buffer (R12). -/
def State.oldestFrames (s : State) : DonorFrames := s.links.donors.map fun f => f.buffer.head?

/-- The donor framer after the boundary's take: the oldest frame gone, or a gap counted (R12). -/
def Framer.takeOldest (f : Framer) : Framer :=
  match f.buffer with
  | _ :: rest => { f with buffer := rest }
  | [] => { f with counters := { f.counters with gaps := satInc f.counters.gaps } }

/-- The lane map of sector x from the carrier table (R22). -/
def State.laneMap (s : State) (x : SectorId) : LaneMap :=
  ((s.carriersOf x).map some ++ LaneMap.idle).take 6

/-- The map in remote r's frame: all-idle for an unconfigured remote and for sector none (R23). -/
def State.mapOf (s : State) (r : RemoteId) : LaneMap :=
  if (s.live r).configured then
    match s.sectorOf r with
    | some x => s.laneMap x
    | none => LaneMap.idle
  else LaneMap.idle

/-- Carrier c's donor samples at a boundary: zero at a gap and on a muted link; branch b absent on a
single-branch carrier (R25, R28). -/
def State.donorSamples (s : State) (fs : DonorFrames) (c : CarrierId) : Lane :=
  let k := s.carrier c
  if (s.dist.donors.get k.donor).muted then silentLane
  else
    match fs.get k.donor with
    | some f =>
      let l := f.lanes.getD k.slot.val silentLane
      if k.twoBranches then l else ⟨l.a, []⟩
    | none => silentLane

/-- Carrier c's antenna outputs for remote r before the gain product (R26). -/
def State.mappedLane (s : State) (fs : DonorFrames) (r : RemoteId) (c : CarrierId) : Lane :=
  let d := s.donorSamples fs c
  mapDown (s.supRec r).mode (s.carrier c).twoBranches d.a d.b

/-- Carrier c's lane in remote r's frame (R25, R27). -/
def State.downLane (s : State) (fs : DonorFrames) (r : RemoteId) (c : CarrierId) : Lane :=
  let l := s.mappedLane fs r c
  let g := (s.carrier c).gain
  ⟨gainBranch g (s.ramp r).present l.a, gainBranch g (s.ramp r).present l.b⟩

/-- The saturated components of carrier c's lane in remote r's frame (R27, R37). -/
def State.downClips (s : State) (fs : DonorFrames) (r : RemoteId) (c : CarrierId) : Nat :=
  let l := s.mappedLane fs r c
  let g := (s.carrier c).gain
  gainClips g (s.ramp r).present l.a + gainClips g (s.ramp r).present l.b

/-- The lanes of remote r's frame (R25). -/
def State.downLanes (s : State) (fs : DonorFrames) (r : RemoteId) : List Lane :=
  (s.mapOf r).map fun
    | some c => s.downLane fs r c
    | none => silentLane

/-- The saturated components of carrier c over every remote's frame (R37). -/
def State.carrierClips (s : State) (fs : DonorFrames) (c : CarrierId) : Nat :=
  ((List.finRange 16).map fun r => if (s.mapOf r).contains (some c) then s.downClips fs r c else 0).sum

/-- The copy for TAP DOWNLINK r c: c's lane of r's frame, zeros when c is not in its map (R25). -/
def State.tapDown (s : State) (fs : DonorFrames) (r : RemoteId) (c : CarrierId) : Lane :=
  if (s.mapOf r).contains (some c) then s.downLane fs r c else silentLane

/-- The Distributor's state after the frames of a boundary are built: donor frames taken, sector maps,
sent record of the 16 most recent frames, applied modes, clip counters (R12, R22 to R24, R37). DESIGN CHOICE, unsafe (log
entry 2): an effective mode, or the end of a donor mute, that comes between the emission of boundary B and the blocks'
work is applied to the frames of B already; R24, R29 and R128 say from the next boundary and leave that instant open. -/
def State.distribute (s : State) (fs : DonorFrames) : State :=
  { s with
    links := { s.links with donors := s.links.donors.map Framer.takeOldest }
    dist := { s.dist with
      maps := Tab.ofFn s.laneMap
      sent := s.dist.sent.mapIdx fun r l => (⟨s.now, s.mapOf r, (s.supRec r).mode⟩ :: l).take 16
      applied := Tab.ofFn fun r => (s.supRec r).mode
      lastMap := Tab.ofFn s.mapOf
      clips := s.dist.clips.mapIdx fun c n => satAdd n (s.carrierClips fs c) } }

/-- The uplink weight in force noted against the boundary's number, 16 notes kept (R50). DESIGN CHOICE, unsafe (log entry
2): a weight that SET-REMOTE writes between the emission of boundary B and the blocks' work is noted for B already; R50
and R155 have it apply from the next boundary and leave that instant open. -/
def State.noteWeights (s : State) : State :=
  { s with comb := { s.comb with
      weights := s.comb.weights.mapIdx fun r l => ((s.now, (s.live r).weight) :: l).take 16 } }

/-! ## The release of a number (R43 to R55, R60 to R62) -/

/-- The entry of port r numbered N (R45). -/
def State.entryOf (s : State) (r : RemoteId) (n : FC) : Option Entry :=
  (s.comb.queues.get r).find? fun e => decide (e.number = n)

/-- The entry's echoed map is the map sent to r for N (R46). -/
def State.echoPasses (s : State) (r : RemoteId) (n : FC) (e : Entry) : Bool :=
  decide (mapBytes (s.sentFor r n).1 = e.echo)

/-- The entry of r that passes the echo check (R46). -/
def State.passing (s : State) (r : RemoteId) (n : FC) : Option Entry :=
  (s.entryOf r n).filter (s.echoPasses r n)

/-- The lane of carrier c in a map (R49). -/
def LaneMap.laneOf (m : LaneMap) (c : CarrierId) : Option Nat := m.findIdx? fun x => decide (x = some c)

/-- The inputs u and v of the lane that carried c in r's passing entry (R49, R55). -/
def State.rawLane (s : State) (r : RemoteId) (c : CarrierId) (n : FC) : Option Lane :=
  match s.passing r n, LaneMap.laneOf (s.sentFor r n).1 c with
  | some e, some i => some (e.lanes.getD i silentLane)
  | _, _ => none

/-- The delivered branches of c from r for N, by the applied mode recorded for N (R51). -/
def State.delivered (s : State) (r : RemoteId) (c : CarrierId) (n : FC) : Option Lane :=
  (s.rawLane r c n).map fun l => mapUp (s.sentFor r n).2 (s.carrier c).twoBranches l.a l.b

/-- One measurement applied to a record (R62). -/
def Activity.measure (a : Activity) (margin level : Nat) : Activity :=
  { a with
    frames := satInc a.frames
    busy := if level ≥ a.floor + margin then satInc a.busy else a.busy
    minLevel := some (match a.minLevel with | some m => min m level | none => level) }

/-- The level the Meter measures for (r, c) at the release of N, when it measures one (R60, R61). -/
def State.measured (s : State) (r : RemoteId) (c : CarrierId) (n : FC) : Option Nat :=
  if s.serviced r && (s.carrier c).enabled then
    (s.delivered r c n).map (laneLevel (s.carrier c).twoBranches)
  else none

/-- The lane passes the gate (R52). -/
def State.gatePasses (s : State) (r : RemoteId) (c : CarrierId) (x : SectorId) (level : Nat) : Bool :=
  let a := (s.meter.records.get r).get c
  !(s.map.sectors.get x).gating || !(s.live r).gatingAllowed || !a.settled ||
    decide (level ≥ a.floor + s.settings.gateMargin)

/-- r's branches contributed to c for N, with their weight, when every condition of R49 holds. -/
def State.contribution (s : State) (c : CarrierId) (n : FC) (r : RemoteId) : Option (Nat × Lane) :=
  match (s.carrier c).enabled, (s.carrier c).sector with
  | true, some x =>
    match s.delivered r c n with
    | some l =>
      if s.serviced r && decide (s.sectorFor r n = some x) &&
          s.gatePasses r c x (laneLevel (s.carrier c).twoBranches l) then
        some (s.weightFor r n, l)
      else none
    | none => none
  | _, _ => none

/-- The contributions to c for N, by remote port (R49). -/
def State.contributions (s : State) (c : CarrierId) (n : FC) : List (Nat × Lane) :=
  (List.finRange 16).filterMap (s.contribution c n)

/-- c's combined output for N (R53, R54). -/
def State.upLane (s : State) (c : CarrierId) (n : FC) : Lane :=
  let cs := s.contributions c n
  let h := (s.carrier c).headroom
  ⟨sumBranch h (cs.map fun p => (p.1, p.2.a)),
    if (s.carrier c).twoBranches then sumBranch h (cs.map fun p => (p.1, p.2.b)) else []⟩

/-- The saturated components of c's output for N (R53). -/
def State.upClips (s : State) (c : CarrierId) (n : FC) : Nat :=
  let cs := s.contributions c n
  let h := (s.carrier c).headroom
  sumClips h (cs.map fun p => (p.1, p.2.a)) +
    (if (s.carrier c).twoBranches then sumClips h (cs.map fun p => (p.1, p.2.b)) else 0)

/-- What the Combiner hands to the framers at a boundary: the number and gap mark of the donor uplink
frames, their carrier slots, and the tap copy (R43, R44, R54, R55). -/
structure DonorUplink where
  number : FC
  mark : Nat
  lanes : Tab 4 (List Lane)
  tap : Lane
deriving DecidableEq, Repr

/-- The enabled carrier of a donor link and slot (R54). -/
def State.slotCarrier (s : State) (n : DonorId) (k : Fin 3) : Option CarrierId :=
  (List.finRange 12).find? fun c =>
    (s.carrier c).enabled && decide ((s.carrier c).donor = n) && decide ((s.carrier c).slot = k)

/-- The carrier slots of donor link n's uplink frame (R54). -/
def State.donorLanes (s : State) (n : DonorId) (t : FC) : List Lane :=
  (List.finRange 3).map fun k =>
    match s.slotCarrier n k with
    | some c => s.upLane c t
    | none => silentLane

/-- The uplink tap copy of a releasing boundary (R55). -/
def State.tapUp (s : State) (t : FC) : Lane :=
  match s.svc.tap with
  | .combined c => if (s.carrier c).enabled then s.upLane c t else silentLane
  | .raw r c => (s.rawLane r c t).getD silentLane
  | _ => silentLane

/-- The counters of port r at the release of N: map mismatch, or missing (R45, R46). -/
def State.releaseCounters (s : State) (n : FC) (r : RemoteId) (k : UplinkCounters) : UplinkCounters :=
  match s.entryOf r n with
  | some e => if s.echoPasses r n e then k else { k with mismatches := satInc k.mismatches }
  | none =>
    if s.serviced r && (s.live r).configured then { k with missing := satInc k.missing } else k

/-- The state after number T is taken and combined: queues, counters, measurements, clips and L (R43,
R45, R46, R53, R62). Entries numbered before T go with it. -/
def State.release (s : State) (t : FC) : State :=
  { s with
    comb := { s.comb with
      queues := s.comb.queues.map fun q => q.filter fun e => isAfter e.number t
      counters := s.comb.counters.mapIdx fun r k => s.releaseCounters t r k
      clips := s.comb.clips.mapIdx fun c k => satAdd k (s.upClips c t)
      windowClips := s.comb.windowClips.mapIdx fun c k => satAdd k (s.upClips c t)
      last := some t }
    meter := { s.meter with
      records := s.meter.records.mapIdx fun r row => row.mapIdx fun c a =>
        match s.measured r c t with
        | some level => a.measure s.settings.activityMargin level
        | none => a } }

/-- The donor uplink of a releasing boundary (R54). -/
def State.releasedUplink (s : State) (t : FC) (gap : Nat) : DonorUplink :=
  ⟨t, gap, Tab.ofFn fun n => s.donorLanes n t, s.tapUp t⟩

/-- The hold frame: number L, zero samples, mark HOLD (R44). -/
def holdUplink (l : FC) : DonorUplink :=
  ⟨l, 7, Tab.const 4 (List.replicate 3 silentLane), silentLane⟩

/-- The requested D is put in force (R42). DESIGN CHOICE, unsafe (log entry 2): a D written between the emission of
boundary B and the blocks' work comes into force at B already, and until then the one before is in force; R42 says at the
next frame boundary and leaves that instant open. -/
def State.setDelay (s : State) : State := { s with comb := { s.comb with delay := s.settings.alignment } }

/-- The Combiner at boundary B: the requested D put in force, then a release of the numbers up to B − D,
or a hold (R43, R44). DESIGN CHOICE, unsafe (log entry 30): the first release, with L absent, carries the mark NONE,
which R43 gives for T = L + 1 alone. -/
def State.combine (s : State) : State × DonorUplink :=
  let s := s.setDelay
  let t := s.now - BitVec.ofNat 32 s.comb.delay
  match s.comb.last with
  | none => (s.release t, s.releasedUplink t 0)
  | some l =>
    if isAfter t l then (s.release t, s.releasedUplink t (t - l - 1).toNat)
    else (s, holdUplink l)

/-! ## Transmission (R4, R13, R16, R17) -/

/-- The control slot of an outgoing frame: the next slot of the message in emission, else IDLE. -/
def Framer.nextSlot (f : Framer) : Slot :=
  match f.emission with
  | some e => e.slots.headD ⟨0, List.replicate 16 0⟩
  | none => ⟨0, List.replicate 16 0⟩

/-- The emission after its next slot has gone; none after its last one. -/
def Framer.afterSlot (f : Framer) : Option Emission :=
  match f.emission with
  | some e => if e.slots.length ≤ 1 then none else some { e with slots := e.slots.drop 1 }
  | none => none

/-- What the emission of the last slot makes due: the sent report of a relayed message (R17), and
RESTART after its response (R167). -/
def Framer.lastSlotDue (f : Framer) (l : Link) : List Due :=
  match f.emission with
  | some e =>
    if e.slots.length ≤ 1 then
      match e.what, l with
      | .relayed t, .remote r => [.sent r t]
      | .response true, _ => [.restart]
      | _, _ => []
    else []
  | none => []

/-- One outgoing frame of a link: its number, gap mark, map and lanes, with the sender's slot (R4). -/
def State.transmit (s : State) (l : Link) (number : FC) (mark : Nat) (map : List Byte) (lanes : List Lane) : State :=
  let f := s.framer l
  let x := f.nextSlot
  (s.modFramer l fun f => { f with
    emission := f.afterSlot
    sent := some (sealed ⟨0, low16 number, BitVec.ofNat 8 mark, x.flag, x.bytes, map, lanes, 0⟩) }).markAll (f.lastSlotDue l)

/-- The lane of the service frame for the tap selection in force; idle for none (R158). -/
def State.tapLane (s : State) (fs : DonorFrames) (u : DonorUplink) : Lane :=
  match s.svc.tap with
  | .downlink r c => s.tapDown fs r c
  | .none => silentLane
  | _ => u.tap

/-- All 21 frames of the boundary (R4). -/
def State.transmitAll (s : State) (down : Tab 16 (List Lane)) (u : DonorUplink) (tap : Lane) : State :=
  let s : State := (List.finRange 4).foldl
    (fun s n => s.transmit (.donor n) u.number u.mark [] (u.lanes.get n)) s
  let s : State := (List.finRange 16).foldl
    (fun s r => s.transmit (.remote r) s.now 0 (mapBytes (s.dist.lastMap.get r)) (down.get r)) s
  s.transmit .service s.now 0 [] [tap]

/-! ## The blocks act (log entry 2) -/

/-- The switch of the move in progress falls, when it is SWITCH-PENDING (R78, R83). -/
def State.switchFalls (s : State) : State :=
  if s.engine.state = .switchPending then
    (if s.batchRunning then s.wholeSwitch else s.singleSwitch)
  else s

/-- The message boundaries not yet taken at this boundary are taken (R16, R17). -/
def State.startSenders (s : State) : State :=
  allLinks.foldl (fun s l => (s.startAny l).unDue (.sender l)) s

/-- Frame building and transmission around a release, which answers the state after it and the donor uplink
(R4, R25, R54). -/
def State.framesAround (s : State) (release : State → State × DonorUplink) : State :=
  let fs := s.oldestFrames
  let down : Tab 16 (List Lane) := Tab.ofFn (s.downLanes fs)
  let built := s.distribute fs
  let (done, u) := release built
  done.noteWeights.transmitAll down u (s.tapLane fs u)

/-- Frame building, release and transmission (R4, R25, R43, R54). -/
def State.frameWork (s : State) : State := s.framesAround State.combine

/-- Whether the blocks have still to act on the boundary emitted last. -/
def State.setActing (s : State) (b : Bool) : State := { s with boundary := { s.boundary with acting := b } }

/-- A switch and a ramp step that fall at the boundary, since its frames use what they leave (R33, R78), and
the messages that start at it (R16, R17). -/
def State.beforeFrames (s : State) : State :=
  let s := s.takeDue .switch State.switchFalls
  (s.takeDue .rampStep State.rampStep).startSenders

/-- The blocks act on the boundary emitted last: switch, ramp step and senders, then frame work. -/
def State.actBoundary (s : State) : State :=
  if s.boundary.acting then (s.setActing false).beforeFrames.frameWork else s

/-- The blocks act on the boundary emitted last with the release taken first: it reads the gating fields as
they stand before a switch that falls at the boundary (R113). -/
def State.actReleaseFirst (s : State) : State :=
  if s.boundary.acting then
    let (done, u) := (s.setActing false).combine
    done.beforeFrames.framesAround fun built => (built, u)
  else s

/-! ## Timer expiries (R28, R122, R144) -/

/-- The donor grace of link n expires (R28). -/
def State.donorGraceExpires (s : State) (n : DonorId) : State :=
  let mask := s.donorCarriers n
  let some? := decide (mask ≠ 0)
  let s := s.modDonor n fun d => { d with timer := none, muted := true, reported := some? }
  if some? then s.post .donorLost (.donor n) (word16 mask) else s

/-- The poll timer expires: count 0, P in force, and the poll event (R122). -/
def State.pollExpires (s : State) : State :=
  ({ s with sup := { s.sup with pollCount := 0, pollForce := s.settings.poll } }).pollEvent

/-- The pacing timer expires: count 0, and an offer when its three conditions hold (R144). -/
def State.pacingExpires (s : State) : State :=
  let ok := s.settings.notices && s.locked .service && !s.events.records.isEmpty
  { s with events := { s.events with pacing := 0, offer := s.events.offer || ok } }

/-- What an event that has fallen due does when it is taken. -/
def State.dueEffect (s : State) : Due → State
  | .switch => s.switchFalls
  | .rampStep => s.rampStep
  | .sender l => s.startAny l
  | .window => s.windowEnd
  | .spread => s.spreadEnds.takeRequested
  | .startRequest => s.takeRequested
  | .poll => s.pollExpires
  | .pacing => s.pacingExpires
  | .donorGrace n => s.donorGraceExpires n
  | .linkGrace r => s.graceExpires r
  | .flap r => s.flapExpires r
  | .passTimeout r => s.passExpires r
  | .retryEnd r => s.retryEnds r
  | .schedule => s.dueTest
  | .retest => s.waitingTest
  | .sent r t => s.sentReport r t
  | .restart => s.restartEffect

/-- Each of the events that is still due is taken, in order. -/
def State.takeList (s : State) (es : List Due) : State :=
  es.foldl (fun s e => s.takeDue e fun s => s.dueEffect e) s

/-- Everything of the boundary before, and every message handed on since, that has not been taken by a
command of its own is taken before the next boundary is emitted (log entry 2). -/
def State.settle (s : State) : State :=
  let s := s.actBoundary
  let s := s.takeList s.boundary.due
  let s := s.drainHanded
  s.takeList s.boundary.due

/-! ## The emission of a boundary (R8) -/

/-- The donor grace count of link n (R28); boundary FC 0 finds it at 0 (R29). -/
def State.tickDonor (first : Bool) (s : State) (n : DonorId) : State :=
  match (s.dist.donors.get n).timer with
  | some k =>
    if first then s
    else
      let s := s.modDonor n fun d => { d with timer := some (k + 1) }
      if k + 1 ≥ s.settings.grace then s.markDue (.donorGrace n) else s
  | none => s

/-- The window count (R64): the boundary that begins the first window is not counted. -/
def State.tickWindow (s : State) : State :=
  if s.meter.firstNext then
    { s with meter := { s.meter with firstNext := false, count := 0, startFc := s.now } }
  else
    let s := { s with meter := { s.meter with count := s.meter.count + 1 } }
    if s.meter.count ≥ s.meter.window then s.markDue .window else s

/-- The poll count (R122): boundary FC 0 is not counted. -/
def State.tickPoll (first : Bool) (s : State) : State :=
  if first then s
  else
    let s := { s with sup := { s.sup with pollCount := s.sup.pollCount + 1 } }
    if s.sup.pollCount ≥ s.sup.pollForce then s.markDue .poll else s

/-- The pacing count (R144): boundary FC 0 is not counted. -/
def State.tickPacing (first : Bool) (s : State) : State :=
  if first then s
  else
    let s := { s with events := { s.events with pacing := s.events.pacing + 1 } }
    if s.events.pacing ≥ s.settings.pacing then s.markDue .pacing else s

/-- A schedule that falls due at this boundary (R116). -/
def State.tickSchedule (s : State) : State :=
  match s.store.schedule with
  | some c => if !c.waiting && c.reached s.now then s.markDue .schedule else s
  | none => s

/-- The events this boundary makes due for the engine, the ramps and the senders (R16, R17, R33, R78,
R83). DESIGN CHOICE, unsafe (log entry 35): after a change of the ramp interval the next boundary is judged by the new
one already; R33 has the change apply from the next step event, and does not say which interval places that event. -/
def State.boundaryEvents (s : State) : List Due :=
  (if s.engine.state = .switchPending then [.switch] else []) ++
    (if s.now.toNat % s.settings.rampInterval = 0 then [.rampStep] else []) ++
    (allLinks.filter fun l => (s.framer l).emission.isNone).map .sender

/-- The counts and expiries of a boundary. DESIGN CHOICE, unsafe (log entry 2): the settings that rules read at each
boundary (G, flap decay period, pacing interval, pass timeout) are read here, at its emission. -/
def State.tickAll (s : State) (first : Bool) : State :=
  let s : State := (List.finRange 4).foldl (State.tickDonor first) s
  let s : State := (List.finRange 16).foldl State.tickRemote s
  let s : State := (List.finRange 16).foldl State.tickPass s
  (((s.tickWindow.tickPoll first).tickPacing first).tickSchedule)

/-- The Frame Clock's next FC: 0 first, then one more each time, modulo 2^32 (R8). -/
def Clock.next (c : Clock) : Clock := { c with fc := if c.started then c.fc + 1 else 0, started := true }

/-- The Frame Clock emits the boundary with its next FC (R8). -/
def State.tickClock (s : State) : State := { s with clock := s.clock.next }

/-- What the blocks do as the boundary is emitted: the load of the live map at the first one after a reset
(R110), the report of a hub on defaults at FC 0 (R165), the counts, and the events due at it. -/
def State.afterTick (s : State) (first : Bool) : State :=
  let s := if s.map.loadNext then s.loadMap else s
  let s := if first then s.postDefaulted else s
  let s := s.tickAll first
  (s.markAll s.boundaryEvents).setActing true

/-- The emission of a boundary (R8), after everything of the one before; no boundary comes before the image
has been read (R165). -/
def State.emitBoundary (s : State) : State :=
  if s.loader.readEnded then
    let t := s.settle
    t.tickClock.afterTick (!t.clock.started)
  else s

/-- A FRAME_BOUNDARY command takes the whole boundary, its emission, or the blocks' work in either order of
switch and release (log entry 2). -/
def State.boundaryPart (s : State) : BoundaryPart → State
  | .whole => s.emitBoundary.actBoundary
  | .emit => s.emitBoundary
  | .act => s.actBoundary
  | .releaseFirst => s.actReleaseFirst

end Sys2Proof.Machine
end

