-- ==== Sys2Proof/Machine/Reports.lean ====
section
/-! DEFINITION. What the reading requests return: the fields their rules list, in the order listed, in the
encodings of 12.3 (R36, R58, R70, R71, R88, R137, R154, R156, R157, R159; log entry 15). -/

namespace Sys2Proof.Machine

/-- A frame count that may be absent. -/
def encOptFc (f : Option FC) : List Byte := encOpt 4 bytes32 f

/-- A one-byte field that may be absent. -/
def encOpt8 (n : Option Nat) : List Byte := encOpt 1 enc8 n

/-! ## IDENTIFY (R157) -/

/-- The code of an image state: its place in the table of chapter 11. -/
def ImageState.code : ImageState → Nat
  | .loaded => 0
  | .defaulted _ => 1
  | .saved => 2
  | .saveFailed => 3

/-- The code of an engine state (12.3). -/
def EngineState.code : EngineState → Nat
  | .idle => 0
  | .fadeOut => 1
  | .switchPending => 2
  | .fadeIn => 3
  | .recovering => 4

/-- The content of IDENTIFY on a link (R157), with the widths of log entry 15 and the code 0 of an absent image state (log
entry 8). DESIGN CHOICE, unsafe (log entry 2): between the emission of a boundary and the blocks' work the D in force is
still that of the boundary before. -/
def State.identity (s : State) (l : MsgLink) : List Byte :=
  bytes16 Config.vendorCode ++ bytes16 Config.partCode ++ [Config.revision] ++
    encLabel 32 s.loader.label ++ bytes32 s.now ++ encOptFin s.clock.reference ++
    encYes s.clock.holdover ++ enc8 s.comb.delay ++ encOptFc s.comb.last ++
    enc8 s.events.records.length ++ enc8 (s.events.records.filter fun e => e.kind.urgent).length ++
    enc16 s.events.overflow ++ enc8 s.engine.state.code ++
    enc8 (match s.loader.image with | some i => i.code | none => 0) ++
    encYes s.loader.snapshot.isSome ++ enc8 (s.grantOf l).code

/-! ## READ-SETTINGS and READ-PLAN (R154, R109) -/

/-- The 25 values (R154). -/
def State.settingsBody (s : State) : List Byte := s.settings.values.flatMap enc16

/-- The content of READ-PLAN HEADER (R109). DESIGN CHOICE, unsafe (log entry 15): the start marker byte within the
19-byte header part, whose value on reading the manual does not give, says whether the plan is the start plan now, as
the byte after the part does. -/
def State.headerBody (s : State) (p : PlanId) : List Byte :=
  let plan := s.store.plans.get p
  let isStart := decide (s.store.start = some p)
  encYes plan.valid ++ encYes isStart ++ encLabel 16 plan.label ++ encYes isStart ++
    encYes (decide (s.map.active = some p)) ++ encYes (s.store.schedule.any fun c => decide (c.plan = p))

/-! ## READ-LIVE (R156) -/

/-- The code of a move kind (12.3). -/
def MoveKind.code : MoveKind → Nat
  | .manual => 0
  | .auto => 1
  | .homing => 2
  | .batch => 3

/-- The code of a health (12.3). -/
def Health.code : Health → Nat
  | .vacant => 0
  | .waiting => 1
  | .joining => 2
  | .serving => 3
  | .impaired => 4
  | .lost => 5
  | .isolated => 6

/-- Where a remote goes: a sector, FFh none, or FEh unconfigured (R74, log entry 15). -/
def encDest : Dest → List Byte
  | .sector x => enc8 x.val
  | .none => [0xFF]
  | .unconfigured => [0xFE]

/-- A move record as reported: kind, plan, start FC and switch FC (R88); the plan of a record without one is
FFh (DESIGN CHOICE, log entry 15). -/
def encMove (m : MoveRecord) : List Byte :=
  enc8 m.kind.code ++ encOptFin m.plan ++ bytes32 m.startFc ++ encOptFc m.switchFc

/-- The engine state and the move in progress, 12 zero bytes when there is none (R88). -/
def State.encEngine (s : State) : List Byte :=
  enc8 s.engine.state.code ++ encOpt 11 encMove s.engine.record

/-- The place of r in the move record, when it has one. -/
def State.placeOf (s : State) (r : RemoteId) : Option Place :=
  s.engine.record.bind fun m => m.places.find? fun p => decide (p.remote = r)

/-- The lowest or highest number queued, absent when the queue is empty (R58). -/
def encNumber (e : Option Entry) : List Byte := encOptFc (e.map Entry.number)

/-- The Combiner's values of port r (R58). A minimum lead above 255 is sent as its low byte: DESIGN CHOICE, unsafe (log
entry 33). -/
def State.encUplink (s : State) (r : RemoteId) : List Byte :=
  let q := s.comb.queues.get r
  let h := s.comb.history.get r
  let w := s.comb.window.get r
  enc8 q.length ++ encNumber q.head? ++ encNumber q.getLast? ++
    encOptFin h.previous ++ encOptFc h.since ++ bytes32 h.switchFc ++
    encOpt8 w.minLead ++ enc16 w.late

/-- The Supervisor's values of port r (R137). -/
def encSupervision (v : SupRecord) : List Byte :=
  enc8 v.health.code ++ enc8 (match v.cause with | some c => c.code | none => 0) ++ enc16 v.miss ++
    encYes v.awaiting ++ encTimer v.grace ++ enc16 v.flap ++ encTimer v.decay ++
    encOpt 4 bytes32 v.serial ++ encOpt 2 bytes16 v.position ++
    encYes v.alarms.outA ++ encYes v.alarms.outB ++ encYes v.alarms.hot ++ encYes v.alarms.supply ++
    encOpt 13 (fun p => p.body ++ bytes32 p.arrival) v.report ++
    enc8 v.mode.code ++ encMask v.sources ++ enc8 v.boost ++ encYes v.held

/-- The content of READ-LIVE REMOTE r (R156). DESIGN CHOICE, unsafe (log entry 2): between the emission of boundary B and
the blocks' work no frame of B has been built, and the lane map and applied mode are those of B - 1, the present gain the
one that what was taken so far has left; R36 speaks of the most recent boundary and leaves that instant open. -/
def State.liveRemoteBody (s : State) (r : RemoteId) : List Byte :=
  let p := s.ramp r
  let place := s.placeOf r
  encEntry (s.live r) ++ encOptFin (s.map.remotes.get r).home ++
    enc16 p.present ++ enc16 p.target ++ encYes p.done ++ enc8 (s.dist.applied.get r).code ++
    mapBytes (s.dist.lastMap.get r) ++ s.encUplink r ++ s.encEngine ++
    encYes place.isSome ++
    (match place with | some v => encOptFin v.origin ++ encDest v.dest | none => [0, 0]) ++
    encYes (s.engine.phaseSet.contains r) ++ encYes (s.engine.holdSet.contains r) ++
    enc8 (s.spreader.homing.get r) ++ encSupervision (s.supRec r)

/-- The codes of a result: its place in the list of R102. -/
def Result.code : Result → Nat
  | .notEvaluated _ => 0
  | .noAction => 1
  | .relief _ _ _ => 2
  | .homing _ _ _ => 3
  | .blocked _ _ => 4
  | .refused _ _ _ => 5

/-- The codes of a gate reason (R102). -/
def GateReason.code : GateReason → Nat
  | .disabled => 0
  | .engineBusy => 1
  | .scheduleWaiting => 2
  | .unsettled => 3

/-- The codes of a blocked reason (R102). -/
def BlockReason.code : BlockReason → Nat
  | .noCandidate => 0
  | .minimum => 1
  | .noRoom => 2

/-- The fields of a result in the order of R102: gate reason, remote, source, destination, blocked
reason, each present as R102 says. -/
def encResult (x : Result) : List Byte :=
  let fields (g r a b k : Option Nat) : List Byte := encOpt8 g ++ encOpt8 r ++ encOpt8 a ++ encOpt8 b ++ encOpt8 k
  enc8 x.code ++
    match x with
    | .notEvaluated g => fields (some g.code) none none none none
    | .noAction => fields none none none none none
    | .relief r a b => fields none (some r.val) (some a.val) (some b.val) none
    | .homing r a b => fields none (some r.val) (some a.val) (some b.val) none
    | .blocked a k => fields none none (some a.val) none (some k.code)
    | .refused r a b => fields none (some r.val) (some a.val) (some b.val) none

/-- A last decision record (R102). -/
def encDecision (d : Decision) : List Byte := enc16 d.seq ++ bytes32 d.endFc ++ encResult d.result

/-- A schedule record (R110). -/
def encSchedule (c : Schedule) : List Byte := enc8 c.plan.val ++ bytes32 c.dueFc ++ encYes c.waiting

/-- How many remotes of the record have x as from, and how many have it as to (R88). -/
def State.placesFrom (s : State) (x : SectorId) : Nat :=
  match s.engine.record with
  | some m => (m.places.filter fun p => decide (p.origin = some x)).length
  | none => 0

/-- How many remotes of the record have x as to (R88). -/
def State.placesTo (s : State) (x : SectorId) : Nat :=
  match s.engine.record with
  | some m => (m.places.filter fun p => decide (p.dest = .sector x)).length
  | none => 0

/-- The content of READ-LIVE SECTOR x (R156, R110); an active plan id or start plan id that is none is FFh
(DESIGN CHOICE, log entry 15). -/
def State.liveSectorBody (s : State) (x : SectorId) : List Byte :=
  encSectorEntry (s.map.sectors.get x) ++ mapBytes (s.dist.maps.get x) ++
    encYes (s.sup.degraded.get x) ++ enc8 (s.sup.serving.get x) ++ enc8 (s.spreader.overload.get x) ++
    encOpt 17 encDecision s.spreader.decision ++ encOpt 1 encYes s.spreader.settled ++
    encOptFc s.spreader.lastEnd ++ s.encEngine ++ enc8 (s.placesFrom x) ++ enc8 (s.placesTo x) ++
    encOptFin s.map.active ++ encYes s.map.diverged ++ encOptFin s.store.start ++
    encOpt 6 encSchedule s.store.schedule

/-! ## READ-LOAD (R70, R71) -/

/-- The published window: start FC, end FC and W (R70). DESIGN CHOICE, unsafe (log entry 15): the three are absent
together, so one presence byte stands before them in `State.loadBody`. -/
def encWindow (p : Published) : List Byte := bytes32 p.startFc ++ bytes32 p.endFc ++ enc16 p.window

/-- The content of READ-LOAD HUB (R70); before the first window end every load reads 0, with health and
member counts as at that moment. -/
def State.loadBody (s : State) : List Byte :=
  let q := s.meter.published
  enc16 s.meter.seq ++ encOpt 10 encWindow q ++ enc16 s.meter.window ++ enc16 s.meter.count ++
    ((List.finRange 8).flatMap fun x =>
      enc16 (q.elim 0 fun p => p.sector.get x) ++
        enc8 (q.elim (s.activeMembers x).length fun p => p.members.get x) ++ enc8 (s.spreader.overload.get x)) ++
    ((List.finRange 12).flatMap fun c =>
      let lab := q.elim ((s.carrier c).tag, (s.carrier c).sector) fun p => p.labels.get c
      enc16 (q.elim 0 fun p => p.carrier.get c) ++ enc8 lab.1.val ++ encOptFin lab.2) ++
    (List.finRange 16).flatMap fun r =>
      enc16 (q.elim 0 fun p => p.remote.get r) ++ enc8 (q.elim (s.health r) fun p => p.health.get r).code

/-- c is named in the current lane map of r's sector (R71); which map that is before the Distributor has acted on a
boundary is a DESIGN CHOICE, unsafe (log entry 2). -/
def State.inSectorMap (s : State) (r : RemoteId) (c : CarrierId) : Bool :=
  match s.sectorOf r with
  | some x => (s.dist.maps.get x).contains (some c)
  | none => false

/-- The content of READ-LOAD REMOTE r (R71). -/
def State.remoteLoadBody (s : State) (r : RemoteId) : List Byte :=
  (List.finRange 12).flatMap fun c =>
    let a := s.activity r c
    enc16 a.occupancy ++ enc8 a.floor ++ encYes a.settled ++ encYes a.stale ++ enc16 a.frames ++
      enc16 a.busy ++ encOpt8 a.minLevel ++ encYes (s.inSectorMap r c)

/-! ## READ-COUNTERS (R159) -/

/-- The code of a receive state: its place in R1's list. -/
def RxState.code : RxState → Nat
  | .down => 0
  | .hunt => 1
  | .verify => 2
  | .locked => 3

/-- The state and counters of one framer, those that apply to its kind of link (R6). -/
def State.linkReport (s : State) (l : Link) : List Byte :=
  let f := s.framer l
  let k := f.counters
  enc8 f.rx.code ++
    ([k.good, k.checkErrors, k.slips, k.jumps, k.lockLosses, k.malformed, k.sendAborts] ++
      (match l with | .donor _ => [k.gaps, k.overruns] | _ => [])).flatMap enc16

/-- The uplink counters of one port (R56). DESIGN CHOICE, unsafe (log entry 15): the uplink group goes port by port, each
port's counters in the order of R56's table; R159 does not say whether port by port or counter by counter. -/
def encUplinkCounters (k : UplinkCounters) : List Byte :=
  [k.outOfWindow, k.late, k.duplicates, k.overflows, k.mismatches, k.missing].flatMap enc16

/-- The clip counters of one carrier with its operator tag (R159). DESIGN CHOICE, unsafe (log entry 15): the carriers group
goes carrier by carrier, each with its downlink clips, its uplink clips and then its tag; R159 does not say whether
carrier by carrier or counter by counter, nor where the tag stands. -/
def State.clipReport (s : State) (c : CarrierId) : List Byte :=
  enc16 (s.dist.clips.get c) ++ enc16 (s.comb.clips.get c) ++ enc8 (s.carrier c).tag.val

/-- The service group: the counters of S, of D0 to D3 and of the ports, link by link, each in the order of
R159's table (DESIGN CHOICE, log entry 15: the table does not say whether link by link or counter by
counter). -/
def State.serviceReport (s : State) : List Byte :=
  let v := s.svc.serviceCount
  [v.queued, v.refusals, v.strays, v.roomDiscards].flatMap enc16 ++
    (s.svc.donorCounts.items.flatMap fun d =>
      [d.queued, d.refusals, d.accessDiscards, d.strays, d.roomDiscards, d.removals].flatMap enc16) ++
    s.svc.portCounts.items.flatMap fun p => [p.opened, p.timeouts, p.busies, p.unmatched].flatMap enc16

/-- The content of READ-COUNTERS for a group: 0 links, 1 uplink, 2 carriers, 3 service (R159). -/
def State.countersBody (s : State) (group : Nat) : List Byte :=
  if group = 0 then fitBody (allLinks.flatMap s.linkReport)
  else if group = 1 then s.comb.counters.items.flatMap encUplinkCounters
  else if group = 2 then (List.finRange 12).flatMap s.clipReport
  else s.serviceReport

end Sys2Proof.Machine
end

