-- ==== Sys2Proof/Machine/Requests.lean ====
section
/-! DEFINITION. The requests: what the Service Interpreter answers to each kind, and the taking of the
oldest request (R152, R153, and the rules R153 names). A request's effect is a `Verdict`: a status other
than DONE, and then no state changes (R153), or a new state with the content of DONE. -/

namespace Sys2Proof.Machine

/-- What a request comes to: a refusal, or DONE with the state after it and the response body. -/
abbrev Verdict := Except Status (State × List Byte)

/-- DONE without content. -/
def ok (s : State) : Verdict := .ok (s, [])

/-- A value read from a body, or the refusal that its absence is. -/
def need {α : Type} (st : Status) (x : Option α) (f : α → Verdict) : Verdict :=
  match x with
  | some a => f a
  | none => .error st

/-- A check: the refusal when its condition holds, else what follows. -/
def refuseIf (c : Bool) (st : Status) (v : Verdict) : Verdict := if c then .error st else v

/-! ## Identity, settings and tables -/

/-- IDENTIFY (R157). -/
def State.askIdentify (s : State) (l : MsgLink) : Verdict := .ok (s, s.identity l)

/-- READ-SETTINGS (R154). -/
def State.askReadSettings (s : State) : Verdict := .ok (s, s.settingsBody)

/-- What the blocks do at the execution of a settings write: the reference selection when item 9 was
written (R9, R10), and a standing offer when notices are disabled (R144). -/
def State.applySettings (s : State) (items : List Nat) (c : Settings) : State :=
  let s := { s with settings := c }
  let s := if items.contains 9 then s.reviseReference else s
  if c.notices then s else s.dropOffer

/-- WRITE-SETTINGS (R154). -/
def State.askWriteSettings (s : State) (b : List Byte) : Verdict :=
  let pairs := settingPairs b
  let items := pairs.map Prod.fst
  refuseIf (items.any fun k => decide (k = 0) || decide (k > 25)) .badIndex <|
  refuseIf (!decide items.Nodup) .badValue <|
  need .badValue (s.settings.writeAll pairs) fun c =>
    let t := s.applySettings items c
    .ok (t, t.settingsBody)

/-- READ-CARRIER (R21). -/
def State.askReadCarrier (s : State) (b : List Byte) : Verdict :=
  need .badIndex (finOf 12 (byteAt b 0)) fun c =>
    .ok (s, encCarrier (s.carrier c) ++ encYes (s.sourceLost c))

/-- WRITE-CARRIER (R20). -/
def State.askWriteCarrier (s : State) (b : List Byte) : Verdict :=
  need .badIndex (finOf 12 (byteAt b 0)) fun c =>
  need .badValue (carrierAt b 1) fun k =>
    let old := s.carrier c
    refuseIf ((decide (k.enabled ≠ old.enabled) || decide (k.sector ≠ old.sector)) && !s.engineIdle) .busy <|
    refuseIf (!carriersLegal (s.dist.carriers.set c k)) .conflict <|
    ok { s with dist := { s.dist with carriers := s.dist.carriers.set c k } }

/-- READ-PLAN (R109). -/
def State.askReadPlan (s : State) (b : List Byte) : Verdict :=
  need .badIndex (finOf 4 (byteAt b 0)) fun p =>
    let plan := s.store.plans.get p
    if byteAt b 1 = 0 then .ok (s, s.headerBody p)
    else if byteAt b 1 = 1 then
      need .badIndex (finOf 16 (byteAt b 2)) fun r => .ok (s, encEntry (plan.remotes.get r))
    else
      need .badIndex (finOf 8 (byteAt b 2)) fun x => .ok (s, encSectorEntry (plan.sectors.get x))

/-- A plan record, changed. -/
def State.modPlan (s : State) (p : PlanId) (f : Plan → Plan) : State :=
  { s with store := { s.store with plans := s.store.plans.modify p f } }

/-- A header write: valid, label and start marker (R107). -/
def State.writeHead (s : State) (p : PlanId) (h : PlanHead) : State :=
  let s := s.modPlan p fun v => { v with valid := h.valid, label := h.label }
  { s with store := { s.store with
      start := if h.start then some p else if s.store.start = some p then none else s.store.start } }

/-- WRITE-PLAN (R107, R108). -/
def State.askWritePlan (s : State) (b : List Byte) : Verdict :=
  need .badIndex (finOf 4 (byteAt b 0)) fun p =>
    if byteAt b 1 = 0 then
      need .badValue (planHeadAt b 3) fun h => ok (s.writeHead p h)
    else if byteAt b 1 = 1 then
      need .badIndex (finOf 16 (byteAt b 2)) fun r =>
      need .badValue (planEntryAt b 3 r) fun e =>
        ok (s.modPlan p fun v => { v with remotes := v.remotes.set r e })
    else
      need .badIndex (finOf 8 (byteAt b 2)) fun x =>
      need .badValue (sectorEntryAt b 3) fun e =>
        ok (s.modPlan p fun v => { v with sectors := v.sectors.set x e })

/-! ## Live records and loads -/

/-- READ-LIVE (R156). -/
def State.askReadLive (s : State) (b : List Byte) : Verdict :=
  if byteAt b 0 = 0 then
    need .badIndex (finOf 16 (byteAt b 1)) fun r => .ok (s, s.liveRemoteBody r)
  else
    need .badIndex (finOf 8 (byteAt b 1)) fun x => .ok (s, s.liveSectorBody x)

/-- The live fields of remote r replaced, each changed field taken up by its block (R155). -/
def State.setRemoteEntry (s : State) (r : RemoteId) (e : RemoteEntry) : State :=
  let old := s.live r
  if e = old then s
  else
    let s := ((s.modLive r fun _ => e).diverge).deriveMode r
    let (s, boosted) :=
      if e.partners = old.partners ∧ e.boost = old.boost then (s, []) else s.reevalBoosts (List.finRange 16)
    if e.baseGain = old.baseGain then s.recomputeAll boosted
    else s.recomputeAll (withFirst r boosted)

/-- The live fields of sector x replaced; a changed minimum is evaluated (R136, R155). -/
def State.setSectorEntry (s : State) (x : SectorId) (e : SectorEntry) : State :=
  let old := s.map.sectors.get x
  if e = old then s
  else
    let s := ({ s with map := { s.map with sectors := s.map.sectors.set x e } }).diverge
    if e.minimum = old.minimum then s else s.evalDegraded true x

/-- The entry of a SET-REMOTE body for remote r, with the fields it does not write taken from the live
record; alternates are judged against the home sector (R155, R170). -/
def State.liveEntryAt (s : State) (r : RemoteId) (b : List Byte) : Option RemoteEntry :=
  (entryAt b 2 (s.live r).configured (s.live r).sector).filter fun e =>
    e.consistent r (s.map.remotes.get r).home

/-- SET-REMOTE (R155). -/
def State.askSetRemote (s : State) (b : List Byte) : Verdict :=
  if byteAt b 0 = 0 then
    need .badIndex (finOf 16 (byteAt b 1)) fun r =>
      refuseIf s.batchRunning .busy <|
      refuseIf (!(s.live r).configured) .notReady <|
      need .badValue (s.liveEntryAt r b) fun e => ok (s.setRemoteEntry r e)
  else
    need .badIndex (finOf 8 (byteAt b 1)) fun x =>
      refuseIf s.batchRunning .busy <|
      need .badValue (sectorEntryAt b 2) fun e => ok (s.setSectorEntry x e)

/-- READ-LOAD (R70, R71). -/
def State.askReadLoad (s : State) (b : List Byte) : Verdict :=
  if byteAt b 0 = 0 then .ok (s, s.loadBody)
  else need .badIndex (finOf 16 (byteAt b 1)) fun r => .ok (s, s.remoteLoadBody r)

/-! ## Moves and cut-overs -/

/-- MOVE (R76). -/
def State.askMove (s : State) (b : List Byte) : Verdict :=
  need .badIndex (finOf 16 (byteAt b 0)) fun r =>
    refuseIf (!s.engineIdle) .busy <|
    refuseIf (!s.serviced r) .notReady <|
    need .badValue (finOf 8 (byteAt b 1)) fun y =>
    refuseIf (decide (s.sectorOf r = some y)) .badValue <|
    refuseIf (s.carriersOf y).isEmpty .conflict <|
    ok (s.startSingle .manual r y).1

/-- ABORT (R85). -/
def State.askAbort (s : State) : Verdict :=
  match s.engine.state with
  | .fadeOut => ok s.startRecovery
  | .switchPending => .error .tooLate
  | .fadeIn => .error .tooLate
  | .recovering => .error .notReady
  | .idle => .error .notReady

/-- CUT-OVER (R111). -/
def State.askCutOver (s : State) (b : List Byte) : Verdict :=
  need .badIndex (finOf 4 (byteAt b 0)) fun p =>
    refuseIf (!s.engineIdle) .busy <|
    refuseIf (!(s.store.plans.get p).valid) .notReady <|
    ok (s.startCutOver p).1

/-- The schedule record is replaced or removed, and no due test of the old one is left. -/
def State.replaceSchedule (s : State) (c : Option Schedule) : State :=
  ((s.setSchedule c).unDue .schedule).unDue .retest

/-- SCHEDULE (R115). -/
def State.askSchedule (s : State) (b : List Byte) : Verdict :=
  need .badIndex (finOf 4 (byteAt b 0)) fun p =>
    refuseIf (!(s.store.plans.get p).valid) .notReady <|
    ok (s.replaceSchedule (some ⟨p, longAt b 1, false⟩))

/-- CUE (R117). -/
def State.askCue (s : State) : Verdict :=
  need .notReady s.store.schedule fun c =>
    let t := (s.setSchedule (some { c with dueFc := s.now })).unDue .schedule
    ok (if c.waiting then t else t.testSchedule { c with dueFc := s.now })

/-- CANCEL (R118). -/
def State.askCancel (s : State) : Verdict :=
  need .notReady s.store.schedule fun _ => ok (s.replaceSchedule none)

/-! ## Isolation and events -/

/-- ISOLATE (R133). -/
def State.askIsolate (s : State) (b : List Byte) : Verdict :=
  need .badIndex (finOf 16 (byteAt b 0)) fun r =>
    refuseIf (decide (s.health r = .vacant)) .notReady <|
    ok (if s.health r = .isolated then s else s.isolate r)

/-- RESTORE (R133). -/
def State.askRestore (s : State) (b : List Byte) : Verdict :=
  need .badIndex (finOf 16 (byteAt b 0)) fun r =>
    refuseIf (decide (s.health r ≠ .isolated)) .notReady <|
    ok (s.restore r)

/-- READ-EVENTS (R146). -/
def State.askReadEvents (s : State) (b : List Byte) : Verdict :=
  let (es, q) := s.events.take (min 8 (byteAt b 0).toNat)
  let q := { q with offer := q.offer && !q.records.isEmpty }
  .ok ({ s with events := q }, encEvents s.events.overflow q.records.length es)

/-! ## Counters and tap -/

/-- READ-COUNTERS (R159). -/
def State.askReadCounters (s : State) (b : List Byte) : Verdict := .ok (s, s.countersBody (byteAt b 0).toNat)

/-- A framer with its counters at 0 (R6). -/
def Framer.clear (f : Framer) : Framer := { f with counters := LinkCounters.zero }

/-- The links group at 0 (R6). -/
def State.clearLinks (s : State) : State :=
  { s with links := ⟨s.links.donors.map Framer.clear, s.links.remotes.map Framer.clear, s.links.service.clear⟩ }

/-- The uplink group at 0 (R56). -/
def State.clearUplink (s : State) : State :=
  { s with comb := { s.comb with counters := Tab.const 16 UplinkCounters.zero } }

/-- The carriers group at 0 (R37, R56). -/
def State.clearCarriers (s : State) : State :=
  { s with dist := { s.dist with clips := Tab.const 12 0 }, comb := { s.comb with clips := Tab.const 12 0 } }

/-- The service group at 0 (R159). -/
def State.clearService (s : State) : State :=
  { s with svc := { s.svc with
      serviceCount := LinkService.zero
      donorCounts := Tab.const 4 LinkService.zero
      portCounts := Tab.const 16 PortService.zero } }

/-- The groups named by a mask at 0 (R159). -/
def State.clearGroups (s : State) (mask : Byte) : State :=
  let s := if mask.getLsbD 0 then s.clearLinks else s
  let s := if mask.getLsbD 1 then s.clearUplink else s
  let s := if mask.getLsbD 2 then s.clearCarriers else s
  if mask.getLsbD 3 then s.clearService else s

/-- CLEAR-COUNTERS (R159). -/
def State.askClearCounters (s : State) (b : List Byte) : Verdict :=
  refuseIf (decide ((byteAt b 0).toNat > 15)) .badValue <| ok (s.clearGroups (byteAt b 0))

/-- The tap selection, replaced. -/
def State.setTap (s : State) (t : Tap) : State := { s with svc := { s.svc with tap := t } }

/-- TAP (R158). -/
def State.askTap (s : State) (b : List Byte) : Verdict :=
  let r := finOf 16 (byteAt b 1)
  let c := finOf 12 (byteAt b 2)
  if byteAt b 0 = 0 then ok (s.setTap .none)
  else if byteAt b 0 = 1 then need .badIndex c fun c => ok (s.setTap (.combined c))
  else if byteAt b 0 = 2 then need .badIndex r fun r => need .badIndex c fun c => ok (s.setTap (.raw r c))
  else need .badIndex r fun r => need .badIndex c fun c => ok (s.setTap (.downlink r c))

/-! ## Taking the oldest request (R152, R153) -/

/-- The request the Interpreter takes next: the oldest, while it takes requests and a response place is
free (R152). -/
def State.nextRequest (s : State) : Option Request :=
  if s.svc.taking && s.svc.hasRoom then s.svc.input.head? else none

/-- The oldest request leaves the input queue. -/
def State.dropRequest (s : State) : State := { s with svc := { s.svc with input := s.svc.input.drop 1 } }

/-- The response to a request, with a status and a body. -/
def Request.answer (q : Request) (st : Status) (body : List Byte) : Response :=
  ⟨q.link, q.tag, q.kind, st, body, false⟩

/-- The verdict of a request is answered: a refusal changes no state but the queues (R152, R153). -/
def State.conclude (s : State) (q : Request) : Verdict → State
  | .ok (t, body) => t.fill (q.answer .done body)
  | .error st => s.fill (q.answer st [])

/-- The verdict of a request, its body judged first (R153, R170). -/
def State.judge (s : State) (q : Request) (f : State → Request → Verdict) : Verdict :=
  match bodyStatus q.kind q.body with
  | some st => .error st
  | none => f s q

/-- The Interpreter takes the oldest request when it is of this kind, and executes and answers it; with no
such request to take, nothing happens (R152, log entry 3). -/
def State.takeRequest (s : State) (kind : Byte) (f : State → Request → Verdict) : State :=
  match s.nextRequest with
  | some q => if q.kind = kind then s.dropRequest.conclude q (s.dropRequest.judge q f) else s
  | none => s

/-! ## SAVE, RESTART and unknown requests -/

/-- SAVE begins: label, snapshot, saving flag, a reserved place, and the memory's old image gone (R166). -/
def State.beginSave (s : State) (q : Request) (label : Option (List Byte)) : State :=
  let s := { s with loader := { s.loader with label := if label.isSome then label else s.loader.label } }
  let s := s.reserve (.save q.link q.tag)
  { s with loader := { s.loader with snapshot := some s.stored, memory := .partialImage } }

/-- SAVE is executed (R166): its DONE comes at the end of the write. -/
def State.executeSave (s : State) (q : Request) : State :=
  match bodyStatus q.kind q.body with
  | some st => s.fill (q.answer st [])
  | none =>
    match labelAt 32 q.body 0 with
    | none => s.fill (q.answer .badValue [])
    | some label =>
      if s.loader.snapshot.isSome then s.fill (q.answer .busy []) else s.beginSave q label

/-- The Interpreter takes a SAVE. -/
def State.takeSave (s : State) : State :=
  match s.nextRequest with
  | some q => if q.kind = kindSave then s.dropRequest.executeSave q else s
  | none => s

/-- No further request is taken (R167). -/
def State.stopTaking (s : State) : State := { s with svc := { s.svc with taking := false } }

/-- RESTART is executed: answered DONE, and no further request is taken (R167). -/
def State.executeRestart (s : State) (q : Request) : State :=
  match bodyStatus q.kind q.body with
  | some st => s.fill (q.answer st [])
  | none =>
    s.stopTaking.fill { q.answer .done [] with restart := true }

/-- The Interpreter takes a RESTART. -/
def State.takeRestart (s : State) : State :=
  match s.nextRequest with
  | some q => if q.kind = kindRestart then s.dropRequest.executeRestart q else s
  | none => s

/-- A request that UNKNOWN_REQUEST answers: an unknown kind, or a body whose length does not fit its kind
and selector (R153, R170; log entries 3 and 26). -/
def Request.isUnknown (q : Request) : Bool :=
  !requestKind q.kind || ((selectorStatus q.kind q.body).isNone && !lengthFits q.kind q.body)

/-- The Interpreter takes an unknown request and answers BAD-VALUE (R153). -/
def State.takeUnknown (s : State) : State :=
  match s.nextRequest with
  | some q => if q.isUnknown then s.dropRequest.fill (q.answer .badValue []) else s
  | none => s

end Sys2Proof.Machine
end

