-- ==== Sys2Proof/Machine/EventCommands.lean ====
section
/-! DEFINITION. The meanings of the events: power-on, boundaries, links, messages, senders, timers and the
Move Engine's moments. Each answers a next state; an event whose condition does not hold does not occur,
and its command leaves the state as it is (log entries 2 and 3). -/

namespace Sys2Proof.Machine

/-- The outcome of a command. -/
abbrev Outcome := Host.Outcome State Fault Refusal

/-- POWER_ON_RESET (R165). -/
def execPowerOnReset (s : State) : Outcome := .next s.powerOn

/-- IMAGE_READ_END (R165). -/
def execImageReadEnd (read : ImageRead) (s : State) : Outcome := .next (s.readEnds read)

/-- FRAME_BOUNDARY (R8, log entry 2). -/
def execFrameBoundary (part : BoundaryPart) (s : State) : Outcome := .next (s.boundaryPart part)

/-- LOSS_OF_SIGNAL (R1). -/
def execLossOfSignal (l : Link) (s : State) : Outcome := .next (s.lossOfSignal l)

/-- SIGNAL_RETURNS (R1). -/
def execSignalReturns (l : Link) (s : State) : Outcome := .next (s.signalReturns l)

/-- GOOD_FRAME (R1, R2): the position ends with this frame, which the framer finds good by its check; one that
fails is errored all the same (R169, log entry 20). -/
def execGoodFrame (l : Link) (f : LinkFrame) (s : State) : Outcome := .next (s.frameEnds l f)

/-- ERRORED_FRAME (R1, R2): the position ends with a frame that fails its check, or with none; the framer
judges what stands there (R169, log entry 20). -/
def execErroredFrame (l : Link) (f : LinkFrame) (s : State) : Outcome := .next (s.frameEnds l f)

/-- SERVICE_MESSAGE_ARRIVAL (R148, R149, R151). -/
def execServiceMessageArrival (l : MsgLink) (s : State) : Outcome := .next (s.takeServiceMessage l)

/-- STATUS (R124). -/
def execStatus (r : RemoteId) (s : State) : Outcome := .next (s.takeStatus r)

/-- REPLY (R162). -/
def execReply (r : RemoteId) (s : State) : Outcome := .next (s.takeReply r)

/-- BUSY_REPLY (R162). -/
def execBusyReply (r : RemoteId) (s : State) : Outcome := .next (s.takeBusy r)

/-- RESPONSE_START (R16). -/
def execResponseStart (l : MsgLink) (s : State) : Outcome := .next (s.startResponse l)

/-- NOTICE (R145). -/
def execNotice (s : State) : Outcome := .next s.startNotice

/-- ARBITER_MESSAGE_BOUNDARY (R17). -/
def execArbiterMessageBoundary (r : RemoteId) (s : State) : Outcome := .next (s.startRemote r)

/-- The sent report of port r that is due, when there is one (R17). -/
def State.sentDue (s : State) (r : RemoteId) : Option Byte :=
  s.boundary.due.findSome? fun d =>
    match d with
    | .sent x t => if x = r then some t else none
    | _ => none

/-- RELAYED_MESSAGE_SENT (R17, R161). -/
def execRelayedMessageSent (r : RemoteId) (s : State) : Outcome :=
  match s.sentDue r with
  | some t => .next (s.takeDue (.sent r t) fun s => s.sentReport r t)
  | none => .next s

/-- DONOR_GRACE_EXPIRY (R28). -/
def execDonorGraceExpiry (n : DonorId) (s : State) : Outcome :=
  .next (s.takeDue (.donorGrace n) fun s => s.donorGraceExpires n)

/-- LINK_GRACE_EXPIRY (R123). -/
def execLinkGraceExpiry (r : RemoteId) (s : State) : Outcome :=
  .next (s.takeDue (.linkGrace r) fun s => s.graceExpires r)

/-- POLL_EVENT (R122). -/
def execPollEvent (s : State) : Outcome := .next (s.takeDue .poll State.pollExpires)

/-- FLAP_DECAY_EXPIRY (R132). -/
def execFlapDecayExpiry (r : RemoteId) (s : State) : Outcome :=
  .next (s.takeDue (.flap r) fun s => s.flapExpires r)

/-- RAMP_STEP_EVENT (R33). -/
def execRampStepEvent (s : State) : Outcome := .next (s.takeDue .rampStep State.rampStep)

/-- WINDOW_END (R57, R65, R69, R91, R99, R101): the whole where no part is named; its parts are log entry 32. -/
def execWindowEnd (s : State) (part : WindowPart := .whole) : Outcome := .next (s.windowPart part)

/-- PACING_TIMER_EXPIRY (R144). -/
def execPacingTimerExpiry (s : State) : Outcome := .next (s.takeDue .pacing State.pacingExpires)

/-- PASS_TIMEOUT (R161). -/
def execPassTimeout (r : RemoteId) (s : State) : Outcome :=
  .next (s.takeDue (.passTimeout r) fun s => s.passExpires r)

/-- PASS_RETRY_DELAY_END (R162). -/
def execPassRetryDelayEnd (r : RemoteId) (s : State) : Outcome :=
  .next (s.takeDue (.retryEnd r) fun s => s.retryEnds r)

/-- SCHEDULE_DUE (R116). -/
def execScheduleDue (s : State) : Outcome := .next (s.takeDue .schedule State.dueTest)

/-- DUE_WAITING_RETEST (R116). -/
def execDueWaitingRetest (s : State) : Outcome := .next (s.takeDue .retest State.waitingTest)

/-- SWITCH (R78): the switch of a single move. -/
def execSwitch (s : State) : Outcome :=
  .next (if s.batchRunning then s else s.takeDue .switch State.switchFalls)

/-- BATCH_SWITCH (R83). -/
def execBatchSwitch (s : State) : Outcome :=
  .next (if s.batchRunning then s.takeDue .switch State.switchFalls else s)

/-- SAVE_WRITE_COMPLETION (R166). -/
def execSaveWriteCompletion (s : State) : Outcome := .next s.saveCompletes

/-- SAVE_WRITE_FAILURE (R166). -/
def execSaveWriteFailure (s : State) : Outcome := .next s.saveFails

/-- RESTART_TAKES_EFFECT (R167). -/
def execRestartTakesEffect (s : State) : Outcome := .next (s.takeDue .restart State.restartEffect)

end Sys2Proof.Machine
end

