-- ==== Sys2Proof/Machine/RequestCommands.lean ====
section
/-! DEFINITION. The meanings of the request rows: each takes the oldest waiting request when it is of its
kind, executes it and answers it (R152, R153); otherwise the state stays as it is (log entry 3). -/

namespace Sys2Proof.Machine

/-- IDENTIFY (R157). -/
def execIdentify (s : State) : Outcome :=
  .next (s.takeRequest kindIdentify fun s q => s.askIdentify q.link)

/-- READ-SETTINGS (R154). -/
def execReadSettings (s : State) : Outcome :=
  .next (s.takeRequest kindReadSettings fun s _ => s.askReadSettings)

/-- WRITE-SETTINGS (R154). -/
def execWriteSettings (s : State) : Outcome :=
  .next (s.takeRequest kindWriteSettings fun s q => s.askWriteSettings q.body)

/-- READ-CARRIER (R21). -/
def execReadCarrier (s : State) : Outcome :=
  .next (s.takeRequest kindReadCarrier fun s q => s.askReadCarrier q.body)

/-- WRITE-CARRIER (R20). -/
def execWriteCarrier (s : State) : Outcome :=
  .next (s.takeRequest kindWriteCarrier fun s q => s.askWriteCarrier q.body)

/-- READ-PLAN (R109). -/
def execReadPlan (s : State) : Outcome :=
  .next (s.takeRequest kindReadPlan fun s q => s.askReadPlan q.body)

/-- WRITE-PLAN (R107). -/
def execWritePlan (s : State) : Outcome :=
  .next (s.takeRequest kindWritePlan fun s q => s.askWritePlan q.body)

/-- READ-LIVE (R156). -/
def execReadLive (s : State) : Outcome :=
  .next (s.takeRequest kindReadLive fun s q => s.askReadLive q.body)

/-- SET-REMOTE (R155). -/
def execSetRemote (s : State) : Outcome :=
  .next (s.takeRequest kindSetRemote fun s q => s.askSetRemote q.body)

/-- READ-LOAD (R70, R71). -/
def execReadLoad (s : State) : Outcome :=
  .next (s.takeRequest kindReadLoad fun s q => s.askReadLoad q.body)

/-- MOVE (R76). -/
def execMove (s : State) : Outcome :=
  .next (s.takeRequest kindMove fun s q => s.askMove q.body)

/-- ABORT (R85). -/
def execAbort (s : State) : Outcome :=
  .next (s.takeRequest kindAbort fun s _ => s.askAbort)

/-- CUT-OVER (R111). -/
def execCutOver (s : State) : Outcome :=
  .next (s.takeRequest kindCutOver fun s q => s.askCutOver q.body)

/-- SCHEDULE (R115). -/
def execSchedule (s : State) : Outcome :=
  .next (s.takeRequest kindSchedule fun s q => s.askSchedule q.body)

/-- CUE (R117). -/
def execCue (s : State) : Outcome :=
  .next (s.takeRequest kindCue fun s _ => s.askCue)

/-- CANCEL (R118). -/
def execCancel (s : State) : Outcome :=
  .next (s.takeRequest kindCancel fun s _ => s.askCancel)

/-- ISOLATE (R133). -/
def execIsolate (s : State) : Outcome :=
  .next (s.takeRequest kindIsolate fun s q => s.askIsolate q.body)

/-- RESTORE (R133). -/
def execRestore (s : State) : Outcome :=
  .next (s.takeRequest kindRestore fun s q => s.askRestore q.body)

/-- READ-EVENTS (R146). -/
def execReadEvents (s : State) : Outcome :=
  .next (s.takeRequest kindReadEvents fun s q => s.askReadEvents q.body)

/-- READ-COUNTERS (R159). -/
def execReadCounters (s : State) : Outcome :=
  .next (s.takeRequest kindReadCounters fun s q => s.askReadCounters q.body)

/-- CLEAR-COUNTERS (R159). -/
def execClearCounters (s : State) : Outcome :=
  .next (s.takeRequest kindClearCounters fun s q => s.askClearCounters q.body)

/-- TAP (R158). -/
def execTap (s : State) : Outcome :=
  .next (s.takeRequest kindTap fun s q => s.askTap q.body)

/-- SAVE (R166). -/
def execSave (s : State) : Outcome := .next s.takeSave

/-- RESTART (R167). -/
def execRestart (s : State) : Outcome := .next s.takeRestart

/-- UNKNOWN_REQUEST (R153). -/
def execUnknownRequest (s : State) : Outcome := .next s.takeUnknown

end Sys2Proof.Machine
end

