-- ==== Sys2Proof/Machine/Dispatch.lean ====
section
/-! DEFINITION. The meaning of each command, one arm per constructor. -/

namespace Sys2Proof.Machine

def exec (i : Instr) (s : State) : Host.Outcome State Fault Refusal :=
  match i with
  | .powerOnReset => Sys2Proof.Machine.execPowerOnReset s
  | .imageReadEnd read => Sys2Proof.Machine.execImageReadEnd read s
  | .frameBoundary part => Sys2Proof.Machine.execFrameBoundary part s
  | .lossOfSignal l => Sys2Proof.Machine.execLossOfSignal l s
  | .signalReturns l => Sys2Proof.Machine.execSignalReturns l s
  | .goodFrame l f => Sys2Proof.Machine.execGoodFrame l f s
  | .erroredFrame l f => Sys2Proof.Machine.execErroredFrame l f s
  | .serviceMessageArrival l => Sys2Proof.Machine.execServiceMessageArrival l s
  | .status r => Sys2Proof.Machine.execStatus r s
  | .reply r => Sys2Proof.Machine.execReply r s
  | .busyReply r => Sys2Proof.Machine.execBusyReply r s
  | .responseStart l => Sys2Proof.Machine.execResponseStart l s
  | .notice => Sys2Proof.Machine.execNotice s
  | .arbiterMessageBoundary r => Sys2Proof.Machine.execArbiterMessageBoundary r s
  | .relayedMessageSent r => Sys2Proof.Machine.execRelayedMessageSent r s
  | .donorGraceExpiry n => Sys2Proof.Machine.execDonorGraceExpiry n s
  | .linkGraceExpiry r => Sys2Proof.Machine.execLinkGraceExpiry r s
  | .pollEvent => Sys2Proof.Machine.execPollEvent s
  | .flapDecayExpiry r => Sys2Proof.Machine.execFlapDecayExpiry r s
  | .rampStepEvent => Sys2Proof.Machine.execRampStepEvent s
  | .windowEnd part => Sys2Proof.Machine.execWindowEnd s part
  | .pacingTimerExpiry => Sys2Proof.Machine.execPacingTimerExpiry s
  | .passTimeout r => Sys2Proof.Machine.execPassTimeout r s
  | .passRetryDelayEnd r => Sys2Proof.Machine.execPassRetryDelayEnd r s
  | .scheduleDue => Sys2Proof.Machine.execScheduleDue s
  | .dueWaitingRetest => Sys2Proof.Machine.execDueWaitingRetest s
  | .switch => Sys2Proof.Machine.execSwitch s
  | .batchSwitch => Sys2Proof.Machine.execBatchSwitch s
  | .saveWriteCompletion => Sys2Proof.Machine.execSaveWriteCompletion s
  | .saveWriteFailure => Sys2Proof.Machine.execSaveWriteFailure s
  | .restartTakesEffect => Sys2Proof.Machine.execRestartTakesEffect s
  | .identify => Sys2Proof.Machine.execIdentify s
  | .readSettings => Sys2Proof.Machine.execReadSettings s
  | .writeSettings => Sys2Proof.Machine.execWriteSettings s
  | .readCarrier => Sys2Proof.Machine.execReadCarrier s
  | .writeCarrier => Sys2Proof.Machine.execWriteCarrier s
  | .readPlan => Sys2Proof.Machine.execReadPlan s
  | .writePlan => Sys2Proof.Machine.execWritePlan s
  | .readLive => Sys2Proof.Machine.execReadLive s
  | .setRemote => Sys2Proof.Machine.execSetRemote s
  | .readLoad => Sys2Proof.Machine.execReadLoad s
  | .move => Sys2Proof.Machine.execMove s
  | .abort => Sys2Proof.Machine.execAbort s
  | .cutOver => Sys2Proof.Machine.execCutOver s
  | .schedule => Sys2Proof.Machine.execSchedule s
  | .cue => Sys2Proof.Machine.execCue s
  | .cancel => Sys2Proof.Machine.execCancel s
  | .isolate => Sys2Proof.Machine.execIsolate s
  | .restore => Sys2Proof.Machine.execRestore s
  | .readEvents => Sys2Proof.Machine.execReadEvents s
  | .readCounters => Sys2Proof.Machine.execReadCounters s
  | .clearCounters => Sys2Proof.Machine.execClearCounters s
  | .tap => Sys2Proof.Machine.execTap s
  | .save => Sys2Proof.Machine.execSave s
  | .restart => Sys2Proof.Machine.execRestart s
  | .unknownRequest => Sys2Proof.Machine.execUnknownRequest s

end Sys2Proof.Machine
end

