-- ==== Sys2Proof/Safety.lean ====
section
/-! DEFINITION. What counts as a safe hub, in the terms the statements use: the laws of the device the
manual names, block by block, and the shape of a request that is being taken. -/

namespace Sys2Proof.Machine

/-! ## The laws of the device -/

/-- The law of the Event Queue: at most 64 records, never two of one kind and subject, and an overflow
count that saturates (R140). -/
def EventQueue.lawful (q : EventQueue) : Prop :=
  q.records.length ≤ 64 ∧ (q.records.map fun e => (e.kind, e.subject)).Nodup ∧ q.overflow ≤ 65535

/-- The law of the Move Engine: a record exactly when it is not IDLE (R74), and the sets of each state as
R73's table gives them. -/
def Engine.lawful (e : Engine) : Prop :=
  (e.state = .idle ↔ e.record = none) ∧
    (e.state = .idle ∨ e.state = .switchPending → e.phaseSet = []) ∧
    (e.state = .idle ∨ e.state = .fadeIn ∨ e.state = .recovering → e.holdSet = [])

/-- A move record as R74 gives its fields: no outcome before the end, a plan for a BATCH alone, one remote with
its two sectors in a single move, and fading remotes (R81) that are among the record's remotes. -/
structure MoveRecord.Shape (m : MoveRecord) : Prop where
  outcome : m.outcome = none
  plan : m.plan.isSome = true ↔ m.kind = .batch
  single : m.kind ≠ .batch → ∃ r x y, m.places = [⟨r, x, .sector y⟩] ∧ m.fading = [r]
  fading : ∀ r ∈ m.fading, ∃ p ∈ m.places, p.remote = r

/-- The states of the engine with what each holds (R73, R74): nothing in IDLE; a switch FC from the switch on
(R78, R83); a pending map for a BATCH alone; remotes left to wait for in FADE-OUT, FADE-IN and RECOVERING, each a
fading one; and every fading remote held until the switch, in a single move no other. -/
structure Engine.MoveLaw (e : Engine) : Prop where
  idle : e.state = .idle → e = Engine.idle
  shape : ∀ m, e.record = some m → m.Shape
  switched : ∀ m, e.record = some m → (m.switchFc.isSome = true ↔ e.state = .fadeIn)
  pending : ∀ m, e.record = some m → (e.pendingMap.isSome = true ↔ m.kind = .batch)
  waiting : e.state = .fadeOut ∨ e.state = .fadeIn ∨ e.state = .recovering → e.phaseSet ≠ []
  phase : ∀ m, e.record = some m → ∀ r ∈ e.phaseSet, r ∈ m.fading
  held : e.state = .fadeOut ∨ e.state = .switchPending → ∀ m, e.record = some m →
    (∀ r ∈ m.fading, r ∈ e.holdSet) ∧ (m.kind ≠ .batch → e.holdSet = m.fading)

/-- The places of the response queue that are filled or reserved (R150). -/
def Service.places (v : Service) : Nat := v.filled.length + v.reserved.length

/-- A framer within the sizes of its donor input buffer (R12) and its relay queue (R17). -/
def Framer.bounded (f : Framer) : Prop := f.buffer.length ≤ 2 ∧ f.relayQueue.length ≤ 4

/-- Every framer within its sizes. -/
def Links.bounded (l : Links) : Prop :=
  (∀ n, (l.donors.get n).bounded) ∧ (∀ r, (l.remotes.get r).bounded) ∧ l.service.bounded

/-- The law of the response queue and the request input queue (R150, R151). -/
def State.serviceLaw (s : State) : Prop := s.svc.places ≤ 8 ∧ s.svc.input.length ≤ 4

/-- An activity record within its ranges (R59, R61, R62, R65): floor and levels 0 to 125, no more busy frames than
frames, and an occupancy of at most 1,000. -/
structure Activity.InRange (a : Activity) : Prop where
  floor : a.floor ≤ 125
  minimum : ∀ m, a.minLevel = some m → m ≤ 125
  busy : a.busy ≤ a.frames
  frames : a.frames ≤ 65535
  occupancy : a.occupancy ≤ 1000

/-- The law of the Meter's values (R68): every activity record within its ranges, and published remote loads of at
most 1,000, sector and carrier loads of at most 16,000. -/
structure Meter.Lawful (v : Meter) : Prop where
  records : ∀ r c, ((v.records.get r).get c).InRange
  remote : ∀ p, v.published = some p → ∀ r, p.remote.get r ≤ 1000
  sector : ∀ p, v.published = some p → ∀ x, p.sector.get x ≤ 16000
  carrier : ∀ p, v.published = some p → ∀ c, p.carrier.get c ≤ 16000

/-- The plain sense of the carrier table's law: no two enabled carriers share a donor link and slot, and no
sector has more than 6 enabled carriers. -/
def CarrierTableLaw (t : Tab 12 Carrier) : Prop :=
  (∀ a b, a ≠ b → (t.get a).enabled = true → (t.get b).enabled = true →
    ¬((t.get a).donor = (t.get b).donor ∧ (t.get a).slot = (t.get b).slot)) ∧
  ∀ x : SectorId, ((List.finRange 12).filter fun c =>
    (t.get c).enabled && decide ((t.get c).sector = some x)).length ≤ 6

/-! ## Stored configuration -/

/-- A yes or no byte says v: 1 for yes, 0 for no (12.3). -/
def SaysYes (b : Byte) (v : Bool) : Prop := b = if v then 1 else 0

/-- A sector byte names x: 0 to 7, or FFh for none (R170). -/
def NamesSector (b : Byte) : Option SectorId → Prop
  | some x => b.toNat = x.val
  | none => b = 0xFF

/-- The list at an offset: a count of at most `most`, then the entries; bytes past the count do not matter
(12.3, R170). -/
def ListsAt {n : Nat} (most : Nat) (b : List Byte) (i : Nat) (xs : List (Fin n)) : Prop :=
  xs.length ≤ most ∧ (byteAt b i).toNat = xs.length ∧
    ∀ (k : Nat) (h : k < xs.length), (byteAt b (i + 1 + k)).toNat = (xs[k]).val

/-- The label at an offset: the length byte is 0 for an absent one, else 1 to `most`, and each character is
20h to 7Eh (R104, R166, R170). -/
def LabelsAt (most : Nat) (b : List Byte) (i : Nat) : Option (List Byte) → Prop
  | none => byteAt b i = 0
  | some t => 1 ≤ t.length ∧ t.length ≤ most ∧ (byteAt b i).toNat = t.length ∧
      ∀ (k : Nat) (h : k < t.length),
        t[k] = byteAt b (i + 1 + k) ∧ 0x20 ≤ (t[k]).toNat ∧ (t[k]).toNat ≤ 0x7E

/-- The fields of a remote entry past configured and sector, read at offset i: base gain and weight clamped to
1,023 and 4,095, the mode a code of 0 to 3, up to 3 alternates and 2 partners, the boost byte, the position with
its presence byte, and gating allowed (12.3, R107, R170). -/
structure RemoteEntry.FieldsAt (b : List Byte) (i : Nat) (e : RemoteEntry) : Prop where
  gain : e.baseGain = min 1023 (256 * (byteAt b (i + 2)).toNat + (byteAt b (i + 3)).toNat)
  weight : e.weight = min 4095 (256 * (byteAt b (i + 4)).toNat + (byteAt b (i + 5)).toNat)
  mode : (byteAt b (i + 6)).toNat = match e.mode with | .straight => 0 | .cross => 1 | .foldA => 2 | .foldB => 3
  alternates : ListsAt 3 b (i + 7) e.alternates
  partners : ListsAt 2 b (i + 11) e.partners
  boost : e.boost = (byteAt b (i + 14)).toNat
  position : match e.position with
    | none => byteAt b (i + 15) = 0
    | some v => byteAt b (i + 15) = 1 ∧ v.toNat = 256 * (byteAt b (i + 16)).toNat + (byteAt b (i + 17)).toNat
  gating : SaysYes (byteAt b (i + 18)) e.gatingAllowed

/-- The settings are within the ranges of the settings table (R154); the enumerated items are so by their
types. -/
def Settings.InRange (c : Settings) : Prop :=
  2 ≤ c.alignment ∧ c.alignment ≤ 8 ∧ c.gateMargin ≤ 31 ∧ c.clipLimit ≤ 65535 ∧ c.lateLimit ≤ 65535 ∧
    800 ≤ c.window ∧ c.window ≤ 65535 ∧ c.activityMargin ≤ 31 ∧
    c.rampStep ∈ [1, 2, 4, 8, 16, 32] ∧ 1 ≤ c.rampInterval ∧ c.rampInterval ≤ 4 ∧
    1 ≤ c.grace ∧ c.grace ≤ 255 ∧ 80 ≤ c.poll ∧ c.poll ≤ 8000 ∧ 1 ≤ c.missLimit ∧ c.missLimit ≤ 7 ∧
    1 ≤ c.flapLimit ∧ c.flapLimit ≤ 15 ∧ 1 ≤ c.flapPeriod ∧ c.flapPeriod ≤ 255 ∧
    1 ≤ c.overloadHold ∧ c.overloadHold ≤ 15 ∧ 1 ≤ c.homingHold ∧ c.homingHold ≤ 15 ∧
    1 ≤ c.pacing ∧ c.pacing ≤ 255 ∧ 8 ≤ c.passTimeout ∧ c.passTimeout ≤ 4095 ∧ c.passRetries ≤ 3

/-- A carrier record within its ranges (R19). -/
def Carrier.InRange (k : Carrier) : Prop := k.gain ≤ 1023 ∧ k.headroom ≤ 4

/-- The entry of port r of a plan holds what R105 allows: numbers in their ranges, up to 3 distinct
alternates, none the entry's sector, and up to 2 distinct cover partners, none the port itself. -/
def RemoteEntry.InRange (r : RemoteId) (e : RemoteEntry) : Prop :=
  e.baseGain ≤ 1023 ∧ e.weight ≤ 4095 ∧ e.boost ≤ 255 ∧
    e.alternates.length ≤ 3 ∧ e.alternates.Nodup ∧ (∀ x ∈ e.alternates, e.sector ≠ some x) ∧
    e.partners.length ≤ 2 ∧ e.partners.Nodup ∧ r ∉ e.partners

/-- A sector entry within its ranges (R106). -/
def SectorEntry.InRange (e : SectorEntry) : Prop := e.ceiling ≤ 16000 ∧ e.minimum ≤ 16

/-- A label holds 1 to `most` characters, each 20h to 7Eh (R104, R166). -/
def LabelInRange (most : Nat) (label : Option (List Byte)) : Prop :=
  ∀ t, label = some t → 1 ≤ t.length ∧ t.length ≤ most ∧ ∀ c ∈ t, 0x20 ≤ c.toNat ∧ c.toNat ≤ 0x7E

/-- A plan with every entry and its label within range (R104 to R106). -/
structure Plan.Lawful (v : Plan) : Prop where
  remotes : ∀ r, (v.remotes.get r).InRange r
  sectors : ∀ x, (v.sectors.get x).InRange
  label : LabelInRange 16 v.label

/-- Stored configuration that keeps the law of the carrier table (R20), with every setting, carrier record,
plan entry and label within its range. -/
structure Stored.Lawful (m : Stored) : Prop where
  settings : m.settings.InRange
  carriers : CarrierTableLaw m.carriers
  records : ∀ c, (m.carriers.get c).InRange
  plans : ∀ p, (m.plans.get p).Lawful
  label : LabelInRange 32 m.label

/-- The configuration in force, the snapshot of a running SAVE and the image the memory holds are all lawful
(R20, R165, R166). -/
structure State.ConfigLaw (s : State) : Prop where
  current : s.stored.Lawful
  snapshot : ∀ m, s.loader.snapshot = some m → m.Lawful
  memory : ∀ m, s.loader.memory = .holds m → m.Lawful

/-- What an image, or the defaults, put in force (R165): settings, carrier table, plans, start plan id, hub
label and image state, with D, W and P in force at their settings; the reference selection is judged by the
reference source now in force (R9, R10, log entry 16), and nothing else is touched. -/
structure State.StartsOn (s t : State) (m : Stored) (i : ImageState) : Prop where
  reference : t.clock.reference =
    let best := (List.finRange 4).find? fun n => m.settings.reference.permits n && s.locked (.donor n)
    match s.clock.reference with
    | some n => if m.settings.reference.permits n then some n else best
    | none => best
  events : t.events = match s.clock.reference, t.clock.reference with
    | none, some n => s.events.post .referenceRestored (.donor n) none 0 s.now
    | _, _ => s.events
  frame : t = { s with
    settings := m.settings
    loader := { s.loader with readEnded := true, image := some i, label := m.label }
    dist := { s.dist with carriers := m.carriers }
    store := { s.store with plans := m.plans, start := m.start }
    comb := { s.comb with delay := m.settings.alignment }
    meter := { s.meter with window := m.settings.window }
    sup := { s.sup with pollForce := m.settings.poll }
    clock := { s.clock with reference := t.clock.reference }
    events := t.events }

/-! ## Boosts, targets and degraded sectors between commands -/

/-- What holds of health, boosts, ramps and degraded flags whenever no command is being taken. Boost source sets
and applied boosts are those of R134, targets those of R31, and a ramp is done exactly when the present gain is
at its target (R32, R33). A present gain is at most 1023, and 0 out of service (R30). A remote is held exactly
when the engine has it in the hold set (R77, R78), a JOINING one that is not held is still ramping (R125), and so
is every remote the engine waits for (R77, R79, R84, R86). Serving counts and degraded flags are those of R136,
and the VACANT remotes are the unconfigured ones (R121), once the live map is loaded; before that every remote is
VACANT and nothing moves (R110, R119, R152). No two remotes in service have the same recorded serial (R124). The rest says what the engine's fading remotes are: in service, and
of a single move still in its from sector (R80 to R82). The Spreader's start request names a remote that was in
service when it was sent; one that has left since is at gain 0 when the engine takes the request in IDLE, and the move
is in SWITCH-PENDING at once (R75, R77, log entry 32). -/
structure State.SupervisionLaw (s : State) : Prop where
  sources : ∀ y, (s.supRec y).sources = (List.finRange 16).filter fun x =>
    (s.health y).serves && (s.health x).isOut && decide (s.sectorOf y ≠ none) && decide (s.sectorOf x = s.sectorOf y) &&
      decide (y ∈ (s.live x).partners) && decide (0 < (s.live x).boost)
  boost : ∀ y, (s.supRec y).boost = if (s.supRec y).alarms.hot then 0
    else ((s.supRec y).sources.map fun x => (s.live x).boost).foldl max 0
  target : ∀ r, (s.ramp r).target = s.targetOf r
  done : ∀ r, (s.ramp r).done = true ↔ (s.ramp r).present = (s.ramp r).target
  present : ∀ r, (s.ramp r).present ≤ 1023 ∧ (s.serviced r = false → (s.ramp r).present = 0)
  held : ∀ r, (s.supRec r).held = true ↔ r ∈ s.engine.holdSet
  joining : ∀ r, s.health r = .joining → (s.supRec r).held = false → (s.ramp r).done = false
  ramping : ∀ r ∈ s.engine.phaseSet, (s.ramp r).done = false
  degraded : s.map.loadNext = false → ∀ x, s.sup.serving.get x = s.servingNow x ∧
    (s.sup.degraded.get x = true ↔ s.servingNow x < (s.map.sectors.get x).minimum)
  vacant : s.map.loadNext = false → ∀ r, s.health r = .vacant ↔ (s.live r).configured = false
  unloaded : s.map.loadNext = true →
    (∀ r, s.health r = .vacant) ∧ s.engine.state = .idle ∧ s.store.schedule = none ∧ s.svc.taking = false ∧
      s.spreader.request = none
  serials : ∀ x y, x ≠ y → s.serviced x = true → s.serviced y = true → (s.supRec x).serial.isSome = true →
    (s.supRec x).serial ≠ (s.supRec y).serial
  gains : ∀ r, (s.live r).baseGain ≤ 1023 ∧
    ∀ p, s.engine.pendingMap = some p → (p.remotes.get r).baseGain ≤ 1023
  fading : s.engine.state = .fadeOut ∨ s.engine.state = .switchPending → ∀ m, s.engine.record = some m →
    (s.engine.state = .fadeOut ∨ m.kind = .batch ∨ m.kind = .manual → ∀ r ∈ m.fading, s.serviced r = true) ∧
      (m.kind ≠ .batch → ∀ p ∈ m.places, p.origin = s.sectorOf p.remote)

/-! ## The alignment queues -/

/-- The law of the alignment queues (R38): at most 8 entries, in strictly increasing number, none at or before the
last number released; and what keeps it (R11, R39, R43, R44): numbers up to 2 ahead of the current FC, and a last
number within 8 of it, or 9 while the Combiner has still to act on the boundary. Before the first boundary after
power-on reset the current FC is not defined (log entry 5), and the law asks for empty queues there. -/
structure State.AlignmentLaw (s : State) : Prop where
  room : ∀ r, (s.comb.queues.get r).length ≤ 8
  order : ∀ r, (s.comb.queues.get r).Pairwise fun a b => isAfter b.number a.number = true
  fresh : ∀ r, ∀ e ∈ s.comb.queues.get r, ∀ l, s.comb.last = some l → isAfter e.number l = true
  ahead : ∀ r, ∀ e ∈ s.comb.queues.get r, (s.now + 2 - e.number).toNat ≤ 32770
  last : ∀ l, s.comb.last = some l → (s.now - l).toNat ≤ if s.boundary.acting then 9 else 8
  first : s.comb.last = none → s.boundary.acting = true ∨ s.clock.started = false
  unstarted : s.clock.started = false →
    s.comb.last = none ∧ s.boundary.acting = false ∧ ∀ r, s.comb.queues.get r = []

/-! ## Requests being taken -/

/-- The Interpreter takes request q now, it is of this kind, and its body passes the decoding that comes
before the owning rule (R152, R153, R170). -/
def State.takes (s : State) (q : Request) (kind : Byte) : Prop :=
  s.nextRequest = some q ∧ q.kind = kind ∧ bodyStatus q.kind q.body = none

/-- The state with request q taken and answered DONE, and nothing else changed. -/
def State.reported (s : State) (q : Request) (body : List Byte) : State :=
  s.dropRequest.fill (q.answer .done body)

/-- The state with request q taken and refused, and nothing else changed. -/
def State.turnedAway (s : State) (q : Request) (st : Status) : State :=
  s.dropRequest.fill (q.answer st [])

/-! ## Settling: what follows a change of health, of membership or of a gain -/

/-- The record of a remote that is not the one a change is about: all it holds stays, but that JOINING may
end (R125), that it may be held or released (R77, R78), and that its boost follows its sources (R134). -/
structure SupRecord.Follows (v w : SupRecord) : Prop where
  health : w.health = v.health ∨ (v.health = .joining ∧ w.health.serves = true)
  rest : w = { v with health := w.health, held := w.held, sources := w.sources, boost := w.boost }

/-- The queue after posts of these kinds, one after another (R141). -/
def EventQueue.Posted (kinds : List EventKind) (q p : EventQueue) : Prop :=
  ∃ es : List Event, (∀ e ∈ es, e.kind ∈ kinds) ∧
    p = es.foldl (fun q e => q.post e.kind e.subject e.tag e.detail e.firstFc) q

/-- The kinds of event a settling may post: the end of JOINING, degradation, and the end of a move (R79, R125,
R136). -/
def settlingKinds : List EventKind :=
  [.remoteJoined, .sectorDegraded, .sectorRestored, .moveDone, .cutoverDone, .cutoverAborted]

/-- The queue after a post of this kind, subject and detail, with nothing but a settling before and after it. -/
def EventQueue.Reports (k : EventKind) (x : Subject) (d : BitVec 16) (fc : FC) (q p : EventQueue) : Prop :=
  ∃ u, q.Posted settlingKinds u ∧ (u.post k x none d fc).Posted settlingKinds p

/-- Every sector whose degraded flag has changed has been reported: SECTOR-DEGRADED or SECTOR-RESTORED with a serving
count that has the flag as it is now, at least the one given and at most the one now (R136). A health change within
the settling only adds to the count (R125). -/
def State.FlagsReported (s t : State) (low : SectorId → Nat) : Prop :=
  ∀ x, t.sup.degraded.get x ≠ s.sup.degraded.get x → ∃ n, low x ≤ n ∧ n ≤ t.servingNow x ∧
    (t.sup.degraded.get x = true ↔ n < (t.map.sectors.get x).minimum) ∧
    s.events.Reports (if t.sup.degraded.get x then .sectorDegraded else .sectorRestored) (.sector x) (word16 n) s.now
      t.events

/-- Every remote whose JOINING has ended in SERVING or IMPAIRED has been reported: REMOTE-JOINED with detail 0 or 1
(R125). -/
def State.JoinsReported (s t : State) : Prop :=
  ∀ x, s.health x = .joining → (t.health x).serves = true →
    s.events.Reports .remoteJoined (.remote x) (if t.health x = .impaired then 1 else 0) s.now t.events

/-- What a settling leaves: the recomputes of R32 with the notices of R35, the boosts of R135, the degraded
flags of R136 and the end of a move of R79 change no present gain, no link, no queue, no measurement, no
stored configuration, no membership and no cause or count of a supervision record, and post nothing but what
they report: every degraded flag that changes and every remote that has joined is reported. -/
structure Settles (s t : State) : Prop where
  events : EventQueue.Posted settlingKinds s.events t.events
  pending : t.pending = s.pending
  loader : t.loader = s.loader
  clock : t.clock = s.clock
  settings : t.settings = s.settings
  links : t.links = s.links
  comb : t.comb = s.comb
  meter : t.meter = s.meter
  store : t.store = s.store
  svc : t.svc = s.svc
  dist : t.dist = { s.dist with ramps := t.dist.ramps }
  present : ∀ r, (t.ramp r).present = (s.ramp r).present
  map : t.map = { s.map with active := t.map.active, diverged := t.map.diverged }
  spreader : t.spreader = { s.spreader with lastEnd := t.spreader.lastEnd }
  sup : ∀ r, (s.supRec r).Follows (t.supRec r)
  force : t.sup.pollForce = s.sup.pollForce
  count : t.sup.pollCount = s.sup.pollCount
  acting : t.boundary.acting = s.boundary.acting
  flags : s.FlagsReported t s.servingNow
  joins : s.JoinsReported t

/-! ## What every event of a remote, a move or a relay leaves -/

/-- A framer whose receive side, counters and last frame are as they were: only its senders may have
changed (R16, R17). -/
def Framer.SameReceive (f g : Framer) : Prop :=
  g = { f with emission := g.emission, pollPlace := g.pollPlace, relayQueue := g.relayQueue }

/-- What health, moves, ramps, boosts, plans and the relay leave as it was: the commands waiting, stored
configuration, the frame clock, every receive side and counter of the links, the Distributor but for its
ramps, the Combiner but for its switch histories, every measurement but for the stale flags, the settings,
the plans, the request input queue, the tap, the counters of the message links and the decisions of the
Spreader. -/
structure Spares (s t : State) : Prop where
  pending : t.pending = s.pending
  loader : t.loader = s.loader
  clock : t.clock = s.clock
  settings : t.settings = s.settings
  receive : ∀ l, (s.framer l).SameReceive (t.framer l)
  dist : t.dist = { s.dist with ramps := t.dist.ramps }
  comb : t.comb = { s.comb with history := t.comb.history }
  meter : t.meter = { s.meter with records := t.meter.records }
  records : ∀ r c, t.activity r c = { s.activity r c with stale := (t.activity r c).stale }
  store : t.store = { s.store with schedule := t.store.schedule }
  input : t.svc.input = s.svc.input
  tap : t.svc.tap = s.svc.tap
  serviceCount : t.svc.serviceCount = s.svc.serviceCount
  donorCounts : t.svc.donorCounts = s.svc.donorCounts
  taking : t.svc.taking = s.svc.taking
  spreader : t.spreader = { s.spreader with homing := t.spreader.homing, lastEnd := t.spreader.lastEnd }
  acting : t.boundary.acting = s.boundary.acting

/-! ## The blocks' work at a boundary -/

/-- What is taken before the frames of a boundary are built (R33, R78, R83; the order is log entry 2). State p is s
with nothing more to act on, as the boundary found it, or in the order of release first with that release done, which
changes the Combiner but for its switch histories, and the Meter but for the stale flags, alone. The switch and the ramp step that are still due are taken from p as SWITCH,
BATCH_SWITCH and RAMP_STEP_EVENT take them, and u is what they leave. -/
structure State.Precedes (s : State) (part : BoundaryPart) (p u : State) : Prop where
  start : p = { s with boundary := { s.boundary with acting := false }, comb := p.comb, meter := p.meter }
  found : part = .act → p.comb = s.comb ∧ p.meter = s.meter
  history : p.comb.history = s.comb.history
  stale : ∀ r c, (p.activity r c).stale = (s.activity r c).stale
  falls : ∃ v w, exec .switch p = .next v ∧ exec .batchSwitch v = .next w ∧ exec .rampStepEvent w = .next u

/-! ## What an event of one link leaves -/

/-- What an event of link l leaves as it was (R5): the commands waiting, stored configuration, every other
framer, measurements, the live map, the Move Engine, the Spreader, the plans; and what belongs to donor links,
remote links or other ports when l is none of them. -/
structure LinkEvent (l : Link) (s t : State) : Prop where
  pending : t.pending = s.pending
  loader : t.loader = s.loader
  settings : t.settings = s.settings
  meter : t.meter = s.meter
  map : t.map = s.map
  engine : t.engine = s.engine
  spreader : t.spreader = s.spreader
  store : t.store = s.store
  framers : ∀ k, k ≠ l → t.framer k = s.framer k
  clock : t.clock = { s.clock with reference := t.clock.reference }
  dist : t.dist = { s.dist with donors := t.dist.donors }
  comb : t.comb = { s.comb with queues := t.comb.queues, counters := t.comb.counters, window := t.comb.window }
  sup : t.sup = { s.sup with records := t.sup.records }
  donors : ∀ n, l ≠ .donor n → t.dist.donors.get n = s.dist.donors.get n
  reference : (∀ n, l ≠ .donor n) → t.clock = s.clock ∧ t.svc.input = s.svc.input
  ports : ∀ r, l ≠ .remote r → t.comb.queues.get r = s.comb.queues.get r ∧
    t.comb.counters.get r = s.comb.counters.get r ∧ t.comb.window.get r = s.comb.window.get r ∧
    t.supRec r = s.supRec r ∧ t.svc.pass.get r = s.svc.pass.get r
  events : (∀ n, l ≠ .donor n) → t.events = { s.events with offer := t.events.offer }
  offer : l ≠ .service → t.events.offer = s.events.offer
  tap : t.svc.tap = s.svc.tap
  acting : t.boundary.acting = s.boundary.acting

/-! ## What a remote's leaving leaves -/

/-- The Relay once the pass-through of port r has been ended with ABORTED, where one is open (R163): its reserved
place is filled with the answer to the origin, the slot is idle, and an attempt the arbiter has refused is withdrawn.
Only copies of a set relay are left of r's refused offers. -/
def Service.aborted (v : Service) (r : RemoteId) : Service :=
  match v.pass.get r with
  | none => v
  | some p => { v with
    pass := v.pass.set r none
    refused := v.refused.set r ((v.refused.get r).filter Relayed.copy)
    filled := v.filled ++ (if .pass r ∈ v.reserved then [⟨p.link, p.tag, p.kind, .aborted, [], false⟩] else [])
    reserved := v.reserved.erase (.pass r) }

/-- What the end of an open pass-through of port r leaves of its framer: only copies wait in the relay queue, since
the waiting attempt is withdrawn (R161, R163). -/
def Framer.withdrawn (f : Framer) (v : Service) (r : RemoteId) : Framer :=
  if v.pass.get r = none then f else { f with relayQueue := f.relayQueue.filter Relayed.copy }

/-- Remote r has entered LOST, ISOLATED or WAITING, with this cause (R34, R63, R131, R163): its present gain is
0, its activity records are stale, its link grace timer is idle and, but on entry to WAITING, no pass-through
of its port is open: one that was open has been answered ABORTED in its reserved place, and its waiting attempt is
withdrawn. Its other counts, identity, alarms and mode, and every other remote's record and present gain, are as they
were, but for what a settling may do (`SupRecord.Follows`). Degraded flags that have changed have been reported with
counts that leave r out, and so have the remotes that have joined (R125, R136). -/
structure Departed (r : RemoteId) (h : Health) (cause : Option Cause) (s t : State) : Prop where
  record : t.supRec r = { s.supRec r with
    health := h, cause := cause, grace := none
    held := (t.supRec r).held, sources := (t.supRec r).sources, boost := (t.supRec r).boost }
  present : (t.ramp r).present = 0
  stale : ∀ c, t.activity r c = { s.activity r c with stale := true }
  pass : h ≠ .waiting → t.svc.pass.get r = none
  aborted : t.svc = if h = .waiting then s.svc else s.svc.aborted r
  withdrawn : t.framer (.remote r) =
    if h = .waiting then s.framer (.remote r) else (s.framer (.remote r)).withdrawn s.svc r
  framers : ∀ l, l ≠ .remote r → t.framer l = s.framer l
  others : ∀ x, x ≠ r → (s.supRec x).Follows (t.supRec x)
  gains : ∀ x, x ≠ r → (t.ramp x).present = (s.ramp x).present
  activity : ∀ x, x ≠ r → ∀ c, t.activity x c = s.activity x c
  map : t.map = { s.map with active := t.map.active, diverged := t.map.diverged }
  events : EventQueue.Posted settlingKinds s.events t.events
  flags : s.FlagsReported t fun x => ((s.members x).filter fun z => decide (z ≠ r) && (s.health z).serves).length
  joins : s.JoinsReported t
  spares : Spares s t

/-! ## The end of a move, and what a departure does to one -/

/-- The event that reports the end of a move (R79): CUTOVER-DONE or CUTOVER-ABORTED with the plan for a batch,
MOVE-DONE with the remote for a single move. -/
def MoveRecord.endEvent (m : MoveRecord) (o : MoveOutcome) : EventKind × Subject :=
  match m.kind, m.plan, m.places with
  | .batch, some p, _ => (if o = .done then .cutoverDone else .cutoverAborted, .plan p)
  | _, _, p :: _ => (.moveDone, .remote p.remote)
  | _, _, [] => (.moveDone, .hub)

/-- The move of record m has ended with this outcome (R79, R84, R116): the engine is IDLE with nothing held, its
end FC is with the Spreader, the end has been reported, a due-waiting schedule is to be tested again, and a batch
that ended DONE has made its plan the active one and cleared the diverged flag. -/
structure MoveRecord.Ended (m : MoveRecord) (o : MoveOutcome) (s t : State) : Prop where
  engine : t.engine = ⟨.idle, none, [], [], none⟩
  lastEnd : t.spreader.lastEnd = some s.now
  reported : s.events.Reports (m.endEvent o).1 (m.endEvent o).2
    (match o with | .done => 1 | .abandoned => 2 | .aborted => 3) s.now t.events
  retest : ∀ c, s.store.schedule = some c → c.waiting = true → .retest ∈ t.boundary.due
  adopted : m.kind = .batch → o = .done → t.map.active = m.plan ∧ t.map.diverged = false
  kept : m.kind ≠ .batch ∨ o ≠ .done → t.map.active = s.map.active

/-- What a departure of remote r from service does to the engine (R80, R82, R84, R86). Before the switch, a single
move of r is ABANDONED (one of a remote out of service already goes on, log entry 32), and a batch goes on without r
in its phase set and among those that are to recover, with SWITCH-PENDING once no phase is left. After the switch and
in recovery, the remotes whose ramps are complete leave the phase set, r among them, and with none left the move has
ended. -/
structure EngineFollows (r : RemoteId) (s t : State) : Prop where
  idle : s.engine.record = none → t.engine = s.engine ∧ t.spreader.lastEnd = s.spreader.lastEnd
  abandoned : ∀ m, s.engine.record = some m → s.engine.state = .fadeOut ∨ s.engine.state = .switchPending →
    m.kind ≠ .batch → r ∈ m.fading → s.serviced r = true → m.Ended .abandoned s t
  other : ∀ m, s.engine.record = some m → s.engine.state = .fadeOut ∨ s.engine.state = .switchPending →
    m.kind ≠ .batch → r ∉ m.fading ∨ s.serviced r = false → t.engine = s.engine
  batch : ∀ m, s.engine.record = some m → s.engine.state = .fadeOut ∨ s.engine.state = .switchPending →
    m.kind = .batch → t.engine = { s.engine with
      state := if s.engine.phaseSet.filter (fun z => decide (z ≠ r)) = [] then .switchPending else .fadeOut
      record := some { m with fading := m.fading.filter fun z => decide (z ≠ r) }
      phaseSet := s.engine.phaseSet.filter fun z => decide (z ≠ r) }
  after : ∀ m, s.engine.record = some m → s.engine.state = .fadeIn ∨ s.engine.state = .recovering →
    let left := s.engine.phaseSet.filter fun z => decide (z ≠ r) && !(t.ramp z).done
    (left ≠ [] → t.engine = { s.engine with phaseSet := left }) ∧
    (left = [] → m.Ended (if s.engine.state = .fadeIn then .done else .aborted) s t)

/-! ## What the start of a move leaves -/

/-- The record of a batch to plan p (R74, R81): its changed remotes are those whose sector differs while both
sides have them configured, and those whose configured field differs; the ones in service fade. -/
def State.batchTo (s : State) (p : PlanId) : MoveRecord :=
  let new := (s.store.plans.get p).remotes
  let changed := (List.finRange 16).filter fun r =>
    decide ((s.live r).configured ≠ (new.get r).configured) ||
      ((s.live r).configured && (new.get r).configured && decide ((s.live r).sector ≠ (new.get r).sector))
  let dest (e : RemoteEntry) : Dest :=
    match e.configured, e.sector with
    | false, _ => .unconfigured
    | true, none => .none
    | true, some x => .sector x
  ⟨.batch, some p, changed.map fun r => ⟨r, s.sectorOf r, dest (new.get r)⟩, s.now, none, none,
    changed.filter s.serviced⟩

/-- A move with this record and pending map has started, and nothing else has happened (R74, R77, R81): its
fading remotes are held and ramp down to 0; one whose gain is 0 already has left the phase set at once, and
with none left the engine is SWITCH-PENDING. -/
structure Started (m : MoveRecord) (p : Option PlanMap) (s t : State) : Prop where
  engine : t.engine = ⟨if ∀ r ∈ m.fading, (s.ramp r).present = 0 then .switchPending else .fadeOut, some m,
    m.fading.filter fun r => decide ((s.ramp r).present ≠ 0), m.fading, p⟩
  ramps : ∀ r, t.ramp r =
    if r ∈ m.fading then ⟨(s.ramp r).present, 0, decide ((s.ramp r).present = 0)⟩ else s.ramp r
  records : ∀ r, t.supRec r = if r ∈ m.fading then { s.supRec r with held := true } else s.supRec r
  frame : t = { s with
    engine := t.engine
    dist := { s.dist with ramps := t.dist.ramps }
    sup := { s.sup with records := t.sup.records } }

end Sys2Proof.Machine
end

