-- ==== Sys2Proof/Certificates/Slice0/Obligations.lean ====
section
/-! DEFINITION. The statements for the provers. Each formalises rules of spec/ about what a command, an event
or the whole hub does; OBLIGATIONS.json lists them with their rules. -/

section Statements
open Sys2Proof Sys2Proof.Machine

/-! ## The queue, reset and the laws of the device -/

/-- A step runs the command at the front of the queue on the state with the queue's rest; on an empty queue
the hub idles (log entry 1: the queue and the idling are the model's own). -/
def Obligations.StepTakesFrontCommand : Prop :=
  (∀ (c : Instr) (s : State), step { s with pending := c :: s.pending } = exec c s) ∧
    ∀ s : State, s.pending = [] → step s = .next s

/-- Every command leaves the commands waiting behind it as they are: exec acts on everything but the queue
(log entry 1). -/
def Obligations.CommandsLeaveTheQueue : Prop :=
  ∀ (c : Instr) (s : State), ∃ t, exec c s = .next t ∧ t.pending = s.pending

/-- Reset meets every law of the device, so the invariants below hold in every state a run reaches. -/
def Obligations.ResetMeetsEveryLaw : Prop :=
  State.reset.ConfigLaw ∧ State.reset.events.lawful ∧ State.reset.engine.lawful ∧ State.reset.engine.MoveLaw ∧
    State.reset.serviceLaw ∧ State.reset.links.bounded ∧ State.reset.SupervisionLaw ∧ State.reset.AlignmentLaw ∧
    State.reset.meter.Lawful

/-- POWER_ON_RESET puts every block in its reset state, from any state (R165), and that state holds the values
the manual gives (R7, R9, R12, R22, R29, R30, R37, R38, R42, R50, R56, R57, R59, R64, R69, R73, R89, R104, R115,
R119, R140, R150, R152, R158, R159, R160). The commands waiting outside and the contents of the external memory
stay (log entry 17). -/
def Obligations.PowerOnResetsEveryBlock : Prop :=
  ∀ s : State, ∃ t, exec .powerOnReset s = .next t ∧
    t = { State.reset with
      pending := s.pending
      loader := { State.reset.loader with memory := s.loader.memory } } ∧
    (∀ l, (t.framer l).rx = .down ∧ (t.framer l).verifyCount = 0 ∧ (t.framer l).lastNumber = none ∧
      (t.framer l).streak = 0 ∧ (t.framer l).assembly = none ∧ (t.framer l).buffer = [] ∧
      (t.framer l).emission = none ∧ (t.framer l).pollPlace = false ∧ (t.framer l).relayQueue = [] ∧
      (t.framer l).counters = ⟨0, 0, 0, 0, 0, 0, 0, 0, 0⟩) ∧
    t.clock.started = false ∧ t.clock.reference = none ∧ t.clock.holdover = true ∧
    (∀ r, t.ramp r = ⟨0, 0, true⟩ ∧ t.dist.sent.get r = []) ∧
    (∀ n, t.dist.donors.get n = ⟨some 0, false, false⟩) ∧ (∀ c, t.dist.clips.get c = 0) ∧
    (∀ r, t.comb.queues.get r = [] ∧ t.comb.weights.get r = [] ∧ t.comb.counters.get r = ⟨0, 0, 0, 0, 0, 0⟩ ∧
      t.comb.window.get r = ⟨0, none, 0⟩) ∧
    (∀ c, t.comb.clips.get c = 0 ∧ t.comb.windowClips.get c = 0) ∧ t.comb.last = none ∧
    (∀ r c, t.activity r c = ⟨125, false, 0, 0, none, 0, true⟩) ∧
    t.meter.published = none ∧ t.meter.seq = 0 ∧ t.meter.count = 0 ∧ t.meter.startFc = 0 ∧
    t.engine = ⟨.idle, none, [], [], none⟩ ∧
    (∀ x, t.spreader.overload.get x = 0) ∧ (∀ r, t.spreader.homing.get r = 0) ∧
    t.spreader.lastEnd = none ∧ t.spreader.decision = none ∧ t.spreader.settled = none ∧
    t.spreader.request = none ∧
    t.store.schedule = none ∧
    (∀ r, t.supRec r = ⟨.vacant, none, 0, false, none, 0, none, none, none, ⟨false, false, false, false⟩, none,
      .straight, [], 0, false⟩) ∧
    (∀ x, t.sup.degraded.get x = false ∧ t.sup.serving.get x = 0) ∧ t.sup.pollCount = 0 ∧
    t.events = ⟨[], 0, 0, false, 0⟩ ∧
    t.svc.input = [] ∧ t.svc.filled = [] ∧ t.svc.reserved = [] ∧ t.svc.taking = false ∧
    (∀ r, t.svc.pass.get r = none ∧ t.svc.relayTags.get r = 0 ∧ t.svc.portCounts.get r = ⟨0, 0, 0, 0⟩) ∧
    t.svc.setRelay = none ∧ t.svc.tap = .none ∧ t.svc.serviceCount = ⟨0, 0, 0, 0, 0, 0⟩ ∧
    (∀ n, t.svc.donorCounts.get n = ⟨0, 0, 0, 0, 0, 0⟩) ∧ t.loader.snapshot = none

/-- The law of the carrier table, and the range of every stored value, hold at each step: in force, in the
snapshot of a running SAVE and in the memory (R19, R20, R104 to R107, R154, R165, R166). -/
def Obligations.EveryStepKeepsTheConfigurationLaw : Prop :=
  ∀ s t : State, s.ConfigLaw → step s = .next t → t.ConfigLaw

/-- The event queue holds at most 64 records and never two with the same kind and subject, at each step
(R140). -/
def Obligations.EveryStepKeepsTheEventQueueLaw : Prop :=
  ∀ s t : State, s.events.lawful → step s = .next t → t.events.lawful

/-- The Move Engine is IDLE exactly when no move record exists (R74), and holds in each state what R73's table
gives it, at each step: the empty sets of the table, and what stands in the others (`Engine.MoveLaw`). -/
def Obligations.EveryStepKeepsTheEngineLaw : Prop :=
  ∀ s t : State, s.engine.lawful → step s = .next t →
    t.engine.lawful ∧ (s.engine.MoveLaw → t.engine.MoveLaw)

/-- Boosts, ramps, held flags and degraded flags are those of their rules after each step (`State.SupervisionLaw`:
R30, R31, R32, R121, R124, R125, R134, R135, R136): whatever a command changes, sources, boosts, targets and serving
counts have followed it, a completed ramp has been noticed, no gain is above 1023 or above 0 out of service, and no two
remotes in service have the same recorded serial (R124). -/
def Obligations.EveryStepKeepsTheSupervisionLaw : Prop :=
  ∀ s t : State, s.ConfigLaw → s.engine.lawful → s.engine.MoveLaw → s.SupervisionLaw → step s = .next t →
    t.SupervisionLaw

/-- At most 8 response places are filled or reserved and at most 4 requests wait, and every donor input
buffer and relay queue is within its size, at each step (R12, R17, R150, R151). Each alignment queue holds at
most 8 frames, in strictly increasing number, none at or before the last number released (R38), in the runs of
frames whose current FC the manual defines: those that queue nothing before the first boundary after power-on
reset (log entry 5). The Meter's values stay within their ranges: levels and floors 0 to 125, occupancies and remote
loads 0 to 1,000, sector and carrier loads 0 to 16,000 (R68). -/
def Obligations.EveryStepKeepsTheQueueSizes : Prop :=
  ∀ s t : State, step s = .next t →
    (s.meter.Lawful → t.meter.Lawful) ∧
    (s.serviceLaw → s.links.bounded → t.serviceLaw ∧ t.links.bounded) ∧
    (s.ConfigLaw → s.AlignmentLaw → (t.clock.started = true ∨ ∀ r, t.comb.queues.get r = []) → t.AlignmentLaw)

/-! ## Start-up -/

/-- IMAGE_READ_END (R165): an absent image, a failed check and refused contents each start the hub on the
defaults with their cause; any other image is put in force, each of its fields clamped as a write would clamp
it, and is refused whole when one of them or the carrier table would be. Nothing else changes but the reference
selection and the event that may report it, since a donor link LOCKED meanwhile is judged by the reference source
now in force (`State.StartsOn`; R9). The model's own choices are this judgement and that carrier gain and headroom are
clamped like the fields R165 names (log entry 16), that a second end of the read leaves the state as it is (log entry
3), and the form of an image's fields, with the start marker of a plan header a yes or no byte that decides nothing
(log entry 9), and that value bytes of an absent position and label bytes past the length are ignored (log entry 34). -/
def Obligations.ImageReadStartsTheHub : Prop :=
  (∀ s : State,
    (∀ read, s.loader.readEnded = true → exec (.imageReadEnd read) s = .next s) ∧
    (s.loader.readEnded = false → ∀ read, ∃ t, exec (.imageReadEnd read) s = .next t ∧
      (read = .noAnswer ∨ read = .noImage → s.StartsOn t Stored.default (.defaulted .absent)) ∧
      (∀ bytes check fields, read = .image bytes check fields →
        (frameCheck bytes ≠ check → s.StartsOn t Stored.default (.defaulted .checkFailed)) ∧
        (frameCheck bytes = check → decodeImage fields = none →
          s.StartsOn t Stored.default (.defaulted .refused)) ∧
        (frameCheck bytes = check → ∀ m, decodeImage fields = some m → s.StartsOn t m .loaded)) ∧
      (read = .stored →
        (s.loader.memory = .unwritten → s.StartsOn t Stored.default (.defaulted .absent)) ∧
        (s.loader.memory = .partialImage → s.StartsOn t Stored.default (.defaulted .checkFailed)) ∧
        (∀ m, s.loader.memory = .holds m → s.StartsOn t m .loaded)))) ∧
  ∀ (x : RawImage) (m : Stored), decodeImage x = some m ↔
    (Settings.default.writeAll ((List.finRange 25).map fun i => (i.val + 1, (x.settings.get i).toNat)) = some m.settings ∧
    (∀ c, carrierAt (x.carriers.get c) 0 = some (m.carriers.get c)) ∧
    (∀ p, ∃ h, planHeadAt (x.plans.get p).head 0 = some h ∧ (m.plans.get p).valid = h.valid ∧
      (m.plans.get p).label = h.label ∧
      (∀ r, planEntryAt ((x.plans.get p).remotes.get r) 0 r = some ((m.plans.get p).remotes.get r)) ∧
      ∀ y, sectorEntryAt ((x.plans.get p).sectors.get y) 0 = some ((m.plans.get p).sectors.get y)) ∧
    (x.start = 0xFF ∧ m.start = none ∨ ∃ p : PlanId, x.start.toNat = p.val ∧ m.start = some p) ∧
    labelAt 32 x.label 0 = some m.label ∧ CarrierTableLaw m.carriers)

/-! ## The frame boundary -/

/-- The emission of a boundary (R8): the first carries FC 0 and each later one the FC of the one before plus
1, modulo 2^32; the blocks have then to act on it. No boundary comes before the image has been read (R165).
A whole FRAME_BOUNDARY is its emission and then the blocks' work (log entry 2). With nothing of the boundary
before outstanding, every timer counts once, but those the manual starts at FC 0, and exactly the events whose
time has come fall due: a switch, a ramp step, the message boundaries of the links with nothing in emission, and
the expiries of R28, R29, R64, R116, R122, R123, R132, R144, R161 and R162. That a written ramp interval already decides
whether this boundary has a ramp step is the model's choice (log entry 35). That boundary FC 0 does not count for the donor
grace timers, also where a link unlocked before it, is the model's reading of R29 (log entry 21). A hub on defaults reports it at FC 0. The
first boundary after power-on or RESTART counts and makes due in the same way, and loads the live map from the start
plan, or from the defaults (R47, R110, R121, R128, R136, R152): every history is written afresh, a configured remote is
WAITING and polled at once on a LOCKED link, the degraded flags are set without an event, requests are taken from here
on, and nothing else changes. -/
def Obligations.BoundaryCarriesTheNextFrameCount : Prop :=
  ∀ s : State,
    (s.loader.readEnded = false → exec (.frameBoundary .emit) s = .next s) ∧
    (s.loader.readEnded = true → ∃ t, exec (.frameBoundary .emit) s = .next t ∧
      t.clock.fc = (if s.clock.started then s.clock.fc + 1 else 0) ∧ t.clock.started = true ∧
      t.boundary.acting = true ∧ t.settings = s.settings ∧ t.dist.carriers = s.dist.carriers ∧
      t.store.plans = s.store.plans ∧ t.loader = s.loader ∧
      exec (.frameBoundary .whole) s = exec (.frameBoundary .act) t ∧
      (s.boundary = ⟨false, []⟩ → (∀ l, (s.framer l).handed = []) →
        let first := !s.clock.started
        let fc := t.clock.fc
        let reported := match first, s.loader.image with
          | true, some (.defaulted c) => s.events.post .configDefaulted .hub none
              (match c with | .absent => 1 | .checkFailed => 2 | .refused => 3) fc
          | _, _ => s.events
        let counted (p : Pass) : Pass := { p with phase := match p.phase with
          | .awaiting n => .awaiting (n + 1)
          | .sending (some d) => .sending (some (if d < 8 then d + 1 else d))
          | .sending none => .sending none }
        let donors := s.dist.donors.map fun d => { d with timer := if first then d.timer else d.timer.map (· + 1) }
        let polls := if first then s.sup.pollCount else s.sup.pollCount + 1
        let passes := s.svc.pass.map fun p => p.map counted
        let meter := if s.meter.firstNext then { s.meter with firstNext := false, count := 0, startFc := fc }
          else { s.meter with count := s.meter.count + 1 }
        let events := { reported with pacing := if first then s.events.pacing else s.events.pacing + 1 }
        (s.map.loadNext = false →
          t = { s with
            clock := { s.clock with fc := fc, started := true }
            dist := { s.dist with donors := donors }
            sup := { s.sup with
              records := s.sup.records.map fun v =>
                { v with grace := v.grace.map (· + 1), decay := v.decay.map (· + 1) }
              pollCount := polls }
            svc := { s.svc with pass := passes }
            meter := meter
            events := events
            boundary := t.boundary }) ∧
        ((s.map.loadNext = true → s.SupervisionLaw) →
          ∀ e, e ∈ t.boundary.due ↔ match e with
            | .switch => s.engine.state = .switchPending
            | .rampStep => fc.toNat % s.settings.rampInterval = 0
            | .sender l => (s.framer l).emission = none
            | .window => s.meter.firstNext = false ∧ s.meter.window ≤ s.meter.count + 1
            | .poll => first = false ∧ s.sup.pollForce ≤ s.sup.pollCount + 1
            | .pacing => first = false ∧ s.settings.pacing ≤ s.events.pacing + 1
            | .donorGrace n => first = false ∧ ∃ k, (s.dist.donors.get n).timer = some k ∧ s.settings.grace ≤ k + 1
            | .linkGrace r => ∃ k, (s.supRec r).grace = some k ∧ s.settings.grace ≤ k + 1
            | .flap r => ∃ k, (s.supRec r).decay = some k ∧ s.settings.flapPeriod * 8000 ≤ k + 1
            | .passTimeout r => ∃ p k, s.svc.pass.get r = some p ∧ p.phase = .awaiting k ∧ s.settings.passTimeout ≤ k + 1
            | .retryEnd r => ∃ p d, s.svc.pass.get r = some p ∧ p.phase = .sending (some d) ∧ 8 ≤ d
            | .schedule => ∃ c, s.store.schedule = some c ∧ c.waiting = false ∧ atOrAfter fc c.dueFc = true
            | .spread => False
            | .startRequest => False
            | .retest => False
            | .sent _ _ => False
            | .restart => False) ∧
        (s.map.loadNext = true → s.SupervisionLaw →
          let source : Option PlanId := match s.store.start with
            | some p => if (s.store.plans.get p).valid then some p else none
            | none => none
          let plan : Plan := match source with | some p => s.store.plans.get p | none => Plan.default
          let configured (r : RemoteId) : Bool := (plan.remotes.get r).configured
          let place (r : RemoteId) : Option SectorId := if configured r then (plan.remotes.get r).sector else none
          t = { s with
            clock := { s.clock with fc := fc, started := true }
            map := ⟨Tab.ofFn fun r => ⟨{ plan.remotes.get r with sector := place r }, place r⟩, plan.sectors, source,
              false, false⟩
            links := { s.links with remotes := s.links.remotes.mapIdx fun (r : RemoteId) (f : Framer) =>
              { f with pollPlace := f.pollPlace || (configured r && s.locked (.remote r)) } }
            dist := { s.dist with donors := donors }
            comb := { s.comb with history := Tab.const 16 ⟨none, none, fc⟩ }
            sup := { s.sup with
              records := s.sup.records.mapIdx fun (r : RemoteId) (v : SupRecord) => { v with
                health := if configured r then .waiting else .vacant
                cause := if configured r then none else v.cause
                mode := v.alarms.effective (plan.remotes.get r).mode
                awaiting := v.awaiting || (configured r && s.locked (.remote r))
                grace := v.grace.map (· + 1)
                decay := v.decay.map (· + 1) }
              degraded := t.sup.degraded
              serving := t.sup.serving
              pollCount := polls }
            svc := { s.svc with pass := passes, taking := true }
            meter := { meter with records := s.meter.records.mapIdx fun (r : RemoteId) row => row.map fun (a : Activity) =>
              { a with stale := a.stale || configured r } }
            events := events
            boundary := t.boundary } ∧
          (∀ r, (t.ramp r).present = 0) ∧
          ∀ x, t.sup.serving.get x = 0 ∧ (t.sup.degraded.get x = true ↔ 0 < (plan.sectors.get x).minimum))))

/-- Nothing but a boundary and power-on reset moves the frame count: it is never set back or skipped, and
RESTART leaves it as it is (R8). -/
def Obligations.OnlyBoundariesMoveTheFrameCount : Prop :=
  ∀ (c : Instr) (s t : State), exec c s = .next t → c ≠ .powerOnReset → (∀ p, c ≠ .frameBoundary p) →
    t.clock.fc = s.clock.fc ∧ t.clock.started = s.clock.started

/-- At every boundary each of the 21 framers starts one outgoing frame (R4), opened by the delimiter and with the
frame check over it (R169): to the remotes and on S it carries the boundary's number and no gap mark, with the lane
map and six lanes on a remote link and one lane on S; to each donor link it carries the number the Combiner released
last, and three carrier slots. Its control slot is the next slot of the message in emission, which ends with its
last slot, and that makes the sent report of a relayed message due (R17) and RESTART after its response (R167);
else the slot is IDLE (R13, R16). The frames show what the switch and the ramp step that were still due have left
(`State.Precedes`; R33, R78, R83). A message boundary not yet taken is taken then, and what starts there goes in this
frame: the oldest response for the link, on S with none waiting the offered notice (R145), on a remote link a waiting
POLL, else the oldest relayed message (R17). That the message boundaries no command took come in the order donor links,
remote links, S, so that S finds the DONE of a set relay that ends with the starts of the remote links and a donor link
does not, is the model's choice, since R4, R8, R16, R17 and R164 leave that order open (log entry 2). With no selection
the lane of S is idle; DOWNLINK copies the carrier's lane of the remote's frame, and
COMBINED an enabled carrier's slot of the donor frame, zeros where there is none (R25, R55, R158). The boundary is
then done, and it moved no stored configuration. All this holds whichever of switch and release comes first (log
entry 2); the destination and port of a POLL's header are the model's choice (log entry 14). -/
def Obligations.EveryBoundarySendsTwentyOneFrames : Prop :=
  ∀ (s : State) (part : BoundaryPart), s.boundary.acting = true → part = .act ∨ part = .releaseFirst →
    ∃ p u t, s.Precedes part p u ∧ exec (.frameBoundary part) s = .next t ∧
    (t.map = u.map ∧ t.sup = u.sup ∧ t.engine = u.engine ∧ t.spreader = u.spreader ∧ t.store = u.store ∧
      t.dist.ramps = u.dist.ramps ∧ t.dist.donors = s.dist.donors ∧ t.comb.history = u.comb.history ∧
      t.svc.pass = u.svc.pass ∧ ∀ r c, (t.activity r c).stale = (u.activity r c).stale) ∧
    (∀ r, ∃ x, (t.framer (.remote r)).sent = some x ∧ x.number = low16 s.now ∧ x.gapMark = 0 ∧
      x.map = mapBytes (t.dist.lastMap.get r) ∧ x.map.length = 6 ∧ x.lanes.length = 6) ∧
    (∃ x, (t.framer .service).sent = some x ∧ x.number = low16 s.now ∧ x.gapMark = 0 ∧ x.map = [] ∧
      x.lanes.length = 1 ∧ (s.svc.tap = .none → x.lanes = [⟨[], []⟩]) ∧
      (∀ r c, s.svc.tap = .downlink r c → ∃ y, (t.framer (.remote r)).sent = some y ∧
        x.lanes = [match (t.dist.lastMap.get r).findIdx? fun z => decide (z = some c) with
          | some i => y.lanes.getD i ⟨[], []⟩
          | none => ⟨[], []⟩]) ∧
      ∀ c, s.svc.tap = .combined c → CarrierTableLaw s.dist.carriers →
        ∃ y, (t.framer (.donor (s.carrier c).donor)).sent = some y ∧
          x.lanes = [if (s.carrier c).enabled then y.lanes.getD (s.carrier c).slot.val ⟨[], []⟩ else ⟨[], []⟩]) ∧
    (∀ n, ∃ x l, (t.framer (.donor n)).sent = some x ∧ t.comb.last = some l ∧ x.number = low16 l ∧ x.map = [] ∧
      x.lanes.length = 3) ∧
    (∀ l, ∃ x, (t.framer l).sent = some x ∧ x.delimiter = 0x7E5A81A5 ∧ x.check = frameCheck (frameBody x) ∧
      isGood x = true) ∧
    (let sends (l : Link) (e : Option Emission) : Prop := ∃ x, (t.framer l).sent = some x ∧
       (e = none → x.flag = 0 ∧ x.slot = List.replicate 16 0 ∧ (t.framer l).emission = none) ∧
       ∀ m z zs, e = some m → m.slots = z :: zs → x.flag = z.flag ∧ x.slot = z.bytes ∧
         (t.framer l).emission = (if zs = [] then none else some { m with slots := zs }) ∧
         (zs = [] → ∀ r tag, l = .remote r → m.what = .relayed tag → .sent r tag ∈ t.boundary.due) ∧
         (zs = [] → m.what = .response true → .restart ∈ t.boundary.due)
     let starts (l : Link) : Prop := .sender l ∈ s.boundary.due ∧ (s.framer l).emission = none ∧ s.locked l = true
     let ended : List Response := match u.svc.setRelay, t.svc.setRelay with
       | some v, none => if .setRelay ∈ u.svc.reserved then [⟨v.link, v.tag, v.kind, .done, [], false⟩] else []
       | _, _ => []
     let waiting (l : MsgLink) : Option Response :=
       (match l with | .service => u.svc.filled ++ ended | .donor _ => u.svc.filled).find? fun q => decide (q.link = l)
     let noticed : Prop := starts .service ∧ waiting .service = none ∧ u.events.offer = true
     (∀ l, ¬starts l → sends l (s.framer l).emission) ∧
     (∀ l q, starts (linkOf l) → waiting l = some q → sends (linkOf l) (some ⟨.response q.restart, responseSlots q⟩)) ∧
     (∀ n, starts (.donor n) → waiting (.donor n) = none → sends (.donor n) none) ∧
     (starts .service → waiting .service = none → u.events.offer = false → sends .service none) ∧
     (noticed →
       let es := ((u.events.records.filter fun e => e.kind.urgent) ++
         u.events.records.filter fun e => !e.kind.urgent).take 4
       let body := bytes16 (word16 u.events.overflow) ++ [BitVec.ofNat 8 es.length] ++
         [BitVec.ofNat 8 t.events.records.length] ++ es.flatMap encEvent
       sends .service (some ⟨.notice,
         messageSlots ⟨0, 0, 0, u.events.seq, 0x40, 0xFF, BitVec.ofNat 8 body.length⟩ body⟩) ∧
       t.events = { u.events with
         records := t.events.records, overflow := 0, seq := u.events.seq + 1, offer := false } ∧
       (es ++ t.events.records).Perm u.events.records ∧ t.events.records.Sublist u.events.records) ∧
     (¬noticed → t.events = u.events) ∧
     (∀ r, starts (.remote r) → (u.framer (.remote r)).pollPlace = true →
       sends (.remote r) (some ⟨.poll, pollSlots r⟩)) ∧
     (∀ r m ms, starts (.remote r) → (u.framer (.remote r)).pollPlace = false →
       (u.framer (.remote r)).relayQueue = m :: ms → sends (.remote r) (some ⟨.relayed m.tag, relayedSlots r m⟩)) ∧
     (∀ r, starts (.remote r) → (u.framer (.remote r)).pollPlace = false →
       (u.framer (.remote r)).relayQueue = [] → sends (.remote r) none)) ∧
    (∃ qs, u.svc.filled = s.svc.filled ++ qs) ∧ u.events.offer = s.events.offer ∧
    (∀ r, (s.framer (.remote r)).pollPlace = true → (u.framer (.remote r)).pollPlace = true) ∧
    (.switch ∉ s.boundary.due → u.svc = s.svc ∧ u.links = s.links) ∧
    t.boundary.acting = false ∧ t.now = s.now ∧ t.settings = s.settings ∧ t.loader = s.loader ∧
    t.dist.carriers = s.dist.carriers ∧ t.store.plans = s.store.plans ∧ t.svc.input = s.svc.input ∧
    t.svc.tap = s.svc.tap

/-- The Combiner's deadline at a boundary B (R42, R43, R44): the requested D is put in force; T = B − D. With
no number released yet, T is released alone; with T after the last released number L, T is released, L
becomes T, the donor frames are marked NONE or GAP k for the k numbers passed over, and every entry
numbered at or before T leaves its queue; otherwise L and the queues stand and the donor frames hold L with
mark HOLD and silent slots. At a release a port counts a map mismatch for an entry that does not echo the map sent
for T (R23, R46), and a remote in service and configured without one counts it missing (R45); at a hold nothing is
counted. The weight of every remote is noted for B, 16 notes kept (R50). A RAW selection copies the lane that
carried the carrier in the passing entry, zeros where there is none and at a hold (R55). The health that R45 asks for
is that at the release: what the switch and the ramp step have left, or in the order of release first what they find.
The first release after power-on carries the mark NONE by the model's choice (log entry 30), and so is it that a D or a
weight written between the emission of the boundary and the blocks' work counts at this boundary already (log entry 2). -/
def Obligations.CombinerReleasesOrHolds : Prop :=
  ∀ (s : State) (part : BoundaryPart), s.boundary.acting = true → part = .act ∨ part = .releaseFirst →
    ∃ t, exec (.frameBoundary part) s = .next t ∧
    t.comb.delay = s.settings.alignment ∧
    (∀ r, t.comb.weights.get r = ((s.now, (t.live r).weight) :: s.comb.weights.get r).take 16) ∧
    (let T := s.now - BitVec.ofNat 32 s.settings.alignment
     let u := if part = .act then t else s
     let echoes (r : RemoteId) (e : Entry) : Prop := e.echo = mapBytes (u.sentFor r T).1
     let taken (r : RemoteId) := (s.comb.queues.get r).find? fun e => decide (e.number = T)
     let held : Prop := ∃ L, s.comb.last = some L ∧ isAfter T L = false
     (s.comb.last = none → t.comb.last = some T ∧
        (∀ r, t.comb.queues.get r = (s.comb.queues.get r).filter fun e => isAfter e.number T) ∧
        ∀ n, ∃ x, (t.framer (.donor n)).sent = some x ∧ x.number = low16 T ∧ x.gapMark = 0) ∧
      (∀ L, s.comb.last = some L → isAfter T L = true → t.comb.last = some T ∧
        (∀ r, t.comb.queues.get r = (s.comb.queues.get r).filter fun e => isAfter e.number T) ∧
        ∀ n, ∃ x, (t.framer (.donor n)).sent = some x ∧ x.number = low16 T ∧
          x.gapMark = BitVec.ofNat 8 (T - L - 1).toNat) ∧
      (∀ L, s.comb.last = some L → isAfter T L = false → t.comb.last = some L ∧ t.comb.queues = s.comb.queues ∧
        ∀ n, ∃ x, (t.framer (.donor n)).sent = some x ∧ x.number = low16 L ∧ x.gapMark = 7 ∧
          x.lanes = List.replicate 3 silentLane) ∧
      (held → t.comb.counters = s.comb.counters) ∧
      (¬held → ∀ r, let k := s.comb.counters.get r
        (∀ e, taken r = some e → echoes r e → t.comb.counters.get r = k) ∧
        (∀ e, taken r = some e → ¬echoes r e →
          t.comb.counters.get r = { k with mismatches := min 65535 (k.mismatches + 1) }) ∧
        (taken r = none → t.comb.counters.get r = if u.serviced r = true ∧ (u.live r).configured = true
            then { k with missing := min 65535 (k.missing + 1) } else k)) ∧
      ∀ r c, s.svc.tap = .raw r c → ∃ x, (t.framer .service).sent = some x ∧
        (held → x.lanes = [⟨[], []⟩]) ∧
        (¬held → ∀ e i, taken r = some e → echoes r e →
          (u.sentFor r T).1.findIdx? (fun y => decide (y = some c)) = some i → x.lanes = [e.lanes.getD i ⟨[], []⟩]) ∧
        (¬held → (taken r = none ∨ (∃ e, taken r = some e ∧ ¬echoes r e) ∨
          (u.sentFor r T).1.findIdx? (fun y => decide (y = some c)) = none) → x.lanes = [⟨[], []⟩]))

/-- What the Distributor records of a boundary's frames (R12, R22, R23, R24): the sector maps from the carrier
table, per remote the map and applied mode against the boundary's number in a record of the 16 most recent
frames, and of every donor link its oldest frame taken, or a gap counted. Both orders of switch and release do so
(log entry 2). That an effective mode which changes between the emission of the boundary and the blocks' work is applied to
this boundary's frames already is the model's choice (log entry 2). -/
def Obligations.DistributorRecordsEachBoundary : Prop :=
  ∀ (s : State) (part : BoundaryPart), s.boundary.acting = true → part = .act ∨ part = .releaseFirst →
    ∃ t, exec (.frameBoundary part) s = .next t ∧
    (∀ x, t.dist.maps.get x = ((s.carriersOf x).map some ++ List.replicate 6 none).take 6) ∧
    (∀ r, t.dist.sent.get r =
        (⟨s.now, t.dist.lastMap.get r, t.dist.applied.get r⟩ :: s.dist.sent.get r).take 16 ∧
      t.dist.applied.get r = (t.supRec r).mode ∧
      (t.dist.lastMap.get r =
        match (t.live r).configured, t.sectorOf r with
        | true, some x => t.dist.maps.get x
        | _, _ => List.replicate 6 none)) ∧
    (∀ n, (t.framer (.donor n)).buffer = (s.framer (.donor n)).buffer.drop 1 ∧
      (t.framer (.donor n)).counters.gaps =
        if (s.framer (.donor n)).buffer = [] then min 65535 ((s.framer (.donor n)).counters.gaps + 1)
        else (s.framer (.donor n)).counters.gaps)

/-- The lanes of the remotes' downlink frames (R22 to R28), with the present gain and effective mode that the switch and
the ramp step of the boundary have left (R24, R33): lane by lane of its map, the donor samples of the carrier, zero at a
gap or on a muted link and without branch B on a single-branch carrier, mapped onto the antenna outputs by the effective mode, times carrier gain and present
gain, floor((x × gc × gp + 131,072) / 262,144), saturated to 16 bits; an idle lane is silent. Every component that
saturates, in any remote's frame, counts one in its carrier's downlink clip counter (R27, R37). That a mode or the end of a mute that comes between the emission of the boundary
and the blocks' work counts for these frames already is the model's choice (log entry 2). -/
def Obligations.RemoteFramesCarryTheGainProduct : Prop :=
  ∀ (s : State) (part : BoundaryPart), s.boundary.acting = true → part = .act ∨ part = .releaseFirst →
    ∃ t, exec (.frameBoundary part) s = .next t ∧
    (let source (k : Carrier) : Lane :=
       match (s.dist.donors.get k.donor).muted, (s.framer (.donor k.donor)).buffer.head? with
       | false, some f =>
         let l := f.lanes.getD k.slot.val ⟨[], []⟩
         if k.twoBranches then l else ⟨l.a, []⟩
       | _, _ => ⟨[], []⟩
     let mapped (r : RemoteId) (c : CarrierId) : Lane :=
       mapDown (t.supRec r).mode (s.carrier c).twoBranches (source (s.carrier c)).a (source (s.carrier c)).b
     let product (r : RemoteId) (c : CarrierId) (x : BitVec 16) : Int :=
       (x.toInt * (s.carrier c).gain * (t.ramp r).present + 131072) / 262144
     let times (r : RemoteId) (c : CarrierId) (b : Branch) : Branch :=
       b.map fun z => ⟨sat16 (product r c z.i), sat16 (product r c z.q)⟩
     let clip (y : Int) : Nat := if y < -32768 ∨ 32767 < y then 1 else 0
     let clips (r : RemoteId) (c : CarrierId) (b : Branch) : Nat :=
       (b.map fun z => clip (product r c z.i) + clip (product r c z.q)).sum
     (∀ r, ∃ x, (t.framer (.remote r)).sent = some x ∧ x.lanes = (t.dist.lastMap.get r).map fun
       | none => ⟨[], []⟩
       | some c => ⟨times r c (mapped r c).a, times r c (mapped r c).b⟩) ∧
     ∀ c, t.dist.clips.get c = min 65535 (s.dist.clips.get c + ((List.finRange 16).map fun r =>
       if some c ∈ t.dist.lastMap.get r then clips r c (mapped r c).a + clips r c (mapped r c).b else 0).sum)) ∧
    (∀ y : Int, -32768 ≤ y → y ≤ 32767 → (sat16 y).toInt = y) ∧
    (∀ y : Int, y < -32768 → (sat16 y).toInt = -32768) ∧ (∀ y : Int, 32767 < y → (sat16 y).toInt = 32767)

/-- The lanes of a donor link's uplink frame at a releasing boundary (R45 to R54), with health, gating fields and switch
histories as the switch and the ramp step have left them, or in the order of release first as they find them (R113
allows both orders, log entry 2): for the carrier at each slot,
the sum over the remotes that are in service, whose entry for T echoes the map sent for T, whose sector for T is the
carrier's and whose lane passes the gate, of weight noted for T times the input mapped by the mode recorded for T;
divided by 2^(11 + headroom), rounded and saturated, at every sample position, for I and Q, and each saturated
component counts in the carrier's uplink clip counter and window clip count. The sums of up to 16 remotes fit 32
bits. Every lane of an enabled carrier in a passing entry of a remote in service is measured: one frame more, one
busy frame more at floor plus margin, and the lowest level (R60, R62). The level is 0 at mean power 0 and otherwise
that of R61. A remote's sector for a number is the current one from the switch FC on, before it the previous one as far
back as that was in force, and none before that (R48); a number the sent record does not hold reads as the all-idle map
with mode STRAIGHT (R23), and one without a weight note as weight 0 (R50). -/
def Obligations.DonorFramesCarryTheWeightedSum : Prop :=
  (∀ (s : State) (part : BoundaryPart), s.boundary.acting = true →
    part = .act ∨ part = .releaseFirst →
    let T := s.now - BitVec.ofNat 32 s.settings.alignment
    (∀ L, s.comb.last = some L → isAfter T L = true) →
    ∃ t, exec (.frameBoundary part) s = .next t ∧
    (let z := if part = .act then t else s
     let lane (c : CarrierId) (r : RemoteId) : Option Lane :=
       match (s.comb.queues.get r).find? fun e => decide (e.number = T) with
       | none => none
       | some e =>
         let (map, mode) := z.sentFor r T
         match map.findIdx? fun y => decide (y = some c) with
         | none => none
         | some i =>
           let l := e.lanes.getD i ⟨[], []⟩
           if e.echo = mapBytes map then some (mapUp mode (s.carrier c).twoBranches l.a l.b) else none
     let share (c : CarrierId) (r : RemoteId) : Option (Nat × Lane) :=
       match lane c r, (s.carrier c).sector with
       | some l, some x =>
         let a := s.activity r c
         let gate : Bool := !(z.map.sectors.get x).gating || !(z.live r).gatingAllowed || !a.settled ||
           decide (a.floor + s.settings.gateMargin ≤ laneLevel (s.carrier c).twoBranches l)
         if (s.carrier c).enabled = true ∧ z.serviced r = true ∧ z.sectorFor r T = some x ∧ gate = true then
           some (s.weightFor r T, l)
         else none
       | _, _ => none
     let shares (c : CarrierId) := (List.finRange 16).filterMap (share c)
     let sumA (c : CarrierId) := (shares c).map fun p => (p.1, p.2.a)
     let sumB (c : CarrierId) := if (s.carrier c).twoBranches then (shares c).map fun p => (p.1, p.2.b) else []
     let clips := fun c => sumClips (s.carrier c).headroom (sumA c) + sumClips (s.carrier c).headroom (sumB c)
     (∀ n, ∃ x, (t.framer (.donor n)).sent = some x ∧ x.lanes = (List.finRange 3).map fun j =>
       match (List.finRange 12).find? fun c => (s.carrier c).enabled && decide ((s.carrier c).donor = n) &&
           decide ((s.carrier c).slot = j) with
       | none => ⟨[], []⟩
       | some c => ⟨sumBranch (s.carrier c).headroom (sumA c), sumBranch (s.carrier c).headroom (sumB c)⟩) ∧
     (∀ c, t.comb.clips.get c = min 65535 (s.comb.clips.get c + clips c) ∧
       t.comb.windowClips.get c = min 65535 (s.comb.windowClips.get c + clips c)) ∧
     ∀ r c, let a := s.activity r c
       let level := (lane c r).map (laneLevel (s.carrier c).twoBranches)
       (∀ v, level = some v → z.serviced r = true → (s.carrier c).enabled = true →
         t.activity r c = { a with
           frames := min 65535 (a.frames + 1)
           busy := if a.floor + s.settings.activityMargin ≤ v then min 65535 (a.busy + 1) else a.busy
           minLevel := some (match a.minLevel with | some m => min m v | none => v)
           stale := (t.activity r c).stale }) ∧
       (level = none ∨ z.serviced r = false ∨ (s.carrier c).enabled = false →
         t.activity r c = { a with stale := (t.activity r c).stale }) ∧
       (.switch ∉ s.boundary.due → (t.activity r c).stale = a.stale))) ∧
  (∀ (h : Nat) (shares : List (Nat × Branch)),
    let S (f : Sample → BitVec 16) (k : Nat) : Int :=
      (shares.map fun p => (p.1 : Int) * (f (p.2.getD k ⟨0, 0⟩)).toInt).sum
    let y (f : Sample → BitVec 16) (k : Nat) : Int := (S f k + 2 ^ (10 + h)) / 2 ^ (11 + h)
    let clip (v : Int) : Nat := if v < -32768 ∨ 32767 < v then 1 else 0
    (∀ k, (sumBranch h shares).getD k ⟨0, 0⟩ = ⟨sat16 (y Sample.i k), sat16 (y Sample.q k)⟩) ∧
    (∀ n, (∀ p ∈ shares, p.2.length ≤ n) →
      sumClips h shares = ((List.range n).map fun k => clip (y Sample.i k) + clip (y Sample.q k)).sum) ∧
    (shares.length ≤ 16 → (∀ p ∈ shares, p.1 ≤ 4095) → ∀ k,
      (-2146959360 ≤ S Sample.i k ∧ S Sample.i k ≤ 2146959360) ∧
      -2146959360 ≤ S Sample.q k ∧ S Sample.q k ≤ 2146959360)) ∧
  (∀ l : Lane,
    let E (b : Branch) : Nat := ((b.take 2048).map fun z => (z.i.toInt ^ 2 + z.q.toInt ^ 2).toNat).sum
    laneLevel false l = levelOfPower (E l.a / 2048) ∧ laneLevel true l = levelOfPower ((E l.a + E l.b) / 4096)) ∧
  levelOfPower 0 = 0 ∧
  (∀ (s : State) (r : RemoteId) (N : FC),
    let h := s.comb.history.get r
    let began : Prop := h.since = none ∨ ∃ f, h.since = some f ∧ atOrAfter N f = true
    (atOrAfter N h.switchFc = true → s.sectorFor r N = (s.live r).sector) ∧
    (atOrAfter N h.switchFc = false → began → s.sectorFor r N = h.previous) ∧
    (atOrAfter N h.switchFc = false → ¬began → s.sectorFor r N = none) ∧
    (∀ before after e, s.dist.sent.get r = before ++ e :: after → e.number = N → (∀ y ∈ before, y.number ≠ N) →
      s.sentFor r N = (e.map, e.mode)) ∧
    ((∀ y ∈ s.dist.sent.get r, y.number ≠ N) → s.sentFor r N = (List.replicate 6 none, .straight)) ∧
    (∀ before after w, s.comb.weights.get r = before ++ (N, w) :: after → (∀ y ∈ before, y.1 ≠ N) →
      s.weightFor r N = w) ∧
    ((∀ y ∈ s.comb.weights.get r, y.1 ≠ N) → s.weightFor r N = 0)) ∧
  ∀ p e : Nat, 2 ^ e ≤ p → p < 2 ^ (e + 1) → levelOfPower p = 4 * e + 4 * (p - 2 ^ e) / 2 ^ e + 1

/-! ## Links -/

/-- An event of a link stays on that link and on what R5 says the blocks do for it (R1, R2, R5, R11, R18): every
other framer, stored configuration, measurements, live map, engine and plans are as they were. The two rows of a
frame position are one command: the framer judges what stands there (R1, R169; log entry 20). Where a remote link has
completed a STATUS that is not yet taken, or S or a donor link any message, the loss of lock takes it first, with all
that R124 and R151 say of it: those cases are in `Obligations.LeavingLockedTakesEffect`, and errored frames below the fourth in
`Obligations.ReceiveStatesFollowTheirRules`. -/
def Obligations.EventsOfALinkStayOnTheLink : Prop :=
  ∀ (s : State) (l : Link),
    let waiting := ∃ m ∈ (s.framer l).handed, ∀ r, l = .remote r → m.head.kind = 0x42
    (∃ t, exec (.signalReturns l) s = .next t ∧ LinkEvent l s t) ∧
    (¬waiting → ∃ t, exec (.lossOfSignal l) s = .next t ∧ LinkEvent l s t) ∧
    (∀ x, isGood x = true ∨ ¬waiting →
      (∃ t, exec (.goodFrame l x) s = .next t ∧ LinkEvent l s t) ∧
      ∃ t, exec (.erroredFrame l x) s = .next t ∧ LinkEvent l s t) ∧
    ∀ x, exec (.erroredFrame l x) s = exec (.goodFrame l x) s

/-- The receive states (R1, R2, R14, R169): a frame is good when the delimiter opens it and the check over its bytes
is the one it carries, and any other position is errored; the check is the inverted register after each byte of the
frame, most significant bit first, from all ones, with generator 04C11DB7h. The return of signal, its loss outside
LOCKED, good frames in HUNT and VERIFY before the fourth, errored frames outside LOCKED, and errored frames in LOCKED
below the fourth in a row, which count a check error where a frame was present, else a slip, and discard the message
in assembly; in each case the framer of the link alone changes. -/
def Obligations.ReceiveStatesFollowTheirRules : Prop :=
  (∀ x : LinkFrame, (isGood x = true ↔ x.delimiter = 0x7E5A81A5 ∧ frameCheck (frameBody x) = x.check) ∧
    (isPresent x = true ↔ x.delimiter = 0x7E5A81A5) ∧
    frameBody x = bytes32 x.delimiter ++ bytes16 x.number ++ [x.gapMark, x.flag] ++ x.slot ++ x.map ++
      x.lanes.flatMap fun l => [l.a, l.b].flatMap fun b =>
        (b ++ List.replicate (2048 - b.length) ⟨0, 0⟩).flatMap fun v => bytes16 v.i ++ bytes16 v.q) ∧
  (let bit (r : BitVec 32) : BitVec 32 := (r <<< 1) ^^^ (if r.msb then 0x04C11DB7 else 0)
   let byte (r : BitVec 32) (b : Byte) : BitVec 32 :=
     bit (bit (bit (bit (bit (bit (bit (bit (r ^^^ (b.setWidth 32 <<< 24)))))))))
   frameCheck [] = 0 ∧ ∀ bytes b, frameCheck (bytes ++ [b]) = ~~~ (byte (~~~ frameCheck bytes) b)) ∧
  ∀ (s : State) (l : Link) (x e : LinkFrame), isGood x = true → isGood e = false →
    let p := isPresent e
    ((s.framer l).rx = .down →
      exec (.signalReturns l) s = .next (s.modFramer l fun f => { f with rx := .hunt }) ∧
      exec (.goodFrame l x) s = .next s ∧ exec (.erroredFrame l e) s = .next s) ∧
    ((s.framer l).rx ≠ .down → exec (.signalReturns l) s = .next s) ∧
    ((s.framer l).rx ≠ .locked →
      exec (.lossOfSignal l) s = .next (s.modFramer l fun f => { f with rx := .down })) ∧
    ((s.framer l).rx = .hunt →
      exec (.goodFrame l x) s = .next (s.modFramer l fun f =>
        { f with rx := .verify, verifyCount := 1, lastNumber := some x.number }) ∧
      exec (.erroredFrame l e) s = .next s) ∧
    ((s.framer l).rx = .verify →
      ((s.framer l).lastNumber ≠ some (x.number - 1) →
        exec (.goodFrame l x) s = .next (s.modFramer l fun f =>
          { f with verifyCount := 1, lastNumber := some x.number })) ∧
      ((s.framer l).lastNumber = some (x.number - 1) → (s.framer l).verifyCount < 3 →
        exec (.goodFrame l x) s = .next (s.modFramer l fun f =>
          { f with verifyCount := f.verifyCount + 1, lastNumber := some x.number })) ∧
      exec (.erroredFrame l e) s = .next (s.modFramer l fun f => { f with
        rx := .hunt
        counters := { f.counters with
          checkErrors := if p then min 65535 (f.counters.checkErrors + 1) else f.counters.checkErrors } })) ∧
    ((s.framer l).rx = .locked → (s.framer l).streak < 3 →
      exec (.erroredFrame l e) s = .next (s.modFramer l fun f => { f with
        streak := f.streak + 1
        assembly := none
        counters := { f.counters with
          checkErrors := if p then min 65535 (f.counters.checkErrors + 1) else f.counters.checkErrors
          slips := if p then f.counters.slips else min 65535 (f.counters.slips + 1)
          malformed := min 65535 (f.counters.malformed + if f.assembly.isSome then 1 else 0) } }))

/-- The fourth of four good frames with consecutive numbers locks the link and is then taken as a good frame in
LOCKED (R1, R2, R5, R9, R29, R122, R123): the grace timers end, a donor link may become the reference and is no longer
muted, and a remote that is not VACANT is polled at once. That REFERENCE-RESTORED is posted before DONOR-RESTORED is
the model's choice (log entry 10), since the manual leaves the order within one event free; that the lock cancels a
donor grace expiry already due and not yet taken is the model's choice too (log entry 27). -/
def Obligations.FourthGoodFrameLocks : Prop :=
  ∀ (s : State) (l : Link) (x : LinkFrame), (s.framer l).rx = .verify → (s.framer l).verifyCount = 3 →
    (s.framer l).lastNumber = some (x.number - 1) → isGood x = true → ∃ t, exec (.goodFrame l x) s = .next t ∧
      (∃ u, exec (.goodFrame l x) u = .next t ∧ u.comb = s.comb ∧ u.svc = s.svc ∧ u.now = s.now ∧
        u.framer l = { s.framer l with
          rx := .locked, verifyCount := 4, streak := 0, pollPlace := (t.framer l).pollPlace }) ∧
      (t.framer l).rx = .locked ∧ (t.framer l).verifyCount = 4 ∧ (t.framer l).lastNumber = some x.number ∧
      (t.framer l).streak = 0 ∧ (t.framer l).counters.good = min 65535 ((s.framer l).counters.good + 1) ∧
      (t.framer l).counters.jumps = (s.framer l).counters.jumps ∧
      (∀ n, l = .donor n →
        t.dist.donors.get n = ⟨none, false, false⟩ ∧
        ((s.framer l).buffer.length < 2 → (t.framer l).buffer = (s.framer l).buffer ++ [x]) ∧
        (2 ≤ (s.framer l).buffer.length → (t.framer l).buffer = (s.framer l).buffer.drop 1 ++ [x]) ∧
        t.clock.reference =
          (match s.clock.reference with
          | some m => some m
          | none => (List.finRange 4).find? fun m =>
              s.settings.reference.permits m && (decide (m = n) || s.locked (.donor m))) ∧
        (let e := match s.clock.reference, t.clock.reference with
          | none, some m => s.events.post .referenceRestored (.donor m) none 0 s.now
          | _, _ => s.events
         t.events = if (s.dist.donors.get n).muted ∧ (s.dist.donors.get n).reported then
           e.post .donorRestored (.donor n) none (word16 (s.donorCarriers n)) s.now else e)) ∧
      (∀ r, l = .remote r →
        t.supRec r = { s.supRec r with
          grace := none, awaiting := (s.supRec r).awaiting || decide (s.health r ≠ .vacant) } ∧
        (t.framer l).pollPlace = ((s.framer l).pollPlace || decide (s.health r ≠ .vacant))) ∧
      (l = .service → t.events = s.events)

/-- A good frame in LOCKED is delivered (R2, R3, R12, R14, R15): the counters of its link, the donor input
buffer, and the slot taken by the assembler, whose completed message is handed on or counted malformed; of a
remote link a STATUS of length 9, a REPLY and a BUSY are handed on and no other message. On a donor link and on S
nothing else changes; on a remote link the Combiner takes the frame as well. -/
def Obligations.GoodFrameInLockedIsDelivered : Prop :=
  (∀ (l : Link) (m : Message), deliverable l m = true ↔
    ((∃ r, l = .remote r) → m.head.kind = 0x42 ∧ m.body.length = 9 ∨ m.head.kind = 0x43 ∨ m.head.kind = 0x44)) ∧
  ∀ (s : State) (l : Link) (x : LinkFrame), isGood x = true → (s.framer l).rx = .locked → ∃ t, exec (.goodFrame l x) s = .next t ∧
    t = { s with links := t.links, comb := t.comb } ∧ ((∀ r, l ≠ .remote r) → t.comb = s.comb) ∧
    (∀ k, k ≠ l → t.framer k = s.framer k) ∧
    (let f := s.framer l
     let g := t.framer l
     let a := assembleSlot f.assembly x.flag x.slot
     g.rx = .locked ∧ g.lastNumber = some x.number ∧ g.streak = 0 ∧
     g.counters.good = min 65535 (f.counters.good + 1) ∧
     (∀ n, f.lastNumber = some n → x.number = n + 1 + BitVec.ofNat 16 f.streak → g.counters.jumps = f.counters.jumps) ∧
     (∀ n, f.lastNumber = some n → x.number ≠ n + 1 + BitVec.ofNat 16 f.streak →
       g.counters.jumps = min 65535 (f.counters.jumps + 1)) ∧
     (∀ n, l = .donor n → f.buffer.length < 2 → g.buffer = f.buffer ++ [x] ∧ g.counters.overruns = f.counters.overruns) ∧
     (∀ n, l = .donor n → 2 ≤ f.buffer.length →
       g.buffer = f.buffer.drop 1 ++ [x] ∧ g.counters.overruns = min 65535 (f.counters.overruns + 1)) ∧
     ((∀ n, l ≠ .donor n) → g.buffer = f.buffer ∧ g.counters.overruns = f.counters.overruns) ∧
     g.assembly = a.assembly ∧
     (∀ m, a.complete = some m → deliverable l m = true →
       g.handed = f.handed ++ [m] ∧ g.counters.malformed = min 65535 (f.counters.malformed + a.malformed)) ∧
     (∀ m, a.complete = some m → deliverable l m = false → g.handed = f.handed ∧
       g.counters.malformed = min 65535 (min 65535 (f.counters.malformed + a.malformed) + 1)) ∧
     (a.complete = none →
       g.handed = f.handed ∧ g.counters.malformed = min 65535 (f.counters.malformed + a.malformed)) ∧
     g.verifyCount = f.verifyCount ∧ g.emission = f.emission ∧ g.pollPlace = f.pollPlace ∧
     g.relayQueue = f.relayQueue ∧ g.sent = f.sent ∧ g.counters.lockLosses = f.counters.lockLosses ∧
     g.counters.checkErrors = f.counters.checkErrors ∧ g.counters.slips = f.counters.slips ∧
     g.counters.sendAborts = f.counters.sendAborts ∧ g.counters.gaps = f.counters.gaps)

/-- The classification of an uplink frame (R11, R39, R40): out of window, late, duplicate, overflow, accepted,
the first that applies; an accepted frame enters at its place in number order and its lead is taken. The
Combiner's other parts are as they were. That the lead stays the value modulo 2^32 where a frame numbered before FC - D
is accepted, which only happens while no number has been released, is the model's choice (log entry 33), and so is it that the D of the lead is the one of the boundary before, until the
blocks have acted on the last one (log entry 2). -/
def Obligations.UplinkArrivalsAreClassified : Prop :=
  ∀ (s : State) (r : RemoteId) (x : LinkFrame), isGood x = true → (s.framer (.remote r)).rx = .locked →
    ∃ t, exec (.goodFrame (.remote r) x) s = .next t ∧
    (let N := s.now + (x.number - low16 s.now).signExtend 32
     let e : Entry := ⟨N, x.map, x.lanes, s.now⟩
     let q := s.comb.queues.get r
     let k := s.comb.counters.get r
     let w := s.comb.window.get r
     let lead := (N + BitVec.ofNat 32 s.comb.delay - s.now).toNat
     let late : Prop := ∃ L, s.comb.last = some L ∧ atOrAfter L N = true
     let placed (rest : List Entry) : Prop :=
       ∃ before after, t.comb.queues.get r = before ++ e :: after ∧ rest = before ++ after ∧
         (∀ y ∈ before, atOrAfter N y.number = true) ∧ ∀ y ∈ after.head?, isBefore N y.number = true
     let led : Prop := t.comb.window.get r =
       ⟨w.late, some (match w.minLead with | some m => min m lead | none => lead),
         if lead = 0 then min 65535 (w.zeroLead + 1) else w.zeroLead⟩
     t.comb = { s.comb with queues := t.comb.queues, counters := t.comb.counters, window := t.comb.window } ∧
     (∀ y, y ≠ r → t.comb.queues.get y = s.comb.queues.get y ∧ t.comb.counters.get y = s.comb.counters.get y ∧
       t.comb.window.get y = s.comb.window.get y) ∧
     (isAfter N (s.now + 2) = true → t.comb.queues.get r = q ∧ t.comb.window.get r = w ∧
       t.comb.counters.get r = { k with outOfWindow := min 65535 (k.outOfWindow + 1) }) ∧
     (isAfter N (s.now + 2) = false → late → t.comb.queues.get r = q ∧
       t.comb.window.get r = { w with late := min 65535 (w.late + 1) } ∧
       t.comb.counters.get r = { k with late := min 65535 (k.late + 1) }) ∧
     (isAfter N (s.now + 2) = false → ¬late → (∃ y ∈ q, y.number = N) → t.comb.queues.get r = q ∧
       t.comb.window.get r = w ∧ t.comb.counters.get r = { k with duplicates := min 65535 (k.duplicates + 1) }) ∧
     (isAfter N (s.now + 2) = false → ¬late → (¬∃ y ∈ q, y.number = N) → 8 ≤ q.length →
       placed (q.drop 1) ∧ led ∧ t.comb.counters.get r = { k with overflows := min 65535 (k.overflows + 1) }) ∧
     (isAfter N (s.now + 2) = false → ¬late → (¬∃ y ∈ q, y.number = N) → q.length < 8 →
       placed q ∧ led ∧ t.comb.counters.get r = k))

/-- A framer leaves LOCKED (R1, R5, R12, R14, R18, R28, R41, R122, R123, R144, R152, R163, R164), at once on
loss of signal and on the fourth errored frame in a row: the lock loss and a message cut short are counted,
everything in progress on the link ends, and each block does its part. On a remote link an open pass-through ends with
ABORTED, and the port leaves a set relay's remaining ports: the relay goes on while others remain, and ends with DONE
when it was the last (R163, R164). On a donor link the Interpreter stops taking the link's requests: those queued are
removed and counted, and the responses waiting for the link stay queued. A message that S or a donor link completed
before, and a STATUS that a remote link completed before, is taken first, as its own row takes it, since it is handed on
at its arrival, on a LOCKED link (R15, R124, R151). That a REPLY and a BUSY wait on to be taken after the loss is the
model's choice of the two orders of R163 (log entry 31), and so is that the ABORTED is filled before the DONE (log
entry 10). -/
def Obligations.LeavingLockedTakesEffect : Prop :=
  ∀ (s : State) (l : Link), (s.framer l).rx = .locked →
    ∀ c, (c = Instr.lossOfSignal l ∨ ∃ x, c = .erroredFrame l x ∧ isGood x = false ∧ (s.framer l).streak = 3) →
    (∀ k m ms, l = linkOf k → (s.framer l).handed = m :: ms →
      ∃ v, exec (.serviceMessageArrival k) s = .next v ∧ exec c s = exec c v) ∧
    (∀ r before m after, l = .remote r → (s.framer l).handed = before ++ m :: after → m.head.kind = 0x42 →
      (∀ b ∈ before, b.head.kind ≠ 0x42) →
      ∃ v, exec (.status r) (s.modFramer l fun f => { f with handed := m :: (before ++ after) }) = .next v ∧
        exec c s = exec c v) ∧
    ((¬∃ m ∈ (s.framer l).handed, ∀ r, l = .remote r → m.head.kind = 0x42) → ∃ t, exec c s = .next t ∧
    (let f := s.framer l
     let g := t.framer l
     (c = .lossOfSignal l → g.rx = .down) ∧ (c ≠ .lossOfSignal l → g.rx = .hunt) ∧
     g.counters.lockLosses = min 65535 (f.counters.lockLosses + 1) ∧ g.assembly = none ∧ g.buffer = [] ∧
     g.emission = none ∧ g.pollPlace = false ∧ g.relayQueue = [] ∧
     g.counters.sendAborts =
       (if f.emission.isSome then min 65535 (f.counters.sendAborts + 1) else f.counters.sendAborts) ∧
     (c = .lossOfSignal l → g.counters.malformed = f.counters.malformed) ∧
     (c ≠ .lossOfSignal l → g.counters.malformed = min 65535 (f.counters.malformed + if f.assembly.isSome then 1 else 0)) ∧
     (∀ x, c = .erroredFrame l x →
       g.counters.checkErrors = (if isPresent x then min 65535 (f.counters.checkErrors + 1) else f.counters.checkErrors) ∧
       g.counters.slips = if isPresent x then f.counters.slips else min 65535 (f.counters.slips + 1)) ∧
     (∀ e, f.emission = some e → e.what = .response true → .restart ∈ t.boundary.due) ∧
     g.handed = f.handed ∧ g.counters.good = f.counters.good ∧ g.sent = f.sent) ∧
    (l = .service → t.events.offer = false ∧ t.svc = s.svc) ∧
    (∀ n, l = .donor n →
      t.dist.donors.get n = { s.dist.donors.get n with timer := some 0 } ∧
      t.svc.input = s.svc.input.filter (fun q => decide (q.link ≠ .donor n)) ∧
      (t.svc.donorCounts.get n).removals = min 65535 ((s.svc.donorCounts.get n).removals +
        (s.svc.input.filter fun q => decide (q.link = .donor n)).length) ∧
      t.svc.filled = s.svc.filled ∧ t.svc.reserved = s.svc.reserved ∧
      t.svc = { s.svc with input := t.svc.input, donorCounts := t.svc.donorCounts } ∧
      (∀ m, m ≠ n → t.svc.donorCounts.get m = s.svc.donorCounts.get m) ∧
      (s.clock.reference ≠ some n → t.clock = s.clock ∧ t.events = s.events) ∧
      (s.clock.reference = some n →
        t.clock.reference = ((List.finRange 4).find? fun m =>
          s.settings.reference.permits m && decide (m ≠ n) && s.locked (.donor m)) ∧
        t.events = s.events.post .referenceLost (.donor n) none
          (match t.clock.reference with | some m => word16 m.val | none => 0xFFFF) s.now)) ∧
    (∀ r, l = .remote r →
      t.comb.queues.get r = [] ∧ t.comb.counters.get r = s.comb.counters.get r ∧
      t.supRec r = { s.supRec r with
        awaiting := false, grace := if s.serviced r then some 0 else (s.supRec r).grace } ∧
      t.svc.pass.get r = none ∧ t.svc.refused.get r = [] ∧ t.events = s.events ∧
      (let aborted : List Response := match s.svc.pass.get r with
         | some p => if .pass r ∈ s.svc.reserved then [⟨p.link, p.tag, p.kind, .aborted, [], false⟩] else []
         | none => []
       let kept := if (s.svc.pass.get r).isSome then s.svc.reserved.erase (.pass r) else s.svc.reserved
       let left (v : SetRelay) := v.remaining.erase r
       (s.svc.setRelay = none → t.svc.setRelay = none ∧ t.svc.filled = s.svc.filled ++ aborted ∧
         t.svc.reserved = kept) ∧
       (∀ v, s.svc.setRelay = some v → left v ≠ [] → t.svc.setRelay = some { v with remaining := left v } ∧
         t.svc.filled = s.svc.filled ++ aborted ∧ t.svc.reserved = kept) ∧
       ∀ v, s.svc.setRelay = some v → left v = [] → t.svc.setRelay = none ∧ t.svc.reserved = kept.erase .setRelay ∧
         t.svc.filled = s.svc.filled ++ aborted ++
           if .setRelay ∈ s.svc.reserved then [⟨v.link, v.tag, v.kind, .done, [], false⟩] else []) ∧
      ∀ x, x ≠ r → t.svc.pass.get x = s.svc.pass.get x ∧ t.svc.refused.get x = s.svc.refused.get x))

/-- The control-in assembler, row by row of R14's table, for an idle assembler and for one assembling message
m with `want` pieces due; a flag above 4 is a slot out of place (R169). The header is read from the first slot as
12.2 lays it out. -/
def Obligations.AssemblerFollowsItsTable : Prop :=
  ∀ (bytes : List Byte) (m : Assembly),
    let h := headerOf bytes
    let L := h.length.toNat
    let want := (m.head.length.toNat + 15) / 16
    (h.dest = byteAt bytes 0 ∧ h.port = byteAt bytes 1 ∧ h.mask = byteAt bytes 2 ++ byteAt bytes 3 ∧
      h.tag = byteAt bytes 4 ∧ h.kind = byteAt bytes 5 ∧ h.status = byteAt bytes 6 ∧ h.length = byteAt bytes 7) ∧
    (∀ a, assembleSlot a 0 bytes = ⟨a, 0, none⟩) ∧
    (L = 0 → assembleSlot none 1 bytes = ⟨none, 0, some ⟨h, []⟩⟩ ∧
      assembleSlot (some m) 1 bytes = ⟨none, 1, some ⟨h, []⟩⟩) ∧
    (L ≠ 0 → assembleSlot none 1 bytes = ⟨none, 1, none⟩ ∧ assembleSlot (some m) 1 bytes = ⟨none, 2, none⟩) ∧
    (1 ≤ L → L ≤ 224 → assembleSlot none 2 bytes = ⟨some ⟨h, []⟩, 0, none⟩ ∧
      assembleSlot (some m) 2 bytes = ⟨some ⟨h, []⟩, 1, none⟩) ∧
    (L = 0 ∨ 224 < L → assembleSlot none 2 bytes = ⟨none, 1, none⟩ ∧
      assembleSlot (some m) 2 bytes = ⟨none, 2, none⟩) ∧
    (∀ flag : Byte, 3 ≤ flag.toNat → assembleSlot none flag bytes = ⟨none, 1, none⟩) ∧
    (m.pieces.length + 1 < want → assembleSlot (some m) 3 bytes = ⟨some ⟨m.head, m.pieces ++ [bytes]⟩, 0, none⟩) ∧
    (want ≤ m.pieces.length + 1 → assembleSlot (some m) 3 bytes = ⟨none, 1, none⟩) ∧
    (m.pieces.length + 1 = want → assembleSlot (some m) 4 bytes =
      ⟨none, 0, some ⟨m.head, ((m.pieces ++ [bytes]).flatten).take m.head.length.toNat⟩⟩) ∧
    (m.pieces.length + 1 ≠ want → assembleSlot (some m) 4 bytes = ⟨none, 1, none⟩) ∧
    ∀ flag : Byte, 4 < flag.toNat → assembleSlot (some m) flag bytes = ⟨none, 1, none⟩

/-- Slots and assembly agree (R13, R14): the slots of a message of 0 to 224 bytes are 1 + ⌈L / 16⌉ in number, of 16
bytes each: the header, marked ONLY or FIRST, then the body in pieces of 16 bytes, the last of them padded with zeros
and marked LAST, the others MIDDLE. An idle assembler that takes them one after another completes exactly that message,
discards nothing, and is idle again. The zeros of the padding are the model's choice for notices and relayed messages
(log entry 29). -/
def Obligations.MessagesSurviveTheirSlots : Prop :=
  ∀ (h : Header) (body : List Byte), body.length ≤ 224 → h.length.toNat = body.length →
    (messageSlots h body).length = 1 + (body.length + 15) / 16 ∧
    (messageSlots h body).head? = some ⟨if body = [] then 1 else 2,
      [h.dest, h.port] ++ bytes16 h.mask ++ [h.tag, h.kind, h.status, h.length] ++ List.replicate 8 0⟩ ∧
    (∀ k, k < (body.length + 15) / 16 → (messageSlots h body)[k + 1]? = some
      ⟨if body.length ≤ 16 * (k + 1) then 4 else 3, ((body ++ List.replicate 15 0).drop (16 * k)).take 16⟩) ∧
    (∀ z ∈ messageSlots h body, z.bytes.length = 16 ∧ z.flag ≠ 0) ∧
    (messageSlots h body).foldl (fun (p : Option Assembly × Nat × List Message) z =>
      let a := assembleSlot p.1 z.flag z.bytes
      (a.assembly, p.2.1 + a.malformed, p.2.2 ++ a.complete.toList)) (none, 0, []) = (none, 0, [⟨h, body⟩])

/-! ## Messages -/

/-- What a completed message of S or a donor link comes to, when it opens no operation (R148, R149, R151; the
order of the checks where R149 and R151 meet is log entry 11): a stray, an access discard, a room discard, an
answer given at arrival, or a request in the input queue. Nothing else changes. -/
def Obligations.ArrivingMessagesAreJudged : Prop :=
  ∀ (s : State) (l : MsgLink),
    ((s.framer (linkOf l)).handed = [] → exec (.serviceMessageArrival l) s = .next s) ∧
    ∀ (m : Message) (ms : List Message), (s.framer (linkOf l)).handed = m :: ms →
      let u := s.modFramer (linkOf l) fun f => { f with handed := ms }
      let t := exec (.serviceMessageArrival l) s
      let refused (st : Status) : State :=
        { u with svc := { u.svc with filled := u.svc.filled ++ [(⟨l, m.head.tag, m.head.kind, st, [], false⟩ : Response)] } }.countSvc l
          fun c => { c with refusals := min 65535 (c.refusals + 1) }
      let roomless := u.countSvc l fun c => { c with roomDiscards := min 65535 (c.roomDiscards + 1) }
      let stray := 0x40 ≤ m.head.kind.toNat ∧ m.head.kind.toNat ≤ 0x44 ∨ m.head.status ≠ 0xFF
      let room := s.svc.filled.length + s.svc.reserved.length < 8
      let denied := s.grantOf l = .read ∧
        (m.head.dest = 0 ∧ m.head.kind ∉ [1, 2, 4, 6, 8, 10, 20] ∨ m.head.dest = 1 ∨ m.head.dest = 2 ∨ m.head.dest = 3)
      (stray → t = .next (u.countSvc l fun c => { c with strays := min 65535 (c.strays + 1) })) ∧
      (¬stray → s.grantOf l = .none →
        t = .next (u.countSvc l fun c => { c with accessDiscards := min 65535 (c.accessDiscards + 1) })) ∧
      (¬stray → s.grantOf l ≠ .none → ¬room → t = .next roomless) ∧
      (¬stray → room → denied → t = .next (refused .denied)) ∧
      (¬stray → s.grantOf l ≠ .none → room → ¬denied →
        (m.head.dest = 0 → s.svc.input.length < 4 →
          t = .next ({ u with svc := { u.svc with
            input := u.svc.input ++ [(⟨l, m.head.tag, m.head.kind, m.body⟩ : Request)] } }.countSvc l
              fun c => { c with queued := min 65535 (c.queued + 1) })) ∧
        (m.head.dest = 0 → 4 ≤ s.svc.input.length → t = .next (refused .busy)) ∧
        (m.head.dest = 1 → 16 ≤ m.head.port.toNat → t = .next (refused .badIndex)) ∧
        (m.head.dest = 1 → ∀ r : RemoteId, m.head.port.toNat = r.val →
          (s.locked (.remote r) = false → t = .next (refused .notReady)) ∧
          (s.locked (.remote r) = true → (s.svc.pass.get r).isSome = true → t = .next (refused .busy))) ∧
        (m.head.dest = 2 ∨ m.head.dest = 3 → s.svc.setRelay.isSome = true → t = .next (refused .busy)) ∧
        (4 ≤ m.head.dest.toNat → t = .next (refused .badValue)))

/-- A message for REMOTE n with FULL access, a LOCKED link, an idle slot and a free response place opens a
pass-through (R151, R160, R161): SENDING with the port's relay tag and all its retries, a place reserved, the
opened counter one more, and the attempt accepted by the arbiter or, at a full relay queue, kept for a later
offer (R17). Nothing else changes. -/
def Obligations.PassThroughOpens : Prop :=
  ∀ (s : State) (l : MsgLink) (m : Message) (ms : List Message) (r : RemoteId),
    (s.framer (linkOf l)).handed = m :: ms → ¬(0x40 ≤ m.head.kind.toNat ∧ m.head.kind.toNat ≤ 0x44) →
    m.head.status = 0xFF → s.grantOf l = .full → s.svc.filled.length + s.svc.reserved.length < 8 →
    m.head.dest = 1 → m.head.port.toNat = r.val → s.locked (.remote r) = true → s.svc.pass.get r = none →
    let tag := s.svc.relayTags.get r
    let attempt : Relayed := ⟨false, tag, m.head.kind, m.body⟩
    let q := (s.framer (.remote r)).relayQueue
    let u := s.modFramer (linkOf l) fun f => { f with handed := ms }
    let v : Service := { u.svc with
      pass := u.svc.pass.set r
        (some ⟨l, m.head.tag, m.head.kind, m.body, tag, s.settings.passRetries, .sending none⟩)
      relayTags := u.svc.relayTags.set r (tag + 1)
      reserved := u.svc.reserved ++ [.pass r]
      portCounts := u.svc.portCounts.modify r fun c => { c with opened := min 65535 (c.opened + 1) } }
    (q.length < 4 → exec (.serviceMessageArrival l) s =
      .next { u.modFramer (.remote r) fun f => { f with relayQueue := f.relayQueue ++ [attempt] } with svc := v }) ∧
    (4 ≤ q.length → exec (.serviceMessageArrival l) s =
      .next { u with svc := { v with refused := v.refused.modify r fun xs => xs ++ [attempt] } })

/-- A message for REMOTE-SET or ALL-REMOTES with FULL access starts a set relay (R151, R160, R164): every named
port whose link is LOCKED takes a relay tag of its own and is offered a copy; the ports whose arbiter is full
remain, and with none remaining the relay ends with DONE at once. Nothing else changes: that an operation opened or
done at once counts no refusal of arrival, and that the DONE of a relay that ends at once fills a place like any
other, is the model's choice (log entry 12). -/
def Obligations.SetRelayOffersItsCopies : Prop :=
  ∀ (s : State) (l : MsgLink) (m : Message) (ms : List Message),
    (s.framer (linkOf l)).handed = m :: ms → ¬(0x40 ≤ m.head.kind.toNat ∧ m.head.kind.toNat ≤ 0x44) →
    m.head.status = 0xFF → s.grantOf l = .full → s.svc.filled.length + s.svc.reserved.length < 8 →
    m.head.dest = 2 ∨ m.head.dest = 3 → s.svc.setRelay = none →
    ∃ t, exec (.serviceMessageArrival l) s = .next t ∧
    (let named (r : RemoteId) : Bool := (decide (m.head.dest = 3) || m.head.mask.getLsbD r.val) && s.locked (.remote r)
     let full (r : RemoteId) : Bool := decide (4 ≤ (s.framer (.remote r)).relayQueue.length)
     let copy (r : RemoteId) : Relayed := ⟨true, s.svc.relayTags.get r, m.head.kind, m.body⟩
     let left := (List.finRange 16).filter fun r => named r && full r
     t = { s with links := t.links, svc := t.svc } ∧
     (∀ r, named r = true → t.svc.relayTags.get r = s.svc.relayTags.get r + 1) ∧
     (∀ r, named r = true → full r = false →
       t.framer (.remote r) =
         { s.framer (.remote r) with relayQueue := (s.framer (.remote r)).relayQueue ++ [copy r] } ∧
       t.svc.refused.get r = s.svc.refused.get r) ∧
     (∀ r, named r = true → full r = true → t.framer (.remote r) = s.framer (.remote r) ∧
       t.svc.refused.get r = s.svc.refused.get r ++ [copy r]) ∧
     (∀ r, named r = false → t.svc.relayTags.get r = s.svc.relayTags.get r ∧
       t.framer (.remote r) = s.framer (.remote r) ∧ t.svc.refused.get r = s.svc.refused.get r) ∧
     t.framer (linkOf l) = { s.framer (linkOf l) with handed := ms } ∧
     (∀ l', l' ≠ l → t.framer (linkOf l') = s.framer (linkOf l')) ∧
     (left = [] → t.svc.setRelay = none ∧
       t.svc.filled = s.svc.filled ++ [⟨l, m.head.tag, m.head.kind, .done, [], false⟩] ∧
       t.svc.reserved.length = s.svc.reserved.length) ∧
     (left ≠ [] → t.svc.setRelay = some ⟨l, m.head.tag, m.head.kind, m.body, left⟩ ∧ t.svc.filled = s.svc.filled ∧
       t.svc.reserved = s.svc.reserved ++ [.setRelay]) ∧
     t.svc = { s.svc with
       setRelay := t.svc.setRelay, relayTags := t.svc.relayTags, refused := t.svc.refused
       filled := t.svc.filled, reserved := t.svc.reserved })

/-- A REPLY and a BUSY of a remote (R15, R162): one that matches no open attempt is counted unmatched; a
matching REPLY ends the pass-through with DONE and its body; a matching BUSY is counted, and retries with a new
relay tag and a retry delay of 1, or ends with REMOTE-BUSY when no retries are left. The waiting attempt of a
slot that ends or retries is withdrawn (R161). Nothing but links, the Relay's state and what was due changes. -/
def Obligations.RepliesEndOrRetryThePassThrough : Prop :=
  ∀ (s : State) (r : RemoteId) (m : Message) (ms : List Message),
    (s.framer (.remote r)).handed = m :: ms →
    let u := s.modFramer (.remote r) fun f => { f with handed := ms }
    let unmatched := u.countRelay r fun c => { c with unmatched := min 65535 (c.unmatched + 1) }
    let matching (p : Pass) : Prop := s.svc.pass.get r = some p ∧ p.relayTag = m.head.tag
    let ended (p : Pass) (st : Status) (b : List Byte) (t : State) : Prop :=
      t.svc.pass.get r = none ∧ (∀ x, x ≠ r → t.svc.pass.get x = s.svc.pass.get x) ∧
      (s.svc.reserved.contains (.pass r) = true →
        t.svc.filled = s.svc.filled ++ [⟨p.link, p.tag, p.kind, st, b, false⟩] ∧
        t.svc.reserved = s.svc.reserved.erase (.pass r)) ∧
      t.framer (.remote r) = { s.framer (.remote r) with
        handed := ms, relayQueue := (s.framer (.remote r)).relayQueue.filter fun x => x.copy } ∧
      t.svc.refused.get r = (s.svc.refused.get r).filter fun x => x.copy
    let stays (t : State) : Prop := t = { s with links := t.links, svc := t.svc, boundary := t.boundary } ∧
      (∀ k, k ≠ .remote r → t.framer k = s.framer k) ∧ t.svc.input = s.svc.input ∧ t.svc.tap = s.svc.tap ∧
      t.svc.setRelay = s.svc.setRelay
    (m.head.kind = 0x43 →
      ((¬∃ p, matching p) → exec (.reply r) s = .next unmatched) ∧
      ∀ p, matching p → ∃ t, exec (.reply r) s = .next t ∧ ended p .done m.body t ∧ stays t ∧
        t.svc.portCounts = s.svc.portCounts) ∧
    (m.head.kind = 0x44 →
      ((¬∃ p, matching p) → exec (.busyReply r) s = .next unmatched) ∧
      (∀ p, matching p → p.retries = 0 → ∃ t, exec (.busyReply r) s = .next t ∧ ended p .remoteBusy [] t ∧ stays t ∧
        (t.svc.portCounts.get r).busies = min 65535 ((s.svc.portCounts.get r).busies + 1)) ∧
      ∀ p, matching p → 0 < p.retries → ∃ t, exec (.busyReply r) s = .next t ∧ stays t ∧
        (t.svc.portCounts.get r).busies = min 65535 ((s.svc.portCounts.get r).busies + 1) ∧
        t.svc.pass.get r = some { p with
          relayTag := s.svc.relayTags.get r, retries := p.retries - 1, phase := .sending (some 1) } ∧
        t.svc.relayTags.get r = s.svc.relayTags.get r + 1 ∧ t.svc.filled = s.svc.filled ∧
        t.svc.reserved = s.svc.reserved ∧
        (t.framer (.remote r)).relayQueue = (s.framer (.remote r)).relayQueue.filter (fun x => x.copy) ∧
        t.svc.refused.get r = (s.svc.refused.get r).filter fun x => x.copy)

/-- A STATUS of a remote that is VACANT, ISOLATED, WAITING or LOST (R124, R127 to R129): it ends the wait for an
answer and is kept as the last report; in WAITING and LOST, a position other than the one expected and a serial held
by another remote in service are posted and nothing is accepted; otherwise identity and alarms are taken and, unless
both outputs have failed, the remote enters JOINING and its neighbours settle (R131, R135, R136); a batch that has not
switched holds it (R82). That branch events are posted before thermal events is the model's choice (log entry 10),
since R142 leaves the order within one event free, and so is that the lowest port is named where several remotes hold
the serial (log entry 25). -/
def Obligations.StatusOutOfServiceIsChecked : Prop :=
  ∀ (s : State) (r : RemoteId) (m : Message) (ms : List Message),
    (s.framer (.remote r)).handed = m :: ms → m.head.kind = 0x42 →
    let v := s.supRec r
    let b := m.body
    let w : SupRecord := { v with miss := 0, awaiting := false, report := some ⟨b, s.now⟩ }
    let u := (s.modFramer (.remote r) fun f => { f with handed := ms }).modSup r fun _ => w
    let a := statusAlarms b
    let mismatch := ∃ p, (s.live r).position = some p ∧ p ≠ wordAt b 4
    let twin (x : RemoteId) := x ≠ r ∧ s.serviced x = true ∧ (s.supRec x).serial = some (longAt b 0)
    let taken : SupRecord := { w with
      serial := some (longAt b 0), position := some (wordAt b 4), alarms := a
      mode := match a.outA, a.outB with
        | true, false => .foldB
        | false, true => .foldA
        | _, _ => (s.live r).mode }
    let e1 :=
      if a.outputs = v.alarms.outputs then s.events
      else if a.outputs = 0 then s.events.post .branchRestored (.remote r) none (word16 v.alarms.outputs) s.now
      else s.events.post .branchFault (.remote r) none (word16 a.outputs) s.now
    let e2 :=
      if a.hot = v.alarms.hot then e1
      else if a.hot then e1.post .thermalBackoff (.remote r) none (word16 ((s.live r).baseGain * 3 / 4)) s.now
      else e1.post .thermalCleared (.remote r) none 0 s.now
    (v.health = .vacant ∨ v.health = .isolated → exec (.status r) s = .next u) ∧
    (v.health = .waiting ∨ v.health = .lost →
      (mismatch → exec (.status r) s =
        .next { u with events := s.events.post .identityMismatch (.remote r) none (wordAt b 4) s.now }) ∧
      (∀ x, ¬mismatch → twin x → (∀ y, twin y → x ≤ y) → exec (.status r) s =
        .next { u with events := s.events.post .identityDuplicate (.remote r) none (word16 x.val) s.now }) ∧
      (¬mismatch → (∀ x, ¬twin x) → ∃ t, exec (.status r) s = .next t ∧
        (a.outA = true ∧ a.outB = true → Settles { (u.modSup r fun _ => taken) with events := e2 } t ∧
          t.health r = v.health) ∧
        (¬(a.outA = true ∧ a.outB = true) →
          Settles { (u.modSup r fun _ => { taken with health := .joining, cause := none }) with events := e2 } t ∧
          t.serviced r = true ∧ (t.supRec r).cause = none ∧
          (s.SupervisionLaw → s.batchRunning = true → s.engine.state = .fadeOut ∨ s.engine.state = .switchPending →
            r ∈ t.engine.holdSet ∧ (t.supRec r).held = true ∧ t.health r = .joining))))

/-- A STATUS of a remote in service (R126, R127, R130): another serial takes it out of service with nothing
accepted; both outputs failed take it out of service once the alarms are taken; otherwise position and alarms
are taken, SERVING and IMPAIRED follow the alarms, and the neighbours settle. What a departure does to the move in
progress is said under the laws of the device (`EngineFollows`). That branch events are posted before thermal events
and both before REMOTE-LOST is the model's choice (log entry 10), since R142 leaves the order within one event free. -/
def Obligations.StatusInServiceIsTaken : Prop :=
  ∀ (s : State) (r : RemoteId) (m : Message) (ms : List Message),
    (s.framer (.remote r)).handed = m :: ms → m.head.kind = 0x42 → s.serviced r = true →
    let v := s.supRec r
    let b := m.body
    let w : SupRecord := { v with miss := 0, awaiting := false, report := some ⟨b, s.now⟩ }
    let u := s.modFramer (.remote r) fun f => { f with handed := ms }
    let a := statusAlarms b
    let taken : SupRecord := { w with
      position := some (wordAt b 4), alarms := a
      mode := match a.outA, a.outB with
        | true, false => .foldB
        | false, true => .foldA
        | _, _ => (s.live r).mode }
    let e1 :=
      if a.outputs = v.alarms.outputs then s.events
      else if a.outputs = 0 then s.events.post .branchRestored (.remote r) none (word16 v.alarms.outputs) s.now
      else s.events.post .branchFault (.remote r) none (word16 a.outputs) s.now
    let e2 :=
      if a.hot = v.alarms.hot then e1
      else if a.hot then e1.post .thermalBackoff (.remote r) none (word16 ((s.live r).baseGain * 3 / 4)) s.now
      else e1.post .thermalCleared (.remote r) none 0 s.now
    let flap := min 15 (v.flap + 1)
    let decay := if v.flap = 0 then some 0 else v.decay
    let lost (c : Cause) (q : EventQueue) := q.post .remoteLost (.remote r) none (word16 c.code) s.now
    let out (c : Cause) (x : SupRecord) (q : EventQueue) (t : State) : Prop :=
      (flap < s.settings.flapLimit → Departed r .lost (some c)
        { (u.modSup r fun _ => { x with flap := flap, decay := decay }) with events := lost c q } t) ∧
      (s.settings.flapLimit ≤ flap → Departed r .isolated (some .flapping)
        { (u.modSup r fun _ => { x with flap := flap, decay := decay }) with
          events := (lost c q).post .remoteIsolated (.remote r) none 1 s.now } t) ∧
      (s.engine.lawful → s.engine.MoveLaw → s.SupervisionLaw → EngineFollows r
        { s with events := (if flap < s.settings.flapLimit then lost c q
          else (lost c q).post .remoteIsolated (.remote r) none 1 s.now) } t)
    ∃ t, exec (.status r) s = .next t ∧
      (v.serial ≠ some (longAt b 0) → out .identityChanged w s.events t) ∧
      (v.serial = some (longAt b 0) → a.outA = true ∧ a.outB = true → out .output taken e2 t) ∧
      (v.serial = some (longAt b 0) → ¬(a.outA = true ∧ a.outB = true) →
        Settles { (u.modSup r fun _ => { taken with
          health := if v.health = .joining then .joining
            else if a.outA != a.outB || a.hot then .impaired else .serving }) with events := e2 } t)

/-! ## Senders -/

/-- A message boundary on S or a donor link (R16, R150): while the link is LOCKED and nothing is in emission, the
sender takes the oldest response for the link out of the response queue, which frees its place, and starts it;
otherwise it starts nothing. The slots are those of a message with the request's kind and tag and the response's
status (R13, R148), whose codes run from 0 to 11 (12.2). That a response carries destination 0 is the model's choice
(log entry 14). Nothing else changes. -/
def Obligations.SenderTakesTheOldestResponse : Prop :=
  (∀ (n : Nat) (st : Status), [Status.done, .busy, .denied, .badTable, .badIndex, .badValue, .conflict, .notReady,
    .tooLate, .timeout, .remoteBusy, .aborted][n]? = some st → st.code.toNat = n) ∧
  ∀ (s : State) (l : MsgLink),
    let free := .sender (linkOf l) ∈ s.boundary.due ∧ (s.framer (linkOf l)).emission = none ∧
      (s.framer (linkOf l)).rx = .locked
    (¬free ∨ (∀ p ∈ s.svc.filled, p.link ≠ l) → exec (.responseStart l) s = .next s) ∧
    ∀ (before after : List Response) (p : Response), free → s.svc.filled = before ++ p :: after →
      (∀ q ∈ before, q.link ≠ l) → p.link = l →
      exec (.responseStart l) s = .next ({ (s.modFramer (linkOf l) fun f => { f with
          emission := some ⟨.response p.restart,
            messageSlots ⟨0, 0, 0, p.tag, p.kind, p.status.code, BitVec.ofNat 8 p.body.length⟩ p.body⟩ }) with
        svc := { s.svc with filled := before ++ after } }.unDue (.sender (linkOf l)))

/-- A notice (R16, R138, R139, R143, R145): at a message boundary of S with no response waiting for it, the offered
notice is taken. Up to 4 records leave the head of the delivery order, the overflow count is handed out, the sequence
is the notice's tag and increases by 1, and the offer becomes no. In every other case nothing happens. Each record is
sent as the 16 bytes of 12.2: kind 1 to 25 in the order of R139's table, of which the first 12 are URGENT, priority,
subject, operator tag, repeats, detail, first and last frame count. -/
def Obligations.NoticeTakesTheHeadOfTheQueue : Prop :=
  (∀ (n : Nat) (e : Event), [EventKind.remoteLost, .remoteIsolated, .identityMismatch, .identityDuplicate, .branchFault,
    .thermalBackoff, .donorLost, .referenceLost, .sectorDegraded, .uplinkClipping, .saveFailed, .configDefaulted,
    .remoteJoined, .branchRestored, .thermalCleared, .donorRestored, .referenceRestored, .sectorRestored, .moveDone,
    .cutoverDone, .cutoverAborted, .spreadBlocked, .lateUplink, .lowMargin, .saveDone][n]? = some e.kind →
    e.kind.urgent = decide (n < 12) ∧
    encEvent e = [BitVec.ofNat 8 (n + 1), if n < 12 then 0 else 1] ++
      (match e.subject with
        | .hub => [0, 0]
        | .donor v => [1, BitVec.ofNat 8 v.val]
        | .remote v => [2, BitVec.ofNat 8 v.val]
        | .carrier v => [3, BitVec.ofNat 8 v.val]
        | .sector v => [4, BitVec.ofNat 8 v.val]
        | .plan v => [5, BitVec.ofNat 8 v.val]) ++
      [match e.tag with | some v => BitVec.ofNat 8 v.val | none => 0xFF] ++ [BitVec.ofNat 8 e.repeats] ++
      bytes16 e.detail ++ bytes32 e.firstFc ++ match e.lastFc with | some v => bytes32 v | none => [0, 0, 0, 0]) ∧
  ∀ s : State,
    let free := .sender .service ∈ s.boundary.due ∧ s.links.service.emission = none ∧ s.links.service.rx = .locked ∧
      (∀ p ∈ s.svc.filled, p.link ≠ .service) ∧ s.events.offer = true
    (¬free → exec .notice s = .next s) ∧
    (free → ∃ t, exec .notice s = .next t ∧
      (let es := ((s.events.records.filter fun e => e.kind.urgent) ++
          s.events.records.filter fun e => !e.kind.urgent).take 4
       let body := bytes16 (word16 s.events.overflow) ++ [BitVec.ofNat 8 es.length] ++
          [BitVec.ofNat 8 t.events.records.length] ++ es.flatMap encEvent
       t = { (s.modFramer .service fun f => { f with
            emission := some ⟨.notice, messageSlots ⟨0, 0, 0, s.events.seq, 0x40, 0xFF, BitVec.ofNat 8 body.length⟩ body⟩ }) with
          events := { s.events with
            records := t.events.records, overflow := 0, seq := s.events.seq + 1, offer := false } }.unDue
          (.sender .service) ∧
       (es ++ t.events.records).Perm s.events.records ∧ t.events.records.Sublist s.events.records))

/-- A message boundary on a remote link (R17): while the link is LOCKED and nothing is in emission, a waiting
POLL starts first; otherwise the oldest relayed message starts, its place is free, and the offer refused
earliest is made again and accepted. With neither waiting nothing starts. That a POLL names its destination
REMOTE and its port, and a set relay's copy likewise with mask 0, is the model's choice (log entry 14). -/
def Obligations.ArbiterStartsThePollFirst : Prop :=
  ∀ (s : State) (r : RemoteId),
    let f := s.framer (.remote r)
    let free := .sender (.remote r) ∈ s.boundary.due ∧ f.emission = none ∧ f.rx = .locked
    let header (tag kind : Byte) (n : Nat) : Header := ⟨1, BitVec.ofNat 8 r.val, 0, tag, kind, 0xFF, BitVec.ofNat 8 n⟩
    (¬free ∨ (f.pollPlace = false ∧ f.relayQueue = []) → exec (.arbiterMessageBoundary r) s = .next s) ∧
    (free → f.pollPlace = true → exec (.arbiterMessageBoundary r) s =
      .next ((s.modFramer (.remote r) fun f => { f with
        pollPlace := false
        emission := some ⟨.poll, messageSlots (header 0 0x41 0) []⟩ }).unDue (.sender (.remote r)))) ∧
    ∀ (m : Relayed) (ms : List Relayed), free → f.pollPlace = false → f.relayQueue = m :: ms →
      let e : Emission := ⟨.relayed m.tag, messageSlots (header m.tag m.kind m.body.length) m.body⟩
      (s.svc.refused.get r = [] → exec (.arbiterMessageBoundary r) s =
        .next ((s.modFramer (.remote r) fun f => { f with relayQueue := ms, emission := some e }).unDue
          (.sender (.remote r)))) ∧
      (∀ x xs, s.svc.refused.get r = x :: xs → ms.length < 4 →
        ∃ t, exec (.arbiterMessageBoundary r) s = .next t ∧
          t.framer (.remote r) = { f with relayQueue := ms ++ [x], emission := some e } ∧
          t.svc.refused.get r = xs ∧ (∀ y, y ≠ r → t.svc.refused.get y = s.svc.refused.get y) ∧
          t = { s with links := t.links, svc := t.svc, boundary := t.boundary } ∧
          (∀ k, k ≠ .remote r → t.framer k = s.framer k) ∧ t.svc.pass = s.svc.pass ∧ t.svc.input = s.svc.input ∧
          (x.copy = false → t.svc.setRelay = s.svc.setRelay ∧ t.svc.filled = s.svc.filled) ∧
          (x.copy = true → ∀ v, s.svc.setRelay = some v →
            (v.remaining.erase r ≠ [] →
              t.svc.setRelay = some { v with remaining := v.remaining.erase r } ∧ t.svc.filled = s.svc.filled) ∧
            (v.remaining.erase r = [] → t.svc.setRelay = none ∧
              (.setRelay ∈ s.svc.reserved →
                t.svc.filled = s.svc.filled ++ [⟨v.link, v.tag, v.kind, .done, [], false⟩] ∧
                t.svc.reserved = s.svc.reserved.erase .setRelay))))

/-! ## Timers -/

/-- An event of a boundary, or one that follows from another, occurs only when it has fallen due (log entry 2):
otherwise its command leaves the state as it is. -/
def Obligations.NothingHappensBeforeItFallsDue : Prop :=
  ∀ s : State,
    (∀ n, .donorGrace n ∉ s.boundary.due → exec (.donorGraceExpiry n) s = .next s) ∧
    (∀ r, .linkGrace r ∉ s.boundary.due → exec (.linkGraceExpiry r) s = .next s) ∧
    (.poll ∉ s.boundary.due → exec .pollEvent s = .next s) ∧
    (∀ r, .flap r ∉ s.boundary.due → exec (.flapDecayExpiry r) s = .next s) ∧
    (.rampStep ∉ s.boundary.due → exec .rampStepEvent s = .next s) ∧
    (.window ∉ s.boundary.due → exec (.windowEnd .whole) s = .next s ∧ exec (.windowEnd .meter) s = .next s) ∧
    (.spread ∉ s.boundary.due → exec (.windowEnd .spread) s = .next s) ∧
    (.startRequest ∉ s.boundary.due → exec (.windowEnd .start) s = .next s) ∧
    (.pacing ∉ s.boundary.due → exec .pacingTimerExpiry s = .next s) ∧
    (∀ r, .passTimeout r ∉ s.boundary.due → exec (.passTimeout r) s = .next s) ∧
    (∀ r, .retryEnd r ∉ s.boundary.due → exec (.passRetryDelayEnd r) s = .next s) ∧
    (.schedule ∉ s.boundary.due → exec .scheduleDue s = .next s) ∧
    (.retest ∉ s.boundary.due → exec .dueWaitingRetest s = .next s) ∧
    (.switch ∉ s.boundary.due → exec .switch s = .next s ∧ exec .batchSwitch s = .next s) ∧
    (∀ r, (∀ tag, .sent r tag ∉ s.boundary.due) → exec (.relayedMessageSent r) s = .next s) ∧
    (.restart ∉ s.boundary.due → exec .restartTakesEffect s = .next s)

/-- The expiries of the donor grace, pacing, flap decay and link grace timers, where they are due (R28, R123, R130,
R131, R132, R144). A donor link is muted, and DONOR-LOST names its enabled carriers, if it has any, one bit each; the
pacing count becomes 0 and a notice is offered when the three conditions hold; the flap counter goes down by 1 and its
timer starts again while the counter is above 0; the link grace timer is idle, and a remote in service enters LOST
with cause LINK, or at the flap limit ISOLATED, with the departure's effects (`Departed`), on a move in progress too
under the laws of the device (`EngineFollows`). -/
def Obligations.TimersExpire : Prop :=
  ∀ s : State,
    (∀ n, .donorGrace n ∈ s.boundary.due →
      exec (.donorGraceExpiry n) s = .next { s.unDue (.donorGrace n) with
        dist := { s.dist with donors := s.dist.donors.set n ⟨none, true, decide (s.donorCarriers n ≠ 0)⟩ }
        events := if s.donorCarriers n = 0 then s.events
          else s.events.post .donorLost (.donor n) none (word16 (s.donorCarriers n)) s.now } ∧
      s.donorCarriers n < 4096 ∧
      ∀ c : CarrierId, (s.donorCarriers n).testBit c.val =
        ((s.carrier c).enabled && decide ((s.carrier c).donor = n))) ∧
    (.pacing ∈ s.boundary.due →
      exec .pacingTimerExpiry s = .next { s.unDue .pacing with
        events := { s.events with
          pacing := 0
          offer := s.events.offer ||
            (s.settings.notices && s.locked .service && decide (s.events.records ≠ [])) } }) ∧
    (∀ r, .flap r ∈ s.boundary.due →
      exec (.flapDecayExpiry r) s = .next ((s.unDue (.flap r)).modSup r fun v =>
        { v with flap := v.flap - 1, decay := if 1 < v.flap then some 0 else none })) ∧
    ∀ r, .linkGrace r ∈ s.boundary.due →
      let v := s.supRec r
      let u := s.unDue (.linkGrace r)
      let flap := min 15 (v.flap + 1)
      let decay := if v.flap = 0 then some 0 else v.decay
      let lost := s.events.post .remoteLost (.remote r) none 1 s.now
      (s.serviced r = false → exec (.linkGraceExpiry r) s = .next (u.modSup r fun v => { v with grace := none })) ∧
      (s.serviced r = true → ∃ t, exec (.linkGraceExpiry r) s = .next t ∧
        (flap < s.settings.flapLimit → Departed r .lost (some .link)
          { (u.modSup r fun v => { v with flap := flap, decay := decay }) with events := lost } t) ∧
        (s.settings.flapLimit ≤ flap → Departed r .isolated (some .flapping)
          { (u.modSup r fun v => { v with flap := flap, decay := decay }) with
            events := lost.post .remoteIsolated (.remote r) none 1 s.now } t) ∧
        (s.engine.lawful → s.engine.MoveLaw → s.SupervisionLaw → EngineFollows r
          { s with events := (if flap < s.settings.flapLimit then lost
            else lost.post .remoteIsolated (.remote r) none 1 s.now) } t))

/-- The poll event, where it is due (R122, R130, R132): the count is 0 and the requested P in force. A remote
that is VACANT or whose link is not LOCKED is left alone. Every other one misses a poll if one was awaited; if
it is in service with the miss limit reached it leaves service with cause NO-REPLY, or at the flap limit
FLAPPING, at present gain 0; and in any case it is polled. The ports follow one another, u k being the state before
port k: each loss posts REMOTE-LOST with detail 2 and at the flap limit REMOTE-ISOLATED with detail 1, and has the
departure's effects (`Departed`: stale records, the pass-through, the settling), on a move in progress too under the
laws of the device (`EngineFollows`). That the ports come in ascending order is the model's choice (log entries 10 and
25). -/
def Obligations.PollEventPollsEveryRemote : Prop :=
  ∀ s : State, .poll ∈ s.boundary.due → ∃ (t : State) (u : Nat → State), exec .pollEvent s = .next t ∧ Spares s t ∧
    t.sup.pollCount = 0 ∧ t.sup.pollForce = s.settings.poll ∧
    u 0 = { s.unDue .poll with sup := { s.sup with pollCount := 0, pollForce := s.settings.poll } } ∧ u 16 = t ∧
    ∀ r : RemoteId,
      let v := s.supRec r
      let f := s.framer (.remote r)
      let miss := if v.awaiting then min 15 (v.miss + 1) else v.miss
      let flap := min 15 (v.flap + 1)
      let quiet := v.health = .vacant ∨ f.rx ≠ .locked
      let lost := s.serviced r = true ∧ s.settings.missLimit ≤ miss
      (quiet → v.Follows (t.supRec r) ∧ t.framer (.remote r) = f ∧ (t.ramp r).present = (s.ramp r).present) ∧
      (¬quiet → ¬lost → SupRecord.Follows { v with miss := miss, awaiting := true } (t.supRec r) ∧
        t.framer (.remote r) = { f with pollPlace := true } ∧ (t.ramp r).present = (s.ramp r).present) ∧
      (¬quiet → lost →
        SupRecord.Follows { v with
          health := if flap < s.settings.flapLimit then .lost else .isolated
          cause := some (if flap < s.settings.flapLimit then .noReply else .flapping)
          miss := miss, awaiting := true, grace := none
          flap := flap, decay := if v.flap = 0 then some 0 else v.decay } (t.supRec r) ∧
        (t.framer (.remote r)).pollPlace = true ∧ (t.ramp r).present = 0 ∧ t.svc.pass.get r = none) ∧
      (∀ c, t.activity r c = { s.activity r c with
        stale := (s.activity r c).stale || decide (¬quiet ∧ lost) }) ∧
      (let p := u r.val
       let polled (w : State) : State := (w.modFramer (.remote r) fun f => { f with pollPlace := true }).modSup r
         fun v => { v with awaiting := true }
       let missed := p.modSup r fun v => { v with miss := miss }
       let gone := missed.modSup r fun v => { v with flap := flap, decay := if v.flap = 0 then some 0 else v.decay }
       let q := p.events.post .remoteLost (.remote r) none 2 s.now
       let q' := q.post .remoteIsolated (.remote r) none 1 s.now
       (quiet → u (r.val + 1) = p) ∧
       (¬quiet → ¬lost → u (r.val + 1) = polled missed) ∧
       (¬quiet → lost → ∃ w, u (r.val + 1) = polled w ∧
         (flap < s.settings.flapLimit → Departed r .lost (some .noReply) { gone with events := q } w) ∧
         (s.settings.flapLimit ≤ flap → Departed r .isolated (some .flapping) { gone with events := q' } w) ∧
         (s.engine.lawful → s.engine.MoveLaw → s.SupervisionLaw → EngineFollows r
           { p with events := if flap < s.settings.flapLimit then q else q' } w)))

/-- A ramp step, where it is due (R33, R35, R125): every ramp in progress moves by the ramp step toward its
target and no further; the others stand. That the ramp step is the one that stands when the event is taken is the model's
choice (log entry 35). Then the completion notices settle, and a remote that was JOINING and
not held, whose ramp completed, is SERVING or IMPAIRED, and REMOTE-JOINED is posted with detail 0 or 1; a degraded flag
that this changes is reported (`Settles`, R136). Under the laws of the device the remotes whose ramps
completed leave the phase set, and its last one takes FADE-OUT to SWITCH-PENDING and ends a move in FADE-IN with
DONE and in RECOVERING with ABORTED (R77, R79, R82, R84, R86). -/
def Obligations.RampStepMovesEveryRamp : Prop :=
  ∀ s : State, .rampStep ∈ s.boundary.due → ∃ t, exec .rampStepEvent s = .next t ∧
    (let k := s.settings.rampStep
     let moved (p : Ramp) : Nat :=
       if p.done then p.present
       else if p.present ≤ p.target then min p.target (p.present + k) else max p.target (p.present - k)
     Settles { s.unDue .rampStep with dist := { s.dist with
       ramps := s.dist.ramps.map fun p => ⟨moved p, p.target, p.done || decide (moved p = p.target)⟩ } } t ∧
     (∀ r, (t.ramp r).present = moved (s.ramp r)) ∧
     (∀ r, s.health r = .joining → (s.supRec r).held = false → (s.ramp r).done = false →
       moved (s.ramp r) = (s.ramp r).target →
       let bad := (s.supRec r).alarms.outA != (s.supRec r).alarms.outB || (s.supRec r).alarms.hot
       t.health r = (if bad then .impaired else .serving) ∧
         s.events.Reports .remoteJoined (.remote r) (if bad then 1 else 0) s.now t.events) ∧
     (s.engine.lawful → s.engine.MoveLaw → s.SupervisionLaw →
       let left := s.engine.phaseSet.filter fun r => decide (moved (s.ramp r) ≠ (s.ramp r).target)
       (s.engine.state = .idle ∨ s.engine.state = .switchPending → t.engine = s.engine) ∧
       (s.engine.state = .fadeOut → t.engine = { s.engine with
         phaseSet := left, state := if left = [] then .switchPending else .fadeOut }) ∧
       ∀ m, s.engine.record = some m → s.engine.state = .fadeIn ∨ s.engine.state = .recovering →
         (left ≠ [] → t.engine = { s.engine with phaseSet := left }) ∧
         (left = [] → m.Ended (if s.engine.state = .fadeIn then .done else .aborted) s t)))

/-- A window end, where it is due (R57, R64 to R69): every activity record settles, the loads of remotes,
sectors and carriers are published from the settled records, the sequence goes up, the requested W is in force
and the next window begins; the window counts of the Combiner are cleared. That a record which measured frames
settles with stale no, also where its carrier left the map in that window, is the model's choice between R65 and R71
(log entry 28). The Meter's part alone does the same and leaves the Spreader's part due, with the Spreader and the
engine as they were (log entry 32). That a window end taken before the blocks act on its boundary computes the remote
loads with the lane maps of the boundary before is the model's choice (log entry 2). -/
def Obligations.WindowEndPublishesTheLoads : Prop :=
  ∀ (s : State) (part : WindowPart), .window ∈ s.boundary.due → part = .whole ∨ part = .meter →
    ∃ t p, exec (.windowEnd part) s = .next t ∧ t.meter.published = some p ∧
    (part = .meter → .spread ∈ t.boundary.due ∧ t.spreader = s.spreader ∧ t.engine = s.engine ∧ t.dist = s.dist ∧
      t.sup = s.sup) ∧
    (∀ r c, t.activity r c =
      let a := s.activity r c
      let m := a.minLevel.getD a.floor
      if a.frames = 0 then { a with stale := true, busy := 0, minLevel := none }
      else ⟨if m < a.floor then m else min (a.floor + 1) m, a.settled || decide (s.meter.window / 2 ≤ a.frames),
        0, 0, none, 1000 * a.busy / a.frames, false⟩) ∧
    (let counted (r : RemoteId) (c : CarrierId) : Nat := if (t.activity r c).stale then 0 else (t.activity r c).occupancy
     let active (x : SectorId) : List RemoteId :=
       (List.finRange 16).filter fun r => decide (s.sectorOf r = some x) && s.serviced r
     (∀ r, p.remote.get r = match s.serviced r && (s.live r).configured, s.sectorOf r with
       | true, some x => (((s.dist.maps.get x).filterMap id).map (counted r)).foldl max 0
       | _, _ => 0) ∧
     (∀ x, p.sector.get x = ((active x).map fun r => p.remote.get r).sum ∧ p.members.get x = (active x).length) ∧
     (∀ c, (p.carrier.get c = match (s.carrier c).enabled, (s.carrier c).sector with
       | true, some x => ((active x).map fun r => counted r c).sum
       | _, _ => 0) ∧ p.labels.get c = ((s.carrier c).tag, (s.carrier c).sector)) ∧
     ∀ r, p.health.get r = s.health r) ∧
    p.startFc = s.meter.startFc ∧ p.endFc = s.now ∧ p.window = s.meter.window ∧ p.seq = (s.meter.seq + 1) % 65536 ∧
    t.meter.seq = p.seq ∧ t.meter.window = s.settings.window ∧ t.meter.count = 0 ∧ t.meter.startFc = s.now ∧
    (∀ r, t.comb.window.get r = ⟨0, none, 0⟩) ∧ (∀ c, t.comb.windowClips.get c = 0) ∧
    t.comb.counters = s.comb.counters ∧ t.comb.clips = s.comb.clips ∧ t.comb.queues = s.comb.queues ∧
    t.settings = s.settings ∧ t.loader = s.loader ∧ t.clock = s.clock ∧ t.links = s.links ∧ t.svc = s.svc ∧
    t.store = s.store ∧ t.map = s.map

/-- The Spreader's work at a window end (R57, R91 to R102), taken with the Meter's or as a part of its own on the loads
published: the settled condition, and both kinds of streak, are brought up to date whatever follows, from the health
and the live map as they stand when it is taken (R91). With the gate failed, for the first reason that applies,
nothing starts. Otherwise relief takes the eligible source sector of the largest excess, and of its candidates, in the
order of R97, the first with a fitting alternate is to move there; where none does, SPREAD-BLOCKED is posted with its
reason. Homing follows when relief asks for nothing: the remote of the largest streak at or above the hold is to move
home. In IDLE the engine takes the start request: the move is held, faded and entered in the engine as R75 and R77 say
(`Started`), and the streak that called for it is cleared; in any other state the start is refused, and the streak is
kept. The last decision says what came of it. Taken whole, the window end is its three parts with nothing in between,
so that its own start is not refused. That it has these parts is the model's choice (log entry 32). The window
alarms are posted before, by carrier and then by remote in ascending order, LATE-UPLINK of a port before its LOW-MARGIN, and before SPREAD-BLOCKED:
that order
within one event is the model's choice too (log entries 10 and 25). -/
def Obligations.WindowEndEvaluatesSpreading : Prop :=
  (∀ (s : State) (part : WindowPart),
    part = .whole ∧ .window ∈ s.boundary.due ∨
      part = .spread ∧ .spread ∈ s.boundary.due ∧ s.meter.published ≠ none →
    ∃ t p, exec (.windowEnd part) s = .next t ∧ t.meter.published = some p ∧
    (part = .whole → p.startFc = s.meter.startFc ∧ p.endFc = s.now) ∧
    (part = .spread → s.meter.published = some p) ∧
    (let settled := ∀ e, s.spreader.lastEnd = some e → isAfter p.startFc e = true
     let alarmed := if part = .spread then s.events else
       let q := (List.finRange 12).foldl (fun (q : EventQueue) c =>
         if s.settings.clipLimit ≠ 0 ∧ s.settings.clipLimit < s.comb.windowClips.get c then
           q.post .uplinkClipping (.carrier c) (some (s.carrier c).tag) (word16 (s.comb.windowClips.get c)) s.now
         else q) s.events
       (List.finRange 16).foldl (fun (q : EventQueue) r =>
         let w := s.comb.window.get r
         let q := if s.settings.lateLimit ≠ 0 ∧ s.settings.lateLimit < w.late then
             q.post .lateUplink (.remote r) none (word16 w.late) s.now
           else q
         if w.minLead = some 0 then q.post .lowMargin (.remote r) none (word16 w.zeroLead) s.now else q) q
     let live (x : SectorId) := s.map.sectors.get x
     let carried (x : SectorId) : Prop := ∃ c, (s.carrier c).enabled = true ∧ (s.carrier c).sector = some x
     let unboosted (x : SectorId) (r : RemoteId) : Prop := (s.supRec r).sources = [] ∧
       ∀ z, s.sectorOf z = some x → s.health z = .lost ∨ s.health z = .isolated → r ∉ (s.live z).partners
     let spare (x : SectorId) : Prop := (live x).minimum + 1 ≤ s.servingNow x
     let homeward (r : RemoteId) (x h : SectorId) : Prop :=
       s.sectorOf r = some x ∧ (s.map.remotes.get r).home = some h ∧ h ≠ x ∧ (s.live r).configured = true ∧
       s.health r = .serving ∧ unboosted x r ∧ (live h).destination = true ∧ carried h ∧
       p.sector.get h + p.remote.get r ≤ (live h).ceiling * 3 / 4 ∧ spare x
     let idle := t.engine = s.engine ∧ t.sup = s.sup ∧ t.dist = s.dist
     let decides (res : Result) : Prop :=
       t.spreader.request = none ∧ t.spreader.decision = some ⟨p.seq, p.endFc, res⟩
     (t.spreader.settled = some true ↔ settled) ∧ (settled → t.spreader.lastEnd = none) ∧
     (¬settled → t.spreader.lastEnd = s.spreader.lastEnd) ∧
     ∃ (high : SectorId → Nat) (home : RemoteId → Nat),
     (∀ x, ((live x).ceiling < p.sector.get x → high x = min 15 (s.spreader.overload.get x + 1)) ∧
       (p.sector.get x ≤ (live x).ceiling → high x = 0)) ∧
     (∀ r, ((∃ x h, homeward r x h) → home r = min 15 (s.spreader.homing.get r + 1)) ∧
       ((¬∃ x h, homeward r x h) → home r = 0)) ∧
     (let kept := (∀ x, t.spreader.overload.get x = high x) ∧ ∀ r, t.spreader.homing.get r = home r
      let waits := ∃ c, s.store.schedule = some c ∧ c.waiting = true
      let fails (g : GateReason) : Prop := decides (.notEvaluated g) ∧ idle ∧ t.events = alarmed ∧ kept
      let on := s.settings.autoSpread = true
      let free := s.engine.state = .idle
      (¬on → fails .disabled) ∧ (on → ¬free → fails .engineBusy) ∧
      (on → free → waits → fails .scheduleWaiting) ∧ (on → free → ¬waits → ¬settled → fails .unsettled) ∧
      (on → free → ¬waits → settled →
        let eligible (x : SectorId) : Prop := s.settings.overloadHold ≤ high x ∧ (live x).source = true
        let excess (x : SectorId) : Int := (p.sector.get x : Int) - (live x).ceiling
        let source (x : SectorId) : Prop := eligible x ∧
          ∀ y, eligible y → excess y < excess x ∨ (excess y = excess x ∧ x ≤ y)
        let candidate (x : SectorId) (r : RemoteId) : Prop :=
          s.sectorOf r = some x ∧ s.health r = .serving ∧ unboosted x r ∧ 0 < p.remote.get r
        let fits (x : SectorId) (r : RemoteId) (y : SectorId) : Prop := y ≠ x ∧ (live y).destination = true ∧
          carried y ∧ p.sector.get y + p.remote.get r ≤ (live y).ceiling
        let sooner (z r : RemoteId) : Prop :=
          p.remote.get r < p.remote.get z ∨ (p.remote.get z = p.remote.get r ∧ z < r)
        let first (x : SectorId) (r : RemoteId) (y : SectorId) : Prop := candidate x r ∧
          (∀ z, candidate x z → sooner z r → ∀ a ∈ (s.live z).alternates, ¬fits x z a) ∧
          ∃ before after, (s.live r).alternates = before ++ y :: after ∧ fits x r y ∧ ∀ a ∈ before, ¬fits x r a
        let asks (k : SpreadKind) (r : RemoteId) (x y : SectorId) (started : MoveKind × Result) (cleared : Prop) : Prop :=
          (part = .whole → decides started.2 ∧ cleared ∧
            Started ⟨started.1, none, [⟨r, some x, .sector y⟩], s.now, none, none, [r]⟩ none
              { t with engine := s.engine, dist := s.dist, sup := s.sup } t) ∧
          (part = .spread → t.spreader.request = some ⟨k, r, x, y, p.seq, p.endFc⟩ ∧ .startRequest ∈ t.boundary.due ∧
            t.spreader.decision = s.spreader.decision ∧ idle ∧ kept)
        let homing (q : EventQueue) (res : Result) : Prop :=
          let due (r : RemoteId) : Prop := s.settings.homingHold ≤ home r ∧ 0 < home r
          let chosen (r : RemoteId) : Prop := due r ∧ ∀ z, due z → home z < home r ∨ (home z = home r ∧ r ≤ z)
          t.events = q ∧ ((∀ r, ¬due r) → decides res ∧ idle ∧ kept) ∧
          ∀ r, chosen r → ∃ x h, homeward r x h ∧ asks .homing r x h (.homing, .homing r x h)
            ((∀ y, t.spreader.overload.get y = high y) ∧
              ∀ z, t.spreader.homing.get z = if z = r then 0 else home z)
        let blocked (x : SectorId) (b : BlockReason) (n : BitVec 16) : Prop :=
          homing (alarmed.post .spreadBlocked (.sector x) none n s.now) (.blocked x b)
        ((∀ x, ¬eligible x) → homing alarmed .noAction) ∧
        ∀ x, source x →
          ((∀ r, ¬candidate x r) → blocked x .noCandidate 1) ∧
          ((∃ r, candidate x r) → ¬spare x → blocked x .minimum 2) ∧
          ((∃ r, candidate x r) → spare x →
            (∀ r, candidate x r → ∀ a ∈ (s.live r).alternates, ¬fits x r a) → blocked x .noRoom 3) ∧
          ∀ r y, spare x → first x r y → t.events = alarmed ∧ asks .relief r x y (.auto, .relief r x y)
            ((∀ z, t.spreader.overload.get z = if z = x then 0 else high z) ∧
              ∀ z, t.spreader.homing.get z = home z))))) ∧
  (∀ (s : State) (q : StartRequest), .startRequest ∈ s.boundary.due → s.spreader.request = some q →
    let u := { s.unDue .startRequest with spreader := { s.spreader with request := none } }
    let told (res : Result) : Spreader := { u.spreader with decision := some ⟨q.seq, q.endFc, res⟩ }
    (s.engine.state ≠ .idle → exec (.windowEnd .start) s =
      .next { u with spreader := told (.refused q.remote q.source q.dest) }) ∧
    (s.engine.state = .idle → ∃ t, exec (.windowEnd .start) s = .next t ∧
      Started ⟨match q.kind with | .relief => .auto | .homing => .homing, none,
        [⟨q.remote, s.sectorOf q.remote, .sector q.dest⟩], s.now, none, none, [q.remote]⟩ none
        { u with spreader := t.spreader } t ∧
      t.spreader = match q.kind with
        | .relief => { told (.relief q.remote q.source q.dest) with overload := s.spreader.overload.set q.source 0 }
        | .homing => { told (.homing q.remote q.source q.dest) with homing := s.spreader.homing.set q.remote 0 })) ∧
  ∀ s : State, .window ∈ s.boundary.due → .spread ∉ s.boundary.due → .startRequest ∉ s.boundary.due →
    ∃ u v, exec (.windowEnd .meter) s = .next u ∧ exec (.windowEnd .spread) u = .next v ∧
      exec (.windowEnd .whole) s = exec (.windowEnd .start) v

/-- Pass timeout, retry delay and sent report, where they are due (R17, R161, R162). The timeout ends an AWAITING
pass-through with TIMEOUT; the end of the delay offers the new attempt, which is accepted or at a full relay
queue kept; a sent report with the relay tag of the current attempt begins the wait, any other is ignored, as is that
of a copy or of an ended attempt on a port whose slot is idle. -/
def Obligations.PassThroughTimersRun : Prop :=
  ∀ (s : State) (r : RemoteId),
    (s.svc.pass.get r = none →
      (∀ tag, .sent r tag ∈ s.boundary.due → (∀ x, .sent r x ∈ s.boundary.due → x = tag) →
        exec (.relayedMessageSent r) s = .next (s.unDue (.sent r tag))) ∧
      (.passTimeout r ∈ s.boundary.due → exec (.passTimeout r) s = .next (s.unDue (.passTimeout r))) ∧
      (.retryEnd r ∈ s.boundary.due → exec (.passRetryDelayEnd r) s = .next (s.unDue (.retryEnd r)))) ∧
    ∀ p : Pass, s.svc.pass.get r = some p →
    (.passTimeout r ∈ s.boundary.due → ∀ n, p.phase = .awaiting n → ∃ t, exec (.passTimeout r) s = .next t ∧
      t = { s with links := t.links, svc := t.svc, boundary := t.boundary } ∧ t.svc.pass.get r = none ∧
      (t.svc.portCounts.get r).timeouts = min 65535 ((s.svc.portCounts.get r).timeouts + 1) ∧
      (.pass r ∈ s.svc.reserved →
        t.svc.filled = s.svc.filled ++ [⟨p.link, p.tag, p.kind, .timeout, [], false⟩] ∧
        t.svc.reserved = s.svc.reserved.erase (.pass r)) ∧
      (∀ k, k ≠ .remote r → t.framer k = s.framer k) ∧
      ∀ x, x ≠ r → t.svc.pass.get x = s.svc.pass.get x ∧ t.svc.portCounts.get x = s.svc.portCounts.get x) ∧
    (.retryEnd r ∈ s.boundary.due → ∀ d, p.phase = .sending (some d) →
      let attempt : Relayed := ⟨false, p.relayTag, p.kind, p.body⟩
      let u := s.unDue (.retryEnd r)
      let v : Service := { s.svc with pass := s.svc.pass.set r (some { p with phase := .sending none }) }
      ((s.framer (.remote r)).relayQueue.length < 4 → exec (.passRetryDelayEnd r) s =
        .next { u.modFramer (.remote r) fun f => { f with relayQueue := f.relayQueue ++ [attempt] } with svc := v }) ∧
      (4 ≤ (s.framer (.remote r)).relayQueue.length → exec (.passRetryDelayEnd r) s =
        .next { u with svc := { v with refused := v.refused.modify r fun xs => xs ++ [attempt] } })) ∧
    ∀ tag, .sent r tag ∈ s.boundary.due → (∀ x, .sent r x ∈ s.boundary.due → x = tag) →
      (tag ≠ p.relayTag → exec (.relayedMessageSent r) s = .next (s.unDue (.sent r tag))) ∧
      (tag = p.relayTag → exec (.relayedMessageSent r) s = .next { s.unDue (.sent r tag) with
        svc := { s.svc with pass := s.svc.pass.set r (some { p with phase := .awaiting 0 }) } })

/-! ## Moves, plans and schedules -/

/-- A schedule's test at its boundary and at the engine's return to IDLE, where they are due (R74, R81, R112,
R116): a plan that is not valid aborts it, an IDLE engine takes the batch and the schedule record goes, and a
busy engine leaves it due-waiting. -/
def Obligations.ScheduleIsTestedWhenDue : Prop :=
  ∀ (s : State) (k : Schedule) (e : Due) (c : Instr), s.store.schedule = some k → e ∈ s.boundary.due →
    ((e = .schedule ∧ c = .scheduleDue ∧ k.waiting = false ∧ atOrAfter s.now k.dueFc = true) ∨
      (e = .retest ∧ c = .dueWaitingRetest ∧ k.waiting = true)) →
    let u := s.unDue e
    let plan := s.store.plans.get k.plan
    (plan.valid = false → exec c s = .next { u with
      store := { s.store with schedule := none }
      events := s.events.post .cutoverAborted (.plan k.plan) none 4 s.now }) ∧
    (plan.valid = true → s.engine.state ≠ .idle → exec c s =
      .next { u with store := { s.store with schedule := some { k with waiting := true } } }) ∧
    (plan.valid = true → s.engine.state = .idle → ∃ t,
      Started (s.batchTo k.plan) (some ⟨plan.remotes, plan.sectors⟩) u t ∧
      exec c s = .next { t with store := { s.store with schedule := none } })

/-- The switch of a single move, where it is due (R47, R78, R79): the remote's membership changes at this boundary
with its switch history, a MANUAL move sets the diverged flag, every hold is released, and the remote ramps toward
its normal target; the engine is in FADE-IN, or the move has ended DONE at once, exactly when its present gain is at
that target already (the target of a JOINING remote being the one it has before it serves). A degraded flag that
changes is reported with the serving count of the new members, and so is a remote that joins (R125, R136); that the
from sector's flag comes before the to sector's is the model's choice (log entry 25). That SWITCH leaves a
batch alone and BATCH_SWITCH a single move is the model's reading of the two rows (log entry 26). -/
def Obligations.SwitchChangesMembership : Prop :=
  ∀ (s : State) (m : MoveRecord) (r : RemoteId) (x : Option SectorId) (y : SectorId) (ps : List Place),
    s.engine.record = some m →
    (m.kind = .batch → exec .switch s = .next s) ∧
    (m.kind ≠ .batch → exec .batchSwitch s = .next s) ∧
    (m.kind ≠ .batch → m.places = ⟨r, x, .sector y⟩ :: ps → s.engine.state = .switchPending →
      .switch ∈ s.boundary.due → ∃ t, exec .switch s = .next t ∧ Spares s t ∧
        t.map = { s.map with
          remotes := s.map.remotes.modify r fun v => { v with entry := { v.entry with sector := some y } }
          diverged := s.map.diverged || decide (m.kind = .manual) } ∧
        t.comb.history.get r = ⟨s.sectorOf r, some (s.comb.history.get r).switchFc, s.now⟩ ∧
        (∀ z, z ≠ r → t.comb.history.get z = s.comb.history.get z) ∧
        (∀ z, (s.supRec z).Follows (t.supRec z) ∧ (t.ramp z).present = (s.ramp z).present) ∧
        (∀ z ∈ s.engine.holdSet, (t.supRec z).held = false) ∧ (t.ramp r).target = t.targetOf r ∧
        (let goal := if s.health r = .joining then
             (if (s.supRec r).alarms.hot then (s.live r).baseGain * 3 / 4 else min 1023 (s.live r).baseGain)
           else t.targetOf r
         ((s.ramp r).present ≠ goal →
           t.engine = ⟨.fadeIn, some { m with switchFc := some s.now }, [r], [], none⟩) ∧
         ((s.ramp r).present = goal → m.Ended .done s t)) ∧
        t.meter = s.meter ∧ t.links = s.links ∧ t.svc = s.svc ∧ EventQueue.Posted settlingKinds s.events t.events ∧
        s.JoinsReported t ∧
        s.FlagsReported t fun z => ((t.members z).filter fun w => (s.health w).serves).length)

/-- The switch of a batch, where it is due (R47, R83, R84, R94, R113, R114, R121, R128): the pending map replaces
the live map whole at this boundary. Histories are written where membership changes; that a changed remote whose
sector stays none keeps its history is the model's choice between R47 and R83 (log entry 13). Homing streaks are
cleared where the home changes; a remote that becomes unconfigured is VACANT with all that the Supervisor holds for it at
reset values and its effective mode the configured one, and its open pass-through is answered ABORTED (R163; that these
answers come in ascending order of port is the model's choice, log entry 25); one that becomes configured is WAITING;
both are at zero gain. Every other keeps its health and gain, with its effective mode derived afresh. A degraded flag
that changes is reported with the serving count of the new map, and so is a remote that joins (R125, R136). Every hold is
released, and the engine is in FADE-IN, or the batch has ended DONE with its plan active. Under the laws of the
device the phase set holds the fading remotes that stay configured and whose present gain is not at their target
(that of a JOINING remote being the one it has before it serves), and the batch ends at once exactly when there are
none. -/
def Obligations.BatchSwitchReplacesTheLiveMap : Prop :=
  ∀ (s : State) (m : MoveRecord) (new : PlanMap), s.engine.record = some m → m.kind = .batch →
    s.engine.state = .switchPending → s.engine.pendingMap = some new → .switch ∈ s.boundary.due →
    ∃ t, exec .batchSwitch s = .next t ∧ Spares s t ∧ t.map.sectors = new.sectors ∧
    (∀ r : RemoteId,
      let e := new.remotes.get r
      let place := if e.configured then e.sector else none
      let v := s.supRec r
      let was := (s.live r).configured
      t.map.remotes.get r = ⟨{ e with sector := place }, place⟩ ∧
      t.comb.history.get r = (if s.sectorOf r = place then s.comb.history.get r
        else ⟨s.sectorOf r, some (s.comb.history.get r).switchFc, s.now⟩) ∧
      t.spreader.homing.get r = (if (s.map.remotes.get r).home = place then s.spreader.homing.get r else 0) ∧
      (was = true → e.configured = false → t.health r = .vacant ∧ (t.ramp r).present = 0 ∧
        t.svc.pass.get r = none ∧ (∀ c, (t.activity r c).stale = true) ∧
        t.supRec r = { SupRecord.reset with mode := e.mode, held := (t.supRec r).held } ∧
        t.framer (.remote r) = (s.framer (.remote r)).withdrawn s.svc r) ∧
      (was = false → e.configured = true → t.health r = .waiting ∧ (t.ramp r).present = 0 ∧
        SupRecord.Follows { v with
          health := .waiting, cause := none, awaiting := v.awaiting || s.locked (.remote r)
          mode := v.alarms.effective e.mode } (t.supRec r) ∧
        t.framer (.remote r) = { s.framer (.remote r) with
          pollPlace := (s.framer (.remote r)).pollPlace || s.locked (.remote r) }) ∧
      (was = e.configured → SupRecord.Follows { v with mode := v.alarms.effective e.mode } (t.supRec r) ∧
        (t.ramp r).present = (s.ramp r).present ∧ t.framer (.remote r) = s.framer (.remote r))) ∧
    t.svc = ((List.finRange 16).filter fun r => (s.live r).configured && !(new.remotes.get r).configured).foldl
      Service.aborted s.svc ∧
    s.JoinsReported t ∧
    (s.FlagsReported t fun x => ((List.finRange 16).filter fun r =>
      (s.live r).configured && (new.remotes.get r).configured && decide ((new.remotes.get r).sector = some x) &&
        (s.health r).serves).length) ∧
    (∀ z ∈ s.engine.holdSet, (t.supRec z).held = false) ∧ t.engine.holdSet = [] ∧
    (t.engine.state = .fadeIn ∧ t.engine.record = some { m with switchFc := some s.now } ∧
        t.engine.pendingMap = some new ∧ t.map.active = s.map.active ∧ t.map.diverged = s.map.diverged ∨
      t.engine = ⟨.idle, none, [], [], none⟩ ∧ t.map.active = m.plan ∧ t.map.diverged = false ∧
        t.spreader.lastEnd = some s.now) ∧
    (m.fading = [] → t.engine.state = .idle) ∧
    (s.engine.lawful → s.engine.MoveLaw → s.SupervisionLaw →
      let goal (r : RemoteId) : Nat := if s.health r = .joining then
          (if (s.supRec r).alarms.hot then (new.remotes.get r).baseGain * 3 / 4
            else min 1023 (new.remotes.get r).baseGain)
        else t.targetOf r
      let left := m.fading.filter fun r =>
        (new.remotes.get r).configured && decide ((s.ramp r).present ≠ goal r)
      (left ≠ [] → t.engine = ⟨.fadeIn, some { m with switchFc := some s.now }, left, [], some new⟩) ∧
      (left = [] → m.Ended .done s t)) ∧ EventQueue.Posted settlingKinds s.events t.events

/-! ## The configuration memory -/

/-- The end of a SAVE's write (R166, R168): a completion makes the snapshot the memory's image and answers DONE, a
failure leaves a partial image and answers ABORTED; either fills the place reserved for it, clears the saving
flag and is posted. After a RESTART, which freed the place, there is no response and the rest is the same. That
nothing happens with no SAVE running is the model's choice (log entry 3). -/
def Obligations.SaveEndsWithItsWrite : Prop :=
  ∀ s : State,
    (s.loader.snapshot = none → exec .saveWriteCompletion s = .next s ∧ exec .saveWriteFailure s = .next s) ∧
    ∀ m : Stored, s.loader.snapshot = some m →
      let completed : State := { s with
        loader := { s.loader with image := some .saved, snapshot := none, memory := .holds m }
        events := s.events.post .saveDone .hub none 0 s.now }
      let failed : State := { s with
        loader := { s.loader with image := some .saveFailed, snapshot := none, memory := .partialImage }
        events := s.events.post .saveFailed .hub none 0 s.now }
      ((∀ l tag, .save l tag ∉ s.svc.reserved) →
        exec .saveWriteCompletion s = .next completed ∧ exec .saveWriteFailure s = .next failed) ∧
      ∀ (before after : List Reservation) (l : MsgLink) (tag : Byte),
        s.svc.reserved = before ++ .save l tag :: after → (∀ b ∈ before, ∀ k x, b ≠ .save k x) →
        let answered (u : State) (st : Status) : State := { u with svc := { u.svc with
          filled := u.svc.filled ++ [⟨l, tag, 0x17, st, [], false⟩], reserved := before ++ after } }
        exec .saveWriteCompletion s = .next (answered completed .done) ∧
        exec .saveWriteFailure s = .next (answered failed .aborted)

/-- RESTART takes effect (R7, R29, R30, R36, R37, R42, R56, R59, R64, R69, R73, R89, R115, R119, R140, R150,
R158, R160, R167): every block sets its state as its chapter says, and the configuration, the frame clock, the
receive sides of the links, the donor loss state, the relay tags and the recorded frames stay. The live map is
loaded again at the next boundary. That the messages handed on and not yet taken are kept, that the old live map
stands until it is loaded, and that of the events already due the donor grace expiries and message boundaries alone
stay due, is the model's choice (log entry 18). -/
def Obligations.RestartResetsTheBlocks : Prop :=
  ∀ s : State, .restart ∈ s.boundary.due → ∃ t, exec .restartTakesEffect s = .next t ∧
    t.pending = s.pending ∧ t.loader = s.loader ∧ t.clock = s.clock ∧ t.settings = s.settings ∧
    (∀ l, t.framer l = { s.framer l with
      assembly := none, emission := none, pollPlace := false, relayQueue := [], counters := LinkCounters.zero }) ∧
    t.dist = { s.dist with ramps := Tab.const 16 ⟨0, 0, true⟩, clips := Tab.const 12 0 } ∧
    t.comb = { s.comb with
      queues := Tab.const 16 [], counters := Tab.const 16 UplinkCounters.zero, clips := Tab.const 12 0
      window := Tab.const 16 ⟨0, none, 0⟩, windowClips := Tab.const 12 0 } ∧
    (∀ r c, t.activity r c = ⟨125, false, 0, 0, none, 0, true⟩) ∧ t.meter.published = none ∧ t.meter.seq = 0 ∧
    t.meter.window = s.settings.window ∧ t.meter.firstNext = true ∧ t.meter.count = 0 ∧
    (∀ x, t.sup.degraded.get x = false ∧ t.sup.serving.get x = 0) ∧
    t.boundary = { s.boundary with due := s.boundary.due.filter fun d =>
      match d with | .donorGrace _ => true | .sender _ => true | _ => false } ∧
    t.map = { s.map with loadNext := true } ∧ t.engine = ⟨.idle, none, [], [], none⟩ ∧
    t.spreader = ⟨Tab.const 8 0, Tab.const 16 0, none, none, none, none⟩ ∧ t.store = { s.store with schedule := none } ∧
    (∀ r, t.supRec r = SupRecord.reset) ∧ t.sup.pollForce = s.settings.poll ∧ t.sup.pollCount = 0 ∧
    t.events = ⟨[], 0, 0, false, 0⟩ ∧ t.svc.input = [] ∧ t.svc.filled = [] ∧ t.svc.reserved = [] ∧
    (∀ r, t.svc.pass.get r = none ∧ t.svc.refused.get r = []) ∧ t.svc.setRelay = none ∧
    t.svc.relayTags = s.svc.relayTags ∧ t.svc.tap = .none ∧ t.svc.taking = false ∧
    t.svc.serviceCount = LinkService.zero ∧ (∀ n, t.svc.donorCounts.get n = LinkService.zero) ∧
    ∀ r, t.svc.portCounts.get r = PortService.zero

/-! ## Requests -/

/-- The reading requests change nothing but the queues and answer DONE with the content their rules list, field
by field in the order listed (R21, R58, R70, R71, R88, R102, R109, R110, R137, R152, R154, R156, R157, R159, R170), or
BAD-INDEX for an index outside its range (R21, R71, R109, R156). `B` is a byte, `W` a 2-byte and `L` a 4-byte value,
`Y` a yes or no field, `N` a field that may be none, `opt` an optional field (12.3). The model's own are, from log entry 15, the widths that 12.3 does not give (one byte for D in force, record,
queue, member and serving counts, streaks, levels, leads and codes, two for loads, occupancies, window counts, miss and
flap counters), the FFh of a plan that is none, the FEh of an unconfigured destination, the one presence byte of fields
that are absent together, the image state without its cause, the start marker byte within the part of READ-PLAN HEADER
and the orders the rules leave open, in READ-COUNTERS that of the links and that the groups go link by link, port by port
and carrier by carrier with the tag last; the code 0 of an image state that is absent (log entry 8); the tags and sectors of
carriers in READ-LOAD before the first window end (log entry 23); the lane maps (of R71's named byte too), applied mode
and D in force of the boundary before, where the blocks have still to act on the last one (log entry 2); a timer count
that does not fit (log entry 7); a minimum lead that does not fit (log entry 33); and the links group, longer than a
message may be (log entry 6). -/
def Obligations.ReadingRequestsReportTheState : Prop :=
  ∀ (s : State) (q : Request),
    let b := q.body
    let B (n : Nat) : List Byte := [BitVec.ofNat 8 n]
    let W (n : Nat) : List Byte := [BitVec.ofNat 8 (n / 256), BitVec.ofNat 8 n]
    let L (v : FC) : List Byte := W (v.toNat / 65536) ++ W v.toNat
    let Y (v : Bool) : List Byte := [if v then 1 else 0]
    let N (v : Option Nat) : List Byte := match v with | some n => B n | none => [0xFF]
    let opt (n : Nat) (v : Option (List Byte)) : List Byte :=
      match v with | some x => 1 :: x | none => 0 :: List.replicate n 0
    let label (n : Nat) (v : Option (List Byte)) : List Byte :=
      match v with | some t => B t.length ++ t ++ List.replicate (n - t.length) 0 | none => List.replicate (n + 1) 0
    let list (n : Nat) (xs : List Nat) : List Byte := B xs.length ++ xs.flatMap B ++ List.replicate (n - xs.length) 0
    let map (m : LaneMap) : List Byte := m.flatMap fun c => N (c.map Fin.val)
    let mode (m : Mode) : List Byte := B (match m with | .straight => 0 | .cross => 1 | .foldA => 2 | .foldB => 3)
    let timer (v : Option Nat) : List Byte := opt 2 (v.map fun n =>
      if n ≤ 65535 then W n else W (Config.wideTimerCount n).toNat)
    let carrier (k : Carrier) : List Byte := Y k.enabled ++ B k.donor.val ++ B k.slot.val ++ B k.tag.val ++
      N (k.sector.map Fin.val) ++ B (if k.twoBranches then 2 else 1) ++ W k.gain ++ B k.headroom
    let entry (e : RemoteEntry) : List Byte := Y e.configured ++ N (e.sector.map Fin.val) ++ W e.baseGain ++ W e.weight ++
      mode e.mode ++ list 3 (e.alternates.map Fin.val) ++ list 2 (e.partners.map Fin.val) ++ B e.boost ++
      opt 2 (e.position.map fun p => W p.toNat) ++ Y e.gatingAllowed
    let sector (e : SectorEntry) : List Byte :=
      W e.ceiling ++ B e.minimum ++ Y e.source ++ Y e.destination ++ Y e.gating
    let engine : List Byte :=
      B (match s.engine.state with | .idle => 0 | .fadeOut => 1 | .switchPending => 2 | .fadeIn => 3 | .recovering => 4) ++
      opt 11 (s.engine.record.map fun m =>
        B (match m.kind with | .manual => 0 | .auto => 1 | .homing => 2 | .batch => 3) ++ N (m.plan.map Fin.val) ++
        L m.startFc ++ opt 4 (m.switchFc.map L))
    let places : List Place := match s.engine.record with | some m => m.places | none => []
    let health (h : Health) : List Byte := B (match h with
      | .vacant => 0 | .waiting => 1 | .joining => 2 | .serving => 3 | .impaired => 4 | .lost => 5 | .isolated => 6)
    let grant (g : Grant) : Nat := match g with | .none => 0 | .read => 1 | .full => 2
    let image : Nat := match s.loader.image with
      | none => 0
      | some .loaded => 0
      | some (.defaulted _) => 1
      | some .saved => 2
      | some .saveFailed => 3
    let index (n : Nat) (k : Nat) (c : Instr) (content : Fin n → List Byte) : Prop :=
      (∀ i : Fin n, (byteAt b k).toNat = i.val → exec c s = .next (s.reported q (content i))) ∧
      (n ≤ (byteAt b k).toNat → exec c s = .next (s.turnedAway q .badIndex))
    (∀ k e z, encCarrier k = carrier k ∧ encEntry e = entry e ∧ encSectorEntry z = sector z) ∧
    (s.takes q 0x01 → exec .identify s = .next (s.reported q (W 0x5543 ++ W 0x0416 ++ B 1 ++
      label 32 s.loader.label ++ L s.now ++ N (s.clock.reference.map Fin.val) ++ Y (decide (s.clock.reference = none)) ++
      B s.comb.delay ++ opt 4 (s.comb.last.map L) ++ B s.events.records.length ++
      B (s.events.records.filter fun e => e.kind.urgent).length ++ W s.events.overflow ++ engine.take 1 ++
      B image ++
      Y s.loader.snapshot.isSome ++
      B (match q.link with | .service => 2 | .donor n => grant (s.settings.grants.get n))))) ∧
    (s.takes q 0x02 → exec .readSettings s = .next (s.reported q (s.settings.values.flatMap W)) ∧
      (let c := s.settings
       s.settings.values = [c.alignment, c.gateMargin, c.clipLimit, c.lateLimit, c.window, c.activityMargin, c.rampStep,
         c.rampInterval, match c.reference with | .auto => 0 | .link n => n.val + 1 | .none => 5, c.grace, c.poll,
         c.missLimit, c.flapLimit, c.flapPeriod, if c.autoSpread then 1 else 0, c.overloadHold, c.homingHold,
         if c.notices then 1 else 0, c.pacing, c.passTimeout, c.passRetries] ++
         (List.finRange 4).map fun n => grant (c.grants.get n))) ∧
    (s.takes q 0x04 → index 12 0 .readCarrier fun c => carrier (s.carrier c) ++
      Y ((s.carrier c).enabled && (s.dist.donors.get (s.carrier c).donor).muted)) ∧
    (s.takes q 0x06 →
      (byteAt b 1 = 0 → index 4 0 .readPlan fun p =>
        let plan := s.store.plans.get p
        let start := Y (decide (s.store.start = some p))
        Y plan.valid ++ start ++ label 16 plan.label ++ start ++ Y (decide (s.map.active = some p)) ++
          Y (s.store.schedule.any fun c => decide (c.plan = p))) ∧
      (byteAt b 1 = 1 → (4 ≤ (byteAt b 0).toNat → exec .readPlan s = .next (s.turnedAway q .badIndex)) ∧
        ∀ p : PlanId, (byteAt b 0).toNat = p.val →
          index 16 2 .readPlan fun r => entry ((s.store.plans.get p).remotes.get r)) ∧
      (byteAt b 1 = 2 → (4 ≤ (byteAt b 0).toNat → exec .readPlan s = .next (s.turnedAway q .badIndex)) ∧
        ∀ p : PlanId, (byteAt b 0).toNat = p.val →
          index 8 2 .readPlan fun x => sector ((s.store.plans.get p).sectors.get x))) ∧
    (s.takes q 0x08 →
      (byteAt b 0 = 0 → index 16 1 .readLive fun r =>
        let v := s.supRec r
        let h := s.comb.history.get r
        let e := s.comb.queues.get r
        let w := s.comb.window.get r
        let place := places.find? fun p => decide (p.remote = r)
        entry (s.live r) ++ N ((s.map.remotes.get r).home.map Fin.val) ++
        W (s.ramp r).present ++ W (s.ramp r).target ++ Y (s.ramp r).done ++ mode (s.dist.applied.get r) ++
        map (s.dist.lastMap.get r) ++
        B e.length ++ opt 4 (e.head?.map fun x => L x.number) ++ opt 4 (e.getLast?.map fun x => L x.number) ++
        N (h.previous.map Fin.val) ++ opt 4 (h.since.map L) ++ L h.switchFc ++ opt 1 (w.minLead.map B) ++ W w.late ++
        engine ++ opt 2 (place.map fun p => N (p.origin.map Fin.val) ++ match p.dest with
          | .sector y => B y.val | .none => [0xFF] | .unconfigured => [0xFE]) ++
        Y (s.engine.phaseSet.contains r) ++ Y (s.engine.holdSet.contains r) ++ B (s.spreader.homing.get r) ++
        health v.health ++ B (match v.cause with
          | none => 0 | some .link => 1 | some .noReply => 2 | some .output => 3 | some .identityChanged => 4
          | some .flapping => 1 | some .command => 2) ++
        W v.miss ++ Y v.awaiting ++ timer v.grace ++ W v.flap ++ timer v.decay ++ opt 4 (v.serial.map L) ++
        opt 2 (v.position.map fun p => W p.toNat) ++
        Y v.alarms.outA ++ Y v.alarms.outB ++ Y v.alarms.hot ++ Y v.alarms.supply ++
        opt 13 (v.report.map fun p => p.body ++ L p.arrival) ++ mode v.mode ++
        W (v.sources.foldl (fun m x => m ||| 2 ^ x.val) 0) ++ B v.boost ++ Y v.held) ∧
      (byteAt b 0 = 1 → index 8 1 .readLive fun x =>
        let at1 (v : Option Nat) : List Byte := opt 1 (v.map B)
        sector (s.map.sectors.get x) ++ map (s.dist.maps.get x) ++ Y (s.sup.degraded.get x) ++ B (s.sup.serving.get x) ++
        B (s.spreader.overload.get x) ++
        opt 17 (s.spreader.decision.map fun d => W d.seq ++ L d.endFc ++ match d.result with
          | .notEvaluated g => B 0 ++ at1 (some (match g with
              | .disabled => 0 | .engineBusy => 1 | .scheduleWaiting => 2 | .unsettled => 3)) ++
              at1 none ++ at1 none ++ at1 none ++ at1 none
          | .noAction => B 1 ++ at1 none ++ at1 none ++ at1 none ++ at1 none ++ at1 none
          | .relief r y z => B 2 ++ at1 none ++ at1 (some r.val) ++ at1 (some y.val) ++ at1 (some z.val) ++ at1 none
          | .homing r y z => B 3 ++ at1 none ++ at1 (some r.val) ++ at1 (some y.val) ++ at1 (some z.val) ++ at1 none
          | .blocked y k => B 4 ++ at1 none ++ at1 none ++ at1 (some y.val) ++ at1 none ++
              at1 (some (match k with | .noCandidate => 0 | .minimum => 1 | .noRoom => 2))
          | .refused r y z => B 5 ++ at1 none ++ at1 (some r.val) ++ at1 (some y.val) ++ at1 (some z.val) ++ at1 none) ++
        opt 1 (s.spreader.settled.map Y) ++ opt 4 (s.spreader.lastEnd.map L) ++ engine ++
        B (places.filter fun p => decide (p.origin = some x)).length ++
        B (places.filter fun p => decide (p.dest = .sector x)).length ++
        N (s.map.active.map Fin.val) ++ Y s.map.diverged ++ N (s.store.start.map Fin.val) ++
        opt 6 (s.store.schedule.map fun c => B c.plan.val ++ L c.dueFc ++ Y c.waiting))) ∧
    (s.takes q 0x0A →
      (byteAt b 0 = 0 → exec .readLoad s = .next (s.reported q (
        let p := s.meter.published
        let counted (x : SectorId) : Nat :=
          ((List.finRange 16).filter fun r => decide (s.sectorOf r = some x) && s.serviced r).length
        W s.meter.seq ++ opt 10 (p.map fun p => L p.startFc ++ L p.endFc ++ W p.window) ++
        W s.meter.window ++ W s.meter.count ++
        ((List.finRange 8).flatMap fun x =>
          W (match p with | some p => p.sector.get x | none => 0) ++
          B (match p with | some p => p.members.get x | none => counted x) ++ B (s.spreader.overload.get x)) ++
        ((List.finRange 12).flatMap fun c =>
          W (match p with | some p => p.carrier.get c | none => 0) ++
          B (match p with | some p => (p.labels.get c).1.val | none => (s.carrier c).tag.val) ++
          N (match p with | some p => (p.labels.get c).2.map Fin.val | none => (s.carrier c).sector.map Fin.val)) ++
        (List.finRange 16).flatMap fun r =>
          W (match p with | some p => p.remote.get r | none => 0) ++
          health (match p with | some p => p.health.get r | none => s.health r)))) ∧
      (byteAt b 0 = 1 → index 16 1 .readLoad fun r => (List.finRange 12).flatMap fun c =>
        let a := s.activity r c
        W a.occupancy ++ B a.floor ++ Y a.settled ++ Y a.stale ++ W a.frames ++ W a.busy ++ opt 1 (a.minLevel.map B) ++
        Y (match s.sectorOf r with | some x => (s.dist.maps.get x).contains (some c) | none => false))) ∧
    (s.takes q 0x14 →
      let counters (body : List Byte) : Prop := exec .readCounters s = .next (s.reported q body)
      let link (l : Link) : List Byte :=
        let k := (s.framer l).counters
        B (match (s.framer l).rx with | .down => 0 | .hunt => 1 | .verify => 2 | .locked => 3) ++
        ([k.good, k.checkErrors, k.slips, k.jumps, k.lockLosses, k.malformed, k.sendAborts] ++
          match l with | .donor _ => [k.gaps, k.overruns] | _ => []).flatMap W
      (byteAt b 0 = 0 → counters ((Config.oversizeBody (((List.finRange 4).flatMap fun n => link (.donor n)) ++
        ((List.finRange 16).flatMap fun r => link (.remote r)) ++ link .service)).take 224)) ∧
      (byteAt b 0 = 1 → counters ((List.finRange 16).flatMap fun r =>
        let k := s.comb.counters.get r
        [k.outOfWindow, k.late, k.duplicates, k.overflows, k.mismatches, k.missing].flatMap W)) ∧
      (byteAt b 0 = 2 → counters ((List.finRange 12).flatMap fun c =>
        W (s.dist.clips.get c) ++ W (s.comb.clips.get c) ++ B (s.carrier c).tag.val)) ∧
      (byteAt b 0 = 3 → counters (
        let k := s.svc.serviceCount
        [k.queued, k.refusals, k.strays, k.roomDiscards].flatMap W ++
        ((List.finRange 4).flatMap fun n =>
          let k := s.svc.donorCounts.get n
          [k.queued, k.refusals, k.accessDiscards, k.strays, k.roomDiscards, k.removals].flatMap W) ++
        (List.finRange 16).flatMap fun r =>
          let k := s.svc.portCounts.get r
          [k.opened, k.timeouts, k.busies, k.unmatched].flatMap W)))

/-- Every request that is refused changes nothing but the queues, and every request row acts only on a request
of its own kind (R152, R153, R170): a response other than DONE has no content and leaves the rest of the state as it
was. A selector outside its codes is refused before the length is tested, and the length must be that of the kind and
selector (R153, R170), both before the owning rule acts. With no response place free, with none waiting, or with
another kind at the head, nothing happens (log entry 3, the model's choice). UNKNOWN_REQUEST answers BAD-VALUE for an
unknown kind and for a body whose length does not fit, and otherwise leaves the request to the row of its kind, also
one with a selector outside its codes (log entry 26, the model's reading). -/
def Obligations.RefusedRequestsChangeNothing : Prop :=
  (∀ (s : State) (q : Request),
    let rows : List (Instr × Byte) := [(.identify, 0x01), (.readSettings, 0x02), (.writeSettings, 0x03),
      (.readCarrier, 0x04), (.writeCarrier, 0x05), (.readPlan, 0x06), (.writePlan, 0x07), (.readLive, 0x08),
      (.setRemote, 0x09), (.readLoad, 0x0A), (.move, 0x0B), (.abort, 0x0C), (.cutOver, 0x0D), (.schedule, 0x0E),
      (.cue, 0x0F), (.cancel, 0x10), (.isolate, 0x11), (.restore, 0x12), (.readEvents, 0x13),
      (.readCounters, 0x14), (.clearCounters, 0x15), (.tap, 0x16), (.save, 0x17), (.restart, 0x18)]
    let known := 0x01 ≤ q.kind.toNat ∧ q.kind.toNat ≤ 0x18
    let badCode := q.kind = 0x0A ∧ 1 < (byteAt q.body 0).toNat ∨
      (q.kind = 0x14 ∨ q.kind = 0x16) ∧ 3 < (byteAt q.body 0).toNat
    let unfit := bodyStatus q.kind q.body = some .badValue ∧ ¬badCode
    (∀ row ∈ rows, (∀ x, s.nextRequest = some x → x.kind ≠ row.2) → exec row.1 s = .next s) ∧
    (∀ row ∈ rows, s.nextRequest = some q → q.kind = row.2 →
      (∀ st, bodyStatus q.kind q.body = some st → exec row.1 s = .next (s.turnedAway q st)) ∧
      ∀ t p, exec row.1 s = .next t → t.svc.filled = s.svc.filled ++ [p] → p.status ≠ .done →
        t = s.turnedAway q p.status ∧ p = ⟨q.link, q.tag, q.kind, p.status, [], false⟩) ∧
    (∀ x, s.nextRequest = some x ↔ s.svc.taking = true ∧ s.svc.filled.length + s.svc.reserved.length < 8 ∧
      ∃ rest, s.svc.input = x :: rest) ∧
    (s.nextRequest = some q → (¬known ∨ unfit) → exec .unknownRequest s = .next (s.turnedAway q .badValue)) ∧
    (s.nextRequest = some q → known → ¬unfit → exec .unknownRequest s = .next s) ∧
    (s.nextRequest = none → exec .unknownRequest s = .next s)) ∧
  (let fits (k : Byte) (n : Nat) : Prop :=
     ∀ b : List Byte, bodyStatus k b = if b.length = n then none else some .badValue
   let coded (k : Byte) (i : Nat) (st : Status) (lengths : List Nat) : Prop := ∀ b : List Byte,
     (i < b.length → lengths.length ≤ (byteAt b i).toNat → bodyStatus k b = some st) ∧
     ∀ n, lengths[(byteAt b i).toNat]? = some n → bodyStatus k b = if b.length = n then none else some .badValue
   (∀ k ∈ [0x01, 0x02, 0x0C, 0x0F, 0x10, 0x18], fits k 0) ∧ (∀ k ∈ [0x04, 0x0D, 0x11, 0x12, 0x13, 0x15], fits k 1) ∧
   fits 0x0B 2 ∧ fits 0x0E 5 ∧ fits 0x05 10 ∧ fits 0x17 33 ∧
   (∀ b : List Byte, bodyStatus 0x03 b =
     if b.length ≠ 0 ∧ b.length % 3 = 0 ∧ b.length ≤ 75 then none else some .badValue) ∧
   coded 0x06 1 .badTable [3, 3, 3] ∧ coded 0x07 1 .badTable [22, 22, 9] ∧ coded 0x08 0 .badTable [2, 2] ∧
   coded 0x09 0 .badTable [21, 8] ∧ coded 0x0A 0 .badValue [2, 2] ∧ coded 0x14 0 .badValue [1, 1, 1, 1] ∧
   coded 0x16 0 .badValue [3, 3, 3, 3])

/-- WRITE-SETTINGS (R9, R10, R144, R153, R154): an item number outside 1 to 25 is BAD-INDEX, a repeated item or a code
outside an enumerated item's list BAD-VALUE, and in each case nothing is written; otherwise all its pairs are
written, each numeric value clamped to the nearest end of its range (log entry 22 says which ends the owning rules
leave out), and DONE carries the 25 values. When item 9 is written, a selection it no longer permits is dropped and
made afresh without an event, and with none selected the lowest permitted LOCKED link is, and reported; an offer is
withdrawn when notices are disabled; nothing else changes. -/
def Obligations.WriteSettingsWritesAllOrNothing : Prop :=
  (∀ (s : State) (q : Request), s.takes q 0x03 →
    let pairs := (List.range (q.body.length / 3)).map fun k =>
      ((byteAt q.body (3 * k)).toNat, (wordAt q.body (3 * k + 1)).toNat)
    let bad := ∃ p ∈ pairs, p.1 = 0 ∨ 25 < p.1
    (bad → exec .writeSettings s = .next (s.turnedAway q .badIndex)) ∧
    (¬bad → ¬(pairs.map Prod.fst).Nodup → exec .writeSettings s = .next (s.turnedAway q .badValue)) ∧
    (¬bad → (pairs.map Prod.fst).Nodup →
      (s.settings.writeAll pairs = none → exec .writeSettings s = .next (s.turnedAway q .badValue)) ∧
      ∀ c, s.settings.writeAll pairs = some c → ∃ t, exec .writeSettings s = .next t ∧
        (s.settings.InRange → c.InRange) ∧
        (let best := (List.finRange 4).find? fun n => c.reference.permits n && s.locked (.donor n)
         let reference := if 9 ∉ pairs.map Prod.fst then s.clock.reference else match s.clock.reference with
           | some n => if c.reference.permits n then some n else best
           | none => best
         let events := match s.clock.reference, reference with
           | none, some n => s.events.post .referenceRestored (.donor n) none 0 s.now
           | _, _ => s.events
         t = { s.reported q (c.values.flatMap enc16) with
           settings := c
           clock := { s.clock with reference := reference }
           events := { events with offer := events.offer && c.notices } }))) ∧
  (∀ (c : Settings) (ps : List (Nat × Nat)) (p : Nat × Nat), c.writeAll [] = some c ∧
    (c.write p.1 p.2 = none → c.writeAll (p :: ps) = none) ∧
    ∀ d, c.write p.1 p.2 = some d → c.writeAll (p :: ps) = d.writeAll ps) ∧
  ∀ (c : Settings) (v : Nat),
    let flag (item : Nat) (f : Bool → Settings) : Prop := c.write item v =
      if v = 0 then some (f false) else if v = 1 then some (f true) else none
    let grant (item : Nat) (n : DonorId) : Prop := c.write item v = (match v with
      | 0 => some { c with grants := c.grants.set n .none }
      | 1 => some { c with grants := c.grants.set n .read }
      | 2 => some { c with grants := c.grants.set n .full }
      | _ => none)
    c.write 1 v = some { c with alignment := max 2 (min 8 v) } ∧
    c.write 2 v = some { c with gateMargin := min 31 v } ∧
    c.write 3 v = some { c with clipLimit := v } ∧ c.write 4 v = some { c with lateLimit := v } ∧
    c.write 5 v = some { c with window := max 800 v } ∧
    c.write 6 v = some { c with activityMargin := min 31 v } ∧
    c.write 7 v = some { c with rampStep := if v < 2 then 1 else if v < 4 then 2 else if v < 8 then 4
      else if v < 16 then 8 else if v < 32 then 16 else 32 } ∧
    c.write 8 v = some { c with rampInterval := max 1 (min 4 v) } ∧
    (c.write 9 v = match v with
      | 0 => some { c with reference := .auto }
      | 1 => some { c with reference := .link 0 }
      | 2 => some { c with reference := .link 1 }
      | 3 => some { c with reference := .link 2 }
      | 4 => some { c with reference := .link 3 }
      | 5 => some { c with reference := .none }
      | _ => none) ∧
    c.write 10 v = some { c with grace := max 1 (min 255 v) } ∧
    c.write 11 v = some { c with poll := max 80 (min 8000 v) } ∧
    c.write 12 v = some { c with missLimit := max 1 (min 7 v) } ∧
    c.write 13 v = some { c with flapLimit := max 1 (min 15 v) } ∧
    c.write 14 v = some { c with flapPeriod := max 1 (min 255 v) } ∧
    flag 15 (fun x => { c with autoSpread := x }) ∧
    c.write 16 v = some { c with overloadHold := max 1 (min 15 v) } ∧
    c.write 17 v = some { c with homingHold := max 1 (min 15 v) } ∧
    flag 18 (fun x => { c with notices := x }) ∧
    c.write 19 v = some { c with pacing := max 1 (min 255 v) } ∧
    c.write 20 v = some { c with passTimeout := max 8 (min 4095 v) } ∧
    c.write 21 v = some { c with passRetries := min 3 v } ∧
    grant 22 0 ∧ grant 23 1 ∧ grant 24 2 ∧ grant 25 3 ∧ ∀ item, 25 < item ∨ item = 0 → c.write item v = none

/-- WRITE-CARRIER and WRITE-PLAN (R19, R20, R104 to R108, R170): in the order of the checks, an index outside its
range, a value the record cannot take, for a carrier a change of its enabling or sector while the engine moves and
a table that would break its law; otherwise the record is replaced and nothing else changes. A plan header sets or
clears the start marker; it is taken whatever its index byte, which is the model's choice (log entry 24). Each
record is read byte by byte as 12.3 lays it out, numbers above their range clamped, and reading what the hub sends
of a record in range gives that record, whatever stands before and after it. That the value bytes of an absent expected
position and the label bytes past the length are ignored, whatever they are, is the model's choice (log entry 34). -/
def Obligations.TablesAreWrittenWhole : Prop :=
  (∀ (s : State) (q : Request),
    (s.takes q 0x05 →
      (12 ≤ (byteAt q.body 0).toNat → exec .writeCarrier s = .next (s.turnedAway q .badIndex)) ∧
      ∀ c : CarrierId, (byteAt q.body 0).toNat = c.val →
        (carrierAt q.body 1 = none → exec .writeCarrier s = .next (s.turnedAway q .badValue)) ∧
        ∀ k, carrierAt q.body 1 = some k →
          let moved := k.enabled ≠ (s.carrier c).enabled ∨ k.sector ≠ (s.carrier c).sector
          (moved → s.engine.state ≠ .idle → exec .writeCarrier s = .next (s.turnedAway q .busy)) ∧
          (¬(moved ∧ s.engine.state ≠ .idle) → ¬CarrierTableLaw (s.dist.carriers.set c k) →
            exec .writeCarrier s = .next (s.turnedAway q .conflict)) ∧
          (¬(moved ∧ s.engine.state ≠ .idle) → CarrierTableLaw (s.dist.carriers.set c k) →
            exec .writeCarrier s =
              .next { s.reported q [] with dist := { s.dist with carriers := s.dist.carriers.set c k } } ∧
            k.InRange)) ∧
    (s.takes q 0x07 →
      (4 ≤ (byteAt q.body 0).toNat → exec .writePlan s = .next (s.turnedAway q .badIndex)) ∧
      ∀ p : PlanId, (byteAt q.body 0).toNat = p.val →
        let plan := s.store.plans.get p
        let written (v : Plan) : State :=
          { s.reported q [] with store := { s.store with plans := s.store.plans.set p v } }
        (byteAt q.body 1 = 0 →
          (planHeadAt q.body 3 = none → exec .writePlan s = .next (s.turnedAway q .badValue)) ∧
          ∀ h, planHeadAt q.body 3 = some h → exec .writePlan s = .next { s.reported q [] with store := { s.store with
            plans := s.store.plans.set p { plan with valid := h.valid, label := h.label }
            start := if h.start then some p else if s.store.start = some p then none else s.store.start } }) ∧
        (byteAt q.body 1 = 1 →
          (16 ≤ (byteAt q.body 2).toNat → exec .writePlan s = .next (s.turnedAway q .badIndex)) ∧
          ∀ r : RemoteId, (byteAt q.body 2).toNat = r.val →
            (planEntryAt q.body 3 r = none → exec .writePlan s = .next (s.turnedAway q .badValue)) ∧
            ∀ e, planEntryAt q.body 3 r = some e → e.InRange r ∧
              exec .writePlan s = .next (written { plan with remotes := plan.remotes.set r e })) ∧
        (byteAt q.body 1 = 2 →
          (8 ≤ (byteAt q.body 2).toNat → exec .writePlan s = .next (s.turnedAway q .badIndex)) ∧
          ∀ x : SectorId, (byteAt q.body 2).toNat = x.val →
            (sectorEntryAt q.body 3 = none → exec .writePlan s = .next (s.turnedAway q .badValue)) ∧
            ∀ e, sectorEntryAt q.body 3 = some e → e.InRange ∧
              exec .writePlan s = .next (written { plan with sectors := plan.sectors.set x e })))) ∧
  (∀ (b : List Byte) (i : Nat),
    let word (k : Nat) : Nat := 256 * (byteAt b k).toNat + (byteAt b (k + 1)).toNat
    (∀ k, carrierAt b i = some k ↔ SaysYes (byteAt b i) k.enabled ∧ (byteAt b (i + 1)).toNat = k.donor.val ∧
      (byteAt b (i + 2)).toNat = k.slot.val ∧ (byteAt b (i + 3)).toNat = k.tag.val ∧
      NamesSector (byteAt b (i + 4)) k.sector ∧ (byteAt b (i + 5)).toNat = (if k.twoBranches then 2 else 1) ∧
      k.gain = min 1023 (word (i + 6)) ∧ k.headroom = min 4 (byteAt b (i + 8)).toNat) ∧
    (∀ r e, planEntryAt b i r = some e ↔ SaysYes (byteAt b i) e.configured ∧
      NamesSector (byteAt b (i + 1)) e.sector ∧ e.FieldsAt b i ∧
      e.alternates.Nodup ∧ (∀ x ∈ e.alternates, e.sector ≠ some x) ∧ e.partners.Nodup ∧ r ∉ e.partners) ∧
    (∀ e, sectorEntryAt b i = some e ↔ e.ceiling = min 16000 (word i) ∧ e.minimum = min 16 (byteAt b (i + 2)).toNat ∧
      SaysYes (byteAt b (i + 3)) e.source ∧ SaysYes (byteAt b (i + 4)) e.destination ∧
      SaysYes (byteAt b (i + 5)) e.gating) ∧
    (∀ h, planHeadAt b i = some h ↔
      SaysYes (byteAt b i) h.valid ∧ SaysYes (byteAt b (i + 1)) h.start ∧ LabelsAt 16 b (i + 2) h.label) ∧
    ∀ most label, labelAt most b i = some label ↔ LabelsAt most b i label) ∧
  ∀ (before after : List Byte),
    (∀ k : Carrier, k.InRange → carrierAt (before ++ encCarrier k ++ after) before.length = some k) ∧
    (∀ r (e : RemoteEntry), e.InRange r → planEntryAt (before ++ encEntry e ++ after) before.length r = some e) ∧
    (∀ e : SectorEntry, e.InRange → sectorEntryAt (before ++ encSectorEntry e ++ after) before.length = some e) ∧
    ∀ most label, most ≤ 255 → LabelInRange most label →
      labelAt most (before ++ encLabel most label ++ after) before.length = some label

/-- SET-REMOTE (R32, R128, R135, R136, R155): in the order of the checks BAD-INDEX, BUSY while a batch runs,
NOT-READY for a remote that is not configured, BAD-VALUE. An accepted remote form replaces the live fields as
its body gives them, clamped, with configured and sector as they stand and its alternates held against the home
sector (that the value bytes of an absent expected position are ignored, whatever they are, is the model's choice, log
entry 34), derives the mode and settles boosts and ramps: after a change of base gain the remote's target is that of
R31, and after a change of partners or boost every source set and applied boost is that of R134. An accepted sector
form replaces the live sector record and evaluates a changed minimum. A change sets the diverged flag; a form that
changes no field changes nothing. What is said of targets is said of states in which the engine's sets are those of R73's
table (`Engine.lawful`), as they are in every state a run reaches. -/
def Obligations.SetRemoteWritesTheLiveMap : Prop :=
  ∀ (s : State) (q : Request),
    (∀ r e, s.liveEntryAt r q.body = some e ↔
      e.configured = (s.live r).configured ∧ e.sector = (s.live r).sector ∧ e.FieldsAt q.body 2 ∧
      e.alternates.Nodup ∧ (∀ x ∈ e.alternates, (s.map.remotes.get r).home ≠ some x) ∧
      e.partners.Nodup ∧ r ∉ e.partners) ∧
    (s.takes q 0x09 →
    let u := s.reported q []
    (byteAt q.body 0 = 0 →
      (16 ≤ (byteAt q.body 1).toNat → exec .setRemote s = .next (s.turnedAway q .badIndex)) ∧
      ∀ r : RemoteId, (byteAt q.body 1).toNat = r.val →
        (s.batchRunning = true → exec .setRemote s = .next (s.turnedAway q .busy)) ∧
        (s.batchRunning = false → (s.live r).configured = false →
          exec .setRemote s = .next (s.turnedAway q .notReady)) ∧
        (s.batchRunning = false → (s.live r).configured = true →
          (s.liveEntryAt r q.body = none → exec .setRemote s = .next (s.turnedAway q .badValue)) ∧
          ∀ e, s.liveEntryAt r q.body = some e →
            (e = s.live r → exec .setRemote s = .next u) ∧
            (e ≠ s.live r → ∃ t, exec .setRemote s = .next t ∧
              t.map = { s.map with
                remotes := s.map.remotes.modify r (fun v => { v with entry := e }), diverged := true } ∧
              e.sector = s.sectorOf r ∧ e.configured = true ∧
              (s.engine.lawful → e.baseGain ≠ (s.live r).baseGain → (t.ramp r).target = t.targetOf r) ∧
              (e.partners ≠ (s.live r).partners ∨ e.boost ≠ (s.live r).boost → ∀ y,
                (t.supRec y).sources = t.sourcesOf y ∧
                (t.supRec y).boost = t.appliedBoost y (t.sourcesOf y) ∧
                (s.engine.lawful → (t.supRec y).boost ≠ (s.supRec y).boost → (t.ramp y).target = t.targetOf y)) ∧
              Settles ({ u with map := t.map }.modSup r fun v => { v with mode := v.alarms.effective e.mode }) t))) ∧
    (byteAt q.body 0 = 1 →
      (8 ≤ (byteAt q.body 1).toNat → exec .setRemote s = .next (s.turnedAway q .badIndex)) ∧
      ∀ x : SectorId, (byteAt q.body 1).toNat = x.val →
        (s.batchRunning = true → exec .setRemote s = .next (s.turnedAway q .busy)) ∧
        (s.batchRunning = false → sectorEntryAt q.body 2 = none → exec .setRemote s = .next (s.turnedAway q .badValue)) ∧
        (s.batchRunning = false → ∀ e, sectorEntryAt q.body 2 = some e →
          let old := s.map.sectors.get x
          let written : State :=
            { u with map := { s.map with sectors := s.map.sectors.set x e, diverged := true } }
          let n := s.servingNow x
          (e = old → exec .setRemote s = .next u) ∧
          (e ≠ old → e.minimum = old.minimum → exec .setRemote s = .next written) ∧
          (e ≠ old → e.minimum ≠ old.minimum → exec .setRemote s = .next { written with
            sup := { s.sup with
              serving := s.sup.serving.set x n, degraded := s.sup.degraded.set x (decide (n < e.minimum)) }
            events :=
              if n < e.minimum ∧ s.sup.degraded.get x = false then
                s.events.post .sectorDegraded (.sector x) none (word16 n) s.now
              else if e.minimum ≤ n ∧ s.sup.degraded.get x = true then
                s.events.post .sectorRestored (.sector x) none (word16 n) s.now
              else s.events }))))

/-- MOVE (R74, R75, R76, R77): in the order of the checks BAD-INDEX, BUSY, NOT-READY, BAD-VALUE for a sector that
is none or the remote's own, CONFLICT for a sector without an enabled carrier; otherwise a MANUAL move of the
remote starts and nothing else happens. -/
def Obligations.MoveStartsASingleMove : Prop :=
  ∀ (s : State) (q : Request), s.takes q 0x0B →
    let away (st : Status) := exec .move s = .next (s.turnedAway q st)
    (16 ≤ (byteAt q.body 0).toNat → away .badIndex) ∧
    ∀ r : RemoteId, (byteAt q.body 0).toNat = r.val →
      (s.engine.state ≠ .idle → away .busy) ∧
      (s.engine.state = .idle → s.serviced r = false → away .notReady) ∧
      (s.engine.state = .idle → s.serviced r = true →
        (8 ≤ (byteAt q.body 1).toNat → away .badValue) ∧
        ∀ y : SectorId, (byteAt q.body 1).toNat = y.val →
          (s.sectorOf r = some y → away .badValue) ∧
          (s.sectorOf r ≠ some y → (∀ c, (s.carrier c).enabled = true → (s.carrier c).sector ≠ some y) →
            away .conflict) ∧
          (s.sectorOf r ≠ some y → (∃ c, (s.carrier c).enabled = true ∧ (s.carrier c).sector = some y) →
            ∃ t, Started ⟨.manual, none, [⟨r, s.sectorOf r, .sector y⟩], s.now, none, none, [r]⟩ none (s.reported q []) t ∧
              exec .move s = .next t))

/-- ABORT and CUT-OVER (R74, R81, R85, R86, R111, R112). ABORT is taken in FADE-OUT alone: the holds are released,
every remote that was held ramps back to its normal target, and the engine is RECOVERING until those of the fading
set whose present gain is not at that target have reached it (the target of a JOINING remote being the one it has
before it serves); with none of those the move has ended ABORTED at once. CUT-OVER is refused
BAD-INDEX, BUSY and NOT-READY in this order, and otherwise starts the batch to the plan. -/
def Obligations.AbortRecoversAndCutOverStarts : Prop :=
  ∀ (s : State) (q : Request),
    (s.takes q 0x0C →
      (s.engine.state = .idle ∨ s.engine.state = .recovering → exec .abort s = .next (s.turnedAway q .notReady)) ∧
      (s.engine.state = .switchPending ∨ s.engine.state = .fadeIn →
        exec .abort s = .next (s.turnedAway q .tooLate)) ∧
      ∀ m, s.engine.state = .fadeOut → s.engine.record = some m → ∃ t, exec .abort s = .next t ∧
        Settles (s.reported q []) t ∧ t.map = s.map ∧ (∀ z ∈ s.engine.holdSet, (t.supRec z).held = false) ∧
        t.engine.holdSet = [] ∧
        (t.engine.state = .recovering ∧ t.engine.record = some m ∧ (∀ z ∈ t.engine.phaseSet, z ∈ m.fading) ∨
          t.engine = ⟨.idle, none, [], [], none⟩ ∧ t.spreader.lastEnd = some s.now) ∧
        (m.fading = [] → t.engine.state = .idle) ∧ (∀ z ∈ s.engine.holdSet, (t.ramp z).target = t.targetOf z) ∧
        (s.engine.lawful → s.engine.MoveLaw → s.SupervisionLaw →
          let goal (r : RemoteId) : Nat := if s.health r = .joining then
              (if (s.supRec r).alarms.hot then (s.live r).baseGain * 3 / 4 else min 1023 (s.live r).baseGain)
            else t.targetOf r
          let left := m.fading.filter fun r => decide ((s.ramp r).present ≠ goal r)
          (left ≠ [] → t.engine = { s.engine with state := .recovering, phaseSet := left, holdSet := [] }) ∧
          (left = [] → m.Ended .aborted s t))) ∧
    (s.takes q 0x0D →
      (4 ≤ (byteAt q.body 0).toNat → exec .cutOver s = .next (s.turnedAway q .badIndex)) ∧
      ∀ p : PlanId, (byteAt q.body 0).toNat = p.val →
        let plan := s.store.plans.get p
        (s.engine.state ≠ .idle → exec .cutOver s = .next (s.turnedAway q .busy)) ∧
        (s.engine.state = .idle → plan.valid = false → exec .cutOver s = .next (s.turnedAway q .notReady)) ∧
        (s.engine.state = .idle → plan.valid = true → ∃ t,
          Started (s.batchTo p) (some ⟨plan.remotes, plan.sectors⟩) (s.reported q []) t ∧
          exec .cutOver s = .next t))

/-- SCHEDULE, CUE and CANCEL (R111, R115, R116, R117, R118): SCHEDULE replaces the record for a valid plan; CUE
sets the due FC of the held record to the current FC and, unless it is due-waiting, tests it at once; CANCEL
removes the record. Without a schedule CUE and CANCEL are NOT-READY. That each of them also removes a test that is due
and not yet taken is the model's choice (log entry 27). -/
def Obligations.ScheduleRequestsKeepOneRecord : Prop :=
  ∀ (s : State) (q : Request),
    let u := s.reported q []
    (s.takes q 0x0E →
      (4 ≤ (byteAt q.body 0).toNat → exec .schedule s = .next (s.turnedAway q .badIndex)) ∧
      ∀ p : PlanId, (byteAt q.body 0).toNat = p.val →
        ((s.store.plans.get p).valid = false → exec .schedule s = .next (s.turnedAway q .notReady)) ∧
        ((s.store.plans.get p).valid = true → exec .schedule s =
          .next { (u.unDue .schedule).unDue .retest with
            store := { s.store with schedule := some ⟨p, longAt q.body 1, false⟩ } })) ∧
    (s.takes q 0x0F →
      (s.store.schedule = none → exec .cue s = .next (s.turnedAway q .notReady)) ∧
      ∀ k, s.store.schedule = some k →
        let plan := s.store.plans.get k.plan
        let v := u.unDue .schedule
        (k.waiting = true → exec .cue s =
          .next { v with store := { s.store with schedule := some { k with dueFc := s.now } } }) ∧
        (k.waiting = false → plan.valid = false → exec .cue s = .next { v with
          store := { s.store with schedule := none }
          events := s.events.post .cutoverAborted (.plan k.plan) none 4 s.now }) ∧
        (k.waiting = false → plan.valid = true → s.engine.state ≠ .idle → exec .cue s =
          .next { v with store := { s.store with schedule := some ⟨k.plan, s.now, true⟩ } }) ∧
        (k.waiting = false → plan.valid = true → s.engine.state = .idle → ∃ t,
          Started (s.batchTo k.plan) (some ⟨plan.remotes, plan.sectors⟩)
            { v with store := { s.store with schedule := none } } t ∧ exec .cue s = .next t)) ∧
    (s.takes q 0x10 →
      (s.store.schedule = none → exec .cancel s = .next (s.turnedAway q .notReady)) ∧
      (s.store.schedule ≠ none → exec .cancel s =
        .next { (u.unDue .schedule).unDue .retest with store := { s.store with schedule := none } }))

/-- ISOLATE and RESTORE (R121, R131, R133): ISOLATE takes a remote that is not VACANT out of service with cause
COMMAND, and leaves an ISOLATED one as it is; RESTORE returns an ISOLATED remote to WAITING with its flap counter
at 0, polled at once on a LOCKED link. An open pass-through of an isolated port is answered ABORTED (`Departed`, R163);
that it is answered before the ISOLATE is the model's choice (log entry 10). Under the laws of the device a move in progress follows (R80, R82, R84, R86;
`EngineFollows`). -/
def Obligations.IsolateAndRestoreChangeHealth : Prop :=
  ∀ (s : State) (q : Request),
    let u := s.reported q []
    (s.takes q 0x11 →
      (16 ≤ (byteAt q.body 0).toNat → exec .isolate s = .next (s.turnedAway q .badIndex)) ∧
      ∀ r : RemoteId, (byteAt q.body 0).toNat = r.val →
        (s.health r = .vacant → exec .isolate s = .next (s.turnedAway q .notReady)) ∧
        (s.health r = .isolated → exec .isolate s = .next u) ∧
        (s.health r ≠ .vacant → s.health r ≠ .isolated → ∃ t,
          Departed r .isolated (some .command)
            { s.dropRequest with events := s.events.post .remoteIsolated (.remote r) none 2 s.now } t ∧
          (s.engine.lawful → s.engine.MoveLaw → s.SupervisionLaw →
            EngineFollows r { s with events := s.events.post .remoteIsolated (.remote r) none 2 s.now } t) ∧
          exec .isolate s = .next { t with svc := { t.svc with
            filled := t.svc.filled ++ [⟨q.link, q.tag, 0x11, .done, [], false⟩] } })) ∧
    (s.takes q 0x12 →
      (16 ≤ (byteAt q.body 0).toNat → exec .restore s = .next (s.turnedAway q .badIndex)) ∧
      ∀ r : RemoteId, (byteAt q.body 0).toNat = r.val →
        (s.health r ≠ .isolated → exec .restore s = .next (s.turnedAway q .notReady)) ∧
        (s.health r = .isolated → ∃ t,
          Departed r .waiting none
            ((s.dropRequest.modSup r fun v => { v with flap := 0, decay := none }).unDue (.flap r)) t ∧
          (let answered : State := { t with svc := { t.svc with
             filled := t.svc.filled ++ [⟨q.link, q.tag, 0x12, .done, [], false⟩] } }
           (s.locked (.remote r) = false → exec .restore s = .next answered) ∧
           (s.locked (.remote r) = true → exec .restore s = .next
             ((answered.modFramer (.remote r) fun f => { f with pollPlace := true }).modSup r
               fun v => { v with awaiting := true })))))

/-- READ-EVENTS, CLEAR-COUNTERS and TAP (R6, R37, R56, R143, R146, R158, R159): READ-EVENTS removes up to 8 records
from the head of the delivery order and hands out the overflow count, and an emptied queue withdraws an offer;
CLEAR-COUNTERS zeroes the groups its mask names and no others; TAP replaces the selection. -/
def Obligations.EventsCountersAndTapAreServed : Prop :=
  ∀ (s : State) (q : Request),
    let b := q.body
    (s.takes q 0x13 → ∃ t, exec .readEvents s = .next t ∧
      (let n := min 8 (byteAt b 0).toNat
       let es := ((s.events.records.filter fun e => e.kind.urgent) ++
         s.events.records.filter fun e => !e.kind.urgent).take n
       t = { s.reported q (bytes16 (word16 s.events.overflow) ++ [BitVec.ofNat 8 es.length] ++
           [BitVec.ofNat 8 t.events.records.length] ++ es.flatMap encEvent) with
         events := { s.events with
           records := t.events.records, overflow := 0
           offer := s.events.offer && decide (t.events.records ≠ []) } } ∧
       (es ++ t.events.records).Perm s.events.records ∧ t.events.records.Sublist s.events.records)) ∧
    (s.takes q 0x15 →
      (15 < (byteAt b 0).toNat → exec .clearCounters s = .next (s.turnedAway q .badValue)) ∧
      ((byteAt b 0).toNat ≤ 15 → ∃ t, exec .clearCounters s = .next t ∧
        (let mask := byteAt b 0
         let u := s.reported q []
         (∀ l, t.framer l = if mask.getLsbD 0 then { s.framer l with counters := LinkCounters.zero } else s.framer l) ∧
         t.comb = { s.comb with
           counters := if mask.getLsbD 1 then Tab.const 16 UplinkCounters.zero else s.comb.counters
           clips := if mask.getLsbD 2 then Tab.const 12 0 else s.comb.clips } ∧
         t.dist = { s.dist with clips := if mask.getLsbD 2 then Tab.const 12 0 else s.dist.clips } ∧
         t.svc = (if mask.getLsbD 3 then { u.svc with
             serviceCount := LinkService.zero, donorCounts := Tab.const 4 LinkService.zero
             portCounts := Tab.const 16 PortService.zero }
           else u.svc) ∧
         t = { s with links := t.links, comb := t.comb, dist := t.dist, svc := t.svc }))) ∧
    (s.takes q 0x16 →
      let tapped (t : Tap) : Prop :=
        exec .tap s = .next { s.reported q [] with svc := { (s.reported q []).svc with tap := t } }
      (byteAt b 0 = 0 → tapped .none) ∧
      (byteAt b 0 ≠ 0 → byteAt b 0 ≠ 1 → 16 ≤ (byteAt b 1).toNat → exec .tap s = .next (s.turnedAway q .badIndex)) ∧
      (byteAt b 0 ≠ 0 → 12 ≤ (byteAt b 2).toNat → exec .tap s = .next (s.turnedAway q .badIndex)) ∧
      ∀ c : CarrierId, (byteAt b 2).toNat = c.val →
        (byteAt b 0 = 1 → tapped (.combined c)) ∧
        ∀ r : RemoteId, (byteAt b 1).toNat = r.val →
          (byteAt b 0 = 2 → tapped (.raw r c)) ∧ (byteAt b 0 = 3 → tapped (.downlink r c)))

/-- SAVE and RESTART (R150, R153, R166, R167): SAVE is refused BAD-VALUE for a label that cannot be one and BUSY
while one runs; otherwise it takes a label that it carries, a snapshot of what the hub stores with that label,
and a response place, and the old image is gone. RESTART is answered DONE and no further request is taken. That the
label bytes of a SAVE past the length are ignored is the model's choice (log entry 34). -/
def Obligations.SaveAndRestartBegin : Prop :=
  ∀ (s : State) (q : Request),
    (s.takes q 0x17 →
      (labelAt 32 q.body 0 = none → exec .save s = .next (s.turnedAway q .badValue)) ∧
      ∀ label, labelAt 32 q.body 0 = some label →
        (s.loader.snapshot ≠ none → exec .save s = .next (s.turnedAway q .busy)) ∧
        (s.loader.snapshot = none →
          let now := if label = none then s.loader.label else label
          exec .save s = .next { s with
            loader := { s.loader with
              label := now, memory := .partialImage
              snapshot := some ⟨s.settings, s.dist.carriers, s.store.plans, s.store.start, now⟩ }
            svc := { s.svc with
              input := s.svc.input.drop 1, reserved := s.svc.reserved ++ [.save q.link q.tag] } })) ∧
    (s.takes q 0x18 → exec .restart s = .next { s with svc := { s.svc with
      input := s.svc.input.drop 1, taking := false
      filled := s.svc.filled ++ [⟨q.link, q.tag, 0x18, .done, [], true⟩] } })

/-! ## Tables -/

/-- The branch mappings, row by row: downlink R26 with the half sum ("The branch mapping of a lane sends donor samples
a and b to antenna outputs A and B according to the applied mode:"), and uplink R51 ("The Combiner maps them onto the
branches of carrier c with the applied mode that the Distributor recorded for r and frame N (R23, R24)."). -/
def Obligations.BranchMappingsFollowTheTables : Prop :=
  ∀ a b : Branch,
    (mapDown .straight true a b = ⟨a, b⟩ ∧ mapDown .cross true a b = ⟨b, a⟩ ∧
      mapDown .foldA true a b = ⟨halfBranch a b, []⟩ ∧ mapDown .foldB true a b = ⟨[], halfBranch a b⟩ ∧
      mapDown .straight false a b = ⟨a, []⟩ ∧ mapDown .cross false a b = ⟨[], a⟩ ∧
      mapDown .foldA false a b = ⟨a, []⟩ ∧ mapDown .foldB false a b = ⟨[], a⟩) ∧
    (mapUp .straight true a b = ⟨a, b⟩ ∧ mapUp .cross true a b = ⟨b, a⟩ ∧ mapUp .foldA true a b = ⟨a, a⟩ ∧
      mapUp .foldB true a b = ⟨b, b⟩ ∧ mapUp .straight false a b = ⟨a, []⟩ ∧ mapUp .cross false a b = ⟨b, []⟩ ∧
      mapUp .foldA false a b = ⟨a, []⟩ ∧ mapUp .foldB false a b = ⟨b, []⟩) ∧
    (∀ (s : State) (r : RemoteId) (c : CarrierId) (n : FC), s.rawLane r c n = some ⟨a, b⟩ →
      s.delivered r c n = some (mapUp (s.sentFor r n).2 (s.carrier c).twoBranches a b)) ∧
    (halfBranch a b).length = max a.length b.length ∧
    ∀ k, k < max a.length b.length → ∃ z, (halfBranch a b)[k]? = some z ∧
      z.i.toInt = ((a.getD k ⟨0, 0⟩).i.toInt + (b.getD k ⟨0, 0⟩).i.toInt + 1) / 2 ∧
      z.q.toInt = ((a.getD k ⟨0, 0⟩).q.toInt + (b.getD k ⟨0, 0⟩).q.toInt + 1) / 2

/-- The target of a remote, the first case of R31 that applies. -/
def Obligations.TargetIsTheFirstCaseThatApplies : Prop :=
  ∀ (s : State) (r : RemoteId),
    let out := s.health r = .vacant ∨ s.health r = .waiting ∨ s.health r = .lost ∨ s.health r = .isolated
    let held := r ∈ s.engine.holdSet
    let hot := (s.supRec r).alarms.hot = true
    (out → s.targetOf r = 0) ∧ (¬out → held → s.targetOf r = 0) ∧
    (¬out → ¬held → hot → s.targetOf r = (s.live r).baseGain * 3 / 4) ∧
    (¬out → ¬held → ¬hot → s.targetOf r = min 1023 ((s.live r).baseGain + (s.supRec r).boost))

/-- A post, the first case of R141 that fits the queue: merge, append, displace, drop. -/
def Obligations.PostTakesTheFirstCaseThatFits : Prop :=
  ∀ (s : State) (k : EventKind) (x : Subject) (d : BitVec 16),
    let q := s.events
    let tag : Option (Fin 16) := match x with | .carrier c => some (s.carrier c).tag | _ => none
    let p := (s.post k x d).events
    let record : Event := ⟨k, x, tag, d, s.now, none, 1⟩
    let held := ∃ e ∈ q.records, e.kind = k ∧ e.subject = x
    s.post k x d = { s with events := p } ∧ p.pacing = q.pacing ∧ p.offer = q.offer ∧ p.seq = q.seq ∧
    (∀ before after e, q.records = before ++ e :: after → e.kind = k → e.subject = x →
      (∀ y ∈ before, ¬(y.kind = k ∧ y.subject = x)) →
      p.records = before ++ ⟨k, x, tag, d, e.firstFc, some s.now, min 255 (e.repeats + 1)⟩ :: after ∧
      p.overflow = q.overflow) ∧
    (¬held → q.records.length < 64 → p.records = q.records ++ [record] ∧ p.overflow = q.overflow) ∧
    (¬held → 64 ≤ q.records.length → k.urgent = true → ∀ before after e, q.records = before ++ e :: after →
      e.kind.urgent = false → (∀ y ∈ before, y.kind.urgent = true) →
      p.records = before ++ after ++ [record] ∧ p.overflow = min 65535 (q.overflow + 1)) ∧
    (¬held → 64 ≤ q.records.length → (k.urgent = false ∨ ∀ y ∈ q.records, y.kind.urgent = true) →
      p.records = q.records ∧ p.overflow = min 65535 (q.overflow + 1))

end Statements
end

