-- ==== Sys2Proof/Laws/Tab.lean ====
section
/-! SUPPORT. The laws of the bank type: what is read after each way of building or changing a bank. -/

namespace Sys2Proof

variable {n : Nat} {α β : Type}

theorem Tab.get_set (t : Tab n α) (i j : Fin n) (a : α) :
    (t.set i a).get j = if i = j then a else t.get j := by
  simp only [Tab.get, Tab.set, List.get_eq_getElem, List.getElem_set, Fin.ext_iff]

@[simp] theorem Tab.get_set_self (t : Tab n α) (i : Fin n) (a : α) : (t.set i a).get i = a := by
  simp [Tab.get_set]

theorem Tab.get_set_ne (t : Tab n α) {i j : Fin n} (a : α) (h : i ≠ j) :
    (t.set i a).get j = t.get j := by
  simp [Tab.get_set, h]

@[simp] theorem Tab.get_ofFn (f : Fin n → α) (i : Fin n) : (Tab.ofFn f).get i = f i := by
  simp [Tab.get, Tab.ofFn]

@[simp] theorem Tab.get_const (a : α) (i : Fin n) : (Tab.const n a).get i = a := by
  simp [Tab.get, Tab.const]

theorem Tab.get_modify (t : Tab n α) (i j : Fin n) (f : α → α) :
    (t.modify i f).get j = if i = j then f (t.get j) else t.get j := by
  by_cases h : i = j
  · subst h; simp [Tab.modify]
  · simp [Tab.modify, Tab.get_set, h]

@[simp] theorem Tab.get_modify_self (t : Tab n α) (i : Fin n) (f : α → α) :
    (t.modify i f).get i = f (t.get i) := by
  simp [Tab.get_modify]

theorem Tab.get_modify_ne (t : Tab n α) {i j : Fin n} (f : α → α) (h : i ≠ j) :
    (t.modify i f).get j = t.get j := by
  simp [Tab.get_modify, h]

@[simp] theorem Tab.get_map (t : Tab n α) (f : α → β) (i : Fin n) : (t.map f).get i = f (t.get i) := by
  simp [Tab.get, Tab.map]

@[simp] theorem Tab.get_mapIdx (t : Tab n α) (f : Fin n → α → β) (i : Fin n) :
    (t.mapIdx f).get i = f i (t.get i) := by
  simp [Tab.mapIdx]

/-- Banks that read alike everywhere are equal. -/
theorem Tab.ext_get {s t : Tab n α} (h : ∀ i, s.get i = t.get i) : s = t := by
  obtain ⟨xs, hx⟩ := s
  obtain ⟨ys, hy⟩ := t
  have : xs = ys := by
    apply List.ext_getElem (by rw [hx, hy])
    intro k h1 _
    have := h ⟨k, by rw [← hx]; exact h1⟩
    simpa [Tab.get] using this
  subst this
  rfl

end Sys2Proof
end

