-- ==== Sys2Proof/Laws/State.lean ====
section
/-! SUPPORT. One lemma per field and update: which parts of State each update leaves, and what it puts in
the part it changes. Each is true by computation. -/

namespace Sys2Proof.Machine

@[simp] theorem State.modFramer_pending (s : State) (l : Link) (f : Framer → Framer) : (s.modFramer l f).pending = s.pending :=
  by cases l <;> rfl
@[simp] theorem State.modFramer_loader (s : State) (l : Link) (f : Framer → Framer) : (s.modFramer l f).loader = s.loader :=
  by cases l <;> rfl
@[simp] theorem State.modFramer_clock (s : State) (l : Link) (f : Framer → Framer) : (s.modFramer l f).clock = s.clock :=
  by cases l <;> rfl
@[simp] theorem State.modFramer_settings (s : State) (l : Link) (f : Framer → Framer) : (s.modFramer l f).settings = s.settings :=
  by cases l <;> rfl
@[simp] theorem State.modFramer_dist (s : State) (l : Link) (f : Framer → Framer) : (s.modFramer l f).dist = s.dist :=
  by cases l <;> rfl
@[simp] theorem State.modFramer_comb (s : State) (l : Link) (f : Framer → Framer) : (s.modFramer l f).comb = s.comb :=
  by cases l <;> rfl
@[simp] theorem State.modFramer_meter (s : State) (l : Link) (f : Framer → Framer) : (s.modFramer l f).meter = s.meter :=
  by cases l <;> rfl
@[simp] theorem State.modFramer_map (s : State) (l : Link) (f : Framer → Framer) : (s.modFramer l f).map = s.map :=
  by cases l <;> rfl
@[simp] theorem State.modFramer_engine (s : State) (l : Link) (f : Framer → Framer) : (s.modFramer l f).engine = s.engine :=
  by cases l <;> rfl
@[simp] theorem State.modFramer_spreader (s : State) (l : Link) (f : Framer → Framer) : (s.modFramer l f).spreader = s.spreader :=
  by cases l <;> rfl
@[simp] theorem State.modFramer_store (s : State) (l : Link) (f : Framer → Framer) : (s.modFramer l f).store = s.store :=
  by cases l <;> rfl
@[simp] theorem State.modFramer_sup (s : State) (l : Link) (f : Framer → Framer) : (s.modFramer l f).sup = s.sup :=
  by cases l <;> rfl
@[simp] theorem State.modFramer_events (s : State) (l : Link) (f : Framer → Framer) : (s.modFramer l f).events = s.events :=
  by cases l <;> rfl
@[simp] theorem State.modFramer_svc (s : State) (l : Link) (f : Framer → Framer) : (s.modFramer l f).svc = s.svc :=
  by cases l <;> rfl
@[simp] theorem State.modFramer_boundary (s : State) (l : Link) (f : Framer → Framer) : (s.modFramer l f).boundary = s.boundary :=
  by cases l <;> rfl

@[simp] theorem State.countLink_pending (s : State) (l : Link) (f : LinkCounters → LinkCounters) : (s.countLink l f).pending = s.pending :=
  by cases l <;> rfl
@[simp] theorem State.countLink_loader (s : State) (l : Link) (f : LinkCounters → LinkCounters) : (s.countLink l f).loader = s.loader :=
  by cases l <;> rfl
@[simp] theorem State.countLink_clock (s : State) (l : Link) (f : LinkCounters → LinkCounters) : (s.countLink l f).clock = s.clock :=
  by cases l <;> rfl
@[simp] theorem State.countLink_settings (s : State) (l : Link) (f : LinkCounters → LinkCounters) : (s.countLink l f).settings = s.settings :=
  by cases l <;> rfl
@[simp] theorem State.countLink_dist (s : State) (l : Link) (f : LinkCounters → LinkCounters) : (s.countLink l f).dist = s.dist :=
  by cases l <;> rfl
@[simp] theorem State.countLink_comb (s : State) (l : Link) (f : LinkCounters → LinkCounters) : (s.countLink l f).comb = s.comb :=
  by cases l <;> rfl
@[simp] theorem State.countLink_meter (s : State) (l : Link) (f : LinkCounters → LinkCounters) : (s.countLink l f).meter = s.meter :=
  by cases l <;> rfl
@[simp] theorem State.countLink_map (s : State) (l : Link) (f : LinkCounters → LinkCounters) : (s.countLink l f).map = s.map :=
  by cases l <;> rfl
@[simp] theorem State.countLink_engine (s : State) (l : Link) (f : LinkCounters → LinkCounters) : (s.countLink l f).engine = s.engine :=
  by cases l <;> rfl
@[simp] theorem State.countLink_spreader (s : State) (l : Link) (f : LinkCounters → LinkCounters) : (s.countLink l f).spreader = s.spreader :=
  by cases l <;> rfl
@[simp] theorem State.countLink_store (s : State) (l : Link) (f : LinkCounters → LinkCounters) : (s.countLink l f).store = s.store :=
  by cases l <;> rfl
@[simp] theorem State.countLink_sup (s : State) (l : Link) (f : LinkCounters → LinkCounters) : (s.countLink l f).sup = s.sup :=
  by cases l <;> rfl
@[simp] theorem State.countLink_events (s : State) (l : Link) (f : LinkCounters → LinkCounters) : (s.countLink l f).events = s.events :=
  by cases l <;> rfl
@[simp] theorem State.countLink_svc (s : State) (l : Link) (f : LinkCounters → LinkCounters) : (s.countLink l f).svc = s.svc :=
  by cases l <;> rfl
@[simp] theorem State.countLink_boundary (s : State) (l : Link) (f : LinkCounters → LinkCounters) : (s.countLink l f).boundary = s.boundary :=
  by cases l <;> rfl

@[simp] theorem State.modSup_pending (s : State) (r : RemoteId) (f : SupRecord → SupRecord) : (s.modSup r f).pending = s.pending :=
  rfl
@[simp] theorem State.modSup_loader (s : State) (r : RemoteId) (f : SupRecord → SupRecord) : (s.modSup r f).loader = s.loader :=
  rfl
@[simp] theorem State.modSup_clock (s : State) (r : RemoteId) (f : SupRecord → SupRecord) : (s.modSup r f).clock = s.clock :=
  rfl
@[simp] theorem State.modSup_settings (s : State) (r : RemoteId) (f : SupRecord → SupRecord) : (s.modSup r f).settings = s.settings :=
  rfl
@[simp] theorem State.modSup_links (s : State) (r : RemoteId) (f : SupRecord → SupRecord) : (s.modSup r f).links = s.links :=
  rfl
@[simp] theorem State.modSup_dist (s : State) (r : RemoteId) (f : SupRecord → SupRecord) : (s.modSup r f).dist = s.dist :=
  rfl
@[simp] theorem State.modSup_comb (s : State) (r : RemoteId) (f : SupRecord → SupRecord) : (s.modSup r f).comb = s.comb :=
  rfl
@[simp] theorem State.modSup_meter (s : State) (r : RemoteId) (f : SupRecord → SupRecord) : (s.modSup r f).meter = s.meter :=
  rfl
@[simp] theorem State.modSup_map (s : State) (r : RemoteId) (f : SupRecord → SupRecord) : (s.modSup r f).map = s.map :=
  rfl
@[simp] theorem State.modSup_engine (s : State) (r : RemoteId) (f : SupRecord → SupRecord) : (s.modSup r f).engine = s.engine :=
  rfl
@[simp] theorem State.modSup_spreader (s : State) (r : RemoteId) (f : SupRecord → SupRecord) : (s.modSup r f).spreader = s.spreader :=
  rfl
@[simp] theorem State.modSup_store (s : State) (r : RemoteId) (f : SupRecord → SupRecord) : (s.modSup r f).store = s.store :=
  rfl
@[simp] theorem State.modSup_events (s : State) (r : RemoteId) (f : SupRecord → SupRecord) : (s.modSup r f).events = s.events :=
  rfl
@[simp] theorem State.modSup_svc (s : State) (r : RemoteId) (f : SupRecord → SupRecord) : (s.modSup r f).svc = s.svc :=
  rfl
@[simp] theorem State.modSup_boundary (s : State) (r : RemoteId) (f : SupRecord → SupRecord) : (s.modSup r f).boundary = s.boundary :=
  rfl

@[simp] theorem State.modLive_pending (s : State) (r : RemoteId) (f : RemoteEntry → RemoteEntry) : (s.modLive r f).pending = s.pending :=
  rfl
@[simp] theorem State.modLive_loader (s : State) (r : RemoteId) (f : RemoteEntry → RemoteEntry) : (s.modLive r f).loader = s.loader :=
  rfl
@[simp] theorem State.modLive_clock (s : State) (r : RemoteId) (f : RemoteEntry → RemoteEntry) : (s.modLive r f).clock = s.clock :=
  rfl
@[simp] theorem State.modLive_settings (s : State) (r : RemoteId) (f : RemoteEntry → RemoteEntry) : (s.modLive r f).settings = s.settings :=
  rfl
@[simp] theorem State.modLive_links (s : State) (r : RemoteId) (f : RemoteEntry → RemoteEntry) : (s.modLive r f).links = s.links :=
  rfl
@[simp] theorem State.modLive_dist (s : State) (r : RemoteId) (f : RemoteEntry → RemoteEntry) : (s.modLive r f).dist = s.dist :=
  rfl
@[simp] theorem State.modLive_comb (s : State) (r : RemoteId) (f : RemoteEntry → RemoteEntry) : (s.modLive r f).comb = s.comb :=
  rfl
@[simp] theorem State.modLive_meter (s : State) (r : RemoteId) (f : RemoteEntry → RemoteEntry) : (s.modLive r f).meter = s.meter :=
  rfl
@[simp] theorem State.modLive_engine (s : State) (r : RemoteId) (f : RemoteEntry → RemoteEntry) : (s.modLive r f).engine = s.engine :=
  rfl
@[simp] theorem State.modLive_spreader (s : State) (r : RemoteId) (f : RemoteEntry → RemoteEntry) : (s.modLive r f).spreader = s.spreader :=
  rfl
@[simp] theorem State.modLive_store (s : State) (r : RemoteId) (f : RemoteEntry → RemoteEntry) : (s.modLive r f).store = s.store :=
  rfl
@[simp] theorem State.modLive_sup (s : State) (r : RemoteId) (f : RemoteEntry → RemoteEntry) : (s.modLive r f).sup = s.sup :=
  rfl
@[simp] theorem State.modLive_events (s : State) (r : RemoteId) (f : RemoteEntry → RemoteEntry) : (s.modLive r f).events = s.events :=
  rfl
@[simp] theorem State.modLive_svc (s : State) (r : RemoteId) (f : RemoteEntry → RemoteEntry) : (s.modLive r f).svc = s.svc :=
  rfl
@[simp] theorem State.modLive_boundary (s : State) (r : RemoteId) (f : RemoteEntry → RemoteEntry) : (s.modLive r f).boundary = s.boundary :=
  rfl

@[simp] theorem State.modRamp_pending (s : State) (r : RemoteId) (f : Ramp → Ramp) : (s.modRamp r f).pending = s.pending :=
  rfl
@[simp] theorem State.modRamp_loader (s : State) (r : RemoteId) (f : Ramp → Ramp) : (s.modRamp r f).loader = s.loader :=
  rfl
@[simp] theorem State.modRamp_clock (s : State) (r : RemoteId) (f : Ramp → Ramp) : (s.modRamp r f).clock = s.clock :=
  rfl
@[simp] theorem State.modRamp_settings (s : State) (r : RemoteId) (f : Ramp → Ramp) : (s.modRamp r f).settings = s.settings :=
  rfl
@[simp] theorem State.modRamp_links (s : State) (r : RemoteId) (f : Ramp → Ramp) : (s.modRamp r f).links = s.links :=
  rfl
@[simp] theorem State.modRamp_comb (s : State) (r : RemoteId) (f : Ramp → Ramp) : (s.modRamp r f).comb = s.comb :=
  rfl
@[simp] theorem State.modRamp_meter (s : State) (r : RemoteId) (f : Ramp → Ramp) : (s.modRamp r f).meter = s.meter :=
  rfl
@[simp] theorem State.modRamp_map (s : State) (r : RemoteId) (f : Ramp → Ramp) : (s.modRamp r f).map = s.map :=
  rfl
@[simp] theorem State.modRamp_engine (s : State) (r : RemoteId) (f : Ramp → Ramp) : (s.modRamp r f).engine = s.engine :=
  rfl
@[simp] theorem State.modRamp_spreader (s : State) (r : RemoteId) (f : Ramp → Ramp) : (s.modRamp r f).spreader = s.spreader :=
  rfl
@[simp] theorem State.modRamp_store (s : State) (r : RemoteId) (f : Ramp → Ramp) : (s.modRamp r f).store = s.store :=
  rfl
@[simp] theorem State.modRamp_sup (s : State) (r : RemoteId) (f : Ramp → Ramp) : (s.modRamp r f).sup = s.sup :=
  rfl
@[simp] theorem State.modRamp_events (s : State) (r : RemoteId) (f : Ramp → Ramp) : (s.modRamp r f).events = s.events :=
  rfl
@[simp] theorem State.modRamp_svc (s : State) (r : RemoteId) (f : Ramp → Ramp) : (s.modRamp r f).svc = s.svc :=
  rfl
@[simp] theorem State.modRamp_boundary (s : State) (r : RemoteId) (f : Ramp → Ramp) : (s.modRamp r f).boundary = s.boundary :=
  rfl

@[simp] theorem State.modDonor_pending (s : State) (n : DonorId) (f : DonorState → DonorState) : (s.modDonor n f).pending = s.pending :=
  rfl
@[simp] theorem State.modDonor_loader (s : State) (n : DonorId) (f : DonorState → DonorState) : (s.modDonor n f).loader = s.loader :=
  rfl
@[simp] theorem State.modDonor_clock (s : State) (n : DonorId) (f : DonorState → DonorState) : (s.modDonor n f).clock = s.clock :=
  rfl
@[simp] theorem State.modDonor_settings (s : State) (n : DonorId) (f : DonorState → DonorState) : (s.modDonor n f).settings = s.settings :=
  rfl
@[simp] theorem State.modDonor_links (s : State) (n : DonorId) (f : DonorState → DonorState) : (s.modDonor n f).links = s.links :=
  rfl
@[simp] theorem State.modDonor_comb (s : State) (n : DonorId) (f : DonorState → DonorState) : (s.modDonor n f).comb = s.comb :=
  rfl
@[simp] theorem State.modDonor_meter (s : State) (n : DonorId) (f : DonorState → DonorState) : (s.modDonor n f).meter = s.meter :=
  rfl
@[simp] theorem State.modDonor_map (s : State) (n : DonorId) (f : DonorState → DonorState) : (s.modDonor n f).map = s.map :=
  rfl
@[simp] theorem State.modDonor_engine (s : State) (n : DonorId) (f : DonorState → DonorState) : (s.modDonor n f).engine = s.engine :=
  rfl
@[simp] theorem State.modDonor_spreader (s : State) (n : DonorId) (f : DonorState → DonorState) : (s.modDonor n f).spreader = s.spreader :=
  rfl
@[simp] theorem State.modDonor_store (s : State) (n : DonorId) (f : DonorState → DonorState) : (s.modDonor n f).store = s.store :=
  rfl
@[simp] theorem State.modDonor_sup (s : State) (n : DonorId) (f : DonorState → DonorState) : (s.modDonor n f).sup = s.sup :=
  rfl
@[simp] theorem State.modDonor_events (s : State) (n : DonorId) (f : DonorState → DonorState) : (s.modDonor n f).events = s.events :=
  rfl
@[simp] theorem State.modDonor_svc (s : State) (n : DonorId) (f : DonorState → DonorState) : (s.modDonor n f).svc = s.svc :=
  rfl
@[simp] theorem State.modDonor_boundary (s : State) (n : DonorId) (f : DonorState → DonorState) : (s.modDonor n f).boundary = s.boundary :=
  rfl

@[simp] theorem State.countPort_pending (s : State) (r : RemoteId) (f : UplinkCounters → UplinkCounters) : (s.countPort r f).pending = s.pending :=
  rfl
@[simp] theorem State.countPort_loader (s : State) (r : RemoteId) (f : UplinkCounters → UplinkCounters) : (s.countPort r f).loader = s.loader :=
  rfl
@[simp] theorem State.countPort_clock (s : State) (r : RemoteId) (f : UplinkCounters → UplinkCounters) : (s.countPort r f).clock = s.clock :=
  rfl
@[simp] theorem State.countPort_settings (s : State) (r : RemoteId) (f : UplinkCounters → UplinkCounters) : (s.countPort r f).settings = s.settings :=
  rfl
@[simp] theorem State.countPort_links (s : State) (r : RemoteId) (f : UplinkCounters → UplinkCounters) : (s.countPort r f).links = s.links :=
  rfl
@[simp] theorem State.countPort_dist (s : State) (r : RemoteId) (f : UplinkCounters → UplinkCounters) : (s.countPort r f).dist = s.dist :=
  rfl
@[simp] theorem State.countPort_meter (s : State) (r : RemoteId) (f : UplinkCounters → UplinkCounters) : (s.countPort r f).meter = s.meter :=
  rfl
@[simp] theorem State.countPort_map (s : State) (r : RemoteId) (f : UplinkCounters → UplinkCounters) : (s.countPort r f).map = s.map :=
  rfl
@[simp] theorem State.countPort_engine (s : State) (r : RemoteId) (f : UplinkCounters → UplinkCounters) : (s.countPort r f).engine = s.engine :=
  rfl
@[simp] theorem State.countPort_spreader (s : State) (r : RemoteId) (f : UplinkCounters → UplinkCounters) : (s.countPort r f).spreader = s.spreader :=
  rfl
@[simp] theorem State.countPort_store (s : State) (r : RemoteId) (f : UplinkCounters → UplinkCounters) : (s.countPort r f).store = s.store :=
  rfl
@[simp] theorem State.countPort_sup (s : State) (r : RemoteId) (f : UplinkCounters → UplinkCounters) : (s.countPort r f).sup = s.sup :=
  rfl
@[simp] theorem State.countPort_events (s : State) (r : RemoteId) (f : UplinkCounters → UplinkCounters) : (s.countPort r f).events = s.events :=
  rfl
@[simp] theorem State.countPort_svc (s : State) (r : RemoteId) (f : UplinkCounters → UplinkCounters) : (s.countPort r f).svc = s.svc :=
  rfl
@[simp] theorem State.countPort_boundary (s : State) (r : RemoteId) (f : UplinkCounters → UplinkCounters) : (s.countPort r f).boundary = s.boundary :=
  rfl

@[simp] theorem State.countSvc_pending (s : State) (l : MsgLink) (f : LinkService → LinkService) : (s.countSvc l f).pending = s.pending :=
  by cases l <;> rfl
@[simp] theorem State.countSvc_loader (s : State) (l : MsgLink) (f : LinkService → LinkService) : (s.countSvc l f).loader = s.loader :=
  by cases l <;> rfl
@[simp] theorem State.countSvc_clock (s : State) (l : MsgLink) (f : LinkService → LinkService) : (s.countSvc l f).clock = s.clock :=
  by cases l <;> rfl
@[simp] theorem State.countSvc_settings (s : State) (l : MsgLink) (f : LinkService → LinkService) : (s.countSvc l f).settings = s.settings :=
  by cases l <;> rfl
@[simp] theorem State.countSvc_links (s : State) (l : MsgLink) (f : LinkService → LinkService) : (s.countSvc l f).links = s.links :=
  by cases l <;> rfl
@[simp] theorem State.countSvc_dist (s : State) (l : MsgLink) (f : LinkService → LinkService) : (s.countSvc l f).dist = s.dist :=
  by cases l <;> rfl
@[simp] theorem State.countSvc_comb (s : State) (l : MsgLink) (f : LinkService → LinkService) : (s.countSvc l f).comb = s.comb :=
  by cases l <;> rfl
@[simp] theorem State.countSvc_meter (s : State) (l : MsgLink) (f : LinkService → LinkService) : (s.countSvc l f).meter = s.meter :=
  by cases l <;> rfl
@[simp] theorem State.countSvc_map (s : State) (l : MsgLink) (f : LinkService → LinkService) : (s.countSvc l f).map = s.map :=
  by cases l <;> rfl
@[simp] theorem State.countSvc_engine (s : State) (l : MsgLink) (f : LinkService → LinkService) : (s.countSvc l f).engine = s.engine :=
  by cases l <;> rfl
@[simp] theorem State.countSvc_spreader (s : State) (l : MsgLink) (f : LinkService → LinkService) : (s.countSvc l f).spreader = s.spreader :=
  by cases l <;> rfl
@[simp] theorem State.countSvc_store (s : State) (l : MsgLink) (f : LinkService → LinkService) : (s.countSvc l f).store = s.store :=
  by cases l <;> rfl
@[simp] theorem State.countSvc_sup (s : State) (l : MsgLink) (f : LinkService → LinkService) : (s.countSvc l f).sup = s.sup :=
  by cases l <;> rfl
@[simp] theorem State.countSvc_events (s : State) (l : MsgLink) (f : LinkService → LinkService) : (s.countSvc l f).events = s.events :=
  by cases l <;> rfl
@[simp] theorem State.countSvc_boundary (s : State) (l : MsgLink) (f : LinkService → LinkService) : (s.countSvc l f).boundary = s.boundary :=
  by cases l <;> rfl

@[simp] theorem State.countRelay_pending (s : State) (r : RemoteId) (f : PortService → PortService) : (s.countRelay r f).pending = s.pending :=
  rfl
@[simp] theorem State.countRelay_loader (s : State) (r : RemoteId) (f : PortService → PortService) : (s.countRelay r f).loader = s.loader :=
  rfl
@[simp] theorem State.countRelay_clock (s : State) (r : RemoteId) (f : PortService → PortService) : (s.countRelay r f).clock = s.clock :=
  rfl
@[simp] theorem State.countRelay_settings (s : State) (r : RemoteId) (f : PortService → PortService) : (s.countRelay r f).settings = s.settings :=
  rfl
@[simp] theorem State.countRelay_links (s : State) (r : RemoteId) (f : PortService → PortService) : (s.countRelay r f).links = s.links :=
  rfl
@[simp] theorem State.countRelay_dist (s : State) (r : RemoteId) (f : PortService → PortService) : (s.countRelay r f).dist = s.dist :=
  rfl
@[simp] theorem State.countRelay_comb (s : State) (r : RemoteId) (f : PortService → PortService) : (s.countRelay r f).comb = s.comb :=
  rfl
@[simp] theorem State.countRelay_meter (s : State) (r : RemoteId) (f : PortService → PortService) : (s.countRelay r f).meter = s.meter :=
  rfl
@[simp] theorem State.countRelay_map (s : State) (r : RemoteId) (f : PortService → PortService) : (s.countRelay r f).map = s.map :=
  rfl
@[simp] theorem State.countRelay_engine (s : State) (r : RemoteId) (f : PortService → PortService) : (s.countRelay r f).engine = s.engine :=
  rfl
@[simp] theorem State.countRelay_spreader (s : State) (r : RemoteId) (f : PortService → PortService) : (s.countRelay r f).spreader = s.spreader :=
  rfl
@[simp] theorem State.countRelay_store (s : State) (r : RemoteId) (f : PortService → PortService) : (s.countRelay r f).store = s.store :=
  rfl
@[simp] theorem State.countRelay_sup (s : State) (r : RemoteId) (f : PortService → PortService) : (s.countRelay r f).sup = s.sup :=
  rfl
@[simp] theorem State.countRelay_events (s : State) (r : RemoteId) (f : PortService → PortService) : (s.countRelay r f).events = s.events :=
  rfl
@[simp] theorem State.countRelay_boundary (s : State) (r : RemoteId) (f : PortService → PortService) : (s.countRelay r f).boundary = s.boundary :=
  rfl

@[simp] theorem State.markDue_pending (s : State) (e : Due) : (s.markDue e).pending = s.pending :=
  by unfold State.markDue; split <;> rfl
@[simp] theorem State.markDue_loader (s : State) (e : Due) : (s.markDue e).loader = s.loader :=
  by unfold State.markDue; split <;> rfl
@[simp] theorem State.markDue_clock (s : State) (e : Due) : (s.markDue e).clock = s.clock :=
  by unfold State.markDue; split <;> rfl
@[simp] theorem State.markDue_settings (s : State) (e : Due) : (s.markDue e).settings = s.settings :=
  by unfold State.markDue; split <;> rfl
@[simp] theorem State.markDue_links (s : State) (e : Due) : (s.markDue e).links = s.links :=
  by unfold State.markDue; split <;> rfl
@[simp] theorem State.markDue_dist (s : State) (e : Due) : (s.markDue e).dist = s.dist :=
  by unfold State.markDue; split <;> rfl
@[simp] theorem State.markDue_comb (s : State) (e : Due) : (s.markDue e).comb = s.comb :=
  by unfold State.markDue; split <;> rfl
@[simp] theorem State.markDue_meter (s : State) (e : Due) : (s.markDue e).meter = s.meter :=
  by unfold State.markDue; split <;> rfl
@[simp] theorem State.markDue_map (s : State) (e : Due) : (s.markDue e).map = s.map :=
  by unfold State.markDue; split <;> rfl
@[simp] theorem State.markDue_engine (s : State) (e : Due) : (s.markDue e).engine = s.engine :=
  by unfold State.markDue; split <;> rfl
@[simp] theorem State.markDue_spreader (s : State) (e : Due) : (s.markDue e).spreader = s.spreader :=
  by unfold State.markDue; split <;> rfl
@[simp] theorem State.markDue_store (s : State) (e : Due) : (s.markDue e).store = s.store :=
  by unfold State.markDue; split <;> rfl
@[simp] theorem State.markDue_sup (s : State) (e : Due) : (s.markDue e).sup = s.sup :=
  by unfold State.markDue; split <;> rfl
@[simp] theorem State.markDue_events (s : State) (e : Due) : (s.markDue e).events = s.events :=
  by unfold State.markDue; split <;> rfl
@[simp] theorem State.markDue_svc (s : State) (e : Due) : (s.markDue e).svc = s.svc :=
  by unfold State.markDue; split <;> rfl

@[simp] theorem State.unDue_pending (s : State) (e : Due) : (s.unDue e).pending = s.pending := rfl
@[simp] theorem State.unDue_loader (s : State) (e : Due) : (s.unDue e).loader = s.loader := rfl
@[simp] theorem State.unDue_clock (s : State) (e : Due) : (s.unDue e).clock = s.clock := rfl
@[simp] theorem State.unDue_settings (s : State) (e : Due) : (s.unDue e).settings = s.settings := rfl
@[simp] theorem State.unDue_links (s : State) (e : Due) : (s.unDue e).links = s.links := rfl
@[simp] theorem State.unDue_dist (s : State) (e : Due) : (s.unDue e).dist = s.dist := rfl
@[simp] theorem State.unDue_comb (s : State) (e : Due) : (s.unDue e).comb = s.comb := rfl
@[simp] theorem State.unDue_meter (s : State) (e : Due) : (s.unDue e).meter = s.meter := rfl
@[simp] theorem State.unDue_map (s : State) (e : Due) : (s.unDue e).map = s.map := rfl
@[simp] theorem State.unDue_engine (s : State) (e : Due) : (s.unDue e).engine = s.engine := rfl
@[simp] theorem State.unDue_spreader (s : State) (e : Due) : (s.unDue e).spreader = s.spreader := rfl
@[simp] theorem State.unDue_store (s : State) (e : Due) : (s.unDue e).store = s.store := rfl
@[simp] theorem State.unDue_sup (s : State) (e : Due) : (s.unDue e).sup = s.sup := rfl
@[simp] theorem State.unDue_events (s : State) (e : Due) : (s.unDue e).events = s.events := rfl
@[simp] theorem State.unDue_svc (s : State) (e : Due) : (s.unDue e).svc = s.svc := rfl

@[simp] theorem State.post_pending (s : State) (k : EventKind) (x : Subject) (d : BitVec 16) : (s.post k x d).pending = s.pending :=
  rfl
@[simp] theorem State.post_loader (s : State) (k : EventKind) (x : Subject) (d : BitVec 16) : (s.post k x d).loader = s.loader :=
  rfl
@[simp] theorem State.post_clock (s : State) (k : EventKind) (x : Subject) (d : BitVec 16) : (s.post k x d).clock = s.clock :=
  rfl
@[simp] theorem State.post_settings (s : State) (k : EventKind) (x : Subject) (d : BitVec 16) : (s.post k x d).settings = s.settings :=
  rfl
@[simp] theorem State.post_links (s : State) (k : EventKind) (x : Subject) (d : BitVec 16) : (s.post k x d).links = s.links :=
  rfl
@[simp] theorem State.post_dist (s : State) (k : EventKind) (x : Subject) (d : BitVec 16) : (s.post k x d).dist = s.dist :=
  rfl
@[simp] theorem State.post_comb (s : State) (k : EventKind) (x : Subject) (d : BitVec 16) : (s.post k x d).comb = s.comb :=
  rfl
@[simp] theorem State.post_meter (s : State) (k : EventKind) (x : Subject) (d : BitVec 16) : (s.post k x d).meter = s.meter :=
  rfl
@[simp] theorem State.post_map (s : State) (k : EventKind) (x : Subject) (d : BitVec 16) : (s.post k x d).map = s.map :=
  rfl
@[simp] theorem State.post_engine (s : State) (k : EventKind) (x : Subject) (d : BitVec 16) : (s.post k x d).engine = s.engine :=
  rfl
@[simp] theorem State.post_spreader (s : State) (k : EventKind) (x : Subject) (d : BitVec 16) : (s.post k x d).spreader = s.spreader :=
  rfl
@[simp] theorem State.post_store (s : State) (k : EventKind) (x : Subject) (d : BitVec 16) : (s.post k x d).store = s.store :=
  rfl
@[simp] theorem State.post_sup (s : State) (k : EventKind) (x : Subject) (d : BitVec 16) : (s.post k x d).sup = s.sup :=
  rfl
@[simp] theorem State.post_svc (s : State) (k : EventKind) (x : Subject) (d : BitVec 16) : (s.post k x d).svc = s.svc :=
  rfl
@[simp] theorem State.post_boundary (s : State) (k : EventKind) (x : Subject) (d : BitVec 16) : (s.post k x d).boundary = s.boundary :=
  rfl

@[simp] theorem State.fill_pending (s : State) (p : Response) : (s.fill p).pending = s.pending := rfl
@[simp] theorem State.fill_loader (s : State) (p : Response) : (s.fill p).loader = s.loader := rfl
@[simp] theorem State.fill_clock (s : State) (p : Response) : (s.fill p).clock = s.clock := rfl
@[simp] theorem State.fill_settings (s : State) (p : Response) : (s.fill p).settings = s.settings := rfl
@[simp] theorem State.fill_links (s : State) (p : Response) : (s.fill p).links = s.links := rfl
@[simp] theorem State.fill_dist (s : State) (p : Response) : (s.fill p).dist = s.dist := rfl
@[simp] theorem State.fill_comb (s : State) (p : Response) : (s.fill p).comb = s.comb := rfl
@[simp] theorem State.fill_meter (s : State) (p : Response) : (s.fill p).meter = s.meter := rfl
@[simp] theorem State.fill_map (s : State) (p : Response) : (s.fill p).map = s.map := rfl
@[simp] theorem State.fill_engine (s : State) (p : Response) : (s.fill p).engine = s.engine := rfl
@[simp] theorem State.fill_spreader (s : State) (p : Response) : (s.fill p).spreader = s.spreader := rfl
@[simp] theorem State.fill_store (s : State) (p : Response) : (s.fill p).store = s.store := rfl
@[simp] theorem State.fill_sup (s : State) (p : Response) : (s.fill p).sup = s.sup := rfl
@[simp] theorem State.fill_events (s : State) (p : Response) : (s.fill p).events = s.events := rfl
@[simp] theorem State.fill_boundary (s : State) (p : Response) : (s.fill p).boundary = s.boundary := rfl

@[simp] theorem State.reserve_pending (s : State) (v : Reservation) : (s.reserve v).pending = s.pending := rfl
@[simp] theorem State.reserve_loader (s : State) (v : Reservation) : (s.reserve v).loader = s.loader := rfl
@[simp] theorem State.reserve_clock (s : State) (v : Reservation) : (s.reserve v).clock = s.clock := rfl
@[simp] theorem State.reserve_settings (s : State) (v : Reservation) : (s.reserve v).settings = s.settings :=
  rfl
@[simp] theorem State.reserve_links (s : State) (v : Reservation) : (s.reserve v).links = s.links := rfl
@[simp] theorem State.reserve_dist (s : State) (v : Reservation) : (s.reserve v).dist = s.dist := rfl
@[simp] theorem State.reserve_comb (s : State) (v : Reservation) : (s.reserve v).comb = s.comb := rfl
@[simp] theorem State.reserve_meter (s : State) (v : Reservation) : (s.reserve v).meter = s.meter := rfl
@[simp] theorem State.reserve_map (s : State) (v : Reservation) : (s.reserve v).map = s.map := rfl
@[simp] theorem State.reserve_engine (s : State) (v : Reservation) : (s.reserve v).engine = s.engine := rfl
@[simp] theorem State.reserve_spreader (s : State) (v : Reservation) : (s.reserve v).spreader = s.spreader :=
  rfl
@[simp] theorem State.reserve_store (s : State) (v : Reservation) : (s.reserve v).store = s.store := rfl
@[simp] theorem State.reserve_sup (s : State) (v : Reservation) : (s.reserve v).sup = s.sup := rfl
@[simp] theorem State.reserve_events (s : State) (v : Reservation) : (s.reserve v).events = s.events := rfl
@[simp] theorem State.reserve_boundary (s : State) (v : Reservation) : (s.reserve v).boundary = s.boundary :=
  rfl

@[simp] theorem State.fillReserved_pending (s : State) (v : Reservation) (p : Response) : (s.fillReserved v p).pending = s.pending :=
  by unfold State.fillReserved; split <;> rfl
@[simp] theorem State.fillReserved_loader (s : State) (v : Reservation) (p : Response) : (s.fillReserved v p).loader = s.loader :=
  by unfold State.fillReserved; split <;> rfl
@[simp] theorem State.fillReserved_clock (s : State) (v : Reservation) (p : Response) : (s.fillReserved v p).clock = s.clock :=
  by unfold State.fillReserved; split <;> rfl
@[simp] theorem State.fillReserved_settings (s : State) (v : Reservation) (p : Response) : (s.fillReserved v p).settings = s.settings :=
  by unfold State.fillReserved; split <;> rfl
@[simp] theorem State.fillReserved_links (s : State) (v : Reservation) (p : Response) : (s.fillReserved v p).links = s.links :=
  by unfold State.fillReserved; split <;> rfl
@[simp] theorem State.fillReserved_dist (s : State) (v : Reservation) (p : Response) : (s.fillReserved v p).dist = s.dist :=
  by unfold State.fillReserved; split <;> rfl
@[simp] theorem State.fillReserved_comb (s : State) (v : Reservation) (p : Response) : (s.fillReserved v p).comb = s.comb :=
  by unfold State.fillReserved; split <;> rfl
@[simp] theorem State.fillReserved_meter (s : State) (v : Reservation) (p : Response) : (s.fillReserved v p).meter = s.meter :=
  by unfold State.fillReserved; split <;> rfl
@[simp] theorem State.fillReserved_map (s : State) (v : Reservation) (p : Response) : (s.fillReserved v p).map = s.map :=
  by unfold State.fillReserved; split <;> rfl
@[simp] theorem State.fillReserved_engine (s : State) (v : Reservation) (p : Response) : (s.fillReserved v p).engine = s.engine :=
  by unfold State.fillReserved; split <;> rfl
@[simp] theorem State.fillReserved_spreader (s : State) (v : Reservation) (p : Response) : (s.fillReserved v p).spreader = s.spreader :=
  by unfold State.fillReserved; split <;> rfl
@[simp] theorem State.fillReserved_store (s : State) (v : Reservation) (p : Response) : (s.fillReserved v p).store = s.store :=
  by unfold State.fillReserved; split <;> rfl
@[simp] theorem State.fillReserved_sup (s : State) (v : Reservation) (p : Response) : (s.fillReserved v p).sup = s.sup :=
  by unfold State.fillReserved; split <;> rfl
@[simp] theorem State.fillReserved_events (s : State) (v : Reservation) (p : Response) : (s.fillReserved v p).events = s.events :=
  by unfold State.fillReserved; split <;> rfl
@[simp] theorem State.fillReserved_boundary (s : State) (v : Reservation) (p : Response) : (s.fillReserved v p).boundary = s.boundary :=
  by unfold State.fillReserved; split <;> rfl

@[simp] theorem State.setPass_pending (s : State) (r : RemoteId) (p : Option Pass) : (s.setPass r p).pending = s.pending :=
  rfl
@[simp] theorem State.setPass_loader (s : State) (r : RemoteId) (p : Option Pass) : (s.setPass r p).loader = s.loader :=
  rfl
@[simp] theorem State.setPass_clock (s : State) (r : RemoteId) (p : Option Pass) : (s.setPass r p).clock = s.clock :=
  rfl
@[simp] theorem State.setPass_settings (s : State) (r : RemoteId) (p : Option Pass) : (s.setPass r p).settings = s.settings :=
  rfl
@[simp] theorem State.setPass_links (s : State) (r : RemoteId) (p : Option Pass) : (s.setPass r p).links = s.links :=
  rfl
@[simp] theorem State.setPass_dist (s : State) (r : RemoteId) (p : Option Pass) : (s.setPass r p).dist = s.dist :=
  rfl
@[simp] theorem State.setPass_comb (s : State) (r : RemoteId) (p : Option Pass) : (s.setPass r p).comb = s.comb :=
  rfl
@[simp] theorem State.setPass_meter (s : State) (r : RemoteId) (p : Option Pass) : (s.setPass r p).meter = s.meter :=
  rfl
@[simp] theorem State.setPass_map (s : State) (r : RemoteId) (p : Option Pass) : (s.setPass r p).map = s.map :=
  rfl
@[simp] theorem State.setPass_engine (s : State) (r : RemoteId) (p : Option Pass) : (s.setPass r p).engine = s.engine :=
  rfl
@[simp] theorem State.setPass_spreader (s : State) (r : RemoteId) (p : Option Pass) : (s.setPass r p).spreader = s.spreader :=
  rfl
@[simp] theorem State.setPass_store (s : State) (r : RemoteId) (p : Option Pass) : (s.setPass r p).store = s.store :=
  rfl
@[simp] theorem State.setPass_sup (s : State) (r : RemoteId) (p : Option Pass) : (s.setPass r p).sup = s.sup :=
  rfl
@[simp] theorem State.setPass_events (s : State) (r : RemoteId) (p : Option Pass) : (s.setPass r p).events = s.events :=
  rfl
@[simp] theorem State.setPass_boundary (s : State) (r : RemoteId) (p : Option Pass) : (s.setPass r p).boundary = s.boundary :=
  rfl

@[simp] theorem State.setRefused_pending (s : State) (r : RemoteId) (ms : List Relayed) : (s.setRefused r ms).pending = s.pending :=
  rfl
@[simp] theorem State.setRefused_loader (s : State) (r : RemoteId) (ms : List Relayed) : (s.setRefused r ms).loader = s.loader :=
  rfl
@[simp] theorem State.setRefused_clock (s : State) (r : RemoteId) (ms : List Relayed) : (s.setRefused r ms).clock = s.clock :=
  rfl
@[simp] theorem State.setRefused_settings (s : State) (r : RemoteId) (ms : List Relayed) : (s.setRefused r ms).settings = s.settings :=
  rfl
@[simp] theorem State.setRefused_links (s : State) (r : RemoteId) (ms : List Relayed) : (s.setRefused r ms).links = s.links :=
  rfl
@[simp] theorem State.setRefused_dist (s : State) (r : RemoteId) (ms : List Relayed) : (s.setRefused r ms).dist = s.dist :=
  rfl
@[simp] theorem State.setRefused_comb (s : State) (r : RemoteId) (ms : List Relayed) : (s.setRefused r ms).comb = s.comb :=
  rfl
@[simp] theorem State.setRefused_meter (s : State) (r : RemoteId) (ms : List Relayed) : (s.setRefused r ms).meter = s.meter :=
  rfl
@[simp] theorem State.setRefused_map (s : State) (r : RemoteId) (ms : List Relayed) : (s.setRefused r ms).map = s.map :=
  rfl
@[simp] theorem State.setRefused_engine (s : State) (r : RemoteId) (ms : List Relayed) : (s.setRefused r ms).engine = s.engine :=
  rfl
@[simp] theorem State.setRefused_spreader (s : State) (r : RemoteId) (ms : List Relayed) : (s.setRefused r ms).spreader = s.spreader :=
  rfl
@[simp] theorem State.setRefused_store (s : State) (r : RemoteId) (ms : List Relayed) : (s.setRefused r ms).store = s.store :=
  rfl
@[simp] theorem State.setRefused_sup (s : State) (r : RemoteId) (ms : List Relayed) : (s.setRefused r ms).sup = s.sup :=
  rfl
@[simp] theorem State.setRefused_events (s : State) (r : RemoteId) (ms : List Relayed) : (s.setRefused r ms).events = s.events :=
  rfl
@[simp] theorem State.setRefused_boundary (s : State) (r : RemoteId) (ms : List Relayed) : (s.setRefused r ms).boundary = s.boundary :=
  rfl

@[simp] theorem State.setReference_pending (s : State) (n : Option DonorId) : (s.setReference n).pending = s.pending :=
  rfl
@[simp] theorem State.setReference_loader (s : State) (n : Option DonorId) : (s.setReference n).loader = s.loader :=
  rfl
@[simp] theorem State.setReference_settings (s : State) (n : Option DonorId) : (s.setReference n).settings = s.settings :=
  rfl
@[simp] theorem State.setReference_links (s : State) (n : Option DonorId) : (s.setReference n).links = s.links :=
  rfl
@[simp] theorem State.setReference_dist (s : State) (n : Option DonorId) : (s.setReference n).dist = s.dist :=
  rfl
@[simp] theorem State.setReference_comb (s : State) (n : Option DonorId) : (s.setReference n).comb = s.comb :=
  rfl
@[simp] theorem State.setReference_meter (s : State) (n : Option DonorId) : (s.setReference n).meter = s.meter :=
  rfl
@[simp] theorem State.setReference_map (s : State) (n : Option DonorId) : (s.setReference n).map = s.map :=
  rfl
@[simp] theorem State.setReference_engine (s : State) (n : Option DonorId) : (s.setReference n).engine = s.engine :=
  rfl
@[simp] theorem State.setReference_spreader (s : State) (n : Option DonorId) : (s.setReference n).spreader = s.spreader :=
  rfl
@[simp] theorem State.setReference_store (s : State) (n : Option DonorId) : (s.setReference n).store = s.store :=
  rfl
@[simp] theorem State.setReference_sup (s : State) (n : Option DonorId) : (s.setReference n).sup = s.sup :=
  rfl
@[simp] theorem State.setReference_events (s : State) (n : Option DonorId) : (s.setReference n).events = s.events :=
  rfl
@[simp] theorem State.setReference_svc (s : State) (n : Option DonorId) : (s.setReference n).svc = s.svc :=
  rfl
@[simp] theorem State.setReference_boundary (s : State) (n : Option DonorId) : (s.setReference n).boundary = s.boundary :=
  rfl

@[simp] theorem State.setSchedule_pending (s : State) (c : Option Schedule) : (s.setSchedule c).pending = s.pending :=
  rfl
@[simp] theorem State.setSchedule_loader (s : State) (c : Option Schedule) : (s.setSchedule c).loader = s.loader :=
  rfl
@[simp] theorem State.setSchedule_clock (s : State) (c : Option Schedule) : (s.setSchedule c).clock = s.clock :=
  rfl
@[simp] theorem State.setSchedule_settings (s : State) (c : Option Schedule) : (s.setSchedule c).settings = s.settings :=
  rfl
@[simp] theorem State.setSchedule_links (s : State) (c : Option Schedule) : (s.setSchedule c).links = s.links :=
  rfl
@[simp] theorem State.setSchedule_dist (s : State) (c : Option Schedule) : (s.setSchedule c).dist = s.dist :=
  rfl
@[simp] theorem State.setSchedule_comb (s : State) (c : Option Schedule) : (s.setSchedule c).comb = s.comb :=
  rfl
@[simp] theorem State.setSchedule_meter (s : State) (c : Option Schedule) : (s.setSchedule c).meter = s.meter :=
  rfl
@[simp] theorem State.setSchedule_map (s : State) (c : Option Schedule) : (s.setSchedule c).map = s.map := rfl
@[simp] theorem State.setSchedule_engine (s : State) (c : Option Schedule) : (s.setSchedule c).engine = s.engine :=
  rfl
@[simp] theorem State.setSchedule_spreader (s : State) (c : Option Schedule) : (s.setSchedule c).spreader = s.spreader :=
  rfl
@[simp] theorem State.setSchedule_sup (s : State) (c : Option Schedule) : (s.setSchedule c).sup = s.sup := rfl
@[simp] theorem State.setSchedule_events (s : State) (c : Option Schedule) : (s.setSchedule c).events = s.events :=
  rfl
@[simp] theorem State.setSchedule_svc (s : State) (c : Option Schedule) : (s.setSchedule c).svc = s.svc := rfl
@[simp] theorem State.setSchedule_boundary (s : State) (c : Option Schedule) : (s.setSchedule c).boundary = s.boundary :=
  rfl

@[simp] theorem State.writeHistory_pending (s : State) (r : RemoteId) : (s.writeHistory r).pending = s.pending :=
  rfl
@[simp] theorem State.writeHistory_loader (s : State) (r : RemoteId) : (s.writeHistory r).loader = s.loader :=
  rfl
@[simp] theorem State.writeHistory_clock (s : State) (r : RemoteId) : (s.writeHistory r).clock = s.clock :=
  rfl
@[simp] theorem State.writeHistory_settings (s : State) (r : RemoteId) : (s.writeHistory r).settings = s.settings :=
  rfl
@[simp] theorem State.writeHistory_links (s : State) (r : RemoteId) : (s.writeHistory r).links = s.links :=
  rfl
@[simp] theorem State.writeHistory_dist (s : State) (r : RemoteId) : (s.writeHistory r).dist = s.dist := rfl
@[simp] theorem State.writeHistory_meter (s : State) (r : RemoteId) : (s.writeHistory r).meter = s.meter :=
  rfl
@[simp] theorem State.writeHistory_map (s : State) (r : RemoteId) : (s.writeHistory r).map = s.map := rfl
@[simp] theorem State.writeHistory_engine (s : State) (r : RemoteId) : (s.writeHistory r).engine = s.engine :=
  rfl
@[simp] theorem State.writeHistory_spreader (s : State) (r : RemoteId) : (s.writeHistory r).spreader = s.spreader :=
  rfl
@[simp] theorem State.writeHistory_store (s : State) (r : RemoteId) : (s.writeHistory r).store = s.store :=
  rfl
@[simp] theorem State.writeHistory_sup (s : State) (r : RemoteId) : (s.writeHistory r).sup = s.sup := rfl
@[simp] theorem State.writeHistory_events (s : State) (r : RemoteId) : (s.writeHistory r).events = s.events :=
  rfl
@[simp] theorem State.writeHistory_svc (s : State) (r : RemoteId) : (s.writeHistory r).svc = s.svc := rfl
@[simp] theorem State.writeHistory_boundary (s : State) (r : RemoteId) : (s.writeHistory r).boundary = s.boundary :=
  rfl

@[simp] theorem State.markStale_pending (s : State) (r : RemoteId) : (s.markStale r).pending = s.pending :=
  rfl
@[simp] theorem State.markStale_loader (s : State) (r : RemoteId) : (s.markStale r).loader = s.loader := rfl
@[simp] theorem State.markStale_clock (s : State) (r : RemoteId) : (s.markStale r).clock = s.clock := rfl
@[simp] theorem State.markStale_settings (s : State) (r : RemoteId) : (s.markStale r).settings = s.settings :=
  rfl
@[simp] theorem State.markStale_links (s : State) (r : RemoteId) : (s.markStale r).links = s.links := rfl
@[simp] theorem State.markStale_dist (s : State) (r : RemoteId) : (s.markStale r).dist = s.dist := rfl
@[simp] theorem State.markStale_comb (s : State) (r : RemoteId) : (s.markStale r).comb = s.comb := rfl
@[simp] theorem State.markStale_map (s : State) (r : RemoteId) : (s.markStale r).map = s.map := rfl
@[simp] theorem State.markStale_engine (s : State) (r : RemoteId) : (s.markStale r).engine = s.engine := rfl
@[simp] theorem State.markStale_spreader (s : State) (r : RemoteId) : (s.markStale r).spreader = s.spreader :=
  rfl
@[simp] theorem State.markStale_store (s : State) (r : RemoteId) : (s.markStale r).store = s.store := rfl
@[simp] theorem State.markStale_sup (s : State) (r : RemoteId) : (s.markStale r).sup = s.sup := rfl
@[simp] theorem State.markStale_events (s : State) (r : RemoteId) : (s.markStale r).events = s.events := rfl
@[simp] theorem State.markStale_svc (s : State) (r : RemoteId) : (s.markStale r).svc = s.svc := rfl
@[simp] theorem State.markStale_boundary (s : State) (r : RemoteId) : (s.markStale r).boundary = s.boundary :=
  rfl

@[simp] theorem State.dropRequest_pending (s : State) : (s.dropRequest).pending = s.pending := rfl
@[simp] theorem State.dropRequest_loader (s : State) : (s.dropRequest).loader = s.loader := rfl
@[simp] theorem State.dropRequest_clock (s : State) : (s.dropRequest).clock = s.clock := rfl
@[simp] theorem State.dropRequest_settings (s : State) : (s.dropRequest).settings = s.settings := rfl
@[simp] theorem State.dropRequest_links (s : State) : (s.dropRequest).links = s.links := rfl
@[simp] theorem State.dropRequest_dist (s : State) : (s.dropRequest).dist = s.dist := rfl
@[simp] theorem State.dropRequest_comb (s : State) : (s.dropRequest).comb = s.comb := rfl
@[simp] theorem State.dropRequest_meter (s : State) : (s.dropRequest).meter = s.meter := rfl
@[simp] theorem State.dropRequest_map (s : State) : (s.dropRequest).map = s.map := rfl
@[simp] theorem State.dropRequest_engine (s : State) : (s.dropRequest).engine = s.engine := rfl
@[simp] theorem State.dropRequest_spreader (s : State) : (s.dropRequest).spreader = s.spreader := rfl
@[simp] theorem State.dropRequest_store (s : State) : (s.dropRequest).store = s.store := rfl
@[simp] theorem State.dropRequest_sup (s : State) : (s.dropRequest).sup = s.sup := rfl
@[simp] theorem State.dropRequest_events (s : State) : (s.dropRequest).events = s.events := rfl
@[simp] theorem State.dropRequest_boundary (s : State) : (s.dropRequest).boundary = s.boundary := rfl

@[simp] theorem State.dropHanded_pending (s : State) (l : Link) : (s.dropHanded l).pending = s.pending :=
  by cases l <;> rfl
@[simp] theorem State.dropHanded_loader (s : State) (l : Link) : (s.dropHanded l).loader = s.loader :=
  by cases l <;> rfl
@[simp] theorem State.dropHanded_clock (s : State) (l : Link) : (s.dropHanded l).clock = s.clock :=
  by cases l <;> rfl
@[simp] theorem State.dropHanded_settings (s : State) (l : Link) : (s.dropHanded l).settings = s.settings :=
  by cases l <;> rfl
@[simp] theorem State.dropHanded_dist (s : State) (l : Link) : (s.dropHanded l).dist = s.dist :=
  by cases l <;> rfl
@[simp] theorem State.dropHanded_comb (s : State) (l : Link) : (s.dropHanded l).comb = s.comb :=
  by cases l <;> rfl
@[simp] theorem State.dropHanded_meter (s : State) (l : Link) : (s.dropHanded l).meter = s.meter :=
  by cases l <;> rfl
@[simp] theorem State.dropHanded_map (s : State) (l : Link) : (s.dropHanded l).map = s.map :=
  by cases l <;> rfl
@[simp] theorem State.dropHanded_engine (s : State) (l : Link) : (s.dropHanded l).engine = s.engine :=
  by cases l <;> rfl
@[simp] theorem State.dropHanded_spreader (s : State) (l : Link) : (s.dropHanded l).spreader = s.spreader :=
  by cases l <;> rfl
@[simp] theorem State.dropHanded_store (s : State) (l : Link) : (s.dropHanded l).store = s.store :=
  by cases l <;> rfl
@[simp] theorem State.dropHanded_sup (s : State) (l : Link) : (s.dropHanded l).sup = s.sup :=
  by cases l <;> rfl
@[simp] theorem State.dropHanded_events (s : State) (l : Link) : (s.dropHanded l).events = s.events :=
  by cases l <;> rfl
@[simp] theorem State.dropHanded_svc (s : State) (l : Link) : (s.dropHanded l).svc = s.svc :=
  by cases l <;> rfl
@[simp] theorem State.dropHanded_boundary (s : State) (l : Link) : (s.dropHanded l).boundary = s.boundary :=
  by cases l <;> rfl

@[simp] theorem State.beginRamp_pending (s : State) (r : RemoteId) : (s.beginRamp r).pending = s.pending :=
  rfl
@[simp] theorem State.beginRamp_loader (s : State) (r : RemoteId) : (s.beginRamp r).loader = s.loader := rfl
@[simp] theorem State.beginRamp_clock (s : State) (r : RemoteId) : (s.beginRamp r).clock = s.clock := rfl
@[simp] theorem State.beginRamp_settings (s : State) (r : RemoteId) : (s.beginRamp r).settings = s.settings :=
  rfl
@[simp] theorem State.beginRamp_links (s : State) (r : RemoteId) : (s.beginRamp r).links = s.links := rfl
@[simp] theorem State.beginRamp_comb (s : State) (r : RemoteId) : (s.beginRamp r).comb = s.comb := rfl
@[simp] theorem State.beginRamp_meter (s : State) (r : RemoteId) : (s.beginRamp r).meter = s.meter := rfl
@[simp] theorem State.beginRamp_map (s : State) (r : RemoteId) : (s.beginRamp r).map = s.map := rfl
@[simp] theorem State.beginRamp_engine (s : State) (r : RemoteId) : (s.beginRamp r).engine = s.engine := rfl
@[simp] theorem State.beginRamp_spreader (s : State) (r : RemoteId) : (s.beginRamp r).spreader = s.spreader :=
  rfl
@[simp] theorem State.beginRamp_store (s : State) (r : RemoteId) : (s.beginRamp r).store = s.store := rfl
@[simp] theorem State.beginRamp_sup (s : State) (r : RemoteId) : (s.beginRamp r).sup = s.sup := rfl
@[simp] theorem State.beginRamp_events (s : State) (r : RemoteId) : (s.beginRamp r).events = s.events := rfl
@[simp] theorem State.beginRamp_svc (s : State) (r : RemoteId) : (s.beginRamp r).svc = s.svc := rfl
@[simp] theorem State.beginRamp_boundary (s : State) (r : RemoteId) : (s.beginRamp r).boundary = s.boundary :=
  rfl

@[simp] theorem State.diverge_pending (s : State) : (s.diverge).pending = s.pending := rfl
@[simp] theorem State.diverge_loader (s : State) : (s.diverge).loader = s.loader := rfl
@[simp] theorem State.diverge_clock (s : State) : (s.diverge).clock = s.clock := rfl
@[simp] theorem State.diverge_settings (s : State) : (s.diverge).settings = s.settings := rfl
@[simp] theorem State.diverge_links (s : State) : (s.diverge).links = s.links := rfl
@[simp] theorem State.diverge_dist (s : State) : (s.diverge).dist = s.dist := rfl
@[simp] theorem State.diverge_comb (s : State) : (s.diverge).comb = s.comb := rfl
@[simp] theorem State.diverge_meter (s : State) : (s.diverge).meter = s.meter := rfl
@[simp] theorem State.diverge_engine (s : State) : (s.diverge).engine = s.engine := rfl
@[simp] theorem State.diverge_spreader (s : State) : (s.diverge).spreader = s.spreader := rfl
@[simp] theorem State.diverge_store (s : State) : (s.diverge).store = s.store := rfl
@[simp] theorem State.diverge_sup (s : State) : (s.diverge).sup = s.sup := rfl
@[simp] theorem State.diverge_events (s : State) : (s.diverge).events = s.events := rfl
@[simp] theorem State.diverge_svc (s : State) : (s.diverge).svc = s.svc := rfl
@[simp] theorem State.diverge_boundary (s : State) : (s.diverge).boundary = s.boundary := rfl

@[simp] theorem State.setTap_pending (s : State) (t : Tap) : (s.setTap t).pending = s.pending := rfl
@[simp] theorem State.setTap_loader (s : State) (t : Tap) : (s.setTap t).loader = s.loader := rfl
@[simp] theorem State.setTap_clock (s : State) (t : Tap) : (s.setTap t).clock = s.clock := rfl
@[simp] theorem State.setTap_settings (s : State) (t : Tap) : (s.setTap t).settings = s.settings := rfl
@[simp] theorem State.setTap_links (s : State) (t : Tap) : (s.setTap t).links = s.links := rfl
@[simp] theorem State.setTap_dist (s : State) (t : Tap) : (s.setTap t).dist = s.dist := rfl
@[simp] theorem State.setTap_comb (s : State) (t : Tap) : (s.setTap t).comb = s.comb := rfl
@[simp] theorem State.setTap_meter (s : State) (t : Tap) : (s.setTap t).meter = s.meter := rfl
@[simp] theorem State.setTap_map (s : State) (t : Tap) : (s.setTap t).map = s.map := rfl
@[simp] theorem State.setTap_engine (s : State) (t : Tap) : (s.setTap t).engine = s.engine := rfl
@[simp] theorem State.setTap_spreader (s : State) (t : Tap) : (s.setTap t).spreader = s.spreader := rfl
@[simp] theorem State.setTap_store (s : State) (t : Tap) : (s.setTap t).store = s.store := rfl
@[simp] theorem State.setTap_sup (s : State) (t : Tap) : (s.setTap t).sup = s.sup := rfl
@[simp] theorem State.setTap_events (s : State) (t : Tap) : (s.setTap t).events = s.events := rfl
@[simp] theorem State.setTap_boundary (s : State) (t : Tap) : (s.setTap t).boundary = s.boundary := rfl

@[simp] theorem State.modPlan_pending (s : State) (p : PlanId) (f : Plan → Plan) : (s.modPlan p f).pending = s.pending :=
  rfl
@[simp] theorem State.modPlan_loader (s : State) (p : PlanId) (f : Plan → Plan) : (s.modPlan p f).loader = s.loader :=
  rfl
@[simp] theorem State.modPlan_clock (s : State) (p : PlanId) (f : Plan → Plan) : (s.modPlan p f).clock = s.clock :=
  rfl
@[simp] theorem State.modPlan_settings (s : State) (p : PlanId) (f : Plan → Plan) : (s.modPlan p f).settings = s.settings :=
  rfl
@[simp] theorem State.modPlan_links (s : State) (p : PlanId) (f : Plan → Plan) : (s.modPlan p f).links = s.links :=
  rfl
@[simp] theorem State.modPlan_dist (s : State) (p : PlanId) (f : Plan → Plan) : (s.modPlan p f).dist = s.dist :=
  rfl
@[simp] theorem State.modPlan_comb (s : State) (p : PlanId) (f : Plan → Plan) : (s.modPlan p f).comb = s.comb :=
  rfl
@[simp] theorem State.modPlan_meter (s : State) (p : PlanId) (f : Plan → Plan) : (s.modPlan p f).meter = s.meter :=
  rfl
@[simp] theorem State.modPlan_map (s : State) (p : PlanId) (f : Plan → Plan) : (s.modPlan p f).map = s.map :=
  rfl
@[simp] theorem State.modPlan_engine (s : State) (p : PlanId) (f : Plan → Plan) : (s.modPlan p f).engine = s.engine :=
  rfl
@[simp] theorem State.modPlan_spreader (s : State) (p : PlanId) (f : Plan → Plan) : (s.modPlan p f).spreader = s.spreader :=
  rfl
@[simp] theorem State.modPlan_sup (s : State) (p : PlanId) (f : Plan → Plan) : (s.modPlan p f).sup = s.sup :=
  rfl
@[simp] theorem State.modPlan_events (s : State) (p : PlanId) (f : Plan → Plan) : (s.modPlan p f).events = s.events :=
  rfl
@[simp] theorem State.modPlan_svc (s : State) (p : PlanId) (f : Plan → Plan) : (s.modPlan p f).svc = s.svc :=
  rfl
@[simp] theorem State.modPlan_boundary (s : State) (p : PlanId) (f : Plan → Plan) : (s.modPlan p f).boundary = s.boundary :=
  rfl

@[simp] theorem State.clearLinks_pending (s : State) : (s.clearLinks).pending = s.pending := rfl
@[simp] theorem State.clearLinks_loader (s : State) : (s.clearLinks).loader = s.loader := rfl
@[simp] theorem State.clearLinks_clock (s : State) : (s.clearLinks).clock = s.clock := rfl
@[simp] theorem State.clearLinks_settings (s : State) : (s.clearLinks).settings = s.settings := rfl
@[simp] theorem State.clearLinks_dist (s : State) : (s.clearLinks).dist = s.dist := rfl
@[simp] theorem State.clearLinks_comb (s : State) : (s.clearLinks).comb = s.comb := rfl
@[simp] theorem State.clearLinks_meter (s : State) : (s.clearLinks).meter = s.meter := rfl
@[simp] theorem State.clearLinks_map (s : State) : (s.clearLinks).map = s.map := rfl
@[simp] theorem State.clearLinks_engine (s : State) : (s.clearLinks).engine = s.engine := rfl
@[simp] theorem State.clearLinks_spreader (s : State) : (s.clearLinks).spreader = s.spreader := rfl
@[simp] theorem State.clearLinks_store (s : State) : (s.clearLinks).store = s.store := rfl
@[simp] theorem State.clearLinks_sup (s : State) : (s.clearLinks).sup = s.sup := rfl
@[simp] theorem State.clearLinks_events (s : State) : (s.clearLinks).events = s.events := rfl
@[simp] theorem State.clearLinks_svc (s : State) : (s.clearLinks).svc = s.svc := rfl
@[simp] theorem State.clearLinks_boundary (s : State) : (s.clearLinks).boundary = s.boundary := rfl

@[simp] theorem State.clearUplink_pending (s : State) : (s.clearUplink).pending = s.pending := rfl
@[simp] theorem State.clearUplink_loader (s : State) : (s.clearUplink).loader = s.loader := rfl
@[simp] theorem State.clearUplink_clock (s : State) : (s.clearUplink).clock = s.clock := rfl
@[simp] theorem State.clearUplink_settings (s : State) : (s.clearUplink).settings = s.settings := rfl
@[simp] theorem State.clearUplink_links (s : State) : (s.clearUplink).links = s.links := rfl
@[simp] theorem State.clearUplink_dist (s : State) : (s.clearUplink).dist = s.dist := rfl
@[simp] theorem State.clearUplink_meter (s : State) : (s.clearUplink).meter = s.meter := rfl
@[simp] theorem State.clearUplink_map (s : State) : (s.clearUplink).map = s.map := rfl
@[simp] theorem State.clearUplink_engine (s : State) : (s.clearUplink).engine = s.engine := rfl
@[simp] theorem State.clearUplink_spreader (s : State) : (s.clearUplink).spreader = s.spreader := rfl
@[simp] theorem State.clearUplink_store (s : State) : (s.clearUplink).store = s.store := rfl
@[simp] theorem State.clearUplink_sup (s : State) : (s.clearUplink).sup = s.sup := rfl
@[simp] theorem State.clearUplink_events (s : State) : (s.clearUplink).events = s.events := rfl
@[simp] theorem State.clearUplink_svc (s : State) : (s.clearUplink).svc = s.svc := rfl
@[simp] theorem State.clearUplink_boundary (s : State) : (s.clearUplink).boundary = s.boundary := rfl

@[simp] theorem State.clearService_pending (s : State) : (s.clearService).pending = s.pending := rfl
@[simp] theorem State.clearService_loader (s : State) : (s.clearService).loader = s.loader := rfl
@[simp] theorem State.clearService_clock (s : State) : (s.clearService).clock = s.clock := rfl
@[simp] theorem State.clearService_settings (s : State) : (s.clearService).settings = s.settings := rfl
@[simp] theorem State.clearService_links (s : State) : (s.clearService).links = s.links := rfl
@[simp] theorem State.clearService_dist (s : State) : (s.clearService).dist = s.dist := rfl
@[simp] theorem State.clearService_comb (s : State) : (s.clearService).comb = s.comb := rfl
@[simp] theorem State.clearService_meter (s : State) : (s.clearService).meter = s.meter := rfl
@[simp] theorem State.clearService_map (s : State) : (s.clearService).map = s.map := rfl
@[simp] theorem State.clearService_engine (s : State) : (s.clearService).engine = s.engine := rfl
@[simp] theorem State.clearService_spreader (s : State) : (s.clearService).spreader = s.spreader := rfl
@[simp] theorem State.clearService_store (s : State) : (s.clearService).store = s.store := rfl
@[simp] theorem State.clearService_sup (s : State) : (s.clearService).sup = s.sup := rfl
@[simp] theorem State.clearService_events (s : State) : (s.clearService).events = s.events := rfl
@[simp] theorem State.clearService_boundary (s : State) : (s.clearService).boundary = s.boundary := rfl

@[simp] theorem State.noteWeights_pending (s : State) : (s.noteWeights).pending = s.pending := rfl
@[simp] theorem State.noteWeights_loader (s : State) : (s.noteWeights).loader = s.loader := rfl
@[simp] theorem State.noteWeights_clock (s : State) : (s.noteWeights).clock = s.clock := rfl
@[simp] theorem State.noteWeights_settings (s : State) : (s.noteWeights).settings = s.settings := rfl
@[simp] theorem State.noteWeights_links (s : State) : (s.noteWeights).links = s.links := rfl
@[simp] theorem State.noteWeights_dist (s : State) : (s.noteWeights).dist = s.dist := rfl
@[simp] theorem State.noteWeights_meter (s : State) : (s.noteWeights).meter = s.meter := rfl
@[simp] theorem State.noteWeights_map (s : State) : (s.noteWeights).map = s.map := rfl
@[simp] theorem State.noteWeights_engine (s : State) : (s.noteWeights).engine = s.engine := rfl
@[simp] theorem State.noteWeights_spreader (s : State) : (s.noteWeights).spreader = s.spreader := rfl
@[simp] theorem State.noteWeights_store (s : State) : (s.noteWeights).store = s.store := rfl
@[simp] theorem State.noteWeights_sup (s : State) : (s.noteWeights).sup = s.sup := rfl
@[simp] theorem State.noteWeights_events (s : State) : (s.noteWeights).events = s.events := rfl
@[simp] theorem State.noteWeights_svc (s : State) : (s.noteWeights).svc = s.svc := rfl
@[simp] theorem State.noteWeights_boundary (s : State) : (s.noteWeights).boundary = s.boundary := rfl

@[simp] theorem State.release_pending (s : State) (n : FC) : (s.release n).pending = s.pending := rfl
@[simp] theorem State.release_loader (s : State) (n : FC) : (s.release n).loader = s.loader := rfl
@[simp] theorem State.release_clock (s : State) (n : FC) : (s.release n).clock = s.clock := rfl
@[simp] theorem State.release_settings (s : State) (n : FC) : (s.release n).settings = s.settings := rfl
@[simp] theorem State.release_links (s : State) (n : FC) : (s.release n).links = s.links := rfl
@[simp] theorem State.release_dist (s : State) (n : FC) : (s.release n).dist = s.dist := rfl
@[simp] theorem State.release_map (s : State) (n : FC) : (s.release n).map = s.map := rfl
@[simp] theorem State.release_engine (s : State) (n : FC) : (s.release n).engine = s.engine := rfl
@[simp] theorem State.release_spreader (s : State) (n : FC) : (s.release n).spreader = s.spreader := rfl
@[simp] theorem State.release_store (s : State) (n : FC) : (s.release n).store = s.store := rfl
@[simp] theorem State.release_sup (s : State) (n : FC) : (s.release n).sup = s.sup := rfl
@[simp] theorem State.release_events (s : State) (n : FC) : (s.release n).events = s.events := rfl
@[simp] theorem State.release_svc (s : State) (n : FC) : (s.release n).svc = s.svc := rfl
@[simp] theorem State.release_boundary (s : State) (n : FC) : (s.release n).boundary = s.boundary := rfl

@[simp] theorem State.dropPending_loader (s : State) : (s.dropPending).loader = s.loader := rfl
@[simp] theorem State.dropPending_clock (s : State) : (s.dropPending).clock = s.clock := rfl
@[simp] theorem State.dropPending_settings (s : State) : (s.dropPending).settings = s.settings := rfl
@[simp] theorem State.dropPending_links (s : State) : (s.dropPending).links = s.links := rfl
@[simp] theorem State.dropPending_dist (s : State) : (s.dropPending).dist = s.dist := rfl
@[simp] theorem State.dropPending_comb (s : State) : (s.dropPending).comb = s.comb := rfl
@[simp] theorem State.dropPending_meter (s : State) : (s.dropPending).meter = s.meter := rfl
@[simp] theorem State.dropPending_map (s : State) : (s.dropPending).map = s.map := rfl
@[simp] theorem State.dropPending_engine (s : State) : (s.dropPending).engine = s.engine := rfl
@[simp] theorem State.dropPending_spreader (s : State) : (s.dropPending).spreader = s.spreader := rfl
@[simp] theorem State.dropPending_store (s : State) : (s.dropPending).store = s.store := rfl
@[simp] theorem State.dropPending_sup (s : State) : (s.dropPending).sup = s.sup := rfl
@[simp] theorem State.dropPending_events (s : State) : (s.dropPending).events = s.events := rfl
@[simp] theorem State.dropPending_svc (s : State) : (s.dropPending).svc = s.svc := rfl
@[simp] theorem State.dropPending_boundary (s : State) : (s.dropPending).boundary = s.boundary := rfl

@[simp] theorem State.tickClock_pending (s : State) : (s.tickClock).pending = s.pending := rfl
@[simp] theorem State.tickClock_loader (s : State) : (s.tickClock).loader = s.loader := rfl
@[simp] theorem State.tickClock_settings (s : State) : (s.tickClock).settings = s.settings := rfl
@[simp] theorem State.tickClock_links (s : State) : (s.tickClock).links = s.links := rfl
@[simp] theorem State.tickClock_dist (s : State) : (s.tickClock).dist = s.dist := rfl
@[simp] theorem State.tickClock_comb (s : State) : (s.tickClock).comb = s.comb := rfl
@[simp] theorem State.tickClock_meter (s : State) : (s.tickClock).meter = s.meter := rfl
@[simp] theorem State.tickClock_map (s : State) : (s.tickClock).map = s.map := rfl
@[simp] theorem State.tickClock_engine (s : State) : (s.tickClock).engine = s.engine := rfl
@[simp] theorem State.tickClock_spreader (s : State) : (s.tickClock).spreader = s.spreader := rfl
@[simp] theorem State.tickClock_store (s : State) : (s.tickClock).store = s.store := rfl
@[simp] theorem State.tickClock_sup (s : State) : (s.tickClock).sup = s.sup := rfl
@[simp] theorem State.tickClock_events (s : State) : (s.tickClock).events = s.events := rfl
@[simp] theorem State.tickClock_svc (s : State) : (s.tickClock).svc = s.svc := rfl
@[simp] theorem State.tickClock_boundary (s : State) : (s.tickClock).boundary = s.boundary := rfl

@[simp] theorem State.setActing_pending (s : State) (b : Bool) : (s.setActing b).pending = s.pending := rfl
@[simp] theorem State.setActing_loader (s : State) (b : Bool) : (s.setActing b).loader = s.loader := rfl
@[simp] theorem State.setActing_clock (s : State) (b : Bool) : (s.setActing b).clock = s.clock := rfl
@[simp] theorem State.setActing_settings (s : State) (b : Bool) : (s.setActing b).settings = s.settings := rfl
@[simp] theorem State.setActing_links (s : State) (b : Bool) : (s.setActing b).links = s.links := rfl
@[simp] theorem State.setActing_dist (s : State) (b : Bool) : (s.setActing b).dist = s.dist := rfl
@[simp] theorem State.setActing_comb (s : State) (b : Bool) : (s.setActing b).comb = s.comb := rfl
@[simp] theorem State.setActing_meter (s : State) (b : Bool) : (s.setActing b).meter = s.meter := rfl
@[simp] theorem State.setActing_map (s : State) (b : Bool) : (s.setActing b).map = s.map := rfl
@[simp] theorem State.setActing_engine (s : State) (b : Bool) : (s.setActing b).engine = s.engine := rfl
@[simp] theorem State.setActing_spreader (s : State) (b : Bool) : (s.setActing b).spreader = s.spreader := rfl
@[simp] theorem State.setActing_store (s : State) (b : Bool) : (s.setActing b).store = s.store := rfl
@[simp] theorem State.setActing_sup (s : State) (b : Bool) : (s.setActing b).sup = s.sup := rfl
@[simp] theorem State.setActing_events (s : State) (b : Bool) : (s.setActing b).events = s.events := rfl
@[simp] theorem State.setActing_svc (s : State) (b : Bool) : (s.setActing b).svc = s.svc := rfl

@[simp] theorem State.setDelay_pending (s : State) : (s.setDelay).pending = s.pending := rfl
@[simp] theorem State.setDelay_loader (s : State) : (s.setDelay).loader = s.loader := rfl
@[simp] theorem State.setDelay_clock (s : State) : (s.setDelay).clock = s.clock := rfl
@[simp] theorem State.setDelay_settings (s : State) : (s.setDelay).settings = s.settings := rfl
@[simp] theorem State.setDelay_links (s : State) : (s.setDelay).links = s.links := rfl
@[simp] theorem State.setDelay_dist (s : State) : (s.setDelay).dist = s.dist := rfl
@[simp] theorem State.setDelay_meter (s : State) : (s.setDelay).meter = s.meter := rfl
@[simp] theorem State.setDelay_map (s : State) : (s.setDelay).map = s.map := rfl
@[simp] theorem State.setDelay_engine (s : State) : (s.setDelay).engine = s.engine := rfl
@[simp] theorem State.setDelay_spreader (s : State) : (s.setDelay).spreader = s.spreader := rfl
@[simp] theorem State.setDelay_store (s : State) : (s.setDelay).store = s.store := rfl
@[simp] theorem State.setDelay_sup (s : State) : (s.setDelay).sup = s.sup := rfl
@[simp] theorem State.setDelay_events (s : State) : (s.setDelay).events = s.events := rfl
@[simp] theorem State.setDelay_svc (s : State) : (s.setDelay).svc = s.svc := rfl
@[simp] theorem State.setDelay_boundary (s : State) : (s.setDelay).boundary = s.boundary := rfl

end Sys2Proof.Machine
end

