-- ==== Sys2Proof/Laws/Access.lean ====
section
/-! SUPPORT. What the accessors read after each update of the part they look at. -/

namespace Sys2Proof.Machine

/-- The framer of one link after a change of another link's, or of its own. -/
theorem State.framer_modFramer (s : State) (l k : Link) (f : Framer → Framer) :
    (s.modFramer l f).framer k = if l = k then f (s.framer k) else s.framer k := by
  cases l <;> cases k <;> simp [State.modFramer, State.framer, Tab.get_modify]

@[simp] theorem State.framer_modFramer_self (s : State) (l : Link) (f : Framer → Framer) :
    (s.modFramer l f).framer l = f (s.framer l) := by
  simp [State.framer_modFramer]

/-- The framer of a link reads the links alone. -/
theorem State.framer_congr {s t : State} (h : t.links = s.links) (l : Link) : t.framer l = s.framer l := by
  cases l <;> simp [State.framer, h]

theorem State.supRec_modSup (s : State) (r x : RemoteId) (f : SupRecord → SupRecord) :
    (s.modSup r f).supRec x = if r = x then f (s.supRec x) else s.supRec x := by
  simp [State.modSup, State.supRec, Tab.get_modify]

@[simp] theorem State.supRec_modSup_self (s : State) (r : RemoteId) (f : SupRecord → SupRecord) :
    (s.modSup r f).supRec r = f (s.supRec r) := by
  simp [State.supRec_modSup]

theorem State.supRec_congr {s t : State} (h : t.sup = s.sup) (r : RemoteId) : t.supRec r = s.supRec r := by
  simp [State.supRec, h]

@[simp] theorem State.degraded_modSup (s : State) (r : RemoteId) (f : SupRecord → SupRecord) :
    (s.modSup r f).sup.degraded = s.sup.degraded := rfl

@[simp] theorem State.serving_modSup (s : State) (r : RemoteId) (f : SupRecord → SupRecord) :
    (s.modSup r f).sup.serving = s.sup.serving := rfl

theorem State.ramp_modRamp (s : State) (r x : RemoteId) (f : Ramp → Ramp) :
    (s.modRamp r f).ramp x = if r = x then f (s.ramp x) else s.ramp x := by
  simp [State.modRamp, State.ramp, Tab.get_modify]

@[simp] theorem State.ramp_modRamp_self (s : State) (r : RemoteId) (f : Ramp → Ramp) :
    (s.modRamp r f).ramp r = f (s.ramp r) := by
  simp [State.ramp_modRamp]

@[simp] theorem State.carriers_modRamp (s : State) (r : RemoteId) (f : Ramp → Ramp) :
    (s.modRamp r f).dist.carriers = s.dist.carriers := rfl

@[simp] theorem State.carriers_modDonor (s : State) (n : DonorId) (f : DonorState → DonorState) :
    (s.modDonor n f).dist.carriers = s.dist.carriers := rfl

@[simp] theorem State.carriers_beginRamp (s : State) (r : RemoteId) :
    (s.beginRamp r).dist.carriers = s.dist.carriers := rfl

@[simp] theorem State.plans_setSchedule (s : State) (c : Option Schedule) :
    (s.setSchedule c).store.plans = s.store.plans := rfl

@[simp] theorem State.start_setSchedule (s : State) (c : Option Schedule) :
    (s.setSchedule c).store.start = s.store.start := rfl

/-- An event is due after its marking. -/
theorem State.due_markDue (s : State) (e : Due) :
    (s.markDue e).boundary.due = if s.boundary.due.contains e then s.boundary.due else s.boundary.due ++ [e] := by
  unfold State.markDue
  split <;> rfl

@[simp] theorem State.acting_markDue (s : State) (e : Due) :
    (s.markDue e).boundary.acting = s.boundary.acting := by
  unfold State.markDue
  split <;> rfl

@[simp] theorem State.acting_unDue (s : State) (e : Due) :
    (s.unDue e).boundary.acting = s.boundary.acting := rfl

/-- Taking an event that is due. -/
theorem State.takeDue_of_due {s : State} {e : Due} (f : State → State) (h : e ∈ s.boundary.due) :
    s.takeDue e f = f (s.unDue e) := by
  simp [State.takeDue, h]

/-- An event that is not due does not occur. -/
theorem State.takeDue_of_not_due {s : State} {e : Due} (f : State → State) (h : e ∉ s.boundary.due) :
    s.takeDue e f = s := by
  simp [State.takeDue, h]

end Sys2Proof.Machine
end

