-- ==== Sys2Proof/Laws/Quiet.lean ====
section
/-! SUPPORT. What the inner operations can do, said once: each leaves stored configuration, the frame count
and the commands waiting as they are, keeps the laws of the Event Queue, the Move Engine and the framers,
and adds nothing to the request and response queues. -/

namespace Sys2Proof.Machine

/-- What an inner operation leaves and keeps. -/
structure Quiet (s t : State) : Prop where
  pending : t.pending = s.pending
  fc : t.clock.fc = s.clock.fc
  started : t.clock.started = s.clock.started
  carriers : t.dist.carriers = s.dist.carriers
  settings : t.settings = s.settings
  loader : t.loader = s.loader
  plans : t.store.plans = s.store.plans
  start : t.store.start = s.store.start
  events : s.events.lawful → t.events.lawful
  engine : s.engine.lawful → t.engine.lawful
  links : s.links.bounded → t.links.bounded
  places : t.svc.places ≤ s.svc.places
  input : t.svc.input.length ≤ s.svc.input.length

namespace Quiet

theorem refl (s : State) : Quiet s s :=
  ⟨rfl, rfl, rfl, rfl, rfl, rfl, rfl, rfl, id, id, id, le_refl _, le_refl _⟩

theorem trans {s t u : State} (h : Quiet s t) (k : Quiet t u) : Quiet s u where
  pending := k.pending.trans h.pending
  fc := k.fc.trans h.fc
  started := k.started.trans h.started
  carriers := k.carriers.trans h.carriers
  settings := k.settings.trans h.settings
  loader := k.loader.trans h.loader
  plans := k.plans.trans h.plans
  start := k.start.trans h.start
  events := fun e => k.events (h.events e)
  engine := fun e => k.engine (h.engine e)
  links := fun e => k.links (h.links e)
  places := le_trans k.places h.places
  input := le_trans k.input h.input

/-- A change that leaves every part Quiet looks at. -/
theorem of_parts {s t : State} (pending : t.pending = s.pending) (clock : t.clock = s.clock)
    (carriers : t.dist.carriers = s.dist.carriers) (settings : t.settings = s.settings)
    (loader : t.loader = s.loader) (store : t.store = s.store) (events : t.events = s.events)
    (engine : t.engine = s.engine) (links : t.links = s.links) (svc : t.svc = s.svc) : Quiet s t := by
  refine ⟨pending, by rw [clock], by rw [clock], carriers, settings, loader, by rw [store], by rw [store],
    ?_, ?_, ?_, ?_, ?_⟩
  · rw [events]; exact id
  · rw [engine]; exact id
  · rw [links]; exact id
  · rw [svc]
  · rw [svc]

/-- A loop of quiet steps is quiet. -/
theorem foldl {α : Type} {f : State → α → State} (h : ∀ s a, Quiet s (f s a)) (xs : List α) (s : State) :
    Quiet s (xs.foldl f s) := by
  induction xs generalizing s with
  | nil => exact refl s
  | cons a xs ih => exact (h s a).trans (ih (f s a))

/-- Either branch quiet. -/
theorem ite {s t u : State} {c : Prop} [Decidable c] (h : Quiet s t) (k : Quiet s u) :
    Quiet s (if c then t else u) := by
  split
  · exact h
  · exact k

end Quiet

/-! ## The plain updates -/

theorem State.modSup_quiet (s : State) (r : RemoteId) (f : SupRecord → SupRecord) : Quiet s (s.modSup r f) :=
  .of_parts rfl rfl rfl rfl rfl rfl rfl rfl rfl rfl

theorem State.modRamp_quiet (s : State) (r : RemoteId) (f : Ramp → Ramp) : Quiet s (s.modRamp r f) :=
  .of_parts rfl rfl rfl rfl rfl rfl rfl rfl rfl rfl

theorem State.modDonor_quiet (s : State) (n : DonorId) (f : DonorState → DonorState) : Quiet s (s.modDonor n f) :=
  .of_parts rfl rfl rfl rfl rfl rfl rfl rfl rfl rfl

theorem State.modLive_quiet (s : State) (r : RemoteId) (f : RemoteEntry → RemoteEntry) : Quiet s (s.modLive r f) :=
  .of_parts rfl rfl rfl rfl rfl rfl rfl rfl rfl rfl

theorem State.markDue_quiet (s : State) (e : Due) : Quiet s (s.markDue e) :=
  .of_parts (by simp) (by simp) (by simp) (by simp) (by simp) (by simp) (by simp) (by simp) (by simp) (by simp)

theorem State.markAll_quiet (s : State) (es : List Due) : Quiet s (s.markAll es) :=
  .foldl State.markDue_quiet es s

theorem State.unDue_quiet (s : State) (e : Due) : Quiet s (s.unDue e) :=
  .of_parts rfl rfl rfl rfl rfl rfl rfl rfl rfl rfl

theorem State.writeHistory_quiet (s : State) (r : RemoteId) : Quiet s (s.writeHistory r) :=
  .of_parts rfl rfl rfl rfl rfl rfl rfl rfl rfl rfl

theorem State.markStale_quiet (s : State) (r : RemoteId) : Quiet s (s.markStale r) :=
  .of_parts rfl rfl rfl rfl rfl rfl rfl rfl rfl rfl

theorem State.beginRamp_quiet (s : State) (r : RemoteId) : Quiet s (s.beginRamp r) :=
  .of_parts rfl rfl rfl rfl rfl rfl rfl rfl rfl rfl

theorem State.countPort_quiet (s : State) (r : RemoteId) (f : UplinkCounters → UplinkCounters) :
    Quiet s (s.countPort r f) :=
  .of_parts rfl rfl rfl rfl rfl rfl rfl rfl rfl rfl

theorem State.setReference_quiet (s : State) (n : Option DonorId) : Quiet s (s.setReference n) :=
  ⟨rfl, rfl, rfl, rfl, rfl, rfl, rfl, rfl, id, id, id, le_refl _, le_refl _⟩

theorem State.setSchedule_quiet (s : State) (c : Option Schedule) : Quiet s (s.setSchedule c) :=
  ⟨rfl, rfl, rfl, rfl, rfl, rfl, rfl, rfl, id, id, id, le_refl _, le_refl _⟩

/-- A change of the service block that keeps both queues. -/
theorem Quiet.of_svc {s : State} {v : Service} (h : v.places ≤ s.svc.places)
    (k : v.input.length ≤ s.svc.input.length) : Quiet s { s with svc := v } :=
  ⟨rfl, rfl, rfl, rfl, rfl, rfl, rfl, rfl, id, id, id, h, k⟩

/-- A change of the engine that keeps its law. -/
theorem Quiet.of_engine {s : State} {e : Engine} (h : s.engine.lawful → e.lawful) :
    Quiet s { s with engine := e } :=
  ⟨rfl, rfl, rfl, rfl, rfl, rfl, rfl, rfl, id, h, id, le_refl _, le_refl _⟩

/-- A change of the Event Queue that keeps its law. -/
theorem Quiet.of_events {s : State} {q : EventQueue} (h : s.events.lawful → q.lawful) :
    Quiet s { s with events := q } :=
  ⟨rfl, rfl, rfl, rfl, rfl, rfl, rfl, rfl, h, id, id, le_refl _, le_refl _⟩

theorem State.countSvc_quiet (s : State) (l : MsgLink) (f : LinkService → LinkService) : Quiet s (s.countSvc l f) := by
  cases l <;> exact .of_svc (le_refl _) (le_refl _)

theorem State.countRelay_quiet (s : State) (r : RemoteId) (f : PortService → PortService) :
    Quiet s (s.countRelay r f) := .of_svc (le_refl _) (le_refl _)

theorem State.setPass_quiet (s : State) (r : RemoteId) (p : Option Pass) : Quiet s (s.setPass r p) :=
  .of_svc (le_refl _) (le_refl _)

theorem State.setRefused_quiet (s : State) (r : RemoteId) (ms : List Relayed) : Quiet s (s.setRefused r ms) :=
  .of_svc (le_refl _) (le_refl _)

theorem State.takeTag_quiet (s : State) (r : RemoteId) : Quiet s (s.takeTag r).2 :=
  .of_svc (le_refl _) (le_refl _)

/-- A response goes into the place reserved for it: no place is added. -/
theorem State.fillReserved_quiet (s : State) (v : Reservation) (p : Response) : Quiet s (s.fillReserved v p) := by
  unfold State.fillReserved
  split
  · rename_i h
    have hm : v ∈ s.svc.reserved := by simpa using h
    have hp := List.length_pos_of_mem hm
    refine ⟨rfl, rfl, rfl, rfl, rfl, rfl, rfl, rfl, id, id, id, ?_, le_refl _⟩
    simp only [State.fill, Service.places, List.length_append, List.length_singleton,
      List.length_erase_of_mem hm]
    omega
  · exact .refl s

/-- A framer changed within its sizes. -/
theorem State.modFramer_quiet (s : State) (l : Link) (f : Framer → Framer)
    (h : (s.framer l).bounded → (f (s.framer l)).bounded) : Quiet s (s.modFramer l f) := by
  refine ⟨by simp, by simp, by simp, by simp, by simp, by simp, by simp, by simp, by simp, by simp, ?_,
    by simp, by simp⟩
  rintro ⟨hd, hr, hs⟩
  cases l with
  | donor n =>
    refine ⟨fun m => ?_, hr, hs⟩
    simp only [State.modFramer, Tab.get_modify]
    split
    · subst_vars; exact h (hd _)
    · exact hd m
  | remote r =>
    refine ⟨hd, fun m => ?_, hs⟩
    simp only [State.modFramer, Tab.get_modify]
    split
    · subst_vars; exact h (hr _)
    · exact hr m
  | service => exact ⟨hd, hr, h hs⟩

/-- A framer whose buffer and relay queue do not grow stays within its sizes. -/
theorem Framer.bounded_of_le {f g : Framer} (h : g.buffer.length ≤ f.buffer.length)
    (k : g.relayQueue.length ≤ f.relayQueue.length) (b : f.bounded) : g.bounded :=
  ⟨le_trans h b.1, le_trans k b.2⟩

theorem State.countLink_quiet (s : State) (l : Link) (f : LinkCounters → LinkCounters) : Quiet s (s.countLink l f) :=
  s.modFramer_quiet l _ id

/-! ## The Event Queue -/

/-- The kind and subject of a record: what no two records share. -/
def Event.key (e : Event) : EventKind × Subject := (e.kind, e.subject)

theorem Event.isFor_iff (e : Event) (k : EventKind) (x : Subject) : e.isFor k x = true ↔ e.key = (k, x) := by
  simp [Event.isFor, Event.key]

theorem mergeInto_keys (k : EventKind) (x : Subject) (f : Event → Event) (h : ∀ e, (f e).key = e.key)
    (es : List Event) : (mergeInto k x f es).map Event.key = es.map Event.key := by
  induction es with
  | nil => rfl
  | cons e es ih =>
    unfold mergeInto
    split
    · simp [h]
    · simp [ih]

theorem dropRoutine_sublist {es rest : List Event} (h : dropRoutine es = some rest) : rest.Sublist es := by
  induction es generalizing rest with
  | nil => simp [dropRoutine] at h
  | cons e es ih =>
    unfold dropRoutine at h
    split at h
    · simp only [Option.map_eq_some_iff] at h
      obtain ⟨l, hl, rfl⟩ := h
      exact (ih hl).cons_cons e
    · simp only [Option.some.injEq] at h
      subst h
      exact List.sublist_cons_self _ _

theorem dropRoutine_length {es rest : List Event} (h : dropRoutine es = some rest) :
    rest.length + 1 = es.length := by
  induction es generalizing rest with
  | nil => simp [dropRoutine] at h
  | cons e es ih =>
    unfold dropRoutine at h
    split at h
    · simp only [Option.map_eq_some_iff] at h
      obtain ⟨l, hl, rfl⟩ := h
      simp [ih hl]
    · simp only [Option.some.injEq] at h
      subst h
      rfl

theorem dropMatching_sublist (p : Event → Bool) (n : Nat) (es : List Event) :
    (dropMatching p n es).Sublist es := by
  induction es generalizing n with
  | nil => cases n <;> simp [dropMatching]
  | cons e es ih =>
    cases n with
    | zero => simp [dropMatching]
    | succ n =>
      unfold dropMatching
      split
      · exact (ih n).cons e
      · exact (ih (n + 1)).cons_cons e

/-- A queue with a sublist of the records of a lawful one is lawful. -/
theorem EventQueue.lawful_of_sublist {q p : EventQueue} (h : q.lawful) (k : p.records.Sublist q.records)
    (o : p.overflow ≤ 65535) : p.lawful :=
  ⟨le_trans k.length_le h.1, h.2.1.sublist (k.map _), o⟩

theorem EventQueue.take_lawful (q : EventQueue) (n : Nat) (h : q.lawful) : (q.take n).2.lawful :=
  EventQueue.lawful_of_sublist h ((dropMatching_sublist _ _ _).trans (dropMatching_sublist _ _ _)) (by simp [EventQueue.take])

theorem satInc_le (n : Nat) : satInc n ≤ 65535 := by
  unfold satInc; omega

/-- A post keeps the law (R140, R141). -/
theorem EventQueue.post_lawful (q : EventQueue) (k : EventKind) (x : Subject) (tag : Option (Fin 16))
    (d : BitVec 16) (fc : FC) (h : q.lawful) : (q.post k x tag d fc).lawful := by
  obtain ⟨h1, h2, h3⟩ := h
  unfold EventQueue.post
  split
  · refine ⟨?_, ?_, h3⟩
    · have := congrArg List.length (mergeInto_keys k x (fun e => e.merge tag d fc) (fun _ => rfl) q.records)
      simp only [List.length_map] at this
      simp only [this, h1]
    · have := mergeInto_keys k x (fun e => e.merge tag d fc) (fun _ => rfl) q.records
      exact this ▸ h2
  · rename_i hn
    have fresh : (k, x) ∉ q.records.map Event.key := by
      intro hm
      obtain ⟨e, he, hk⟩ := List.mem_map.mp hm
      exact hn (List.any_eq_true.mpr ⟨e, he, (Event.isFor_iff e k x).mpr hk⟩)
    split
    · rename_i hl
      refine ⟨by simpa using Nat.succ_le_of_lt hl, ?_, h3⟩
      simp only [List.map_append, List.map_cons, List.map_nil]
      exact List.nodup_append'.mpr ⟨h2, List.nodup_singleton _, by
        simpa [newEvent, Event.key, List.disjoint_singleton] using fresh⟩
    · split
      · rename_i rest _ hr
        have hs := dropRoutine_sublist hr
        refine ⟨?_, ?_, satInc_le _⟩
        · have := dropRoutine_length hr
          simp only [List.length_append, List.length_singleton]
          omega
        · simp only [List.map_append, List.map_cons, List.map_nil]
          refine List.nodup_append'.mpr ⟨h2.sublist (hs.map _), List.nodup_singleton _, ?_⟩
          have : (k, x) ∉ rest.map Event.key := fun hm => fresh ((hs.map Event.key).subset hm)
          simpa [newEvent, Event.key, List.disjoint_singleton] using this
      · exact ⟨h1, h2, satInc_le _⟩

theorem State.post_quiet (s : State) (k : EventKind) (x : Subject) (d : BitVec 16) : Quiet s (s.post k x d) :=
  .of_events (s.events.post_lawful k x _ d _)

end Sys2Proof.Machine
end

