-- ==== Sys2Proof/Laws/QuietRelay.lean ====
section
/-! SUPPORT. What the relay, the arbiters and the senders can do (`Quiet`, operation by operation). -/

namespace Sys2Proof.Machine

theorem State.endSetRelay_quiet (s : State) : Quiet s s.endSetRelay := by
  unfold State.endSetRelay
  split
  · split
    · exact (s.fillReserved_quiet _ _).trans (.of_svc (le_refl _) (le_refl _))
    · exact .refl s
  · exact .refl s

theorem State.leaveRemaining_quiet (s : State) (r : RemoteId) : Quiet s (s.leaveRemaining r) := by
  unfold State.leaveRemaining
  split
  · rename_i v _
    exact (Quiet.of_svc (s := s) (v := { s.svc with setRelay := some { v with remaining := v.remaining.erase r } })
      (le_refl _) (le_refl _)).trans (State.endSetRelay_quiet _)
  · exact .refl s

/-- An offer is accepted only while the relay queue holds fewer than 4. -/
theorem State.acceptOffer_quiet (s : State) (r : RemoteId) (m : Relayed)
    (h : (s.framer (.remote r)).relayQueue.length < 4) : Quiet s (s.acceptOffer r m) := by
  unfold State.acceptOffer
  have hq : Quiet s (s.modFramer (.remote r) fun f => { f with relayQueue := f.relayQueue ++ [m] }) :=
    s.modFramer_quiet _ _ fun b => ⟨b.1, by simpa using h⟩
  split
  · exact hq.trans (State.leaveRemaining_quiet _ _)
  · exact hq

theorem State.offer_quiet (s : State) (r : RemoteId) (m : Relayed) : Quiet s (s.offer r m) := by
  unfold State.offer
  split
  · rename_i h; exact s.acceptOffer_quiet r m h
  · exact s.setRefused_quiet _ _

theorem State.reoffer_quiet (s : State) (r : RemoteId) : Quiet s (s.reoffer r) := by
  unfold State.reoffer
  split
  · exact .refl s
  · split
    · rename_i m ms _ h
      exact (s.setRefused_quiet r ms).trans (State.acceptOffer_quiet _ r m h)
    · exact .refl s

theorem State.queuePoll_quiet (s : State) (r : RemoteId) : Quiet s (s.queuePoll r) :=
  (s.modFramer_quiet _ _ fun b => b).trans (State.modSup_quiet _ _ _)

theorem State.withdraw_quiet (s : State) (r : RemoteId) : Quiet s (s.withdraw r) :=
  (s.modFramer_quiet _ _ fun b => ⟨b.1, le_trans (List.length_filter_le _ _) b.2⟩).trans
    (State.setRefused_quiet _ _ _)

theorem State.endPass_quiet (s : State) (r : RemoteId) (st : Status) (body : List Byte) :
    Quiet s (s.endPass r st body) := by
  unfold State.endPass
  split
  · exact ((((s.fillReserved_quiet _ _).trans (State.setPass_quiet _ _ _)).trans
      (State.withdraw_quiet _ _)).trans (State.unDue_quiet _ _)).trans (State.unDue_quiet _ _)
  · exact .refl s

theorem State.abortPass_quiet (s : State) (r : RemoteId) : Quiet s (s.abortPass r) := s.endPass_quiet r _ _

theorem State.sentReport_quiet (s : State) (r : RemoteId) (t : Byte) : Quiet s (s.sentReport r t) := by
  unfold State.sentReport
  split
  · split
    · exact s.setPass_quiet _ _
    · exact .refl s
  · exact .refl s

theorem State.passExpires_quiet (s : State) (r : RemoteId) : Quiet s (s.passExpires r) := by
  unfold State.passExpires
  split
  · split
    · exact (s.countRelay_quiet _ _).trans (State.endPass_quiet _ _ _ _)
    · exact .refl s
  · exact .refl s

theorem State.retryEnds_quiet (s : State) (r : RemoteId) : Quiet s (s.retryEnds r) := by
  unfold State.retryEnds
  split
  · split
    · exact (s.setPass_quiet _ _).trans (State.offer_quiet _ _ _)
    · exact .refl s
  · exact .refl s

theorem State.unmatchedReply_quiet (s : State) (r : RemoteId) : Quiet s (s.unmatchedReply r) :=
  s.countRelay_quiet _ _

theorem State.replyArrives_quiet (s : State) (r : RemoteId) (m : Message) : Quiet s (s.replyArrives r m) := by
  unfold State.replyArrives
  split
  · split
    · exact s.endPass_quiet _ _ _
    · exact s.unmatchedReply_quiet r
  · exact s.unmatchedReply_quiet r

theorem State.retryPass_quiet (s : State) (r : RemoteId) (p : Pass) : Quiet s (s.retryPass r p) := by
  unfold State.retryPass
  exact ((((s.withdraw_quiet r).trans (State.takeTag_quiet _ _)).trans (State.setPass_quiet _ _ _)).trans
    (State.unDue_quiet _ _)).trans (State.unDue_quiet _ _)

theorem State.busyArrives_quiet (s : State) (r : RemoteId) (m : Message) : Quiet s (s.busyArrives r m) := by
  unfold State.busyArrives
  split
  · split
    · refine (s.countRelay_quiet r fun c => { c with busies := satInc c.busies }).trans ?_
      simp only
      split
      · exact State.endPass_quiet _ _ _ _
      · exact State.retryPass_quiet _ _ _
    · exact s.unmatchedReply_quiet r
  · exact s.unmatchedReply_quiet r

theorem State.tickPass_quiet (s : State) (r : RemoteId) : Quiet s (s.tickPass r) := by
  unfold State.tickPass
  split
  · split
    · rename_i p _ _ n _
      refine (s.setPass_quiet r (some { p with phase := .awaiting (n + 1) })).trans ?_
      simp only
      split
      · exact State.markDue_quiet _ _
      · exact .refl _
    · split
      · exact s.markDue_quiet _
      · exact s.setPass_quiet _ _
    · exact .refl s
  · exact .refl s

theorem State.relayLinkLost_quiet (s : State) (r : RemoteId) : Quiet s (s.relayLinkLost r) :=
  ((s.abortPass_quiet r).trans (State.setRefused_quiet _ _ _)).trans (State.leaveRemaining_quiet _ _)

theorem State.startEmission_quiet (s : State) (l : Link) (w : Sending) (slots : List Slot) :
    Quiet s (s.startEmission l w slots) :=
  (s.modFramer_quiet l _ fun b => b).trans (State.unDue_quiet _ _)

theorem State.startResponse_quiet (s : State) (l : MsgLink) : Quiet s (s.startResponse l) := by
  unfold State.startResponse
  split
  · split
    · refine (Quiet.of_svc (s := s)
        (v := { s.svc with filled := s.svc.filled.eraseP fun p => decide (p.link = l) }) ?_ (le_refl _)).trans
        (State.startEmission_quiet _ _ _ _)
      have := List.length_eraseP_le (l := s.svc.filled) (p := fun p => decide (p.link = l))
      simp only [Service.places]
      omega
    · exact .refl s
  · exact .refl s

theorem State.startNotice_quiet (s : State) : Quiet s s.startNotice := by
  unfold State.startNotice
  split
  · refine (Quiet.of_events fun h => ?_).trans (State.startEmission_quiet _ _ _ _)
    exact s.events.take_lawful 4 h
  · exact .refl s

theorem State.startRemote_quiet (s : State) (r : RemoteId) : Quiet s (s.startRemote r) := by
  unfold State.startRemote
  split
  · simp only
    split
    · exact (s.modFramer_quiet _ _ fun b => b).trans (State.startEmission_quiet _ _ _ _)
    · split
      · rename_i m ms hq
        refine ((s.modFramer_quiet _ _ fun b => ⟨b.1, ?_⟩).trans (State.startEmission_quiet _ _ _ _)).trans
          (State.reoffer_quiet _ _)
        have := b.2
        rw [hq] at this
        simp only [List.length_cons] at this
        show ms.length ≤ 4
        omega
      · exact .refl s
  · exact .refl s

theorem State.startAny_quiet (s : State) (l : Link) : Quiet s (s.startAny l) := by
  cases l with
  | donor n => exact s.startResponse_quiet _
  | remote r => exact s.startRemote_quiet r
  | service => exact (s.startResponse_quiet _).trans (State.startNotice_quiet _)

end Sys2Proof.Machine
end

