-- ==== Sys2Proof/Laws/QuietSupervision.lean ====
section
/-! SUPPORT. What ramps, holds, the end of a move, boosts, degradation and health changes can do
(`Quiet`, operation by operation). -/

namespace Sys2Proof.Machine

theorem Engine.idle_lawful : Engine.idle.lawful :=
  ⟨⟨fun _ => rfl, fun _ => rfl⟩, fun _ => rfl, fun _ => rfl⟩

theorem State.tellHeld_quiet (s : State) (rs : List RemoteId) (b : Bool) : Quiet s (s.tellHeld rs b) :=
  .foldl (fun s r => s.modSup_quiet r _) rs s

@[simp] theorem State.tellHeld_engine (s : State) (rs : List RemoteId) (b : Bool) :
    (s.tellHeld rs b).engine = s.engine := by
  unfold State.tellHeld
  induction rs generalizing s with
  | nil => rfl
  | cons r rs ih => simp only [List.foldl_cons, ih]; rfl

/-- A hold is put in before the switch alone. -/
theorem State.holdRemote_quiet (s : State) (r : RemoteId)
    (h : s.engine.state = .fadeOut ∨ s.engine.state = .switchPending) : Quiet s (s.holdRemote r) := by
  unfold State.holdRemote
  split
  · exact .refl s
  · refine (Quiet.of_engine (s := s) (e := { s.engine with holdSet := s.engine.holdSet ++ [r] }) ?_).trans
      (State.tellHeld_quiet _ _ _)
    rintro ⟨h1, h2, _⟩
    refine ⟨h1, h2, fun h3 => ?_⟩
    simp only at h3
    rcases h with h | h <;> rw [h] at h3 <;> simp at h3

theorem State.releaseHolds_quiet (s : State) : Quiet s s.releaseHolds := by
  unfold State.releaseHolds
  exact (Quiet.of_engine (s := s) (e := { s.engine with holdSet := [] })
    fun h => ⟨h.1, h.2.1, fun _ => rfl⟩).trans (State.tellHeld_quiet _ _ _)

theorem State.postEnd_quiet (s : State) (m : MoveRecord) (o : MoveOutcome) : Quiet s (s.postEnd m o) := by
  unfold State.postEnd
  split
  · split <;> exact s.post_quiet _ _ _
  · exact .refl s
  · split
    · exact s.post_quiet _ _ _
    · exact .refl s

theorem State.adoptPlan_quiet (s : State) (m : MoveRecord) (o : MoveOutcome) : Quiet s (s.adoptPlan m o) := by
  unfold State.adoptPlan
  split
  · exact .of_parts rfl rfl rfl rfl rfl rfl rfl rfl rfl rfl
  · exact .refl s

theorem State.askRetest_quiet (s : State) : Quiet s s.askRetest := by
  unfold State.askRetest
  split
  · exact Quiet.ite (s.markDue_quiet _) (.refl s)
  · exact .refl s

theorem State.engineRests_quiet (s : State) : Quiet s s.engineRests := by
  have h1 := (s.releaseHolds_quiet).trans (State.unDue_quiet _ .switch)
  exact ⟨h1.pending, h1.fc, h1.started, h1.carriers, h1.settings, h1.loader, h1.plans, h1.start, h1.events,
    fun _ => Engine.idle_lawful, h1.links, h1.places, h1.input⟩

theorem State.moveEnd_quiet (s : State) (o : MoveOutcome) : Quiet s (s.moveEnd o) := by
  unfold State.moveEnd
  split
  · exact .refl s
  · rename_i m hm
    have h1 : Quiet s { s with engine := { s.engine with record := some { m with outcome := some o } } } :=
      .of_engine fun h => ⟨by have := h.1; rw [hm] at this; simpa using this, h.2.1, h.2.2⟩
    exact (((h1.trans (State.adoptPlan_quiet _ m o)).trans (State.postEnd_quiet _ m o)).trans
      (State.engineRests_quiet _)).trans (State.askRetest_quiet _)

theorem State.phaseDone_quiet (s : State) (h : s.engine.phaseSet = []) : Quiet s s.phaseDone := by
  unfold State.phaseDone
  split
  · rename_i hs
    refine .of_engine fun ⟨h1, _, _⟩ => ⟨?_, fun _ => h, ?_⟩
    · rw [hs] at h1; simpa using h1
    · intro h3; simp at h3
  · exact s.moveEnd_quiet _
  · exact s.moveEnd_quiet _
  · exact .refl s

theorem State.leavePhase_quiet (s : State) (r : RemoteId) : Quiet s (s.leavePhase r) := by
  unfold State.leavePhase
  split
  · rename_i hr
    simp only
    have h1 : Quiet s { s with engine :=
        { s.engine with phaseSet := s.engine.phaseSet.filter fun x => decide (x ≠ r) } } :=
      .of_engine fun ⟨a, b, c⟩ => ⟨a, fun k => by simp [b k], c⟩
    split
    · rename_i he
      refine h1.trans (State.phaseDone_quiet _ ?_)
      exact List.isEmpty_iff.mp he
    · exact h1
  · exact .refl s

theorem State.engineNotice_quiet (s : State) (r : RemoteId) : Quiet s (s.engineNotice r) := s.leavePhase_quiet r

theorem State.engineRecompute_quiet (s : State) (r : RemoteId) : Quiet s (s.engineRecompute r) := by
  unfold State.engineRecompute
  simp only
  split
  · exact (s.beginRamp_quiet r).trans (State.engineNotice_quiet _ _)
  · exact s.beginRamp_quiet r

theorem State.reevalBoost_quiet (s : State) (y : RemoteId) : Quiet s (s.reevalBoost y).1 := s.modSup_quiet _ _

theorem State.reevalBoosts_quiet (s : State) (ys : List RemoteId) : Quiet s (s.reevalBoosts ys).1 := by
  unfold State.reevalBoosts
  suffices h : ∀ acc : State × List RemoteId, Quiet s acc.1 → Quiet s (ys.foldl (fun acc y =>
      let (s, ch) := acc.1.reevalBoost y
      (s, if ch then acc.2 ++ [y] else acc.2)) acc).1 from h (s, []) (.refl s)
  induction ys with
  | nil => exact fun _ h => h
  | cons y ys ih => exact fun acc h => ih _ (h.trans (State.reevalBoost_quiet _ _))

theorem State.evalDegraded_quiet (s : State) (p : Bool) (x : SectorId) : Quiet s (s.evalDegraded p x) := by
  unfold State.evalDegraded
  simp only
  have h1 : Quiet s { s with sup := { s.sup with
      serving := s.sup.serving.set x (s.servingNow x), degraded := s.sup.degraded.set x (s.degradedNow x) } } :=
    .of_parts rfl rfl rfl rfl rfl rfl rfl rfl rfl rfl
  split
  · exact h1.trans (State.post_quiet _ _ _ _)
  · split
    · exact h1.trans (State.post_quiet _ _ _ _)
    · exact h1

theorem State.evalSector_quiet (s : State) (x : Option SectorId) : Quiet s (s.evalSector x) := by
  cases x with
  | none => exact .refl s
  | some x => exact s.evalDegraded_quiet _ _

theorem State.joined_quiet (s : State) (r : RemoteId) : Quiet s (s.joined r) := by
  unfold State.joined
  simp only
  exact (((((s.modSup_quiet r _).trans (State.post_quiet _ _ _ _)).trans (State.reevalBoosts_quiet _ _)).trans
    (State.evalSector_quiet _ _)).trans (.foldl State.engineRecompute_quiet _ _))

theorem State.completion_quiet (s : State) (r : RemoteId) : Quiet s (s.completion r) := by
  unfold State.completion
  simp only
  split
  · exact (s.engineNotice_quiet r).trans (State.joined_quiet _ _)
  · exact s.engineNotice_quiet r

theorem State.recompute_quiet (s : State) (r : RemoteId) : Quiet s (s.recompute r) := by
  unfold State.recompute
  simp only
  split
  · exact (s.beginRamp_quiet r).trans (State.completion_quiet _ _)
  · exact s.beginRamp_quiet r

theorem State.recomputeAll_quiet (s : State) (rs : List RemoteId) : Quiet s (s.recomputeAll rs) :=
  .foldl State.recompute_quiet rs s

theorem State.settleHealth_quiet (s : State) (r : RemoteId) : Quiet s (s.settleHealth r) := by
  unfold State.settleHealth
  simp only
  exact ((s.reevalBoosts_quiet _).trans (State.evalSector_quiet _ _)).trans (State.recomputeAll_quiet _ _)

theorem State.rampStep_quiet (s : State) : Quiet s s.rampStep := by
  unfold State.rampStep
  simp only
  refine Quiet.trans (t := { s with dist := { s.dist with ramps := s.dist.ramps.map fun p => p.step s.settings.rampStep } })
    (.of_parts rfl rfl rfl rfl rfl rfl rfl rfl rfl rfl) (.foldl State.completion_quiet _ _)

theorem State.engineDeparture_quiet (s : State) (r : RemoteId) : Quiet s (s.engineDeparture r) := by
  unfold State.engineDeparture
  split
  · exact .refl s
  · rename_i m hm
    split
    · split
      · simp only
        refine Quiet.trans (t := { s with engine := { s.engine with
            record := some { m with fading := m.fading.filter fun x => decide (x ≠ r) } } }) ?_
          (State.leavePhase_quiet _ _)
        exact .of_engine fun h => ⟨by have := h.1; rw [hm] at this; simpa using this, h.2.1, h.2.2⟩
      · split
        · exact s.moveEnd_quiet _
        · exact .refl s
    · exact .refl s

theorem State.enterOut_quiet (s : State) (r : RemoteId) (h : Health) (c : Option Cause) :
    Quiet s (s.enterOut r h c) := by
  unfold State.enterOut
  simp only
  have h1 := (((s.modSup_quiet r fun v => { v with health := h, cause := c, grace := none }).trans
    (State.unDue_quiet _ (.linkGrace r))).trans (State.modRamp_quiet _ r fun p => { p with present := 0 })).trans
      (State.markStale_quiet _ r)
  refine Quiet.trans ?_ (State.settleHealth_quiet _ _)
  refine Quiet.trans ?_ (Quiet.ite (.refl _) (State.abortPass_quiet _ _))
  refine h1.trans (Quiet.ite (State.engineDeparture_quiet _ _) (.refl _))

theorem State.lose_quiet (s : State) (r : RemoteId) (c : Cause) : Quiet s (s.lose r c) := by
  unfold State.lose
  simp only
  have h1 := (s.modSup_quiet r fun v => { v with flap := min 15 ((s.supRec r).flap + 1), decay := if v.flap = 0 then some 0 else v.decay }).trans
    (State.post_quiet _ .remoteLost (.remote r) (word16 c.code))
  split
  · exact (h1.trans (State.post_quiet _ _ _ _)).trans (State.enterOut_quiet _ _ _ _)
  · exact h1.trans (State.enterOut_quiet _ _ _ _)

theorem State.pollIfLocked_quiet (s : State) (r : RemoteId) : Quiet s (s.pollIfLocked r) := by
  unfold State.pollIfLocked
  split
  · exact s.queuePoll_quiet r
  · exact .refl s

theorem State.deriveMode_quiet (s : State) (r : RemoteId) : Quiet s (s.deriveMode r) := s.modSup_quiet _ _

theorem State.postOutputs_quiet (s : State) (r : RemoteId) (a b : Alarms) : Quiet s (s.postOutputs r a b) := by
  unfold State.postOutputs
  split
  · exact .refl s
  · split <;> exact s.post_quiet _ _ _

theorem State.postThermal_quiet (s : State) (r : RemoteId) (a b : Alarms) : Quiet s (s.postThermal r a b) := by
  unfold State.postThermal
  split
  · exact .refl s
  · split <;> exact s.post_quiet _ _ _

theorem State.takeAlarms_quiet (s : State) (r : RemoteId) (a : Alarms) : Quiet s (s.takeAlarms r a) := by
  unfold State.takeAlarms
  exact ((((s.modSup_quiet r _).trans (State.deriveMode_quiet _ _)).trans (State.postOutputs_quiet _ _ _ _)).trans
    (State.postThermal_quiet _ _ _ _))

theorem State.enterJoining_quiet (s : State) (r : RemoteId) : Quiet s (s.enterJoining r) := by
  unfold State.enterJoining
  simp only
  refine Quiet.trans ?_ (State.settleHealth_quiet _ _)
  refine (s.modSup_quiet r fun v => { v with health := .joining, cause := none }).trans ?_
  split
  · rename_i h
    refine State.holdRemote_quiet _ _ ?_
    simp only [Bool.and_eq_true, Bool.or_eq_true, decide_eq_true_eq] at h
    exact h.2
  · exact .refl _

theorem State.thermalRecompute_quiet (s : State) (r : RemoteId) (a : Alarms) : Quiet s (s.thermalRecompute r a) := by
  unfold State.thermalRecompute
  split
  · exact .refl s
  · simp only
    exact (s.reevalBoosts_quiet _).trans (State.recomputeAll_quiet _ _)

theorem State.acceptJoin_quiet (s : State) (r : RemoteId) (b : List Byte) : Quiet s (s.acceptJoin r b) := by
  unfold State.acceptJoin
  simp only
  have h1 := (s.modSup_quiet r fun v =>
    { v with serial := some (statusSerial b), position := some (statusPosition b) }).trans
      (State.takeAlarms_quiet _ r (statusAlarms b))
  split
  · exact h1.trans (State.thermalRecompute_quiet _ _ _)
  · exact h1.trans (State.enterJoining_quiet _ _)

theorem State.identityChecks_quiet (s : State) (r : RemoteId) (b : List Byte) : Quiet s (s.identityChecks r b) := by
  unfold State.identityChecks State.duplicateCheck
  split
  · exact s.post_quiet _ _ _
  · split
    · exact s.post_quiet _ _ _
    · exact s.acceptJoin_quiet r b

theorem State.acceptInService_quiet (s : State) (r : RemoteId) (b : List Byte) : Quiet s (s.acceptInService r b) := by
  unfold State.acceptInService
  simp only
  have h1 := (s.modSup_quiet r fun v => { v with position := some (statusPosition b) }).trans
      (State.takeAlarms_quiet _ r (statusAlarms b))
  split
  · exact h1.trans (State.lose_quiet _ _ _)
  · split
    · exact h1.trans (State.thermalRecompute_quiet _ _ _)
    · exact (h1.trans (State.modSup_quiet _ _ _)).trans (State.settleHealth_quiet _ _)

theorem State.statusArrives_quiet (s : State) (r : RemoteId) (b : List Byte) : Quiet s (s.statusArrives r b) := by
  unfold State.statusArrives State.inServiceCheck
  simp only
  refine (s.modSup_quiet r fun v => { v with miss := 0, awaiting := false, report := some ⟨b, s.now⟩ }).trans ?_
  split
  · exact .refl _
  · exact .refl _
  · exact State.identityChecks_quiet _ _ _
  · exact State.identityChecks_quiet _ _ _
  all_goals
    split
    · exact State.acceptInService_quiet _ _ _
    · exact State.lose_quiet _ _ _

theorem State.pollRemote_quiet (s : State) (r : RemoteId) : Quiet s (s.pollRemote r) := by
  unfold State.pollRemote
  split
  · exact .refl s
  · simp only
    refine Quiet.trans ?_ (State.queuePoll_quiet _ _)
    refine Quiet.trans ?_ (Quiet.ite (State.lose_quiet _ _ _) (.refl _))
    exact Quiet.ite (s.modSup_quiet _ _) (.refl _)

theorem State.pollEvent_quiet (s : State) : Quiet s s.pollEvent := .foldl State.pollRemote_quiet _ s

theorem State.graceExpires_quiet (s : State) (r : RemoteId) : Quiet s (s.graceExpires r) := by
  unfold State.graceExpires
  exact (s.modSup_quiet r fun v => { v with grace := none }).trans (Quiet.ite (State.lose_quiet _ _ _) (.refl _))

theorem State.flapExpires_quiet (s : State) (r : RemoteId) : Quiet s (s.flapExpires r) := s.modSup_quiet _ _

theorem State.tickGrace_quiet (s : State) (r : RemoteId) : Quiet s (s.tickGrace r) := by
  unfold State.tickGrace
  split
  · exact (s.modSup_quiet r _).trans (Quiet.ite (State.markDue_quiet _ _) (.refl _))
  · exact .refl s

theorem State.tickDecay_quiet (s : State) (r : RemoteId) : Quiet s (s.tickDecay r) := by
  unfold State.tickDecay
  split
  · exact (s.modSup_quiet r _).trans (Quiet.ite (State.markDue_quiet _ _) (.refl _))
  · exact .refl s

theorem State.tickRemote_quiet (s : State) (r : RemoteId) : Quiet s (s.tickRemote r) :=
  (s.tickGrace_quiet r).trans (State.tickDecay_quiet _ r)

theorem State.isolate_quiet (s : State) (r : RemoteId) : Quiet s (s.isolate r) :=
  (s.post_quiet _ _ _).trans (State.enterOut_quiet _ _ _ _)

theorem State.restore_quiet (s : State) (r : RemoteId) : Quiet s (s.restore r) := by
  unfold State.restore
  exact (((s.modSup_quiet r _).trans (State.unDue_quiet _ _)).trans (State.enterOut_quiet _ _ _ _)).trans
    (State.pollIfLocked_quiet _ _)

end Sys2Proof.Machine
end

