-- ==== Sys2Proof/Laws/QuietMoves.lean ====
section
/-! SUPPORT. What starts, switches, aborts, the live map, the Plan Store and the Spreader can do (`Quiet`,
operation by operation). -/

namespace Sys2Proof.Machine

theorem State.changeSector_quiet (s : State) (r : RemoteId) (x : Option SectorId) : Quiet s (s.changeSector r x) :=
  (s.writeHistory_quiet r).trans (State.modLive_quiet _ _ _)

/-- Holds put in one after another, while the state is one that holds. -/
theorem State.holdAll_quiet (s : State) (rs : List RemoteId) :
    (rs.foldl State.holdRemote s).engine.state = s.engine.state ∧
      (s.engine.state = .fadeOut ∨ s.engine.state = .switchPending ∨ rs = [] →
        Quiet s (rs.foldl State.holdRemote s)) := by
  induction rs generalizing s with
  | nil => exact ⟨rfl, fun _ => .refl s⟩
  | cons r rs ih =>
    have hs : (s.holdRemote r).engine.state = s.engine.state := by
      unfold State.holdRemote
      split
      · rfl
      · simp
    obtain ⟨h1, h2⟩ := ih (s.holdRemote r)
    refine ⟨h1.trans hs, fun h => ?_⟩
    have h' : s.engine.state = .fadeOut ∨ s.engine.state = .switchPending := by
      rcases h with h | h | h
      · exact .inl h
      · exact .inr h
      · cases h
    refine (s.holdRemote_quiet r h').trans (h2 ?_)
    rw [hs]
    rcases h' with h | h
    · exact .inl h
    · exact .inr (.inl h)

theorem State.startSingle_quiet (s : State) (k : MoveKind) (r : RemoteId) (y : SectorId) :
    Quiet s (s.startSingle k r y).1 := by
  unfold State.startSingle
  split
  · simp only
    have h1 : Quiet s { s with engine :=
        ⟨.fadeOut, some ⟨k, none, [⟨r, s.sectorOf r, .sector y⟩], s.now, none, none, [r]⟩, [r], [], none⟩ } :=
      .of_engine fun _ => ⟨by simp, by simp, by simp⟩
    exact (h1.trans (State.holdRemote_quiet _ r (.inl rfl))).trans (State.recompute_quiet _ r)
  · exact .refl s

theorem State.startBatch_quiet (s : State) (p : PlanId) (new : PlanMap) : Quiet s (s.startBatch p new).1 := by
  unfold State.startBatch
  split
  · simp only
    generalize hf : ((List.finRange 16).filter fun r => changedRemote (s.live r) (new.remotes.get r)) = changed
    generalize hg : changed.filter s.serviced = fading
    generalize (⟨.batch, some p, changed.map fun r => ⟨r, s.sectorOf r, (new.remotes.get r).dest⟩, s.now, none,
      none, fading⟩ : MoveRecord) = m
    have h1 : Quiet s { s with engine :=
        ⟨if fading.isEmpty then .switchPending else .fadeOut, some m, fading, [], some new⟩ } := by
      refine .of_engine fun _ => ⟨?_, ?_, ?_⟩
      · simp only [reduceCtorEq, iff_false]; split <;> simp
      · intro h
        cases fading with
        | nil => rfl
        | cons _ _ => simp at h
      · exact fun _ => rfl
    refine (h1.trans ((State.holdAll_quiet _ fading).2 ?_)).trans (State.recomputeAll_quiet _ _)
    cases fading <;> simp
  · exact .refl s

theorem State.vacate_quiet (s : State) (r : RemoteId) : Quiet s (s.vacate r) := by
  unfold State.vacate
  exact (((((s.modSup_quiet r _).trans (State.unDue_quiet _ _)).trans (State.unDue_quiet _ _)).trans
    (State.modRamp_quiet _ _ _)).trans (State.markStale_quiet _ _)).trans (State.abortPass_quiet _ _)

theorem State.bringIn_quiet (s : State) (r : RemoteId) : Quiet s (s.bringIn r) := by
  unfold State.bringIn
  exact (((s.modSup_quiet r _).trans (State.modRamp_quiet _ _ _)).trans (State.markStale_quiet _ _)).trans
    (State.pollIfLocked_quiet _ _)

theorem State.clearHoming_quiet (s : State) (r : RemoteId) : Quiet s (s.clearHoming r) :=
  .of_parts rfl rfl rfl rfl rfl rfl rfl rfl rfl rfl

theorem State.setLive_quiet (s : State) (r : RemoteId) (v : LiveRemote) : Quiet s (s.setLive r v) :=
  .of_parts rfl rfl rfl rfl rfl rfl rfl rfl rfl rfl

theorem State.applyEntry_quiet (s : State) (r : RemoteId) (e : RemoteEntry) : Quiet s (s.applyEntry r e) := by
  unfold State.applyEntry
  simp only
  exact ((Quiet.ite (.refl s) (s.writeHistory_quiet r)).trans (Quiet.ite (.refl _) (State.clearHoming_quiet _ r))).trans
    (State.setLive_quiet _ _ _)

theorem State.applyConfigured_quiet (s : State) (r : RemoteId) (b : Bool) : Quiet s (s.applyConfigured r b) := by
  unfold State.applyConfigured
  simp only
  refine Quiet.trans ?_ (State.deriveMode_quiet _ _)
  exact Quiet.ite (s.vacate_quiet r) (Quiet.ite (s.bringIn_quiet r) (.refl s))

theorem State.enterFadeIn_quiet (s : State) (m : MoveRecord) (phase : List RemoteId) (p : Option PlanMap) :
    Quiet s (s.enterFadeIn m phase p) :=
  (s.releaseHolds_quiet).trans (.of_engine fun _ => ⟨by simp, by simp, by simp⟩)

theorem State.diverge_quiet (s : State) : Quiet s s.diverge :=
  .of_parts rfl rfl rfl rfl rfl rfl rfl rfl rfl rfl

theorem State.singleSwitch_quiet (s : State) : Quiet s s.singleSwitch := by
  unfold State.singleSwitch
  split
  · split
    · simp only
      exact ((((((s.changeSector_quiet _ _).trans (Quiet.ite (State.diverge_quiet _) (.refl _))).trans
        (State.enterFadeIn_quiet _ _ _ _)).trans (State.reevalBoosts_quiet _ _)).trans
        (State.evalSector_quiet _ _)).trans (State.evalDegraded_quiet _ _ _)).trans (State.recomputeAll_quiet _ _)
    · exact .refl s
  · exact .refl s

theorem State.setSectors_quiet (s : State) (t : Tab 8 SectorEntry) : Quiet s (s.setSectors t) :=
  .of_parts rfl rfl rfl rfl rfl rfl rfl rfl rfl rfl

theorem State.applyMap_quiet (s : State) (new : PlanMap) : Quiet s (s.applyMap new) := by
  unfold State.applyMap
  have h := Quiet.foldl (f := fun (s : State) r => s.applyEntry r (new.remotes.get r))
    (fun s x => s.applyEntry_quiet x _) (List.finRange 16) s
  exact h.trans (State.setSectors_quiet _ _)

theorem State.applyHealths_quiet (s t : State) : Quiet s (s.applyHealths t) :=
  .foldl (fun s x => s.applyConfigured_quiet x _) _ _

theorem State.evaluateAll_quiet (s : State) : Quiet s s.evaluateAll.1 := by
  unfold State.evaluateAll
  simp only
  exact (s.reevalBoosts_quiet _).trans (.foldl (fun s x => s.evalDegraded_quiet _ x) _ _)

theorem State.wholeSwitch_quiet (s : State) : Quiet s s.wholeSwitch := by
  unfold State.wholeSwitch
  split
  · rename_i m new _ _
    simp only
    have h := ((((s.applyMap_quiet new).trans (State.applyHealths_quiet _ s)).trans
      (State.enterFadeIn_quiet _ m (m.fading.filter fun r =>
        decide (((s.applyMap new).applyHealths s).health r ≠ .vacant)) (some new))).trans
      (State.evaluateAll_quiet _))
    refine Quiet.ite ((h.trans (State.recomputeAll_quiet _ _)).trans (State.moveEnd_quiet _ _))
      (h.trans (State.recomputeAll_quiet _ _))
  · exact .refl s

theorem State.enterRecovery_quiet (s : State) (m : MoveRecord) (h : s.engine.record = some m) :
    Quiet s (s.enterRecovery m) :=
  (s.releaseHolds_quiet).trans (.of_engine fun _ => ⟨by simp [h], by simp, by simp⟩)

theorem State.startRecovery_quiet (s : State) : Quiet s s.startRecovery := by
  unfold State.startRecovery
  split
  · rename_i m hm
    have h := (s.enterRecovery_quiet m hm).trans (State.recomputeAll_quiet _ s.engine.holdSet)
    exact Quiet.ite (h.trans (State.moveEnd_quiet _ _)) h
  · exact .refl s

theorem State.takeStartPlan_quiet (s : State) : Quiet s s.takeStartPlan :=
  ⟨rfl, rfl, rfl, rfl, rfl, rfl, rfl, rfl, id, id, id, le_refl _, le_refl _⟩

theorem State.loadRemote_quiet (s : State) (r : RemoteId) : Quiet s (s.loadRemote r) := by
  unfold State.loadRemote
  simp only
  exact (Quiet.ite (s.bringIn_quiet r) (Quiet.ite (s.vacate_quiet r) (.refl s))).trans (State.deriveMode_quiet _ _)

theorem State.loadMap_quiet (s : State) : Quiet s s.loadMap := by
  unfold State.loadMap
  simp only
  exact ((((s.takeStartPlan_quiet).trans (.foldl State.loadRemote_quiet _ _)).trans
    (State.reevalBoosts_quiet _ _)).trans (.foldl (fun s x => s.evalDegraded_quiet _ x) _ _)).trans
    (State.recomputeAll_quiet _ _)

theorem State.startCutOver_quiet (s : State) (p : PlanId) : Quiet s (s.startCutOver p).1 := s.startBatch_quiet _ _

theorem State.testSchedule_quiet (s : State) (c : Schedule) : Quiet s (s.testSchedule c) := by
  unfold State.testSchedule
  split
  · exact (s.post_quiet _ _ _).trans (State.setSchedule_quiet _ _)
  · simp only
    split
    · exact (s.startCutOver_quiet _).trans (State.setSchedule_quiet _ _)
    · exact s.setSchedule_quiet _

theorem State.dueTest_quiet (s : State) : Quiet s s.dueTest := by
  unfold State.dueTest
  split
  · exact Quiet.ite (s.testSchedule_quiet _) (.refl s)
  · exact .refl s

theorem State.waitingTest_quiet (s : State) : Quiet s s.waitingTest := by
  unfold State.waitingTest
  split
  · exact Quiet.ite (s.testSchedule_quiet _) (.refl s)
  · exact .refl s

/-! ## The window end -/

theorem State.closeWindow_quiet (s : State) : Quiet s s.closeWindow :=
  .of_parts rfl rfl rfl rfl rfl rfl rfl rfl rfl rfl

theorem State.clipAlarm_quiet (s : State) (c : CarrierId) : Quiet s (s.clipAlarm c) := by
  unfold State.clipAlarm
  exact Quiet.ite (s.post_quiet _ _ _) (.refl s)

theorem State.portAlarms_quiet (s : State) (r : RemoteId) : Quiet s (s.portAlarms r) := by
  unfold State.portAlarms
  simp only
  have h1 : Quiet s (if s.settings.lateLimit ≠ 0 ∧ (s.comb.window.get r).late > s.settings.lateLimit then
      s.post .lateUplink (.remote r) (word16 (s.comb.window.get r).late) else s) :=
    Quiet.ite (s.post_quiet _ _ _) (.refl s)
  exact h1.trans (Quiet.ite (State.post_quiet _ _ _ _) (.refl _))

theorem State.clearWindow_quiet (s : State) : Quiet s s.clearWindow :=
  .of_parts rfl rfl rfl rfl rfl rfl rfl rfl rfl rfl

theorem State.clearOverload_quiet (s : State) (x : SectorId) : Quiet s (s.clearOverload x) :=
  .of_parts rfl rfl rfl rfl rfl rfl rfl rfl rfl rfl

theorem State.recordDecision_quiet (s : State) (d : Decision) : Quiet s (s.recordDecision d) :=
  .of_parts rfl rfl rfl rfl rfl rfl rfl rfl rfl rfl

theorem State.windowAlarms_quiet (s : State) : Quiet s s.windowAlarms := by
  unfold State.windowAlarms
  exact ((Quiet.foldl State.clipAlarm_quiet _ s).trans (.foldl State.portAlarms_quiet _ _)).trans
    (State.clearWindow_quiet _)

theorem State.judgeSettled_quiet (s : State) (p : Published) : Quiet s (s.judgeSettled p) :=
  .of_parts rfl rfl rfl rfl rfl rfl rfl rfl rfl rfl

theorem State.updateStreaks_quiet (s : State) (p : Published) : Quiet s (s.updateStreaks p) :=
  .of_parts rfl rfl rfl rfl rfl rfl rfl rfl rfl rfl

theorem State.relief_quiet (s : State) (p : Published) : Quiet s (s.relief p).1 := by
  unfold State.relief
  split
  · exact .refl s
  · simp only
    split
    · exact s.post_quiet _ _ _
    · split
      · exact s.post_quiet _ _ _
      · split
        · exact s.post_quiet _ _ _
        · exact .refl s

theorem State.evaluate_quiet (s : State) (p : Published) : Quiet s (s.evaluate p).1 := by
  unfold State.evaluate
  split
  · exact .refl s
  · have h := s.relief_quiet p
    split
    · rename_i t res ht
      rw [ht] at h
      exact h
    · exact h

theorem State.setRequest_quiet (s : State) (q : Option StartRequest) : Quiet s (s.setRequest q) :=
  .of_parts rfl rfl rfl rfl rfl rfl rfl rfl rfl rfl

theorem State.spread_quiet (s : State) (p : Published) : Quiet s (s.spread p) := by
  unfold State.spread
  simp only
  have h := ((s.judgeSettled_quiet p).trans (State.updateStreaks_quiet _ p)).trans (State.evaluate_quiet _ p)
  split
  · exact (h.trans (State.setRequest_quiet _ _)).trans (State.recordDecision_quiet _ _)
  · exact h.trans (State.setRequest_quiet _ _)

theorem State.clearStreak_quiet (s : State) (q : StartRequest) : Quiet s (s.clearStreak q) := by
  unfold State.clearStreak
  split
  · exact s.clearOverload_quiet _
  · exact s.clearHoming_quiet _

theorem State.answerRequest_quiet (s : State) (q : StartRequest) : Quiet s (s.answerRequest q) := by
  unfold State.answerRequest
  simp only
  have h := (s.setRequest_quiet none).trans (State.startSingle_quiet _ q.kind.move q.remote q.dest)
  split
  · exact (h.trans (State.clearStreak_quiet _ _)).trans (State.recordDecision_quiet _ _)
  · exact h.trans (State.recordDecision_quiet _ _)

theorem State.takeRequested_quiet (s : State) : Quiet s s.takeRequested := by
  unfold State.takeRequested
  split
  · exact s.answerRequest_quiet _
  · exact .refl s

theorem State.meterEnds_quiet (s : State) : Quiet s s.meterEnds :=
  s.closeWindow_quiet.trans (State.windowAlarms_quiet _)

theorem State.spreadEnds_quiet (s : State) : Quiet s s.spreadEnds := by
  unfold State.spreadEnds
  split
  · exact s.spread_quiet _
  · exact .refl s

theorem State.windowEnd_quiet (s : State) : Quiet s s.windowEnd :=
  (s.meterEnds_quiet.trans (State.spreadEnds_quiet _)).trans (State.takeRequested_quiet _)

end Sys2Proof.Machine
end

