-- ==== Sys2Proof/Laws/QuietLinks.lean ====
section
/-! SUPPORT. What the receive sides of the links can do (`Quiet`, operation by operation). -/

namespace Sys2Proof.Machine

theorem State.selectReference_quiet (s : State) : Quiet s s.selectReference := by
  unfold State.selectReference
  split
  · exact .refl s
  · split
    · exact (s.setReference_quiet _).trans (State.post_quiet _ _ _ _)
    · exact .refl s

theorem State.loseReference_quiet (s : State) (n : DonorId) : Quiet s (s.loseReference n) := by
  unfold State.loseReference
  simp only
  exact Quiet.ite ((s.setReference_quiet _).trans (State.post_quiet _ _ _ _)) (.refl s)

theorem State.reviseReference_quiet (s : State) : Quiet s s.reviseReference := by
  unfold State.reviseReference
  split
  · exact Quiet.ite (.refl s) (s.setReference_quiet _)
  · exact s.selectReference_quiet

theorem State.removeRequests_quiet (s : State) (n : DonorId) : Quiet s (s.removeRequests n) := by
  unfold State.removeRequests
  simp only
  exact (Quiet.of_svc (s := s)
    (v := { s.svc with input := s.svc.input.filter fun q => decide (q.link ≠ MsgLink.donor n) })
    (le_refl _) (List.length_filter_le _ _)).trans (State.countSvc_quiet _ _ _)

theorem State.donorUnlocked_quiet (s : State) (n : DonorId) : Quiet s (s.donorUnlocked n) :=
  (((s.loseReference_quiet n).trans (State.modDonor_quiet _ _ _)).trans (State.unDue_quiet _ _)).trans
    (State.removeRequests_quiet _ _)

theorem State.setQueue_quiet (s : State) (r : RemoteId) (q : List Entry) : Quiet s (s.setQueue r q) :=
  .of_parts rfl rfl rfl rfl rfl rfl rfl rfl rfl rfl

theorem State.remoteUnlocked_quiet (s : State) (r : RemoteId) : Quiet s (s.remoteUnlocked r) := by
  unfold State.remoteUnlocked
  simp only
  exact (((s.setQueue_quiet r []).trans (State.modSup_quiet _ _ _)).trans (State.unDue_quiet _ _)).trans
    (State.relayLinkLost_quiet _ _)

theorem State.dropOffer_quiet (s : State) : Quiet s s.dropOffer := .of_events fun e => e

theorem State.leaveLocked_quiet (s : State) (l : Link) : Quiet s (s.leaveLocked l) := by
  unfold State.leaveLocked
  simp only
  have h : Quiet s (if (s.framer l).emission.any Emission.isRestart then
      (s.modFramer l Framer.unlock).markDue .restart else s.modFramer l Framer.unlock) := by
    refine (s.modFramer_quiet l Framer.unlock fun b => ⟨Nat.zero_le _, Nat.zero_le _⟩).trans ?_
    exact Quiet.ite (State.markDue_quiet _ _) (.refl _)
  refine h.trans ?_
  cases l with
  | donor n => exact State.donorUnlocked_quiet _ n
  | remote r => exact State.remoteUnlocked_quiet _ r
  | service => exact State.dropOffer_quiet _

theorem State.takeWaitingStatus_quiet (s : State) (r : RemoteId) : Quiet s (s.takeWaitingStatus r) := by
  unfold State.takeWaitingStatus
  split
  · exact (s.modFramer_quiet _ (fun f => { f with handed := f.handed.eraseP Message.isStatus }) fun b => b).trans
      (State.statusArrives_quiet _ _ _)
  · exact .refl s

theorem State.takeStatuses_quiet (s : State) (r : RemoteId) (n : Nat) : Quiet s (s.takeStatuses r n) := by
  induction n generalizing s with
  | zero => exact .refl s
  | succ n ih => exact (s.takeWaitingStatus_quiet r).trans (ih _)

theorem State.donorLocked_quiet (s : State) (n : DonorId) : Quiet s (s.donorLocked n) := by
  unfold State.donorLocked
  simp only
  have h := (s.modDonor_quiet n fun _ => ⟨none, false, false⟩).trans (State.unDue_quiet _ (.donorGrace n))
  exact Quiet.ite (h.trans (State.post_quiet _ _ _ _)) h

theorem State.remoteLocked_quiet (s : State) (r : RemoteId) : Quiet s (s.remoteLocked r) := by
  unfold State.remoteLocked
  simp only
  have h := (s.modSup_quiet r fun v => { v with grace := none }).trans (State.unDue_quiet _ (.linkGrace r))
  exact Quiet.ite h (h.trans (State.queuePoll_quiet _ _))

theorem State.enterLocked_quiet (s : State) (l : Link) : Quiet s (s.enterLocked l) := by
  unfold State.enterLocked
  simp only
  refine (s.modFramer_quiet l (fun f => { f with rx := .locked, streak := 0 }) fun b => b).trans ?_
  cases l with
  | donor n => exact (State.selectReference_quiet _).trans (State.donorLocked_quiet _ _)
  | remote r => exact State.remoteLocked_quiet _ _
  | service => exact .refl _

theorem State.takeSlot_quiet (s : State) (l : Link) (flag : Byte) (bytes : List Byte) :
    Quiet s (s.takeSlot l flag bytes) := by
  refine s.modFramer_quiet l _ fun b => ?_
  simp only
  split
  · split <;> exact b
  · exact b

theorem Framer.bufferFrame_bounded (f : Framer) (x : LinkFrame) (b : f.bounded) : (f.bufferFrame x).bounded := by
  unfold Framer.bufferFrame
  split
  · rename_i h
    exact ⟨by simpa using h, b.2⟩
  · refine ⟨?_, b.2⟩
    have := b.1
    simp only [List.length_append, List.length_drop, List.length_singleton]
    omega

theorem State.countLate_quiet (s : State) (r : RemoteId) : Quiet s (s.countLate r) :=
  .of_parts rfl rfl rfl rfl rfl rfl rfl rfl rfl rfl

theorem State.acceptEntry_quiet (s : State) (r : RemoteId) (e : Entry) : Quiet s (s.acceptEntry r e) :=
  .of_parts rfl rfl rfl rfl rfl rfl rfl rfl rfl rfl

theorem State.classify_quiet (s : State) (r : RemoteId) (e : Entry) : Quiet s (s.classify r e) := by
  unfold State.classify
  simp only
  refine Quiet.ite (s.countPort_quiet _ _) (Quiet.ite ?_ (Quiet.ite (s.countPort_quiet _ _) (Quiet.ite ?_ ?_)))
  · exact s.countLate_quiet r
  · exact ((s.setQueue_quiet r _).trans (State.countPort_quiet _ _ _)).trans (State.acceptEntry_quiet _ _ _)
  · exact s.acceptEntry_quiet r e

theorem State.deliver_quiet (s : State) (l : Link) (x : LinkFrame) : Quiet s (s.deliver l x) := by
  unfold State.deliver
  simp only
  refine Quiet.trans ?_ (State.takeSlot_quiet _ _ _ _)
  refine (s.modFramer_quiet l (fun f => f.goodLocked x.number) fun b => b).trans ?_
  cases l with
  | donor n => exact State.modFramer_quiet _ _ _ (Framer.bufferFrame_bounded _ x)
  | remote r => exact State.classify_quiet _ _ _
  | service => exact .refl _

theorem State.goodFrame_quiet (s : State) (l : Link) (x : LinkFrame) : Quiet s (s.goodFrame l x) := by
  unfold State.goodFrame
  simp only
  split
  · exact .refl s
  · exact s.modFramer_quiet _ _ fun b => b
  · refine Quiet.ite (Quiet.ite ?_ ?_) ?_
    · exact ((s.modFramer_quiet l (fun f => { f with verifyCount := f.verifyCount + 1 }) fun b => b).trans
        (State.enterLocked_quiet _ _)).trans (State.deliver_quiet _ _ _)
    · exact s.modFramer_quiet _ _ fun b => b
    · exact s.modFramer_quiet _ _ fun b => b
  · exact s.deliver_quiet l x

theorem State.dropHanded_quiet (s : State) (l : Link) : Quiet s (s.dropHanded l) :=
  s.modFramer_quiet l _ fun b => b

theorem State.takeRemoteMessage_quiet (s : State) (r : RemoteId) (kind : Byte) (f : State → Message → State)
    (h : ∀ s m, Quiet s (f s m)) : Quiet s (s.takeRemoteMessage r kind f) := by
  unfold State.takeRemoteMessage
  split
  · exact Quiet.ite ((s.dropHanded_quiet _).trans (h _ _)) (.refl s)
  · exact .refl s

theorem State.takeStatus_quiet (s : State) (r : RemoteId) : Quiet s (s.takeStatus r) :=
  s.takeRemoteMessage_quiet r _ _ fun s m => s.statusArrives_quiet r m.body

theorem State.takeReply_quiet (s : State) (r : RemoteId) : Quiet s (s.takeReply r) :=
  s.takeRemoteMessage_quiet r _ _ fun s m => s.replyArrives_quiet r m

theorem State.takeBusy_quiet (s : State) (r : RemoteId) : Quiet s (s.takeBusy r) :=
  s.takeRemoteMessage_quiet r _ _ fun s m => s.busyArrives_quiet r m

theorem State.takeAnyRemote_quiet (s : State) (r : RemoteId) : Quiet s (s.takeAnyRemote r) := by
  unfold State.takeAnyRemote
  split
  · exact Quiet.ite (s.takeStatus_quiet r) (Quiet.ite (s.takeReply_quiet r) (s.takeBusy_quiet r))
  · exact .refl s

theorem State.drainRemote_quiet (s : State) (r : RemoteId) (n : Nat) : Quiet s (s.drainRemote r n) := by
  induction n generalizing s with
  | zero => exact .refl s
  | succ n ih => exact (s.takeAnyRemote_quiet r).trans (ih _)

end Sys2Proof.Machine
end

