-- ==== Sys2Proof/Laws/Steady.lean ====
section
/-! SUPPORT. What completed messages, expiries and the parts of a boundary can do: as `Quiet`, but a message
may take a place of the request and response queues, within their sizes. -/

namespace Sys2Proof.Machine

/-- What an operation of the hub's own leaves and keeps. -/
structure Steady (s t : State) : Prop where
  pending : t.pending = s.pending
  fc : t.clock.fc = s.clock.fc
  started : t.clock.started = s.clock.started
  carriers : t.dist.carriers = s.dist.carriers
  settings : t.settings = s.settings
  loader : t.loader = s.loader
  plans : t.store.plans = s.store.plans
  start : t.store.start = s.store.start
  events : s.events.lawful → t.events.lawful
  engine : s.engine.lawful → t.engine.lawful
  links : s.links.bounded → t.links.bounded
  service : s.serviceLaw → t.serviceLaw

theorem Quiet.steady {s t : State} (h : Quiet s t) : Steady s t :=
  ⟨h.pending, h.fc, h.started, h.carriers, h.settings, h.loader, h.plans, h.start, h.events, h.engine, h.links,
    fun k => ⟨le_trans h.places k.1, le_trans h.input k.2⟩⟩

namespace Steady

theorem refl (s : State) : Steady s s := (Quiet.refl s).steady

theorem trans {s t u : State} (h : Steady s t) (k : Steady t u) : Steady s u where
  pending := k.pending.trans h.pending
  fc := k.fc.trans h.fc
  started := k.started.trans h.started
  carriers := k.carriers.trans h.carriers
  settings := k.settings.trans h.settings
  loader := k.loader.trans h.loader
  plans := k.plans.trans h.plans
  start := k.start.trans h.start
  events := fun e => k.events (h.events e)
  engine := fun e => k.engine (h.engine e)
  links := fun e => k.links (h.links e)
  service := fun e => k.service (h.service e)

theorem foldl {α : Type} {f : State → α → State} (h : ∀ s a, Steady s (f s a)) (xs : List α) (s : State) :
    Steady s (xs.foldl f s) := by
  induction xs generalizing s with
  | nil => exact refl s
  | cons a xs ih => exact (h s a).trans (ih (f s a))

theorem ite {s t u : State} {c : Prop} [Decidable c] (h : Steady s t) (k : Steady s u) :
    Steady s (if c then t else u) := by
  split
  · exact h
  · exact k

/-- A change of the service block that keeps its law. -/
theorem of_svc {s : State} {v : Service} (h : s.serviceLaw → v.places ≤ 8 ∧ v.input.length ≤ 4) :
    Steady s { s with svc := v } :=
  ⟨rfl, rfl, rfl, rfl, rfl, rfl, rfl, rfl, id, id, id, h⟩

end Steady

/-! ## Completed messages -/

theorem Service.hasRoom_iff (v : Service) : v.hasRoom = true ↔ v.places < 8 := by
  simp [Service.hasRoom, Service.places]

theorem State.fill_steady (s : State) (p : Response) (h : s.svc.hasRoom = true) : Steady s (s.fill p) := by
  refine .of_svc fun k => ⟨?_, k.2⟩
  have := (Service.hasRoom_iff _).mp h
  simp only [Service.places, List.length_append, List.length_singleton] at this ⊢
  omega

theorem State.reserve_steady (s : State) (v : Reservation) (h : s.svc.hasRoom = true) : Steady s (s.reserve v) := by
  refine .of_svc fun k => ⟨?_, k.2⟩
  have := (Service.hasRoom_iff _).mp h
  simp only [Service.places, List.length_append, List.length_singleton] at this ⊢
  omega

theorem State.answerArrival_steady (s : State) (l : MsgLink) (m : Message) (st : Status) :
    Steady s (s.answerArrival l m st) := by
  unfold State.answerArrival
  split
  · rename_i h
    exact (s.fill_steady _ h).trans (State.countSvc_quiet _ _ _).steady
  · exact (s.countSvc_quiet _ _).steady

theorem State.openPass_steady (s : State) (r : RemoteId) (l : MsgLink) (m : Message) (h : s.svc.hasRoom = true) :
    Steady s (s.openPass r l m) := by
  unfold State.openPass
  simp only
  refine Steady.trans ?_ (State.offer_quiet _ _ _).steady
  refine Steady.trans ?_ (State.countRelay_quiet _ _ _).steady
  refine Steady.trans ?_ (State.reserve_steady _ _ h)
  exact ((s.takeTag_quiet r).trans (State.setPass_quiet _ _ _)).steady

theorem State.startSetRelay_steady (s : State) (l : MsgLink) (m : Message) (ports : List RemoteId)
    (h : s.svc.hasRoom = true) : Steady s (s.startSetRelay l m ports) := by
  unfold State.startSetRelay
  simp only
  refine Steady.trans ?_ (State.endSetRelay_quiet _).steady
  refine Steady.trans ?_ (Quiet.foldl (fun s r => (s.takeTag_quiet r).trans (State.offer_quiet _ _ _)) _ _).steady
  refine .of_svc fun k => ⟨?_, k.2⟩
  have := (Service.hasRoom_iff _).mp h
  simp only [Service.places, List.length_append, List.length_singleton] at this ⊢
  omega

/-- The input queue takes a request only below 4 (R151). -/
theorem State.arrivalCase_queue {s : State} {h : Header} (q : s.arrivalCase h = .queue) :
    s.svc.input.length < 4 := by
  unfold State.arrivalCase at q
  split at q
  · split at q
    · cases q
    · omega
  · split at q
    · split at q
      · cases q
      · split at q
        · cases q
        · split at q
          · cases q
          · split at q <;> cases q
    · split at q
      · split at q
        · cases q
        · split at q <;> cases q
      · cases q

theorem State.admitMessage_steady (s : State) (l : MsgLink) (m : Message) : Steady s (s.admitMessage l m) := by
  unfold State.admitMessage
  split
  · exact (s.countSvc_quiet _ _).steady
  · rename_i h
    have h : s.svc.hasRoom = true := by simpa using h
    split
    · exact s.answerArrival_steady _ _ _
    · rename_i hq
      have hq := State.arrivalCase_queue hq
      refine (Steady.of_svc (s := s)
        (v := { s.svc with input := s.svc.input ++ [(⟨l, m.head.tag, m.head.kind, m.body⟩ : Request)] })
        fun k => ⟨k.1, ?_⟩).trans (State.countSvc_quiet _ _ _).steady
      simp only [List.length_append, List.length_singleton]
      omega
    · exact s.openPass_steady _ _ _ h
    · exact s.startSetRelay_steady _ _ _ h

theorem State.serviceArrives_steady (s : State) (l : MsgLink) (m : Message) : Steady s (s.serviceArrives l m) := by
  unfold State.serviceArrives
  split
  · exact (s.countSvc_quiet _ _).steady
  · split
    · exact (s.countSvc_quiet _ _).steady
    · exact Steady.ite (s.answerArrival_steady _ _ _) (s.admitMessage_steady _ _)
    · exact s.admitMessage_steady _ _

theorem State.takeServiceMessage_steady (s : State) (l : MsgLink) : Steady s (s.takeServiceMessage l) := by
  unfold State.takeServiceMessage
  split
  · exact (s.dropHanded_quiet _).steady.trans (State.serviceArrives_steady _ _ _)
  · exact .refl s

theorem State.drainService_steady (s : State) (l : MsgLink) (n : Nat) : Steady s (s.drainService l n) := by
  induction n generalizing s with
  | zero => exact .refl s
  | succ n ih => exact (s.takeServiceMessage_steady l).trans (ih _)

theorem State.takeArrived_steady (s : State) (l : Link) : Steady s (s.takeArrived l) := by
  cases l with
  | donor n => exact s.drainService_steady _ _
  | remote r => exact (s.takeStatuses_quiet r _).steady
  | service => exact s.drainService_steady _ _

theorem State.loseLock_steady (s : State) (l : Link) (next : RxState) (own : Framer → Framer)
    (h : ∀ f : Framer, f.bounded → (own f).bounded) : Steady s (s.loseLock l next own) :=
  (s.takeArrived_steady l).trans ((State.modFramer_quiet _ l (fun f => (own f).loseLock next) fun b => h _ b).trans
    (State.leaveLocked_quiet _ _)).steady

theorem State.erroredFrame_steady (s : State) (l : Link) (present : Bool) : Steady s (s.erroredFrame l present) := by
  unfold State.erroredFrame
  simp only
  split
  · exact .refl s
  · exact .refl s
  · exact (s.modFramer_quiet _ _ fun b => b).steady
  · exact Steady.ite (s.loseLock_steady l _ _ fun _ b => b)
      (s.modFramer_quiet l (fun f => f.erroredLocked present) fun b => b).steady

theorem State.frameEnds_steady (s : State) (l : Link) (x : LinkFrame) : Steady s (s.frameEnds l x) := by
  unfold State.frameEnds
  exact Steady.ite (s.goodFrame_quiet l x).steady (s.erroredFrame_steady l _)

theorem State.lossOfSignal_steady (s : State) (l : Link) : Steady s (s.lossOfSignal l) := by
  unfold State.lossOfSignal
  exact Steady.ite (s.loseLock_steady l _ _ fun _ b => b) (s.modFramer_quiet l _ fun b => b).steady

theorem State.signalReturns_quiet (s : State) (l : Link) : Quiet s (s.signalReturns l) := by
  unfold State.signalReturns
  exact Quiet.ite (s.modFramer_quiet l _ fun b => b) (.refl s)

theorem State.drainHanded_steady (s : State) : Steady s s.drainHanded := by
  unfold State.drainHanded
  simp only
  exact ((Quiet.foldl (fun (s : State) r => s.drainRemote_quiet r _) _ s).steady.trans
    (.foldl (fun s n => s.drainService_steady (.donor n) _) _ _)).trans (State.drainService_steady _ _ _)

/-! ## RESTART -/

theorem Links.restart_bounded (l : Links) (h : l.bounded) :
    Links.bounded ⟨l.donors.map Framer.restart, l.remotes.map Framer.restart, l.service.restart⟩ := by
  refine ⟨fun n => ?_, fun r => ?_, ?_⟩
  · simp only [Tab.get_map]; exact ⟨(h.1 n).1, Nat.zero_le _⟩
  · simp only [Tab.get_map]; exact ⟨(h.2.1 r).1, Nat.zero_le _⟩
  · exact ⟨h.2.2.1, Nat.zero_le _⟩

theorem EventQueue.reset_lawful : EventQueue.reset.lawful := by
  simp [EventQueue.lawful, EventQueue.reset]

/-- RESTART keeps the settings, the plans, the carrier table and the frame count (R167). -/
theorem State.restartEffect_quiet (s : State) : Quiet s s.restartEffect :=
  ⟨rfl, rfl, rfl, rfl, rfl, rfl, rfl, rfl, fun _ => EventQueue.reset_lawful, fun _ => Engine.idle_lawful,
    Links.restart_bounded _, Nat.zero_le _, Nat.zero_le _⟩

/-! ## Parts of a boundary -/

theorem State.switchFalls_quiet (s : State) : Quiet s s.switchFalls := by
  unfold State.switchFalls
  exact Quiet.ite (Quiet.ite s.wholeSwitch_quiet s.singleSwitch_quiet) (.refl s)

theorem State.takeDue_steady (s : State) (e : Due) (f : State → State) (h : ∀ s, Steady s (f s)) :
    Steady s (s.takeDue e f) := by
  unfold State.takeDue
  exact Steady.ite ((s.unDue_quiet e).steady.trans (h _)) (.refl s)

theorem State.takeDue_quiet (s : State) (e : Due) (f : State → State) (h : ∀ s, Quiet s (f s)) :
    Quiet s (s.takeDue e f) := by
  unfold State.takeDue
  exact Quiet.ite ((s.unDue_quiet e).trans (h _)) (.refl s)

theorem State.windowPart_quiet (s : State) (part : WindowPart) : Quiet s (s.windowPart part) := by
  unfold State.windowPart
  cases part with
  | whole => exact s.takeDue_quiet _ _ State.windowEnd_quiet
  | meter => exact s.takeDue_quiet _ _ fun s => s.meterEnds_quiet.trans (State.markDue_quiet _ _)
  | spread => exact s.takeDue_quiet _ _ fun s =>
      s.spreadEnds_quiet.trans (Quiet.ite (State.markDue_quiet _ _) (.refl _))
  | start => exact s.takeDue_quiet _ _ State.takeRequested_quiet

theorem State.startSenders_quiet (s : State) : Quiet s s.startSenders :=
  .foldl (fun s l => (s.startAny_quiet l).trans (State.unDue_quiet _ _)) _ s

theorem State.distribute_quiet (s : State) (fs : DonorFrames) : Quiet s (s.distribute fs) := by
  refine ⟨rfl, rfl, rfl, rfl, rfl, rfl, rfl, rfl, id, id, fun h => ⟨fun n => ?_, h.2.1, h.2.2⟩, le_refl _, le_refl _⟩
  simp only [State.distribute, Tab.get_map]
  obtain ⟨b, c⟩ := h.1 n
  unfold Framer.takeOldest
  split
  · rename_i x rest hx
    rw [hx] at b
    simp only [List.length_cons] at b
    exact ⟨by show rest.length ≤ 2; omega, c⟩
  · exact ⟨b, c⟩

theorem State.release_quiet (s : State) (t : FC) : Quiet s (s.release t) :=
  .of_parts rfl rfl rfl rfl rfl rfl rfl rfl rfl rfl

theorem State.setDelay_quiet (s : State) : Quiet s s.setDelay :=
  .of_parts rfl rfl rfl rfl rfl rfl rfl rfl rfl rfl

theorem State.combine_quiet (s : State) : Quiet s s.combine.1 := by
  unfold State.combine
  simp only
  split
  · exact (s.setDelay_quiet).trans (State.release_quiet _ _)
  · split
    · exact (s.setDelay_quiet).trans (State.release_quiet _ _)
    · exact s.setDelay_quiet

theorem State.noteWeights_quiet (s : State) : Quiet s s.noteWeights :=
  .of_parts rfl rfl rfl rfl rfl rfl rfl rfl rfl rfl

theorem State.transmit_quiet (s : State) (l : Link) (n : FC) (k : Nat) (m : List Byte) (x : List Lane) :
    Quiet s (s.transmit l n k m x) := by
  unfold State.transmit
  simp only
  exact (s.modFramer_quiet l _ fun b => b).trans (State.markAll_quiet _ _)

theorem State.transmitAll_quiet (s : State) (d : Tab 16 (List Lane)) (u : DonorUplink) (t : Lane) :
    Quiet s (s.transmitAll d u t) := by
  unfold State.transmitAll
  simp only
  exact ((Quiet.foldl (fun (s : State) n => s.transmit_quiet (.donor n) _ _ _ _) _ s).trans
    (.foldl (fun (s : State) r => s.transmit_quiet (.remote r) _ _ _ _) _ _)).trans (State.transmit_quiet _ _ _ _ _ _)

/-- Frame building and transmission, around a release that is itself quiet. -/
theorem State.framesAround_quiet (s : State) (f : State → State × DonorUplink) (h : ∀ s, Quiet s (f s).1) :
    Quiet s (s.framesAround f) :=
  (((s.distribute_quiet _).trans (h _)).trans (State.noteWeights_quiet _)).trans (State.transmitAll_quiet _ _ _ _)

theorem State.setActing_quiet (s : State) (b : Bool) : Quiet s (s.setActing b) :=
  .of_parts rfl rfl rfl rfl rfl rfl rfl rfl rfl rfl

theorem State.beforeFrames_quiet (s : State) : Quiet s s.beforeFrames :=
  ((State.takeDue_quiet _ _ _ State.switchFalls_quiet).trans
    (State.takeDue_quiet _ _ _ State.rampStep_quiet)).trans (State.startSenders_quiet _)

theorem State.actBoundary_quiet (s : State) : Quiet s s.actBoundary := by
  unfold State.actBoundary
  exact Quiet.ite (((s.setActing_quiet false).trans (State.beforeFrames_quiet _)).trans
    (State.framesAround_quiet _ _ State.combine_quiet)) (.refl s)

theorem State.actReleaseFirst_quiet (s : State) : Quiet s s.actReleaseFirst := by
  unfold State.actReleaseFirst
  exact Quiet.ite ((((s.setActing_quiet false).trans (State.combine_quiet _)).trans (State.beforeFrames_quiet _)).trans
    (State.framesAround_quiet _ _ Quiet.refl)) (.refl s)

theorem State.donorGraceExpires_quiet (s : State) (n : DonorId) : Quiet s (s.donorGraceExpires n) := by
  unfold State.donorGraceExpires
  simp only
  exact Quiet.ite ((s.modDonor_quiet n _).trans (State.post_quiet _ _ _ _)) (s.modDonor_quiet n _)

theorem State.pollExpires_quiet (s : State) : Quiet s s.pollExpires :=
  Quiet.trans (t := { s with sup := { s.sup with pollCount := 0, pollForce := s.settings.poll } })
    (.of_parts rfl rfl rfl rfl rfl rfl rfl rfl rfl rfl) (State.pollEvent_quiet _)

theorem State.pacingExpires_quiet (s : State) : Quiet s s.pacingExpires := .of_events fun h => h

theorem State.dueEffect_quiet (s : State) (e : Due) : Quiet s (s.dueEffect e) := by
  cases e with
  | switch => exact s.switchFalls_quiet
  | rampStep => exact s.rampStep_quiet
  | sender l => exact s.startAny_quiet l
  | window => exact s.windowEnd_quiet
  | spread => exact s.spreadEnds_quiet.trans (State.takeRequested_quiet _)
  | startRequest => exact s.takeRequested_quiet
  | poll => exact s.pollExpires_quiet
  | pacing => exact s.pacingExpires_quiet
  | donorGrace n => exact s.donorGraceExpires_quiet n
  | linkGrace r => exact s.graceExpires_quiet r
  | flap r => exact s.flapExpires_quiet r
  | passTimeout r => exact s.passExpires_quiet r
  | retryEnd r => exact s.retryEnds_quiet r
  | schedule => exact s.dueTest_quiet
  | retest => exact s.waitingTest_quiet
  | sent r t => exact s.sentReport_quiet r t
  | restart => exact s.restartEffect_quiet

theorem State.takeList_quiet (s : State) (es : List Due) : Quiet s (s.takeList es) :=
  .foldl (fun s e => s.takeDue_quiet e _ fun s => s.dueEffect_quiet e) es s

theorem State.settle_steady (s : State) : Steady s s.settle := by
  unfold State.settle
  simp only
  exact (((s.actBoundary_quiet).trans (State.takeList_quiet _ _)).steady.trans
    (State.drainHanded_steady _)).trans (State.takeList_quiet _ _).steady

theorem State.tickDonor_quiet (s : State) (b : Bool) (n : DonorId) : Quiet s (State.tickDonor b s n) := by
  unfold State.tickDonor
  split
  · exact Quiet.ite (.refl s) ((s.modDonor_quiet n _).trans (Quiet.ite (State.markDue_quiet _ _) (.refl _)))
  · exact .refl s

theorem State.tickWindow_quiet (s : State) : Quiet s s.tickWindow := by
  unfold State.tickWindow
  simp only
  refine Quiet.ite (.of_parts rfl rfl rfl rfl rfl rfl rfl rfl rfl rfl) ?_
  refine Quiet.trans (t := { s with meter := { s.meter with count := s.meter.count + 1 } })
    (.of_parts rfl rfl rfl rfl rfl rfl rfl rfl rfl rfl) (Quiet.ite (State.markDue_quiet _ _) (.refl _))

theorem State.tickPoll_quiet (s : State) (b : Bool) : Quiet s (s.tickPoll b) := by
  unfold State.tickPoll
  simp only
  refine Quiet.ite (.refl s) ?_
  exact Quiet.trans (t := { s with sup := { s.sup with pollCount := s.sup.pollCount + 1 } })
    (.of_parts rfl rfl rfl rfl rfl rfl rfl rfl rfl rfl) (Quiet.ite (State.markDue_quiet _ _) (.refl _))

theorem State.tickPacing_quiet (s : State) (b : Bool) : Quiet s (s.tickPacing b) := by
  unfold State.tickPacing
  simp only
  refine Quiet.ite (.refl s) ?_
  exact (Quiet.of_events (s := s) (q := { s.events with pacing := s.events.pacing + 1 }) fun h => h).trans
    (Quiet.ite (State.markDue_quiet _ _) (.refl _))

theorem State.tickSchedule_quiet (s : State) : Quiet s s.tickSchedule := by
  unfold State.tickSchedule
  split
  · exact Quiet.ite (s.markDue_quiet _) (.refl s)
  · exact .refl s

theorem State.tickAll_quiet (s : State) (b : Bool) : Quiet s (s.tickAll b) := by
  unfold State.tickAll
  simp only
  exact ((((((Quiet.foldl (f := State.tickDonor b) (fun s n => s.tickDonor_quiet b n) _ s).trans
    (.foldl State.tickRemote_quiet _ _)).trans (.foldl State.tickPass_quiet _ _)).trans
    (State.tickWindow_quiet _)).trans (State.tickPoll_quiet _ _)).trans (State.tickPacing_quiet _ _)).trans
    (State.tickSchedule_quiet _)

theorem State.postDefaulted_quiet (s : State) : Quiet s s.postDefaulted := by
  unfold State.postDefaulted
  split
  · exact s.post_quiet _ _ _
  · exact .refl s

/-- What follows the Frame Clock's own step at a boundary. -/
theorem State.afterTick_quiet (s : State) (first : Bool) : Quiet s (s.afterTick first) := by
  unfold State.afterTick
  simp only
  exact ((((Quiet.ite s.loadMap_quiet (.refl s)).trans (Quiet.ite (State.postDefaulted_quiet _) (.refl _))).trans
    (State.tickAll_quiet _ _)).trans (State.markAll_quiet _ _)).trans (State.setActing_quiet _ _)

end Sys2Proof.Machine
end

