-- ==== Sys2Proof/Laws/Stored.lean ====
section
/-! SUPPORT. What is read from the image and from a writing request lies within the ranges of its record
(R19, R105, R106, R154, R165). -/

namespace Sys2Proof.Machine

/-! ## Settings -/

theorem rampStepOf_mem (v : Nat) : rampStepOf v ∈ [1, 2, 4, 8, 16, 32] := by
  unfold rampStepOf
  repeat' split
  all_goals simp

theorem Settings.default_inRange : Settings.default.InRange := by
  simp [Settings.InRange, Settings.default]

/-- A written setting leaves every setting within its range: numeric values are clamped, and a 16-bit value is
within the widest range (R154). -/
theorem Settings.write_inRange {c d : Settings} {item value : Nat} (h : c.write item value = some d)
    (hv : value ≤ 65535) (k : c.InRange) : d.InRange := by
  have hr := rampStepOf_mem value
  unfold Settings.InRange at *
  obtain ⟨k1, k2, k3, k4, k5, k6, k7, k8, k9, k⟩ := k
  unfold Settings.write at h
  split at h
  all_goals
    first
      | (cases h; simp only [clampTo]; refine ⟨?_, ?_, ?_, ?_, ?_, ?_, ?_, ?_, ?_, ?_⟩ <;> omega)
      | (simp only [Option.map_eq_some_iff] at h; obtain ⟨_, _, rfl⟩ := h; exact ⟨k1, k2, k3, k4, k5, k6, k7, k8, k9, k⟩)
      | (split at h
         · cases h; exact ⟨k1, k2, k3, k4, k5, k6, k7, k8, k9, k⟩
         · split at h
           · cases h; exact ⟨k1, k2, k3, k4, k5, k6, k7, k8, k9, k⟩
           · cases h)
      | cases h

theorem Settings.writeAll_inRange {c d : Settings} {ps : List (Nat × Nat)} (h : c.writeAll ps = some d)
    (hv : ∀ p ∈ ps, p.2 ≤ 65535) (k : c.InRange) : d.InRange := by
  unfold Settings.writeAll at h
  induction ps generalizing c with
  | nil => simp at h; exact h ▸ k
  | cons p ps ih =>
    simp only [List.foldlM_cons, Option.bind_eq_bind, Option.bind_eq_some_iff] at h
    obtain ⟨e, he, h⟩ := h
    exact ih h (fun q hq => hv q (List.mem_cons_of_mem _ hq)) (Settings.write_inRange he (hv p (by simp)) k)

/-- The values of a WRITE-SETTINGS body are 16-bit values. -/
theorem settingPairs_le (b : List Byte) : ∀ p ∈ settingPairs b, p.2 ≤ 65535 := by
  intro p hp
  simp only [settingPairs, List.mem_map] at hp
  obtain ⟨k, _, rfl⟩ := hp
  have := (wordAt b (3 * k + 1)).isLt
  simp only
  omega

/-! ## Labels -/

theorem labelAt_inRange {most i : Nat} {b : List Byte} {label : Option (List Byte)} (h : labelAt most b i = some label) :
    LabelInRange most label := by
  unfold labelAt at h
  simp only at h
  split at h
  · cases h
    exact fun _ k => by cases k
  · rename_i h0
    split at h
    · cases h
    · split at h
      · rename_i h1 h2
        cases h
        intro t k
        cases k
        refine ⟨by simp; omega, by simp; omega, fun c hc => ?_⟩
        have := (List.all_eq_true.mp h2) c hc
        simpa using this
      · cases h

/-! ## Carrier records -/

theorem carrierAt_inRange {b : List Byte} {i : Nat} {k : Carrier} (h : carrierAt b i = some k) : k.InRange := by
  simp only [carrierAt, Option.bind_eq_bind, Option.bind_eq_some_iff, Option.pure_def, Option.some.injEq] at h
  obtain ⟨_, _, _, _, _, _, _, _, _, _, _, _, rfl⟩ := h
  constructor <;> simp only <;> omega

/-- The check on a carrier table is the law of the device in plain words (R20). -/
theorem carriersLegal_iff (t : Tab 12 Carrier) : carriersLegal t = true ↔ CarrierTableLaw t := by
  unfold carriersLegal CarrierTableLaw
  simp only [Bool.and_eq_true, List.all_eq_true, List.mem_finRange, true_implies, Bool.or_eq_true,
    decide_eq_true_eq, Bool.not_eq_true', Bool.and_eq_false_iff]
  refine and_congr ⟨fun h a b hab ha hb hds => ?_, fun h a b => ?_⟩ Iff.rfl
  · rcases h a b with h | h
    · exact hab h
    · simp [ha, hb, hds.1, hds.2] at h
  · by_cases hab : a = b
    · exact .inl hab
    · right
      by_contra hc
      simp only [not_or, Bool.not_eq_false, decide_eq_true_eq] at hc
      exact h a b hab hc.1.1.1 hc.1.1.2 ⟨hc.1.2, hc.2⟩

/-! ## Plan entries -/

theorem listAt_length {n most : Nat} {b : List Byte} {i : Nat} {xs : List (Fin n)} (h : listAt n most b i = some xs) :
    xs.length ≤ most := by
  unfold listAt at h
  simp only at h
  split at h
  · cases h
  · have hl : ∀ (ys : List (Option (Fin n))) (zs : List (Fin n)), ys.mapM id = some zs → zs.length = ys.length := by
      intro ys
      induction ys with
      | nil => intro zs hz; simp at hz; subst hz; rfl
      | cons y ys ih =>
        intro zs hz
        simp only [List.mapM_cons, Option.bind_eq_bind, Option.bind_eq_some_iff, Option.pure_def,
          Option.some.injEq] at hz
        obtain ⟨_, _, ws, hw, rfl⟩ := hz
        simp [ih ws hw]
    have := hl _ _ h
    simp only [List.length_map, List.length_range] at this
    omega

theorem entryAt_inRange {b : List Byte} {i : Nat} {c : Bool} {x : Option SectorId} {e : RemoteEntry}
    (h : entryAt b i c x = some e) : e.baseGain ≤ 1023 ∧ e.weight ≤ 4095 ∧ e.boost ≤ 255 ∧
      e.alternates.length ≤ 3 ∧ e.partners.length ≤ 2 ∧ e.sector = x := by
  simp only [entryAt, Option.bind_eq_bind, Option.bind_eq_some_iff, Option.pure_def, Option.some.injEq] at h
  obtain ⟨_, _, _, ha, _, hp, _, _, _, _, rfl⟩ := h
  refine ⟨by simp only; omega, by simp only; omega, ?_, listAt_length ha, listAt_length hp, rfl⟩
  have := (byteAt b (i + 14)).isLt
  simp only
  omega

theorem planEntryAt_inRange {b : List Byte} {i : Nat} {r : RemoteId} {e : RemoteEntry}
    (h : planEntryAt b i r = some e) : e.InRange r := by
  simp only [planEntryAt, Option.bind_eq_bind, Option.bind_eq_some_iff] at h
  obtain ⟨_, _, _, _, _, he, h⟩ := h
  split at h
  · rename_i hc
    cases h
    obtain ⟨h1, h2, h3, h4, h5, rfl⟩ := entryAt_inRange he
    simp only [RemoteEntry.consistent, Bool.and_eq_true, decide_eq_true_eq, Bool.not_eq_true', List.all_eq_true,
      List.contains_eq_mem, decide_eq_false_iff_not] at hc
    exact ⟨h1, h2, h3, h4, hc.1.1.1, fun x hx => (hc.2 x hx).symm, h5, hc.1.1.2, hc.1.2⟩
  · cases h

theorem sectorEntryAt_inRange {b : List Byte} {i : Nat} {e : SectorEntry} (h : sectorEntryAt b i = some e) :
    e.InRange := by
  simp only [sectorEntryAt, Option.bind_eq_bind, Option.bind_eq_some_iff, Option.pure_def, Option.some.injEq] at h
  obtain ⟨_, _, _, _, _, _, rfl⟩ := h
  constructor <;> simp only <;> omega

/-! ## The image and the defaults -/

/-- Every entry of a decoded bank comes from the decoding of its own entry. -/
theorem decodeTab_get {n : Nat} {α β : Type} {t : Tab n α} {f : Fin n → α → Option β} {u : Tab n β}
    (h : decodeTab t f = some u) (i : Fin n) : f i (t.get i) = some (u.get i) := by
  unfold decodeTab at h
  split at h
  · rename_i l hl
    split at h
    · rename_i hn
      cases h
      have key : ∀ (xs : List (Fin n)) (ys : List β), (xs.mapM fun i => f i (t.get i)) = some ys →
          ∀ (k : Nat) (hk : k < xs.length) (hk' : k < ys.length), f xs[k] (t.get xs[k]) = some ys[k] := by
        intro xs
        induction xs with
        | nil => intro ys _ k hk; simp at hk
        | cons x xs ih =>
          intro ys hy k hk hk'
          simp only [List.mapM_cons, Option.bind_eq_bind, Option.bind_eq_some_iff, Option.pure_def,
            Option.some.injEq] at hy
          obtain ⟨a, ha, zs, hz, rfl⟩ := hy
          cases k with
          | zero => exact ha
          | succ k => exact ih zs hz k (by simpa using hk) (by simpa using hk')
      have := key _ _ hl i.val (by simp) (by rw [hn]; exact i.isLt)
      simpa [Tab.get] using this
    · cases h
  · cases h

theorem decodePlan_lawful {p : RawPlan} {v : Plan} (h : decodePlan p = some v) : v.Lawful := by
  simp only [decodePlan, Option.bind_eq_bind, Option.bind_eq_some_iff, Option.pure_def, Option.some.injEq] at h
  obtain ⟨d, hd, _, hr, _, hs, rfl⟩ := h
  refine ⟨fun r => planEntryAt_inRange (decodeTab_get hr r), fun x => sectorEntryAt_inRange (decodeTab_get hs x), ?_⟩
  simp only [planHeadAt, Option.bind_eq_bind, Option.bind_eq_some_iff, Option.pure_def, Option.some.injEq] at hd
  obtain ⟨_, _, _, _, _, hl, rfl⟩ := hd
  exact labelAt_inRange hl

/-- An image that is taken is lawful (R165). -/
theorem decodeImage_lawful {m : RawImage} {t : Stored} (h : decodeImage m = some t) : t.Lawful := by
  simp only [decodeImage, Option.bind_eq_bind, Option.bind_eq_some_iff] at h
  obtain ⟨c, hc, ks, hk, ps, hp, _, _, _, hl, h⟩ := h
  split at h
  · rename_i hlegal
    cases h
    refine ⟨Settings.writeAll_inRange hc (fun q hq => ?_) Settings.default_inRange, (carriersLegal_iff _).mp hlegal,
      fun i => carrierAt_inRange (decodeTab_get hk i), fun p => decodePlan_lawful (decodeTab_get hp p),
      labelAt_inRange hl⟩
    simp only [List.mem_map] at hq
    obtain ⟨i, _, rfl⟩ := hq
    have := (m.settings.get i).isLt
    simp only
    omega
  · cases h

theorem RemoteEntry.default_inRange (r : RemoteId) : RemoteEntry.default.InRange r := by
  simp [RemoteEntry.InRange, RemoteEntry.default]

theorem SectorEntry.default_inRange : SectorEntry.default.InRange := by
  simp [SectorEntry.InRange, SectorEntry.default]

theorem carriers_default_lawful : CarrierTableLaw (Tab.ofFn Carrier.default) :=
  (carriersLegal_iff _).mp (by decide)

theorem Plan.default_lawful : Plan.default.Lawful :=
  ⟨fun r => by simp [Plan.default, RemoteEntry.default_inRange],
    fun x => by simp [Plan.default, SectorEntry.default_inRange], fun _ h => by cases h⟩

/-- The defaults are lawful (R165). -/
theorem Stored.default_lawful : Stored.default.Lawful := by
  refine ⟨Settings.default_inRange, carriers_default_lawful, fun c => ?_, fun p => ?_, fun _ h => by cases h⟩
  · simp [Stored.default, Carrier.InRange, Carrier.default]
  · simp [Stored.default, Plan.default_lawful]

/-- What is stored now reads settings, carriers, plans, start plan and label alone. -/
theorem State.stored_congr {s t : State} (a : t.settings = s.settings) (b : t.dist.carriers = s.dist.carriers)
    (c : t.store.plans = s.store.plans) (d : t.store.start = s.store.start) (e : t.loader = s.loader) :
    t.stored = s.stored := by
  simp [State.stored, a, b, c, d, e]

/-- The law reads settings, carriers, plans and label alone. -/
theorem Stored.Lawful.congr {m n : Stored} (h : m.Lawful) (a : n.settings = m.settings)
    (b : n.carriers = m.carriers) (c : n.plans = m.plans) (d : n.label = m.label) : n.Lawful := by
  obtain ⟨h1, h2, h3, h4, h5⟩ := h
  exact ⟨a ▸ h1, b ▸ h2, b ▸ h3, c ▸ h4, d ▸ h5⟩

/-- A change that leaves settings, carriers, plans, label, snapshot and memory. -/
theorem State.ConfigLaw.congr {s t : State} (k : s.ConfigLaw) (a : t.settings = s.settings)
    (b : t.dist.carriers = s.dist.carriers) (c : t.store.plans = s.store.plans)
    (d : t.loader.snapshot = s.loader.snapshot) (e : t.loader.memory = s.loader.memory)
    (f : t.loader.label = s.loader.label) : t.ConfigLaw :=
  ⟨k.current.congr a b c f, d ▸ k.snapshot, e ▸ k.memory⟩

theorem Steady.config {s t : State} (h : Steady s t) (k : s.ConfigLaw) : t.ConfigLaw := by
  obtain ⟨k1, k2, k3⟩ := k
  refine ⟨?_, ?_, ?_⟩
  · rw [State.stored_congr h.settings h.carriers h.plans h.start h.loader]; exact k1
  · rw [h.loader]; exact k2
  · rw [h.loader]; exact k3

end Sys2Proof.Machine
end

