-- ==== Sys2Proof/Laws/Sound.lean ====
section
/-! SUPPORT. The laws of the device through start-up, a whole boundary and the requests. -/

namespace Sys2Proof.Machine

/-- The laws of the device at t, given those at s; the commands waiting stay. -/
structure Sound (s t : State) : Prop where
  pending : t.pending = s.pending
  config : s.ConfigLaw → t.ConfigLaw
  events : s.events.lawful → t.events.lawful
  engine : s.engine.lawful → t.engine.lawful
  links : s.links.bounded → t.links.bounded
  service : s.serviceLaw → t.serviceLaw

theorem Steady.sound {s t : State} (h : Steady s t) : Sound s t :=
  ⟨h.pending, h.config, h.events, h.engine, h.links, h.service⟩

namespace Sound

theorem refl (s : State) : Sound s s := (Steady.refl s).sound

theorem trans {s t u : State} (h : Sound s t) (k : Sound t u) : Sound s u :=
  ⟨k.pending.trans h.pending, fun e => k.config (h.config e), fun e => k.events (h.events e),
    fun e => k.engine (h.engine e), fun e => k.links (h.links e), fun e => k.service (h.service e)⟩

end Sound

/-! ## Start-up -/

theorem Framer.reset_bounded : Framer.reset.bounded := ⟨Nat.zero_le _, Nat.zero_le _⟩

/-- Every law of the device holds after power-on, whatever held before (R165). -/
theorem State.powerOn_sound (s : State) : Sound s s.powerOn := by
  refine ⟨rfl, fun h => ⟨Stored.default_lawful, fun _ k => (by cases k), h.memory⟩, fun _ => EventQueue.reset_lawful,
    fun _ => Engine.idle_lawful, fun _ => ?_, fun _ => ?_⟩
  · refine ⟨fun n => ?_, fun r => ?_, Framer.reset_bounded⟩
    · show ((Tab.const 4 Framer.reset).get n).bounded
      rw [Tab.get_const]; exact Framer.reset_bounded
    · show ((Tab.const 16 Framer.reset).get r).bounded
      rw [Tab.get_const]; exact Framer.reset_bounded
  · exact ⟨Nat.zero_le _, Nat.zero_le _⟩

/-- What is put in force at the end of the read has lawful contents (R20, R165). -/
theorem State.install_sound (s : State) (t : Stored) (i : ImageState) (h : s.ConfigLaw → t.Lawful) :
    Sound s (s.install t i) := by
  unfold State.install
  refine Sound.trans ?_ (State.reviseReference_quiet _).steady.sound
  exact ⟨rfl, fun k => ⟨h k, k.snapshot, k.memory⟩, id, id, id, id⟩

theorem State.readEnds_sound (s : State) (read : ImageRead) : Sound s (s.readEnds read) := by
  unfold State.readEnds
  split
  · exact .refl s
  · split
    · exact s.install_sound _ _ fun _ => Stored.default_lawful
    · rename_i t ht
      refine s.install_sound _ _ fun k => ?_
      unfold State.judgeImage at ht
      split at ht
      · cases ht
      · cases ht
      · split at ht
        · cases ht
        · cases ht
        · rename_i m hm
          cases ht
          exact k.memory _ hm
      · split at ht
        · cases ht
        · split at ht
          · rename_i hd
            cases ht
            exact decodeImage_lawful hd
          · cases ht

/-! ## A whole boundary -/

theorem State.tickClock_sound (s : State) : Sound s s.tickClock :=
  ⟨rfl, fun k => k.congr rfl rfl rfl rfl rfl rfl, id, id, id, id⟩

theorem State.emitBoundary_sound (s : State) : Sound s s.emitBoundary := by
  unfold State.emitBoundary
  simp only
  split
  · exact (s.settle_steady.sound.trans (State.tickClock_sound _)).trans (State.afterTick_quiet _ _).steady.sound
  · exact .refl s

theorem State.boundaryPart_sound (s : State) (p : BoundaryPart) : Sound s (s.boundaryPart p) := by
  cases p with
  | whole => exact s.emitBoundary_sound.trans (State.actBoundary_quiet _).steady.sound
  | emit => exact s.emitBoundary_sound
  | act => exact s.actBoundary_quiet.steady.sound
  | releaseFirst => exact s.actReleaseFirst_quiet.steady.sound

/-! ## SAVE -/

theorem State.answerSave_quiet (s : State) (st : Status) : Quiet s (s.answerSave st) := by
  unfold State.answerSave
  split
  · exact s.fillReserved_quiet _ _
  · exact .refl s

theorem State.saveCompletes_sound (s : State) : Sound s s.saveCompletes := by
  unfold State.saveCompletes
  split
  · rename_i m hm
    refine Sound.trans ?_ ((State.answerSave_quiet _ _).trans (State.post_quiet _ _ _ _)).steady.sound
    refine ⟨rfl, fun k => ⟨k.current, fun _ h => (by cases h), fun _ h => ?_⟩, id, id, id, id⟩
    cases h
    exact k.snapshot _ hm
  · exact .refl s

theorem State.saveFails_sound (s : State) : Sound s s.saveFails := by
  unfold State.saveFails
  split
  · refine Sound.trans ?_ ((State.answerSave_quiet _ _).trans (State.post_quiet _ _ _ _)).steady.sound
    exact ⟨rfl, fun k => ⟨k.current, fun _ h => (by cases h), fun _ h => (by cases h)⟩, id, id, id, id⟩
  · exact .refl s

/-! ## Requests -/

/-- A request's own effect: the laws kept, and no place of either queue taken. -/
structure Mild (s t : State) : Prop where
  pending : t.pending = s.pending
  fc : t.clock.fc = s.clock.fc
  started : t.clock.started = s.clock.started
  config : s.ConfigLaw → t.ConfigLaw
  events : s.events.lawful → t.events.lawful
  engine : s.engine.lawful → t.engine.lawful
  links : s.links.bounded → t.links.bounded
  places : t.svc.places ≤ s.svc.places
  input : t.svc.input.length ≤ s.svc.input.length

theorem Quiet.mild {s t : State} (h : Quiet s t) : Mild s t :=
  ⟨h.pending, h.fc, h.started, h.steady.config, h.events, h.engine, h.links, h.places, h.input⟩

theorem Mild.trans {s t u : State} (h : Mild s t) (k : Mild t u) : Mild s u :=
  ⟨k.pending.trans h.pending, k.fc.trans h.fc, k.started.trans h.started, fun e => k.config (h.config e), fun e => k.events (h.events e), fun e => k.engine (h.engine e),
    fun e => k.links (h.links e), le_trans k.places h.places, le_trans k.input h.input⟩

/-- Whatever state a verdict answers is a mild change of s. -/
def Verdict.Mild (s : State) (v : Verdict) : Prop := ∀ t b, v = .ok (t, b) → Machine.Mild s t

namespace Verdict.Mild

variable {s : State}

theorem error (st : Status) : Verdict.Mild s (.error st) := fun _ _ h => by cases h

theorem of_ok {t : State} {b : List Byte} (h : Machine.Mild s t) : Verdict.Mild s (.ok (t, b)) := fun _ _ k => by
  cases k; exact h

theorem need {α : Type} {st : Status} {x : Option α} {f : α → Verdict} (h : ∀ a, x = some a → Verdict.Mild s (f a)) :
    Verdict.Mild s (Machine.need st x f) := by
  unfold Machine.need
  split
  · exact h _ rfl
  · exact error st

theorem refuseIf {c : Bool} {st : Status} {v : Verdict} (h : c = false → Verdict.Mild s v) :
    Verdict.Mild s (Machine.refuseIf c st v) := by
  unfold Machine.refuseIf
  split
  · exact error st
  · rename_i hc; exact h (by simpa using hc)

theorem ite {c : Prop} [Decidable c] {v w : Verdict} (h : Verdict.Mild s v) (k : Verdict.Mild s w) :
    Verdict.Mild s (if c then v else w) := by
  split
  · exact h
  · exact k

/-- A request that only reports. -/
theorem report (b : List Byte) : Verdict.Mild s (.ok (s, b)) := of_ok (Quiet.refl s).mild

end Verdict.Mild

theorem State.applySettings_mild (s : State) (items : List Nat) (c : Settings)
    (hc : s.settings.InRange → c.InRange) : Mild s (s.applySettings items c) := by
  unfold State.applySettings
  simp only
  have h : Mild s { s with settings := c } :=
    ⟨rfl, rfl, rfl, fun k => ⟨⟨hc k.current.settings, k.current.carriers, k.current.records, k.current.plans, k.current.label⟩,
      k.snapshot, k.memory⟩, id, id, id, le_refl _, le_refl _⟩
  have h2 : Mild s (if items.contains 9 then State.reviseReference { s with settings := c } else { s with settings := c }) := by
    split
    · exact h.trans (State.reviseReference_quiet _).mild
    · exact h
  split
  · exact h2
  · exact h2.trans (State.dropOffer_quiet _).mild

theorem State.askWriteSettings_mild (s : State) (b : List Byte) : Verdict.Mild s (s.askWriteSettings b) :=
  .refuseIf fun _ => .refuseIf fun _ => .need fun _ h =>
    .of_ok (s.applySettings_mild _ _ (Settings.writeAll_inRange h (settingPairs_le b)))

theorem State.askReadCarrier_mild (s : State) (b : List Byte) : Verdict.Mild s (s.askReadCarrier b) :=
  .need fun _ _ => .report _

/-- A carrier write keeps the law of the carrier table, because a record that would break it is refused
(R20). -/
theorem State.askWriteCarrier_mild (s : State) (b : List Byte) : Verdict.Mild s (s.askWriteCarrier b) :=
  .need fun c _ => .need fun v hv => .refuseIf fun _ => .refuseIf fun h =>
    .of_ok ⟨rfl, rfl, rfl, fun k => ⟨⟨k.current.settings, (carriersLegal_iff (s.dist.carriers.set c v)).mp (by simpa using h), fun i => by
      have := k.current.records i
      show ((s.dist.carriers.set c v).get i).InRange
      rw [Tab.get_set]
      split
      · exact carrierAt_inRange hv
      · exact this, k.current.plans, k.current.label⟩, k.snapshot, k.memory⟩, id, id, id, le_refl _, le_refl _⟩

theorem State.askReadPlan_mild (s : State) (b : List Byte) : Verdict.Mild s (s.askReadPlan b) :=
  .need fun _ _ => .ite (.report _) (.ite (.need fun _ _ => .report _) (.need fun _ _ => .report _))

theorem State.modPlan_mild (s : State) (p : PlanId) (f : Plan → Plan)
    (h : (s.store.plans.get p).Lawful → (f (s.store.plans.get p)).Lawful) : Mild s (s.modPlan p f) := by
  refine ⟨rfl, rfl, rfl, fun k => ⟨⟨k.current.settings, k.current.carriers, k.current.records, fun q => ?_,
    k.current.label⟩, k.snapshot, k.memory⟩, id, id, id, le_refl _, le_refl _⟩
  show ((s.store.plans.modify p f).get q).Lawful
  rw [Tab.get_modify]
  split
  · subst_vars; exact h (k.current.plans _)
  · exact k.current.plans q

theorem State.setStart_mild (s : State) (x : Option PlanId) : Mild s { s with store := { s.store with start := x } } :=
  ⟨rfl, rfl, rfl, fun k => ⟨⟨k.current.settings, k.current.carriers, k.current.records, k.current.plans, k.current.label⟩,
    k.snapshot, k.memory⟩, id, id, id, le_refl _, le_refl _⟩

theorem planHeadAt_inRange {b : List Byte} {i : Nat} {h : PlanHead} (k : planHeadAt b i = some h) :
    LabelInRange 16 h.label := by
  simp only [planHeadAt, Option.bind_eq_bind, Option.bind_eq_some_iff, Option.pure_def, Option.some.injEq] at k
  obtain ⟨_, _, _, _, _, hl, rfl⟩ := k
  exact labelAt_inRange hl

theorem State.writeHead_mild (s : State) (p : PlanId) (h : PlanHead) (k : LabelInRange 16 h.label) :
    Mild s (s.writeHead p h) :=
  (s.modPlan_mild p _ fun l => ⟨l.remotes, l.sectors, k⟩).trans (State.setStart_mild _ _)

theorem State.askWritePlan_mild (s : State) (b : List Byte) : Verdict.Mild s (s.askWritePlan b) := by
  refine .need fun p _ => .ite (.need fun _ hh => .of_ok (s.writeHead_mild _ _ (planHeadAt_inRange hh)))
    (.ite (.need fun r _ => .need fun e he => .of_ok (s.modPlan_mild p _ fun h => ⟨fun x => ?_, h.sectors, h.label⟩))
      (.need fun r _ => .need fun e he => .of_ok (s.modPlan_mild p _ fun h => ⟨h.remotes, fun x => ?_, h.label⟩)))
  · simp only [Tab.get_set]
    split
    · subst_vars; exact planEntryAt_inRange he
    · exact h.remotes x
  · simp only [Tab.get_set]
    split
    · exact sectorEntryAt_inRange he
    · exact h.sectors x

theorem State.askReadLive_mild (s : State) (b : List Byte) : Verdict.Mild s (s.askReadLive b) :=
  .ite (.need fun _ _ => .report _) (.need fun _ _ => .report _)

theorem State.setRemoteEntry_quiet (s : State) (r : RemoteId) (e : RemoteEntry) : Quiet s (s.setRemoteEntry r e) := by
  unfold State.setRemoteEntry
  simp only
  refine Quiet.ite (.refl s) ?_
  have h := ((s.modLive_quiet r fun _ => e).trans (State.diverge_quiet _)).trans (State.deriveMode_quiet _ r)
  have key : ∀ p : State × List RemoteId, Quiet s p.1 → Quiet s
      (if e.baseGain = (s.live r).baseGain then p.1.recomputeAll p.2 else p.1.recomputeAll (withFirst r p.2)) :=
    fun p hp => Quiet.ite (hp.trans (State.recomputeAll_quiet _ _)) (hp.trans (State.recomputeAll_quiet _ _))
  apply key
  split
  · exact h
  · exact h.trans (State.reevalBoosts_quiet _ _)

theorem State.setSectorEntry_quiet (s : State) (x : SectorId) (e : SectorEntry) : Quiet s (s.setSectorEntry x e) := by
  unfold State.setSectorEntry
  simp only
  refine Quiet.ite (.refl s) ?_
  have h : Quiet s (State.diverge { s with map := { s.map with sectors := s.map.sectors.set x e } }) :=
    .of_parts rfl rfl rfl rfl rfl rfl rfl rfl rfl rfl
  exact Quiet.ite h (h.trans (State.evalDegraded_quiet _ _ _))

theorem State.askSetRemote_mild (s : State) (b : List Byte) : Verdict.Mild s (s.askSetRemote b) :=
  .ite (.need fun _ _ => .refuseIf fun _ => .refuseIf fun _ => .need fun _ _ =>
      .of_ok (s.setRemoteEntry_quiet _ _).mild)
    (.need fun _ _ => .refuseIf fun _ => .need fun _ _ => .of_ok (s.setSectorEntry_quiet _ _).mild)

theorem State.askReadLoad_mild (s : State) (b : List Byte) : Verdict.Mild s (s.askReadLoad b) :=
  .ite (.report _) (.need fun _ _ => .report _)

theorem State.askMove_mild (s : State) (b : List Byte) : Verdict.Mild s (s.askMove b) :=
  .need fun _ _ => .refuseIf fun _ => .refuseIf fun _ => .need fun _ _ => .refuseIf fun _ => .refuseIf fun _ =>
    .of_ok (s.startSingle_quiet _ _ _).mild

theorem State.askAbort_mild (s : State) : Verdict.Mild s s.askAbort := by
  unfold State.askAbort
  split
  · exact .of_ok s.startRecovery_quiet.mild
  all_goals exact .error _

theorem State.askCutOver_mild (s : State) (b : List Byte) : Verdict.Mild s (s.askCutOver b) :=
  .need fun _ _ => .refuseIf fun _ => .refuseIf fun _ => .of_ok (s.startCutOver_quiet _).mild

theorem State.replaceSchedule_quiet (s : State) (c : Option Schedule) : Quiet s (s.replaceSchedule c) :=
  ((s.setSchedule_quiet c).trans (State.unDue_quiet _ _)).trans (State.unDue_quiet _ _)

theorem State.askSchedule_mild (s : State) (b : List Byte) : Verdict.Mild s (s.askSchedule b) :=
  .need fun _ _ => .refuseIf fun _ => .of_ok (s.replaceSchedule_quiet _).mild

theorem State.askCue_mild (s : State) : Verdict.Mild s s.askCue := by
  unfold State.askCue
  refine .need fun c _ => .of_ok ?_
  have h := (s.setSchedule_quiet (some { c with dueFc := s.now })).trans (State.unDue_quiet _ .schedule)
  exact (Quiet.ite h (h.trans (State.testSchedule_quiet _ _))).mild

theorem State.askCancel_mild (s : State) : Verdict.Mild s s.askCancel :=
  .need fun _ _ => .of_ok (s.replaceSchedule_quiet _).mild

theorem State.askIsolate_mild (s : State) (b : List Byte) : Verdict.Mild s (s.askIsolate b) :=
  .need fun _ _ => .refuseIf fun _ => .of_ok (Quiet.ite (.refl s) (s.isolate_quiet _)).mild

theorem State.askRestore_mild (s : State) (b : List Byte) : Verdict.Mild s (s.askRestore b) :=
  .need fun _ _ => .refuseIf fun _ => .of_ok (s.restore_quiet _).mild

theorem State.askReadEvents_mild (s : State) (b : List Byte) : Verdict.Mild s (s.askReadEvents b) := by
  unfold State.askReadEvents
  simp only
  refine .of_ok (Quiet.of_events fun h => ?_).mild
  exact s.events.take_lawful _ h

theorem State.clearLinks_quiet (s : State) : Quiet s s.clearLinks := by
  refine ⟨rfl, rfl, rfl, rfl, rfl, rfl, rfl, rfl, id, id, fun h => ⟨fun n => ?_, fun r => ?_, h.2.2⟩, le_refl _,
    le_refl _⟩
  · simp only [State.clearLinks, Tab.get_map]; exact h.1 n
  · simp only [State.clearLinks, Tab.get_map]; exact h.2.1 r

theorem State.clearGroups_quiet (s : State) (m : Byte) : Quiet s (s.clearGroups m) := by
  unfold State.clearGroups
  simp only
  have h1 : Quiet s (if m.getLsbD 0 then s.clearLinks else s) := Quiet.ite s.clearLinks_quiet (.refl s)
  have up : ∀ t : State, Quiet t t.clearUplink := fun _ => .of_parts rfl rfl rfl rfl rfl rfl rfl rfl rfl rfl
  have ca : ∀ t : State, Quiet t t.clearCarriers := fun _ => .of_parts rfl rfl rfl rfl rfl rfl rfl rfl rfl rfl
  have se : ∀ t : State, Quiet t t.clearService := fun _ => .of_svc (le_refl _) (le_refl _)
  exact ((h1.trans (Quiet.ite (up _) (.refl _))).trans (Quiet.ite (ca _) (.refl _))).trans
    (Quiet.ite (se _) (.refl _))

theorem State.askClearCounters_mild (s : State) (b : List Byte) : Verdict.Mild s (s.askClearCounters b) :=
  .refuseIf fun _ => .of_ok (s.clearGroups_quiet _).mild

theorem State.setTap_quiet (s : State) (t : Tap) : Quiet s (s.setTap t) := .of_svc (le_refl _) (le_refl _)

theorem State.askTap_mild (s : State) (b : List Byte) : Verdict.Mild s (s.askTap b) :=
  .ite (.of_ok (s.setTap_quiet _).mild) (.ite (.need fun _ _ => .of_ok (s.setTap_quiet _).mild)
    (.ite (.need fun _ _ => .need fun _ _ => .of_ok (s.setTap_quiet _).mild)
      (.need fun _ _ => .need fun _ _ => .of_ok (s.setTap_quiet _).mild)))

/-! ## The taking of a request -/

/-- A request is taken only while a response place is free (R152). -/
theorem State.nextRequest_room {s : State} {q : Request} (h : s.nextRequest = some q) : s.svc.hasRoom = true := by
  unfold State.nextRequest at h
  split at h
  · rename_i hc
    simp only [Bool.and_eq_true] at hc
    exact hc.2
  · cases h

/-- The place is still free once the request has left the input queue. -/
theorem State.dropRequest_room {s : State} {q : Request} (h : s.nextRequest = some q) :
    s.dropRequest.svc.hasRoom = true := by
  have := State.nextRequest_room h
  exact this

theorem State.dropRequest_quiet (s : State) : Quiet s s.dropRequest :=
  .of_svc (le_refl _) (by simp)

theorem State.fill_sound {s t : State} (p : Response) (h : s.svc.hasRoom = true) (k : Mild s t) :
    Sound s (t.fill p) := by
  refine ⟨k.pending, fun e => (k.config e).congr rfl rfl rfl rfl rfl rfl, k.events, k.engine, k.links,
    fun e => ⟨?_, le_trans k.input e.2⟩⟩
  have := (Service.hasRoom_iff _).mp h
  have := k.places
  simp only [State.fill, Service.places, List.length_append, List.length_singleton] at *
  omega

theorem State.conclude_sound (s : State) (q : Request) (v : Verdict) (h : s.svc.hasRoom = true)
    (k : Verdict.Mild s v) : Sound s (s.conclude q v) := by
  unfold State.conclude
  split
  · exact State.fill_sound _ h (k _ _ rfl)
  · exact State.fill_sound _ h (Quiet.refl s).mild

theorem State.judge_mild (s : State) (q : Request) (f : State → Request → Verdict) (h : Verdict.Mild s (f s q)) :
    Verdict.Mild s (s.judge q f) := by
  unfold State.judge
  split
  · exact .error _
  · exact h

theorem State.takeRequest_sound (s : State) (kind : Byte) (f : State → Request → Verdict)
    (h : ∀ s q, Verdict.Mild s (f s q)) : Sound s (s.takeRequest kind f) := by
  unfold State.takeRequest
  split
  · rename_i q hq
    split
    · exact s.dropRequest_quiet.steady.sound.trans
        (State.conclude_sound _ q _ (State.dropRequest_room hq) (State.judge_mild _ q f (h _ q)))
    · exact .refl s
  · exact .refl s

/-- A request that is taken leaves the frame count as it is. -/
theorem State.takeRequest_clock (s : State) (kind : Byte) (f : State → Request → Verdict)
    (h : ∀ s q, Verdict.Mild s (f s q)) :
    (s.takeRequest kind f).clock.fc = s.clock.fc ∧ (s.takeRequest kind f).clock.started = s.clock.started := by
  unfold State.takeRequest State.conclude
  split
  · split
    · split
      · rename_i q _ _ _ t b hv
        have := (State.judge_mild _ q f (h s.dropRequest q)) t b hv
        exact ⟨this.fc, this.started⟩
      · exact ⟨rfl, rfl⟩
    · exact ⟨rfl, rfl⟩
  · exact ⟨rfl, rfl⟩

theorem State.beginSave_sound (s : State) (q : Request) (label : Option (List Byte)) (h : s.svc.hasRoom = true)
    (hl : LabelInRange 32 label) : Sound s (s.beginSave q label) := by
  have := (s.reserve_steady (.save q.link q.tag) h).sound
  have key : s.ConfigLaw → LabelInRange 32 (if label.isSome then label else s.loader.label) := fun k => by
    split
    · exact hl
    · exact k.current.label
  have cur : ∀ k : s.ConfigLaw, (Stored.mk s.settings s.dist.carriers s.store.plans s.store.start
      (if label.isSome then label else s.loader.label)).Lawful := fun k =>
    ⟨k.current.settings, k.current.carriers, k.current.records, k.current.plans, key k⟩
  refine ⟨this.pending, fun k => ⟨cur k, fun m hm => ?_, fun m hm => (by cases hm)⟩, this.events, this.engine, this.links,
    this.service⟩
  cases hm
  exact cur k

theorem State.takeSave_sound (s : State) : Sound s s.takeSave := by
  unfold State.takeSave
  split
  · rename_i q hq
    have hr : s.dropRequest.svc.hasRoom = true := State.dropRequest_room hq
    split
    · refine s.dropRequest_quiet.steady.sound.trans ?_
      unfold State.executeSave
      split
      · exact (State.fill_steady _ _ hr).sound
      · split
        · exact (State.fill_steady _ _ hr).sound
        · rename_i label hlab
          split
          · exact (State.fill_steady _ _ hr).sound
          · exact State.beginSave_sound _ q _ hr (labelAt_inRange hlab)
    · exact .refl s
  · exact .refl s

theorem State.stopTaking_quiet (s : State) : Quiet s s.stopTaking := .of_svc (le_refl _) (le_refl _)

theorem State.takeRestart_sound (s : State) : Sound s s.takeRestart := by
  unfold State.takeRestart
  split
  · rename_i q hq
    have hr : s.dropRequest.svc.hasRoom = true := State.dropRequest_room hq
    split
    · refine s.dropRequest_quiet.steady.sound.trans ?_
      unfold State.executeRestart
      split
      · exact (State.fill_steady _ _ hr).sound
      · exact State.fill_sound _ hr (State.stopTaking_quiet _).mild
    · exact .refl s
  · exact .refl s

theorem State.takeUnknown_sound (s : State) : Sound s s.takeUnknown := by
  unfold State.takeUnknown
  split
  · rename_i q hq
    split
    · exact s.dropRequest_quiet.steady.sound.trans (State.fill_steady _ _ (State.dropRequest_room hq)).sound
    · exact .refl s
  · exact .refl s

end Sys2Proof.Machine
end

