-- ==== Sys2Proof/Laws/Settles.lean ====
section
/-! SUPPORT. What the settling operations can do, said once (`Settles`, operation by operation). -/

namespace Sys2Proof.Machine

theorem SupRecord.Follows.refl (v : SupRecord) : v.Follows v := ⟨.inl rfl, rfl⟩

theorem SupRecord.Follows.trans {u v w : SupRecord} (h : u.Follows v) (k : v.Follows w) : u.Follows w := by
  obtain ⟨h1, h2⟩ := h
  obtain ⟨k1, k2⟩ := k
  refine ⟨?_, ?_⟩
  · rcases k1 with k1 | ⟨k1, k3⟩
    · rw [k1]; exact h1
    · rcases h1 with h1 | ⟨h1, h3⟩
      · exact .inr ⟨h1 ▸ k1, k3⟩
      · rw [k1] at h3; simp [Health.serves] at h3
  · rw [h2] at k2
    exact k2

theorem EventQueue.Posted.refl (ks : List EventKind) (q : EventQueue) : EventQueue.Posted ks q q :=
  ⟨[], fun _ h => (by cases h), rfl⟩

theorem EventQueue.Posted.trans {ks : List EventKind} {q p o : EventQueue} (h : EventQueue.Posted ks q p)
    (k : EventQueue.Posted ks p o) : EventQueue.Posted ks q o := by
  obtain ⟨xs, hx, rfl⟩ := h
  obtain ⟨ys, hy, rfl⟩ := k
  refine ⟨xs ++ ys, fun e he => ?_, by rw [List.foldl_append]⟩
  rcases List.mem_append.mp he with he | he
  · exact hx e he
  · exact hy e he

theorem EventQueue.Posted.one {ks : List EventKind} (q : EventQueue) {k : EventKind} (h : k ∈ ks) (x : Subject)
    (t : Option (Fin 16)) (d : BitVec 16) (f : FC) : EventQueue.Posted ks q (q.post k x t d f) :=
  ⟨[newEvent k x t d f], fun e he => by rw [List.mem_singleton.mp he]; exact h, rfl⟩

/-! ## What has been reported -/

theorem EventQueue.Reports.before {k : EventKind} {x : Subject} {d : BitVec 16} {fc : FC} {q p o : EventQueue}
    (h : EventQueue.Posted settlingKinds q p) (k' : p.Reports k x d fc o) : q.Reports k x d fc o := by
  obtain ⟨u, h1, h2⟩ := k'
  exact ⟨u, h.trans h1, h2⟩

theorem EventQueue.Reports.after {k : EventKind} {x : Subject} {d : BitVec 16} {fc : FC} {q p o : EventQueue}
    (h : q.Reports k x d fc p) (k' : EventQueue.Posted settlingKinds p o) : q.Reports k x d fc o := by
  obtain ⟨u, h1, h2⟩ := h
  exact ⟨u, h1, h2.trans k'⟩

theorem EventQueue.Reports.one (q : EventQueue) (k : EventKind) (x : Subject) (d : BitVec 16) (fc : FC) :
    q.Reports k x d fc (q.post k x none d fc) := ⟨q, .refl _ _, .refl _ _⟩

/-- Where no flag has changed there is nothing to report. -/
theorem State.FlagsReported.same {s t : State} {low : SectorId → Nat} (h : t.sup.degraded = s.sup.degraded) :
    s.FlagsReported t low := fun x hx => absurd (by rw [h]) hx

/-- Where no health has changed nothing has joined. -/
theorem State.JoinsReported.same {s t : State} (h : ∀ x, t.health x = s.health x) : s.JoinsReported t :=
  fun x hj hs => by rw [h, hj] at hs; cases hs

/-- The serving count of a sector only grows where memberships stay and every record follows. -/
theorem State.servingNow_mono {s t : State} (hm : ∀ r, t.sectorOf r = s.sectorOf r)
    (h : ∀ r, (s.supRec r).Follows (t.supRec r)) (x : SectorId) : s.servingNow x ≤ t.servingNow x := by
  unfold State.servingNow State.members
  simp only [hm]
  refine (List.monotone_filter_right _ fun r hr => ?_).length_le
  rcases (h r).health with k | k
  · simp only [State.health] at hr ⊢; rw [k]; exact hr
  · exact k.2

/-- Flags reported on the way and after it have been reported. -/
theorem State.FlagsReported.trans {s t u : State} {low : SectorId → Nat} (h : s.FlagsReported t low)
    (k : t.FlagsReported u t.servingNow) (h0 : ∀ x, low x ≤ t.servingNow x)
    (h1 : ∀ x, t.servingNow x ≤ u.servingNow x) (h2 : EventQueue.Posted settlingKinds s.events t.events)
    (h3 : EventQueue.Posted settlingKinds t.events u.events) (h4 : t.now = s.now)
    (h5 : u.map.sectors = t.map.sectors) : s.FlagsReported u low := by
  intro x hx
  by_cases hk : u.sup.degraded.get x = t.sup.degraded.get x
  · rw [hk] at hx ⊢
    obtain ⟨n, a, b, c, d⟩ := h x hx
    exact ⟨n, a, le_trans b (h1 x), by rw [h5]; exact c, d.after h3⟩
  · obtain ⟨n, a, b, c, d⟩ := k x hk
    rw [h4] at d
    exact ⟨n, le_trans (h0 x) a, b, c, d.before h2⟩

theorem State.JoinsReported.trans {s t u : State} (h : s.JoinsReported t) (k : t.JoinsReported u)
    (hs : ∀ x, s.health x = .joining → t.health x = .joining ∨ (t.health x).serves = true)
    (ht : ∀ x, (t.health x).serves = true → u.health x = t.health x)
    (h2 : EventQueue.Posted settlingKinds s.events t.events)
    (h3 : EventQueue.Posted settlingKinds t.events u.events) (h4 : t.now = s.now) : s.JoinsReported u := by
  intro x hj hu
  rcases hs x hj with hx | hx
  · have := k x hx hu
    rw [h4] at this
    exact this.before h2
  · rw [ht x hx]
    exact (h x hj hx).after h3

namespace Settles

theorem refl (s : State) : Settles s s :=
  ⟨.refl _ _, rfl, rfl, rfl, rfl, rfl, rfl, rfl, rfl, rfl, rfl, fun _ => rfl, rfl, rfl, fun _ => .refl _, rfl, rfl, rfl,
    .same rfl, .same fun _ => rfl⟩

theorem now {s t : State} (h : Settles s t) : t.now = s.now := by
  simp only [State.now, h.clock]

theorem serving {s t : State} (h : Settles s t) (x : SectorId) : s.servingNow x ≤ t.servingNow x :=
  State.servingNow_mono (fun r => by simp only [State.sectorOf, State.live]; rw [h.map]) h.sup x

theorem serves {s t : State} (h : Settles s t) (x : RemoteId) (k : (s.health x).serves = true) :
    t.health x = s.health x := by
  rcases (h.sup x).health with q | q
  · exact q
  · simp only [State.health] at k; rw [q.1] at k; cases k

theorem joins_or {s t : State} (h : Settles s t) (x : RemoteId) (k : s.health x = .joining) :
    t.health x = .joining ∨ (t.health x).serves = true := by
  rcases (h.sup x).health with q | q
  · exact .inl (q.trans k)
  · exact .inr q.2

theorem trans {s t u : State} (h : Settles s t) (k : Settles t u) : Settles s u where
  events := h.events.trans k.events
  pending := k.pending.trans h.pending
  loader := k.loader.trans h.loader
  clock := k.clock.trans h.clock
  settings := k.settings.trans h.settings
  links := k.links.trans h.links
  comb := k.comb.trans h.comb
  meter := k.meter.trans h.meter
  store := k.store.trans h.store
  svc := k.svc.trans h.svc
  dist := by rw [k.dist, h.dist]
  present := fun r => (k.present r).trans (h.present r)
  map := by rw [k.map, h.map]
  spreader := by rw [k.spreader, h.spreader]
  sup := fun r => (h.sup r).trans (k.sup r)
  force := k.force.trans h.force
  count := k.count.trans h.count
  acting := k.acting.trans h.acting
  flags := h.flags.trans k.flags h.serving k.serving h.events k.events h.now (by rw [k.map])
  joins := h.joins.trans k.joins h.joins_or k.serves h.events k.events h.now

theorem foldl {α : Type} {f : State → α → State} (h : ∀ s a, Settles s (f s a)) (xs : List α) (s : State) :
    Settles s (xs.foldl f s) := by
  induction xs generalizing s with
  | nil => exact refl s
  | cons a xs ih => exact (h s a).trans (ih (f s a))

theorem ite {s t u : State} {c : Prop} [Decidable c] (h : Settles s t) (k : Settles s u) :
    Settles s (if c then t else u) := by
  split
  · exact h
  · exact k

end Settles

/-! ## The plain updates -/

/-- A change of one supervision record's held flag and boost. -/
theorem State.modSup_settles (s : State) (r : RemoteId) (f : SupRecord → SupRecord)
    (h : f (s.supRec r) = { s.supRec r with
      held := (f (s.supRec r)).held, sources := (f (s.supRec r)).sources, boost := (f (s.supRec r)).boost }) :
    Settles s (s.modSup r f) := by
  have hh : (f (s.supRec r)).health = (s.supRec r).health := by rw [h]
  refine ⟨.refl _ _, rfl, rfl, rfl, rfl, rfl, rfl, rfl, rfl, rfl, rfl, fun _ => rfl, rfl, rfl, fun x => ?_, rfl, rfl, rfl,
    .same rfl, .same fun x => ?_⟩
  · rw [State.supRec_modSup]
    split
    · subst_vars; exact ⟨.inl hh, by rw [hh]; exact h⟩
    · exact .refl _
  · simp only [State.health, State.supRec_modSup]
    split
    · subst_vars; exact hh
    · rfl

theorem State.setEngine_settles (s : State) (e : Engine) : Settles s { s with engine := e } :=
  ⟨.refl _ _, rfl, rfl, rfl, rfl, rfl, rfl, rfl, rfl, rfl, rfl, fun _ => rfl, rfl, rfl, fun _ => .refl _, rfl, rfl, rfl,
    .same rfl, .same fun _ => rfl⟩

theorem State.post_settles (s : State) (k : EventKind) (x : Subject) (d : BitVec 16) (h : k ∈ settlingKinds) :
    Settles s (s.post k x d) :=
  ⟨.one _ h _ _ _ _, rfl, rfl, rfl, rfl, rfl, rfl, rfl, rfl, rfl, rfl, fun _ => rfl, rfl, rfl, fun _ => .refl _, rfl, rfl, rfl,
    .same rfl, .same fun _ => rfl⟩

theorem State.unDue_settles (s : State) (e : Due) : Settles s (s.unDue e) :=
  ⟨.refl _ _, rfl, rfl, rfl, rfl, rfl, rfl, rfl, rfl, rfl, rfl, fun _ => rfl, rfl, rfl, fun _ => .refl _, rfl, rfl, rfl,
    .same rfl, .same fun _ => rfl⟩

theorem State.markDue_settles (s : State) (e : Due) : Settles s (s.markDue e) := by
  unfold State.markDue
  exact Settles.ite (.refl s)
    ⟨.refl _ _, rfl, rfl, rfl, rfl, rfl, rfl, rfl, rfl, rfl, rfl, fun _ => rfl, rfl, rfl, fun _ => .refl _, rfl, rfl, rfl,
    .same rfl, .same fun _ => rfl⟩

theorem State.beginRamp_settles (s : State) (r : RemoteId) : Settles s (s.beginRamp r) := by
  refine ⟨.refl _ _, rfl, rfl, rfl, rfl, rfl, rfl, rfl, rfl, rfl, rfl, fun x => ?_, rfl, rfl, fun _ => .refl _, rfl, rfl, rfl,
    .same rfl, .same fun _ => rfl⟩
  simp only [State.beginRamp]
  rw [State.ramp_modRamp]
  split <;> rfl

/-! ## Holds and the end of a move -/

theorem State.tellHeld_settles (s : State) (rs : List RemoteId) (b : Bool) : Settles s (s.tellHeld rs b) :=
  .foldl (fun s r => s.modSup_settles r _ rfl) rs s

theorem State.holdRemote_settles (s : State) (r : RemoteId) : Settles s (s.holdRemote r) := by
  unfold State.holdRemote
  exact Settles.ite (.refl s) ((s.setEngine_settles _).trans (State.tellHeld_settles _ _ _))

theorem State.releaseHolds_settles (s : State) : Settles s s.releaseHolds :=
  (s.setEngine_settles _).trans (State.tellHeld_settles _ _ _)

theorem State.postEnd_settles (s : State) (m : MoveRecord) (o : MoveOutcome) : Settles s (s.postEnd m o) := by
  unfold State.postEnd
  split
  · split <;> exact s.post_settles _ _ _ (by decide)
  · exact .refl s
  · split
    · exact s.post_settles _ _ _ (by decide)
    · exact .refl s

theorem State.adoptPlan_settles (s : State) (m : MoveRecord) (o : MoveOutcome) : Settles s (s.adoptPlan m o) := by
  unfold State.adoptPlan
  exact Settles.ite
    ⟨.refl _ _, rfl, rfl, rfl, rfl, rfl, rfl, rfl, rfl, rfl, rfl, fun _ => rfl, rfl, rfl, fun _ => .refl _, rfl, rfl, rfl,
    .same rfl, .same fun _ => rfl⟩ (.refl s)

theorem State.askRetest_settles (s : State) : Settles s s.askRetest := by
  unfold State.askRetest
  split
  · exact Settles.ite (s.markDue_settles _) (.refl s)
  · exact .refl s

theorem State.engineRests_settles (s : State) : Settles s s.engineRests := by
  have h := (s.releaseHolds_settles).trans (State.unDue_settles _ .switch)
  refine ⟨h.events, h.pending, h.loader, h.clock, h.settings, h.links, h.comb, h.meter, h.store, h.svc, h.dist, h.present,
    h.map, ?_, h.sup, h.force, h.count, h.acting, h.flags, h.joins⟩
  rfl

theorem State.moveEnd_settles (s : State) (o : MoveOutcome) : Settles s (s.moveEnd o) := by
  unfold State.moveEnd
  split
  · exact .refl s
  · exact ((((s.setEngine_settles _).trans (State.adoptPlan_settles _ _ o)).trans
      (State.postEnd_settles _ _ o)).trans (State.engineRests_settles _)).trans (State.askRetest_settles _)

theorem State.phaseDone_settles (s : State) : Settles s s.phaseDone := by
  unfold State.phaseDone
  split
  · exact s.setEngine_settles _
  · exact s.moveEnd_settles _
  · exact s.moveEnd_settles _
  · exact .refl s

theorem State.leavePhase_settles (s : State) (r : RemoteId) : Settles s (s.leavePhase r) := by
  unfold State.leavePhase
  simp only
  exact Settles.ite (Settles.ite ((s.setEngine_settles _).trans (State.phaseDone_settles _)) (s.setEngine_settles _))
    (.refl s)

/-! ## Boosts, degradation, JOINING, recomputes -/

theorem State.engineRecompute_settles (s : State) (r : RemoteId) : Settles s (s.engineRecompute r) := by
  unfold State.engineRecompute
  simp only
  exact Settles.ite ((s.beginRamp_settles r).trans (State.leavePhase_settles _ _)) (s.beginRamp_settles r)

theorem State.reevalBoost_settles (s : State) (y : RemoteId) : Settles s (s.reevalBoost y).1 :=
  s.modSup_settles _ _ rfl

theorem State.reevalBoosts_settles (s : State) (ys : List RemoteId) : Settles s (s.reevalBoosts ys).1 := by
  unfold State.reevalBoosts
  suffices h : ∀ acc : State × List RemoteId, Settles s acc.1 → Settles s (ys.foldl (fun acc y =>
      let (s, ch) := acc.1.reevalBoost y
      (s, if ch then acc.2 ++ [y] else acc.2)) acc).1 from h (s, []) (.refl s)
  induction ys with
  | nil => exact fun _ h => h
  | cons y ys ih => exact fun acc h => ih _ (h.trans (State.reevalBoost_settles _ _))

theorem State.evalDegraded_settles (s : State) (x : SectorId) : Settles s (s.evalDegraded true x) := by
  have key : ∃ q, s.evalDegraded true x = { s with
      sup := { s.sup with
        serving := s.sup.serving.set x (s.servingNow x), degraded := s.sup.degraded.set x (s.degradedNow x) }
      events := q } ∧ EventQueue.Posted settlingKinds s.events q ∧
      (s.degradedNow x ≠ s.sup.degraded.get x → s.events.Reports
        (if s.degradedNow x then .sectorDegraded else .sectorRestored) (.sector x) (word16 (s.servingNow x)) s.now q) := by
    unfold State.evalDegraded
    simp only
    cases h1 : s.degradedNow x <;> cases h2 : s.sup.degraded.get x
    · exact ⟨_, rfl, .refl _ _, fun h => absurd rfl h⟩
    · exact ⟨_, rfl, .one _ (by decide) _ _ _ _, fun _ => .one _ _ _ _ _⟩
    · exact ⟨_, rfl, .one _ (by decide) _ _ _ _, fun _ => .one _ _ _ _ _⟩
    · exact ⟨_, rfl, .refl _ _, fun h => absurd rfl h⟩
  obtain ⟨q, e, hq, hr⟩ := key
  rw [e]
  refine ⟨hq, rfl, rfl, rfl, rfl, rfl, rfl, rfl, rfl, rfl, rfl, fun _ => rfl, rfl, rfl, fun _ => .refl _, rfl, rfl, rfl,
    fun y hy => ?_, .same fun _ => rfl⟩
  simp only [Tab.get_set] at hy ⊢
  split at hy
  · subst_vars
    exact ⟨_, le_refl _, le_refl _, by simp [State.degradedNow], by simpa using hr hy⟩
  · exact absurd rfl hy

theorem State.evalSector_settles (s : State) (x : Option SectorId) : Settles s (s.evalSector x) := by
  cases x with
  | none => exact .refl s
  | some x => exact s.evalDegraded_settles x

/-- The end of JOINING with its report (R125). -/
theorem State.serveNow_settles (s : State) (r : RemoteId) (h : s.health r = .joining) :
    Settles s ((s.modSup r fun v => { v with
      health := if (s.supRec r).alarms.active then .impaired else .serving }).post .remoteJoined (.remote r)
        (if (s.supRec r).alarms.active then 1 else 0)) := by
  refine ⟨.one _ (by decide) _ _ _ _, rfl, rfl, rfl, rfl, rfl, rfl, rfl, rfl, rfl, rfl, fun _ => rfl, rfl, rfl,
    fun x => ?_, rfl, rfl, rfl, .same rfl, fun x hj hs => ?_⟩
  · show (s.supRec x).Follows ((s.modSup r _).supRec x)
    rw [State.supRec_modSup]
    split
    · subst_vars
      exact ⟨.inr ⟨h, by simp only; split <;> rfl⟩, rfl⟩
    · exact .refl _
  · by_cases hx : r = x
    · subst hx
      have : State.health (State.post (s.modSup r fun v => { v with
          health := if (s.supRec r).alarms.active then .impaired else .serving }) .remoteJoined (.remote r)
          (if (s.supRec r).alarms.active then 1 else 0)) r
          = if (s.supRec r).alarms.active then .impaired else .serving := by
        show (State.supRec (s.modSup r _) r).health = _
        rw [State.supRec_modSup, if_pos rfl]
      rw [this]
      cases (s.supRec r).alarms.active <;> exact .one _ _ _ _ _
    · exfalso
      have : State.health (State.post (s.modSup r fun v => { v with
          health := if (s.supRec r).alarms.active then .impaired else .serving }) .remoteJoined (.remote r)
          (if (s.supRec r).alarms.active then 1 else 0)) x = s.health x := by
        show (State.supRec (s.modSup r _) x).health = _
        rw [State.supRec_modSup, if_neg hx]
        rfl
      rw [this, hj] at hs
      cases hs

theorem State.joined_settles (s : State) (r : RemoteId) (h : s.health r = .joining) : Settles s (s.joined r) := by
  unfold State.joined
  simp only
  exact (((s.serveNow_settles r h).trans (State.reevalBoosts_settles _ _)).trans (State.evalSector_settles _ _)).trans
    (.foldl State.engineRecompute_settles _ _)

theorem State.completion_settles (s : State) (r : RemoteId) : Settles s (s.completion r) := by
  unfold State.completion
  simp only
  split
  · rename_i h
    simp only [Bool.and_eq_true, decide_eq_true_eq] at h
    exact (s.leavePhase_settles r).trans (State.joined_settles _ _ h.1)
  · exact s.leavePhase_settles r

theorem State.recompute_settles (s : State) (r : RemoteId) : Settles s (s.recompute r) := by
  unfold State.recompute
  simp only
  exact Settles.ite ((s.beginRamp_settles r).trans (State.completion_settles _ _)) (s.beginRamp_settles r)

theorem State.recomputeAll_settles (s : State) (rs : List RemoteId) : Settles s (s.recomputeAll rs) :=
  .foldl State.recompute_settles rs s

theorem State.settleHealth_settles (s : State) (r : RemoteId) : Settles s (s.settleHealth r) := by
  unfold State.settleHealth
  simp only
  exact ((s.reevalBoosts_settles _).trans (State.evalSector_settles _ _)).trans (State.recomputeAll_settles _ _)

theorem State.engineDeparture_settles (s : State) (r : RemoteId) : Settles s (s.engineDeparture r) := by
  unfold State.engineDeparture
  split
  · exact .refl s
  · refine Settles.ite (Settles.ite ?_ (Settles.ite (s.moveEnd_settles _) (.refl s))) (.refl s)
    exact (s.setEngine_settles _).trans (State.leavePhase_settles _ _)

theorem State.thermalRecompute_settles (s : State) (r : RemoteId) (a : Alarms) :
    Settles s (s.thermalRecompute r a) := by
  unfold State.thermalRecompute
  simp only
  exact Settles.ite (.refl s) ((s.reevalBoosts_settles _).trans (State.recomputeAll_settles _ _))

/-! ## Starts and aborts -/

theorem State.startSingle_settles (s : State) (k : MoveKind) (r : RemoteId) (y : SectorId) :
    Settles s (s.startSingle k r y).1 := by
  unfold State.startSingle
  split
  · exact ((s.setEngine_settles _).trans (State.holdRemote_settles _ _)).trans (State.recompute_settles _ _)
  · exact .refl s

theorem State.startBatch_settles (s : State) (p : PlanId) (new : PlanMap) : Settles s (s.startBatch p new).1 := by
  unfold State.startBatch
  split
  · exact ((s.setEngine_settles _).trans (.foldl State.holdRemote_settles _ _)).trans (State.recomputeAll_settles _ _)
  · exact .refl s

theorem State.enterRecovery_settles (s : State) (m : MoveRecord) : Settles s (s.enterRecovery m) :=
  (s.releaseHolds_settles).trans (State.setEngine_settles _ _)

theorem State.startRecovery_settles (s : State) : Settles s s.startRecovery := by
  unfold State.startRecovery
  split
  · rename_i m _
    have h := (s.enterRecovery_settles m).trans (State.recomputeAll_settles _ s.engine.holdSet)
    exact Settles.ite (h.trans (State.moveEnd_settles _ _)) h
  · exact .refl s

end Sys2Proof.Machine
end

