-- ==== Sys2Proof/Laws/Spares.lean ====
section
/-! SUPPORT. What health, moves, ramps, plans, the relay and the senders leave as it was (`Spares`,
operation by operation). -/

namespace Sys2Proof.Machine

theorem Framer.SameReceive.refl (f : Framer) : f.SameReceive f := rfl

theorem Framer.SameReceive.trans {f g h : Framer} (a : f.SameReceive g) (b : g.SameReceive h) :
    f.SameReceive h := by
  unfold Framer.SameReceive at *
  rw [a] at b
  exact b

namespace Spares

theorem refl (s : State) : Spares s s :=
  ⟨rfl, rfl, rfl, rfl, fun _ => rfl, rfl, rfl, rfl, fun _ _ => rfl, rfl, rfl, rfl, rfl, rfl, rfl, rfl, rfl⟩

theorem trans {s t u : State} (h : Spares s t) (k : Spares t u) : Spares s u where
  pending := k.pending.trans h.pending
  loader := k.loader.trans h.loader
  clock := k.clock.trans h.clock
  settings := k.settings.trans h.settings
  receive := fun l => (h.receive l).trans (k.receive l)
  dist := by rw [k.dist, h.dist]
  comb := by rw [k.comb, h.comb]
  meter := by rw [k.meter, h.meter]
  records := fun r c => by rw [k.records r c, h.records r c]
  store := by rw [k.store, h.store]
  input := k.input.trans h.input
  tap := k.tap.trans h.tap
  serviceCount := k.serviceCount.trans h.serviceCount
  donorCounts := k.donorCounts.trans h.donorCounts
  taking := k.taking.trans h.taking
  spreader := by rw [k.spreader, h.spreader]
  acting := k.acting.trans h.acting

theorem foldl {α : Type} {f : State → α → State} (h : ∀ s a, Spares s (f s a)) (xs : List α) (s : State) :
    Spares s (xs.foldl f s) := by
  induction xs generalizing s with
  | nil => exact refl s
  | cons a xs ih => exact (h s a).trans (ih (f s a))

theorem ite {s t u : State} {c : Prop} [Decidable c] (h : Spares s t) (k : Spares s u) :
    Spares s (if c then t else u) := by
  split
  · exact h
  · exact k

/-- A change of the relay's part of the service block. -/
theorem of_svc {s : State} {v : Service} (input : v.input = s.svc.input) (tap : v.tap = s.svc.tap)
    (sc : v.serviceCount = s.svc.serviceCount) (dc : v.donorCounts = s.svc.donorCounts)
    (taking : v.taking = s.svc.taking) : Spares s { s with svc := v } :=
  ⟨rfl, rfl, rfl, rfl, fun _ => rfl, rfl, rfl, rfl, fun _ _ => rfl, rfl, input, tap, sc, dc, taking, rfl, rfl⟩

end Spares

theorem Settles.spares {s t : State} (h : Settles s t) : Spares s t where
  pending := h.pending
  loader := h.loader
  clock := h.clock
  settings := h.settings
  receive := fun l => by rw [Framer.SameReceive, State.framer_congr h.links]
  dist := h.dist
  comb := by rw [h.comb]
  meter := by rw [h.meter]
  records := fun r c => by simp only [State.activity, h.meter]
  store := by rw [h.store]
  input := by rw [h.svc]
  tap := by rw [h.svc]
  serviceCount := by rw [h.svc]
  donorCounts := by rw [h.svc]
  taking := by rw [h.svc]
  spreader := by rw [h.spreader]
  acting := h.acting

/-! ## Plain updates -/

theorem State.modSup_spares (s : State) (r : RemoteId) (f : SupRecord → SupRecord) : Spares s (s.modSup r f) :=
  ⟨rfl, rfl, rfl, rfl, fun _ => rfl, rfl, rfl, rfl, fun _ _ => rfl, rfl, rfl, rfl, rfl, rfl, rfl, rfl, rfl⟩

theorem State.modRamp_spares (s : State) (r : RemoteId) (f : Ramp → Ramp) : Spares s (s.modRamp r f) :=
  ⟨rfl, rfl, rfl, rfl, fun _ => rfl, rfl, rfl, rfl, fun _ _ => rfl, rfl, rfl, rfl, rfl, rfl, rfl, rfl, rfl⟩

theorem State.setMap_spares (s : State) (m : SectorMap) : Spares s { s with map := m } :=
  ⟨rfl, rfl, rfl, rfl, fun _ => rfl, rfl, rfl, rfl, fun _ _ => rfl, rfl, rfl, rfl, rfl, rfl, rfl, rfl, rfl⟩

theorem State.setEvents_spares (s : State) (q : EventQueue) : Spares s { s with events := q } :=
  ⟨rfl, rfl, rfl, rfl, fun _ => rfl, rfl, rfl, rfl, fun _ _ => rfl, rfl, rfl, rfl, rfl, rfl, rfl, rfl, rfl⟩

theorem State.setSup_spares (s : State) (v : Supervisor) : Spares s { s with sup := v } :=
  ⟨rfl, rfl, rfl, rfl, fun _ => rfl, rfl, rfl, rfl, fun _ _ => rfl, rfl, rfl, rfl, rfl, rfl, rfl, rfl, rfl⟩

theorem State.post_spares (s : State) (k : EventKind) (x : Subject) (d : BitVec 16) : Spares s (s.post k x d) :=
  s.setEvents_spares _

theorem State.unDue_spares (s : State) (e : Due) : Spares s (s.unDue e) := (s.unDue_settles e).spares

theorem State.markDue_spares (s : State) (e : Due) : Spares s (s.markDue e) := (s.markDue_settles e).spares

theorem State.writeHistory_spares (s : State) (r : RemoteId) : Spares s (s.writeHistory r) :=
  ⟨rfl, rfl, rfl, rfl, fun _ => rfl, rfl, rfl, rfl, fun _ _ => rfl, rfl, rfl, rfl, rfl, rfl, rfl, rfl, rfl⟩

theorem State.clearHoming_spares (s : State) (r : RemoteId) : Spares s (s.clearHoming r) :=
  ⟨rfl, rfl, rfl, rfl, fun _ => rfl, rfl, rfl, rfl, fun _ _ => rfl, rfl, rfl, rfl, rfl, rfl, rfl, rfl, rfl⟩

theorem State.setSchedule_spares (s : State) (c : Option Schedule) : Spares s (s.setSchedule c) :=
  ⟨rfl, rfl, rfl, rfl, fun _ => rfl, rfl, rfl, rfl, fun _ _ => rfl, rfl, rfl, rfl, rfl, rfl, rfl, rfl, rfl⟩

/-- A record after the marking of r's records (R63). -/
theorem State.activity_markStale (s : State) (r x : RemoteId) (c : CarrierId) :
    (s.markStale r).activity x c =
      if r = x then { s.activity x c with stale := true } else s.activity x c := by
  simp only [State.markStale, State.activity, Tab.get_modify]
  split <;> simp

theorem State.markStale_spares (s : State) (r : RemoteId) : Spares s (s.markStale r) := by
  refine ⟨rfl, rfl, rfl, rfl, fun _ => rfl, rfl, rfl, rfl, fun x c => ?_, rfl, rfl, rfl, rfl, rfl, rfl, rfl, rfl⟩
  rw [State.activity_markStale]
  split <;> rfl

/-- A change of one framer's senders alone. -/
theorem State.modFramer_spares (s : State) (l : Link) (f : Framer → Framer)
    (h : (s.framer l).SameReceive (f (s.framer l))) : Spares s (s.modFramer l f) := by
  refine ⟨by simp, by simp, by simp, by simp, fun k => ?_, by simp, by simp, by simp, fun r c => ?_, by simp,
    by simp, by simp, by simp, by simp, by simp, by simp, by simp⟩
  · rw [State.framer_modFramer]
    split
    · subst_vars; exact h
    · exact .refl _
  · simp [State.activity]

/-! ## The relay -/

theorem State.countRelay_spares (s : State) (r : RemoteId) (f : PortService → PortService) :
    Spares s (s.countRelay r f) := .of_svc rfl rfl rfl rfl rfl

theorem State.setPass_spares (s : State) (r : RemoteId) (p : Option Pass) : Spares s (s.setPass r p) :=
  .of_svc rfl rfl rfl rfl rfl

theorem State.setRefused_spares (s : State) (r : RemoteId) (ms : List Relayed) : Spares s (s.setRefused r ms) :=
  .of_svc rfl rfl rfl rfl rfl

theorem State.takeTag_spares (s : State) (r : RemoteId) : Spares s (s.takeTag r).2 := .of_svc rfl rfl rfl rfl rfl

theorem State.fillReserved_spares (s : State) (v : Reservation) (p : Response) : Spares s (s.fillReserved v p) := by
  unfold State.fillReserved
  split
  · exact ⟨rfl, rfl, rfl, rfl, fun _ => rfl, rfl, rfl, rfl, fun _ _ => rfl, rfl, rfl, rfl, rfl, rfl, rfl, rfl, rfl⟩
  · exact .refl s

theorem State.endSetRelay_spares (s : State) : Spares s s.endSetRelay := by
  unfold State.endSetRelay
  split
  · split
    · exact (s.fillReserved_spares _ _).trans (.of_svc rfl rfl rfl rfl rfl)
    · exact .refl s
  · exact .refl s

theorem State.leaveRemaining_spares (s : State) (r : RemoteId) : Spares s (s.leaveRemaining r) := by
  unfold State.leaveRemaining
  split
  · rename_i v _
    exact (Spares.of_svc (s := s) (v := { s.svc with setRelay := some { v with remaining := v.remaining.erase r } })
      rfl rfl rfl rfl rfl).trans (State.endSetRelay_spares _)
  · exact .refl s

theorem State.acceptOffer_spares (s : State) (r : RemoteId) (m : Relayed) : Spares s (s.acceptOffer r m) := by
  unfold State.acceptOffer
  simp only
  have h : Spares s (s.modFramer (.remote r) fun f => { f with relayQueue := f.relayQueue ++ [m] }) :=
    s.modFramer_spares _ _ rfl
  exact Spares.ite (h.trans (State.leaveRemaining_spares _ _)) h

theorem State.offer_spares (s : State) (r : RemoteId) (m : Relayed) : Spares s (s.offer r m) := by
  unfold State.offer
  exact Spares.ite (s.acceptOffer_spares r m) (s.setRefused_spares _ _)

theorem State.reoffer_spares (s : State) (r : RemoteId) : Spares s (s.reoffer r) := by
  unfold State.reoffer
  split
  · exact .refl s
  · exact Spares.ite ((s.setRefused_spares r _).trans (State.acceptOffer_spares _ r _)) (.refl s)

theorem State.queuePoll_spares (s : State) (r : RemoteId) : Spares s (s.queuePoll r) :=
  (s.modFramer_spares _ _ (by exact rfl)).trans (State.modSup_spares _ _ _)

theorem State.withdraw_spares (s : State) (r : RemoteId) : Spares s (s.withdraw r) :=
  (s.modFramer_spares _ _ (by exact rfl)).trans (State.setRefused_spares _ _ _)

theorem State.endPass_spares (s : State) (r : RemoteId) (st : Status) (body : List Byte) :
    Spares s (s.endPass r st body) := by
  unfold State.endPass
  split
  · exact ((((s.fillReserved_spares _ _).trans (State.setPass_spares _ _ _)).trans
      (State.withdraw_spares _ _)).trans (State.unDue_spares _ _)).trans (State.unDue_spares _ _)
  · exact .refl s

theorem State.abortPass_spares (s : State) (r : RemoteId) : Spares s (s.abortPass r) := s.endPass_spares r _ _

theorem State.sentReport_spares (s : State) (r : RemoteId) (t : Byte) : Spares s (s.sentReport r t) := by
  unfold State.sentReport
  split
  · exact Spares.ite (s.setPass_spares _ _) (.refl s)
  · exact .refl s

theorem State.passExpires_spares (s : State) (r : RemoteId) : Spares s (s.passExpires r) := by
  unfold State.passExpires
  split
  · split
    · exact (s.countRelay_spares _ _).trans (State.endPass_spares _ _ _ _)
    · exact .refl s
  · exact .refl s

theorem State.retryEnds_spares (s : State) (r : RemoteId) : Spares s (s.retryEnds r) := by
  unfold State.retryEnds
  split
  · split
    · exact (s.setPass_spares _ _).trans (State.offer_spares _ _ _)
    · exact .refl s
  · exact .refl s

theorem State.replyArrives_spares (s : State) (r : RemoteId) (m : Message) : Spares s (s.replyArrives r m) := by
  unfold State.replyArrives
  split
  · exact Spares.ite (s.endPass_spares _ _ _) (s.countRelay_spares _ _)
  · exact s.countRelay_spares _ _

theorem State.retryPass_spares (s : State) (r : RemoteId) (p : Pass) : Spares s (s.retryPass r p) := by
  unfold State.retryPass
  exact ((((s.withdraw_spares r).trans (State.takeTag_spares _ _)).trans (State.setPass_spares _ _ _)).trans
    (State.unDue_spares _ _)).trans (State.unDue_spares _ _)

theorem State.busyArrives_spares (s : State) (r : RemoteId) (m : Message) : Spares s (s.busyArrives r m) := by
  unfold State.busyArrives
  split
  · split
    · refine (s.countRelay_spares r fun c => { c with busies := satInc c.busies }).trans ?_
      exact Spares.ite (State.endPass_spares _ _ _ _) (State.retryPass_spares _ _ _)
    · exact s.countRelay_spares _ _
  · exact s.countRelay_spares _ _

/-! ## The senders -/

theorem State.startEmission_spares (s : State) (l : Link) (w : Sending) (slots : List Slot) :
    Spares s (s.startEmission l w slots) :=
  (s.modFramer_spares l _ (by exact rfl)).trans (State.unDue_spares _ _)

theorem State.startResponse_spares (s : State) (l : MsgLink) : Spares s (s.startResponse l) := by
  unfold State.startResponse
  split
  · split
    · exact (Spares.of_svc (s := s)
        (v := { s.svc with filled := s.svc.filled.eraseP fun p => decide (p.link = l) }) rfl rfl rfl rfl rfl).trans
        (State.startEmission_spares _ _ _ _)
    · exact .refl s
  · exact .refl s

theorem State.startNotice_spares (s : State) : Spares s s.startNotice := by
  unfold State.startNotice
  split
  · exact (s.setEvents_spares _).trans (State.startEmission_spares _ _ _ _)
  · exact .refl s

theorem State.startRemote_spares (s : State) (r : RemoteId) : Spares s (s.startRemote r) := by
  unfold State.startRemote
  split
  · simp only
    split
    · exact (s.modFramer_spares _ _ (by exact rfl)).trans (State.startEmission_spares _ _ _ _)
    · split
      · exact ((s.modFramer_spares _ _ (by exact rfl)).trans (State.startEmission_spares _ _ _ _)).trans
          (State.reoffer_spares _ _)
      · exact .refl s
  · exact .refl s

theorem State.startAny_spares (s : State) (l : Link) : Spares s (s.startAny l) := by
  cases l with
  | donor n => exact s.startResponse_spares _
  | remote r => exact s.startRemote_spares r
  | service => exact (s.startResponse_spares _).trans (State.startNotice_spares _)

theorem State.startSenders_spares (s : State) : Spares s s.startSenders :=
  .foldl (fun s l => (s.startAny_spares l).trans (State.unDue_spares _ _)) _ s

/-! ## Health and ramps -/

theorem State.setRamps_spares (s : State) (x : Tab 16 Ramp) : Spares s { s with dist := { s.dist with ramps := x } } :=
  ⟨rfl, rfl, rfl, rfl, fun _ => rfl, rfl, rfl, rfl, fun _ _ => rfl, rfl, rfl, rfl, rfl, rfl, rfl, rfl, rfl⟩

theorem State.rampStep_spares (s : State) : Spares s s.rampStep := by
  unfold State.rampStep
  simp only
  exact (s.setRamps_spares _).trans (.foldl (fun s r => (s.completion_settles r).spares) _ _)

theorem State.enterOut_spares (s : State) (r : RemoteId) (h : Health) (c : Option Cause) :
    Spares s (s.enterOut r h c) := by
  unfold State.enterOut
  simp only
  have h1 := (((s.modSup_spares r fun v => { v with health := h, cause := c, grace := none }).trans
    (State.unDue_spares _ (.linkGrace r))).trans (State.modRamp_spares _ r fun p => { p with present := 0 })).trans
      (State.markStale_spares _ r)
  refine Spares.trans ?_ (State.settleHealth_settles _ _).spares
  refine Spares.trans ?_ (Spares.ite (.refl _) (State.abortPass_spares _ _))
  exact h1.trans (Spares.ite (State.engineDeparture_settles _ _).spares (.refl _))

theorem State.lose_spares (s : State) (r : RemoteId) (c : Cause) : Spares s (s.lose r c) := by
  unfold State.lose
  simp only
  have h1 := (s.modSup_spares r fun v => { v with flap := min 15 ((s.supRec r).flap + 1), decay := if v.flap = 0 then some 0 else v.decay }).trans
    (State.post_spares _ .remoteLost (.remote r) (word16 c.code))
  exact Spares.ite ((h1.trans (State.post_spares _ _ _ _)).trans (State.enterOut_spares _ _ _ _))
    (h1.trans (State.enterOut_spares _ _ _ _))

theorem State.pollIfLocked_spares (s : State) (r : RemoteId) : Spares s (s.pollIfLocked r) := by
  unfold State.pollIfLocked
  exact Spares.ite (s.queuePoll_spares r) (.refl s)

theorem State.postOutputs_spares (s : State) (r : RemoteId) (a b : Alarms) : Spares s (s.postOutputs r a b) := by
  unfold State.postOutputs
  exact Spares.ite (.refl s) (Spares.ite (s.post_spares _ _ _) (s.post_spares _ _ _))

theorem State.postThermal_spares (s : State) (r : RemoteId) (a b : Alarms) : Spares s (s.postThermal r a b) := by
  unfold State.postThermal
  exact Spares.ite (.refl s) (Spares.ite (s.post_spares _ _ _) (s.post_spares _ _ _))

theorem State.takeAlarms_spares (s : State) (r : RemoteId) (a : Alarms) : Spares s (s.takeAlarms r a) := by
  unfold State.takeAlarms
  exact ((((s.modSup_spares r _).trans (State.modSup_spares _ _ _)).trans (State.postOutputs_spares _ _ _ _)).trans
    (State.postThermal_spares _ _ _ _))

theorem State.enterJoining_spares (s : State) (r : RemoteId) : Spares s (s.enterJoining r) := by
  unfold State.enterJoining
  simp only
  refine Spares.trans ?_ (State.settleHealth_settles _ _).spares
  refine (s.modSup_spares r fun v => { v with health := .joining, cause := none }).trans ?_
  exact Spares.ite (State.holdRemote_settles _ _).spares (.refl _)

theorem State.acceptJoin_spares (s : State) (r : RemoteId) (b : List Byte) : Spares s (s.acceptJoin r b) := by
  unfold State.acceptJoin
  simp only
  have h1 := (s.modSup_spares r fun v =>
    { v with serial := some (statusSerial b), position := some (statusPosition b) }).trans
      (State.takeAlarms_spares _ r (statusAlarms b))
  exact Spares.ite (h1.trans (State.thermalRecompute_settles _ _ _).spares) (h1.trans (State.enterJoining_spares _ _))

theorem State.identityChecks_spares (s : State) (r : RemoteId) (b : List Byte) :
    Spares s (s.identityChecks r b) := by
  unfold State.identityChecks State.duplicateCheck
  split
  · exact s.post_spares _ _ _
  · split
    · exact s.post_spares _ _ _
    · exact s.acceptJoin_spares r b

theorem State.acceptInService_spares (s : State) (r : RemoteId) (b : List Byte) :
    Spares s (s.acceptInService r b) := by
  unfold State.acceptInService
  simp only
  have h1 := (s.modSup_spares r fun v => { v with position := some (statusPosition b) }).trans
      (State.takeAlarms_spares _ r (statusAlarms b))
  exact Spares.ite (h1.trans (State.lose_spares _ _ _))
    (Spares.ite (h1.trans (State.thermalRecompute_settles _ _ _).spares)
      ((h1.trans (State.modSup_spares _ _ _)).trans (State.settleHealth_settles _ _).spares))

theorem State.statusArrives_spares (s : State) (r : RemoteId) (b : List Byte) : Spares s (s.statusArrives r b) := by
  unfold State.statusArrives State.inServiceCheck
  simp only
  refine (s.modSup_spares r fun v => { v with miss := 0, awaiting := false, report := some ⟨b, s.now⟩ }).trans ?_
  split
  · exact .refl _
  · exact .refl _
  · exact State.identityChecks_spares _ _ _
  · exact State.identityChecks_spares _ _ _
  all_goals exact Spares.ite (State.acceptInService_spares _ _ _) (State.lose_spares _ _ _)

theorem State.pollRemote_spares (s : State) (r : RemoteId) : Spares s (s.pollRemote r) := by
  unfold State.pollRemote
  refine Spares.ite (.refl s) ?_
  simp only
  refine Spares.trans ?_ (State.queuePoll_spares _ _)
  refine Spares.trans ?_ (Spares.ite (State.lose_spares _ _ _) (.refl _))
  exact Spares.ite (s.modSup_spares _ _) (.refl _)

theorem State.pollEvent_spares (s : State) : Spares s s.pollEvent := .foldl State.pollRemote_spares _ s

theorem State.graceExpires_spares (s : State) (r : RemoteId) : Spares s (s.graceExpires r) := by
  unfold State.graceExpires
  exact (s.modSup_spares r fun v => { v with grace := none }).trans (Spares.ite (State.lose_spares _ _ _) (.refl _))

theorem State.isolate_spares (s : State) (r : RemoteId) : Spares s (s.isolate r) :=
  (s.post_spares _ _ _).trans (State.enterOut_spares _ _ _ _)

theorem State.restore_spares (s : State) (r : RemoteId) : Spares s (s.restore r) := by
  unfold State.restore
  exact (((s.modSup_spares r _).trans (State.unDue_spares _ _)).trans (State.enterOut_spares _ _ _ _)).trans
    (State.pollIfLocked_spares _ _)

/-! ## Switches, the live map and the Plan Store -/

theorem State.changeSector_spares (s : State) (r : RemoteId) (x : Option SectorId) : Spares s (s.changeSector r x) :=
  (s.writeHistory_spares r).trans (State.setMap_spares _ _)

theorem State.enterFadeIn_spares (s : State) (m : MoveRecord) (phase : List RemoteId) (p : Option PlanMap) :
    Spares s (s.enterFadeIn m phase p) :=
  ((s.releaseHolds_settles).trans (State.setEngine_settles _ _)).spares

theorem State.singleSwitch_spares (s : State) : Spares s s.singleSwitch := by
  unfold State.singleSwitch
  split
  · split
    · simp only
      exact ((((((s.changeSector_spares _ _).trans (Spares.ite (State.setMap_spares _ _) (.refl _))).trans
        (State.enterFadeIn_spares _ _ _ _)).trans (State.reevalBoosts_settles _ _).spares).trans
        (State.evalSector_settles _ _).spares).trans (State.evalDegraded_settles _ _).spares).trans
        (State.recomputeAll_settles _ _).spares
    · exact .refl s
  · exact .refl s

theorem State.vacate_spares (s : State) (r : RemoteId) : Spares s (s.vacate r) := by
  unfold State.vacate
  exact (((((s.modSup_spares r _).trans (State.unDue_spares _ _)).trans (State.unDue_spares _ _)).trans
    (State.modRamp_spares _ _ _)).trans (State.markStale_spares _ _)).trans (State.abortPass_spares _ _)

theorem State.bringIn_spares (s : State) (r : RemoteId) : Spares s (s.bringIn r) := by
  unfold State.bringIn
  exact (((s.modSup_spares r _).trans (State.modRamp_spares _ _ _)).trans (State.markStale_spares _ _)).trans
    (State.pollIfLocked_spares _ _)

theorem State.applyEntry_spares (s : State) (r : RemoteId) (e : RemoteEntry) : Spares s (s.applyEntry r e) := by
  unfold State.applyEntry
  simp only
  exact ((Spares.ite (.refl s) (s.writeHistory_spares r)).trans
    (Spares.ite (.refl _) (State.clearHoming_spares _ r))).trans (State.setMap_spares _ _)

theorem State.applyConfigured_spares (s : State) (r : RemoteId) (b : Bool) : Spares s (s.applyConfigured r b) := by
  unfold State.applyConfigured
  simp only
  exact (Spares.ite (s.vacate_spares r) (Spares.ite (s.bringIn_spares r) (.refl s))).trans (State.modSup_spares _ _ _)

theorem State.applyMap_spares (s : State) (new : PlanMap) : Spares s (s.applyMap new) := by
  unfold State.applyMap
  have h := Spares.foldl (f := fun (s : State) r => s.applyEntry r (new.remotes.get r))
    (fun s x => s.applyEntry_spares x _) (List.finRange 16) s
  exact h.trans (State.setMap_spares _ _)

theorem State.applyHealths_spares (s t : State) : Spares s (s.applyHealths t) :=
  .foldl (fun s x => s.applyConfigured_spares x _) _ _

theorem State.evaluateAll_settles (s : State) : Settles s s.evaluateAll.1 := by
  unfold State.evaluateAll
  simp only
  exact (s.reevalBoosts_settles _).trans (.foldl (fun s x => s.evalDegraded_settles x) _ _)

theorem State.wholeSwitch_spares (s : State) : Spares s s.wholeSwitch := by
  unfold State.wholeSwitch
  split
  · rename_i m new _ _
    simp only
    have h := ((((s.applyMap_spares new).trans (State.applyHealths_spares _ s)).trans
      (State.enterFadeIn_spares _ m (m.fading.filter fun r =>
        decide (((s.applyMap new).applyHealths s).health r ≠ .vacant)) (some new))).trans
      (State.evaluateAll_settles _).spares)
    refine Spares.ite ((h.trans (State.recomputeAll_settles _ _).spares).trans (State.moveEnd_settles _ _).spares)
      (h.trans (State.recomputeAll_settles _ _).spares)
  · exact .refl s

theorem State.switchFalls_spares (s : State) : Spares s s.switchFalls := by
  unfold State.switchFalls
  exact Spares.ite (Spares.ite s.wholeSwitch_spares s.singleSwitch_spares) (.refl s)

theorem State.testSchedule_spares (s : State) (c : Schedule) : Spares s (s.testSchedule c) := by
  unfold State.testSchedule
  split
  · exact (s.post_spares _ _ _).trans (State.setSchedule_spares _ _)
  · simp only
    exact Spares.ite ((s.startBatch_settles _ _).spares.trans (State.setSchedule_spares _ _)) (s.setSchedule_spares _)

theorem State.dueTest_spares (s : State) : Spares s s.dueTest := by
  unfold State.dueTest
  split
  · exact Spares.ite (s.testSchedule_spares _) (.refl s)
  · exact .refl s

theorem State.waitingTest_spares (s : State) : Spares s s.waitingTest := by
  unfold State.waitingTest
  split
  · exact Spares.ite (s.testSchedule_spares _) (.refl s)
  · exact .refl s

theorem State.takeDue_spares (s : State) (e : Due) (f : State → State) (h : ∀ s, Spares s (f s)) :
    Spares s (s.takeDue e f) := by
  unfold State.takeDue
  exact Spares.ite ((s.unDue_spares e).trans (h _)) (.refl s)

end Sys2Proof.Machine
end

