-- ==== Sys2Proof/Laws/Departures.lean ====
section
/-! SUPPORT. What a remote's leaving leaves: `State.enterOut` and what calls it (R34, R63, R130 to R133,
R163), in the terms of `Departed`. -/

namespace Sys2Proof.Machine

/-- A record that follows one that is not JOINING keeps its health. -/
theorem SupRecord.Follows.health_eq {v w : SupRecord} (h : v.Follows w) (k : v.health ≠ .joining) :
    w.health = v.health :=
  h.health.resolve_right fun x => k x.1

theorem Settles.activity {s t : State} (h : Settles s t) (r : RemoteId) (c : CarrierId) :
    t.activity r c = s.activity r c := by simp only [State.activity, h.meter]

/-- The Relay after the end of a pass-through with ABORTED, whole (R163). -/
theorem State.abortPass_svc (s : State) (r : RemoteId) : (s.abortPass r).svc = s.svc.aborted r := by
  unfold State.abortPass State.endPass Service.aborted State.fillReserved
  cases s.svc.pass.get r with
  | none => rfl
  | some p =>
    simp only
    split
    · rename_i h
      rw [if_pos (by simpa using h)]
      simp [State.setPass, State.withdraw, State.setRefused, State.fill]
    · rename_i h
      have h' : Reservation.pass r ∉ s.svc.reserved := by simpa using h
      rw [if_neg h', List.erase_of_not_mem h']
      simp [State.setPass, State.withdraw, State.setRefused]

/-- The links after the end of a pass-through with ABORTED, whole (R161, R163). -/
theorem State.abortPass_framer (s : State) (r : RemoteId) (l : Link) : (s.abortPass r).framer l =
    if l = .remote r then (s.framer (.remote r)).withdrawn s.svc r else s.framer l := by
  unfold State.abortPass State.endPass Framer.withdrawn
  cases s.svc.pass.get r with
  | none => simp only [if_true]; split <;> simp_all
  | some p =>
    have hl : ∀ p q, State.links (State.setPass (s.fillReserved (.pass r) p) r q) = s.links := fun p q => by
      simp only [State.setPass, State.fillReserved]; split <;> rfl
    show State.framer (State.modFramer _ _ _) l = _
    rw [State.framer_modFramer]
    simp only [State.framer_congr (hl _ _)]
    by_cases h : l = .remote r
    · subst h; simp
    · simp [h, Ne.symm h]

@[simp] theorem Service.aborted_pass (v : Service) (r : RemoteId) : (v.aborted r).pass.get r = none := by
  unfold Service.aborted
  split
  · assumption
  · simp

/-- Filling a reserved place changes the Relay's state alone. -/
theorem State.fillReserved_svc (s : State) (v : Reservation) (p : Response) :
    s.fillReserved v p = { s with svc := (s.fillReserved v p).svc } := by
  unfold State.fillReserved
  split <;> rfl

/-- Ending a pass-through changes the Relay, the links and what is due, and nothing else. -/
theorem State.endPass_frame (s : State) (r : RemoteId) (st : Status) (b : List Byte) :
    ∃ l v d, s.endPass r st b = { s with links := l, svc := v, boundary := d } := by
  unfold State.endPass
  split
  · rw [State.fillReserved_svc]
    exact ⟨_, _, _, rfl⟩
  · exact ⟨_, _, _, rfl⟩

/-- Entry to LOST, ISOLATED or WAITING, whole (R34, R63, R131, R163). -/
theorem State.enterOut_departed (s : State) (r : RemoteId) (h : Health) (c : Option Cause) (hj : h.inService = false) :
    Departed r h c s (s.enterOut r h c) := by
  have spares := s.enterOut_spares r h c
  revert spares
  unfold State.enterOut
  simp only
  set a := s.modSup r fun v => { v with health := h, cause := c, grace := none } with ha
  set b := ((a.unDue (.linkGrace r)).modRamp r fun p => { p with present := 0 }).markStale r with hb
  set d := (if s.serviced r then b.engineDeparture r else b) with hd
  set e := (if h = .waiting then d else d.abortPass r) with he
  intro spares
  have h1 : Settles b d := Settles.ite (b.engineDeparture_settles r) (.refl b)
  have h2 : Settles e (e.settleHealth r) := e.settleHealth_settles r
  have hfr : ∃ l v k, e = { d with links := l, svc := v, boundary := k } := by
    rw [he]
    split
    · exact ⟨_, _, _, rfl⟩
    · exact d.endPass_frame r _ _
  obtain ⟨l, v, w, hfr⟩ := hfr
  have hsup : e.sup = d.sup := by rw [hfr]
  have hramp : e.dist = d.dist := by rw [hfr]
  have hmeter : e.meter = d.meter := by rw [hfr]
  have hmap : e.map = d.map := by rw [hfr]
  have hev : e.events = d.events := by rw [hfr]
  have hrec : ∀ x, (b.supRec x).Follows ((e.settleHealth r).supRec x) := fun x => by
    have k1 := h1.sup x
    have k2 := h2.sup x
    rw [State.supRec_congr hsup] at k2
    exact k1.trans k2
  have hgain : ∀ x, ((e.settleHealth r).ramp x).present = (b.ramp x).present := fun x => by
    rw [h2.present x, ← h1.present x]
    simp only [State.ramp, hramp]
  have hact : ∀ x k, (e.settleHealth r).activity x k = b.activity x k := fun x k => by
    rw [h2.activity, ← h1.activity]
    simp only [State.activity, hmeter]
  have hbr : ∀ x, b.supRec x = a.supRec x := fun x => State.supRec_congr (by rw [hb]; simp) x
  have hr : a.supRec r = { s.supRec r with health := h, cause := c, grace := none } := by rw [ha]; simp
  have hd1 : d.svc = s.svc := by rw [h1.svc, hb]; simp [ha]
  have hd2 : ∀ l, d.framer l = s.framer l := fun l => by
    rw [State.framer_congr h1.links, hb]; exact State.framer_congr (by simp [ha]) l
  have he1 : e.svc = if h = .waiting then s.svc else s.svc.aborted r := by
    rw [he]; split
    · exact hd1
    · rw [State.abortPass_svc, hd1]
  have he2 : ∀ l, e.framer l = if l = .remote r then
      (if h = .waiting then s.framer (.remote r) else (s.framer (.remote r)).withdrawn s.svc r) else s.framer l :=
    fun l => by
      rw [he]; split
      · rw [hd2]; split <;> simp_all
      · rw [State.abortPass_framer, hd1]; simp only [hd2]
  have hnow : b.now = s.now := by rw [hb]; simp [State.now, ha]
  have hbh : ∀ x, b.health x = if r = x then h else s.health x := fun x => by
    simp only [State.health, hbr, ha, State.supRec_modSup]
    split
    · rfl
    · rfl
  have hbev : b.events = s.events := by rw [hb]; simp [ha]
  have hbdeg : b.sup.degraded = s.sup.degraded := rfl
  have hlow : ∀ x, ((s.members x).filter fun z => decide (z ≠ r) && (s.health z).serves).length = b.servingNow x :=
    fun x => by
      have hm : b.members x = s.members x := rfl
      unfold State.servingNow
      rw [hm]
      refine congrArg List.length (List.filter_congr fun z _ => ?_)
      rw [hbh]
      by_cases hz : r = z
      · subst hz; cases h <;> simp_all [Health.serves, Health.inService]
      · simp [hz, Ne.symm hz]
  have hsd : ∀ x, e.servingNow x = d.servingNow x := fun x => by
    rw [hfr]; rfl
  have hbe : b.FlagsReported e b.servingNow := fun x hx => by
    rw [hsup] at hx ⊢
    rw [hmap, hev, hsd]
    exact h1.flags x hx
  have hbj : b.JoinsReported e := fun x hj hs => by
    have q : e.health x = d.health x := by simp only [State.health, State.supRec, hsup]
    rw [q] at hs ⊢
    rw [hev]
    exact h1.joins x hj hs
  have hposted : EventQueue.Posted settlingKinds b.events e.events := by rw [hev]; exact h1.events
  have henow : e.now = b.now := by rw [hfr]; exact h1.now
  have hflags : b.FlagsReported (e.settleHealth r) b.servingNow :=
    hbe.trans h2.flags (fun x => by rw [hsd]; exact h1.serving x) h2.serving hposted h2.events henow (by rw [h2.map])
  have hjoins : b.JoinsReported (e.settleHealth r) := hbj.trans h2.joins
    (fun x hx => by
      have q : e.health x = d.health x := by simp only [State.health, State.supRec, hsup]
      rw [q]; exact h1.joins_or x hx)
    h2.serves hposted h2.events henow
  refine ⟨?_, ?_, fun k => ?_, fun hw => ?_, ?_, ?_, fun l hl => ?_, fun x hx => ?_, fun x hx => ?_, fun x hx k => ?_, ?_, ?_,
    fun x hx => ?_, fun x hx hs => ?_, spares⟩
  · have k := hrec r
    have k1 := k.health_eq (by rw [hbr, hr]; rintro rfl; cases hj)
    have k2 := k.rest
    rw [hbr, hr] at k1 k2
    rw [k2]
    simp only [k1]
  · rw [hgain]
    simp [hb, State.ramp, State.modRamp, State.markStale]
  · rw [hact, hb, State.activity_markStale, if_pos rfl]
    simp [State.activity, ha]
  · rw [h2.svc, he1, if_neg hw]
    simp
  · rw [h2.svc, he1]
  · rw [State.framer_congr h2.links, he2, if_pos rfl]
  · rw [State.framer_congr h2.links, he2, if_neg hl]
  · have k := hrec x
    rwa [hbr, ha, State.supRec_modSup, if_neg (fun q => hx q.symm)] at k
  · rw [hgain, hb]
    show (State.ramp (State.modRamp _ r _) x).present = _
    rw [State.ramp_modRamp, if_neg (fun q => hx q.symm)]
    simp [State.ramp, ha]
  · rw [hact, hb, State.activity_markStale, if_neg (fun q => hx q.symm)]
    simp [State.activity, ha]
  · have k1 := h1.map
    have k2 := h2.map
    rw [hmap] at k2
    have hb' : b.map = s.map := by rw [hb]; simp [ha]
    rw [k2, k1, hb']
  · have k := h1.events.trans (by have := h2.events; rwa [hev] at this)
    have hb' : b.events = s.events := by rw [hb]; simp [ha]
    rwa [hb'] at k
  · rw [← hbdeg] at hx
    simp only [hlow, ← hbev, ← hnow]
    exact hflags x hx
  · have q := hbh x
    by_cases hx' : r = x
    · exfalso
      rw [if_pos hx'] at q
      have k := (hrec x).health_eq (by show b.health x ≠ _; rw [q]; rintro rfl; cases hj)
      have : (e.settleHealth r).health x = h := k.trans q
      rw [this] at hs
      cases h <;> simp_all [Health.serves, Health.inService]
    · rw [if_neg hx'] at q
      rw [← hbev, ← hnow]
      exact hjoins x (q.trans hx) hs

end Sys2Proof.Machine
end

