-- ==== Sys2Proof/Laws/Frames.lean ====
section
/-! SUPPORT. What frame building, release and transmission do at a boundary, said once: the frame each link
sends, and what is left of every block (R4, R12, R22 to R24, R42 to R46). -/

namespace Sys2Proof.Machine

/-! ## Levels and the Meter's ranges -/

/-- The energy of a branch is at most 2,048 samples of the largest amplitude (R61). -/
theorem energy_le (b : Branch) : energy b ≤ 2048 * 2 ^ 31 := by
  unfold energy
  have sq : ∀ v : BitVec 16, v.toInt * v.toInt ≤ 2 ^ 30 ∧ 0 ≤ v.toInt * v.toInt := fun v => by
    have h1 := BitVec.toInt_lt (x := v)
    have h2 := BitVec.le_toInt (x := v)
    norm_num at h1 h2
    constructor <;> nlinarith
  refine (List.sum_le_card_nsmul _ (2 ^ 31) fun n hn => ?_).trans ?_
  · obtain ⟨x, -, rfl⟩ := List.mem_map.mp hn
    have hi := sq x.i
    have hq := sq x.q
    omega
  · simp only [List.length_map, List.length_take, smul_eq_mul]
    exact Nat.mul_le_mul_right _ (Nat.min_le_left _ _)

/-- A power of at most 2^31 has a level of at most 125 (R61). -/
theorem levelOfPower_le {p : Nat} (h : p ≤ 2 ^ 31) : levelOfPower p ≤ 125 := by
  unfold levelOfPower
  split
  · omega
  · rename_i hp
    have h1 := Nat.log2_self_le hp
    have h2 : p < 2 ^ (p.log2 + 1) := Nat.lt_log2_self
    have h3 : p.log2 ≤ 31 := by
      by_contra hc
      have := Nat.pow_le_pow_right (n := 2) (by norm_num) (show 32 ≤ p.log2 by omega)
      omega
    simp only
    rcases Nat.lt_or_ge p.log2 31 with h4 | h4
    · have h5 : 4 * (p - 2 ^ p.log2) / 2 ^ p.log2 < 4 := by
        rw [Nat.div_lt_iff_lt_mul (by positivity)]
        rw [pow_succ] at h2
        omega
      omega
    · have h5 : p.log2 = 31 := by omega
      rw [h5] at h1 ⊢
      have : p = 2 ^ 31 := le_antisymm h h1
      subst this
      norm_num

/-- Every level is at most 125 (R61, R68). -/
theorem laneLevel_le (two : Bool) (l : Lane) : laneLevel two l ≤ 125 := by
  have ha := energy_le l.a
  have hb := energy_le l.b
  unfold laneLevel
  refine levelOfPower_le ?_
  split
  · exact Nat.div_le_of_le_mul (by omega)
  · exact Nat.div_le_of_le_mul (by omega)

/-- A measurement keeps a record within its ranges (R62). -/
theorem Activity.InRange.measure {a : Activity} (h : a.InRange) (margin : Nat) {level : Nat} (k : level ≤ 125) :
    (a.measure margin level).InRange where
  floor := h.floor
  minimum := fun m hm => by
    simp only [Activity.measure, Option.some.injEq] at hm
    split at hm
    · exact hm ▸ le_trans (Nat.min_le_right _ _) k
    · exact hm ▸ k
  busy := by
    have := h.busy
    have := h.frames
    unfold Activity.measure
    simp only
    split <;> unfold satInc <;> omega
  frames := satInc_le _
  occupancy := h.occupancy

/-- The settling at a window end keeps a record within its ranges (R65). -/
theorem Activity.InRange.settle {a : Activity} (h : a.InRange) (window : Nat) : (a.settle window).InRange := by
  unfold Activity.settle
  split
  · exact ⟨h.floor, nofun, Nat.zero_le _, h.frames, h.occupancy⟩
  · rename_i hf
    have hm : a.minLevel.getD a.floor ≤ 125 := by
      cases hl : a.minLevel with
      | none => exact h.floor
      | some m => exact h.minimum m hl
    simp only
    refine ⟨?_, nofun, le_refl _, by simp, ?_⟩
    · simp only; split <;> omega
    · exact Nat.div_le_of_le_mul (by have := h.busy; nlinarith)

/-! ## The frame check -/

/-- The body of a frame does not read its check. -/
theorem frameBody_check (f : LinkFrame) (c : BitVec 32) : frameBody { f with check := c } = frameBody f := rfl

/-- A frame as the framer sends it is a good frame where it ends a position (R1, R4, R169). -/
@[simp] theorem isGood_sealed (f : LinkFrame) : isGood (sealed f) = true := by
  have h : passesCheck (sealed f) = true := decide_eq_true (congrArg frameCheck (frameBody_check _ _))
  rw [isGood, h, Bool.and_true]
  exact decide_eq_true rfl

/-- A frame that carries another check than the one over its bytes is errored, with a frame present (R1, R169). -/
theorem isGood_damaged (f : LinkFrame) (c : BitVec 32) (h : c ≠ (sealed f).check) :
    isGood { sealed f with check := c } = false := by
  have hs : frameCheck (frameBody (sealed f)) = (sealed f).check := congrArg frameCheck (frameBody_check _ _)
  have hb := congrArg frameCheck (frameBody_check (sealed f) c)
  have hp : passesCheck { sealed f with check := c } = false :=
    decide_eq_false fun e => h (e.symm.trans (hb.trans hs))
  rw [isGood, hp, Bool.and_false]

@[simp] theorem sealed_number (f : LinkFrame) : (sealed f).number = f.number := rfl
@[simp] theorem sealed_gapMark (f : LinkFrame) : (sealed f).gapMark = f.gapMark := rfl
@[simp] theorem sealed_flag (f : LinkFrame) : (sealed f).flag = f.flag := rfl
@[simp] theorem sealed_slot (f : LinkFrame) : (sealed f).slot = f.slot := rfl
@[simp] theorem sealed_map (f : LinkFrame) : (sealed f).map = f.map := rfl
@[simp] theorem sealed_lanes (f : LinkFrame) : (sealed f).lanes = f.lanes := rfl

/-! ## Transmission -/

/-- A framer after one outgoing frame (R4). -/
def Framer.send (f : Framer) (number : FC) (mark : Nat) (map : List Byte) (lanes : List Lane) : Framer :=
  { f with
    emission := f.afterSlot
    sent := some (sealed ⟨0, low16 number, BitVec.ofNat 8 mark, f.nextSlot.flag, f.nextSlot.bytes, map, lanes, 0⟩) }

theorem State.markAll_frame (s : State) (es : List Due) :
    ∃ d, s.markAll es = { s with boundary := { s.boundary with due := d } } := by
  unfold State.markAll
  induction es generalizing s with
  | nil => exact ⟨s.boundary.due, rfl⟩
  | cons e es ih =>
    obtain ⟨d, h⟩ := ih (s.markDue e)
    refine ⟨d, ?_⟩
    rw [List.foldl_cons, h]
    unfold State.markDue
    split <;> rfl

/-- One frame changes the framer of its link, and the events due. -/
theorem State.transmit_frame (s : State) (l : Link) (number : FC) (mark : Nat) (map : List Byte) (lanes : List Lane) :
    ∃ d, s.transmit l number mark map lanes =
      { s.modFramer l fun f => f.send number mark map lanes with boundary := { s.boundary with due := d } } := by
  unfold State.transmit
  simp only
  obtain ⟨d, h⟩ := State.markAll_frame (s.modFramer l fun f => { f with
    emission := f.afterSlot
    sent := some (sealed ⟨0, low16 number, BitVec.ofNat 8 mark, (s.framer l).nextSlot.flag,
      (s.framer l).nextSlot.bytes, map, lanes, 0⟩) })
    ((s.framer l).lastSlotDue l)
  refine ⟨d, h.trans ?_⟩
  cases l <;> rfl

/-- Everything but the links and the events due is as it was. -/
def OnlyLinks (s t : State) : Prop := t = { s with links := t.links, boundary := { s.boundary with due := t.boundary.due } }

namespace OnlyLinks

theorem refl (s : State) : OnlyLinks s s := rfl

theorem trans {s t u : State} (h : OnlyLinks s t) (k : OnlyLinks t u) : OnlyLinks s u := by
  unfold OnlyLinks at *
  rw [h] at k
  exact k

end OnlyLinks

theorem State.transmit_onlyLinks (s : State) (l : Link) (number : FC) (mark : Nat) (map : List Byte)
    (lanes : List Lane) : OnlyLinks s (s.transmit l number mark map lanes) := by
  obtain ⟨d, h⟩ := s.transmit_frame l number mark map lanes
  rw [h]
  cases l <;> rfl

theorem State.framer_transmit (s : State) (l k : Link) (number : FC) (mark : Nat) (map : List Byte)
    (lanes : List Lane) : (s.transmit l number mark map lanes).framer k =
      if l = k then (s.framer l).send number mark map lanes else s.framer k := by
  obtain ⟨d, h⟩ := s.transmit_frame l number mark map lanes
  rw [h]
  refine (State.framer_congr rfl k).trans ((s.framer_modFramer l k _).trans ?_)
  split
  · subst_vars; rfl
  · rfl

/-- Frames sent one after another on distinct links. -/
theorem State.foldl_transmit {α : Type} (g : α → Link) (hg : Function.Injective g) (num : FC) (mark : Nat)
    (map : State → α → List Byte) (lanes : α → List Lane) (hm : ∀ s t a, OnlyLinks s t → map t a = map s a)
    (xs : List α) (hx : xs.Nodup) (s t : State)
    (ht : xs.foldl (fun s a => s.transmit (g a) num mark (map s a) (lanes a)) s = t) :
    OnlyLinks s t ∧ (∀ a ∈ xs, t.framer (g a) = (s.framer (g a)).send num mark (map s a) (lanes a)) ∧
      ∀ l, (∀ a ∈ xs, g a ≠ l) → t.framer l = s.framer l := by
  subst ht
  induction xs generalizing s with
  | nil => exact ⟨.refl s, fun _ h => (by cases h), fun _ _ => rfl⟩
  | cons a xs ih =>
    simp only [List.nodup_cons] at hx
    have h1 := s.transmit_onlyLinks (g a) num mark (map s a) (lanes a)
    obtain ⟨k1, k2, k3⟩ := ih hx.2 (s.transmit (g a) num mark (map s a) (lanes a))
    refine ⟨h1.trans k1, fun b hb => ?_, fun l hl => ?_⟩
    · rcases List.mem_cons.mp hb with rfl | hb
      · rw [List.foldl_cons, k3 _ fun c hc hcb => hx.1 (by rw [← hg hcb]; exact hc), s.framer_transmit, if_pos rfl]
      · rw [List.foldl_cons, k2 b hb, hm _ _ _ h1, s.framer_transmit, if_neg]
        exact fun hab => hx.1 (by rw [hg hab]; exact hb)
    · rw [List.foldl_cons, k3 l fun b hb => hl b (List.mem_cons_of_mem _ hb), s.framer_transmit,
        if_neg (hl a (List.mem_cons_self ..))]

/-- The 21 frames of a boundary, link by link (R4). -/
theorem State.transmitAll_frames (s : State) (down : Tab 16 (List Lane)) (u : DonorUplink) (tap : Lane) :
    OnlyLinks s (s.transmitAll down u tap) ∧
    (∀ n, (s.transmitAll down u tap).framer (.donor n) =
      (s.framer (.donor n)).send u.number u.mark [] (u.lanes.get n)) ∧
    (∀ r, (s.transmitAll down u tap).framer (.remote r) =
      (s.framer (.remote r)).send s.now 0 (mapBytes (s.dist.lastMap.get r)) (down.get r)) ∧
    (s.transmitAll down u tap).framer .service = (s.framer .service).send s.now 0 [] [tap] := by
  obtain ⟨a1, a2, a3⟩ := State.foldl_transmit Link.donor (fun _ _ h => by cases h; rfl) u.number u.mark
    (fun _ _ => []) u.lanes.get (fun _ _ _ _ => rfl) (List.finRange 4) (List.nodup_finRange 4) s _ rfl
  have hn : ∀ t, OnlyLinks s t → t.now = s.now ∧ t.dist = s.dist := fun t h => by rw [h]; exact ⟨rfl, rfl⟩
  have e : ∀ (xs : List RemoteId) (t : State), OnlyLinks s t →
      xs.foldl (fun s r => s.transmit (.remote r) s.now 0 (mapBytes (s.dist.lastMap.get r)) (down.get r)) t =
      xs.foldl (fun v r => v.transmit (.remote r) s.now 0 (mapBytes (s.dist.lastMap.get r)) (down.get r)) t := by
    intro xs
    induction xs with
    | nil => intro t _; rfl
    | cons x xs ih =>
      intro t ht
      rw [List.foldl_cons, List.foldl_cons, (hn t ht).1, (hn t ht).2]
      exact ih _ (ht.trans (t.transmit_onlyLinks _ _ _ _ _))
  unfold State.transmitAll
  simp only
  rw [e _ _ a1]
  generalize hv : (List.finRange 4).foldl (fun s n => s.transmit (.donor n) u.number u.mark [] (u.lanes.get n)) s = v at a1 a2 a3
  obtain ⟨b1, b2, b3⟩ := State.foldl_transmit Link.remote (fun _ _ h => by cases h; rfl) s.now 0
    (fun _ r => mapBytes (s.dist.lastMap.get r)) down.get (fun _ _ _ _ => rfl) (List.finRange 16)
    (List.nodup_finRange 16) v _ rfl
  generalize hw : (List.finRange 16).foldl
    (fun v r => v.transmit (.remote r) s.now 0 (mapBytes (s.dist.lastMap.get r)) (down.get r)) v = w at b1 b2 b3
  have hs := (hn w (a1.trans b1)).1
  refine ⟨(a1.trans b1).trans (w.transmit_onlyLinks _ _ _ _ _), fun n => ?_, fun r => ?_, ?_⟩
  · rw [w.framer_transmit, if_neg (by simp), b3 _ (by simp), a2 n (List.mem_finRange n)]
  · rw [w.framer_transmit, if_neg (by simp), b2 r (List.mem_finRange r), a3 _ (by simp)]
  · rw [w.framer_transmit, if_pos rfl, b3 _ (by simp), a3 _ (by simp), hs]

/-! ## The Combiner and the whole of frame work -/

/-- What the Combiner hands over at a boundary: a release, or a hold (R43, R44). -/
theorem State.combine_cases (s : State) :
    let t := s.now - BitVec.ofNat 32 s.settings.alignment
    let v := s.setDelay
    (s.comb.last = none ∧ s.combine = (v.release t, v.releasedUplink t 0)) ∨
    (∃ l, s.comb.last = some l ∧ isAfter t l = true ∧ s.combine = (v.release t, v.releasedUplink t (t - l - 1).toNat)) ∨
    (∃ l, s.comb.last = some l ∧ isAfter t l = false ∧ s.combine = (v, holdUplink l)) := by
  intro t v
  have hd : s.combine = match s.comb.last with
    | none => (v.release t, v.releasedUplink t 0)
    | some l =>
      if isAfter t l then (v.release t, v.releasedUplink t (t - l - 1).toNat) else (v, holdUplink l) := rfl
  rw [hd]
  split
  · exact .inl ⟨‹_›, rfl⟩
  · rename_i l hl
    cases h : isAfter t l
    · exact .inr (.inr ⟨l, hl, h, by simp⟩)
    · exact .inr (.inl ⟨l, hl, h, by simp⟩)

/-- The Combiner changes the Combiner and the Meter alone. -/
theorem State.combine_frame (s : State) :
    s.combine.1 = { s with comb := s.combine.1.comb, meter := s.combine.1.meter } := by
  rcases s.combine_cases with ⟨_, h⟩ | ⟨_, _, _, h⟩ | ⟨_, _, _, h⟩ <;> rw [h] <;> rfl

/-- The blocks' work at a boundary: first what falls at it, then frame work. -/
theorem State.actBoundary_work (s : State) (h : s.boundary.acting = true) :
    ∃ u, Spares (s.setActing false) u ∧ s.actBoundary = u.frameWork := by
  refine ⟨_, ?_, by unfold State.actBoundary; rw [if_pos h]⟩
  exact ((State.takeDue_spares _ _ _ fun s => s.switchFalls_spares).trans
    (State.takeDue_spares _ _ _ fun s => s.rampStep_spares)).trans (State.startSenders_spares _)

/-- Frame work, in its three parts. -/
theorem State.frameWork_parts (s : State) : ∃ v up down tap, (s.distribute s.oldestFrames).combine = (v, up) ∧
    s.frameWork = v.noteWeights.transmitAll down up tap ∧ (∀ r, down.get r = s.downLanes s.oldestFrames r) ∧
    tap = s.tapLane s.oldestFrames up := by
  refine ⟨(s.distribute s.oldestFrames).combine.1, (s.distribute s.oldestFrames).combine.2,
    Tab.ofFn (s.downLanes s.oldestFrames), s.tapLane s.oldestFrames (s.distribute s.oldestFrames).combine.2,
    Eq.refl _, ?_, fun r => Tab.get_ofFn _ _, Eq.refl _⟩
  unfold State.frameWork
  rfl

end Sys2Proof.Machine
end

