-- ==== Sys2Proof/Laws/LinkEvents.lean ====
section
/-! SUPPORT. What the events of one link leave as it was, operation by operation (`LinkEvent`). -/

namespace Sys2Proof.Machine

theorem LinkEvent.refl (l : Link) (s : State) : LinkEvent l s s :=
  ⟨rfl, rfl, rfl, rfl, rfl, rfl, rfl, rfl, fun _ _ => rfl, rfl, rfl, rfl, rfl, fun _ _ => rfl, fun _ => ⟨rfl, rfl⟩, fun _ _ => ⟨rfl, rfl, rfl, rfl, rfl⟩, fun _ => rfl, fun _ => rfl, rfl, rfl⟩

theorem LinkEvent.trans {l : Link} {s t u : State} (h : LinkEvent l s t) (k : LinkEvent l t u) : LinkEvent l s u where
  pending := k.pending.trans h.pending
  loader := k.loader.trans h.loader
  settings := k.settings.trans h.settings
  meter := k.meter.trans h.meter
  map := k.map.trans h.map
  engine := k.engine.trans h.engine
  spreader := k.spreader.trans h.spreader
  store := k.store.trans h.store
  framers := fun x hx => (k.framers x hx).trans (h.framers x hx)
  clock := by rw [k.clock, h.clock]
  dist := by rw [k.dist, h.dist]
  comb := by rw [k.comb, h.comb]
  sup := by rw [k.sup, h.sup]
  donors := fun n hn => (k.donors n hn).trans (h.donors n hn)
  reference := fun hl => ⟨(k.reference hl).1.trans (h.reference hl).1, (k.reference hl).2.trans (h.reference hl).2⟩
  ports := fun r hr => ⟨(k.ports r hr).1.trans (h.ports r hr).1, (k.ports r hr).2.1.trans (h.ports r hr).2.1, (k.ports r hr).2.2.1.trans (h.ports r hr).2.2.1, (k.ports r hr).2.2.2.1.trans (h.ports r hr).2.2.2.1, (k.ports r hr).2.2.2.2.trans (h.ports r hr).2.2.2.2⟩
  events := fun hl => by rw [k.events hl, h.events hl]
  offer := fun hl => (k.offer hl).trans (h.offer hl)
  tap := k.tap.trans h.tap
  acting := k.acting.trans h.acting

theorem State.modFramer_linkEvent (s : State) (l : Link) (f : Framer → Framer) : LinkEvent l s (s.modFramer l f) := by
  refine ⟨by simp, by simp, by simp, by simp, by simp, by simp, by simp, by simp, fun k hk => ?_, by simp, by simp, by simp, by simp, fun _ _ => by simp, fun _ => by simp, fun r _ => ⟨by simp, by simp, by simp, ?_, by simp⟩, fun _ => by simp, fun _ => by simp, by simp, by simp⟩
  · rw [s.framer_modFramer, if_neg (Ne.symm hk)]
  · cases l <;> rfl

theorem State.unDue_linkEvent (s : State) (l : Link) (e : Due) : LinkEvent l s (s.unDue e) :=
  ⟨rfl, rfl, rfl, rfl, rfl, rfl, rfl, rfl, fun k _ => by cases k <;> rfl, rfl, rfl, rfl, rfl, fun _ _ => rfl, fun _ => ⟨rfl, rfl⟩, fun _ _ => ⟨rfl, rfl, rfl, rfl, rfl⟩, fun _ => rfl, fun _ => rfl, rfl, rfl⟩

theorem State.markDue_linkEvent (s : State) (l : Link) (e : Due) : LinkEvent l s (s.markDue e) := by
  unfold State.markDue
  split
  · exact LinkEvent.refl l s
  · exact ⟨rfl, rfl, rfl, rfl, rfl, rfl, rfl, rfl, fun k _ => by cases k <;> rfl, rfl, rfl, rfl, rfl, fun _ _ => rfl, fun _ => ⟨rfl, rfl⟩, fun _ _ => ⟨rfl, rfl, rfl, rfl, rfl⟩, fun _ => rfl, fun _ => rfl, rfl, rfl⟩

/-- donor-only changes -/
theorem EventQueue.post_offer (q : EventQueue) (k x t d f) : (q.post k x t d f).offer = q.offer := by
  unfold EventQueue.post
  split
  · rfl
  · split
    · rfl
    · split <;> rfl

theorem LinkEvent.of_donor (s t : State) (n : DonorId) (h : t = { s with clock := { s.clock with reference := t.clock.reference }, dist := { s.dist with donors := t.dist.donors }, events := t.events, svc := t.svc, boundary := { s.boundary with due := t.boundary.due } })
   (d : ∀ m, m ≠ n → t.dist.donors.get m = s.dist.donors.get m) (p : t.svc.pass = s.svc.pass) (tp : t.svc.tap = s.svc.tap) (o : t.events.offer = s.events.offer) : LinkEvent (.donor n) s t := by
  have g : ∀ {β : Type} (f : State → β), f t = _ := fun f => congrArg f h
  exact ⟨g (·.pending), g (·.loader), g (·.settings), g (·.meter), g (·.map), g (·.engine), g (·.spreader), g (·.store), fun k _ => State.framer_congr (g (·.links)) k, g (·.clock), g (·.dist), by have := g (·.comb); simp only at this; rw [this], by have := g (·.sup); simp only at this; rw [this], fun m hm => d m (fun e => hm (e ▸ rfl)), fun hl => absurd rfl (hl n), fun r _ => ⟨g (·.comb.queues.get r), g (·.comb.counters.get r), g (·.comb.window.get r), g (·.sup.records.get r), by rw [p]⟩, fun hl => absurd rfl (hl n), fun _ => o, tp, g (·.boundary.acting)⟩

theorem State.selectReference_linkEvent (s : State) (n : DonorId) : LinkEvent (.donor n) s s.selectReference := by
  unfold State.selectReference
  split
  · exact LinkEvent.refl _ s
  · split
    · exact LinkEvent.of_donor _ _ n rfl (fun _ _ => rfl) rfl rfl (EventQueue.post_offer ..)
    · exact LinkEvent.refl _ s

theorem State.loseReference_linkEvent (s : State) (n : DonorId) : LinkEvent (.donor n) s (s.loseReference n) := by
  unfold State.loseReference
  split
  · exact LinkEvent.of_donor _ _ n rfl (fun _ _ => rfl) rfl rfl (EventQueue.post_offer ..)
  · exact LinkEvent.refl _ s

theorem State.donorLocked_linkEvent (s : State) (n : DonorId) : LinkEvent (.donor n) s (s.donorLocked n) := by
  unfold State.donorLocked
  simp only
  have h : LinkEvent (.donor n) s ((s.modDonor n fun _ => ⟨none, false, false⟩).unDue (.donorGrace n)) :=
    LinkEvent.of_donor _ _ n rfl (fun m hm => by simp [State.modDonor, State.unDue, Tab.get_modify_ne _ _ (Ne.symm hm)]) rfl rfl rfl
  split
  · exact h.trans (LinkEvent.of_donor _ _ n rfl (fun _ _ => rfl) rfl rfl (EventQueue.post_offer ..))
  · exact h

theorem State.removeRequests_linkEvent (s : State) (n : DonorId) : LinkEvent (.donor n) s (s.removeRequests n) :=
  LinkEvent.of_donor _ _ n rfl (fun _ _ => rfl) rfl rfl rfl

theorem State.startGrace_linkEvent (s : State) (n : DonorId) :
    LinkEvent (.donor n) s ((s.modDonor n fun d => { d with timer := some 0 }).unDue (.donorGrace n)) :=
  LinkEvent.of_donor _ _ n rfl
    (fun m hm => by simp [State.modDonor, State.unDue, Tab.get_modify_ne _ _ (Ne.symm hm)]) rfl rfl rfl

theorem State.donorUnlocked_linkEvent (s : State) (n : DonorId) : LinkEvent (.donor n) s (s.donorUnlocked n) :=
  ((s.loseReference_linkEvent n).trans (State.startGrace_linkEvent _ n)).trans (State.removeRequests_linkEvent _ n)

theorem LinkEvent.of_remote (s t : State) (r : RemoteId) (h : t = { s with links := t.links, comb := { s.comb with queues := t.comb.queues, counters := t.comb.counters, window := t.comb.window }, sup := { s.sup with records := t.sup.records }, svc := t.svc, boundary := { s.boundary with due := t.boundary.due } })
   (f : ∀ k, k ≠ .remote r → t.framer k = s.framer k)
   (d : ∀ x, x ≠ r → t.comb.queues.get x = s.comb.queues.get x ∧ t.comb.counters.get x = s.comb.counters.get x ∧ t.comb.window.get x = s.comb.window.get x ∧ t.supRec x = s.supRec x ∧ t.svc.pass.get x = s.svc.pass.get x) (i : t.svc.input = s.svc.input) (tp : t.svc.tap = s.svc.tap) : LinkEvent (.remote r) s t := by
  have g : ∀ {β : Type} (f : State → β), f t = _ := fun f => congrArg f h
  exact ⟨g (·.pending), g (·.loader), g (·.settings), g (·.meter), g (·.map), g (·.engine), g (·.spreader), g (·.store), f, (by have := g (·.clock); simp only at this; rw [this]), (by have := g (·.dist); simp only at this; rw [this]), g (·.comb), g (·.sup), fun m _ => g (·.dist.donors.get m), fun _ => ⟨g (·.clock), i⟩, fun x hx => d x (fun e => hx (e ▸ rfl)), fun _ => (by have := g (·.events); simp only at this; rw [this]), fun _ => g (·.events.offer), tp, g (·.boundary.acting)⟩

theorem State.setQueue_linkEvent (s : State) (r : RemoteId) (q) : LinkEvent (.remote r) s (s.setQueue r q) :=
  LinkEvent.of_remote _ _ r rfl (fun k _ => State.framer_congr rfl k) (fun _ hx => ⟨Tab.get_set_ne _ _ (Ne.symm hx), rfl, rfl, rfl, rfl⟩) rfl rfl

theorem State.modSup_linkEvent (s : State) (r : RemoteId) (f) : LinkEvent (.remote r) s (s.modSup r f) :=
  LinkEvent.of_remote _ _ r rfl (fun k _ => State.framer_congr rfl k) (fun x hx => ⟨rfl, rfl, rfl, by rw [State.supRec_modSup, if_neg (Ne.symm hx)], rfl⟩) rfl rfl

theorem State.svc_linkEvent (s : State) (r : RemoteId) (v : Service) (h : ∀ x, x ≠ r → v.pass.get x = s.svc.pass.get x) (i : v.input = s.svc.input) (tp : v.tap = s.svc.tap) : LinkEvent (.remote r) s { s with svc := v } :=
  LinkEvent.of_remote _ _ r rfl (fun k _ => State.framer_congr rfl k) (fun x hx => ⟨rfl, rfl, rfl, rfl, h x hx⟩) i tp

theorem State.fillReserved_linkEvent (s : State) (r : RemoteId) (v p) : LinkEvent (.remote r) s (s.fillReserved v p) := by
  unfold State.fillReserved
  split
  · exact State.svc_linkEvent s r _ (fun _ _ => rfl) rfl rfl
  · exact LinkEvent.refl _ s

theorem State.setPass_linkEvent (s : State) (r : RemoteId) (p : Option Pass) :
    LinkEvent (.remote r) s (s.setPass r p) :=
  s.svc_linkEvent r _ (fun _ hx => Tab.get_set_ne _ _ (Ne.symm hx)) rfl rfl

theorem State.setRefused_linkEvent (s : State) (r : RemoteId) (ms : List Relayed) :
    LinkEvent (.remote r) s (s.setRefused r ms) := s.svc_linkEvent r _ (fun _ _ => rfl) rfl rfl

theorem State.withdraw_linkEvent (s : State) (r : RemoteId) : LinkEvent (.remote r) s (s.withdraw r) :=
  (s.modFramer_linkEvent (.remote r) _).trans (State.setRefused_linkEvent _ _ _)

theorem State.endPass_linkEvent (s : State) (r : RemoteId) (st : Status) (b : List Byte) :
    LinkEvent (.remote r) s (s.endPass r st b) := by
  unfold State.endPass
  split
  · exact ((((s.fillReserved_linkEvent r _ _).trans (State.setPass_linkEvent _ _ _)).trans
      (State.withdraw_linkEvent _ _)).trans (State.unDue_linkEvent _ _ _)).trans (State.unDue_linkEvent _ _ _)
  · exact LinkEvent.refl _ s

theorem State.endSetRelay_linkEvent (s : State) (r : RemoteId) : LinkEvent (.remote r) s s.endSetRelay := by
  have drop : ∀ t : State, LinkEvent (.remote r) t { t with svc := { t.svc with setRelay := none } } :=
    fun t => t.svc_linkEvent r _ (fun _ _ => rfl) rfl rfl
  unfold State.endSetRelay
  split
  · split
    · exact (s.fillReserved_linkEvent r _ _).trans (drop _)
    · exact LinkEvent.refl _ s
  · exact LinkEvent.refl _ s

theorem State.leaveRemaining_linkEvent (s : State) (r : RemoteId) : LinkEvent (.remote r) s (s.leaveRemaining r) := by
  unfold State.leaveRemaining
  split
  · rename_i v _
    exact (s.svc_linkEvent r { s.svc with setRelay := some { v with remaining := v.remaining.erase r } }
      (fun _ _ => rfl) rfl rfl).trans (State.endSetRelay_linkEvent _ r)
  · exact LinkEvent.refl _ s

theorem State.remoteUnlocked_linkEvent (s : State) (r : RemoteId) : LinkEvent (.remote r) s (s.remoteUnlocked r) := by
  unfold State.remoteUnlocked State.relayLinkLost State.abortPass
  exact ((((((State.setQueue_linkEvent s r _).trans (State.modSup_linkEvent _ r _)).trans (State.unDue_linkEvent _ _ _)).trans (State.endPass_linkEvent _ _ _ _)).trans (State.setRefused_linkEvent _ r _))).trans (State.leaveRemaining_linkEvent _ r)

theorem State.remoteLocked_linkEvent (s : State) (r : RemoteId) : LinkEvent (.remote r) s (s.remoteLocked r) := by
  unfold State.remoteLocked
  simp only
  have h := (State.modSup_linkEvent s r fun v => { v with grace := none }).trans (State.unDue_linkEvent _ _ (.linkGrace r))
  split
  · exact h
  · exact h.trans ((State.modFramer_linkEvent _ (.remote r) _).trans (State.modSup_linkEvent _ r _))

theorem State.dropOffer_linkEvent (s : State) : LinkEvent .service s s.dropOffer :=
  ⟨rfl, rfl, rfl, rfl, rfl, rfl, rfl, rfl, fun k _ => by cases k <;> rfl, rfl, rfl, rfl, rfl, fun _ _ => rfl, fun _ => ⟨rfl, rfl⟩, fun _ _ => ⟨rfl, rfl, rfl, rfl, rfl⟩, fun _ => rfl, fun h => absurd rfl h, rfl, rfl⟩

theorem State.leaveLocked_linkEvent (s : State) (l : Link) : LinkEvent l s (s.leaveLocked l) := by
  unfold State.leaveLocked
  simp only
  have h : ∀ c : Bool, LinkEvent l s (if c then (s.modFramer l Framer.unlock).markDue .restart
      else s.modFramer l Framer.unlock) := by
    intro c
    cases c
    · exact State.modFramer_linkEvent _ _ _
    · exact (State.modFramer_linkEvent _ _ _).trans (State.markDue_linkEvent _ _ _)
  cases l
  · exact (h _).trans (State.donorUnlocked_linkEvent _ _)
  · exact (h _).trans (State.remoteUnlocked_linkEvent _ _)
  · exact (h _).trans (State.dropOffer_linkEvent _)

/-! ## What arrived before a loss of lock -/

/-- Two changes of one framer that agree on it change the state alike. -/
theorem State.modFramer_congr (s : State) (l : Link) {f g : Framer → Framer} (h : f (s.framer l) = g (s.framer l)) :
    s.modFramer l f = s.modFramer l g := by
  have tab : ∀ {n : Nat} (t : Tab n Framer) (i : Fin n), f (t.get i) = g (t.get i) → t.modify i f = t.modify i g :=
    fun t i e => Tab.ext_get fun j => by
      rw [Tab.get_modify, Tab.get_modify]
      split
      · subst_vars; exact e
      · rfl
  cases l with
  | donor n => simp only [State.modFramer, tab _ _ h]
  | remote r => simp only [State.modFramer, tab _ _ h]
  | service => simp only [State.modFramer, show f s.links.service = g s.links.service from h]

/-- A message that is waiting, which leaving LOCKED takes first. -/
def Message.takenFirst (l : Link) (m : Message) : Prop := ∀ r, l = .remote r → m.head.kind = kindStatus

/-- With no such message waiting there is nothing to take before the lock is lost. -/
theorem State.takeArrived_of_none (s : State) (l : Link) (h : ∀ m ∈ (s.framer l).handed, ¬m.takenFirst l) :
    s.takeArrived l = s := by
  have empty : (∀ r, l ≠ .remote r) → (s.framer l).handed = [] := fun k =>
    List.eq_nil_iff_forall_not_mem.2 fun m hm => h m hm fun r e => absurd e (k r)
  cases l with
  | remote r =>
    have h0 : (s.framer (.remote r)).handed.countP Message.isStatus = 0 :=
      List.countP_eq_zero.2 fun m hm e => h m hm fun _ _ => by simpa [Message.isStatus] using e
    simp only [State.takeArrived, h0, State.takeStatuses]
  | donor n => simp only [State.takeArrived, empty (fun _ e => nomatch e), List.length_nil, State.drainService]
  | service => simp only [State.takeArrived, empty (fun _ e => nomatch e), List.length_nil, State.drainService]

/-- A STATUS that is waiting is taken as its row takes it, and the rest after it; the framer's receive side stays but
for the message taken. -/
theorem State.takeArrived_status (s : State) (r : RemoteId) (before after : List Message) (m : Message)
    (h : (s.framer (.remote r)).handed = before ++ m :: after) (hm : m.head.kind = kindStatus)
    (hb : ∀ b ∈ before, b.head.kind ≠ kindStatus) :
    let u := s.modFramer (.remote r) fun f => { f with handed := before ++ after }
    let v := u.statusArrives r m.body
    s.takeArrived (.remote r) = v.takeArrived (.remote r) ∧
      (u.framer (.remote r)).SameReceive (v.framer (.remote r)) := by
  intro u v
  have hv := (u.statusArrives_spares r m.body).receive (.remote r)
  have hf : ∀ b ∈ before, ¬ b.isStatus = true := fun b hb' => by simpa [Message.isStatus] using hb b hb'
  have hs : m.isStatus = true := by simpa [Message.isStatus] using hm
  have hhand : (v.framer (.remote r)).handed = before ++ after := by
    rw [show v.framer (.remote r) = _ from hv]
    simp [u]
  have h0 : before.countP Message.isStatus = 0 := List.countP_eq_zero.2 hf
  have hfirst : s.takeWaitingStatus r = v := by
    have e1 : (s.framer (.remote r)).handed.find? Message.isStatus = some m := by
      rw [h, List.find?_append, List.find?_eq_none.2 hf]
      simp [hs]
    have e2 : (s.framer (.remote r)).handed.eraseP Message.isStatus = before ++ after := by
      rw [h, List.eraseP_append_right _ hf, List.eraseP_cons_of_pos hs]
    unfold State.takeWaitingStatus
    rw [e1]
    show State.statusArrives (s.modFramer (.remote r) _) r m.body = State.statusArrives _ r m.body
    congr 1
    exact State.modFramer_congr _ _ (by rw [e2])
  refine ⟨?_, hv⟩
  have c1 : (s.framer (.remote r)).handed.countP Message.isStatus = after.countP Message.isStatus + 1 := by
    rw [h, List.countP_append, h0, List.countP_cons_of_pos hs, Nat.zero_add]
  have c2 : (v.framer (.remote r)).handed.countP Message.isStatus = after.countP Message.isStatus := by
    rw [hhand, List.countP_append, h0, Nat.zero_add]
  simp only [State.takeArrived, c1, c2, State.takeStatuses, hfirst]

theorem State.loseLock_linkEvent (s : State) (l : Link) (next : RxState) (own : Framer → Framer) :
    LinkEvent l (s.takeArrived l) (s.loseLock l next own) :=
  (State.modFramer_linkEvent _ l _).trans (State.leaveLocked_linkEvent _ l)

theorem State.enterLocked_linkEvent (s : State) (l : Link) : LinkEvent l s (s.enterLocked l) := by
  unfold State.enterLocked
  simp only
  cases l
  · exact ((State.modFramer_linkEvent s _ _).trans (State.selectReference_linkEvent _ _)).trans
      (State.donorLocked_linkEvent _ _)
  · exact (State.modFramer_linkEvent s _ _).trans (State.remoteLocked_linkEvent _ _)
  · exact State.modFramer_linkEvent s _ _

theorem State.comb_linkEvent (s : State) (r : RemoteId) (c : Combiner) (h : c = { s.comb with queues := c.queues, counters := c.counters, window := c.window })
   (d : ∀ x, x ≠ r → c.queues.get x = s.comb.queues.get x ∧ c.counters.get x = s.comb.counters.get x ∧ c.window.get x = s.comb.window.get x) : LinkEvent (.remote r) s { s with comb := c } :=
  LinkEvent.of_remote _ _ r (by show ({s with comb := c} : State) = {s with comb := _}; exact congrArg (fun c => ({s with comb := c} : State)) h) (fun k _ => State.framer_congr rfl k) (fun x hx => ⟨(d x hx).1, (d x hx).2.1, (d x hx).2.2, rfl, rfl⟩) rfl rfl

theorem State.uplink_linkEvent (s : State) (r : RemoteId) (x) : LinkEvent (.remote r) s (s.uplinkArrives r x) := by
  unfold State.uplinkArrives State.classify
  simp only
  have cp : ∀ (s : State) f, LinkEvent (.remote r) s (s.countPort r f) := fun s f => State.comb_linkEvent s r _ rfl fun x hx => ⟨rfl, Tab.get_modify_ne _ _ (Ne.symm hx), rfl⟩
  have ae : ∀ (s : State) e, LinkEvent (.remote r) s (s.acceptEntry r e) := fun s e => State.comb_linkEvent s r _ rfl fun x hx => ⟨Tab.get_modify_ne _ _ (Ne.symm hx), rfl, Tab.get_set_ne _ _ (Ne.symm hx)⟩
  split
  · exact cp _ _
  · split
    · exact State.comb_linkEvent s r _ rfl fun x hx => ⟨rfl, Tab.get_modify_ne _ _ (Ne.symm hx), Tab.get_modify_ne _ _ (Ne.symm hx)⟩
    · split
      · exact cp _ _
      · split
        · exact ((State.setQueue_linkEvent _ _ _).trans (cp _ _)).trans (ae _ _)
        · exact ae _ _

theorem State.deliver_linkEvent (s : State) (l : Link) (x) : LinkEvent l s (s.deliver l x) := by
  unfold State.deliver State.takeSlot
  simp only
  cases l
  · exact ((State.modFramer_linkEvent s _ _).trans (State.modFramer_linkEvent _ _ _)).trans
      (State.modFramer_linkEvent _ _ _)
  · exact ((State.modFramer_linkEvent s _ _).trans (State.uplink_linkEvent _ _ _)).trans
      (State.modFramer_linkEvent _ _ _)
  · exact (State.modFramer_linkEvent s _ _).trans (State.modFramer_linkEvent _ _ _)

end Sys2Proof.Machine
end

