-- ==== Sys2Proof/Laws/Starts.lean ====
section
/-! SUPPORT. What the start of a single move or of a batch leaves (R74, R77, R81), in the terms of `Started`. -/

namespace Sys2Proof.Machine

/-- The target of a held remote is 0, in service or not (R31). -/
theorem State.targetOf_held {s : State} {r : RemoteId} (h : r ∈ s.engine.holdSet) : s.targetOf r = 0 := by
  unfold State.targetOf
  split
  · rfl
  · rw [if_pos (by simpa using h)]

/-- The ramp of a held remote after its recompute (R32). -/
def Ramp.held (p : Ramp) : Ramp := ⟨p.present, 0, decide (p.present = 0)⟩

/-- The state a FADE-OUT phase set stands for. -/
def fadeState (ps : List RemoteId) : EngineState := if ps = [] then .switchPending else .fadeOut

/-- A completion notice in FADE-OUT for a remote of the phase set (R77, R82). -/
theorem State.engineNotice_fadeOut {s : State} {r : RemoteId} (phase : r ∈ s.engine.phaseSet)
    (state : s.engine.state = .fadeOut) :
    s.engineNotice r = { s with engine :=
      let ps := s.engine.phaseSet.filter fun x => decide (x ≠ r)
      { s.engine with phaseSet := ps, state := fadeState ps } } := by
  unfold State.engineNotice State.leavePhase
  rw [if_pos (by simpa using phase)]
  by_cases he : (s.engine.phaseSet.filter fun x => decide (x ≠ r)) = []
  · simp only [he, List.isEmpty_nil, if_true, State.phaseDone, state, fadeState]
  · simp only
    rw [if_neg (by simpa [List.isEmpty_iff] using he)]
    simp only [fadeState, if_neg he, state]

/-- The notice for a held remote does not end a JOINING (R35, R125). -/
theorem State.completion_held {s : State} {r : RemoteId} (h : ((s.engineNotice r).supRec r).held = true) :
    s.completion r = s.engineNotice r := by
  unfold State.completion
  simp only [h, Bool.not_true, Bool.and_false, Bool.false_eq_true, if_false]

/-- The recompute of a held remote of the phase set in FADE-OUT (R32, R35, R77). -/
theorem State.recompute_held {s : State} {r : RemoteId} (hold : r ∈ s.engine.holdSet) (held : (s.supRec r).held = true)
    (phase : r ∈ s.engine.phaseSet) (state : s.engine.state = .fadeOut) :
    s.recompute r = { s with
      dist := { s.dist with ramps := s.dist.ramps.modify r Ramp.held }
      engine := if (s.ramp r).present = 0 then
          let ps := s.engine.phaseSet.filter fun x => decide (x ≠ r)
          { s.engine with phaseSet := ps, state := fadeState ps }
        else s.engine } := by
  have hb : s.beginRamp r = { s with dist := { s.dist with ramps := s.dist.ramps.modify r Ramp.held } } := by
    unfold State.beginRamp
    rw [State.targetOf_held hold]
    rfl
  have hd : ((s.beginRamp r).ramp r).done = decide ((s.ramp r).present = 0) := by
    rw [hb]
    simp only [State.ramp, Tab.get_modify_self]
    rfl
  unfold State.recompute
  simp only [hd]
  by_cases h0 : (s.ramp r).present = 0
  · have hn := State.engineNotice_fadeOut (s := s.beginRamp r) (r := r) (by rw [hb]; exact phase) (by rw [hb]; exact state)
    rw [if_pos (by simpa using h0), State.completion_held (by rw [hn, hb]; exact held), hn, hb, if_pos h0]
  · rw [if_neg (by simpa using h0), hb, if_neg h0]

/-- The recomputes of the held remotes of a FADE-OUT, one after another. -/
theorem State.recomputeAll_held (xs : List RemoteId) : ∀ (s : State), xs.Nodup →
    (∀ x ∈ xs, x ∈ s.engine.holdSet ∧ (s.supRec x).held = true ∧ x ∈ s.engine.phaseSet) →
    s.engine.state = fadeState s.engine.phaseSet →
    let ps := s.engine.phaseSet.filter fun x => !(xs.contains x && decide ((s.ramp x).present = 0))
    let t := s.recomputeAll xs
    t.engine = { s.engine with phaseSet := ps, state := fadeState ps } ∧
    (∀ r, t.ramp r = if r ∈ xs then (s.ramp r).held else s.ramp r) ∧
    t = { s with engine := t.engine, dist := { s.dist with ramps := t.dist.ramps } } := by
  induction xs with
  | nil =>
    intro s _ _ hs ps t
    have hp : ps = s.engine.phaseSet := List.filter_eq_self.2 fun x _ => by simp
    refine ⟨?_, fun r => by simp [t, State.recomputeAll], rfl⟩
    rw [hp, ← hs]
    rfl
  | cons x xs ih =>
    intro s hn hx hs ps t
    obtain ⟨h1, h2, h3⟩ := hx x (by simp)
    have hst : s.engine.state = .fadeOut := by
      rw [hs, fadeState, if_neg (List.ne_nil_of_mem h3)]
    have hrec := s.recompute_held h1 h2 h3 hst
    set u := s.recompute x with hu
    have ht : t = u.recomputeAll xs := rfl
    have hur : ∀ r, u.ramp r = if r = x then (s.ramp x).held else s.ramp r := fun r => by
      rw [hrec]
      simp only [State.ramp, Tab.get_modify]
      by_cases h : r = x
      · simp [h]
      · rw [if_neg h, if_neg (fun q => h q.symm)]
    have hup : ∀ r, (u.ramp r).present = (s.ramp r).present := fun r => by
      rw [hur]; split
      · rename_i h; rw [h]; rfl
      · rfl
    have hue : u.engine = if (s.ramp x).present = 0 then
          let ps := s.engine.phaseSet.filter fun y => decide (y ≠ x)
          { s.engine with phaseSet := ps, state := fadeState ps }
        else s.engine := by rw [hrec]
    have huh : u.engine.holdSet = s.engine.holdSet := by rw [hue]; split <;> rfl
    have hus : ∀ r, u.supRec r = s.supRec r := fun r => State.supRec_congr (by rw [hrec]) r
    have hphase : ∀ y, y ∈ u.engine.phaseSet ↔ y ∈ s.engine.phaseSet ∧ ¬(y = x ∧ (s.ramp x).present = 0) := fun y => by
      rw [hue]
      by_cases h0 : (s.ramp x).present = 0
      · simp [h0]
      · simp [h0]
    have hstate : u.engine.state = fadeState u.engine.phaseSet := by
      rw [hue]
      by_cases h0 : (s.ramp x).present = 0
      · simp [h0]
      · simpa [h0] using hs
    obtain ⟨k1, k2, k3⟩ := ih u (List.nodup_cons.1 hn).2 (fun y hy => by
      obtain ⟨a, b, c⟩ := hx y (List.mem_cons_of_mem _ hy)
      refine ⟨by rwa [huh], by rwa [hus], (hphase y).2 ⟨c, fun q => ?_⟩⟩
      exact (List.nodup_cons.1 hn).1 (q.1 ▸ hy)) hstate
    have hps : (u.engine.phaseSet.filter fun y => !(xs.contains y && decide ((u.ramp y).present = 0))) = ps := by
      have : u.engine.phaseSet = s.engine.phaseSet.filter fun y => !(decide (y = x) && decide ((s.ramp x).present = 0)) := by
        rw [hue]
        by_cases h0 : (s.ramp x).present = 0
        · simp [h0]
        · simp [h0]
      rw [this, List.filter_filter]
      refine List.filter_congr fun y _ => ?_
      rw [hup]
      by_cases hy : y = x
      · subst hy
        by_cases h0 : (s.ramp y).present = 0 <;> simp [h0]
      · simp [hy]
    refine ⟨?_, fun r => ?_, ?_⟩
    · rw [ht, k1, hps, hue]
      split <;> rfl
    · rw [ht, k2, hur]
      have hnx : x ∉ xs := (List.nodup_cons.1 hn).1
      by_cases hr : r = x
      · subst hr; simp [hnx]
      · simp [hr]
    · rw [ht, k3, hrec]

/-- Holding several remotes not yet held (R77, R81). -/
theorem State.holdAll (xs : List RemoteId) : ∀ (s : State), xs.Nodup → (∀ x ∈ xs, x ∉ s.engine.holdSet) →
    let t := xs.foldl State.holdRemote s
    t.engine = { s.engine with holdSet := s.engine.holdSet ++ xs } ∧
    (∀ r, t.supRec r = if r ∈ xs then { s.supRec r with held := true } else s.supRec r) ∧
    t = { s with engine := t.engine, sup := { s.sup with records := t.sup.records } } := by
  induction xs with
  | nil => intro s _ _; exact ⟨by simp, fun r => by simp, rfl⟩
  | cons x xs ih =>
    intro s hn hx t
    have h1 : s.holdRemote x =
        ({ s with engine := { s.engine with holdSet := s.engine.holdSet ++ [x] } } : State).modSup x
          fun v => { v with held := true } := by
      unfold State.holdRemote
      rw [if_neg (by simpa using hx x (by simp))]
      rfl
    obtain ⟨hnx, hn⟩ := List.nodup_cons.1 hn
    obtain ⟨k1, k2, k3⟩ := ih (s.holdRemote x) hn (fun y hy => by
      rw [h1]
      simp only [State.modSup_engine, List.mem_append, List.mem_singleton, not_or]
      exact ⟨hx y (List.mem_cons_of_mem _ hy), fun q => hnx (q ▸ hy)⟩)
    have ht : t = xs.foldl State.holdRemote (s.holdRemote x) := rfl
    refine ⟨?_, fun r => ?_, ?_⟩
    · rw [ht, k1, h1]; simp
    · rw [ht, k2, h1, State.supRec_modSup]
      have e : State.supRec { s with engine := { s.engine with holdSet := s.engine.holdSet ++ [x] } } r = s.supRec r := rfl
      rw [e]
      by_cases hr : x = r
      · subst hr; simp [hnx]
      · have hr' : ¬r = x := fun q => hr q.symm
        simp [hr, hr']
    · rw [ht, k3, h1]
      rfl

/-- The start of a move in an IDLE engine, by its record and pending map. -/
theorem State.start_started (s : State) (m : MoveRecord) (p : Option PlanMap) (hn : m.fading.Nodup) :
    let st : EngineState := if m.fading.isEmpty then .switchPending else .fadeOut
    let u : State := { s with engine := ⟨st, some m, m.fading, [], p⟩ }
    Started m p s ((m.fading.foldl State.holdRemote u).recomputeAll m.fading) := by
  intro st u
  obtain ⟨h1, h2, h3⟩ := State.holdAll m.fading u hn (by simp [u])
  set w := m.fading.foldl State.holdRemote u with hw
  have he : w.engine = ⟨st, some m, m.fading, m.fading, p⟩ := by rw [h1]; simp [u]
  have hst : st = fadeState m.fading := by
    simp only [st, fadeState, List.isEmpty_iff]
  obtain ⟨k1, k2, k3⟩ := State.recomputeAll_held m.fading w hn (fun x hx => by
    rw [he, h2, if_pos hx]
    exact ⟨hx, rfl, hx⟩) (by rw [he]; exact hst)
  have hr : ∀ r, w.ramp r = s.ramp r := fun r => by rw [h3]; rfl
  have hps : (m.fading.filter fun x => !(m.fading.contains x && decide ((w.ramp x).present = 0))) =
      m.fading.filter fun x => decide ((s.ramp x).present ≠ 0) := by
    refine List.filter_congr fun x hx => ?_
    rw [hr]
    simp [hx]
  refine ⟨?_, fun r => ?_, fun r => ?_, ?_⟩
  · rw [k1, he]
    simp only
    rw [hps]
    simp only [fadeState]
    congr 1
    simp [List.filter_eq_nil_iff]
  · rw [k2, hr]; rfl
  · rw [State.supRec_congr (s := w) (by rw [k3]), h2]; rfl
  · have h3' : w.dist = s.dist := by rw [h3]
    rw [k3]
    simp only
    rw [h3]

/-- A single move that the engine takes (R77). -/
theorem State.startSingle_started {s : State} (h : s.engine.state = .idle) (k : MoveKind) (r : RemoteId) (y : SectorId) :
    (s.startSingle k r y).2 = true ∧
      Started ⟨k, none, [⟨r, s.sectorOf r, .sector y⟩], s.now, none, none, [r]⟩ none s (s.startSingle k r y).1 := by
  unfold State.startSingle
  rw [if_pos (by simp [State.engineIdle, h])]
  exact ⟨rfl, s.start_started ⟨k, none, [⟨r, s.sectorOf r, .sector y⟩], s.now, none, none, [r]⟩ none (by simp)⟩

/-- A batch that the engine takes (R81, R111, R112). -/
theorem State.startCutOver_started {s : State} (h : s.engine.state = .idle) (p : PlanId) :
    (s.startCutOver p).2 = true ∧
      Started (s.batchTo p) (some ⟨(s.store.plans.get p).remotes, (s.store.plans.get p).sectors⟩) s
        (s.startCutOver p).1 := by
  unfold State.startCutOver State.startBatch
  simp only
  rw [if_pos (by simp [State.engineIdle, h])]
  have hm : s.batchTo p = ⟨.batch, some p,
      ((List.finRange 16).filter fun r => changedRemote (s.live r) ((s.store.plans.get p).remotes.get r)).map fun r =>
        ⟨r, s.sectorOf r, ((s.store.plans.get p).remotes.get r).dest⟩, s.now, none, none,
      ((List.finRange 16).filter fun r =>
        changedRemote (s.live r) ((s.store.plans.get p).remotes.get r)).filter s.serviced⟩ := by
    have hc : (fun r => changedRemote (s.live r) ((s.store.plans.get p).remotes.get r)) = fun r =>
        decide ((s.live r).configured ≠ ((s.store.plans.get p).remotes.get r).configured) ||
          ((s.live r).configured && ((s.store.plans.get p).remotes.get r).configured &&
            decide ((s.live r).sector ≠ ((s.store.plans.get p).remotes.get r).sector)) := by
      funext r
      unfold changedRemote
      cases (s.live r).configured <;> cases ((s.store.plans.get p).remotes.get r).configured <;> simp
    have hd : (fun r => (⟨r, s.sectorOf r, ((s.store.plans.get p).remotes.get r).dest⟩ : Place)) = fun r =>
        ⟨r, s.sectorOf r, match ((s.store.plans.get p).remotes.get r).configured,
            ((s.store.plans.get p).remotes.get r).sector with
          | false, _ => .unconfigured
          | true, none => .none
          | true, some x => .sector x⟩ := by
      funext r
      unfold RemoteEntry.dest
      cases ((s.store.plans.get p).remotes.get r).configured <;>
        cases ((s.store.plans.get p).remotes.get r).sector <;> rfl
    unfold State.batchTo
    rewrite [hc, hd]
    rfl
  rw [hm]
  exact ⟨rfl, s.start_started _ (some ⟨_, _⟩) (((List.nodup_finRange 16).filter _).filter _)⟩

end Sys2Proof.Machine
end

