-- ==== Sys2Proof/WellFormed.lean ====
section
/-! DEFINITION. Which command terms name something that can reach the part: the shapes of 12.1 and 12.3
that the types alone do not fix. -/

namespace Sys2Proof

/-- Lanes of a received frame by link kind: 3 carrier slots, 6 lanes or 1 lane (12.1). -/
def Link.lanes : Link → Nat
  | .donor _ => 3
  | .remote _ => 6
  | .service => 1

/-- Lane map bytes by link kind: remote frames alone carry them (12.1). -/
def Link.mapBytes : Link → Nat
  | .remote _ => 6
  | _ => 0

/-- A branch has at most 2,048 samples (Conventions). -/
def Branch.wf (b : Branch) : Bool := decide (b.length ≤ 2048)

/-- Both branches of the lane are well formed. -/
def Lane.wf (l : Lane) : Bool := Branch.wf l.a && Branch.wf l.b

/-- The frame has the shape of its link kind (12.1). -/
def LinkFrame.wf (l : Link) (f : LinkFrame) : Bool :=
  decide (f.slot.length = 16) && decide (f.map.length = l.mapBytes) &&
    decide (f.lanes.length = l.lanes) && f.lanes.all Lane.wf

/-- The parts of a raw plan have the lengths of 12.3. -/
def RawPlan.wf (p : RawPlan) : Bool :=
  decide (p.head.length = 19) && p.remotes.items.all (fun e => decide (e.length = 19)) &&
    p.sectors.items.all (fun e => decide (e.length = 6))

/-- The records of a raw image have the lengths of 12.3. -/
def RawImage.wf (m : RawImage) : Bool :=
  m.carriers.items.all (fun e => decide (e.length = 9)) && m.plans.items.all RawPlan.wf &&
    decide (m.label.length = 33)

/-- The read of the memory is well formed. -/
def ImageRead.wf : ImageRead → Bool
  | .image _ _ fields => fields.wf
  | _ => true

/-- The command is one that can reach the part. Every other operand is bounded by its type. -/
def Instr.wf : Instr → Bool
  | .goodFrame l f => f.wf l
  | .erroredFrame l f => f.wf l
  | .imageReadEnd read => read.wf
  | _ => true

end Sys2Proof
end

