-- ==== Sys2Proof/Tests/Slice0.lean ====
section
/-! SUPPORT. Tests by evaluation: the smoke test of WellFormed, the manual's worked values, and a witness for the
hypotheses of every statement that has some. Expected values are the manual's, by hand from its rules. -/

namespace Sys2Proof.Tests

set_option Elab.async false

open Sys2Proof Sys2Proof.Machine

/-! ## WellFormed refuses what cannot reach the part (12.1, 12.3) -/

/-- A good frame of the shape of a remote link. -/
def frame (n : BitVec 16) (flag : Byte) (slot : List Byte) : LinkFrame :=
  sealed ⟨0, n, 0, flag, slot, List.replicate 6 0xFF, List.replicate 6 ⟨[], []⟩, 0⟩

/-- A good frame of the shape of a donor link. -/
def donorFrame (n : BitVec 16) : LinkFrame :=
  sealed ⟨0, n, 0, 0, List.replicate 16 0, [], List.replicate 3 ⟨[], []⟩, 0⟩

/-- What stands at a frame position without a delimiter. -/
def noFrame : LinkFrame := ⟨0, 0, 0, 0, List.replicate 16 0, List.replicate 6 0xFF, List.replicate 6 ⟨[], []⟩, 0⟩

/-- A frame whose check does not fit its bytes. -/
def damaged (n : BitVec 16) : LinkFrame := { frame n 0 (List.replicate 16 0) with check := (frame n 0 (List.replicate 16 0)).check + 1 }

/-- Sixteen zero bytes: the slot of an IDLE frame. -/
def zeros : List Byte := List.replicate 16 0

/-- A raw image of the right shape. -/
def rawImage (carrier head entry sector label : Nat) : RawImage :=
  ⟨Tab.const 25 0, Tab.const 12 (List.replicate carrier 0),
    Tab.const 4 ⟨List.replicate head 0, Tab.const 16 (List.replicate entry 0), Tab.const 8 (List.replicate sector 0)⟩,
    0, List.replicate label 0⟩

theorem test_wf_accepts_a_frame : (Instr.goodFrame (.remote 3) (frame 0 0 zeros)).wf = true := by decide
theorem test_wf_refuses_a_short_slot : (Instr.goodFrame (.remote 3) (frame 0 0 [])).wf = false := by decide
theorem test_wf_refuses_a_missing_map :
    (Instr.goodFrame (.remote 3) { frame 0 0 zeros with map := [] }).wf = false := by decide
theorem test_wf_refuses_a_missing_lane : (Instr.goodFrame .service (frame 0 0 zeros)).wf = false := by decide
theorem test_wf_refuses_remote_lanes_on_a_donor_link :
    (Instr.goodFrame (.donor 1) { frame 0 0 zeros with map := [] }).wf = false := by decide
theorem test_wf_refuses_a_long_branch :
    ∀ x : Sample, Lane.wf ⟨List.replicate 2049 x, []⟩ = false := by
  intro x
  unfold Lane.wf Branch.wf
  rw [List.length_replicate]
  rfl
theorem test_wf_refuses_a_short_errored_frame :
    (Instr.erroredFrame (.remote 3) { noFrame with slot := [] }).wf = false := by decide
theorem test_wf_accepts_an_errored_frame : (Instr.erroredFrame (.remote 3) noFrame).wf = true := by decide

/-- R1, R4, R169: what the framer sends is a good frame; a position without a delimiter and one whose check fails
are errored, and a frame was present in the second alone. -/
theorem test_good_and_errored (n : BitVec 16) : isGood (frame n 0 zeros) = true ∧ isGood (donorFrame n) = true ∧
    isGood noFrame = false ∧ isPresent noFrame = false ∧ isGood (damaged n) = false ∧ isPresent (damaged n) = true := by
  have other : ∀ c : BitVec 32, c + 1 ≠ c := by intro c h; bv_omega
  exact ⟨isGood_sealed _, isGood_sealed _, rfl, rfl, isGood_damaged _ _ (other _), rfl⟩

theorem test_wf_accepts_an_image : (Instr.imageReadEnd (.image [] 0 (rawImage 9 19 19 6 33))).wf = true := by decide
theorem test_wf_refuses_a_carrier_record : (Instr.imageReadEnd (.image [] 0 (rawImage 8 19 19 6 33))).wf = false := by decide
theorem test_wf_refuses_a_plan_header : (Instr.imageReadEnd (.image [] 0 (rawImage 9 18 19 6 33))).wf = false := by decide
theorem test_wf_refuses_a_remote_entry : (Instr.imageReadEnd (.image [] 0 (rawImage 9 19 20 6 33))).wf = false := by decide
theorem test_wf_refuses_a_sector_entry : (Instr.imageReadEnd (.image [] 0 (rawImage 9 19 19 5 33))).wf = false := by decide
theorem test_wf_refuses_a_label : (Instr.imageReadEnd (.image [] 0 (rawImage 9 19 19 6 32))).wf = false := by decide

/-! ## The manual's worked values -/

/-- R11, worked expansion. -/
theorem test_expansion : expand 70000 65530 = 65530 ∧ expand 65530 5 = 65541 ∧ expand 65540 2 = 65538 ∧
    expand 4294967290 3 = 3 := by decide

/-- R26, the ends of the half sum. -/
theorem test_half_sum : halfSum 32767 32767 = 32767 ∧ halfSum (-32768) (-32768) = -32768 ∧
    halfSum 10000 3000 = 6500 ∧ halfSum (-2000) (-2001) = -2000 := by decide

/-- R27, the table of gain products and their clips. -/
theorem test_gain_product : sat16 (gainProduct 10000 512 384) = 7500 ∧ sat16 (gainProduct (-3) 512 256) = -1 ∧
    sat16 (gainProduct (-32768) 512 512) = -32768 ∧ sat16 (gainProduct 30000 1023 1023) = 32767 ∧
    sat16 (gainProduct (-20000) 1023 700) = -32768 ∧ clipped (gainProduct 30000 1023 1023) = true ∧
    clipped (gainProduct (-32768) 512 512) = false := by decide

/-- 2.3, worked example: lane 1, a single-branch carrier under FOLD-B at gain factor 0.9375. -/
theorem test_fold_of_one_branch : (mapDown .foldB false [⟨-1001, 4000⟩] []).b.map
    (fun x => sat16 (gainProduct x.i 640 384)) = [-938] := by decide

/-- R31 and R129: the thermal target of base gain 512. -/
theorem test_thermal_target : thermalTarget 512 = 384 := by decide

/-- R33: written ramp steps. -/
theorem test_ramp_step_values : rampStepOf 0 = 1 ∧ rampStepOf 33 = 32 ∧ rampStepOf 31 = 16 ∧ rampStepOf 3 = 2 := by decide

/-- R33: a step goes no further than the target. -/
theorem test_ramp_step : (⟨509, 512, false⟩ : Ramp).step 8 = ⟨512, 512, true⟩ ∧
    (⟨512, 0, false⟩ : Ramp).step 8 = ⟨504, 0, false⟩ ∧ (⟨5, 0, false⟩ : Ramp).step 8 = ⟨0, 0, true⟩ := by decide

/-- R61, the worked levels' mean powers, and the first levels. -/
theorem test_levels : levelOfPower 1000000 = 80 ∧ levelOfPower 250000 = 72 ∧ levelOfPower 2147483648 = 125 ∧
    levelOfPower 2 = 5 ∧ levelOfPower 3 = 7 ∧ levelOfPower 25 = 19 ∧ levelOfPower 0 = 0 ∧ levelOfPower 1 = 1 := by decide

/-- R53: a single contributor at unity weight and headroom 0 comes out as it went in. -/
theorem test_unity_sum : sumBranch 0 [(2048, [⟨1234, -567⟩])] = [⟨1234, -567⟩] := by decide

/-- R53: the table of headroom: two full-scale contributors fit at headroom 1 and clip at 0. -/
theorem test_headroom : sumBranch 1 [(2048, [⟨32767, 0⟩]), (2048, [⟨32767, 0⟩])] = [⟨32767, 0⟩] ∧
    sumClips 0 [(2048, [⟨32767, 0⟩]), (2048, [⟨32767, 0⟩])] = 1 := by decide

/-- R154: settings clamp to the nearest end of their ranges. -/
theorem test_settings_clamp : (Settings.default.write 1 9).map (·.alignment) = some 8 ∧
    (Settings.default.write 5 799).map (·.window) = some 800 ∧ (Settings.default.write 11 8001).map (·.poll) = some 8000 ∧
    Settings.default.write 9 6 = none ∧ Settings.default.write 26 0 = none := by decide

/-- 9.4: a notice of four records is 68 bytes and takes 6 slots. -/
theorem test_notice_slots : (noticeSlots 0 (List.replicate 68 0)).length = 6 := by decide

/-- 12.2: the alarm bits of a STATUS, bits 4 to 7 ignored. -/
theorem test_status_alarms : statusAlarms [0, 0, 0, 0, 0, 0, 0xF5, 0, 0] = ⟨true, false, true, false⟩ := by decide

/-- PRESUMED: the published check value of this cyclic redundancy check over the characters 1 to 9 is FC891918h. -/
theorem test_frame_check :
    frameCheck [0x31, 0x32, 0x33, 0x34, 0x35, 0x36, 0x37, 0x38, 0x39] = 0xFC891918 := by decide +kernel

/-- 12.3: a carrier record is 9 bytes and reads back as it was written. -/
theorem test_carrier_record : carrierAt (encCarrier ⟨true, 3, 2, 9, some 7, false, 640, 4⟩) 0 =
    some ⟨true, 3, 2, 9, some 7, false, 640, 4⟩ ∧ (encCarrier (Carrier.default 5)).length = 9 := by decide

/-- 12.3: a remote entry is 19 bytes, a sector entry 6. -/
theorem test_entry_records : (encEntry RemoteEntry.default).length = 19 ∧ (encSectorEntry SectorEntry.default).length = 6 := by
  decide

/-- No row of the table gives bits (log entry 1). -/
theorem test_no_row_has_bits : decodeTableWord 8 1 = none := by decide

/-! ## A small hub -/

/-- A hub past boundary 100, started on an image, with nothing configured. -/
def hub : State :=
  { State.reset with
    clock := ⟨100, true, none⟩
    loader := { State.reset.loader with readEnded := true, image := some .loaded }
    map := { State.reset.map with loadNext := false }
    svc := { State.reset.svc with taking := true } }

/-- The same hub with a request waiting. -/
def asked (q : Request) : State := { hub with svc := { hub.svc with input := [q] } }

/-- A request of the service link. -/
def req (kind : Byte) (body : List Byte) : Request := ⟨.service, 7, kind, body⟩

/-- The same hub with an event due. -/
def dueHub (e : Due) : State := { hub with boundary := ⟨false, [e]⟩ }

/-- The same hub with a link's framer. -/
def linked (l : Link) (f : Framer) : State := hub.modFramer l fun _ => f

/-- A framer in LOCKED. -/
def lockedFramer : Framer := { Framer.reset with rx := .locked }

/-- The same hub with a move record and state. -/
def moving (st : EngineState) (k : MoveKind) (p : Option PlanMap) : State :=
  { hub with engine := ⟨st, some ⟨k, some 1, [⟨5, some 2, .sector 3⟩], 90, none, none, [5]⟩, [],
    if st = .fadeOut ∨ st = .switchPending then [5] else [], p⟩ }

/-- The same hub with one remote's health. -/
def healthy (r : RemoteId) (h : Health) : State := hub.modSup r fun v => { v with health := h }


/-- A STATUS body with serial 5, position code 6 and these alarms. -/
def report (alarms : Byte) : List Byte := [0, 0, 0, 5, 0, 6, alarms, 40, 40]

/-- A pending map that has remote 7 configured. -/
def newMap : PlanMap :=
  ⟨(Tab.const 16 RemoteEntry.default).modify 7 fun e => { e with configured := true, sector := some 1 },
    Tab.const 8 SectorEntry.default⟩

/-! ### A hub in order, and moves under way -/

/-- A hub in order: remote 5 SERVING in sector 2 at its target, remote 3 WAITING, a STATUS of each handed on, and
every sector short of its minimum degraded. -/
def orderly : State :=
  let s := hub.modLive 5 fun e => { e with configured := true, sector := some 2 }
  let s := s.modLive 3 fun e => { e with configured := true }
  let s := s.modSup 5 fun v => { v with health := .serving, serial := some 4 }
  let s := s.modSup 3 fun v => { v with health := .waiting }
  let told : Framer := { lockedFramer with handed := [⟨⟨0, 3, 0, 0, 0x42, 0xFF, 9⟩, report 0⟩] }
  { (s.modFramer (.remote 3) fun _ => told).modFramer (.remote 5) fun _ => told with
    dist := { s.dist with ramps := s.dist.ramps.set 5 ⟨512, 512, true⟩ }
    sup := { s.sup with serving := (Tab.const 8 0).set 2 1, degraded := (Tab.const 8 true).set 2 false } }

/-- The orderly hub with a move of remote 5 under way, whose ramp is at a gain and a target, and a poll due that it
has not answered. -/
def moved (g : Engine) (p : Ramp) : State :=
  let s := orderly.modSup 5 fun v => { v with held := g.holdSet.contains 5, miss := 2, awaiting := true }
  { s with
    pending := [.rampStepEvent]
    engine := g
    dist := { s.dist with ramps := s.dist.ramps.set 5 p }
    boundary := ⟨false, [.rampStep, .switch, .linkGrace 5, .poll]⟩ }

/-- A record of a single move of remote 5 from sector 2 to sector 3. -/
def singleMove : MoveRecord := ⟨.manual, none, [⟨5, some 2, .sector 3⟩], 90, none, none, [5]⟩

/-- A record of a batch to plan 1 that unconfigures remote 5. -/
def batchMove : MoveRecord := ⟨.batch, some 1, [⟨5, some 2, .unconfigured⟩, ⟨7, none, .sector 1⟩], 90, none, none, [5]⟩

def fadingOut : State := moved ⟨.fadeOut, some singleMove, [5], [5], none⟩ ⟨8, 0, false⟩
def awaitingSwitch : State := moved ⟨.switchPending, some singleMove, [], [5], none⟩ ⟨0, 0, true⟩
def fadingIn : State := moved ⟨.fadeIn, some { singleMove with switchFc := some 95 }, [5], [], none⟩ ⟨504, 512, false⟩
def batchFading : State := moved ⟨.fadeOut, some batchMove, [5], [5], some newMap⟩ ⟨8, 0, false⟩
def batchAwaiting : State := moved ⟨.switchPending, some batchMove, [], [5], some newMap⟩ ⟨0, 0, true⟩

/-- The laws that a statement asks of a hub. -/
def InOrder (s : State) : Prop := s.engine.lawful ∧ s.engine.MoveLaw ∧ s.SupervisionLaw

theorem orderly_InOrder : InOrder orderly := by
  refine ⟨?_, ⟨fun _ => rfl, ?_, ?_, ?_, ?_, ?_, ?_⟩, ⟨?_, ?_, ?_, ?_, ?_, ?_, ?_, ?_, ?_, ?_, ?_, ?_, ?_, ?_⟩⟩
  · unfold Engine.lawful; decide
  all_goals first
    | exact fun m h => nomatch (show (none : Option MoveRecord) = some m from h)
    | exact fun h => absurd h (by decide)
    | exact fun _ m h => nomatch (show (none : Option MoveRecord) = some m from h)
    | decide +kernel

/-- The hub with a request waiting is in order too. -/
theorem InOrder.asked {s : State} (h : InOrder s) (q : Request) :
    InOrder { s with svc := { s.svc with input := [q] } } := by
  obtain ⟨h1, h2, l⟩ := h
  exact ⟨h1, h2, ⟨l.sources, l.boost, l.target, l.done, l.present, l.held, l.joining, l.ramping, l.degraded, l.vacant,
    l.unloaded, l.serials, l.gains, l.fading⟩⟩

theorem singleMove_Shape : singleMove.Shape := ⟨rfl, by decide, fun _ => ⟨5, some 2, 3, rfl, rfl⟩, by decide⟩
theorem batchMove_Shape : batchMove.Shape := ⟨rfl, by decide, fun h => absurd rfl h, by decide⟩

/-- An engine that carries out a move is in order where its record has its shape and its sets fit its state. -/
theorem engine_inOrder (e : Engine) (m : MoveRecord) (hm : e.record = some m) (shape : m.Shape) (h0 : e.lawful)
    (h1 : e.state ≠ .idle) (h2 : m.switchFc.isSome = true ↔ e.state = .fadeIn)
    (h3 : e.pendingMap.isSome = true ↔ m.kind = .batch)
    (h4 : e.state = .fadeOut ∨ e.state = .fadeIn ∨ e.state = .recovering → e.phaseSet ≠ [])
    (h5 : ∀ r ∈ e.phaseSet, r ∈ m.fading)
    (h6 : e.state = .fadeOut ∨ e.state = .switchPending →
      (∀ r ∈ m.fading, r ∈ e.holdSet) ∧ (m.kind ≠ .batch → e.holdSet = m.fading)) : e.lawful ∧ e.MoveLaw := by
  have same : ∀ x, e.record = some x → x = m := fun x hx => (Option.some.inj (hm.symm.trans hx)).symm
  exact ⟨h0, fun hi => absurd hi h1, fun x hx => same x hx ▸ shape, fun x hx => same x hx ▸ h2,
    fun x hx => same x hx ▸ h3, h4, fun x hx => same x hx ▸ h5, fun hs x hx => same x hx ▸ h6 hs⟩

theorem fadingOut_InOrder : InOrder fadingOut := by
  have h := engine_inOrder fadingOut.engine _ rfl singleMove_Shape (by unfold Engine.lawful; decide) (by decide) (by decide) (by decide)
    (by decide) (by decide) (by decide)
  refine ⟨h.1, h.2, ⟨?_, ?_, ?_, ?_, ?_, ?_, ?_, ?_, ?_, ?_, ?_, ?_, ?_, ?_⟩⟩
  iterate 8 decide +kernel
  iterate 2 exact fun _ => by decide +kernel
  · exact fun h => absurd h (by decide)
  · decide +kernel
  · exact fun r => ⟨by revert r; decide +kernel, fun p h => nomatch (show (none : Option PlanMap) = some p from h)⟩
  · exact fun _ m h => Option.some.inj (show some singleMove = some m from h) ▸ by decide +kernel

theorem fadingIn_InOrder : InOrder fadingIn := by
  have h := engine_inOrder fadingIn.engine { singleMove with switchFc := some 95 } rfl
    ⟨rfl, by decide, fun _ => ⟨5, some 2, 3, rfl, rfl⟩, by decide⟩ (by unfold Engine.lawful; decide) (by decide) (by decide)
    (by decide) (by decide) (by decide) (by decide)
  refine ⟨h.1, h.2, ⟨?_, ?_, ?_, ?_, ?_, ?_, ?_, ?_, ?_, ?_, ?_, ?_, ?_, ?_⟩⟩
  iterate 8 decide +kernel
  iterate 2 exact fun _ => by decide +kernel
  · exact fun h => absurd h (by decide)
  · decide +kernel
  · exact fun r => ⟨by revert r; decide +kernel, fun p h => nomatch (show (none : Option PlanMap) = some p from h)⟩
  · exact fun h => absurd h (by decide)

theorem awaitingSwitch_InOrder : InOrder awaitingSwitch := by
  have h := engine_inOrder awaitingSwitch.engine _ rfl singleMove_Shape (by unfold Engine.lawful; decide) (by decide) (by decide) (by decide)
    (by decide) (by decide) (by decide)
  refine ⟨h.1, h.2, ⟨?_, ?_, ?_, ?_, ?_, ?_, ?_, ?_, ?_, ?_, ?_, ?_, ?_, ?_⟩⟩
  iterate 8 decide +kernel
  iterate 2 exact fun _ => by decide +kernel
  · exact fun h => absurd h (by decide)
  · decide +kernel
  · exact fun r => ⟨by revert r; decide +kernel, fun p h => nomatch (show (none : Option PlanMap) = some p from h)⟩
  · exact fun _ m h => Option.some.inj (show some singleMove = some m from h) ▸ by decide +kernel

theorem batchAwaiting_InOrder : InOrder batchAwaiting := by
  have h := engine_inOrder batchAwaiting.engine _ rfl batchMove_Shape (by unfold Engine.lawful; decide) (by decide) (by decide) (by decide)
    (by decide) (by decide) (by decide)
  refine ⟨h.1, h.2, ⟨?_, ?_, ?_, ?_, ?_, ?_, ?_, ?_, ?_, ?_, ?_, ?_, ?_, ?_⟩⟩
  iterate 8 decide +kernel
  iterate 2 exact fun _ => by decide +kernel
  · exact fun h => absurd h (by decide)
  · decide +kernel
  · intro r
    refine ⟨by revert r; decide +kernel, fun p h => ?_⟩
    obtain rfl := Option.some.inj (show some newMap = some p from h)
    revert r; decide +kernel
  · exact fun _ m h => Option.some.inj (show some batchMove = some m from h) ▸ by decide +kernel

/-! ## Witnesses: states and operands that meet the hypotheses of the statements -/

/-- A hub with a command waiting. -/
def waitingHub : State := { hub with pending := [.signalReturns .service] }

theorem witness_StepTakesFrontCommand : hub.pending = [] ∧ (step hub = .next hub) := ⟨rfl, rfl⟩

theorem witness_EveryStepKeepsTheConfigurationLaw : waitingHub.ConfigLaw ∧ ∃ t, step waitingHub = .next t :=
  ⟨⟨Stored.default_lawful, (by intro m h; cases h), (by intro m h; cases h)⟩, _, rfl⟩

theorem witness_EveryStepKeepsTheEventQueueLaw : waitingHub.events.lawful ∧ ∃ t, step waitingHub = .next t :=
  ⟨by unfold EventQueue.lawful; decide, _, rfl⟩

theorem witness_EveryStepKeepsTheEngineLaw :
    (fadingIn.engine.lawful ∧ fadingIn.engine.MoveLaw ∧ ∃ t, step fadingIn = .next t) ∧
    batchAwaiting.engine.lawful ∧ batchAwaiting.engine.MoveLaw ∧ ∃ t, step batchAwaiting = .next t :=
  ⟨⟨fadingIn_InOrder.1, fadingIn_InOrder.2.1, _, rfl⟩, batchAwaiting_InOrder.1, batchAwaiting_InOrder.2.1, _, rfl⟩

theorem witness_EveryStepKeepsTheSupervisionLaw :
    fadingOut.ConfigLaw ∧ InOrder fadingOut ∧ ∃ t, step fadingOut = .next t :=
  ⟨⟨Stored.default_lawful, (by intro m h; cases h), (by intro m h; cases h)⟩, fadingOut_InOrder, _, rfl⟩

/-- An entry numbered n. -/
def entry (n : FC) : Entry := ⟨n, [], [], n⟩

/-- The waiting hub, its last released number 96, with two frames queued. -/
def aligned : State :=
  { waitingHub with comb := { hub.comb with last := some 96, queues := hub.comb.queues.set 4 [entry 98, entry 102] } }

theorem witness_EveryStepKeepsTheQueueSizes :
    (waitingHub.meter.Lawful ∧ waitingHub.serviceLaw ∧ waitingHub.links.bounded ∧ ∃ t, step waitingHub = .next t) ∧
    aligned.ConfigLaw ∧ aligned.AlignmentLaw ∧ ∃ t, step aligned = .next t ∧ t.clock.started = true :=
  ⟨⟨⟨fun _ _ => ⟨by simp [waitingHub, hub, State.reset, Activity.reset], by simp [waitingHub, hub, State.reset, Activity.reset],
      by simp [waitingHub, hub, State.reset, Activity.reset], by simp [waitingHub, hub, State.reset, Activity.reset],
      by simp [waitingHub, hub, State.reset, Activity.reset]⟩, nofun, nofun, nofun⟩,
    by unfold State.serviceLaw Service.places; decide +kernel,
    by unfold Links.bounded Framer.bounded; decide +kernel, _, rfl⟩,
    ⟨Stored.default_lawful, (by intro m h; cases h), (by intro m h; cases h)⟩,
    ⟨by decide +kernel, by decide +kernel,
      fun r e he l hl => by obtain rfl := Option.some.inj hl; revert r e; decide +kernel, by decide +kernel,
      fun l hl => by obtain rfl := Option.some.inj hl; decide +kernel,
      (fun h => nomatch (show some (96 : FC) = none from h)), fun h => absurd h (by decide)⟩, _, rfl, rfl⟩

/-- An image of the right shape whose every field is one the hub takes. -/
def goodImage : RawImage := { rawImage 9 19 19 6 33 with carriers := Tab.const 12 [0, 0, 0, 0, 0, 1, 0, 0, 0] }

theorem witness_ImageReadStartsTheHub : hub.loader.readEnded = true ∧ State.reset.loader.readEnded = false ∧
    frameCheck [] ≠ 1 ∧ frameCheck [] = 0 ∧ decodeImage (rawImage 9 19 19 6 33) = none ∧
    (decodeImage goodImage).isSome = true ∧ State.reset.loader.memory = .unwritten := by decide +kernel

/-- The hub after the image read, before its first boundary. -/
def unloaded : State :=
  { State.reset with loader := { State.reset.loader with readEnded := true, image := some (.defaulted .absent) } }

theorem witness_BoundaryCarriesTheNextFrameCount :
    (State.reset.loader.readEnded = false ∧ hub.loader.readEnded = true ∧ hub.clock.started = true ∧
      hub.boundary = ⟨false, []⟩ ∧ hub.map.loadNext = false) ∧ (∀ l, (hub.framer l).handed = []) ∧
    (unloaded.boundary = ⟨false, []⟩ ∧ unloaded.map.loadNext = true ∧ unloaded.clock.started = false) ∧
    (∀ l, (unloaded.framer l).handed = []) ∧ unloaded.SupervisionLaw := by
  refine ⟨by decide, fun l => ?_, by decide, fun l => ?_, ⟨?_, ?_, ?_, ?_, ?_, ?_, ?_, ?_, ?_, ?_, ?_, ?_, ?_, ?_⟩⟩
  · rcases l with n | r | _
    · revert n; decide +kernel
    · revert r; decide +kernel
    · rfl
  · rcases l with n | r | _
    · revert n; decide +kernel
    · revert r; decide +kernel
    · rfl
  iterate 8 decide +kernel
  iterate 2 exact fun h => absurd h (by decide)
  · exact fun _ => by decide +kernel
  · decide +kernel
  · exact fun r => ⟨by revert r; decide +kernel, fun p h => nomatch (show (none : Option PlanMap) = some p from h)⟩
  · exact fun h => absurd h (by decide)

theorem witness_OnlyBoundariesMoveTheFrameCount :
    exec .identify hub = .next hub ∧ Instr.identify ≠ .powerOnReset ∧ ∀ p, Instr.identify ≠ .frameBoundary p :=
  ⟨rfl, by decide, fun _ h => by cases h⟩

/-- The same hub with the blocks still to act, and a last released number. -/
def acting (last : Option FC) : State :=
  { hub with boundary := ⟨true, []⟩, comb := { hub.comb with last := last } }

/-- The blocks are still to act, a message boundary of S and of ports 3, 4 and donor link 1 is open, a response waits,
port 4 has a POLL, port 3 a relayed message, and port 6 sends the last slot of one. -/
def transmitting (tap : Tap) : State :=
  let s := acting (some 95)
  let s := { s with
    boundary := ⟨true, [.sender .service, .sender (.remote 3), .sender (.remote 4), .sender (.donor 1), .sender (.remote 8)]⟩
    svc := { s.svc with tap := tap, filled := [⟨.service, 1, 1, .done, [], false⟩] } }
  let s := (s.modFramer .service fun _ => lockedFramer).modFramer (.donor 1) fun _ => lockedFramer
  let s := s.modFramer (.remote 3) fun _ => { lockedFramer with relayQueue := [⟨false, 4, 0x50, []⟩] }
  let s := s.modFramer (.remote 4) fun _ => { lockedFramer with pollPlace := true }
  let s := s.modFramer (.remote 8) fun _ => lockedFramer
  s.modFramer (.remote 6) fun _ => { lockedFramer with emission := some ⟨.relayed 9, [⟨1, zeros⟩]⟩ }

theorem witness_EveryBoundarySendsTwentyOneFrames :
    (let s := transmitting (.downlink 3 0)
     s.boundary.acting = true ∧ s.svc.tap = .downlink 3 0 ∧ (transmitting .none).svc.tap = .none ∧
     (transmitting (.combined 3)).svc.tap = .combined 3 ∧ .sender (.remote 6) ∉ s.boundary.due ∧ .switch ∉ s.boundary.due ∧
     (s.framer (.remote 6)).emission = some ⟨.relayed 9, ⟨1, zeros⟩ :: []⟩ ∧
     .sender .service ∈ s.boundary.due ∧ (s.framer .service).emission = none ∧ s.locked .service = true ∧
     s.svc.filled.find? (fun q => decide (q.link = .service)) = some ⟨.service, 1, 1, .done, [], false⟩ ∧
     .sender (.remote 4) ∈ s.boundary.due ∧ s.locked (.remote 4) = true ∧ (s.framer (.remote 4)).pollPlace = true ∧
     .sender (.remote 3) ∈ s.boundary.due ∧ s.locked (.remote 3) = true ∧ (s.framer (.remote 3)).pollPlace = false ∧
     (s.framer (.remote 3)).relayQueue = ⟨false, 4, 0x50, []⟩ :: [] ∧ (s.framer (.remote 8)).relayQueue = [] ∧
     .sender (.donor 1) ∈ s.boundary.due ∧ (∀ p ∈ s.svc.filled, p.link ≠ .donor 1)) ∧
    CarrierTableLaw (transmitting (.combined 3)).dist.carriers :=
  ⟨by decide +kernel, (carriersLegal_iff _).mp (by decide +kernel)⟩

/-- The same boundary with no response waiting for S, and a notice offered or not. -/
def noticing (offer : Bool) : State :=
  let s := transmitting .none
  let r : Event := ⟨.donorLost, .donor 0, none, 2, 90, none, 1⟩
  { s with svc := { s.svc with filled := [] }, events := { s.events with records := [r], offer := offer } }

/-- With no switch and no ramp step due nothing precedes the frames, and S has a notice to take or nothing to send. -/
theorem witness_EveryBoundarySendsTwentyOneFrames_notice (offer : Bool) :
    (let s := noticing offer
     s.Precedes .act (s.setActing false) (s.setActing false)) ∧ (noticing offer).boundary.acting = true ∧
    .sender .service ∈ (noticing offer).boundary.due ∧ ((noticing offer).framer .service).emission = none ∧
    (noticing offer).locked .service = true ∧ (noticing offer).svc.setRelay = none ∧
    (noticing offer).svc.filled.find? (fun q => decide (q.link = .service)) = none ∧
    (noticing offer).events.offer = offer :=
  ⟨⟨rfl, fun _ => ⟨rfl, rfl⟩, rfl, fun _ _ => rfl, _, _, rfl, rfl, rfl⟩, rfl, by cases offer <;> decide +kernel,
    by cases offer <;> decide +kernel, by cases offer <;> decide +kernel, rfl, rfl, rfl⟩

/-- The blocks are still to release 96, for which port 4 was sent carrier 0 in lane 0 and answered, with that map or
another, and port 4 serves in the carrier's sector. -/
def heard (echoed : Bool) : State :=
  let s := (acting (some 95)).modLive 4 fun e => { e with configured := true, sector := some 2 }
  let s := s.modSup 4 fun v => { v with health := .serving }
  { s with
    dist := { s.dist with
      carriers := s.dist.carriers.modify 0 fun k => { k with enabled := true, sector := some 2 }
      sent := s.dist.sent.set 4 [⟨96, [some 0, none, none, none, none, none], .straight⟩] }
    comb := { s.comb with
      queues := s.comb.queues.set 4 [⟨96, if echoed then [0, 0xFF, 0xFF, 0xFF, 0xFF, 0xFF] else List.replicate 6 0xFF,
        List.replicate 6 ⟨[⟨1, 2⟩], []⟩, 98⟩]
      history := s.comb.history.set 4 ⟨none, none, 90⟩
      weights := s.comb.weights.set 4 [(96, 2048)] }
    svc := { s.svc with tap := .raw 4 0 } }

theorem witness_CombinerReleasesOrHolds : (acting none).boundary.acting = true ∧ (acting none).comb.last = none ∧
    (acting none).now - BitVec.ofNat 32 (acting none).settings.alignment = 96 ∧
    isAfter 96 95 = true ∧ isAfter 96 96 = false ∧ (acting (some 95)).comb.last = some 95 ∧
    (heard true).svc.tap = .raw 4 0 ∧ ((heard true).comb.queues.get 4).find? (fun e => decide (e.number = 96)) =
      some ⟨96, [0, 0xFF, 0xFF, 0xFF, 0xFF, 0xFF], List.replicate 6 ⟨[⟨1, 2⟩], []⟩, 98⟩ ∧
    [0, 0xFF, 0xFF, 0xFF, 0xFF, 0xFF] = mapBytes ((heard true).sentFor 4 96).1 ∧
    ((heard true).sentFor 4 96).1.findIdx? (fun y => decide (y = some 0)) = some 0 ∧
    List.replicate 6 0xFF ≠ mapBytes ((heard false).sentFor 4 96).1 ∧
    ((heard true).comb.queues.get 5).find? (fun e => decide (e.number = 96)) = none := by decide +kernel

theorem witness_DistributorRecordsEachBoundary : (acting none).boundary.acting = true ∧
    ((acting none).framer (.donor 2)).buffer = [] := by decide +kernel

theorem witness_RemoteFramesCarryTheGainProduct : (acting none).boundary.acting = true ∧
    ((acting none).dist.donors.get 0).muted = false ∧ (acting none).dist.clips.get 0 = 0 := by decide +kernel

/-- A release, and a port that contributes: in service, its echo right, its sector the carrier's. -/
theorem witness_DonorFramesCarryTheWeightedSum : (heard true).boundary.acting = true ∧
    isAfter ((heard true).now - BitVec.ofNat 32 (heard true).settings.alignment) 95 = true ∧
    (heard true).comb.last = some 95 ∧ (heard true).serviced 4 = true ∧ ((heard true).carrier 0).enabled = true ∧
    (heard true).sectorFor 4 96 = some 2 ∧ atOrAfter 96 ((heard true).comb.history.get 4).switchFc = true ∧
    atOrAfter 89 ((heard true).comb.history.get 4).switchFc = false ∧ ((heard true).comb.history.get 4).since = none ∧
    (∀ y ∈ (heard true).dist.sent.get 4, y.number ≠ 95) ∧ (∀ y ∈ (heard true).comb.weights.get 4, y.1 ≠ 95) ∧
    (heard true).comb.weights.get 4 = [] ++ (96, 2048) :: [] ∧ ((heard true).carrier 0).sector = some 2 ∧ (heard true).weightFor 4 96 = 2048 ∧
    (∀ p ∈ [(2048, [(⟨1, 2⟩ : Sample)])], p.1 ≤ 4095 ∧ p.2.length ≤ 1) ∧ 2 ^ 3 ≤ 15 ∧ 15 < 2 ^ (3 + 1) := by decide +kernel

/-- A remote that was in sector 3 from 80 and changed at 90: before 90 there it counts, and before 80 nowhere. -/
theorem witness_DonorFramesCarryTheWeightedSum_history :
    (let s := { hub with comb := { hub.comb with history := hub.comb.history.set 4 ⟨some 3, some 80, 90⟩ } }
     (s.comb.history.get 4).since = some 80) ∧ atOrAfter 90 90 = true ∧ atOrAfter 89 90 = false ∧
    atOrAfter 80 80 = true ∧ atOrAfter 79 80 = false := by decide +kernel

/-- A hub whose remote 3 is LOCKED and WAITING, with a REPLY and then a STATUS completed and not yet taken. -/
def reported : State :=
  (linked (.remote 3) { lockedFramer with
    handed := [⟨⟨0, 3, 0, 1, 0x43, 0xFF, 0⟩, []⟩, ⟨⟨0, 3, 0, 0, 0x42, 0xFF, 9⟩, report 0⟩] }).modSup 3 fun v =>
      { v with health := .waiting }

theorem witness_EventsOfALinkStayOnTheLink :
    isGood (frame 10 0 zeros) = true ∧ (∀ m ∈ ((linked (.remote 4) lockedFramer).framer (.remote 4)).handed,
      m.head.kind ≠ 0x42) ∧ (∃ m ∈ (reported.framer (.remote 3)).handed, m.head.kind = 0x42) ∧
    ((linked (.donor 1) lockedFramer).framer (.donor 1)).handed = [] :=
  ⟨(test_good_and_errored 10).1, by decide +kernel, by decide +kernel, by decide +kernel⟩

theorem witness_ReceiveStatesFollowTheirRules :
    ((hub.framer .service).rx = .down ∧ ((linked .service { Framer.reset with rx := .hunt }).framer .service).rx = .hunt ∧
    ((linked .service { Framer.reset with rx := .verify, verifyCount := 2, lastNumber := some 9 }).framer .service).lastNumber
      = some ((10 : BitVec 16) - 1) ∧
    ((linked .service { lockedFramer with streak := 2 }).framer .service).streak < 3) ∧
    isGood (frame 10 0 zeros) = true ∧ isGood noFrame = false ∧ isGood (damaged 10) = false :=
  ⟨by decide +kernel, (test_good_and_errored 10).1, (test_good_and_errored 10).2.2.1, (test_good_and_errored 10).2.2.2.2.1⟩

/-- A framer in VERIFY after three good frames, the last numbered 65,535. -/
def thirdFrame (buffer : List LinkFrame) : Framer :=
  { Framer.reset with rx := .verify, verifyCount := 3, lastNumber := some 65535, buffer := buffer }

theorem witness_FourthGoodFrameLocks :
    (((linked (.donor 0) (thirdFrame [donorFrame 1])).framer (.donor 0)).lastNumber = some ((donorFrame 0).number - 1) ∧
    ((linked (.donor 0) (thirdFrame [donorFrame 1])).framer (.donor 0)).buffer.length < 2 ∧
    2 ≤ ((linked (.donor 0) (thirdFrame [donorFrame 1, donorFrame 2])).framer (.donor 0)).buffer.length ∧
    ((linked (.remote 4) (thirdFrame [])).framer (.remote 4)).rx = .verify ∧
    ((linked .service (thirdFrame [])).framer .service).verifyCount = 3) ∧
    isGood (donorFrame 0) = true ∧ isGood (frame 0 0 zeros) = true :=
  ⟨by decide +kernel, (test_good_and_errored 0).2.1, (test_good_and_errored 0).1⟩

/-- A slot that begins and ends a message of no body. -/
def onlySlot (kind : Byte) : List Byte := [0, 0, 0, 0, 7, kind, 0xFF, 0, 0, 0, 0, 0, 0, 0, 0, 0]

theorem witness_GoodFrameInLockedIsDelivered :
    (((linked (.remote 4) lockedFramer).framer (.remote 4)).rx = .locked ∧
    (assembleSlot none 1 (onlySlot 0x43)).complete.any (deliverable (.remote 4)) = true ∧
    (assembleSlot none 1 (onlySlot 0x42)).complete.any (fun m => !deliverable (.remote 4) m) = true ∧
    (assembleSlot none 0 zeros).complete = none ∧ (thirdFrame [donorFrame 1, donorFrame 2]).buffer.length = 2 ∧
    (5 : BitVec 16) = 4 + 1 + BitVec.ofNat 16 0 ∧ (6 : BitVec 16) ≠ 4 + 1 + BitVec.ofNat 16 0) ∧
    isGood (frame 5 1 (onlySlot 0x43)) = true ∧ isGood (donorFrame 5) = true :=
  ⟨by decide +kernel, isGood_sealed _, isGood_sealed _⟩

theorem witness_UplinkArrivalsAreClassified :
    (((linked (.remote 4) lockedFramer).framer (.remote 4)).rx = .locked ∧
    isAfter (hub.now + ((103 : BitVec 16) - low16 hub.now).signExtend 32) (hub.now + 2) = true ∧
    isAfter (hub.now + ((102 : BitVec 16) - low16 hub.now).signExtend 32) (hub.now + 2) = false ∧
    atOrAfter 96 96 = true ∧ atOrAfter 96 97 = false ∧ (∃ y ∈ [entry 98], y.number = 98) ∧
    ((List.range 8).map fun k => entry (BitVec.ofNat 32 (90 + k))).length = 8) ∧
    isGood (frame 103 0 zeros) = true :=
  ⟨by decide +kernel, isGood_sealed _⟩

/-- The hub with a pass-through open at port 4, which is LOCKED, and a set relay with these ports left. -/
def sharing (left : List RemoteId) : State :=
  let s := linked (.remote 4) lockedFramer
  { s with svc := { s.svc with
      pass := s.svc.pass.set 4 (some ⟨.service, 7, 0x50, [], 9, 1, .awaiting 5⟩)
      setRelay := some ⟨.service, 8, 0x51, [], left⟩
      reserved := [.pass 4, .setRelay] } }

theorem witness_LeavingLockedTakesEffect :
    (((linked (.remote 4) lockedFramer).framer (.remote 4)).rx = .locked ∧
    ((linked (.remote 4) { lockedFramer with streak := 3 }).framer (.remote 4)).streak = 3 ∧
    hub.clock.reference ≠ some 0 ∧ ({ hub with clock := ⟨100, true, some 0⟩ } : State).clock.reference = some 0 ∧
    hub.svc.setRelay = none ∧ (sharing [4]).svc.setRelay = some ⟨.service, 8, 0x51, [], [4]⟩ ∧ [4].erase (4 : RemoteId) = [] ∧
    [4, 5].erase (4 : RemoteId) ≠ [] ∧ .setRelay ∈ (sharing [4]).svc.reserved ∧ .pass 4 ∈ (sharing [4, 5]).svc.reserved ∧
    ((sharing [4, 5]).svc.pass.get 4).isSome = true ∧ ((sharing [4, 5]).framer (.remote 4)).rx = .locked ∧
    ((sharing [4, 5]).framer (.remote 4)).handed = [] ∧
    ((linked (.donor 1) { lockedFramer with handed := [⟨⟨0, 0, 0, 7, 1, 0xFF, 0⟩, []⟩] }).framer (linkOf (.donor 1))).handed =
      ⟨⟨0, 0, 0, 7, 1, 0xFF, 0⟩, []⟩ :: [] ∧
    (reported.framer (.remote 3)).rx = .locked ∧ (reported.framer (.remote 3)).handed =
      [⟨⟨0, 3, 0, 1, 0x43, 0xFF, 0⟩, []⟩] ++ ⟨⟨0, 3, 0, 0, 0x42, 0xFF, 9⟩, report 0⟩ :: [] ∧
    ∀ m ∈ [(⟨⟨0, 3, 0, 1, 0x43, 0xFF, 0⟩, []⟩ : Message)], m.head.kind ≠ 0x42) ∧
    isGood noFrame = false ∧ isGood (damaged 10) = false :=
  ⟨by decide +kernel, (test_good_and_errored 10).2.2.1, (test_good_and_errored 10).2.2.2.2.1⟩

/-- R15, R123, R124: a STATUS completed before the loss of signal brings the remote into JOINING on a LOCKED link, and
the loss then starts its link grace timer; a REPLY is left to be taken. -/
theorem test_status_counts_before_the_loss :
    let t := reported.lossOfSignal (.remote 3)
    t.health 3 = .joining ∧ (t.supRec 3).grace = some 0 ∧ (t.framer (.remote 3)).handed.length = 1 := by decide +kernel

/-- A message that S or a donor link completed before its signal is lost is taken first (R15, R151): the donor link's
request is then removed and counted, that of S stays queued (R5, R152). -/
theorem test_message_counts_before_the_loss :
    let m : Message := ⟨⟨0, 0, 0, 7, 1, 0xFF, 0⟩, []⟩
    let granted := { hub with settings := { hub.settings with grants := Tab.const 4 .full } }
    let after (l : Link) := (granted.modFramer l fun _ => { lockedFramer with handed := [m] }).lossOfSignal l
    ((after (.donor 1)).framer (.donor 1)).handed = [] ∧ (after (.donor 1)).svc.input = [] ∧
    (LinkService.queued ((after (.donor 1)).svc.donorCounts.get 1)) = 1 ∧
    (LinkService.removals ((after (.donor 1)).svc.donorCounts.get 1)) = 1 ∧
    ((after .service).framer .service).handed = [] ∧ (after .service).svc.input.length = 1 := by decide +kernel

/-- The header of a message with a length, as the first slot carries it. -/
def headed (l : Byte) : List Byte := [0, 0, 0, 0, 7, 1, 0xFF, l, 0, 0, 0, 0, 0, 0, 0, 0]

theorem witness_AssemblerFollowsItsTable :
    (headerOf (headed 0)).length.toNat = 0 ∧ (headerOf (headed 1)).length.toNat = 1 ∧
    (headerOf (headed 224)).length.toNat = 224 ∧ 224 < (headerOf (headed 225)).length.toNat ∧
    (⟨headerOf (headed 33), [zeros]⟩ : Assembly).pieces.length + 1 < (33 + 15) / 16 ∧
    (⟨headerOf (headed 32), [zeros]⟩ : Assembly).pieces.length + 1 = (32 + 15) / 16 ∧
    3 ≤ (3 : Byte).toNat ∧ 4 < (5 : Byte).toNat := by decide +kernel

theorem witness_MessagesSurviveTheirSlots :
    (List.replicate 224 (1 : Byte)).length ≤ 224 ∧ (headerOf (headed 224)).length.toNat = 224 ∧
    (messageSlots (headerOf (headed 17)) (List.replicate 17 1)).length = 3 := by decide +kernel

/-! ### Messages -/

/-- A message of no body. -/
def message (dest port kind status : Byte) : Message := ⟨⟨dest, port, 0x8001, 7, kind, status, 0⟩, []⟩

/-- The hub with a message handed on by a message link. -/
def handing (l : MsgLink) (m : Message) : State := linked (linkOf l) { lockedFramer with handed := [m] }

/-- The hub with a response place filled `n` times. -/
def places (n : Nat) (s : State) : State :=
  { s with svc := { s.svc with filled := List.replicate n ⟨.service, 1, 1, .done, [], false⟩ } }

theorem witness_ArrivingMessagesAreJudged :
    (hub.framer (linkOf .service)).handed = [] ∧
    ((handing .service (message 0 0 1 0xFF)).framer (linkOf .service)).handed = [message 0 0 1 0xFF] ∧
    (message 0 0 0x44 0xFF).head.kind.toNat ≤ 0x44 ∧ (message 0 0 1 0).head.status ≠ 0xFF ∧
    hub.grantOf (.donor 0) = .none ∧ hub.grantOf .service = .full ∧
    ¬((places 8 hub).svc.filled.length + (places 8 hub).svc.reserved.length < 8) ∧
    (places 7 hub).svc.filled.length + (places 7 hub).svc.reserved.length < 8 ∧
    ({ hub with settings := { hub.settings with grants := Tab.const 4 .read } } : State).grantOf (.donor 0) = .read ∧
    hub.locked (.remote 3) = false ∧ (linked (.remote 3) lockedFramer).locked (.remote 3) = true ∧
    (message 1 16 1 0xFF).head.port.toNat = 16 ∧ 4 ≤ (message 4 0 1 0xFF).head.dest.toNat := by decide +kernel

/-- The hub with a message on S, and remote 3 in LOCKED with relayed messages waiting. -/
def relaying (m : Message) (n : Nat) : State :=
  (handing .service m).modFramer (.remote 3) fun _ =>
    { lockedFramer with relayQueue := List.replicate n ⟨true, 1, 0x50, []⟩ }

theorem witness_PassThroughOpens :
    ((relaying (message 1 3 0x50 0xFF) 3).framer (linkOf .service)).handed = [message 1 3 0x50 0xFF] ∧
    (relaying (message 1 3 0x50 0xFF) 3).locked (.remote 3) = true ∧
    (relaying (message 1 3 0x50 0xFF) 3).svc.pass.get 3 = none ∧
    ((relaying (message 1 3 0x50 0xFF) 3).framer (.remote 3)).relayQueue.length < 4 ∧
    4 ≤ ((relaying (message 1 3 0x50 0xFF) 4).framer (.remote 3)).relayQueue.length ∧
    (relaying (message 1 3 0x50 0xFF) 3).grantOf .service = .full := by decide +kernel

theorem witness_SetRelayOffersItsCopies :
    ((relaying (message 3 0 0x50 0xFF) 3).framer (linkOf .service)).handed = [message 3 0 0x50 0xFF] ∧
    (relaying (message 3 0 0x50 0xFF) 3).svc.setRelay = none ∧ (message 2 0 0x50 0xFF).head.mask.getLsbD 15 = true ∧
    (message 2 0 0x50 0xFF).head.mask.getLsbD 3 = false := by decide +kernel

/-- An open pass-through. -/
def openPass (retries : Nat) (phase : PassPhase) : Pass := ⟨.service, 7, 0x50, [], 9, retries, phase⟩

/-- The hub with an open pass-through at remote 3 and its place reserved. -/
def passing (p : Pass) (s : State) : State :=
  { s with svc := { s.svc with pass := s.svc.pass.set 3 (some p), reserved := [.pass 3] } }

/-- A message of remote 3 with a kind and a tag. -/
def answer (kind tag : Byte) : Message := ⟨⟨0, 3, 0, tag, kind, 0xFF, 0⟩, []⟩

theorem witness_RepliesEndOrRetryThePassThrough :
    ((linked (.remote 3) { lockedFramer with handed := [answer 0x43 9] }).framer (.remote 3)).handed = [answer 0x43 9] ∧
    (answer 0x43 9).head.kind = 0x43 ∧ (answer 0x44 9).head.kind = 0x44 ∧
    (passing (openPass 0 (.awaiting 5)) hub).svc.pass.get 3 = some (openPass 0 (.awaiting 5)) ∧
    (openPass 0 (.awaiting 5)).relayTag = (answer 0x43 9).head.tag ∧ 0 < (openPass 1 (.awaiting 5)).retries ∧
    hub.svc.pass.get 3 = none := by decide +kernel

/-- The hub with a STATUS of remote 3, in this health, with this serial on record. -/
def statusHub (h : Health) (serial : Option (BitVec 32)) (alarms : Byte) : State :=
  (linked (.remote 3) { lockedFramer with handed := [⟨⟨0, 3, 0, 0, 0x42, 0xFF, 9⟩, report alarms⟩] }).modSup 3 fun v =>
    { v with health := h, serial := serial }

theorem witness_StatusOutOfServiceIsChecked :
    (((statusHub .waiting none 0).framer (.remote 3)).handed = [⟨⟨0, 3, 0, 0, 0x42, 0xFF, 9⟩, report 0⟩] ∧
    (statusHub .vacant none 0).health 3 = .vacant ∧ (statusHub .waiting none 0).health 3 = .waiting ∧
    ((statusHub .waiting none 0).live 3).position = none ∧
    (let s := (statusHub .waiting none 0).modLive 3 fun e => { e with position := some 7 }
     (s.live 3).position = some 7 ∧ (7 : BitVec 16) ≠ wordAt (report 0) 4) ∧
    (let s := (statusHub .waiting none 0).modSup 8 fun v => { v with health := .serving, serial := some 5 }
     s.serviced 8 = true ∧ (s.supRec 8).serial = some (longAt (report 0) 0)) ∧
    (∀ x : RemoteId, (statusHub .waiting none 0).serviced x = false) ∧
    (statusAlarms (report 3)).outA = true ∧ (statusAlarms (report 3)).outB = true ∧
    (statusAlarms (report 1)).outB = false) ∧
    (batchAwaiting.SupervisionLaw ∧ (batchAwaiting.framer (.remote 3)).handed = [⟨⟨0, 3, 0, 0, 0x42, 0xFF, 9⟩, report 0⟩] ∧
      batchAwaiting.health 3 = .waiting ∧ batchAwaiting.batchRunning = true ∧ batchAwaiting.engine.state = .switchPending ∧
      (batchAwaiting.live 3).position = none ∧ ∀ x, ¬(batchAwaiting.serviced x = true ∧
        (batchAwaiting.supRec x).serial = some (longAt (report 0) 0))) :=
  ⟨by decide +kernel, batchAwaiting_InOrder.2.2, by decide +kernel⟩

theorem witness_StatusInServiceIsTaken :
    ((statusHub .serving (some 5) 0).serviced 3 = true ∧
    ((statusHub .serving (some 4) 0).supRec 3).serial ≠ some (longAt (report 0) 0) ∧
    ((statusHub .serving (some 5) 0).supRec 3).serial = some (longAt (report 0) 0) ∧
    min 15 (((statusHub .serving (some 5) 0).supRec 3).flap + 1) < hub.settings.flapLimit ∧
    hub.settings.flapLimit ≤ min 15 (3 + 1) ∧
    (statusAlarms (report 3)).outA = true ∧ (statusAlarms (report 3)).outB = true) ∧
    (InOrder fadingOut ∧ (fadingOut.framer (.remote 5)).handed = [⟨⟨0, 3, 0, 0, 0x42, 0xFF, 9⟩, report 0⟩] ∧
      fadingOut.serviced 5 = true ∧ (fadingOut.supRec 5).serial ≠ some (longAt (report 0) 0)) :=
  ⟨by decide +kernel, fadingOut_InOrder, by decide +kernel⟩

/-! ### Senders -/

/-- The hub with a link's framer at a message boundary and these response and event queues. -/
def atSender (l : Link) (f : Framer) (filled : List Response) (q : EventQueue) : State :=
  { linked l f with
    boundary := ⟨false, [.sender l]⟩, events := q
    svc := { hub.svc with filled := filled, setRelay := some ⟨.service, 1, 2, [], [3]⟩, reserved := [.setRelay]
                          refused := Tab.const 16 [⟨true, 5, 0x50, []⟩] } }

/-- A response for a message link. -/
def response (l : MsgLink) : Response := ⟨l, 1, 1, .done, [], false⟩

/-- A record of a kind. -/
def record (k : EventKind) : Event := ⟨k, .hub, none, 0, 0, none, 1⟩

theorem witness_SenderTakesTheOldestResponse :
    let s := atSender .service lockedFramer [response (.donor 0), response .service] EventQueue.reset
    .sender (linkOf .service) ∈ s.boundary.due ∧ (s.framer (linkOf .service)).emission = none ∧
    (s.framer (linkOf .service)).rx = .locked ∧ s.svc.filled = [response (.donor 0)] ++ response .service :: [] ∧
    .sender (linkOf .service) ∉ hub.boundary.due := by decide +kernel

theorem witness_NoticeTakesTheHeadOfTheQueue :
    let s := atSender .service lockedFramer [response (.donor 0)] ⟨[record .moveDone, record .remoteLost], 0, 0, true, 0⟩
    .sender .service ∈ s.boundary.due ∧ s.links.service.emission = none ∧ s.links.service.rx = .locked ∧
    (∀ p ∈ s.svc.filled, p.link ≠ .service) ∧ s.events.offer = true ∧ hub.events.offer = false := by decide +kernel

theorem witness_ArbiterStartsThePollFirst :
    let f := { lockedFramer with relayQueue := [⟨false, 4, 0x50, []⟩] }
    let s := atSender (.remote 3) f [] EventQueue.reset
    let polled := atSender (.remote 3) { f with pollPlace := true } [] EventQueue.reset
    .sender (.remote 3) ∈ s.boundary.due ∧ (s.framer (.remote 3)).emission = none ∧
    (s.framer (.remote 3)).rx = .locked ∧ (polled.framer (.remote 3)).pollPlace = true ∧
    (s.framer (.remote 3)).pollPlace = false ∧ (s.framer (.remote 3)).relayQueue = [⟨false, 4, 0x50, []⟩] ∧
    s.svc.refused.get 3 = [⟨true, 5, 0x50, []⟩] ∧ hub.svc.refused.get 3 = [] ∧
    s.svc.setRelay = some ⟨.service, 1, 2, [], [3]⟩ ∧ [3].erase (3 : RemoteId) = [] ∧
    [3, 4].erase (3 : RemoteId) ≠ [] ∧ .setRelay ∈ s.svc.reserved := by decide +kernel

/-! ### Timers -/

theorem witness_NothingHappensBeforeItFallsDue : hub.boundary.due = [] ∧ ∀ n, .donorGrace n ∉ hub.boundary.due := by decide

/-- The hub with carrier 1 enabled on donor link 0. -/
def carrying : State :=
  { dueHub (.donorGrace 0) with
    dist := { hub.dist with carriers := hub.dist.carriers.modify 1 fun k => { k with enabled := true } } }

/-- The hub with remote 3 in service and LOCKED, at these counts, and an event due. -/
def serving (e : Due) (flap miss : Nat) (awaiting : Bool) : State :=
  { (linked (.remote 3) lockedFramer).modSup 3 fun v =>
      { v with health := .serving, flap := flap, miss := miss, awaiting := awaiting } with
    boundary := ⟨false, [e]⟩ }

theorem witness_TimersExpire :
    (.donorGrace 0 ∈ carrying.boundary.due ∧ carrying.donorCarriers 0 = 2 ∧ hub.donorCarriers 0 = 0 ∧
    .pacing ∈ (dueHub .pacing).boundary.due ∧ .flap 3 ∈ (serving (.flap 3) 2 0 false).boundary.due ∧
    .linkGrace 3 ∈ (serving (.linkGrace 3) 2 0 false).boundary.due ∧
    (serving (.linkGrace 3) 2 0 false).serviced 3 = true ∧ (dueHub (.linkGrace 3)).serviced 3 = false ∧
    min 15 (2 + 1) < hub.settings.flapLimit ∧ hub.settings.flapLimit ≤ min 15 (3 + 1)) ∧
    (InOrder fadingOut ∧ .linkGrace 5 ∈ fadingOut.boundary.due ∧ fadingOut.serviced 5 = true) :=
  ⟨by decide +kernel, fadingOut_InOrder, by decide +kernel⟩

theorem witness_PollEventPollsEveryRemote :
    .poll ∈ (serving .poll 0 2 true).boundary.due ∧ ((serving .poll 0 2 true).supRec 3).health ≠ .vacant ∧
    ((serving .poll 0 2 true).framer (.remote 3)).rx = .locked ∧ ((serving .poll 0 2 true).supRec 4).health = .vacant ∧
    hub.settings.missLimit ≤ min 15 (2 + 1) ∧ min 15 (1 + 1) < hub.settings.missLimit ∧
    min 15 (0 + 1) < hub.settings.flapLimit ∧ hub.settings.flapLimit ≤ min 15 (3 + 1) ∧
    .poll ∈ fadingOut.boundary.due ∧ (fadingOut.framer (.remote 5)).rx = .locked ∧ fadingOut.serviced 5 = true ∧
    fadingOut.settings.missLimit ≤ min 15 ((fadingOut.supRec 5).miss + 1) := by decide +kernel

/-- The laws of the device hold where remote 5, in a move, is lost by the poll of the witness above. -/
theorem witness_PollEventPollsEveryRemote_laws : InOrder fadingOut := fadingOut_InOrder

/-- The hub with a ramp step due and remote 3 JOINING four short of its target. -/
def ramping : State :=
  let s := (dueHub .rampStep).modSup 3 fun v => { v with health := .joining }
  { s with dist := { s.dist with ramps := s.dist.ramps.set 3 ⟨508, 512, false⟩ } }

theorem witness_RampStepMovesEveryRamp :
    (.rampStep ∈ ramping.boundary.due ∧ ramping.health 3 = .joining ∧ (ramping.supRec 3).held = false ∧
    (ramping.ramp 3).done = false ∧ min 512 (508 + ramping.settings.rampStep) = 512) ∧
    (InOrder fadingOut ∧ InOrder fadingIn ∧ InOrder awaitingSwitch ∧ .rampStep ∈ fadingOut.boundary.due ∧
      fadingOut.engine.state = .fadeOut ∧ fadingIn.engine.state = .fadeIn ∧ awaitingSwitch.engine.state = .switchPending) :=
  ⟨by decide +kernel, fadingOut_InOrder, fadingIn_InOrder, awaitingSwitch_InOrder, by decide +kernel⟩

/-- R125: a remote that has an alarm and completes its ramp in JOINING is IMPAIRED, and REMOTE-JOINED has detail 1. -/
theorem test_joining_ends_with_its_report :
    let t := (ramping.modSup 3 fun v => { v with alarms := { v.alarms with hot := true } }).rampStep
    t.health 3 = .impaired ∧ (t.events.records.map fun e => (e.kind, e.detail)) = [(.remoteJoined, 1)] := by decide +kernel

/-- R136, R163: the loss of the one serving remote of a sector with a minimum of 1 posts SECTOR-DEGRADED with count 0 after
REMOTE-LOST, and answers the open pass-through of its port ABORTED in its reserved place. -/
theorem test_departure_degrades_and_aborts :
    let s := orderly.modSup 5 fun v => { v with flap := 0 }
    let s := { s with
      map := { s.map with sectors := s.map.sectors.set 2 { SectorEntry.default with minimum := 1 } }
      svc := { s.svc with pass := s.svc.pass.set 5 (some ⟨.donor 2, 9, 0x50, [], 4, 1, .awaiting 5⟩), reserved := [.pass 5] } }
    let t := s.lose 5 .link
    (t.events.records.map fun e => (e.kind, e.detail)) = [(.remoteLost, 1), (.sectorDegraded, 0)] ∧
    t.svc.filled = [⟨.donor 2, 9, 0x50, .aborted, [], false⟩] ∧ t.svc.reserved = [] := by decide +kernel

theorem witness_WindowEndPublishesTheLoads : .window ∈ (dueHub .window).boundary.due ∧
    ((dueHub .window).activity 3 0).frames = 0 := by decide +kernel

/-- A hub with a window end due, carriers in sectors 2 and 3, and remote 5 over the ceiling of sector 2 at its
fourth overloaded window, with sector 3 for an alternate. -/
def overloaded : State :=
  let s := (dueHub .window).modSup 5 fun v => { v with health := .serving }
  let s := s.modLive 5 fun e => { e with configured := true, sector := some 2, alternates := [3] }
  { s with
    settings := { s.settings with autoSpread := true }
    dist := { s.dist with
      carriers := (s.dist.carriers.modify 0 fun k => { k with enabled := true, sector := some 2 }).modify 1
        fun k => { k with enabled := true, sector := some 3 }
      maps := s.dist.maps.set 2 [some 0, none, none, none, none, none]
      ramps := s.dist.ramps.set 5 ⟨512, 512, true⟩ }
    meter := { s.meter with
      records := s.meter.records.modify 5 fun t => t.set 0 ⟨20, true, 8000, 4000, some 20, 0, false⟩ }
    map := { s.map with sectors := (s.map.sectors.set 2 ⟨100, 0, true, false, true⟩).set 3 ⟨16000, 0, false, true, true⟩ }
    spreader := { s.spreader with overload := s.spreader.overload.set 2 4 } }

/-- The same hub, with remote 5 away from its home sector 3, to which it may go back, and nothing overloaded. -/
def homesick : State :=
  { overloaded with
    map := { overloaded.map with
      remotes := overloaded.map.remotes.modify 5 fun v => { v with home := some 3 }
      sectors := (overloaded.map.sectors.set 2 ⟨16000, 0, true, true, true⟩).set 3 ⟨16000, 0, true, true, true⟩ }
    spreader := { overloaded.spreader with homing := overloaded.spreader.homing.set 5 9 } }

/-- The result of the Spreader after a command. -/
def resultOf (c : Instr) (s : State) : Option Result :=
  match exec c s with
  | .next t => t.spreader.decision.map (·.result)
  | _ => none

/-- The hub after a command that answers a next state. -/
def stateAfter (c : Instr) (s : State) : State :=
  match exec c s with
  | .next t => t
  | _ => s

/-- The overloaded hub after the Meter's part of its window end, and after the Spreader's part. -/
def metered : State := stateAfter (.windowEnd .meter) overloaded
def requesting : State := stateAfter (.windowEnd .spread) metered

/-- Every case of the gate, a relief and a homing move that start, and every case of a blocked one (R95 to R98, R100);
the Spreader's part alone, and a start request taken in IDLE and in another state. -/
theorem witness_WindowEndEvaluatesSpreading :
    .window ∈ overloaded.boundary.due ∧
    resultOf (.windowEnd .whole) (dueHub .window) = some (.notEvaluated .disabled) ∧
    resultOf (.windowEnd .whole) { overloaded with engine := (moving .fadeIn .manual none).engine } =
      some (.notEvaluated .engineBusy) ∧
    resultOf (.windowEnd .whole) { overloaded with store := { hub.store with schedule := some ⟨1, 0, true⟩ } } =
      some (.notEvaluated .scheduleWaiting) ∧
    resultOf (.windowEnd .whole) { overloaded with spreader := { overloaded.spreader with lastEnd := some 5 } } =
      some (.notEvaluated .unsettled) ∧
    resultOf (.windowEnd .whole) overloaded = some (.relief 5 2 3) ∧
    resultOf (.windowEnd .whole) homesick = some (.homing 5 2 3) ∧
    resultOf (.windowEnd .whole) (overloaded.modSup 5 fun v => { v with health := .impaired }) = some (.blocked 2 .noCandidate) ∧
    resultOf (.windowEnd .whole) { overloaded with map := { overloaded.map with
      sectors := overloaded.map.sectors.modify 2 fun e => { e with minimum := 1 } } } = some (.blocked 2 .minimum) ∧
    resultOf (.windowEnd .whole) { overloaded with map := { overloaded.map with
      sectors := overloaded.map.sectors.modify 3 fun e => { e with ceiling := 0 } } } = some (.blocked 2 .noRoom) ∧
    resultOf (.windowEnd .whole) { overloaded with spreader := { overloaded.spreader with overload := Tab.const 8 0 } } =
      some .noAction ∧
    .spread ∉ overloaded.boundary.due ∧ .startRequest ∉ overloaded.boundary.due ∧
    .spread ∈ metered.boundary.due ∧ metered.meter.published.isSome = true ∧
    .startRequest ∈ requesting.boundary.due ∧ requesting.spreader.request = some ⟨.relief, 5, 2, 3, 1, 100⟩ ∧
    requesting.engine.state = .idle ∧ (moving .fadeIn .manual none).engine.state ≠ .idle := by decide +kernel

/-- A STATUS with an alarm that is taken between the loads and the Spreader takes the remote out of the candidates, and
its load stays as published (R91, R97). -/
theorem test_health_between_loads_and_spreading :
    resultOf (.windowEnd .spread) (metered.modSup 5 fun v => { v with health := .impaired }) =
      some (.blocked 2 .noCandidate) ∧
    (metered.meter.published.map fun p => p.sector.get 2) = some 500 := by decide +kernel

/-- A MOVE taken after the gate makes the engine refuse the Spreader's start: the streak is kept (R75, R99). -/
theorem test_start_refused_after_a_move :
    let t := stateAfter (.windowEnd .start) { requesting with engine := (moving .fadeIn .manual none).engine }
    t.spreader.decision = some ⟨1, 100, .refused 5 2 3⟩ ∧ t.spreader.overload.get 2 = 5 ∧
      t.engine = (moving .fadeIn .manual none).engine := by decide +kernel

/-- In IDLE the start is taken and clears the streak (R75, R99). -/
theorem test_start_taken :
    let t := stateAfter (.windowEnd .start) requesting
    t.spreader.decision = some ⟨1, 100, .relief 5 2 3⟩ ∧ t.spreader.overload.get 2 = 0 ∧
      t.engine.state = .fadeOut := by decide +kernel

theorem witness_PassThroughTimersRun :
    (passing (openPass 1 (.awaiting 5)) (dueHub (.passTimeout 3))).svc.pass.get 3 = some (openPass 1 (.awaiting 5)) ∧
    .passTimeout 3 ∈ (passing (openPass 1 (.awaiting 5)) (dueHub (.passTimeout 3))).boundary.due ∧
    (openPass 1 (.awaiting 5)).phase = .awaiting 5 ∧
    .pass 3 ∈ (passing (openPass 1 (.awaiting 5)) (dueHub (.passTimeout 3))).svc.reserved ∧
    .retryEnd 3 ∈ (passing (openPass 1 (.sending (some 0))) (dueHub (.retryEnd 3))).boundary.due ∧
    (openPass 1 (.sending (some 0))).phase = .sending (some 0) ∧ (hub.framer (.remote 3)).relayQueue.length < 4 ∧
    4 ≤ ((relaying (message 1 3 0x50 0xFF) 4).framer (.remote 3)).relayQueue.length ∧
    .sent 3 9 ∈ (passing (openPass 1 (.sending none)) (dueHub (.sent 3 9))).boundary.due ∧
    (openPass 1 (.sending none)).relayTag = 9 ∧
    .sent 3 9 ∈ (dueHub (.sent 3 9)).boundary.due ∧ (dueHub (.sent 3 9)).svc.pass.get 3 = none := by decide +kernel

/-! ### Moves, plans and schedules -/

/-- The hub with a schedule for plan 1, which is valid or not, an event due and an engine. -/
def scheduled (e : Due) (waiting valid : Bool) (g : Engine) : State :=
  { dueHub e with
    store := ⟨hub.store.plans.modify 1 fun p => { p with valid := valid }, none, some ⟨1, 100, waiting⟩⟩
    engine := g }

theorem witness_ScheduleIsTestedWhenDue :
    (scheduled .schedule false true Engine.idle).store.schedule = some ⟨1, 100, false⟩ ∧
    .schedule ∈ (scheduled .schedule false true Engine.idle).boundary.due ∧ atOrAfter hub.now 100 = true ∧
    atOrAfter hub.now 101 = false ∧ .retest ∈ (scheduled .retest true true Engine.idle).boundary.due ∧
    ((scheduled .retest true false Engine.idle).store.plans.get 1).valid = false ∧
    ((scheduled .retest true true Engine.idle).store.plans.get 1).valid = true ∧ Engine.idle.state = .idle ∧
    (moving .fadeIn .manual none).engine.state ≠ .idle := by decide +kernel

theorem witness_SwitchChangesMembership :
    awaitingSwitch.engine.record = some singleMove ∧ singleMove.kind ≠ .batch ∧
    singleMove.places = ⟨5, some 2, .sector 3⟩ :: [] ∧ awaitingSwitch.engine.state = .switchPending ∧
    .switch ∈ awaitingSwitch.boundary.due ∧ 5 ∈ awaitingSwitch.engine.holdSet ∧ (awaitingSwitch.ramp 5).present ≠ 512 ∧
    batchAwaiting.engine.record = some batchMove ∧ batchMove.kind = .batch := by
  refine ⟨rfl, by decide, rfl, rfl, by decide, by decide, by decide +kernel, rfl, rfl⟩

theorem witness_BatchSwitchReplacesTheLiveMap :
    InOrder batchAwaiting ∧ batchAwaiting.engine.record = some batchMove ∧ batchMove.kind = .batch ∧
    batchAwaiting.engine.state = .switchPending ∧ batchAwaiting.engine.pendingMap = some newMap ∧
    .switch ∈ batchAwaiting.boundary.due ∧ (batchAwaiting.live 7).configured = false ∧
    (newMap.remotes.get 7).configured = true ∧ (batchAwaiting.live 5).configured = true ∧
    (newMap.remotes.get 5).configured = false ∧ (batchAwaiting.live 6).configured = (newMap.remotes.get 6).configured := by
  refine ⟨batchAwaiting_InOrder, rfl, rfl, rfl, rfl, by decide, by decide +kernel, by decide +kernel, by decide +kernel,
    by decide +kernel, by decide +kernel⟩

theorem witness_SaveEndsWithItsWrite :
    let s := { hub with
      loader := { hub.loader with snapshot := some Stored.default }, svc := { hub.svc with reserved := [.pass 3, .save .service 7] } }
    let restarted := { s with svc := { s.svc with reserved := [] } }
    s.loader.snapshot = some Stored.default ∧ s.svc.reserved = [.pass 3] ++ .save .service 7 :: [] ∧
    hub.loader.snapshot = none ∧ restarted.loader.snapshot = some Stored.default ∧
    ∀ l tag, .save l tag ∉ restarted.svc.reserved := ⟨rfl, rfl, rfl, rfl, fun _ _ h => nomatch h⟩

/-- A hub on which RESTART falls, with a move, an open pass-through, requests and events in hand. -/
def busyHub : State :=
  { passing (openPass 1 (.awaiting 5)) fadingIn with
    boundary := ⟨false, [.restart, .donorGrace 0, .poll, .sender .service, .passTimeout 3]⟩
    events := ⟨[record .moveDone], 3, 9, true, 4⟩ }

theorem witness_RestartResetsTheBlocks : .restart ∈ busyHub.boundary.due ∧ busyHub.engine ≠ Engine.idle ∧
    busyHub.svc.reserved ≠ [] ∧ busyHub.events.records ≠ [] ∧ (busyHub.ramp 5).present ≠ 0 ∧
    (busyHub.framer (.remote 5)).handed ≠ [] := by decide +kernel

/-! ### Requests -/

/-- A hub with a request at the head takes it once its body passes the decoding. -/
theorem asked_takes (k : Byte) (b : List Byte) (h : bodyStatus k b = none) : (asked (req k b)).takes (req k b) k :=
  ⟨rfl, rfl, h⟩

theorem witness_ReadingRequestsReportTheState :
    (asked (req 0x01 [])).takes (req 0x01 []) 0x01 ∧ (asked (req 0x02 [])).takes (req 0x02 []) 0x02 ∧
    (asked (req 0x04 [11])).takes (req 0x04 [11]) 0x04 ∧ (asked (req 0x04 [12])).takes (req 0x04 [12]) 0x04 ∧
    (asked (req 0x06 [3, 0, 0])).takes (req 0x06 [3, 0, 0]) 0x06 ∧ (asked (req 0x06 [3, 1, 15])).takes (req 0x06 [3, 1, 15]) 0x06 ∧
    (asked (req 0x06 [3, 2, 8])).takes (req 0x06 [3, 2, 8]) 0x06 ∧ (asked (req 0x08 [0, 16])).takes (req 0x08 [0, 16]) 0x08 ∧
    (asked (req 0x08 [1, 7])).takes (req 0x08 [1, 7]) 0x08 ∧ (asked (req 0x0A [0, 0])).takes (req 0x0A [0, 0]) 0x0A ∧
    (asked (req 0x0A [1, 15])).takes (req 0x0A [1, 15]) 0x0A ∧ (asked (req 0x14 [3])).takes (req 0x14 [3]) 0x14 := by
  refine ⟨?_, ?_, ?_, ?_, ?_, ?_, ?_, ?_, ?_, ?_, ?_, ?_⟩ <;> exact asked_takes _ _ (by decide +kernel)

theorem witness_RefusedRequestsChangeNothing :
    (asked (req 0x0B [3])).nextRequest = some (req 0x0B [3]) ∧ bodyStatus 0x0B [3] = some .badValue ∧
    bodyStatus 0x06 [0, 3, 0] = some .badTable ∧ (places 8 (asked (req 0x0B [3]))).nextRequest = none ∧
    (asked (req 0 [])).nextRequest = some (req 0 []) ∧ (asked (req 0x19 [])).nextRequest = some (req 0x19 []) ∧
    bodyStatus 0x14 [4] = some .badValue ∧ 3 < (byteAt [4] 0).toNat ∧ bodyStatus 0x14 [0, 0] = some .badValue ∧
    bodyStatus 0x0B [3, 3] = none ∧ (asked (req 0x0B [3, 3])).nextRequest = some (req 0x0B [3, 3]) ∧
    ([21, 8] : List Nat)[(byteAt [1, 7] 0).toNat]? = some 8 := by
  decide +kernel

theorem witness_WriteSettingsWritesAllOrNothing :
    (asked (req 0x03 [25, 0, 2, 9, 0, 1])).takes (req 0x03 [25, 0, 2, 9, 0, 1]) 0x03 ∧
    (hub.settings.writeAll (settingPairs [25, 0, 2, 9, 0, 1])).isSome = true ∧
    (asked (req 0x03 [26, 0, 2])).takes (req 0x03 [26, 0, 2]) 0x03 ∧ settingPairs [26, 0, 2] = [(26, 2)] ∧
    (asked (req 0x03 [1, 0, 2, 1, 0, 3])).takes (req 0x03 [1, 0, 2, 1, 0, 3]) 0x03 ∧
    ¬((settingPairs [1, 0, 2, 1, 0, 3]).map Prod.fst).Nodup ∧
    (asked (req 0x03 [9, 0, 6])).takes (req 0x03 [9, 0, 6]) 0x03 ∧ hub.settings.writeAll (settingPairs [9, 0, 6]) = none := by
  refine ⟨asked_takes _ _ (by decide +kernel), by decide +kernel, asked_takes _ _ (by decide +kernel),
    by decide +kernel, asked_takes _ _ (by decide +kernel), by decide +kernel,
    asked_takes _ _ (by decide +kernel), by decide +kernel⟩

/-- A WRITE-CARRIER body: carrier, enabled, donor, slot, tag, sector, branches, gain 512, headroom 2. -/
def carrierBody (c enabled sector : Byte) : List Byte := [c, enabled, 0, 0, 0, sector, 2, 2, 0, 2]

/-- A WRITE-PLAN remote entry body: configured in sector 2, as the defaults otherwise, with one partner. -/
def entryBody (p r partner : Byte) : List Byte :=
  [p, 1, r, 1, 2, 2, 0, 8, 0, 0, 0, 0, 0, 0, 1, partner, 0, 0, 0, 0, 0, 1]

theorem witness_TablesAreWrittenWhole :
    (asked (req 0x05 (carrierBody 0 1 2))).takes (req 0x05 (carrierBody 0 1 2)) 0x05 ∧
    (asked (req 0x05 (carrierBody 12 1 2))).takes (req 0x05 (carrierBody 12 1 2)) 0x05 ∧
    (let s := { asked (req 0x05 (carrierBody 0 1 2)) with engine := fadingIn.engine }
     s.takes (req 0x05 (carrierBody 0 1 2)) 0x05 ∧ s.engine.state ≠ .idle) ∧
    carrierAt (carrierBody 0 1 8) 1 = none ∧
    (∃ k, carrierAt (carrierBody 0 1 2) 1 = some k ∧ k.enabled ≠ (hub.carrier 0).enabled ∧
      CarrierTableLaw (hub.dist.carriers.set 0 k) ∧ ¬CarrierTableLaw (carrying.dist.carriers.set 0 { k with slot := 1 })) ∧
    (asked (req 0x07 ([3, 0, 0, 1, 1, 0] ++ zeros))).takes (req 0x07 ([3, 0, 0, 1, 1, 0] ++ zeros)) 0x07 ∧
    (planHeadAt ([3, 0, 0, 1, 1, 0] ++ zeros) 3).isSome = true ∧ planHeadAt ([3, 0, 0, 2, 1, 0] ++ zeros) 3 = none ∧
    (asked (req 0x07 (entryBody 3 15 14))).takes (req 0x07 (entryBody 3 15 14)) 0x07 ∧
    (planEntryAt (entryBody 3 15 14) 3 15).isSome = true ∧ planEntryAt (entryBody 3 15 15) 3 15 = none ∧
    (asked (req 0x07 [3, 2, 7, 0x3E, 0x80, 1, 0, 0, 1])).takes (req 0x07 [3, 2, 7, 0x3E, 0x80, 1, 0, 0, 1]) 0x07 ∧
    sectorEntryAt [3, 2, 7, 0x3E, 0x80, 1, 0, 0, 1] 3 = some SectorEntry.default := by
  refine ⟨asked_takes _ _ (by decide +kernel), asked_takes _ _ (by decide +kernel),
    ⟨⟨rfl, rfl, by decide +kernel⟩, by decide⟩, by decide +kernel, ⟨_, rfl, by decide +kernel, (carriersLegal_iff _).mp (by decide +kernel),
      fun h => absurd ((carriersLegal_iff _).mpr h) (by decide +kernel)⟩,
    asked_takes _ _ (by decide +kernel), by decide +kernel, by decide +kernel,
    asked_takes _ _ (by decide +kernel), by decide +kernel, by decide +kernel,
    asked_takes _ _ (by decide +kernel), by decide +kernel⟩

/-- Records in range, which the round trips of TablesAreWrittenWhole ask for. -/
theorem witness_TablesAreWrittenWhole_records : (Carrier.default 5).InRange ∧ RemoteEntry.default.InRange 3 ∧
    SectorEntry.default.InRange ∧ LabelInRange 16 (some [0x41]) := by
  refine ⟨by unfold Carrier.InRange; decide, by unfold RemoteEntry.InRange; decide,
    by unfold SectorEntry.InRange; decide, fun t h => ?_⟩
  obtain rfl := Option.some.inj h
  decide

/-- The hub with remote 3 configured and serving in sector 2, an enabled carrier in sectors 2 and 3, and a request. -/
def live (k : Byte) (b : List Byte) : State :=
  let s := { overloaded with boundary := hub.boundary, svc := (asked (req k b)).svc }
  (s.modLive 3 fun e => { e with configured := true, sector := some 2 }).modSup 3 fun v => { v with health := .serving }

/-- A SET-REMOTE body of the remote form, at base gain 256 with one partner. -/
def liveBody (r partner : Byte) : List Byte :=
  [0, r, 0, 0, 1, 0, 8, 0, 0, 0, 0, 0, 0, 1, partner, 0, 0, 0, 0, 0, 1]

theorem witness_SetRemoteWritesTheLiveMap :
    (live 0x09 (liveBody 3 4)).takes (req 0x09 (liveBody 3 4)) 0x09 ∧
    (live 0x09 (liveBody 16 4)).takes (req 0x09 (liveBody 16 4)) 0x09 ∧ (live 0x09 []).batchRunning = false ∧
    ({ live 0x09 [] with engine := (moving .fadeIn .batch none).engine } : State).batchRunning = true ∧
    ((live 0x09 []).live 3).configured = true ∧ ((live 0x09 []).live 4).configured = false ∧
    (live 0x09 []).liveEntryAt 3 (liveBody 3 3) = none ∧
    (∃ e, (live 0x09 []).liveEntryAt 3 (liveBody 3 4) = some e ∧ e ≠ (live 0x09 []).live 3 ∧
      e.baseGain ≠ ((live 0x09 []).live 3).baseGain ∧ e.partners ≠ ((live 0x09 []).live 3).partners) ∧
    (live 0x09 (liveBody 3 4)).engine.lawful ∧
    (live 0x09 [1, 2, 0, 100, 2, 1, 0, 1]).takes (req 0x09 [1, 2, 0, 100, 2, 1, 0, 1]) 0x09 ∧
    (∃ e, sectorEntryAt [1, 2, 0, 100, 2, 1, 0, 1] 2 = some e ∧ e ≠ (live 0x09 []).map.sectors.get 2 ∧
      e.minimum ≠ ((live 0x09 []).map.sectors.get 2).minimum) ∧
    sectorEntryAt [1, 2, 0, 100, 0, 1, 0, 1] 2 = some ((live 0x09 []).map.sectors.get 2) ∧
    sectorEntryAt [1, 2, 0, 100, 2, 1, 0, 2] 2 = none := by
  refine ⟨⟨rfl, rfl, by decide +kernel⟩, ⟨rfl, rfl, by decide +kernel⟩, by decide +kernel, by decide +kernel,
    by decide +kernel, by decide +kernel, by decide +kernel,
    ⟨_, rfl, by decide +kernel, by decide +kernel, by decide +kernel⟩, by unfold Engine.lawful; decide,
    ⟨rfl, rfl, by decide +kernel⟩, ⟨_, rfl, by decide +kernel, by decide +kernel⟩, by decide +kernel, by decide +kernel⟩

theorem witness_MoveStartsASingleMove :
    (live 0x0B [3, 3]).takes (req 0x0B [3, 3]) 0x0B ∧ (live 0x0B [16, 3]).takes (req 0x0B [16, 3]) 0x0B ∧
    (live 0x0B [3, 3]).engine.state = .idle ∧ (live 0x0B [3, 3]).serviced 3 = true ∧ (live 0x0B [3, 3]).serviced 4 = false ∧
    (live 0x0B [3, 3]).sectorOf 3 ≠ some 3 ∧ (live 0x0B [3, 2]).sectorOf 3 = some 2 ∧
    (∃ c, ((live 0x0B [3, 3]).carrier c).enabled = true ∧ ((live 0x0B [3, 3]).carrier c).sector = some 3) ∧
    (∀ c, ((live 0x0B [3, 4]).carrier c).enabled = true → ((live 0x0B [3, 4]).carrier c).sector ≠ some 4) := by
  refine ⟨⟨rfl, rfl, by decide +kernel⟩, ⟨rfl, rfl, by decide +kernel⟩, by decide +kernel, by decide +kernel,
    by decide +kernel, by decide +kernel, by decide +kernel, by decide +kernel, by decide +kernel⟩

theorem witness_AbortRecoversAndCutOverStarts :
    (asked (req 0x0C [])).takes (req 0x0C []) 0x0C ∧
    ({ fadingOut with svc := (asked (req 0x0C [])).svc } : State).takes (req 0x0C []) 0x0C ∧
    fadingOut.engine.state = .fadeOut ∧ fadingOut.engine.record = some singleMove ∧ 5 ∈ fadingOut.engine.holdSet ∧
    (fadingOut.ramp 5).present ≠ 512 ∧
    (asked (req 0x0D [1])).takes (req 0x0D [1]) 0x0D ∧ (asked (req 0x0D [4])).takes (req 0x0D [4]) 0x0D ∧
    (hub.store.plans.get 1).valid = false ∧
    (let s := { asked (req 0x0D [1]) with store := (scheduled .schedule false true Engine.idle).store }
     s.takes (req 0x0D [1]) 0x0D ∧ s.engine.state = .idle ∧ (s.store.plans.get 1).valid = true) := by
  refine ⟨asked_takes _ _ (by decide +kernel), ⟨rfl, rfl, by decide +kernel⟩, rfl, rfl, by decide, by decide +kernel,
    asked_takes _ _ (by decide +kernel), asked_takes _ _ (by decide +kernel), by decide +kernel,
    ⟨rfl, rfl, by decide +kernel⟩, rfl, by decide +kernel⟩

theorem witness_ScheduleRequestsKeepOneRecord :
    (asked (req 0x0E [1, 0, 0, 1, 0])).takes (req 0x0E [1, 0, 0, 1, 0]) 0x0E ∧
    (asked (req 0x0E [4, 0, 0, 1, 0])).takes (req 0x0E [4, 0, 0, 1, 0]) 0x0E ∧
    (asked (req 0x0F [])).takes (req 0x0F []) 0x0F ∧ (asked (req 0x10 [])).takes (req 0x10 []) 0x10 ∧
    hub.store.schedule = none ∧
    ((scheduled .schedule false true Engine.idle).store.schedule = some ⟨1, 100, false⟩) := by
  refine ⟨asked_takes _ _ (by decide +kernel), asked_takes _ _ (by decide +kernel),
    asked_takes _ _ (by decide +kernel), asked_takes _ _ (by decide +kernel), rfl, rfl⟩

theorem witness_IsolateAndRestoreChangeHealth :
    (asked (req 0x11 [15])).takes (req 0x11 [15]) 0x11 ∧ (asked (req 0x11 [16])).takes (req 0x11 [16]) 0x11 ∧
    (asked (req 0x12 [15])).takes (req 0x12 [15]) 0x12 ∧ hub.health 3 = .vacant ∧
    (healthy 3 .isolated).health 3 = .isolated ∧ (healthy 3 .lost).health 3 = .lost ∧
    (linked (.remote 3) lockedFramer).locked (.remote 3) = true ∧
    (let s := { fadingOut with svc := { fadingOut.svc with input := [req 0x11 [5]] } }
     InOrder s ∧ s.takes (req 0x11 [5]) 0x11 ∧ s.health 5 = .serving) := by
  refine ⟨asked_takes _ _ (by decide +kernel), asked_takes _ _ (by decide +kernel),
    asked_takes _ _ (by decide +kernel), by decide +kernel, by decide +kernel, by decide +kernel, by decide +kernel,
    fadingOut_InOrder.asked _, ⟨rfl, rfl, by decide +kernel⟩, by decide +kernel⟩

theorem witness_EventsCountersAndTapAreServed :
    (asked (req 0x13 [8])).takes (req 0x13 [8]) 0x13 ∧ (asked (req 0x15 [15])).takes (req 0x15 [15]) 0x15 ∧
    (asked (req 0x15 [16])).takes (req 0x15 [16]) 0x15 ∧ (asked (req 0x16 [0, 16, 12])).takes (req 0x16 [0, 16, 12]) 0x16 ∧
    (asked (req 0x16 [1, 16, 11])).takes (req 0x16 [1, 16, 11]) 0x16 ∧
    (asked (req 0x16 [2, 15, 11])).takes (req 0x16 [2, 15, 11]) 0x16 ∧
    (asked (req 0x16 [3, 16, 11])).takes (req 0x16 [3, 16, 11]) 0x16 := by
  refine ⟨?_, ?_, ?_, ?_, ?_, ?_, ?_⟩ <;> exact asked_takes _ _ (by decide +kernel)

theorem witness_SaveAndRestartBegin :
    (asked (req 0x17 (List.replicate 33 0))).takes (req 0x17 (List.replicate 33 0)) 0x17 ∧
    labelAt 32 (List.replicate 33 0) 0 = some none ∧
    (asked (req 0x17 (33 :: List.replicate 32 0x41))).takes (req 0x17 (33 :: List.replicate 32 0x41)) 0x17 ∧
    labelAt 32 (33 :: List.replicate 32 0x41) 0 = none ∧
    labelAt 32 (2 :: List.replicate 32 0x41) 0 = some (some [0x41, 0x41]) ∧
    (asked (req 0x18 [])).takes (req 0x18 []) 0x18 := by
  refine ⟨asked_takes _ _ (by decide +kernel), by decide +kernel, asked_takes _ _ (by decide +kernel),
    by decide +kernel, by decide +kernel, asked_takes _ _ (by decide +kernel)⟩

/-! ### Tables -/

theorem witness_BranchMappingsFollowTheTables : 0 < max [(⟨1, 2⟩ : Sample)].length ([] : Branch).length := by decide

theorem witness_TargetIsTheFirstCaseThatApplies :
    hub.health 3 = .vacant ∧ (healthy 5 .serving).health 5 = .serving ∧ 5 ∉ (healthy 5 .serving).engine.holdSet ∧
    5 ∈ (moving .fadeOut .manual none).engine.holdSet ∧ ((healthy 5 .serving).supRec 5).alarms.hot = false ∧
    (((healthy 5 .serving).modSup 5 fun v => { v with alarms := ⟨false, false, true, false⟩ }).supRec 5).alarms.hot = true := by
  decide +kernel

theorem witness_PostTakesTheFirstCaseThatFits :
    ([record .remoteLost] : List Event) = [] ++ record .remoteLost :: [] ∧
    (List.replicate 64 (record .moveDone)).length = 64 ∧
    List.replicate 64 (record .moveDone) = [] ++ record .moveDone :: List.replicate 63 (record .moveDone) ∧
    EventKind.moveDone.urgent = false ∧ EventKind.remoteLost.urgent = true := by decide +kernel

/-! ## One step of a command, against its rule -/

/-- A command gives a next state with this property. -/
def after (c : Instr) (s : State) (p : State → Bool) : Bool :=
  match exec c s with
  | .next t => p t
  | _ => false

/-- R165, R8: once the image read has ended, the first boundary carries FC 0. -/
theorem test_first_boundary : after (.imageReadEnd .noImage) State.reset (fun s =>
    decide (s.loader.image = some (.defaulted .absent)) && after (.frameBoundary .emit) s fun t =>
      decide (t.now = 0) && t.clock.started) = true := by decide +kernel

/-- R1, R29: loss of signal takes a LOCKED donor link to DOWN, and its grace timer starts. -/
theorem test_loss_of_signal : after (.lossOfSignal (.donor 2)) (linked (.donor 2) lockedFramer) (fun t =>
    decide ((t.framer (.donor 2)).rx = .down) && decide ((t.dist.donors.get 2).timer = some 0)) = true := by
  decide +kernel

/-- R76, R77: MOVE of remote 5, at gain 512 in sector 2, to sector 3 fades it out, held, and answers DONE. -/
theorem test_move : after .move (live 0x0B [5, 3]) (fun t =>
    decide (t.engine.state = .fadeOut) && (t.supRec 5).held && decide (t.ramp 5 = ⟨512, 0, false⟩) &&
      decide (t.svc.filled = [⟨.service, 7, 0x0B, .done, [], false⟩])) = true := by decide +kernel

/-- R76: MOVE to the remote's own sector is BAD-VALUE. -/
theorem test_move_to_own_sector : after .move (live 0x0B [5, 2]) (fun t =>
    decide (t.svc.filled = [⟨.service, 7, 0x0B, .badValue, [], false⟩]) && decide (t.engine.state = .idle)) = true := by
  decide +kernel

/-- R131: ISOLATE posts REMOTE-ISOLATED with detail 2 and takes the remote to ISOLATED. -/
theorem test_isolate : after .isolate (live 0x11 [3]) (fun t => decide (t.health 3 = .isolated) &&
    t.events.records.any fun e => decide (e.kind = .remoteIsolated) && decide (e.detail = 2)) = true := by decide +kernel

/-- R130: the third missed poll takes a remote in service to LOST with cause NO-REPLY. -/
theorem test_third_miss : after .pollEvent (serving .poll 0 2 true) (fun t =>
    decide (t.health 3 = .lost) && decide ((t.supRec 3).cause = some .noReply) && decide ((t.supRec 3).flap = 1)) = true := by
  decide +kernel

/-- R132: the loss that brings the flap counter to the limit isolates. -/
theorem test_flapping : after (.linkGraceExpiry 3) (serving (.linkGrace 3) 3 0 false) (fun t =>
    decide (t.health 3 = .isolated) && decide ((t.supRec 3).cause = some .flapping)) = true := by decide +kernel

/-- R33, R125: the ramp step that completes a JOINING remote's ramp makes it SERVING. -/
theorem test_ramp_completes : after .rampStepEvent ramping (fun t =>
    decide (t.ramp 3 = ⟨512, 512, true⟩) && decide (t.health 3 = .serving)) = true := by decide +kernel

/-- R13, R148: a response without content is one slot with the request's kind and tag and status code 0. -/
theorem test_response_slot : after (.responseStart .service)
    (atSender .service lockedFramer [response .service] EventQueue.reset) (fun t =>
      decide ((t.framer .service).emission = some ⟨.response false,
        [⟨1, [0, 0, 0, 0, 1, 1, 0, 0, 0, 0, 0, 0, 0, 0, 0, 0]⟩]⟩)) = true := by decide +kernel

/-- R158: TAP with point 2 selects the raw samples of a remote and a carrier. -/
theorem test_tap : after .tap (asked (req 0x16 [2, 15, 11])) (fun t => decide (t.svc.tap = .raw 15 11)) = true := by
  decide +kernel

end Sys2Proof.Tests
end

section
namespace Sys2Proof.Machine

/-! ## Every command keeps the laws of the device (`Sound`) -/

/-- The laws of the device through any command. -/
theorem exec_sound {c : Instr} {s t : State} (h : exec c s = .next t) : Sound s t := by
  have due : ∀ (s : State) (e : Due) (f : State → State), (∀ s, Quiet s (f s)) → Sound s (s.takeDue e f) :=
    fun s e f k => (s.takeDue_quiet e f k).steady.sound
  cases c
  case relayedMessageSent r =>
    simp only [exec, execRelayedMessageSent] at h
    split at h <;> cases h
    · exact due _ _ _ fun s => s.sentReport_quiet r _
    · exact .refl _
  all_goals cases h
  case powerOnReset => exact s.powerOn_sound
  case imageReadEnd x => exact s.readEnds_sound x
  case frameBoundary p => exact s.boundaryPart_sound p
  case lossOfSignal l => exact (s.lossOfSignal_steady l).sound
  case signalReturns l => exact (s.signalReturns_quiet l).steady.sound
  case goodFrame l x => exact (s.frameEnds_steady l x).sound
  case erroredFrame l x => exact (s.frameEnds_steady l x).sound
  case serviceMessageArrival l => exact (s.takeServiceMessage_steady l).sound
  case status r => exact (s.takeStatus_quiet r).steady.sound
  case reply r => exact (s.takeReply_quiet r).steady.sound
  case busyReply r => exact (s.takeBusy_quiet r).steady.sound
  case responseStart l => exact (s.startResponse_quiet l).steady.sound
  case notice => exact s.startNotice_quiet.steady.sound
  case arbiterMessageBoundary r => exact (s.startRemote_quiet r).steady.sound
  case donorGraceExpiry n => exact due _ _ _ fun s => s.donorGraceExpires_quiet n
  case linkGraceExpiry r => exact due _ _ _ fun s => s.graceExpires_quiet r
  case pollEvent => exact due _ _ _ State.pollExpires_quiet
  case flapDecayExpiry r => exact due _ _ _ fun s => s.flapExpires_quiet r
  case rampStepEvent => exact due _ _ _ State.rampStep_quiet
  case windowEnd p => exact (s.windowPart_quiet p).steady.sound
  case pacingTimerExpiry => exact due _ _ _ State.pacingExpires_quiet
  case passTimeout r => exact due _ _ _ fun s => s.passExpires_quiet r
  case passRetryDelayEnd r => exact due _ _ _ fun s => s.retryEnds_quiet r
  case scheduleDue => exact due _ _ _ State.dueTest_quiet
  case dueWaitingRetest => exact due _ _ _ State.waitingTest_quiet
  case switch => exact (Quiet.ite (.refl s) (s.takeDue_quiet _ _ State.switchFalls_quiet)).steady.sound
  case batchSwitch => exact (Quiet.ite (s.takeDue_quiet _ _ State.switchFalls_quiet) (.refl s)).steady.sound
  case saveWriteCompletion => exact s.saveCompletes_sound
  case saveWriteFailure => exact s.saveFails_sound
  case restartTakesEffect => exact due _ _ _ State.restartEffect_quiet
  case identify => exact s.takeRequest_sound _ _ fun _ _ => .report _
  case readSettings => exact s.takeRequest_sound _ _ fun _ _ => .report _
  case writeSettings => exact s.takeRequest_sound _ _ fun s _ => s.askWriteSettings_mild _
  case readCarrier => exact s.takeRequest_sound _ _ fun s _ => s.askReadCarrier_mild _
  case writeCarrier => exact s.takeRequest_sound _ _ fun s _ => s.askWriteCarrier_mild _
  case readPlan => exact s.takeRequest_sound _ _ fun s _ => s.askReadPlan_mild _
  case writePlan => exact s.takeRequest_sound _ _ fun s _ => s.askWritePlan_mild _
  case readLive => exact s.takeRequest_sound _ _ fun s _ => s.askReadLive_mild _
  case setRemote => exact s.takeRequest_sound _ _ fun s _ => s.askSetRemote_mild _
  case readLoad => exact s.takeRequest_sound _ _ fun s _ => s.askReadLoad_mild _
  case move => exact s.takeRequest_sound _ _ fun s _ => s.askMove_mild _
  case abort => exact s.takeRequest_sound _ _ fun s _ => s.askAbort_mild
  case cutOver => exact s.takeRequest_sound _ _ fun s _ => s.askCutOver_mild _
  case schedule => exact s.takeRequest_sound _ _ fun s _ => s.askSchedule_mild _
  case cue => exact s.takeRequest_sound _ _ fun s _ => s.askCue_mild
  case cancel => exact s.takeRequest_sound _ _ fun s _ => s.askCancel_mild
  case isolate => exact s.takeRequest_sound _ _ fun s _ => s.askIsolate_mild _
  case restore => exact s.takeRequest_sound _ _ fun s _ => s.askRestore_mild _
  case readEvents => exact s.takeRequest_sound _ _ fun s _ => s.askReadEvents_mild _
  case readCounters => exact s.takeRequest_sound _ _ fun _ _ => .report _
  case clearCounters => exact s.takeRequest_sound _ _ fun s _ => s.askClearCounters_mild _
  case tap => exact s.takeRequest_sound _ _ fun s _ => s.askTap_mild _
  case save => exact s.takeSave_sound
  case restart => exact s.takeRestart_sound
  case unknownRequest => exact s.takeUnknown_sound

end Sys2Proof.Machine
end

section
namespace Sys2Proof.Machine

/-! ## The Meter's values (R61 to R71) -/

theorem Activity.InRange.reset : Activity.reset.InRange :=
  ⟨le_refl _, nofun, le_refl _, Nat.zero_le _, Nat.zero_le _⟩

/-- A change of stale flags alone keeps a record within its ranges. -/
theorem Activity.InRange.restale {a b : Activity} (h : a.InRange) (k : b = { a with stale := b.stale }) : b.InRange := by
  rw [k]
  exact ⟨h.floor, h.minimum, h.busy, h.frames, h.occupancy⟩

theorem Activity.InRange.counted_le {a : Activity} (h : a.InRange) : a.counted ≤ 1000 := by
  unfold Activity.counted
  split
  · exact Nat.zero_le _
  · exact h.occupancy

/-- The largest of numbers within a bound is within it. -/
theorem foldl_max_le (xs : List Nat) {b m : Nat} (hm : m ≤ b) (h : ∀ x ∈ xs, x ≤ b) : xs.foldl max m ≤ b := by
  induction xs generalizing m with
  | nil => exact hm
  | cons x xs ih =>
    exact ih (max_le hm (h x (List.mem_cons_self ..))) fun y hy => h y (List.mem_cons_of_mem _ hy)

theorem State.remoteLoad_le {s : State} (h : ∀ r c, (s.activity r c).InRange) (r : RemoteId) : s.remoteLoad r ≤ 1000 := by
  unfold State.remoteLoad
  split
  · split
    · refine foldl_max_le _ (Nat.zero_le _) fun n hn => ?_
      obtain ⟨c, -, rfl⟩ := List.mem_map.mp hn
      exact (h r c).counted_le
    · exact Nat.zero_le _
  · exact Nat.zero_le _

/-- There are at most 16 in-service members of a sector, so what each counts up to 1,000 sums to at most 16,000. -/
theorem State.sum_activeMembers_le (s : State) (x : SectorId) {f : RemoteId → Nat} (h : ∀ r, f r ≤ 1000) :
    ((s.activeMembers x).map f).sum ≤ 16000 := by
  have len : (s.activeMembers x).length ≤ 16 :=
    ((List.length_filter_le _ _).trans (List.length_filter_le _ _)).trans (by simp)
  have sum := List.sum_le_card_nsmul ((s.activeMembers x).map f) 1000 (by simpa using fun r _ => h r)
  simp only [List.length_map, smul_eq_mul] at sum
  omega

/-- The loads of records within their ranges are within theirs (R67, R68). -/
theorem State.loadsNow_inRange {s : State} (h : ∀ r c, (s.activity r c).InRange) (fc : FC) :
    (∀ r, (s.loadsNow fc).remote.get r ≤ 1000) ∧ (∀ x, (s.loadsNow fc).sector.get x ≤ 16000) ∧
      ∀ c, (s.loadsNow fc).carrier.get c ≤ 16000 := by
  refine ⟨fun r => ?_, fun x => ?_, fun c => ?_⟩
  · simpa [State.loadsNow] using State.remoteLoad_le h r
  · simpa [State.loadsNow, State.sectorLoad] using s.sum_activeMembers_le x (State.remoteLoad_le h)
  · simp only [State.loadsNow, Tab.get_ofFn, State.carrierLoad]
    split
    · exact s.sum_activeMembers_le _ fun r => (h r c).counted_le
    · exact Nat.zero_le _

theorem State.closeWindow_meter (s : State) (h : s.meter.Lawful) : s.closeWindow.meter.Lawful := by
  have settled : ∀ r c, (({ s with meter := { s.meter with
      records := s.meter.records.map fun t => t.map fun a => a.settle s.meter.window } } : State).activity r c).InRange := by
    intro r c
    simpa [State.activity] using (h.records r c).settle _
  obtain ⟨remote, sector, carrier⟩ := State.loadsNow_inRange settled s.now
  exact ⟨settled, fun p hp => by cases hp; exact remote, fun p hp => by cases hp; exact sector,
    fun p hp => by cases hp; exact carrier⟩

theorem State.release_meter (s : State) (n : FC) (h : s.meter.Lawful) : (s.release n).meter.Lawful := by
  refine ⟨fun r c => ?_, h.remote, h.sector, h.carrier⟩
  simp only [State.release, Tab.get_mapIdx]
  split
  · rename_i level hl
    refine (h.records r c).measure _ ?_
    unfold State.measured at hl
    split at hl
    · obtain ⟨l, -, rfl⟩ := Option.map_eq_some_iff.mp hl
      exact laneLevel_le _ _
    · cases hl
  · exact h.records r c

/-! ## What releases no number and queues no frame -/

/-- What leaves the frame clock, the boundary in progress and the last number released as they are, queues no frame, and
keeps the Meter's values within their ranges. -/
structure Calm (s t : State) : Prop where
  fc : t.clock.fc = s.clock.fc
  started : t.clock.started = s.clock.started
  acting : t.boundary.acting = s.boundary.acting
  last : t.comb.last = s.comb.last
  queues : ∀ r, (t.comb.queues.get r).Sublist (s.comb.queues.get r)
  meter : s.meter.Lawful → t.meter.Lawful

namespace Calm

theorem refl (s : State) : Calm s s := ⟨rfl, rfl, rfl, rfl, fun _ => .refl _, id⟩

theorem trans {s t u : State} (h : Calm s t) (k : Calm t u) : Calm s u where
  fc := k.fc.trans h.fc
  started := k.started.trans h.started
  acting := k.acting.trans h.acting
  last := k.last.trans h.last
  queues := fun r => (k.queues r).trans (h.queues r)
  meter := fun e => k.meter (h.meter e)

theorem ite {s t u : State} {c : Prop} [Decidable c] (h : Calm s t) (k : Calm s u) : Calm s (if c then t else u) := by
  split
  · exact h
  · exact k

theorem foldl {α : Type} {f : State → α → State} (h : ∀ s a, Calm s (f s a)) (xs : List α) (s : State) :
    Calm s (xs.foldl f s) := by
  induction xs generalizing s with
  | nil => exact refl s
  | cons a xs ih => exact (h s a).trans (ih (f s a))

/-- A change that leaves every part Calm looks at. -/
theorem of_parts {s t : State} (fc : t.clock.fc = s.clock.fc) (started : t.clock.started = s.clock.started)
    (acting : t.boundary.acting = s.boundary.acting) (last : t.comb.last = s.comb.last)
    (queues : t.comb.queues = s.comb.queues) (meter : t.meter = s.meter) : Calm s t :=
  ⟨fc, started, acting, last, fun r => by rw [queues], fun h => by rw [meter]; exact h⟩

/-- The law of the alignment queues is kept where no number is released and no frame queued (R38). -/
theorem alignment {s t : State} (h : Calm s t) (k : s.AlignmentLaw) : t.AlignmentLaw := by
  have now : t.now = s.now := by simp only [State.now, h.fc, h.started]
  refine ⟨fun r => (h.queues r).length_le.trans (k.room r), fun r => (k.order r).sublist (h.queues r),
    fun r e he l hl => k.fresh r e ((h.queues r).subset he) l (h.last ▸ hl),
    fun r e he => now ▸ k.ahead r e ((h.queues r).subset he), fun l hl => ?_, fun hn => ?_, fun hs => ?_⟩
  · rw [now, h.acting]; exact k.last l (h.last ▸ hl)
  · rw [h.acting, h.started]; exact k.first (h.last ▸ hn)
  · obtain ⟨last, acting, empty⟩ := k.unstarted (h.started ▸ hs)
    exact ⟨h.last.trans last, h.acting.trans acting, fun r => List.sublist_nil.mp (empty r ▸ h.queues r)⟩

end Calm

theorem Spares.calm {s t : State} (h : Spares s t) : Calm s t where
  fc := by rw [h.clock]
  started := by rw [h.clock]
  acting := h.acting
  last := by rw [h.comb]
  queues := fun r => by rw [h.comb]
  meter := fun k => by
    have same := congrArg Meter.published h.meter
    refine ⟨fun r c => (k.records r c).restale (h.records r c), ?_, ?_, ?_⟩ <;> simp only [same]
    exacts [k.remote, k.sector, k.carrier]

theorem Settles.calm {s t : State} (h : Settles s t) : Calm s t := h.spares.calm

theorem State.takeDue_calm (s : State) (e : Due) (f : State → State) (h : ∀ s, Calm s (f s)) : Calm s (s.takeDue e f) :=
  Calm.ite ((s.unDue_spares e).calm.trans (h _)) (.refl s)

/-- The Spreader's own record and the Event Queue hold none of it. -/
theorem State.setSpreader_calm (s : State) (p : Spreader) : Calm s { s with spreader := p } :=
  .of_parts rfl rfl rfl rfl rfl rfl

theorem State.setSvc_calm (s : State) (v : Service) : Calm s { s with svc := v } := .of_parts rfl rfl rfl rfl rfl rfl

theorem State.modDonor_calm (s : State) (n : DonorId) (f : DonorState → DonorState) : Calm s (s.modDonor n f) :=
  .of_parts rfl rfl rfl rfl rfl rfl

theorem State.post_calm (s : State) (k : EventKind) (x : Subject) (d : BitVec 16) : Calm s (s.post k x d) :=
  (s.post_spares k x d).calm

/-! ### The window end -/

theorem State.relief_calm (s : State) (p : Published) : Calm s (s.relief p).1 := by
  unfold State.relief
  split
  · exact .refl s
  · simp only
    split
    · exact s.post_calm _ _ _
    · split
      · exact s.post_calm _ _ _
      · split
        · exact s.post_calm _ _ _
        · exact .refl s

theorem State.evaluate_calm (s : State) (p : Published) : Calm s (s.evaluate p).1 := by
  unfold State.evaluate
  split
  · exact .refl s
  · split
    all_goals
      rename_i h
      have := s.relief_calm p
      try rw [h] at this
      exact this

theorem State.spread_calm (s : State) (p : Published) : Calm s (s.spread p) := by
  have judged : Calm s ((s.judgeSettled p).updateStreaks p) :=
    (s.setSpreader_calm _).trans (State.setSpreader_calm _ _)
  have evaluated := judged.trans (State.evaluate_calm _ p)
  unfold State.spread
  simp only
  split
  · exact (evaluated.trans (State.setSpreader_calm _ _)).trans (State.setSpreader_calm _ _)
  · exact evaluated.trans (State.setSpreader_calm _ _)

theorem State.windowAlarms_calm (s : State) : Calm s s.windowAlarms := by
  have clip : ∀ (s : State) (c : CarrierId), Calm s (s.clipAlarm c) := fun s c => by
    unfold State.clipAlarm
    exact Calm.ite (s.post_calm _ _ _) (.refl s)
  have port : ∀ (s : State) (r : RemoteId), Calm s (s.portAlarms r) := fun s r => by
    have late : Calm s (if s.settings.lateLimit ≠ 0 ∧ (s.comb.window.get r).late > s.settings.lateLimit then
        s.post .lateUplink (.remote r) (word16 (s.comb.window.get r).late) else s) :=
      Calm.ite (s.post_calm _ _ _) (.refl s)
    unfold State.portAlarms
    exact Calm.ite (late.trans (State.post_calm _ _ _ _)) late
  have clear : ∀ t : State, Calm t t.clearWindow := fun _ => .of_parts rfl rfl rfl rfl rfl rfl
  exact ((Calm.foldl clip _ s).trans (Calm.foldl port _ _)).trans (clear _)

theorem State.closeWindow_calm (s : State) : Calm s s.closeWindow :=
  ⟨rfl, rfl, rfl, rfl, fun _ => .refl _, s.closeWindow_meter⟩

theorem State.meterEnds_calm (s : State) : Calm s s.meterEnds :=
  s.closeWindow_calm.trans (State.windowAlarms_calm _)

theorem State.spreadEnds_calm (s : State) : Calm s s.spreadEnds := by
  unfold State.spreadEnds
  split
  · exact s.spread_calm _
  · exact .refl s

theorem State.takeRequested_calm (s : State) : Calm s s.takeRequested := by
  unfold State.takeRequested
  split
  · rename_i q _
    have unset : Calm s (s.setRequest none) := s.setSpreader_calm _
    have started := unset.trans (State.startSingle_settles (s.setRequest none) q.kind.move q.remote q.dest).calm
    have cleared : ∀ t : State, Calm t (t.clearStreak q) := fun t => by
      unfold State.clearStreak
      split
      · exact t.setSpreader_calm _
      · exact t.setSpreader_calm _
    unfold State.answerRequest
    exact Calm.ite ((started.trans (cleared _)).trans (State.setSpreader_calm _ _))
      (started.trans (State.setSpreader_calm _ _))
  · exact .refl s

theorem State.windowEnd_calm (s : State) : Calm s s.windowEnd :=
  (s.meterEnds_calm.trans (State.spreadEnds_calm _)).trans (State.takeRequested_calm _)

theorem State.windowPart_calm (s : State) (part : WindowPart) : Calm s (s.windowPart part) := by
  cases part with
  | whole => exact s.takeDue_calm _ _ State.windowEnd_calm
  | meter =>
    exact s.takeDue_calm .window (fun s => s.meterEnds.markDue .spread) fun s => s.meterEnds_calm.trans (State.markDue_spares _ _).calm
  | spread =>
    exact s.takeDue_calm _ _ fun s =>
      Calm.ite (s.spreadEnds_calm.trans (State.markDue_spares _ _).calm) s.spreadEnds_calm
  | start => exact s.takeDue_calm _ _ State.takeRequested_calm

/-! ### Events that have fallen due -/

theorem State.restartEffect_calm (s : State) : Calm s s.restartEffect := by
  refine ⟨rfl, rfl, rfl, rfl, fun r => by simp [State.restartEffect], fun _ => ⟨fun r c => ?_, nofun, nofun, nofun⟩⟩
  simpa [State.restartEffect] using Activity.InRange.reset

theorem State.donorGraceExpires_calm (s : State) (n : DonorId) : Calm s (s.donorGraceExpires n) :=
  Calm.ite ((s.modDonor_calm _ _).trans (State.post_calm _ _ _ _)) (s.modDonor_calm _ _)

theorem State.pollExpires_calm (s : State) : Calm s s.pollExpires :=
  ((s.setSup_spares _).trans (State.pollEvent_spares _)).calm

theorem State.dueEffect_calm (s : State) (e : Due) : Calm s (s.dueEffect e) := by
  cases e with
  | switch => exact s.switchFalls_spares.calm
  | rampStep => exact s.rampStep_spares.calm
  | sender l => exact (s.startAny_spares l).calm
  | window => exact s.windowEnd_calm
  | spread => exact s.spreadEnds_calm.trans (State.takeRequested_calm _)
  | startRequest => exact s.takeRequested_calm
  | poll => exact s.pollExpires_calm
  | pacing => exact (s.setEvents_spares _).calm
  | donorGrace n => exact s.donorGraceExpires_calm n
  | linkGrace r => exact (s.graceExpires_spares r).calm
  | flap r => exact (s.modSup_spares r _).calm
  | passTimeout r => exact (s.passExpires_spares r).calm
  | retryEnd r => exact (s.retryEnds_spares r).calm
  | schedule => exact s.dueTest_spares.calm
  | retest => exact s.waitingTest_spares.calm
  | sent r t => exact (s.sentReport_spares r t).calm
  | restart => exact s.restartEffect_calm

theorem State.takeList_calm (s : State) (es : List Due) : Calm s (s.takeList es) :=
  .foldl (fun s e => s.takeDue_calm e _ fun s => s.dueEffect_calm e) es s

end Sys2Proof.Machine
end

section
namespace Sys2Proof.Machine

/-! ### Messages -/

theorem State.modFramer_calm (s : State) (l : Link) (f : Framer → Framer) : Calm s (s.modFramer l f) :=
  .of_parts (by simp) (by simp) (by simp) (by simp) (by simp) (by simp)

theorem State.countSvc_calm (s : State) (l : MsgLink) (f : LinkService → LinkService) : Calm s (s.countSvc l f) := by
  cases l <;> exact s.setSvc_calm _

theorem State.fill_calm (s : State) (p : Response) : Calm s (s.fill p) := s.setSvc_calm _

theorem State.answerArrival_calm (s : State) (l : MsgLink) (m : Message) (st : Status) :
    Calm s (s.answerArrival l m st) :=
  Calm.ite ((s.fill_calm _).trans (State.countSvc_calm _ _ _)) (s.countSvc_calm _ _)

theorem State.openPass_calm (s : State) (r : RemoteId) (l : MsgLink) (m : Message) : Calm s (s.openPass r l m) :=
  Calm.trans (s.setSvc_calm _) (State.offer_spares _ r _).calm

theorem State.startSetRelay_calm (s : State) (l : MsgLink) (m : Message) (ports : List RemoteId) :
    Calm s (s.startSetRelay l m ports) := by
  have offered : ∀ (s : State) (r : RemoteId),
      Calm s ((s.takeTag r).2.offer r ⟨true, (s.takeTag r).1, m.head.kind, m.body⟩) :=
    fun s r => ((s.takeTag_spares r).trans (State.offer_spares _ r _)).calm
  exact ((s.setSvc_calm _).trans (Calm.foldl offered ports _)).trans (State.endSetRelay_spares _).calm

theorem State.admitMessage_calm (s : State) (l : MsgLink) (m : Message) : Calm s (s.admitMessage l m) := by
  unfold State.admitMessage
  refine Calm.ite (s.countSvc_calm _ _) ?_
  split
  · exact s.answerArrival_calm _ _ _
  · exact (s.setSvc_calm _).trans (State.countSvc_calm _ _ _)
  · exact s.openPass_calm _ _ _
  · exact s.startSetRelay_calm _ _ _

theorem State.serviceArrives_calm (s : State) (l : MsgLink) (m : Message) : Calm s (s.serviceArrives l m) := by
  unfold State.serviceArrives
  refine Calm.ite (s.countSvc_calm _ _) ?_
  split
  · exact s.countSvc_calm _ _
  · exact Calm.ite (s.answerArrival_calm _ _ _) (s.admitMessage_calm _ _)
  · exact s.admitMessage_calm _ _

theorem State.takeServiceMessage_calm (s : State) (l : MsgLink) : Calm s (s.takeServiceMessage l) := by
  unfold State.takeServiceMessage
  split
  · exact (s.modFramer_calm _ _).trans (State.serviceArrives_calm _ _ _)
  · exact .refl s

theorem State.takeRemoteMessage_calm (s : State) (r : RemoteId) (kind : Byte) (f : State → Message → State)
    (h : ∀ s m, Spares s (f s m)) : Calm s (s.takeRemoteMessage r kind f) := by
  unfold State.takeRemoteMessage
  split
  · exact Calm.ite ((s.modFramer_calm _ _).trans (h _ _).calm) (.refl s)
  · exact .refl s

theorem State.takeStatus_calm (s : State) (r : RemoteId) : Calm s (s.takeStatus r) :=
  s.takeRemoteMessage_calm _ _ _ fun s m => s.statusArrives_spares r m.body

theorem State.takeReply_calm (s : State) (r : RemoteId) : Calm s (s.takeReply r) :=
  s.takeRemoteMessage_calm _ _ _ fun s m => s.replyArrives_spares r m

theorem State.takeBusy_calm (s : State) (r : RemoteId) : Calm s (s.takeBusy r) :=
  s.takeRemoteMessage_calm _ _ _ fun s m => s.busyArrives_spares r m

theorem State.takeAnyRemote_calm (s : State) (r : RemoteId) : Calm s (s.takeAnyRemote r) := by
  unfold State.takeAnyRemote
  split
  · exact Calm.ite (s.takeStatus_calm r) (Calm.ite (s.takeReply_calm r) (s.takeBusy_calm r))
  · exact .refl s

theorem State.drainService_calm (s : State) (l : MsgLink) (n : Nat) : Calm s (s.drainService l n) := by
  induction n generalizing s with
  | zero => exact .refl s
  | succ n ih => exact (s.takeServiceMessage_calm l).trans (ih _)

theorem State.drainRemote_calm (s : State) (r : RemoteId) (n : Nat) : Calm s (s.drainRemote r n) := by
  induction n generalizing s with
  | zero => exact .refl s
  | succ n ih => exact (s.takeAnyRemote_calm r).trans (ih _)

theorem State.drainHanded_calm (s : State) : Calm s s.drainHanded :=
  ((Calm.foldl (fun s r => s.drainRemote_calm r _) _ s).trans
    (Calm.foldl (fun s n => s.drainService_calm (.donor n) _) _ _)).trans (State.drainService_calm _ _ _)

/-! ### Links -/

theorem State.takeStatuses_calm (s : State) (r : RemoteId) (n : Nat) : Calm s (s.takeStatuses r n) := by
  induction n generalizing s with
  | zero => exact .refl s
  | succ n ih =>
    refine Calm.trans ?_ (ih _)
    unfold State.takeWaitingStatus
    split
    · exact (s.modFramer_calm _ _).trans (State.statusArrives_spares _ r _).calm
    · exact .refl s

theorem State.takeArrived_calm (s : State) (l : Link) : Calm s (s.takeArrived l) := by
  cases l with
  | donor n => exact s.drainService_calm _ _
  | remote r => exact s.takeStatuses_calm r _
  | service => exact s.drainService_calm _ _

/-- An event of a link that is no remote link queues no uplink frame. -/
theorem LinkEvent.calm {l : Link} {s t : State} (h : LinkEvent l s t) (k : ∀ r, l ≠ .remote r) : Calm s t where
  fc := by rw [h.clock]
  started := by rw [h.clock]
  acting := h.acting
  last := by rw [h.comb]
  queues := fun r => by rw [(h.ports r (k r)).1]
  meter := fun e => by rw [h.meter]; exact e

theorem State.remoteUnlocked_calm (s : State) (r : RemoteId) : Calm s (s.remoteUnlocked r) := by
  have emptied : Calm s (s.setQueue r []) :=
    ⟨rfl, rfl, rfl, rfl, fun x => by
      simp only [State.setQueue, Tab.get_set]
      split
      · exact List.nil_sublist _
      · exact .refl _, id⟩
  refine emptied.trans (Spares.calm ?_)
  exact ((((State.modSup_spares _ r _).trans (State.unDue_spares _ _)).trans (State.abortPass_spares _ r)).trans
    (State.setRefused_spares _ r _)).trans (State.leaveRemaining_spares _ r)

theorem State.leaveLocked_calm (s : State) (l : Link) : Calm s (s.leaveLocked l) := by
  have own : Calm s (if (s.framer l).emission.any Emission.isRestart then (s.modFramer l Framer.unlock).markDue .restart
      else s.modFramer l Framer.unlock) :=
    Calm.ite ((s.modFramer_calm _ _).trans (State.markDue_spares _ _).calm) (s.modFramer_calm _ _)
  cases l with
  | donor n => exact own.trans ((State.donorUnlocked_linkEvent _ n).calm nofun)
  | remote r => exact own.trans (State.remoteUnlocked_calm _ r)
  | service => exact own.trans ((State.dropOffer_linkEvent _).calm nofun)

theorem State.loseLock_calm (s : State) (l : Link) (next : RxState) (own : Framer → Framer) :
    Calm s (s.loseLock l next own) :=
  ((s.takeArrived_calm l).trans (State.modFramer_calm _ _ _)).trans (State.leaveLocked_calm _ l)

theorem State.lossOfSignal_calm (s : State) (l : Link) : Calm s (s.lossOfSignal l) :=
  Calm.ite (s.loseLock_calm _ _ _) (s.modFramer_calm _ _)

theorem State.signalReturns_calm (s : State) (l : Link) : Calm s (s.signalReturns l) :=
  Calm.ite (s.modFramer_calm _ _) (.refl s)

theorem State.erroredFrame_calm (s : State) (l : Link) (present : Bool) : Calm s (s.erroredFrame l present) := by
  unfold State.erroredFrame
  simp only
  split
  · exact .refl s
  · exact .refl s
  · exact s.modFramer_calm _ _
  · exact Calm.ite (s.loseLock_calm _ _ _) (s.modFramer_calm _ _)

theorem State.enterLocked_calm (s : State) (l : Link) : Calm s (s.enterLocked l) := by
  have own := s.modFramer_calm l fun f => { f with rx := .locked, streak := 0 }
  cases l with
  | donor n => exact (s.enterLocked_linkEvent (.donor n)).calm nofun
  | service => exact own
  | remote r =>
    have cancelled := fun s : State => (s.modSup_spares r fun v => { v with grace := none }).trans
      (State.unDue_spares _ (.linkGrace r))
    exact own.trans (Spares.ite (cancelled _) ((cancelled _).trans (State.queuePoll_spares _ r))).calm

theorem State.takeSlot_calm (s : State) (l : Link) (flag : Byte) (bytes : List Byte) :
    Calm s (s.takeSlot l flag bytes) := s.modFramer_calm _ _

/-- What the end of a frame position does, but for an uplink frame that the Combiner takes. -/
theorem State.frameEnds_calm (s : State) (l : Link) (x : LinkFrame) :
    Calm s (s.frameEnds l x) ∨
      ∃ r u, Calm s u ∧ Calm (u.uplinkArrives r x) (s.frameEnds l x) := by
  have deliver : ∀ u : State, Calm s u → Calm s (u.deliver l x) ∨
      ∃ r v, Calm s v ∧ Calm (v.uplinkArrives r x) (u.deliver l x) := by
    intro u hu
    have own := hu.trans (u.modFramer_calm l fun f => f.goodLocked x.number)
    cases l with
    | donor n => exact .inl ((own.trans (State.modFramer_calm _ _ _)).trans (State.takeSlot_calm _ _ _ _))
    | remote r => exact .inr ⟨r, _, own, State.takeSlot_calm _ _ _ _⟩
    | service => exact .inl (own.trans (State.takeSlot_calm _ _ _ _))
  unfold State.frameEnds
  split
  · unfold State.goodFrame
    simp only
    split
    · exact .inl (.refl s)
    · exact .inl (s.modFramer_calm _ _)
    · split
      · split
        · exact deliver _ ((s.modFramer_calm _ _).trans (State.enterLocked_calm _ l))
        · exact .inl (s.modFramer_calm _ _)
      · exact .inl (s.modFramer_calm _ _)
    · exact deliver s (.refl s)
  · exact .inl (s.erroredFrame_calm _ _)

/-! ### Start-up, SAVE and requests -/

theorem State.reviseReference_calm (s : State) : Calm s s.reviseReference := by
  have select : Calm s s.selectReference := (s.selectReference_linkEvent 0).calm nofun
  have set : ∀ n, Calm s (s.setReference n) := fun _ => .of_parts rfl rfl rfl rfl rfl rfl
  unfold State.reviseReference
  split
  · exact Calm.ite (.refl s) (set _)
  · exact select

theorem State.readEnds_calm (s : State) (x : ImageRead) : Calm s (s.readEnds x) := by
  have install : ∀ m i, Calm s (s.install m i) := fun m i => by
    unfold State.install
    refine Calm.trans ?_ (State.reviseReference_calm _)
    exact ⟨rfl, rfl, rfl, rfl, fun _ => .refl _, fun h => ⟨h.records, h.remote, h.sector, h.carrier⟩⟩
  unfold State.readEnds
  refine Calm.ite (.refl s) ?_
  split
  · exact install _ _
  · exact install _ _

theorem State.answerSave_spares (s : State) (st : Status) : Spares s (s.answerSave st) := by
  unfold State.answerSave
  split
  · exact s.fillReserved_spares _ _
  · exact .refl s

theorem State.setLoader_calm (s : State) (v : Loader) : Calm s { s with loader := v } :=
  .of_parts rfl rfl rfl rfl rfl rfl

theorem State.saveCompletes_calm (s : State) : Calm s s.saveCompletes := by
  unfold State.saveCompletes
  split
  · exact (s.setLoader_calm _).trans ((State.answerSave_spares _ _).trans (State.post_spares _ _ _ _)).calm
  · exact .refl s

theorem State.saveFails_calm (s : State) : Calm s s.saveFails := by
  unfold State.saveFails
  split
  · exact (s.setLoader_calm _).trans ((State.answerSave_spares _ _).trans (State.post_spares _ _ _ _)).calm
  · exact .refl s

theorem State.dropRequest_calm (s : State) : Calm s s.dropRequest := s.setSvc_calm _

theorem State.takeSave_calm (s : State) : Calm s s.takeSave := by
  unfold State.takeSave
  split
  · refine Calm.ite (s.dropRequest_calm.trans ?_) (.refl s)
    unfold State.executeSave
    split
    · exact State.fill_calm _ _
    · split
      · exact State.fill_calm _ _
      · exact Calm.ite (State.fill_calm _ _) (.of_parts rfl rfl rfl rfl rfl rfl)
  · exact .refl s

theorem State.takeRestart_calm (s : State) : Calm s s.takeRestart := by
  unfold State.takeRestart
  split
  · refine Calm.ite (s.dropRequest_calm.trans ?_) (.refl s)
    unfold State.executeRestart
    split
    · exact State.fill_calm _ _
    · exact (State.setSvc_calm _ _).trans (State.fill_calm _ _)
  · exact .refl s

theorem State.takeUnknown_calm (s : State) : Calm s s.takeUnknown := by
  unfold State.takeUnknown
  split
  · exact Calm.ite (s.dropRequest_calm.trans (State.fill_calm _ _)) (.refl s)
  · exact .refl s

/-- Whatever state a verdict answers releases no number and queues no frame. -/
def Verdict.Calm (s : State) (v : Verdict) : Prop := ∀ t b, v = .ok (t, b) → Machine.Calm s t

namespace Verdict.Calm

variable {s : State}

theorem error (st : Status) : Verdict.Calm s (.error st) := fun _ _ h => by cases h

theorem of_ok {t : State} {b : List Byte} (h : Machine.Calm s t) : Verdict.Calm s (.ok (t, b)) := fun _ _ k => by
  cases k; exact h

theorem need {α : Type} {st : Status} {x : Option α} {f : α → Verdict} (h : ∀ a, Verdict.Calm s (f a)) :
    Verdict.Calm s (Machine.need st x f) := by
  unfold Machine.need
  split
  · exact h _
  · exact error st

theorem refuseIf {c : Bool} {st : Status} {v : Verdict} (h : Verdict.Calm s v) :
    Verdict.Calm s (Machine.refuseIf c st v) := by
  unfold Machine.refuseIf
  split
  · exact error st
  · exact h

theorem ite {c : Prop} [Decidable c] {v w : Verdict} (h : Verdict.Calm s v) (k : Verdict.Calm s w) :
    Verdict.Calm s (if c then v else w) := by
  split
  · exact h
  · exact k

/-- A request that only reports. -/
theorem report (b : List Byte) : Verdict.Calm s (.ok (s, b)) := of_ok (.refl s)

end Verdict.Calm

theorem State.takeRequest_calm (s : State) (kind : Byte) (f : State → Request → Verdict)
    (h : ∀ s q, Verdict.Calm s (f s q)) : Calm s (s.takeRequest kind f) := by
  unfold State.takeRequest
  split
  · rename_i q _
    refine Calm.ite (s.dropRequest_calm.trans ?_) (.refl s)
    have judged : Verdict.Calm s.dropRequest (s.dropRequest.judge q f) := by
      unfold State.judge
      split
      · exact .error _
      · exact h _ q
    unfold State.conclude
    split
    · rename_i hv
      exact (judged _ _ hv).trans (State.fill_calm _ _)
    · exact State.fill_calm _ _
  · exact .refl s

theorem State.askWriteSettings_calm (s : State) (b : List Byte) : Verdict.Calm s (s.askWriteSettings b) := by
  have write : ∀ items c, Calm s (s.applySettings items c) := fun items c => by
    have set : Calm s { s with settings := c } := .of_parts rfl rfl rfl rfl rfl rfl
    have revised : Calm s (if items.contains 9 then State.reviseReference { s with settings := c }
        else { s with settings := c }) := Calm.ite (set.trans (State.reviseReference_calm _)) set
    exact Calm.ite revised (revised.trans (State.setEvents_spares _ _).calm)
  exact .refuseIf (.refuseIf (.need fun _ => .of_ok (write _ _)))

theorem State.setStore_calm (s : State) (v : PlanStore) : Calm s { s with store := v } :=
  .of_parts rfl rfl rfl rfl rfl rfl

theorem State.askWriteCarrier_calm (s : State) (b : List Byte) : Verdict.Calm s (s.askWriteCarrier b) :=
  .need fun _ => .need fun _ => .refuseIf (.refuseIf (.of_ok (.of_parts rfl rfl rfl rfl rfl rfl)))

theorem State.askReadPlan_calm (s : State) (b : List Byte) : Verdict.Calm s (s.askReadPlan b) :=
  .need fun _ => .ite (.report _) (.ite (.need fun _ => .report _) (.need fun _ => .report _))

theorem State.askWritePlan_calm (s : State) (b : List Byte) : Verdict.Calm s (s.askWritePlan b) :=
  .need fun _ => .ite (.need fun _ => .of_ok (s.setStore_calm _))
    (.ite (.need fun _ => .need fun _ => .of_ok (s.setStore_calm _))
      (.need fun _ => .need fun _ => .of_ok (s.setStore_calm _)))

theorem State.setRemoteEntry_calm (s : State) (r : RemoteId) (e : RemoteEntry) : Calm s (s.setRemoteEntry r e) := by
  unfold State.setRemoteEntry
  simp only
  refine Calm.ite (.refl s) ?_
  have written : Calm s (((s.modLive r fun _ => e).diverge).deriveMode r) :=
    ((s.setMap_spares _).trans ((State.setMap_spares _ _).trans (State.modSup_spares _ r _))).calm
  have recomputed : ∀ p : State × List RemoteId, Calm s p.1 → Calm s
      (if e.baseGain = (s.live r).baseGain then p.1.recomputeAll p.2 else p.1.recomputeAll (withFirst r p.2)) :=
    fun p hp => Calm.ite (hp.trans (State.recomputeAll_settles _ _).calm) (hp.trans (State.recomputeAll_settles _ _).calm)
  apply recomputed
  split
  · exact written
  · exact written.trans (State.reevalBoosts_settles _ _).calm

theorem State.setSectorEntry_calm (s : State) (x : SectorId) (e : SectorEntry) : Calm s (s.setSectorEntry x e) := by
  have written : Calm s (State.diverge { s with map := { s.map with sectors := s.map.sectors.set x e } }) :=
    (s.setMap_spares _).calm
  exact Calm.ite (.refl s) (Calm.ite written (written.trans (State.evalDegraded_settles _ x).calm))

theorem State.askSetRemote_calm (s : State) (b : List Byte) : Verdict.Calm s (s.askSetRemote b) :=
  .ite (.need fun _ => .refuseIf (.refuseIf (.need fun _ => .of_ok (s.setRemoteEntry_calm _ _))))
    (.need fun _ => .refuseIf (.need fun _ => .of_ok (s.setSectorEntry_calm _ _)))

theorem State.askMove_calm (s : State) (b : List Byte) : Verdict.Calm s (s.askMove b) :=
  .need fun _ => .refuseIf (.refuseIf (.need fun _ => .refuseIf (.refuseIf
    (.of_ok (s.startSingle_settles _ _ _).calm))))

theorem State.askAbort_calm (s : State) : Verdict.Calm s s.askAbort := by
  unfold State.askAbort
  split
  · exact .of_ok s.startRecovery_settles.calm
  all_goals exact .error _

theorem State.askCutOver_calm (s : State) (b : List Byte) : Verdict.Calm s (s.askCutOver b) :=
  .need fun _ => .refuseIf (.refuseIf (.of_ok (s.startBatch_settles _ _).calm))

theorem State.replaceSchedule_calm (s : State) (c : Option Schedule) : Calm s (s.replaceSchedule c) :=
  ((s.setSchedule_spares c).trans ((State.unDue_spares _ _).trans (State.unDue_spares _ _))).calm

theorem State.askSchedule_calm (s : State) (b : List Byte) : Verdict.Calm s (s.askSchedule b) :=
  .need fun _ => .refuseIf (.of_ok (s.replaceSchedule_calm _))

theorem State.askCue_calm (s : State) : Verdict.Calm s s.askCue :=
  .need fun c => .of_ok <| by
    have set := (s.setSchedule_spares (some { c with dueFc := s.now })).trans (State.unDue_spares _ .schedule)
    exact (Spares.ite set (set.trans (State.testSchedule_spares _ _))).calm

theorem State.askCancel_calm (s : State) : Verdict.Calm s s.askCancel :=
  .need fun _ => .of_ok (s.replaceSchedule_calm _)

theorem State.askIsolate_calm (s : State) (b : List Byte) : Verdict.Calm s (s.askIsolate b) :=
  .need fun _ => .refuseIf (.of_ok (Spares.ite (.refl s) (s.isolate_spares _)).calm)

theorem State.askRestore_calm (s : State) (b : List Byte) : Verdict.Calm s (s.askRestore b) :=
  .need fun _ => .refuseIf (.of_ok (s.restore_spares _).calm)

theorem State.clearGroups_calm (s : State) (m : Byte) : Calm s (s.clearGroups m) := by
  have links : Calm s s.clearLinks := .of_parts rfl rfl rfl rfl rfl rfl
  have uplink : ∀ t : State, Calm t t.clearUplink := fun _ => .of_parts rfl rfl rfl rfl rfl rfl
  have carriers : ∀ t : State, Calm t t.clearCarriers := fun _ => .of_parts rfl rfl rfl rfl rfl rfl
  have service : ∀ t : State, Calm t t.clearService := fun t => t.setSvc_calm _
  have step : ∀ {t : State} (c : Prop) [Decidable c] (f : State → State), (∀ t, Calm t (f t)) → Calm s t →
      Calm s (if c then f t else t) := fun c _ f hf ht => Calm.ite (ht.trans (hf _)) ht
  exact step _ _ service (step _ _ carriers (step _ _ uplink (Calm.ite links (.refl s))))

theorem State.askTap_calm (s : State) (b : List Byte) : Verdict.Calm s (s.askTap b) :=
  .ite (.of_ok (s.setSvc_calm _)) (.ite (.need fun _ => .of_ok (s.setSvc_calm _))
    (.ite (.need fun _ => .need fun _ => .of_ok (s.setSvc_calm _))
      (.need fun _ => .need fun _ => .of_ok (s.setSvc_calm _))))

end Sys2Proof.Machine
end

section
namespace Sys2Proof.Machine

/-! ## The alignment queues (R38 to R44) -/

/-- Of numbers at most 2^30 before `m`, the later one is the nearer to it. -/
theorem isAfter_iff_nearer {m a b : FC} (ha : (m - a).toNat ≤ 2 ^ 30) (hb : (m - b).toNat ≤ 2 ^ 30) :
    isAfter b a = true ↔ (m - b).toNat < (m - a).toNat := by
  simp only [isAfter, atOrAfter, Bool.and_eq_true, decide_eq_true_eq]
  constructor
  · rintro ⟨h1, h2⟩
    have : b.toNat ≠ a.toNat := fun e => h2 (BitVec.eq_of_toNat_eq e)
    bv_omega
  · intro h
    refine ⟨by bv_omega, fun e => ?_⟩
    subst e
    exact absurd h (lt_irrefl _)

theorem mem_insertEntry {e y : Entry} {q : List Entry} (h : y ∈ insertEntry e q) : y = e ∨ y ∈ q := by
  induction q with
  | nil => simpa [insertEntry] using h
  | cons z zs ih =>
    unfold insertEntry at h
    split at h
    · exact List.mem_cons.mp h
    · rcases List.mem_cons.mp h with rfl | h
      · exact .inr (List.mem_cons_self ..)
      · exact (ih h).imp_right (List.mem_cons_of_mem _)

theorem length_insertEntry (e : Entry) (q : List Entry) : (insertEntry e q).length = q.length + 1 := by
  induction q with
  | nil => rfl
  | cons z zs ih =>
    unfold insertEntry
    split
    · rfl
    · rw [List.length_cons, ih, List.length_cons]

/-- An entry inserted in its place keeps strictly increasing number, where no entry has its number (R38, R39). -/
theorem insertEntry_sorted {m : FC} {e : Entry} {q : List Entry} (he : (m - e.number).toNat ≤ 2 ^ 30)
    (hq : ∀ x ∈ q, (m - x.number).toNat ≤ 2 ^ 30) (hne : ∀ x ∈ q, x.number ≠ e.number)
    (sorted : q.Pairwise fun a b => isAfter b.number a.number = true) :
    (insertEntry e q).Pairwise fun a b => isAfter b.number a.number = true := by
  induction q with
  | nil => simp [insertEntry]
  | cons x xs ih =>
    obtain ⟨hx, hxs⟩ := List.forall_mem_cons.mp hq
    obtain ⟨nx, nxs⟩ := List.forall_mem_cons.mp hne
    obtain ⟨after, rest⟩ := List.pairwise_cons.mp sorted
    have apart : (m - x.number).toNat ≠ (m - e.number).toNat := fun h => nx (by bv_omega)
    unfold insertEntry
    split
    · rename_i before
      have later : isAfter x.number e.number = true := by
        rw [isAfter_iff_nearer he hx]
        simp only [isBefore, atOrAfter, Bool.not_eq_true', decide_eq_false_iff_not] at before
        bv_omega
      refine List.pairwise_cons.mpr ⟨List.forall_mem_cons.mpr ⟨later, fun y hy => ?_⟩, sorted⟩
      rw [isAfter_iff_nearer he hx] at later
      rw [isAfter_iff_nearer he (hxs y hy)]
      have := (isAfter_iff_nearer hx (hxs y hy)).mp (after y hy)
      omega
    · rename_i before
      have earlier : isAfter e.number x.number = true := by
        rw [isAfter_iff_nearer hx he]
        simp only [isBefore, atOrAfter, Bool.not_eq_true', decide_eq_false_iff_not, not_not] at before
        bv_omega
      refine List.pairwise_cons.mpr ⟨fun y hy => ?_, ih hxs nxs rest⟩
      rcases mem_insertEntry hy with rfl | hy
      · exact earlier
      · exact after y hy

/-- A number expanded from its low 16 bits is at most 32,768 before the current FC and 32,767 after it (R11). -/
theorem expand_near (fc : FC) (n : BitVec 16) :
    (fc - expand fc n).toNat ≤ 32768 ∨ (expand fc n - fc).toNat ≤ 32767 := by
  unfold expand
  generalize n - low16 fc = d
  have h : (d.signExtend 32).toNat = if d.toNat < 2 ^ 15 then d.toNat else d.toNat + (2 ^ 32 - 2 ^ 16) := by
    rw [BitVec.toNat_signExtend, BitVec.toNat_setWidth_of_le (by norm_num), BitVec.msb_eq_decide]
    simp only [decide_eq_true_eq]
    split <;> split <;> omega
  have := d.isLt
  split at h <;> bv_omega

/-- A frame accepted into a queue with room, fresh and of a new number, keeps the law of the queues (R38 to R40). -/
theorem State.AlignmentLaw.acceptEntry {s : State} (k : s.AlignmentLaw) (started : s.clock.started = true)
    (r : RemoteId) (e : Entry) (near : (s.now + 2 - e.number).toNat ≤ 32770) (fresh : s.isLate e.number = false)
    (new : ∀ x ∈ s.comb.queues.get r, x.number ≠ e.number) (room : (s.comb.queues.get r).length < 8) :
    (s.acceptEntry r e).AlignmentLaw := by
  have queue : ∀ x, (s.acceptEntry r e).comb.queues.get x =
      if r = x then insertEntry e (s.comb.queues.get x) else s.comb.queues.get x := fun x => Tab.get_modify ..
  have after : ∀ l, s.comb.last = some l → isAfter e.number l = true := fun l hl => by
    have h := k.last l hl
    simp only [State.isLate, hl, atOrAfter, decide_eq_false_iff_not] at fresh
    have within : (s.now - l).toNat ≤ 9 := by split at h <;> omega
    rw [isAfter_iff_nearer (m := s.now + 2) (by bv_omega) (by omega)]
    bv_omega
  refine ⟨fun x => ?_, fun x => ?_, fun x y hy l hl => ?_, fun x y hy => ?_, k.last, k.first,
    fun h => absurd started (by rw [show s.clock.started = false from h]; decide)⟩
  · rw [queue]
    split
    · subst_vars; rw [length_insertEntry]; exact room
    · exact k.room x
  · rw [queue]
    split
    · subst_vars
      exact insertEntry_sorted (m := s.now + 2) (near.trans (by norm_num))
        (fun y hy => (k.ahead _ y hy).trans (by norm_num)) new (k.order _)
    · exact k.order x
  · rw [queue] at hy
    split at hy
    · rcases mem_insertEntry hy with rfl | hy
      · exact after l hl
      · exact k.fresh x y hy l hl
    · exact k.fresh x y hy l hl
  · rw [queue] at hy
    split at hy
    · rcases mem_insertEntry hy with rfl | hy
      · exact near
      · exact k.ahead x y hy
    · exact k.ahead x y hy

/-- The classification of an uplink frame keeps the law of the queues (R11, R39). -/
theorem State.AlignmentLaw.uplinkArrives {s : State} (k : s.AlignmentLaw) (started : s.clock.started = true)
    (r : RemoteId) (x : LinkFrame) : (s.uplinkArrives r x).AlignmentLaw := by
  have count : ∀ (s : State) f, Calm s (s.countPort r f) := fun s f => .of_parts rfl rfl rfl rfl rfl rfl
  unfold State.uplinkArrives State.classify
  generalize he : (⟨expand s.now x.number, x.map, x.lanes, s.now⟩ : Entry) = e
  have number : e.number = expand s.now x.number := by rw [← he]
  simp only
  split
  · exact (count _ _).alignment k
  · rename_i hw
    have near : (s.now + 2 - e.number).toNat ≤ 32770 := by
      have := expand_near s.now x.number
      rw [← number] at this
      simp only [isAfter, atOrAfter, Bool.and_eq_true, decide_eq_true_eq, not_and, not_not] at hw
      by_cases h : e.number = s.now + 2
      · rw [h]; bv_omega
      · have := fun h' => h (hw h')
        bv_omega
    split
    · have late : Calm s (s.countLate r) := .of_parts rfl rfl rfl rfl rfl rfl
      exact late.alignment k
    · rename_i hl
      split
      · exact (count _ _).alignment k
      · rename_i hd
        have new : ∀ y ∈ s.comb.queues.get r, y.number ≠ e.number := by simpa using hd
        split
        · have dropped : Calm s ((s.setQueue r ((s.comb.queues.get r).drop 1)).countPort r
              fun c => { c with overflows := satInc c.overflows }) :=
            ⟨rfl, rfl, rfl, rfl, fun y => by
              simp only [State.countPort, State.setQueue, Tab.get_set]
              split
              · subst_vars; exact List.drop_sublist _ _
              · exact .refl _, id⟩
          have queue : ((s.setQueue r ((s.comb.queues.get r).drop 1)).countPort r
              fun c => { c with overflows := satInc c.overflows }).comb.queues.get r =
                (s.comb.queues.get r).drop 1 := Tab.get_set_self ..
          refine (dropped.alignment k).acceptEntry started r e near (eq_false_of_ne_true hl) ?_ ?_
          · rw [queue]; exact fun y hy => new y (List.mem_of_mem_drop hy)
          · rw [queue, List.length_drop]
            have := k.room r
            omega
        · exact k.acceptEntry started r e near (eq_false_of_ne_true hl) new (by omega)

end Sys2Proof.Machine
end

section
namespace Sys2Proof.Machine

/-! ### The blocks' work at a boundary (R42 to R44) -/

/-- A boundary stands open only after one has been emitted. -/
theorem State.AlignmentLaw.started_of_acting {s : State} (k : s.AlignmentLaw) (acting : s.boundary.acting = true) :
    s.clock.started = true := by
  by_contra h
  obtain ⟨-, idle, -⟩ := k.unstarted (by simpa using h)
  simp [idle] at acting

/-- The release of a number, or the hold, that the boundary asks for: the last number is then at most 8 before the
boundary's, and no entry at or before it is left (R43, R44). -/
theorem State.AlignmentLaw.combine {s v : State} (k : s.AlignmentLaw) (acting : s.boundary.acting = true)
    (range : 2 ≤ v.settings.alignment ∧ v.settings.alignment ≤ 8) (h : Calm (s.setActing false) v) :
    v.combine.1.AlignmentLaw := by
  have started : s.clock.started = true := k.started_of_acting acting
  have now : v.now = s.now := by simp only [State.now, h.fc, h.started, State.setActing_clock]
  have idle : v.boundary.acting = false := h.acting
  have last : v.comb.last = s.comb.last := h.last
  have began : v.clock.started = true := h.started.trans started
  have queues : ∀ r, (v.comb.queues.get r).Sublist (s.comb.queues.get r) := h.queues
  have near : ∀ {l : FC}, s.comb.last = some l → (s.now - l).toNat ≤ 9 := fun hl => by
    have := k.last _ hl
    split at this <;> omega
  have small : (BitVec.ofNat 32 v.settings.alignment).toNat = v.settings.alignment := by
    rw [BitVec.toNat_ofNat]; omega
  have released : ((v.setDelay).release (v.now - BitVec.ofNat 32 v.settings.alignment)).AlignmentLaw := by
    have queue : ∀ r, (((v.setDelay).release (v.now - BitVec.ofNat 32 v.settings.alignment)).comb.queues.get r) =
        (v.comb.queues.get r).filter fun e => isAfter e.number (v.now - BitVec.ofNat 32 v.settings.alignment) :=
      fun r => Tab.get_map ..
    refine ⟨fun r => ?_, fun r => ?_, fun r e he l hl => ?_, fun r e he => ?_, fun l hl => ?_, nofun,
      fun hs => absurd (began.symm.trans hs) nofun⟩
    · rw [queue]; exact (List.length_filter_le _ _).trans ((queues r).length_le.trans (k.room r))
    · rw [queue]; exact ((k.order r).sublist (queues r)).filter _
    · cases hl
      rw [queue] at he
      exact (List.mem_filter.mp he).2
    · rw [queue] at he
      show (v.now + 2 - e.number).toNat ≤ 32770
      rw [now]
      exact k.ahead r e ((queues r).subset (List.mem_of_mem_filter he))
    · cases hl
      show (v.now - (v.now - BitVec.ofNat 32 v.settings.alignment)).toNat ≤ if v.boundary.acting then 9 else 8
      rw [idle]
      rw [show v.now - (v.now - BitVec.ofNat 32 v.settings.alignment) = BitVec.ofNat 32 v.settings.alignment by abel,
        small]
      exact range.2
  rcases v.combine_cases with ⟨_, e⟩ | ⟨l, _, _, e⟩ | ⟨l, hl, hold, e⟩
  · rw [e]; exact released
  · rw [e]; exact released
  · rw [e]
    have within := near (last ▸ hl)
    refine ⟨fun r => (queues r).length_le.trans (k.room r), fun r => (k.order r).sublist (queues r),
      fun r e he l hl => k.fresh r e ((queues r).subset he) l (last ▸ hl), fun r e he => ?_, fun m hm => ?_,
      fun hn => absurd (hl.symm.trans hn) nofun, fun hs => absurd (began.symm.trans hs) nofun⟩
    · show (v.now + 2 - e.number).toNat ≤ 32770
      rw [now]
      exact k.ahead r e ((queues r).subset he)
    · cases hl.symm.trans hm
      show (v.now - l).toNat ≤ if v.boundary.acting then 9 else 8
      rw [idle, now]
      rw [now] at hold
      simp only [isAfter, atOrAfter, Bool.and_eq_false_iff, decide_eq_false_iff_not, not_not] at hold
      have hold : ¬ (s.now - BitVec.ofNat 32 v.settings.alignment - l).toNat < 2147483648 ∨
        (s.now - BitVec.ofNat 32 v.settings.alignment).toNat = l.toNat := hold.imp_right (congrArg _)
      generalize BitVec.ofNat 32 v.settings.alignment = d at *
      rw [if_neg (by decide)]
      bv_omega

theorem State.combine_meter (s : State) (h : s.meter.Lawful) : s.combine.1.meter.Lawful := by
  rcases s.combine_cases with ⟨_, e⟩ | ⟨_, _, _, e⟩ | ⟨_, _, _, e⟩ <;> rw [e]
  · exact State.release_meter _ _ h
  · exact State.release_meter _ _ h
  · exact h

theorem State.distribute_calm (s : State) (fs : DonorFrames) : Calm s (s.distribute fs) :=
  .of_parts rfl rfl rfl rfl rfl rfl

theorem OnlyLinks.calm {s t : State} (h : OnlyLinks s t) : Calm s t := by
  have part : ∀ {α : Type} (f : State → α), f t = _ := fun f => congrArg f h
  exact .of_parts (part (·.clock.fc)) (part (·.clock.started)) (part (·.boundary.acting)) (part (·.comb.last))
    (part (·.comb.queues)) (part (·.meter))

theorem State.noteWeights_calm (s : State) : Calm s s.noteWeights := .of_parts rfl rfl rfl rfl rfl rfl

/-- What follows the release at a boundary: the weights noted, and the frames sent. -/
theorem State.sent_calm (s : State) (down : Tab 16 (List Lane)) (u : DonorUplink) (tap : Lane) :
    Calm s (s.noteWeights.transmitAll down u tap) :=
  s.noteWeights_calm.trans (State.transmitAll_frames _ _ _ _).1.calm

theorem State.framesAround_calm (s : State) (f : State → State × DonorUplink) :
    Calm (f (s.distribute s.oldestFrames)).1 (s.framesAround f) :=
  (f (s.distribute s.oldestFrames)).1.sent_calm (Tab.ofFn (s.downLanes s.oldestFrames))
    (f (s.distribute s.oldestFrames)).2 (s.tapLane s.oldestFrames (f (s.distribute s.oldestFrames)).2)

theorem State.beforeFrames_spares (s : State) : Spares s s.beforeFrames :=
  ((State.takeDue_spares _ _ _ fun s => s.switchFalls_spares).trans
    (State.takeDue_spares _ _ _ fun s => s.rampStep_spares)).trans (State.startSenders_spares _)

/-- What the blocks' work has in common in both orders of switch and release: a release on what comes before it, and
nothing after it that releases or queues. -/
theorem State.blocksAct_release (s : State) (acting : s.boundary.acting = true) :
    (∃ v, Calm (s.setActing false) v ∧ v.settings = s.settings ∧ Calm v.combine.1 s.actBoundary) ∧
      ∃ v, Calm (s.setActing false) v ∧ v.settings = s.settings ∧ Calm v.combine.1 s.actReleaseFirst := by
  have before := (s.setActing false).beforeFrames_spares
  have built := before.calm.trans (State.distribute_calm _ (s.setActing false).beforeFrames.oldestFrames)
  refine ⟨⟨_, built, (State.distribute_quiet _ _).settings.trans before.settings, ?_⟩, ⟨s.setActing false, .refl _, rfl, ?_⟩⟩
  · simp only [State.actBoundary, acting, if_true]
    exact State.framesAround_calm _ State.combine
  · simp only [State.actReleaseFirst, acting, if_true]
    exact ((State.beforeFrames_spares _).calm.trans (State.distribute_calm _ _)).trans
      (State.framesAround_calm _ fun built => (built, (s.setActing false).combine.2))

/-- The blocks' work keeps the laws of the Combiner and the Meter, and leaves no boundary open. -/
theorem State.blocksAct_keeps {s t : State} (act : t = s.actBoundary ∨ t = s.actReleaseFirst) :
    (s.meter.Lawful → t.meter.Lawful) ∧
      (s.settings.InRange → s.AlignmentLaw → t.AlignmentLaw ∧ t.boundary.acting = false) := by
  by_cases acting : s.boundary.acting = true
  · obtain ⟨v, before, settings, after⟩ :
        ∃ v, Calm (s.setActing false) v ∧ v.settings = s.settings ∧ Calm v.combine.1 t := by
      obtain ⟨a, b⟩ := s.blocksAct_release acting
      rcases act with rfl | rfl
      · exact a
      · exact b
    refine ⟨fun m => after.meter (v.combine_meter (before.meter m)), fun range k => ⟨?_, ?_⟩⟩
    · obtain ⟨low, high, -⟩ := range
      exact after.alignment (k.combine acting (by rw [settings]; exact ⟨low, high⟩) before)
    · rw [after.acting, v.combine_frame]
      exact before.acting
  · have same : t = s := by
      rcases act with rfl | rfl
      · exact if_neg acting
      · exact if_neg acting
    rw [same]
    exact ⟨id, fun _ k => ⟨k, by simpa using acting⟩⟩

/-! ### The emission of a boundary (R8) -/

theorem State.bringIn_calm (s : State) (r : RemoteId) : Calm s (s.bringIn r) := (s.bringIn_spares r).calm

theorem State.loadMap_calm (s : State) : Calm s s.loadMap := by
  have taken : Calm s s.takeStartPlan := .of_parts rfl rfl rfl rfl rfl rfl
  have load : ∀ (s : State) (r : RemoteId), Calm s (s.loadRemote r) := fun s r => by
    have entered : Calm s (if (s.live r).configured && decide (s.health r = .vacant) then s.bringIn r
        else if !(s.live r).configured && decide (s.health r ≠ .vacant) then s.vacate r else s) :=
      Calm.ite (s.bringIn_calm r) (Calm.ite (s.vacate_spares r).calm (.refl s))
    exact entered.trans (State.modSup_spares _ r _).calm
  have eval : ∀ (s : State) (x : SectorId), Calm s (s.evalDegraded false x) := fun s x => (s.setSup_spares _).calm
  have loaded := (taken.trans (Calm.foldl load (List.finRange 16) _)).trans
    (State.reevalBoosts_settles _ (List.finRange 16)).calm
  exact (loaded.trans (Calm.foldl eval (List.finRange 8) _)).trans (State.recomputeAll_settles _ _).calm

theorem State.postDefaulted_calm (s : State) : Calm s s.postDefaulted := by
  unfold State.postDefaulted
  split
  · exact s.post_calm _ _ _
  · exact .refl s

theorem State.tickAll_calm (s : State) (first : Bool) : Calm s (s.tickAll first) := by
  have donor : ∀ (s : State) (n : DonorId), Calm s (State.tickDonor first s n) := fun s n => by
    unfold State.tickDonor
    split
    · exact Calm.ite (.refl s) (Calm.ite ((s.modDonor_calm n _).trans (State.markDue_spares _ _).calm)
        (s.modDonor_calm n _))
    · exact .refl s
  have remote : ∀ (s : State) (r : RemoteId), Calm s (s.tickRemote r) := fun s r => by
    have grace : Spares s (s.tickGrace r) := by
      unfold State.tickGrace
      split
      · exact Spares.ite ((s.modSup_spares r _).trans (State.markDue_spares _ _)) (s.modSup_spares r _)
      · exact .refl s
    have decay : ∀ s : State, Spares s (s.tickDecay r) := fun s => by
      unfold State.tickDecay
      split
      · exact Spares.ite ((s.modSup_spares r _).trans (State.markDue_spares _ _)) (s.modSup_spares r _)
      · exact .refl s
    exact (grace.trans (decay _)).calm
  have pass : ∀ (s : State) (r : RemoteId), Calm s (s.tickPass r) := fun s r => by
    unfold State.tickPass
    split
    · split
      · exact Calm.ite ((s.setPass_spares r _).trans (State.markDue_spares _ _)).calm (s.setPass_spares r _).calm
      · exact Calm.ite (s.markDue_spares _).calm (s.setPass_spares r _).calm
      · exact .refl s
    · exact .refl s
  have counted := ((Calm.foldl donor (List.finRange 4) s).trans (Calm.foldl remote (List.finRange 16) _)).trans
    (Calm.foldl pass (List.finRange 16) _)
  have window : ∀ s : State, Calm s s.tickWindow := fun s => by
    have set : ∀ v : Meter, v.records = s.meter.records → v.published = s.meter.published →
        Calm s { s with meter := v } := fun v hr hp =>
      ⟨rfl, rfl, rfl, rfl, fun _ => .refl _, fun h => ⟨by rw [hr]; exact h.records, by rw [hp]; exact h.remote,
        by rw [hp]; exact h.sector, by rw [hp]; exact h.carrier⟩⟩
    have counted : Calm s { s with meter := { s.meter with count := s.meter.count + 1 } } := set _ rfl rfl
    exact Calm.ite (set _ rfl rfl) (Calm.ite (counted.trans (State.markDue_spares _ _).calm) counted)
  have poll : ∀ s : State, Calm s (s.tickPoll first) := fun s =>
    Calm.ite (.refl s) (Calm.ite ((s.setSup_spares _).trans (State.markDue_spares _ _)).calm (s.setSup_spares _).calm)
  have pacing : ∀ s : State, Calm s (s.tickPacing first) := fun s =>
    Calm.ite (.refl s)
      (Calm.ite ((s.setEvents_spares _).trans (State.markDue_spares _ _)).calm (s.setEvents_spares _).calm)
  have schedule : ∀ s : State, Calm s s.tickSchedule := fun s => by
    unfold State.tickSchedule
    split
    · exact Calm.ite (s.markDue_spares _).calm (.refl s)
    · exact .refl s
  exact (((counted.trans (window _)).trans (poll _)).trans (pacing _)).trans (schedule _)

/-- The blocks' part of an emission, but that the boundary then stands open. -/
theorem State.afterTick_calm (s : State) (first : Bool) : ∃ v, Calm s v ∧ s.afterTick first = v.setActing true := by
  refine ⟨_, ?_, rfl⟩
  have loaded : Calm s (if s.map.loadNext then s.loadMap else s) := Calm.ite s.loadMap_calm (.refl s)
  have reported : ∀ s : State, Calm s (if first then s.postDefaulted else s) :=
    fun s => Calm.ite s.postDefaulted_calm (.refl s)
  have marked : ∀ (s : State) (es : List Due), Calm s (s.markAll es) :=
    fun s es => .foldl (fun s e => (s.markDue_spares e).calm) es s
  exact ((loaded.trans (reported _)).trans (State.tickAll_calm _ first)).trans (marked _ _)

theorem State.settle_keeps (s : State) : (s.meter.Lawful → s.settle.meter.Lawful) ∧
    (s.settings.InRange → s.AlignmentLaw → s.settle.AlignmentLaw ∧ s.settle.boundary.acting = false) := by
  obtain ⟨meter, queues⟩ := State.blocksAct_keeps (.inl (rfl : s.actBoundary = s.actBoundary))
  have rest : Calm s.actBoundary s.settle :=
    ((State.takeList_calm _ _).trans (State.drainHanded_calm _)).trans (State.takeList_calm _ _)
  exact ⟨fun h => rest.meter (meter h), fun range k =>
    ⟨rest.alignment (queues range k).1, rest.acting.trans (queues range k).2⟩⟩

/-- A boundary's number is one past the last's, and nothing has been released for it yet (R8, R38, R43). -/
theorem State.AlignmentLaw.tick {s v : State} (k : s.AlignmentLaw) (idle : s.boundary.acting = false)
    (h : Calm s.tickClock v) : (v.setActing true).AlignmentLaw := by
  have began : v.clock.started = true := h.started
  have queues : ∀ r, (v.comb.queues.get r).Sublist (s.comb.queues.get r) := h.queues
  have last : v.comb.last = s.comb.last := h.last
  have fc : v.clock.fc = if s.clock.started then s.clock.fc + 1 else 0 := h.fc
  have count : s.clock.started = true → v.now = s.now + 1 := fun hs => by
    simp only [State.now, began, hs, fc, if_true]
  have running : ∀ {l}, s.comb.last = some l → s.clock.started = true := fun hl => by
    by_contra hc
    exact absurd (hl.symm.trans (k.unstarted (by simpa using hc)).1) nofun
  have within : ∀ {l}, s.comb.last = some l → (s.now - l).toNat ≤ 8 := fun hl => by
    have := k.last _ hl
    rwa [idle, if_neg (by decide)] at this
  refine ⟨fun r => (queues r).length_le.trans (k.room r), fun r => (k.order r).sublist (queues r),
    fun r e he l hl => k.fresh r e ((queues r).subset he) l (last ▸ hl), fun r e he => ?_, fun l hl => ?_,
    fun _ => .inl rfl, fun hs => absurd (began.symm.trans hs) nofun⟩
  · have mem := (queues r).subset he
    show (v.now + 2 - e.number).toNat ≤ 32770
    cases hl : s.comb.last with
    | none =>
      rcases k.first hl with acting | unstarted
      · exact absurd (idle.symm.trans acting) nofun
      · rw [(k.unstarted unstarted).2.2 r] at mem
        cases mem
    | some l =>
      rw [count (running hl)]
      have fresh := k.fresh r e mem l hl
      have ahead := k.ahead r e mem
      have near := within hl
      rw [isAfter_iff_nearer (m := s.now + 2) (by bv_omega) (by omega)] at fresh
      bv_omega
  · have hl : s.comb.last = some l := last ▸ hl
    show (v.now - l).toNat ≤ if true then 9 else 8
    rw [count (running hl), if_pos rfl]
    have near := within hl
    bv_omega

theorem State.emitBoundary_keeps (s : State) : (s.meter.Lawful → s.emitBoundary.meter.Lawful) ∧
    (s.settings.InRange → s.AlignmentLaw → s.emitBoundary.AlignmentLaw) := by
  unfold State.emitBoundary
  simp only
  split
  · obtain ⟨meter, queues⟩ := s.settle_keeps
    generalize s.settle = u at meter queues
    obtain ⟨v, after, e⟩ := State.afterTick_calm u.tickClock (!u.clock.started)
    rw [e]
    exact ⟨fun h => after.meter (meter h), fun range k => (queues range k).1.tick (queues range k).2 after⟩
  · exact ⟨id, fun _ => id⟩

theorem State.emitBoundary_settings (s : State) : s.emitBoundary.settings = s.settings := by
  unfold State.emitBoundary
  simp only
  split
  · have settled := s.settle_steady.settings
    generalize s.settle = u at settled
    exact (u.tickClock.afterTick_quiet _).settings.trans settled
  · rfl

theorem State.boundaryPart_keeps (s : State) (p : BoundaryPart) :
    (s.meter.Lawful → (s.boundaryPart p).meter.Lawful) ∧
      (s.settings.InRange → s.AlignmentLaw → (s.boundaryPart p).AlignmentLaw) := by
  cases p with
  | emit => exact s.emitBoundary_keeps
  | act =>
    obtain ⟨meter, queues⟩ := State.blocksAct_keeps (.inl (rfl : s.actBoundary = s.actBoundary))
    exact ⟨meter, fun range k => (queues range k).1⟩
  | releaseFirst =>
    obtain ⟨meter, queues⟩ := State.blocksAct_keeps (.inr (rfl : s.actReleaseFirst = s.actReleaseFirst))
    exact ⟨meter, fun range k => (queues range k).1⟩
  | whole =>
    obtain ⟨meter, queues⟩ := s.emitBoundary_keeps
    obtain ⟨meter', queues'⟩ := State.blocksAct_keeps (.inl (rfl : s.emitBoundary.actBoundary = s.emitBoundary.actBoundary))
    exact ⟨fun h => meter' (meter h), fun range k => (queues' (s.emitBoundary_settings ▸ range) (queues range k)).1⟩

end Sys2Proof.Machine
end

section
namespace Sys2Proof.Machine

/-! ### Every command -/

/-- The commands that end a frame position, which may queue a frame. -/
def Instr.endsFrame : Instr → Bool
  | .goodFrame _ _ => true
  | .erroredFrame _ _ => true
  | _ => false

/-- A command that is no boundary, no end of a frame position and no power-on releases no number and queues no frame. -/
theorem exec_calm {c : Instr} {s t : State} (h : exec c s = .next t) (power : c ≠ .powerOnReset)
    (boundary : ∀ p, c ≠ .frameBoundary p) (frame : Instr.endsFrame c = false) : Calm s t := by
  cases c
  case relayedMessageSent r =>
    simp only [exec, execRelayedMessageSent] at h
    split at h <;> cases h
    · exact s.takeDue_calm _ _ fun s => (s.sentReport_spares r _).calm
    · exact .refl _
  all_goals cases h
  case powerOnReset => exact absurd rfl power
  case frameBoundary p => exact absurd rfl (boundary p)
  case goodFrame => cases frame
  case erroredFrame => cases frame
  case imageReadEnd x => exact s.readEnds_calm x
  case lossOfSignal l => exact s.lossOfSignal_calm l
  case signalReturns l => exact s.signalReturns_calm l
  case serviceMessageArrival l => exact s.takeServiceMessage_calm l
  case status r => exact s.takeStatus_calm r
  case reply r => exact s.takeReply_calm r
  case busyReply r => exact s.takeBusy_calm r
  case responseStart l => exact (s.startResponse_spares l).calm
  case notice => exact s.startNotice_spares.calm
  case arbiterMessageBoundary r => exact (s.startRemote_spares r).calm
  case donorGraceExpiry n => exact s.takeDue_calm _ _ fun s => s.donorGraceExpires_calm n
  case linkGraceExpiry r => exact s.takeDue_calm _ _ fun s => (s.graceExpires_spares r).calm
  case pollEvent => exact s.takeDue_calm _ _ State.pollExpires_calm
  case flapDecayExpiry r => exact s.takeDue_calm _ _ fun s => (s.modSup_spares r _).calm
  case rampStepEvent => exact s.takeDue_calm _ _ fun s => s.rampStep_spares.calm
  case windowEnd p => exact s.windowPart_calm p
  case pacingTimerExpiry => exact s.takeDue_calm _ _ fun s => s.dueEffect_calm .pacing
  case passTimeout r => exact s.takeDue_calm _ _ fun s => (s.passExpires_spares r).calm
  case passRetryDelayEnd r => exact s.takeDue_calm _ _ fun s => (s.retryEnds_spares r).calm
  case scheduleDue => exact s.takeDue_calm _ _ fun s => s.dueTest_spares.calm
  case dueWaitingRetest => exact s.takeDue_calm _ _ fun s => s.waitingTest_spares.calm
  case switch => exact Calm.ite (.refl s) (s.takeDue_calm _ _ fun s => s.switchFalls_spares.calm)
  case batchSwitch => exact Calm.ite (s.takeDue_calm _ _ fun s => s.switchFalls_spares.calm) (.refl s)
  case saveWriteCompletion => exact s.saveCompletes_calm
  case saveWriteFailure => exact s.saveFails_calm
  case restartTakesEffect => exact s.takeDue_calm _ _ State.restartEffect_calm
  case identify => exact s.takeRequest_calm _ _ fun _ _ => .report _
  case readSettings => exact s.takeRequest_calm _ _ fun _ _ => .report _
  case writeSettings => exact s.takeRequest_calm _ _ fun s _ => s.askWriteSettings_calm _
  case readCarrier => exact s.takeRequest_calm _ _ fun _ _ => .need fun _ => .report _
  case writeCarrier => exact s.takeRequest_calm _ _ fun s _ => s.askWriteCarrier_calm _
  case readPlan => exact s.takeRequest_calm _ _ fun s _ => s.askReadPlan_calm _
  case writePlan => exact s.takeRequest_calm _ _ fun s _ => s.askWritePlan_calm _
  case readLive =>
    exact s.takeRequest_calm _ _ fun _ _ => .ite (.need fun _ => .report _) (.need fun _ => .report _)
  case setRemote => exact s.takeRequest_calm _ _ fun s _ => s.askSetRemote_calm _
  case readLoad => exact s.takeRequest_calm _ _ fun _ _ => .ite (.report _) (.need fun _ => .report _)
  case move => exact s.takeRequest_calm _ _ fun s _ => s.askMove_calm _
  case abort => exact s.takeRequest_calm _ _ fun s _ => s.askAbort_calm
  case cutOver => exact s.takeRequest_calm _ _ fun s _ => s.askCutOver_calm _
  case schedule => exact s.takeRequest_calm _ _ fun s _ => s.askSchedule_calm _
  case cue => exact s.takeRequest_calm _ _ fun s _ => s.askCue_calm
  case cancel => exact s.takeRequest_calm _ _ fun s _ => s.askCancel_calm
  case isolate => exact s.takeRequest_calm _ _ fun s _ => s.askIsolate_calm _
  case restore => exact s.takeRequest_calm _ _ fun s _ => s.askRestore_calm _
  case readEvents => exact s.takeRequest_calm _ _ fun s _ => .of_ok (s.setEvents_spares _).calm
  case readCounters => exact s.takeRequest_calm _ _ fun _ _ => .report _
  case clearCounters => exact s.takeRequest_calm _ _ fun s _ => .refuseIf (.of_ok (s.clearGroups_calm _))
  case tap => exact s.takeRequest_calm _ _ fun s _ => s.askTap_calm _
  case save => exact s.takeSave_calm
  case restart => exact s.takeRestart_calm
  case unknownRequest => exact s.takeUnknown_calm

/-- Before the first boundary after power-on reset the law of the alignment queues asks for empty ones (log entry 5). -/
theorem State.AlignmentLaw.of_unstarted {s : State} (started : s.clock.started = false) (last : s.comb.last = none)
    (idle : s.boundary.acting = false) (queues : ∀ r, s.comb.queues.get r = []) : s.AlignmentLaw where
  room := fun r => by rw [queues]; exact Nat.zero_le _
  order := fun r => by rw [queues]; exact .nil
  fresh := fun r e he => by rw [queues] at he; cases he
  ahead := fun r e he => by rw [queues] at he; cases he
  last := fun l hl => absurd (last.symm.trans hl) nofun
  first := fun _ => .inr started
  unstarted := fun _ => ⟨last, idle, queues⟩

/-- The Meter's values and the alignment queues keep their laws through any command, where the current FC is defined
(log entry 5). -/
theorem exec_keeps {c : Instr} {s t : State} (h : exec c s = .next t) :
    (s.meter.Lawful → t.meter.Lawful) ∧
      (s.settings.InRange → s.AlignmentLaw → (t.clock.started = true ∨ ∀ r, t.comb.queues.get r = []) →
        t.AlignmentLaw) := by
  by_cases power : c = .powerOnReset
  · subst power; cases h
    refine ⟨fun _ => ⟨fun r c => ?_, nofun, nofun, nofun⟩, fun _ _ _ => .of_unstarted rfl rfl rfl fun r => Tab.get_const _ r⟩
    simpa [State.powerOn, State.reset] using Activity.InRange.reset
  by_cases boundary : ∃ p, c = .frameBoundary p
  · obtain ⟨p, rfl⟩ := boundary; cases h
    exact ⟨(s.boundaryPart_keeps p).1, fun range k _ => (s.boundaryPart_keeps p).2 range k⟩
  by_cases frame : ∃ l x, c = .goodFrame l x ∨ c = .erroredFrame l x
  · obtain ⟨l, x, hc⟩ := frame
    have ht : t = s.frameEnds l x := by rcases hc with rfl | rfl <;> cases h <;> rfl
    rw [ht]
    rcases s.frameEnds_calm l x with calm | ⟨r, u, before, after⟩
    · exact ⟨calm.meter, fun _ k _ => calm.alignment k⟩
    · have link := u.uplink_linkEvent r x
      refine ⟨fun m => after.meter (by rw [link.meter]; exact before.meter m), fun _ k defined => ?_⟩
      by_cases started : s.clock.started = true
      · exact after.alignment ((before.alignment k).uplinkArrives (before.started.trans started) r x)
      · obtain ⟨last, idle, -⟩ := k.unstarted (by simpa using started)
        have same : (u.uplinkArrives r x).clock.started = s.clock.started := by rw [link.clock]; exact before.started
        have unstarted : (s.frameEnds l x).clock.started = false := (after.started.trans same).trans (by simpa using started)
        have queues := defined.resolve_left (by simp [unstarted])
        have none : (s.frameEnds l x).comb.last = none := by rw [after.last, link.comb]; exact before.last.trans last
        exact .of_unstarted unstarted none ((after.acting.trans link.acting).trans (before.acting.trans idle)) queues
  have calm := exec_calm h power (fun p e => boundary ⟨p, e⟩) (by
    cases c
    case goodFrame l x => exact absurd ⟨l, x, .inl rfl⟩ frame
    case erroredFrame l x => exact absurd ⟨l, x, .inr rfl⟩ frame
    all_goals rfl)
  exact ⟨calm.meter, fun _ k _ => calm.alignment k⟩

theorem State.AlignmentLaw.dropPending {s : State} (k : s.AlignmentLaw) : s.dropPending.AlignmentLaw :=
  (show Calm s s.dropPending from .of_parts rfl rfl rfl rfl rfl rfl).alignment k

/-- Settles O9: `exec_sound` gives the sizes of the queues, and `exec_keeps` the Meter's values and the alignment queues,
each command by its own rule. -/
theorem everyStepKeepsTheQueueSizes : Obligations.EveryStepKeepsTheQueueSizes := by
  unfold Obligations.EveryStepKeepsTheQueueSizes
  intro s t h
  unfold step at h
  split at h
  · cases h
    exact ⟨id, fun a b => ⟨a, b⟩, fun _ k _ => k⟩
  · have sound := exec_sound h
    obtain ⟨meter, queues⟩ := exec_keeps h
    exact ⟨meter, fun a b => ⟨sound.service a, sound.links b⟩,
      fun config k defined => queues config.current.settings k.dropPending defined⟩

/-- Settles O12: a command that is no boundary and no power-on is either calm or the end of a frame position. -/
theorem onlyBoundariesMoveTheFrameCount : Obligations.OnlyBoundariesMoveTheFrameCount := by
  unfold Obligations.OnlyBoundariesMoveTheFrameCount
  intro c s t h power boundary
  cases hf : Instr.endsFrame c with
  | false =>
    have calm := exec_calm h power boundary hf
    exact ⟨calm.fc, calm.started⟩
  | true =>
    have steady : Steady s t := by
      cases c
      case goodFrame l x => cases h; exact s.frameEnds_steady l x
      case erroredFrame l x => cases h; exact s.frameEnds_steady l x
      all_goals cases hf
    exact ⟨steady.fc, steady.started⟩

end Sys2Proof.Machine
end

section
namespace Sys2Proof.Machine

/-! ## Link events (R1 to R5) -/

/-- With no message waiting that is to be taken first, the loss of lock stays on the link (R5). -/
theorem State.loseLock_stays (s : State) (l : Link) (next : RxState) (own : Framer → Framer)
    (h : ∀ m ∈ (s.framer l).handed, ¬m.takenFirst l) : LinkEvent l s (s.loseLock l next own) := by
  have k := s.loseLock_linkEvent l next own
  rwa [s.takeArrived_of_none l h] at k

theorem State.goodFrame_linkEvent (s : State) (l : Link) (x : LinkFrame) : LinkEvent l s (s.goodFrame l x) := by
  unfold State.goodFrame
  simp only
  split
  · exact .refl l s
  · exact s.modFramer_linkEvent l _
  · split
    · split
      · exact ((s.modFramer_linkEvent l _).trans (State.enterLocked_linkEvent _ l)).trans
          (State.deliver_linkEvent _ l x)
      · exact s.modFramer_linkEvent l _
    · exact s.modFramer_linkEvent l _
  · exact s.deliver_linkEvent l x

theorem State.erroredFrame_linkEvent (s : State) (l : Link) (present : Bool)
    (h : ∀ m ∈ (s.framer l).handed, ¬m.takenFirst l) : LinkEvent l s (s.erroredFrame l present) := by
  unfold State.erroredFrame
  simp only
  split
  · exact .refl l s
  · exact .refl l s
  · exact s.modFramer_linkEvent l _
  · split
    · exact s.loseLock_stays l _ _ h
    · exact s.modFramer_linkEvent l _

/-- Settles O18, event by event; a loss of lock stays on the link where nothing is to be taken first
(`State.loseLock_stays`). -/
theorem eventsOfALinkStayOnTheLink : Obligations.EventsOfALinkStayOnTheLink := by
  unfold Obligations.EventsOfALinkStayOnTheLink
  intro s l waiting
  have none : ¬waiting → ∀ m ∈ (s.framer l).handed, ¬m.takenFirst l := fun h m hm k => h ⟨m, hm, k⟩
  refine ⟨⟨_, rfl, ?_⟩, fun h => ⟨_, rfl, ?_⟩, fun x hx => ?_, fun x => rfl⟩
  · unfold State.signalReturns
    split
    · exact s.modFramer_linkEvent l _
    · exact .refl l s
  · unfold State.lossOfSignal
    split
    · exact s.loseLock_stays l _ _ (none h)
    · exact s.modFramer_linkEvent l _
  · have ends : LinkEvent l s (s.frameEnds l x) := by
      unfold State.frameEnds
      split
      · exact s.goodFrame_linkEvent l x
      · rename_i bad
        exact s.erroredFrame_linkEvent l _ (none (hx.resolve_left bad))
    exact ⟨⟨_, rfl, ends⟩, ⟨_, rfl, ends⟩⟩

/-- Settles O24: each row of R14's table is a branch of `assembleSlot`. -/
theorem assemblerFollowsItsTable : Obligations.AssemblerFollowsItsTable := by
  unfold Obligations.AssemblerFollowsItsTable
  intro bytes m h L want
  have above : ∀ (n : Nat) (flag : Byte), n < flag.toNat → ∀ k : Byte, k.toNat ≤ n → flag ≠ k := fun n flag hn k hk e => by
    rw [e] at hn; omega
  refine ⟨⟨rfl, rfl, rfl, rfl, rfl, rfl, rfl⟩, fun a => rfl, fun e => ⟨if_pos e, if_pos e⟩,
    fun e => ⟨if_neg e, if_neg e⟩, fun lo hi => ⟨if_pos ⟨lo, hi⟩, if_pos ⟨lo, hi⟩⟩, fun e => ?_, fun flag hf => ?_,
    fun e => if_pos e, fun e => if_neg (Nat.not_lt.mpr e), fun e => if_pos e, fun e => if_neg e, fun flag hf => ?_⟩
  · have : ¬(1 ≤ L ∧ L ≤ 224) := by omega
    exact ⟨if_neg this, if_neg this⟩
  · have ne := above 2 flag hf
    simp only [assembleSlot, ne 0 (by decide), ne 1 (by decide), ne 2 (by decide), if_false]
  · have ne := above 4 flag hf
    simp only [assembleSlot, ne 0 (by decide), ne 1 (by decide), ne 2 (by decide), ne 3 (by decide), ne 4 (by decide),
      if_false]

end Sys2Proof.Machine
end

section
namespace Sys2Proof.Machine

/-! ## Frame positions (R1 to R3, R169) -/

theorem isPresent_iff (x : LinkFrame) : isPresent x = true ↔ x.delimiter = 0x7E5A81A5 := decide_eq_true_iff

theorem isGood_iff (x : LinkFrame) :
    isGood x = true ↔ x.delimiter = 0x7E5A81A5 ∧ frameCheck (frameBody x) = x.check := by
  rw [isGood, Bool.and_eq_true, isPresent_iff, passesCheck, decide_eq_true_iff]

/-- One bit of the check register: the generator is added where a one falls out (R169). -/
theorem crcBit_eq (r : BitVec 32) : crcBit r = (r <<< 1) ^^^ (if r.msb then 0x04C11DB7 else 0) := by
  unfold crcBit
  split
  · rfl
  · exact (BitVec.xor_zero).symm

/-- A further byte goes into the register, whose inverse the check is (R169). -/
theorem frameCheck_snoc (bytes : List Byte) (b : Byte) :
    frameCheck (bytes ++ [b]) = ~~~ crcByte (~~~ frameCheck bytes) b := by
  simp only [frameCheck, List.foldl_append, List.foldl_cons, List.foldl_nil, BitVec.not_not]

theorem State.frameEnds_good (s : State) (l : Link) {x : LinkFrame} (h : isGood x = true) :
    s.frameEnds l x = s.goodFrame l x := if_pos h

theorem State.frameEnds_errored (s : State) (l : Link) {x : LinkFrame} (h : isGood x = false) :
    s.frameEnds l x = s.erroredFrame l (isPresent x) := if_neg (by simp [h])

/-- The number is one past the last good frame's exactly where the last was one before it (R1). -/
theorem Framer.follows_iff (f : Framer) (n : BitVec 16) :
    f.lastNumber.any (fun m => decide (n = m + 1)) = true ↔ f.lastNumber = some (n - 1) := by
  have step : ∀ m : BitVec 16, n = m + 1 ↔ m = n - 1 := fun m => by constructor <;> intro h <;> rw [h] <;> abel
  cases f.lastNumber with
  | none => simp
  | some m => simpa using step m

section Good

variable {s : State} {l : Link} (x : LinkFrame)

theorem State.goodFrame_down (h : (s.framer l).rx = .down) : s.goodFrame l x = s := by
  simp only [State.goodFrame, h]

theorem State.goodFrame_hunt (h : (s.framer l).rx = .hunt) : s.goodFrame l x =
    s.modFramer l fun f => { f with rx := .verify, verifyCount := 1, lastNumber := some x.number } := by
  simp only [State.goodFrame, h]

theorem State.goodFrame_verify_restart (h : (s.framer l).rx = .verify)
    (n : (s.framer l).lastNumber ≠ some (x.number - 1)) :
    s.goodFrame l x = s.modFramer l fun f => { f with verifyCount := 1, lastNumber := some x.number } := by
  simp only [State.goodFrame, h]
  exact if_neg (mt ((s.framer l).follows_iff x.number).mp n)

theorem State.goodFrame_verify_count (h : (s.framer l).rx = .verify)
    (n : (s.framer l).lastNumber = some (x.number - 1)) (c : (s.framer l).verifyCount < 3) :
    s.goodFrame l x =
      s.modFramer l fun f => { f with verifyCount := f.verifyCount + 1, lastNumber := some x.number } := by
  simp only [State.goodFrame, h, if_pos (((s.framer l).follows_iff x.number).mpr n)]
  exact if_neg (by omega)

theorem State.goodFrame_verify_lock (h : (s.framer l).rx = .verify)
    (n : (s.framer l).lastNumber = some (x.number - 1)) (c : (s.framer l).verifyCount = 3) :
    s.goodFrame l x =
      ((s.modFramer l fun f => { f with verifyCount := f.verifyCount + 1 }).enterLocked l).deliver l x := by
  simp only [State.goodFrame, h, if_pos (((s.framer l).follows_iff x.number).mpr n)]
  exact if_pos (by omega)

theorem State.goodFrame_locked (h : (s.framer l).rx = .locked) : s.goodFrame l x = s.deliver l x := by
  simp only [State.goodFrame, h]

end Good

section Errored

variable {s : State} {l : Link} (present : Bool)

theorem State.erroredFrame_searching (h : (s.framer l).rx = .down ∨ (s.framer l).rx = .hunt) :
    s.erroredFrame l present = s := by
  rcases h with h | h <;> simp only [State.erroredFrame, h]

theorem State.erroredFrame_verify (h : (s.framer l).rx = .verify) : s.erroredFrame l present =
    s.modFramer l fun f => { f with rx := .hunt, counters := { f.counters with
      checkErrors := if present then satInc f.counters.checkErrors else f.counters.checkErrors } } := by
  simp only [State.erroredFrame, h]

theorem State.erroredFrame_locked (h : (s.framer l).rx = .locked) (c : (s.framer l).streak < 3) :
    s.erroredFrame l present = s.modFramer l fun f => f.erroredLocked present := by
  simp only [State.erroredFrame, h]
  exact if_neg (by omega)

theorem State.erroredFrame_fourth (h : (s.framer l).rx = .locked) (c : (s.framer l).streak = 3) :
    s.erroredFrame l present = s.loseLock l .hunt fun f => f.erroredLocked present := by
  simp only [State.erroredFrame, h]
  exact if_pos (by omega)

end Errored

/-- Settles O19: the frame check by its foldl, and the receive states by the equation of each. -/
theorem receiveStatesFollowTheirRules : Obligations.ReceiveStatesFollowTheirRules := by
  unfold Obligations.ReceiveStatesFollowTheirRules
  refine ⟨fun x => ⟨isGood_iff x, isPresent_iff x, ?_⟩, ⟨rfl, fun bytes b => ?_⟩, fun s l x e hx he => ?_⟩
  · simp only [frameBody, branchBytes, padTo, zeroSample, List.flatMap_cons, List.flatMap_nil, List.append_nil]
  · simp only [frameCheck_snoc, ← crcBit_eq]
    rfl
  · have good : exec (.goodFrame l x) s = .next (s.goodFrame l x) := congrArg _ (s.frameEnds_good l hx)
    have errored : exec (.erroredFrame l e) s = .next (s.erroredFrame l (isPresent e)) :=
      congrArg _ (s.frameEnds_errored l he)
    refine ⟨fun h => ⟨?_, ?_, ?_⟩, fun h => ?_, fun h => ?_, fun h => ⟨?_, ?_⟩, fun h => ⟨fun n => ?_, fun n c => ?_, ?_⟩,
      fun h c => ?_⟩
    · exact congrArg _ (if_pos h)
    · rw [good, State.goodFrame_down x h]
    · rw [errored, State.erroredFrame_searching _ (.inl h)]
    · exact congrArg _ (if_neg h)
    · exact congrArg _ (if_neg (by simpa [State.locked] using h))
    · rw [good, State.goodFrame_hunt x h]
    · rw [errored, State.erroredFrame_searching _ (.inr h)]
    · rw [good, State.goodFrame_verify_restart x h n]
    · rw [good, State.goodFrame_verify_count x h n c]
    · rw [errored, State.erroredFrame_verify _ h]; rfl
    · rw [errored, State.erroredFrame_locked _ h c]; rfl

end Sys2Proof.Machine
end

section
namespace Sys2Proof.Machine

/-! ## Delivery of a good frame (R2, R3, R12, R14, R15) -/

/-- The framer after its assembler has taken a slot (R14, R15). -/
def Framer.takeSlot (l : Link) (flag : Byte) (bytes : List Byte) (f : Framer) : Framer :=
  let a := assembleSlot f.assembly flag bytes
  let f := { f with assembly := a.assembly
                    counters := { f.counters with malformed := satAdd f.counters.malformed a.malformed } }
  match a.complete with
  | some m =>
    if deliverable l m then { f with handed := f.handed ++ [m] }
    else { f with counters := { f.counters with malformed := satInc f.counters.malformed } }
  | none => f

theorem State.takeSlot_eq (s : State) (l : Link) (flag : Byte) (bytes : List Byte) :
    s.takeSlot l flag bytes = s.modFramer l (Framer.takeSlot l flag bytes) := rfl

/-- The slot changes the assembler, the messages handed on and the malformed count alone. -/
theorem Framer.takeSlot_frame (l : Link) (flag : Byte) (bytes : List Byte) (f : Framer) :
    f.takeSlot l flag bytes = { f with
      assembly := (assembleSlot f.assembly flag bytes).assembly
      handed := (f.takeSlot l flag bytes).handed
      counters := { f.counters with malformed := (f.takeSlot l flag bytes).counters.malformed } } := by
  unfold Framer.takeSlot
  simp only
  split
  · split <;> rfl
  · rfl

theorem Framer.takeSlot_of_none {f : Framer} {l : Link} {flag : Byte} {bytes : List Byte}
    (h : (assembleSlot f.assembly flag bytes).complete = none) :
    (f.takeSlot l flag bytes).handed = f.handed ∧ (f.takeSlot l flag bytes).counters.malformed =
      satAdd f.counters.malformed (assembleSlot f.assembly flag bytes).malformed := by
  simp only [Framer.takeSlot, h, and_self]

theorem Framer.takeSlot_of_deliverable {f : Framer} {l : Link} {flag : Byte} {bytes : List Byte} {m : Message}
    (h : (assembleSlot f.assembly flag bytes).complete = some m) (d : deliverable l m = true) :
    (f.takeSlot l flag bytes).handed = f.handed ++ [m] ∧ (f.takeSlot l flag bytes).counters.malformed =
      satAdd f.counters.malformed (assembleSlot f.assembly flag bytes).malformed := by
  simp only [Framer.takeSlot, h, d, if_true, and_self]

theorem Framer.takeSlot_of_undeliverable {f : Framer} {l : Link} {flag : Byte} {bytes : List Byte} {m : Message}
    (h : (assembleSlot f.assembly flag bytes).complete = some m) (d : deliverable l m = false) :
    (f.takeSlot l flag bytes).handed = f.handed ∧ (f.takeSlot l flag bytes).counters.malformed =
      satInc (satAdd f.counters.malformed (assembleSlot f.assembly flag bytes).malformed) := by
  simp only [Framer.takeSlot, h, d, Bool.false_eq_true, if_false, and_self]

/-- A message goes on from S and a donor link; from a remote link a STATUS of length 9, a REPLY and a BUSY do (R15). -/
theorem deliverable_iff (l : Link) (m : Message) : deliverable l m = true ↔
    ((∃ r, l = .remote r) → m.head.kind = 0x42 ∧ m.body.length = 9 ∨ m.head.kind = 0x43 ∨ m.head.kind = 0x44) := by
  cases l with
  | remote r =>
    have kinds : deliverable (.remote r) m = true ↔
        m.head.kind = 0x42 ∧ m.body.length = 9 ∨ m.head.kind = 0x43 ∨ m.head.kind = 0x44 := by
      simp only [deliverable, Bool.or_eq_true, Bool.and_eq_true, decide_eq_true_iff, or_assoc]
      rfl
    exact kinds.trans ⟨fun h _ => h, fun h => h ⟨r, rfl⟩⟩
  | donor n => simp [deliverable]
  | service => simp [deliverable]

/-- An uplink frame changes the Combiner alone (R39, R40). -/
theorem State.uplinkArrives_frame (s : State) (r : RemoteId) (x : LinkFrame) :
    s.uplinkArrives r x = { s with comb := (s.uplinkArrives r x).comb } := by
  unfold State.uplinkArrives State.classify
  simp only
  split
  · rfl
  · split
    · rfl
    · split
      · rfl
      · split <;> rfl

/-- The framer of a link after a good frame in LOCKED (R2). -/
def Framer.delivered (f : Framer) (l : Link) (x : LinkFrame) : Framer :=
  Framer.takeSlot l x.flag x.slot <|
    match l with
    | .donor _ => (f.goodLocked x.number).bufferFrame x
    | .remote _ => f.goodLocked x.number
    | .service => f.goodLocked x.number

theorem State.framer_deliver (s : State) (l : Link) (x : LinkFrame) :
    (s.deliver l x).framer l = (s.framer l).delivered l x := by
  unfold State.deliver
  rw [State.takeSlot_eq, State.framer_modFramer_self]
  cases l with
  | donor n => simp only [State.framer_modFramer_self, Framer.delivered]
  | remote r =>
    simp only
    rw [State.uplinkArrives_frame]
    exact congrArg _ (State.framer_modFramer_self s (.remote r) _)
  | service => simp only [State.framer_modFramer_self, Framer.delivered]

/-- A delivered frame changes the links and the Combiner alone, and only that of a remote link changes the Combiner. -/
theorem State.deliver_frame (s : State) (l : Link) (x : LinkFrame) :
    s.deliver l x = { s with links := (s.deliver l x).links, comb := (s.deliver l x).comb } ∧
      ((∀ r, l ≠ .remote r) → (s.deliver l x).comb = s.comb) := by
  cases l with
  | donor n => exact ⟨rfl, fun _ => rfl⟩
  | service => exact ⟨rfl, fun _ => rfl⟩
  | remote r =>
    refine ⟨?_, fun h => absurd rfl (h r)⟩
    unfold State.deliver
    simp only
    rw [State.uplinkArrives_frame]
    rfl

/-- The donor input buffer takes the frame, and a full one drops its oldest as an overrun (R12). -/
theorem Framer.bufferFrame_room {f : Framer} {x : LinkFrame} (h : f.buffer.length < 2) :
    f.bufferFrame x = { f with buffer := f.buffer ++ [x] } := if_pos h

theorem Framer.bufferFrame_full {f : Framer} {x : LinkFrame} (h : 2 ≤ f.buffer.length) :
    f.bufferFrame x = { f with buffer := f.buffer.drop 1 ++ [x]
                               counters := { f.counters with overruns := satInc f.counters.overruns } } :=
  if_neg (by omega)

/-- The buffer changes with its overrun count alone (R12). -/
theorem Framer.bufferFrame_frame (f : Framer) (x : LinkFrame) : f.bufferFrame x = { f with
    buffer := (f.bufferFrame x).buffer
    counters := { f.counters with overruns := (f.bufferFrame x).counters.overruns } } := by
  unfold Framer.bufferFrame
  split <;> rfl

/-- What a delivered frame leaves of the framer but for its buffer and its slot (R2, R3). -/
theorem Framer.delivered_frame (f : Framer) (l : Link) (x : LinkFrame) : f.delivered l x = { f.goodLocked x.number with
    buffer := (f.delivered l x).buffer
    assembly := (assembleSlot f.assembly x.flag x.slot).assembly
    handed := (f.delivered l x).handed
    counters := { (f.goodLocked x.number).counters with
      malformed := (f.delivered l x).counters.malformed, overruns := (f.delivered l x).counters.overruns } } := by
  cases l with
  | donor n => rw [Framer.delivered, Framer.takeSlot_frame, Framer.bufferFrame_frame]; rfl
  | remote r => rw [Framer.delivered, Framer.takeSlot_frame]; rfl
  | service => rw [Framer.delivered, Framer.takeSlot_frame]; rfl

/-- The buffer of a donor link after a good frame, and its overruns (R12). -/
theorem Framer.delivered_donor (f : Framer) (n : DonorId) (x : LinkFrame) :
    (f.buffer.length < 2 → (f.delivered (.donor n) x).buffer = f.buffer ++ [x] ∧
      (f.delivered (.donor n) x).counters.overruns = f.counters.overruns) ∧
    (2 ≤ f.buffer.length → (f.delivered (.donor n) x).buffer = f.buffer.drop 1 ++ [x] ∧
      (f.delivered (.donor n) x).counters.overruns = satInc f.counters.overruns) := by
  rw [Framer.delivered, Framer.takeSlot_frame]
  constructor
  · intro h
    rw [Framer.bufferFrame_room (f := f.goodLocked x.number) h]
    exact ⟨rfl, rfl⟩
  · intro h
    rw [Framer.bufferFrame_full (f := f.goodLocked x.number) h]
    exact ⟨rfl, rfl⟩

/-- Another link than a donor link has no input buffer. -/
theorem Framer.delivered_other (f : Framer) {l : Link} (x : LinkFrame) (h : ∀ n, l ≠ .donor n) :
    (f.delivered l x).buffer = f.buffer ∧ (f.delivered l x).counters.overruns = f.counters.overruns := by
  cases l with
  | donor n => exact absurd rfl (h n)
  | remote r => rw [Framer.delivered, Framer.takeSlot_frame]; exact ⟨rfl, rfl⟩
  | service => rw [Framer.delivered, Framer.takeSlot_frame]; exact ⟨rfl, rfl⟩

/-- What the assembler of a link takes a slot of a good frame on: its own state, as it was before the frame. -/
theorem Framer.delivered_slot (f : Framer) (l : Link) (x : LinkFrame) : ∃ g : Framer,
    f.delivered l x = g.takeSlot l x.flag x.slot ∧ g.assembly = f.assembly ∧ g.handed = f.handed ∧
      g.counters.malformed = f.counters.malformed := by
  cases l with
  | donor n => exact ⟨_, rfl, by rw [Framer.bufferFrame_frame]; exact ⟨rfl, rfl, rfl⟩⟩
  | remote r => exact ⟨_, rfl, rfl, rfl, rfl⟩
  | service => exact ⟨_, rfl, rfl, rfl, rfl⟩

/-- Settles O21, from the framer of the link after a delivered frame (`State.framer_deliver`). -/
theorem goodFrameInLockedIsDelivered : Obligations.GoodFrameInLockedIsDelivered := by
  unfold Obligations.GoodFrameInLockedIsDelivered
  refine ⟨deliverable_iff, fun s l x hx locked => ⟨s.deliver l x, ?_, (s.deliver_frame l x).1, (s.deliver_frame l x).2,
    (s.deliver_linkEvent l x).framers, ?_⟩⟩
  · show Host.Outcome.next (s.frameEnds l x) = _
    rw [s.frameEnds_good l hx, State.goodFrame_locked x locked]
  · obtain ⟨g, slot, assembly, handed, malformed⟩ := (s.framer l).delivered_slot l x
    have frame := (s.framer l).delivered_frame l x
    simp only [State.framer_deliver]
    refine ⟨?_, ?_, ?_, ?_, fun n hn e => ?_, fun n hn e => ?_, fun n hl h => ?_, fun n hl h => ?_,
      fun h => (s.framer l).delivered_other x h, ?_, fun m hm d => ?_, fun m hm d => ?_, fun hm => ?_, ?_⟩
    · rw [frame]; exact locked
    · rw [frame]; rfl
    · rw [frame]; rfl
    · rw [frame]; rfl
    · rw [frame]
      exact if_neg (by simp [Framer.jumps, hn, e])
    · rw [frame]
      refine if_pos ?_
      simp only [Framer.jumps, hn]
      exact decide_eq_true e
    · subst hl; exact ((s.framer _).delivered_donor n x).1 h
    · subst hl; exact ((s.framer _).delivered_donor n x).2 h
    · rw [frame]
    · rw [← assembly] at hm ⊢
      rw [slot, ← handed, ← malformed]
      exact Framer.takeSlot_of_deliverable hm d
    · rw [← assembly] at hm ⊢
      rw [slot, ← handed, ← malformed]
      exact Framer.takeSlot_of_undeliverable hm d
    · rw [← assembly] at hm ⊢
      rw [slot, ← handed, ← malformed]
      exact Framer.takeSlot_of_none hm
    · rw [frame]
      exact ⟨rfl, rfl, rfl, rfl, rfl, rfl, rfl, rfl, rfl, rfl⟩

end Sys2Proof.Machine
end

section
namespace Sys2Proof.Machine

/-! ## Entering LOCKED (R5, R9, R29, R122, R123) -/

/-- With no selection, the best reference is selected and reported; otherwise nothing happens (R9, R10). -/
theorem State.selectReference_cases (s : State) :
    (∃ n, s.clock.reference = none ∧ s.bestReference = some n ∧
      s.selectReference = (s.setReference (some n)).post .referenceRestored (.donor n) 0) ∨
    ((s.clock.reference ≠ none ∨ s.bestReference = none) ∧ s.selectReference = s) := by
  cases hr : s.clock.reference with
  | some m => exact .inr ⟨.inl nofun, by simp only [State.selectReference, hr]⟩
  | none =>
    cases hb : s.bestReference with
    | none => exact .inr ⟨.inr rfl, by simp only [State.selectReference, hr, hb]⟩
    | some n => exact .inl ⟨n, rfl, rfl, by simp only [State.selectReference, hr, hb]⟩

/-- What the selection comes to (R9). -/
theorem State.selectReference_reference (s : State) : s.selectReference.clock.reference =
    match s.clock.reference with | some m => some m | none => s.bestReference := by
  rcases s.selectReference_cases with ⟨n, hr, hb, e⟩ | ⟨h, e⟩
  · rw [e, hr, hb]; rfl
  · rw [e]
    cases hr : s.clock.reference with
    | some m => rfl
    | none => exact (h.resolve_left fun k => k hr).symm

/-- A selection made is reported (R10). -/
theorem State.selectReference_events (s : State) : s.selectReference.events =
    match s.clock.reference, s.selectReference.clock.reference with
    | none, some m => s.events.post .referenceRestored (.donor m) none 0 s.now
    | _, _ => s.events := by
  rcases s.selectReference_cases with ⟨n, hr, hb, e⟩ | ⟨h, e⟩
  · rw [e, hr]; rfl
  · rw [e]
    cases s.clock.reference <;> rfl

theorem State.selectReference_frame (s : State) : s.selectReference = { s with
    clock := { s.clock with reference := s.selectReference.clock.reference }, events := s.selectReference.events } := by
  rcases s.selectReference_cases with ⟨n, _, _, e⟩ | ⟨_, e⟩
  · rw [e]; rfl
  · rw [e]

/-- A donor link that locks is unmuted with its grace ended, and a reported loss is reported restored (R29). -/
theorem State.donorLocked_frame (s : State) (n : DonorId) : s.donorLocked n = { s with
    dist := { s.dist with donors := s.dist.donors.modify n fun _ => ⟨none, false, false⟩ }
    boundary := (s.unDue (.donorGrace n)).boundary
    events := if (s.dist.donors.get n).muted ∧ (s.dist.donors.get n).reported then
      s.events.post .donorRestored (.donor n) none (word16 (s.donorCarriers n)) s.now else s.events } := by
  unfold State.donorLocked
  simp only
  by_cases h : (s.dist.donors.get n).muted = true ∧ (s.dist.donors.get n).reported = true
  · rw [if_pos h, if_pos (by simpa using h)]; rfl
  · rw [if_neg h, if_neg (by simpa using h)]; rfl

/-- The framer of a link that locks, but for a POLL queued at once (R5). -/
def Framer.lock (f : Framer) : Framer := { f with rx := .locked, streak := 0 }

theorem State.enterLocked_donor (s : State) (n : DonorId) :
    s.enterLocked (.donor n) = ((s.modFramer (.donor n) Framer.lock).selectReference).donorLocked n := rfl

theorem State.enterLocked_remote (s : State) (r : RemoteId) :
    s.enterLocked (.remote r) = (s.modFramer (.remote r) Framer.lock).remoteLocked r := rfl

theorem State.locked_modFramer_lock (s : State) (l k : Link) :
    (s.modFramer l Framer.lock).locked k = (decide (k = l) || s.locked k) := by
  simp only [State.locked, State.framer_modFramer]
  by_cases h : l = k
  · subst h; simp [Framer.lock]
  · simp [h, Ne.symm h]

/-- A remote that is not VACANT is polled at once when its link locks, and its grace ends (R122, R123). -/
theorem State.remoteLocked_parts (s : State) (r : RemoteId) :
    (s.remoteLocked r).framer (.remote r) = { s.framer (.remote r) with
      pollPlace := (s.framer (.remote r)).pollPlace || decide (s.health r ≠ .vacant) } ∧
    (s.remoteLocked r).supRec r = { s.supRec r with
      grace := none, awaiting := (s.supRec r).awaiting || decide (s.health r ≠ .vacant) } ∧
    s.remoteLocked r = { s with
      links := (s.remoteLocked r).links, sup := (s.remoteLocked r).sup, boundary := (s.remoteLocked r).boundary } := by
  have health : ((s.modSup r fun v => { v with grace := none }).unDue (.linkGrace r)).health r = s.health r := by
    show ((s.modSup r _).supRec r).health = _
    rw [State.supRec_modSup_self]
    rfl
  have record : ∀ f, (s.modSup r f).supRec r = f (s.supRec r) := fun f => s.supRec_modSup_self r f
  unfold State.remoteLocked
  simp only [health]
  by_cases vacant : s.health r = .vacant
  · rw [if_pos vacant]
    refine ⟨?_, ?_, rfl⟩
    · simp only [vacant, ne_eq, not_true_eq_false, decide_false, Bool.or_false]; rfl
    · simp only [vacant, ne_eq, not_true_eq_false, decide_false, Bool.or_false]; exact record _
  · rw [if_neg vacant]
    refine ⟨?_, ?_, rfl⟩
    · simp only [vacant, ne_eq, not_false_eq_true, decide_true, Bool.or_true]
      exact State.framer_modFramer_self _ (.remote r) _
    · simp only [vacant, ne_eq, not_false_eq_true, decide_true, Bool.or_true]
      exact (State.supRec_modSup_self _ r _).trans (congrArg (fun v : SupRecord => { v with awaiting := true }) (record _))

/-- What the lock of a donor link does to each block (R5, R9, R10, R29). -/
theorem State.enterLocked_donor_parts (s : State) (n : DonorId) :
    let u := s.enterLocked (.donor n)
    let v := s.modFramer (.donor n) Framer.lock
    u.links = v.links ∧ u.comb = s.comb ∧ u.svc = s.svc ∧ u.now = s.now ∧
      u.dist.donors.get n = ⟨none, false, false⟩ ∧
      u.clock.reference = (match s.clock.reference with | some m => some m | none => v.bestReference) ∧
      u.events =
        (let e := match s.clock.reference, u.clock.reference with
          | none, some m => s.events.post .referenceRestored (.donor m) none 0 s.now
          | _, _ => s.events
        if (s.dist.donors.get n).muted ∧ (s.dist.donors.get n).reported then
          e.post .donorRestored (.donor n) none (word16 (s.donorCarriers n)) s.now else e) := by
  intro u v
  have selected := v.selectReference_frame
  have unmuted := v.selectReference.donorLocked_frame n
  have reference : u.clock.reference = v.selectReference.clock.reference := congrArg (·.clock.reference) unmuted
  have dist : v.selectReference.dist = s.dist := (congrArg State.dist selected :)
  have now : v.selectReference.now = s.now := (congrArg State.now selected :)
  have carriers : v.selectReference.donorCarriers n = s.donorCarriers n := (congrArg (State.donorCarriers · n) selected :)
  refine ⟨(congrArg State.links unmuted :).trans (congrArg State.links selected :),
    (congrArg State.comb unmuted :).trans (congrArg State.comb selected :),
    (congrArg State.svc unmuted :).trans (congrArg State.svc selected :), (congrArg State.now unmuted :).trans now,
    (congrArg (·.dist.donors.get n) unmuted :).trans (Tab.get_modify_self _ n _),
    reference.trans v.selectReference_reference, (congrArg State.events unmuted :).trans ?_⟩
  simp only [dist, now, carriers, reference, v.selectReference_events]
  rfl

/-- What locking leaves of the other blocks, and of the framer but for its poll place (R5). -/
theorem State.enterLocked_keeps (s : State) (l : Link) :
    (s.enterLocked l).comb = s.comb ∧ (s.enterLocked l).svc = s.svc ∧ (s.enterLocked l).now = s.now ∧
      (s.enterLocked l).framer l = { (s.framer l).lock with pollPlace := ((s.enterLocked l).framer l).pollPlace } := by
  have own := s.framer_modFramer_self l Framer.lock
  cases l with
  | donor n =>
    obtain ⟨links, comb, svc, now, -⟩ := s.enterLocked_donor_parts n
    refine ⟨comb, svc, now, ?_⟩
    rw [State.framer_congr links, own]
  | remote r =>
    obtain ⟨framer, -, frame⟩ := (s.modFramer (.remote r) Framer.lock).remoteLocked_parts r
    refine ⟨(congrArg State.comb frame :), (congrArg State.svc frame :), (congrArg State.now frame :), ?_⟩
    rw [State.enterLocked_remote, framer, own]
  | service =>
    refine ⟨rfl, rfl, rfl, ?_⟩
    show (s.modFramer .service Framer.lock).framer .service =
      { (s.framer .service).lock with pollPlace := ((s.modFramer .service Framer.lock).framer .service).pollPlace }
    rw [own]

/-- Settles O20: the link enters LOCKED, and the frame is then delivered as one in LOCKED. -/
theorem fourthGoodFrameLocks : Obligations.FourthGoodFrameLocks := by
  unfold Obligations.FourthGoodFrameLocks
  intro s l x hv hc hn hx
  generalize hs : (s.modFramer l fun f => { f with verifyCount := f.verifyCount + 1 }) = s'
  have framer' : s'.framer l = { s.framer l with verifyCount := (s.framer l).verifyCount + 1 } := by
    rw [← hs, State.framer_modFramer_self]
  have exec_s : exec (.goodFrame l x) s = .next ((s'.enterLocked l).deliver l x) := by
    show Host.Outcome.next (s.frameEnds l x) = _
    rw [s.frameEnds_good l hx, State.goodFrame_verify_lock x hv hn hc, hs]
  obtain ⟨comb, svc, now, framer⟩ := s'.enterLocked_keeps l
  have rx : ((s'.enterLocked l).framer l).rx = .locked := by rw [framer]; rfl
  have after := (s'.enterLocked l).framer_deliver l x
  have frame := ((s'.enterLocked l).framer l).delivered_frame l x
  obtain ⟨rest, -⟩ := (s'.enterLocked l).deliver_frame l x
  have poll : (((s'.enterLocked l).deliver l x).framer l).pollPlace = ((s'.enterLocked l).framer l).pollPlace := by
    rw [after, frame]; rfl
  have lastNumber : (s'.framer l).lastNumber = some (x.number - 1) := by rw [framer']; exact hn
  refine ⟨_, exec_s, ⟨s'.enterLocked l, ?_, ?_, ?_, ?_, ?_⟩, ?_, ?_, ?_, ?_, ?_, ?_, fun n hl => ?_, fun r hl => ?_,
    fun hl => ?_⟩
  · show Host.Outcome.next ((s'.enterLocked l).frameEnds l x) = _
    rw [State.frameEnds_good _ l hx, State.goodFrame_locked x rx]
  · rw [comb, ← hs, State.modFramer_comb]
  · rw [svc, ← hs, State.modFramer_svc]
  · rw [now, ← hs]; simp only [State.now, State.modFramer_clock]
  · rw [poll, framer, framer', Framer.lock]; simp only [hc]
  · rw [after, frame]; exact rx
  · rw [after, frame]
    show ((s'.enterLocked l).framer l).verifyCount = 4
    rw [framer, framer']
    show (s.framer l).verifyCount + 1 = 4
    omega
  · rw [after, frame]; rfl
  · rw [after, frame]; rfl
  · rw [after, frame]
    show satInc ((s'.enterLocked l).framer l).counters.good = _
    rw [framer, framer']; rfl
  · rw [after, frame]
    show (if ((s'.enterLocked l).framer l).jumps x.number then _ else ((s'.enterLocked l).framer l).counters.jumps) = _
    rw [if_neg]
    · rw [framer, framer']; rfl
    · rw [framer, framer']
      simp [Framer.jumps, Framer.lock, hn]
  · subst hl
    have buffer : ((s'.enterLocked (.donor n)).framer (.donor n)).buffer = (s.framer (.donor n)).buffer := by
      rw [framer, framer']; rfl
    obtain ⟨room, full⟩ := ((s'.enterLocked (.donor n)).framer (.donor n)).delivered_donor n x
    obtain ⟨-, -, -, -, donor, reference, events⟩ := s'.enterLocked_donor_parts n
    have best : (s'.modFramer (.donor n) Framer.lock).bestReference = (List.finRange 4).find? fun m =>
        s.settings.reference.permits m && (decide (m = n) || s.locked (.donor m)) := by
      have locked : ∀ k, s'.locked k = s.locked k := fun k => by
        rw [← hs]
        simp only [State.locked, State.framer_modFramer]
        split <;> rfl
      simp only [State.bestReference, State.modFramer_settings, State.locked_modFramer_lock, locked, Link.donor.injEq]
      rw [← hs]
      rfl
    rw [best] at reference
    rw [congrArg (·.dist.donors.get n) rest, congrArg (·.clock.reference) rest, congrArg State.events rest]
    refine ⟨donor, fun h => ?_, fun h => ?_, ?_, ?_⟩
    · rw [after, (room (buffer ▸ h)).1, buffer]
    · rw [after, (full (buffer ▸ h)).1, buffer]
    · rw [reference, ← hs]; rfl
    · rw [events, ← hs]; rfl
  · subst hl
    obtain ⟨locked, record, -⟩ := (s'.modFramer (.remote r) Framer.lock).remoteLocked_parts r
    have sup : (s'.modFramer (.remote r) Framer.lock).supRec r = s.supRec r := by rw [← hs]; rfl
    have health : (s'.modFramer (.remote r) Framer.lock).health r = s.health r := congrArg SupRecord.health sup
    have supervised : ((s'.enterLocked (.remote r)).deliver (.remote r) x).supRec r = _ :=
      (congrArg (State.supRec · r) rest :).trans record
    rw [poll, supervised, sup, State.enterLocked_remote, locked, health, State.framer_modFramer_self, framer']
    exact ⟨rfl, rfl⟩
  · subst hl
    rw [congrArg State.events rest, ← hs]
    rfl

end Sys2Proof.Machine
end

section
namespace Sys2Proof.Machine

/-! ## The Relay's operations, each said once (R17, R150, R160 to R164)

Each changes the Relay's state, the framer of one remote port and what is due, and nothing else. -/

/-- The reserved place of `x` is filled with `p`; without such a place nothing is sent (R150, R168). -/
def Service.answered (v : Service) (x : Reservation) (p : Response) : Service :=
  { v with filled := v.filled ++ (if x ∈ v.reserved then [p] else []), reserved := v.reserved.erase x }

theorem State.fillReserved_eq (s : State) (x : Reservation) (p : Response) :
    s.fillReserved x p = { s with svc := s.svc.answered x p } := by
  unfold State.fillReserved Service.answered
  by_cases h : x ∈ s.svc.reserved
  · rw [if_pos (by simpa using h), if_pos h]; rfl
  · rw [if_neg (by simpa using h), if_neg h, List.append_nil, List.erase_of_not_mem h]

/-- The answer to a set relay whose last port has left it (R164). -/
def SetRelay.done (w : SetRelay) : Response := ⟨w.link, w.tag, w.kind, .done, [], false⟩

/-- The set relay has ended with DONE (R164). -/
def Service.relayDone (v : Service) (w : SetRelay) : Service := { v.answered .setRelay w.done with setRelay := none }

theorem State.endSetRelay_none {s : State} (h : s.svc.setRelay = none) : s.endSetRelay = s := by
  simp only [State.endSetRelay, h]

theorem State.endSetRelay_waiting {s : State} {w : SetRelay} (h : s.svc.setRelay = some w) (r : w.remaining ≠ []) :
    s.endSetRelay = s := by
  simp only [State.endSetRelay, h]
  exact if_neg (by simpa using r)

theorem State.endSetRelay_done {s : State} {w : SetRelay} (h : s.svc.setRelay = some w) (r : w.remaining = []) :
    s.endSetRelay = { s with svc := s.svc.relayDone w } := by
  simp only [State.endSetRelay, h]
  rw [if_pos (by simpa using r), State.fillReserved_eq]
  rfl

/-- Port r has left the set relay's remaining ports, and the last one ends it (R164). -/
def Service.left (v : Service) (r : RemoteId) : Service :=
  match v.setRelay with
  | none => v
  | some w =>
    if w.remaining.erase r = [] then v.relayDone w else { v with setRelay := some { w with remaining := w.remaining.erase r } }

theorem Service.left_none {v : Service} (r : RemoteId) (h : v.setRelay = none) : v.left r = v := by
  simp only [Service.left, h]

theorem Service.left_more {v : Service} {r : RemoteId} {w : SetRelay} (h : v.setRelay = some w)
    (more : w.remaining.erase r ≠ []) :
    v.left r = { v with setRelay := some { w with remaining := w.remaining.erase r } } := by
  simp only [Service.left, h, if_neg more]

theorem Service.left_last {v : Service} {r : RemoteId} {w : SetRelay} (h : v.setRelay = some w)
    (last : w.remaining.erase r = []) : v.left r = v.relayDone w := by
  simp only [Service.left, h, if_pos last]

/-- What a leaving port changes of the Relay's state. -/
theorem Service.left_frame (v : Service) (r : RemoteId) : v.left r = { v with
    setRelay := (v.left r).setRelay, filled := (v.left r).filled, reserved := (v.left r).reserved } := by
  cases h : v.setRelay with
  | none => rw [Service.left_none r h]
  | some w =>
    by_cases last : w.remaining.erase r = []
    · rw [Service.left_last h last]; rfl
    · rw [Service.left_more h last]

theorem State.leaveRemaining_eq (s : State) (r : RemoteId) : s.leaveRemaining r = { s with svc := s.svc.left r } := by
  unfold State.leaveRemaining Service.left
  cases h : s.svc.setRelay with
  | none => rfl
  | some w =>
    simp only
    by_cases last : w.remaining.erase r = []
    · rw [State.endSetRelay_done rfl last, if_pos last]; rfl
    · rw [State.endSetRelay_waiting rfl last, if_neg last]

/-- A message has joined the relay queue (R17). -/
def Framer.enqueue (m : Relayed) (f : Framer) : Framer := { f with relayQueue := f.relayQueue ++ [m] }

/-- An accepted attempt of a pass-through joins the relay queue, and that is all. -/
theorem State.acceptOffer_attempt (s : State) (r : RemoteId) {m : Relayed} (h : m.copy = false) :
    s.acceptOffer r m = s.modFramer (.remote r) (Framer.enqueue m) := by
  unfold State.acceptOffer
  simp only [h, Bool.false_eq_true, if_false]
  rfl

/-- With an accepted copy the port leaves the set relay (R164). -/
theorem State.acceptOffer_copy (s : State) (r : RemoteId) {m : Relayed} (h : m.copy = true) :
    s.acceptOffer r m = { s.modFramer (.remote r) (Framer.enqueue m) with svc := s.svc.left r } := by
  unfold State.acceptOffer
  simp only [h, if_true]
  exact State.leaveRemaining_eq _ r

theorem State.offer_room {s : State} {r : RemoteId} (m : Relayed) (h : (s.framer (.remote r)).relayQueue.length < 4) :
    s.offer r m = s.acceptOffer r m := if_pos h

theorem State.offer_full {s : State} {r : RemoteId} (m : Relayed) (h : 4 ≤ (s.framer (.remote r)).relayQueue.length) :
    s.offer r m = s.setRefused r (s.svc.refused.get r ++ [m]) := if_neg (Nat.not_lt.mpr h)

/-- Only copies of a set relay wait in the relay queue (R161). -/
def Framer.copiesOnly (f : Framer) : Framer := { f with relayQueue := f.relayQueue.filter Relayed.copy }

/-- Port r's slot is idle, its place filled with this answer and its refused attempt withdrawn (R161, R162). -/
def Service.passEnded (v : Service) (r : RemoteId) (p : Pass) (st : Status) (b : List Byte) : Service :=
  { v.answered (.pass r) ⟨p.link, p.tag, p.kind, st, b, false⟩ with
    pass := v.pass.set r none, refused := v.refused.set r ((v.refused.get r).filter Relayed.copy) }

theorem State.endPass_none {s : State} {r : RemoteId} (h : s.svc.pass.get r = none) (st : Status) (b : List Byte) :
    s.endPass r st b = s := by
  simp only [State.endPass, h]

/-- The end of an open pass-through, whole (R161, R162). -/
theorem State.endPass_some {s : State} {r : RemoteId} {p : Pass} (h : s.svc.pass.get r = some p) (st : Status)
    (b : List Byte) : s.endPass r st b =
      { s.modFramer (.remote r) Framer.copiesOnly with
        svc := s.svc.passEnded r p st b
        boundary := ((s.unDue (.passTimeout r)).unDue (.retryEnd r)).boundary } := by
  simp only [State.endPass, h, State.fillReserved_eq]
  rfl

end Sys2Proof.Machine
end

section
namespace Sys2Proof.Machine

/-! ## Replies and timers of a pass-through (R161, R162) -/

theorem Tab.modify_eq_set {α : Type} {n : Nat} (t : Tab n α) (i : Fin n) (f : α → α) :
    t.modify i f = t.set i (f (t.get i)) := rfl

/-- The oldest message of a remote, taken when its kind is the one its row names (R15). -/
theorem State.takeRemoteMessage_cons {s : State} {r : RemoteId} {kind : Byte} {m : Message} {ms : List Message}
    (f : State → Message → State) (h : (s.framer (.remote r)).handed = m :: ms) (k : m.head.kind = kind) :
    s.takeRemoteMessage r kind f = f (s.modFramer (.remote r) fun f => { f with handed := ms }) m := by
  have taken : s.dropHanded (.remote r) = s.modFramer (.remote r) fun f => { f with handed := ms } :=
    s.modFramer_congr _ (by rw [h]; rfl)
  simp only [State.takeRemoteMessage, h, if_pos k, taken]

/-- An open attempt of port r has the relay tag of message m (R162). -/
def State.matching (s : State) (r : RemoteId) (m : Message) (p : Pass) : Prop :=
  s.svc.pass.get r = some p ∧ p.relayTag = m.head.tag

section Answers

variable {s : State} {r : RemoteId} {m : Message} {p : Pass}

theorem State.replyArrives_unmatched (h : ¬∃ p, s.matching r m p) : s.replyArrives r m = s.unmatchedReply r := by
  unfold State.replyArrives
  cases open' : s.svc.pass.get r with
  | none => rfl
  | some p => exact if_neg fun tag => h ⟨p, open', tag⟩

theorem State.replyArrives_matching (h : s.matching r m p) : s.replyArrives r m = s.endPass r .done m.body := by
  simp only [State.replyArrives, h.1, if_pos h.2]

theorem State.busyArrives_unmatched (h : ¬∃ p, s.matching r m p) : s.busyArrives r m = s.unmatchedReply r := by
  unfold State.busyArrives
  cases open' : s.svc.pass.get r with
  | none => rfl
  | some p => exact if_neg fun tag => h ⟨p, open', tag⟩

/-- A matching BUSY has been counted (R162). -/
def State.countBusy (s : State) (r : RemoteId) : State := s.countRelay r fun c => { c with busies := satInc c.busies }

theorem State.busyArrives_last (h : s.matching r m p) (last : p.retries = 0) :
    s.busyArrives r m = (s.countBusy r).endPass r .remoteBusy [] := by
  simp only [State.busyArrives, h.1, if_pos h.2, if_pos last]
  rfl

theorem State.busyArrives_retry (h : s.matching r m p) (left : 0 < p.retries) :
    s.busyArrives r m = (s.countBusy r).retryPass r p := by
  simp only [State.busyArrives, h.1, if_pos h.2, if_neg (Nat.pos_iff_ne_zero.mp left)]
  rfl

end Answers

/-- The end of an open pass-through, part by part (R161, R162). -/
theorem State.endPass_parts {s : State} {r : RemoteId} {p : Pass} (h : s.svc.pass.get r = some p) (st : Status)
    (b : List Byte) : let t := s.endPass r st b
    (t = { s with links := t.links, svc := t.svc, boundary := t.boundary } ∧ t.svc = s.svc.passEnded r p st b) ∧
      ∀ k, t.framer k = if k = .remote r then (s.framer k).copiesOnly else s.framer k := by
  intro t
  have whole : t = _ := State.endPass_some h st b
  rw [whole]
  refine ⟨⟨rfl, rfl⟩, fun k => ?_⟩
  have links := (s.framer_modFramer (.remote r) k Framer.copiesOnly)
  simp only [eq_comm (a := Link.remote r)] at links
  exact links

theorem Service.passEnded_answer {v : Service} {r : RemoteId} {p : Pass} (st : Status) (b : List Byte)
    (h : .pass r ∈ v.reserved) :
    (v.passEnded r p st b).filled = v.filled ++ [⟨p.link, p.tag, p.kind, st, b, false⟩] ∧
      (v.passEnded r p st b).reserved = v.reserved.erase (.pass r) :=
  ⟨congrArg (v.filled ++ ·) (if_pos h), rfl⟩

/-- A retry, whole: a new relay tag, one retry less and a delay of 1, with the old attempt withdrawn (R161, R162). -/
theorem State.retryPass_eq (s : State) (r : RemoteId) (p : Pass) : s.retryPass r p =
    { s.modFramer (.remote r) Framer.copiesOnly with
      svc := { s.svc with
        refused := s.svc.refused.set r ((s.svc.refused.get r).filter Relayed.copy)
        relayTags := s.svc.relayTags.modify r (· + 1)
        pass := s.svc.pass.set r
          (some { p with relayTag := s.svc.relayTags.get r, retries := p.retries - 1, phase := .sending (some 1) }) }
      boundary := ((s.unDue (.passTimeout r)).unDue (.retryEnd r)).boundary } := rfl

/-- Settles O29: the answer is taken from its link and matched, and a match ends or retries the pass-through. -/
theorem repliesEndOrRetryThePassThrough : Obligations.RepliesEndOrRetryThePassThrough := by
  unfold Obligations.RepliesEndOrRetryThePassThrough
  intro s r m ms hm u unmatched matching ended stays
  have own : u.framer (.remote r) = { s.framer (.remote r) with handed := ms } := s.framer_modFramer_self _ _
  have ends : ∀ (w : State) (p : Pass) (st : Status) (b : List Byte), s.svc.pass.get r = some p →
      w = { u with svc := { s.svc with portCounts := w.svc.portCounts } } →
      ended p st b (w.endPass r st b) ∧ stays (w.endPass r st b) ∧
        (w.endPass r st b).svc.portCounts = w.svc.portCounts := by
    intro w p st b hp hw
    have framers : ∀ k, w.framer k = u.framer k := State.framer_congr (congrArg State.links hw :)
    have svc : w.svc = { s.svc with portCounts := w.svc.portCounts } := congrArg State.svc hw
    have hp' : w.svc.pass.get r = some p := by rw [svc]; exact hp
    obtain ⟨⟨frame, ended'⟩, framer⟩ := State.endPass_parts hp' st b
    generalize w.endPass r st b = t at *
    rw [svc] at ended'
    have counts : t.svc.portCounts = w.svc.portCounts := (congrArg Service.portCounts ended' :)
    refine ⟨⟨?_, fun x hx => ?_, fun h => ?_, ?_, ?_⟩, ⟨?_, fun k hk => ?_, ?_, ?_, ?_⟩, counts⟩
    · rw [ended']; exact Tab.get_set_self ..
    · rw [ended']; exact Tab.get_set_ne _ _ (Ne.symm hx)
    · rw [ended']; exact Service.passEnded_answer st b (by simpa using h)
    · rw [framer, if_pos rfl, framers, own]; rfl
    · rw [ended']; exact Tab.get_set_self ..
    · rw [frame, hw]; rfl
    · rw [framer, if_neg hk, framers]
      exact (s.framer_modFramer _ _ _).trans (if_neg (Ne.symm hk))
    · rw [ended']; rfl
    · rw [ended']; rfl
    · rw [ended']; rfl
  have reply : m.head.kind = 0x43 → exec (.reply r) s = .next (u.replyArrives r m) := fun hk =>
    congrArg _ (State.takeRemoteMessage_cons _ hm hk)
  have busy : m.head.kind = 0x44 → exec (.busyReply r) s = .next (u.busyArrives r m) := fun hk =>
    congrArg _ (State.takeRemoteMessage_cons _ hm hk)
  have counted : ((u.countBusy r).svc.portCounts.get r).busies = min 65535 ((s.svc.portCounts.get r).busies + 1) :=
    congrArg PortService.busies (Tab.get_modify_self _ r _)
  refine ⟨fun hk => ⟨fun h => ?_, fun p hp => ⟨_, reply hk, ?_⟩⟩,
    fun hk => ⟨fun h => ?_, fun p hp last => ⟨_, busy hk, ?_⟩, fun p hp left => ⟨_, busy hk, ?_⟩⟩⟩
  · rw [reply hk, State.replyArrives_unmatched (s := u) h]; rfl
  · rw [State.replyArrives_matching (s := u) hp]
    exact ends u p _ _ hp.1 rfl
  · rw [busy hk, State.busyArrives_unmatched (s := u) h]; rfl
  · rw [State.busyArrives_last (s := u) hp last]
    obtain ⟨ended', stays', counts⟩ := ends (u.countBusy r) p .remoteBusy [] hp.1 rfl
    exact ⟨ended', stays', by rw [counts, counted]⟩
  · rw [State.busyArrives_retry (s := u) hp left, State.retryPass_eq]
    have framer : ∀ k, ((u.countBusy r).modFramer (.remote r) Framer.copiesOnly).framer k =
        if .remote r = k then { (s.framer (.remote r)).copiesOnly with handed := ms } else s.framer k := fun k => by
      rw [State.framer_modFramer]
      split
      · subst_vars; exact congrArg Framer.copiesOnly own
      · exact (s.framer_modFramer _ _ _).trans (if_neg ‹_›)
    exact ⟨⟨rfl, fun k hk => (framer k).trans (if_neg (Ne.symm hk)), rfl, rfl, rfl⟩, counted, Tab.get_set_self ..,
      Tab.get_modify_self .., rfl, rfl, congrArg Framer.relayQueue ((framer _).trans (if_pos rfl)), Tab.get_set_self ..⟩

end Sys2Proof.Machine
end

section
namespace Sys2Proof.Machine

/-! ## Attempts offered, sent and timed out (R17, R151, R160 to R162) -/

/-- With one sent report of a port due, it is the one taken. -/
theorem State.sentDue_of_unique {s : State} {r : RemoteId} {tag : Byte} (h : .sent r tag ∈ s.boundary.due)
    (unique : ∀ x, .sent r x ∈ s.boundary.due → x = tag) : s.sentDue r = some tag := by
  unfold State.sentDue
  cases found : s.boundary.due.findSome? fun d => match d with
    | .sent x t => if x = r then some t else none
    | _ => none with
  | none => exact absurd (List.findSome?_eq_none_iff.mp found _ h) (by simp)
  | some t =>
    obtain ⟨d, hd, ht⟩ := List.exists_of_findSome?_eq_some found
    split at ht
    · split at ht
      · cases ht; subst_vars; exact congrArg some (unique t hd)
      · cases ht
    · cases ht

theorem exec_relayedMessageSent {s : State} {r : RemoteId} {tag : Byte} (h : .sent r tag ∈ s.boundary.due)
    (unique : ∀ x, .sent r x ∈ s.boundary.due → x = tag) :
    exec (.relayedMessageSent r) s = .next ((s.unDue (.sent r tag)).sentReport r tag) := by
  show (match s.sentDue r with | some t => _ | none => _) = _
  rw [State.sentDue_of_unique h unique]
  exact congrArg _ (State.takeDue_of_due _ h)

/-- An attempt accepted by the arbiter, or kept at a full relay queue for a later offer (R17). -/
theorem State.offer_attempt (s : State) (r : RemoteId) {m : Relayed} (h : m.copy = false) :
    ((s.framer (.remote r)).relayQueue.length < 4 → s.offer r m = s.modFramer (.remote r) (Framer.enqueue m)) ∧
    (4 ≤ (s.framer (.remote r)).relayQueue.length →
      s.offer r m = { s with svc := { s.svc with refused := s.svc.refused.modify r fun xs => xs ++ [m] } }) :=
  ⟨fun room => (State.offer_room m room).trans (s.acceptOffer_attempt r h),
    fun full => (State.offer_full m full).trans (by rw [Tab.modify_eq_set]; rfl)⟩

/-- Settles O41: each timer's event is taken and acts on the open pass-through; an idle slot has none to act on. -/
theorem passThroughTimersRun : Obligations.PassThroughTimersRun := by
  unfold Obligations.PassThroughTimersRun
  intro s r
  have timeout : .passTimeout r ∈ s.boundary.due →
      exec (.passTimeout r) s = .next ((s.unDue (.passTimeout r)).passExpires r) := fun h =>
    congrArg _ (State.takeDue_of_due _ h)
  have delay : .retryEnd r ∈ s.boundary.due →
      exec (.passRetryDelayEnd r) s = .next ((s.unDue (.retryEnd r)).retryEnds r) := fun h =>
    congrArg _ (State.takeDue_of_due _ h)
  refine ⟨fun idle => ⟨fun tag h unique => ?_, fun h => ?_, fun h => ?_⟩,
    fun p hp => ⟨fun h n hn => ⟨_, timeout h, ?_⟩, fun h d hd => ?_, fun tag h unique => ⟨fun ht => ?_, fun ht => ?_⟩⟩⟩
  · rw [exec_relayedMessageSent h unique]
    simp only [State.sentReport, State.unDue_svc, idle]
  · rw [timeout h]
    simp only [State.passExpires, State.unDue_svc, idle]
  · rw [delay h]
    simp only [State.retryEnds, State.unDue_svc, idle]
  · set w := (s.unDue (.passTimeout r)).countRelay r fun c => { c with timeouts := satInc c.timeouts } with hw
    have expires : (s.unDue (.passTimeout r)).passExpires r = w.endPass r .timeout [] := by
      simp only [State.passExpires, State.unDue_svc, hp, hn, hw]
    obtain ⟨⟨frame, ended⟩, framer⟩ := State.endPass_parts (s := w) hp .timeout []
    rw [expires]
    generalize w.endPass r .timeout [] = t at *
    have counts : t.svc.portCounts = s.svc.portCounts.modify r fun c => { c with timeouts := satInc c.timeouts } :=
      (congrArg Service.portCounts ended :)
    refine ⟨frame, by rw [ended]; exact Tab.get_set_self .., ?_, fun h => ?_, fun k hk => ?_, fun x hx => ⟨?_, ?_⟩⟩
    · rw [counts, Tab.get_modify_self]; rfl
    · rw [ended]; exact Service.passEnded_answer (v := w.svc) _ _ h
    · exact (framer k).trans (if_neg hk)
    · rw [ended]; exact Tab.get_set_ne _ _ (Ne.symm hx)
    · rw [counts, Tab.get_modify_ne _ _ (Ne.symm hx)]
  · intro attempt u v
    have ends : u.retryEnds r = ({ u with svc := v } : State).offer r attempt := by
      show (match s.svc.pass.get r with | some p => _ | none => _) = _
      rw [hp]
      show (match p.phase with | .sending (some _) => _ | _ => _) = _
      rw [hd]
      rfl
    rw [delay h, ends]
    obtain ⟨room, full⟩ := ({ u with svc := v } : State).offer_attempt r (m := attempt) rfl
    exact ⟨fun h => congrArg _ (room h), fun h => congrArg _ (full h)⟩
  · rw [exec_relayedMessageSent h unique]
    simp only [State.sentReport, State.unDue_svc, hp, if_neg (Ne.symm ht)]
  · rw [exec_relayedMessageSent h unique]
    simp only [State.sentReport, State.unDue_svc, hp, if_pos ht.symm]
    rfl

end Sys2Proof.Machine
end

section
namespace Sys2Proof.Machine

/-! ## Operations opened by an arriving message (R151, R160, R161, R164) -/

theorem hubKind_eq_false {k : Byte} (h : ¬(0x40 ≤ k.toNat ∧ k.toNat ≤ 0x44)) : hubKind k = false := by
  rw [hubKind, ← Bool.decide_and]
  exact decide_eq_false h

theorem finOf_of_toNat {n : Nat} {b : Byte} {i : Fin n} (h : b.toNat = i.val) : finOf n b = some i := by
  rw [finOf, dif_pos (h ▸ i.isLt)]
  exact congrArg some (Fin.ext h)

theorem State.takeServiceMessage_cons {s : State} {l : MsgLink} {m : Message} {ms : List Message}
    (h : (s.framer (linkOf l)).handed = m :: ms) :
    s.takeServiceMessage l = (s.modFramer (linkOf l) fun f => { f with handed := ms }).serviceArrives l m := by
  have taken : s.dropHanded (linkOf l) = s.modFramer (linkOf l) fun f => { f with handed := ms } :=
    s.modFramer_congr _ (by rw [h]; rfl)
  simp only [State.takeServiceMessage, h, taken]

/-- A request or relayed message with FULL access goes on to its destination (R148, R149, R151). -/
theorem State.serviceArrives_full {s : State} {l : MsgLink} {m : Message}
    (kind : ¬(0x40 ≤ m.head.kind.toNat ∧ m.head.kind.toNat ≤ 0x44)) (status : m.head.status = 0xFF)
    (full : s.grantOf l = .full) : s.serviceArrives l m = s.admitMessage l m := by
  unfold State.serviceArrives
  rw [if_neg (by simp [hubKind_eq_false kind, status, statusNone]), full]

/-- The order of a message is opened as R151's table says, where a response place is free. -/
theorem State.admitMessage_room {s : State} (l : MsgLink) (m : Message) (room : s.svc.hasRoom = true) :
    (∀ r, s.arrivalCase m.head = .pass r → s.admitMessage l m = s.openPass r l m) ∧
      ∀ ports, s.arrivalCase m.head = .setRelay ports → s.admitMessage l m = s.startSetRelay l m ports := by
  unfold State.admitMessage
  rw [if_neg (by simp [room])]
  exact ⟨fun r h => by rw [h], fun ports h => by rw [h]⟩

theorem State.arrivalCase_pass {s : State} {h : Header} {r : RemoteId} (dest : h.dest = 1) (port : h.port.toNat = r.val)
    (kind : hubKind h.kind = false) (locked : s.locked (.remote r) = true) (idle : s.svc.pass.get r = none) :
    s.arrivalCase h = .pass r := by
  simp [State.arrivalCase, dest, finOf_of_toNat port, kind, locked, idle]

theorem State.arrivalCase_setRelay {s : State} {h : Header} (dest : h.dest = 2 ∨ h.dest = 3)
    (kind : hubKind h.kind = false) (idle : s.svc.setRelay = none) :
    s.arrivalCase h = .setRelay (s.lockedPorts fun r => decide (h.dest = 3) || h.mask.getLsbD r.val) := by
  rcases dest with e | e <;> simp [State.arrivalCase, e, kind, idle]

theorem linkOf_ne_remote (l : MsgLink) (r : RemoteId) : linkOf l ≠ .remote r := by cases l <;> nofun

/-- Taking a message from S or a donor link leaves every remote port's framer. -/
theorem State.framer_taken (s : State) (l : MsgLink) (r : RemoteId) (f : Framer → Framer) :
    (s.modFramer (linkOf l) f).framer (.remote r) = s.framer (.remote r) :=
  (s.framer_modFramer _ _ _).trans (if_neg (linkOf_ne_remote l r))

/-- The slot that opens, with its first attempt on offer (R160, R161). -/
theorem State.openPass_eq (s : State) (r : RemoteId) (l : MsgLink) (m : Message) : s.openPass r l m =
    ({ s with svc := { s.svc with
      pass := s.svc.pass.set r
        (some ⟨l, m.head.tag, m.head.kind, m.body, s.svc.relayTags.get r, s.settings.passRetries, .sending none⟩)
      relayTags := s.svc.relayTags.set r (s.svc.relayTags.get r + 1)
      reserved := s.svc.reserved ++ [.pass r]
      portCounts := s.svc.portCounts.modify r fun c => { c with opened := satInc c.opened } } } : State).offer r
        ⟨false, s.svc.relayTags.get r, m.head.kind, m.body⟩ := by
  rw [← Tab.modify_eq_set _ _ (· + 1)]
  rfl

/-- Settles O27: the message passes every check, and the slot it opens offers its first attempt. -/
theorem passThroughOpens : Obligations.PassThroughOpens := by
  unfold Obligations.PassThroughOpens
  intro s l m ms r hm kind status grant room dest port locked idle tag attempt q u v
  have framer : u.framer (.remote r) = s.framer (.remote r) := s.framer_taken l r _
  have svc : u.svc = s.svc := s.modFramer_svc _ _
  have settings : u.settings = s.settings := s.modFramer_settings _ _
  have full : u.grantOf l = .full := by rw [← grant]; cases l <;> rfl
  have opens : exec (.serviceMessageArrival l) s = .next (({ u with svc := v } : State).offer r attempt) := by
    show Host.Outcome.next (s.takeServiceMessage l) = _
    have case' : u.arrivalCase m.head = .pass r := State.arrivalCase_pass dest port (hubKind_eq_false kind)
      (by rw [← locked]; exact congrArg (fun f => decide (f.rx = .locked)) framer) (by rw [svc]; exact idle)
    rw [State.takeServiceMessage_cons hm, State.serviceArrives_full kind status full,
      (State.admitMessage_room l m (by rw [svc]; exact s.svc.hasRoom_iff.mpr room)).1 r case']
    have taken : u.svc.relayTags.get r = tag := congrArg (·.relayTags.get r) svc
    rw [State.openPass_eq, taken, congrArg Settings.passRetries settings]
    rfl
  rw [opens]
  obtain ⟨accepted, kept⟩ := ({ u with svc := v } : State).offer_attempt r (m := attempt) rfl
  have queue : (u.framer (.remote r)).relayQueue = q := congrArg Framer.relayQueue framer
  rw [← queue]
  exact ⟨fun h => congrArg _ (accepted h), fun h => congrArg _ (kept h)⟩

end Sys2Proof.Machine
end

section
namespace Sys2Proof.Machine

/-! ## The copies of a set relay (R160, R164) -/

/-- The arbiter of port r has no place for an offer (R17). -/
def State.portFull (s : State) (r : RemoteId) : Bool := decide (4 ≤ (s.framer (.remote r)).relayQueue.length)

/-- The copy that port r is offered, with the relay tag that is next there (R160). -/
def State.copyFor (s : State) (kind : Byte) (body : List Byte) (r : RemoteId) : Relayed :=
  ⟨true, s.svc.relayTags.get r, kind, body⟩

/-- Port r takes a relay tag and is offered its copy (R164). -/
def State.offerCopy (kind : Byte) (body : List Byte) (s : State) (r : RemoteId) : State :=
  (s.takeTag r).2.offer r (s.copyFor kind body r)

/-- These ports have each taken a relay tag and been offered a copy, which the arbiter has accepted, or refused
where it is full. -/
structure CopiesOffered (kind : Byte) (body : List Byte) (ports : List RemoteId) (s t : State) : Prop where
  frame : t = { s with links := t.links, svc := t.svc }
  svc : t.svc = { s.svc with
    setRelay := t.svc.setRelay, relayTags := t.svc.relayTags, refused := t.svc.refused
    filled := t.svc.filled, reserved := t.svc.reserved }
  framers : ∀ k, (∀ r ∈ ports, k ≠ .remote r) → t.framer k = s.framer k
  others : ∀ r, r ∉ ports → t.svc.relayTags.get r = s.svc.relayTags.get r ∧ t.svc.refused.get r = s.svc.refused.get r
  tags : ∀ r ∈ ports, t.svc.relayTags.get r = s.svc.relayTags.get r + 1
  accepted : ∀ r ∈ ports, s.portFull r = false →
    t.framer (.remote r) = (s.framer (.remote r)).enqueue (s.copyFor kind body r) ∧
      t.svc.refused.get r = s.svc.refused.get r
  refused : ∀ r ∈ ports, s.portFull r = true → t.framer (.remote r) = s.framer (.remote r) ∧
    t.svc.refused.get r = s.svc.refused.get r ++ [s.copyFor kind body r]

section Offered

variable (kind : Byte) (body : List Byte) {s t u : State} {r : RemoteId}

/-- Port r has taken a relay tag (R160). -/
def Service.tagged (v : Service) (r : RemoteId) : Service := { v with relayTags := v.relayTags.modify r (· + 1) }

theorem State.offerCopy_accepted (h : s.portFull r = false) : State.offerCopy kind body s r =
    { s.modFramer (.remote r) (Framer.enqueue (s.copyFor kind body r)) with svc := (s.svc.tagged r).left r } :=
  (State.offer_room (s := (s.takeTag r).2) _ (Nat.lt_of_not_le (of_decide_eq_false h))).trans (State.acceptOffer_copy _ r rfl)

theorem State.offerCopy_refused (h : s.portFull r = true) : State.offerCopy kind body s r =
    { s with svc := { s.svc.tagged r with
      refused := s.svc.refused.set r (s.svc.refused.get r ++ [s.copyFor kind body r]) } } :=
  State.offer_full (s := (s.takeTag r).2) _ (of_decide_eq_true h)

theorem State.offerCopy_offered (s : State) (r : RemoteId) : CopiesOffered kind body [r] s (State.offerCopy kind body s r) := by
  have tag : (s.svc.tagged r).relayTags.get r = s.svc.relayTags.get r + 1 := Tab.get_modify_self ..
  have tags : ∀ x, x ≠ r → (s.svc.tagged r).relayTags.get x = s.svc.relayTags.get x := fun x hx =>
    Tab.get_modify_ne _ _ (Ne.symm hx)
  cases full : s.portFull r with
  | false =>
    rw [State.offerCopy_accepted kind body full]
    have left := (s.svc.tagged r).left_frame r
    have framer := fun k => s.framer_modFramer (.remote r) k (Framer.enqueue (s.copyFor kind body r))
    generalize (s.svc.tagged r).left r = v at *
    refine ⟨rfl, by rw [left]; rfl, fun k hk => ?_, fun x hx => ⟨?_, by rw [left]; rfl⟩, fun x hx => ?_, fun x hx _ => ⟨?_, ?_⟩,
      fun x hx h => ?_⟩
    · exact (framer k).trans (if_neg (Ne.symm (hk r (List.mem_singleton_self r))))
    · rw [left]; exact tags x (by simpa using hx)
    · obtain rfl := List.mem_singleton.mp hx; rw [left]; exact tag
    · obtain rfl := List.mem_singleton.mp hx; exact (framer _).trans (if_pos rfl)
    · obtain rfl := List.mem_singleton.mp hx; rw [left]; rfl
    · obtain rfl := List.mem_singleton.mp hx; rw [full] at h; cases h
  | true =>
    rw [State.offerCopy_refused kind body full]
    refine ⟨rfl, rfl, fun k _ => rfl, fun x hx => ⟨tags x (by simpa using hx), ?_⟩, fun x hx => ?_, fun x hx h => ?_,
      fun x hx _ => ⟨rfl, ?_⟩⟩
    · exact Tab.get_set_ne _ _ (Ne.symm (by simpa using hx))
    · obtain rfl := List.mem_singleton.mp hx; exact tag
    · obtain rfl := List.mem_singleton.mp hx; rw [full] at h; cases h
    · obtain rfl := List.mem_singleton.mp hx; exact Tab.get_set_self ..

variable {kind body}

theorem CopiesOffered.nil (s : State) : CopiesOffered kind body [] s s :=
  ⟨rfl, rfl, fun _ _ => rfl, fun _ _ => ⟨rfl, rfl⟩, nofun, nofun, nofun⟩

/-- Offers to different ports do not meet. -/
theorem CopiesOffered.cons {rs : List RemoteId} (new : r ∉ rs) (h : CopiesOffered kind body [r] s t)
    (k : CopiesOffered kind body rs t u) : CopiesOffered kind body (r :: rs) s u := by
  have apart : ∀ x ∈ rs, x ≠ r := fun x hx e => new (e ▸ hx)
  have own : u.framer (.remote r) = t.framer (.remote r) := k.framers _ fun x hx e => apart x hx (by cases e; rfl)
  have port : ∀ x ∈ rs, t.framer (.remote x) = s.framer (.remote x) := fun x hx =>
    h.framers _ fun y hy e => apart x hx (by cases e; exact List.mem_singleton.mp hy)
  have fullness : ∀ x ∈ rs, t.portFull x = s.portFull x := fun x hx => by rw [State.portFull, port x hx]; rfl
  have before : ∀ x ∈ rs, t.svc.relayTags.get x = s.svc.relayTags.get x ∧ t.svc.refused.get x = s.svc.refused.get x :=
    fun x hx => h.others x (by simpa using apart x hx)
  have copy : ∀ x ∈ rs, t.copyFor kind body x = s.copyFor kind body x := fun x hx => by
    rw [State.copyFor, (before x hx).1]; rfl
  obtain ⟨tagAfter, refusedAfter⟩ := k.others r new
  refine ⟨?_, ?_, fun l hl => ?_, fun x hx => ?_, fun x hx => ?_, fun x hx full => ?_, fun x hx full => ?_⟩
  · rw [k.frame, h.frame]
  · rw [k.svc, h.svc]
  · obtain ⟨ne, rest⟩ := List.forall_mem_cons.mp hl
    exact (k.framers l rest).trans (h.framers l (by simpa using ne))
  · obtain ⟨ne, rest⟩ := not_or.mp (mt List.mem_cons.mpr hx)
    obtain ⟨tag, ref⟩ := k.others x rest
    obtain ⟨tag', ref'⟩ := h.others x (by simpa using ne)
    exact ⟨tag.trans tag', ref.trans ref'⟩
  · rcases List.mem_cons.mp hx with rfl | hx
    · rw [tagAfter, h.tags x (List.mem_singleton_self x)]
    · rw [k.tags x hx, (before x hx).1]
  · rcases List.mem_cons.mp hx with rfl | hx
    · rw [own, refusedAfter]
      exact h.accepted x (List.mem_singleton_self x) full
    · rw [← copy x hx, ← port x hx, ← (before x hx).2]
      exact k.accepted x hx ((fullness x hx).trans full)
  · rcases List.mem_cons.mp hx with rfl | hx
    · rw [own, refusedAfter]
      exact h.refused x (List.mem_singleton_self x) full
    · rw [← copy x hx, ← port x hx, ← (before x hx).2]
      exact k.refused x hx ((fullness x hx).trans full)

end Offered

/-- The copies offered one after another (R164). -/
theorem State.offerCopies_offered (kind : Byte) (body : List Byte) {ports : List RemoteId} (h : ports.Nodup) (s : State) :
    CopiesOffered kind body ports s (ports.foldl (State.offerCopy kind body) s) := by
  induction ports generalizing s with
  | nil => exact .nil s
  | cons r rs ih =>
    obtain ⟨new, rest⟩ := List.nodup_cons.mp h
    exact .cons new (s.offerCopy_offered kind body r) (ih rest _)

/-- The set relay w stands with these ports remaining, or has ended with DONE when none is left (R164). -/
structure Service.RelayStands (v : Service) (w : SetRelay) (left : List RemoteId) (u : Service) : Prop where
  ended : left = [] → u.setRelay = none ∧ u.filled = v.filled ++ (if .setRelay ∈ v.reserved then [w.done] else []) ∧
    u.reserved = v.reserved.erase .setRelay
  stands : left ≠ [] → u.setRelay = some { w with remaining := left } ∧ u.filled = v.filled ∧ u.reserved = v.reserved

theorem State.endSetRelay_stands {s : State} {w : SetRelay} {left : List RemoteId}
    (h : s.svc.setRelay = some { w with remaining := left }) : s.svc.RelayStands w left s.endSetRelay.svc := by
  refine ⟨fun e => ?_, fun e => ?_⟩
  · rw [State.endSetRelay_done h e]; exact ⟨rfl, rfl, rfl⟩
  · rw [State.endSetRelay_waiting h e]; exact ⟨h, rfl, rfl⟩

theorem Service.RelayStands.of_eq {v v' u : Service} {w : SetRelay} {left : List RemoteId} (f : v'.filled = v.filled)
    (r : v'.reserved = v.reserved) (h : v'.RelayStands w left u) : v.RelayStands w left u := by
  obtain ⟨ended, stands⟩ := h
  rw [f, r] at ended stands
  exact ⟨ended, stands⟩

/-- The set relay once copies have been offered to the ports that `rest` names: those whose arbiter is full
remain, after those of `kept`, which were offered theirs before (R164). -/
theorem State.offerCopies_stands (kind : Byte) (body : List Byte) (w : SetRelay) (rest kept : List RemoteId) (s : State)
    (h : s.svc.setRelay = some { w with remaining := kept ++ rest }) (nodup : (kept ++ rest).Nodup) :
    s.svc.RelayStands w (kept ++ rest.filter s.portFull) (rest.foldl (State.offerCopy kind body) s).endSetRelay.svc := by
  induction rest generalizing kept s with
  | nil => exact State.endSetRelay_stands h
  | cons r rs ih =>
    have new : r ∉ rs := (List.nodup_cons.mp nodup.of_append_right).1
    have other : r ∉ kept := fun k => List.disjoint_of_nodup_append nodup k List.mem_cons_self
    have ports : rs.filter (State.offerCopy kind body s r).portFull = rs.filter s.portFull :=
      List.filter_congr fun x hx => by
        have port := (s.offerCopy_offered kind body r).framers (.remote x) fun y hy e =>
          new (by cases e; exact List.mem_singleton.mp hy ▸ hx)
        rw [State.portFull, port]; rfl
    rw [List.foldl_cons]
    cases full : s.portFull r with
    | true =>
      have offered := State.offerCopy_refused kind body full
      rw [List.filter_cons_of_pos full, ← ports]
      rw [List.append_cons] at h nodup ⊢
      generalize State.offerCopy kind body s r = t at *
      have next := ih (kept ++ [r]) t ((congrArg (·.svc.setRelay) offered :).trans h) nodup
      exact next.of_eq (congrArg (·.svc.filled) offered :) (congrArg (·.svc.reserved) offered :)
    | false =>
      have offered := State.offerCopy_accepted kind body full
      have erased : (kept ++ r :: rs).erase r = kept ++ rs := by
        rw [List.erase_append_right _ other, List.erase_cons_head]
      rw [List.filter_cons_of_neg (by simp [full]), ← ports]
      generalize State.offerCopy kind body s r = t at *
      have relay : (s.svc.tagged r).setRelay = _ := h
      by_cases last : kept ++ rs = []
      · rw [Service.left_last relay (erased.trans last)] at offered
        obtain ⟨rfl, rfl⟩ := List.append_eq_nil_iff.mp last
        have none : t.svc.setRelay = none := (congrArg (·.svc.setRelay) offered :)
        rw [List.foldl_nil, State.endSetRelay_none none, (congrArg State.svc offered :)]
        exact ⟨fun _ => ⟨rfl, rfl, rfl⟩, fun e => absurd rfl e⟩
      · rw [Service.left_more relay (by rw [erased]; exact last)] at offered
        have remains : t.svc.setRelay = some { w with remaining := kept ++ rs } := by
          rw [(congrArg (·.svc.setRelay) offered :)]
          simp only [erased]
        have next := ih kept t remains (nodup.sublist (List.Sublist.append_left (List.sublist_cons_self r rs) kept))
        exact next.of_eq (congrArg (·.svc.filled) offered :) (congrArg (·.svc.reserved) offered :)

/-- The links and the parts of the Relay that the end of a set relay leaves (R164). -/
theorem State.endSetRelay_frame (s : State) : s.endSetRelay = { s with svc := { s.svc with
    setRelay := s.endSetRelay.svc.setRelay, filled := s.endSetRelay.svc.filled, reserved := s.endSetRelay.svc.reserved } } := by
  cases h : s.svc.setRelay with
  | none => rw [State.endSetRelay_none h]
  | some w =>
    by_cases done : w.remaining = []
    · rw [State.endSetRelay_done h done]; rfl
    · rw [State.endSetRelay_waiting h done]

theorem linkOf_injective {l k : MsgLink} (h : linkOf l = linkOf k) : l = k := by
  cases l <;> cases k <;> cases h <;> rfl

theorem CopiesOffered.endSetRelay {kind : Byte} {body : List Byte} {ports : List RemoteId} {s t : State}
    (h : CopiesOffered kind body ports s t) : CopiesOffered kind body ports s t.endSetRelay := by
  have frame := t.endSetRelay_frame
  have links : t.endSetRelay.links = t.links := (congrArg State.links frame :)
  have svc := (congrArg State.svc frame :)
  generalize t.endSetRelay = u at *
  have framer : ∀ k, u.framer k = t.framer k := State.framer_congr links
  have tags : u.svc.relayTags = t.svc.relayTags := (congrArg Service.relayTags svc :)
  have refused : u.svc.refused = t.svc.refused := (congrArg Service.refused svc :)
  refine ⟨by rw [frame, h.frame], by rw [svc, h.svc], fun k hk => (framer k).trans (h.framers k hk), ?_, ?_, ?_, ?_⟩
  · rw [tags, refused]; exact h.others
  · rw [tags]; exact h.tags
  · simp only [refused, framer]; exact h.accepted
  · simp only [refused, framer]; exact h.refused

/-- Settles O28: the message passes every check, each named LOCKED port is offered its copy, and the relay stands with
the ports that refused it. -/
theorem setRelayOffersItsCopies : Obligations.SetRelayOffersItsCopies := by
  unfold Obligations.SetRelayOffersItsCopies
  intro s l m ms hm kind status grant room dest idle
  set u := s.modFramer (linkOf l) fun f => { f with handed := ms } with hu
  have port : ∀ r, u.framer (.remote r) = s.framer (.remote r) := fun r => s.framer_taken l r _
  have svc : u.svc = s.svc := s.modFramer_svc _ _
  set ports := u.lockedPorts (fun r => decide (m.head.dest = 3) || m.head.mask.getLsbD r.val) with hports
  set w : SetRelay := ⟨l, m.head.tag, m.head.kind, m.body, ports⟩ with hw
  set v : State := { u with svc := { s.svc with setRelay := some w, reserved := s.svc.reserved ++ [.setRelay] } } with hv
  set t := (ports.foldl (State.offerCopy m.head.kind m.body) v).endSetRelay with ht
  have starts : exec (.serviceMessageArrival l) s = .next t := by
    show Host.Outcome.next (s.takeServiceMessage l) = _
    rw [State.takeServiceMessage_cons hm, State.serviceArrives_full kind status (by rw [← grant]; cases l <;> rfl),
      (State.admitMessage_room l m (by rw [svc]; exact s.svc.hasRoom_iff.mpr room)).2 ports
        (State.arrivalCase_setRelay dest (hubKind_eq_false kind) (by rw [svc]; exact idle))]
    unfold State.startSetRelay
    rw [svc]
    rfl
  have nodup : ports.Nodup := (List.nodup_finRange 16).filter _
  have offered := (State.offerCopies_offered m.head.kind m.body nodup v).endSetRelay
  have stands := State.offerCopies_stands m.head.kind m.body w ports [] v rfl nodup
  rw [← ht] at offered stands
  refine ⟨t, starts, ?_⟩
  intro named full copy left
  have lock : ∀ r, u.locked (.remote r) = s.locked (.remote r) := fun r =>
    congrArg (fun f : Framer => decide (f.rx = .locked)) (port r)
  have mem : ∀ r, r ∈ ports ↔ named r = true := fun r => by
    simp only [hports, State.lockedPorts, List.mem_filter, List.mem_finRange, true_and, lock, named]
  have not_mem : ∀ r, named r = false → r ∉ ports := fun r h k => by rw [(mem r).mp k] at h; cases h
  have fullness : ∀ r, v.portFull r = full r := fun r => congrArg (fun f : Framer => decide (4 ≤ f.relayQueue.length)) (port r)
  have remaining : ports.filter v.portFull = left := by
    simp only [hports, State.lockedPorts, List.filter_filter, lock, fullness, left, named, Bool.and_comm]
  rw [List.nil_append, remaining] at stands
  refine ⟨?_, fun r h => offered.tags r ((mem r).mpr h), fun r h k => ?_, fun r h k => ?_, fun r h => ?_, ?_,
    fun l' hl => ?_, fun h => ?_, stands.stands, offered.svc⟩
  · rw [offered.frame, hv, hu]
    cases l <;> rfl
  · rw [← port r]
    exact offered.accepted r ((mem r).mpr h) ((fullness r).trans k)
  · rw [← port r]
    exact offered.refused r ((mem r).mpr h) ((fullness r).trans k)
  · obtain ⟨tags, refused⟩ := offered.others r (not_mem r h)
    refine ⟨tags, ?_, refused⟩
    rw [← port r]
    exact offered.framers _ fun x hx e => not_mem r h (by cases e; exact hx)
  · exact (offered.framers _ fun r _ => linkOf_ne_remote l r).trans (s.framer_modFramer_self _ _)
  · exact (offered.framers _ fun r _ => linkOf_ne_remote l' r).trans
      ((s.framer_modFramer _ _ _).trans (if_neg fun e => hl (linkOf_injective e).symm))
  · obtain ⟨none, filled, reserved⟩ := stands.ended h
    have place : Reservation.setRelay ∈ v.svc.reserved := List.mem_append_right _ (List.mem_singleton_self _)
    rw [if_pos place] at filled
    refine ⟨none, filled, ?_⟩
    rw [reserved, List.length_erase_of_mem place, hv, List.length_append]
    rfl

end Sys2Proof.Machine
end

section
namespace Sys2Proof.Machine

/-! ## Senders (R13, R16, R17, R145) -/

/-- An entry of an enumeration has the code that its place gives. -/
theorem code_of_getElem? {α : Type} {code : α → Nat} {xs : List α} {start n : Nat} {a : α}
    (codes : xs.map code = List.range' start xs.length) (h : xs[n]? = some a) : code a = start + n := by
  have here : (xs.map code)[n]? = some (code a) := by rw [List.getElem?_map, h]; rfl
  have bound : n < xs.length := (List.getElem?_eq_some_iff.mp h).1
  rw [codes, List.getElem?_range' bound] at here
  simpa using here.symm

/-- A message boundary stands open where it is due, nothing is in emission and the link is LOCKED (R16). -/
theorem State.senderFree_iff (s : State) (l : Link) : s.senderFree l = true ↔
    .sender l ∈ s.boundary.due ∧ (s.framer l).emission = none ∧ (s.framer l).rx = .locked := by
  simp only [State.senderFree, State.locked, Bool.and_eq_true, List.contains_iff_mem, Option.isNone_iff_eq_none,
    decide_eq_true_eq, and_assoc]

section Starts

variable {s : State}

theorem State.startResponse_nothing {l : MsgLink}
    (h : s.senderFree (linkOf l) = false ∨ ∀ p ∈ s.svc.filled, p.link ≠ l) : s.startResponse l = s := by
  unfold State.startResponse
  rcases h with h | h
  · rw [h]; rfl
  · rw [List.find?_eq_none.mpr fun p hp => by simpa using h p hp]
    split <;> rfl

/-- The oldest response for the link leaves the queue and starts (R16). -/
theorem State.startResponse_oldest {l : MsgLink} {before after : List Response} {p : Response}
    (free : s.senderFree (linkOf l) = true) (h : s.svc.filled = before ++ p :: after) (hb : ∀ q ∈ before, q.link ≠ l)
    (hp : p.link = l) : s.startResponse l =
      { s.modFramer (linkOf l) fun f => { f with emission := some ⟨.response p.restart, responseSlots p⟩ } with
        svc := { s.svc with filled := before ++ after } }.unDue (.sender (linkOf l)) := by
  have skip : ∀ q ∈ before, ¬decide (q.link = l) = true := fun q hq => by simpa using hb q hq
  have here : decide (p.link = l) = true := decide_eq_true hp
  have found : s.svc.filled.find? (fun q => decide (q.link = l)) = some p := by
    rw [h, List.find?_append, List.find?_eq_none.mpr skip, Option.none_or,
      List.find?_cons_of_pos (p := fun q : Response => decide (q.link = l)) here]
  have left : s.svc.filled.eraseP (fun q => decide (q.link = l)) = before ++ after := by
    rw [h, List.eraseP_append_right _ skip,
      List.eraseP_cons_of_pos (p := fun q : Response => decide (q.link = l)) here]
  unfold State.startResponse
  rw [if_pos free, found]
  simp only [left]
  cases l <;> rfl

end Starts

/-- Settles O32: a free sender finds the oldest response for its link, or none. -/
theorem senderTakesTheOldestResponse : Obligations.SenderTakesTheOldestResponse := by
  unfold Obligations.SenderTakesTheOldestResponse
  refine ⟨fun n st h => ?_, fun s l => ⟨fun h => congrArg _ (State.startResponse_nothing ?_),
    fun before after p free hs hb hp => ?_⟩⟩
  · exact (code_of_getElem? (code := fun st : Status => st.code.toNat) (start := 0) rfl h).trans (Nat.zero_add n)
  · exact h.imp_left fun busy => Bool.eq_false_iff.mpr (mt (s.senderFree_iff _).mp busy)
  · show Host.Outcome.next (s.startResponse l) = _
    rw [State.startResponse_oldest ((s.senderFree_iff _).mpr free) hs hb hp]
    rfl

/-! ## Notices (R139, R143, R145) -/

theorem EventKind.urgent_iff_code (k : EventKind) : k.urgent = decide (k.code ≤ 12) := rfl

/-- The members that leave and those that stay are the list again. -/
theorem dropMatching_perm (p : Event → Bool) (n : Nat) (es : List Event) :
    ((es.filter p).take n ++ dropMatching p n es).Perm es := by
  induction es generalizing n with
  | nil => cases n <;> exact .nil
  | cons e es ih =>
    cases n with
    | zero => exact .refl _
    | succ n =>
      unfold dropMatching
      by_cases h : p e = true
      · rw [List.filter_cons_of_pos h, if_pos h]
        exact (ih n).cons e
      · rw [List.filter_cons_of_neg h, if_neg h]
        exact List.perm_middle.trans ((ih (n + 1)).cons e)

/-- What does not match stays. -/
theorem dropMatching_filter {p q : Event → Bool} (h : ∀ e, p e = true → q e = false) (n : Nat) (es : List Event) :
    (dropMatching p n es).filter q = es.filter q := by
  induction es generalizing n with
  | nil => cases n <;> rfl
  | cons e es ih =>
    cases n with
    | zero => rfl
    | succ n =>
      unfold dropMatching
      by_cases hp : p e = true
      · rw [if_pos hp, ih, List.filter_cons_of_neg (by simp [h e hp])]
      · rw [if_neg hp, List.filter_cons, List.filter_cons, ih]

/-- The head of the delivery order and the queue without it are the records again (R143). -/
theorem EventQueue.take_perm (q : EventQueue) (n : Nat) : ((q.take n).1 ++ (q.take n).2.records).Perm q.records := by
  set urgents := q.records.filter fun e => e.kind.urgent with hu
  set left := dropMatching (fun e => e.kind.urgent) n q.records with hl
  have routine : left.filter (fun e => !e.kind.urgent) = q.records.filter fun e => !e.kind.urgent :=
    dropMatching_filter (fun e h => by simp [h]) n q.records
  have second := dropMatching_perm (fun e => !e.kind.urgent) (n - urgents.length) left
  have first : (urgents.take n ++ left).Perm q.records := dropMatching_perm _ n q.records
  show (((urgents ++ q.records.filter fun e => !e.kind.urgent).take n) ++ _).Perm _
  rw [List.take_append, List.append_assoc]
  rw [routine] at second
  exact (second.append_left _).trans first

theorem EventQueue.take_sublist (q : EventQueue) (n : Nat) : (q.take n).2.records.Sublist q.records :=
  (dropMatching_sublist _ _ _).trans (dropMatching_sublist _ _ _)

/-- The 16 bytes of an event record whose kind has this place in the table of R139 (12.2). -/
theorem encEvent_of_code {e : Event} {n : Nat} (h : e.kind.code = 1 + n) :
    encEvent e = [BitVec.ofNat 8 (n + 1), if n < 12 then 0 else 1] ++
      (match e.subject with
        | .hub => [0, 0]
        | .donor v => [1, BitVec.ofNat 8 v.val]
        | .remote v => [2, BitVec.ofNat 8 v.val]
        | .carrier v => [3, BitVec.ofNat 8 v.val]
        | .sector v => [4, BitVec.ofNat 8 v.val]
        | .plan v => [5, BitVec.ofNat 8 v.val]) ++
      [match e.tag with | some v => BitVec.ofNat 8 v.val | none => 0xFF] ++ [BitVec.ofNat 8 e.repeats] ++
      bytes16 e.detail ++ bytes32 e.firstFc ++ match e.lastFc with | some v => bytes32 v | none => [0, 0, 0, 0] := by
  have kind : enc8 e.kind.code = [BitVec.ofNat 8 (n + 1)] := by rw [h, Nat.add_comm]; rfl
  have priority : encYes (!e.kind.urgent) = [if n < 12 then 0 else 1] := by
    rw [EventKind.urgent_iff_code, h]
    by_cases k : n < 12
    · rw [decide_eq_true (by omega), if_pos k]; rfl
    · rw [decide_eq_false (by omega), if_neg k]; rfl
  unfold encEvent
  rw [kind, priority]
  cases e.subject <;> cases e.tag <;> rfl

end Sys2Proof.Machine
end

section
namespace Sys2Proof.Machine

/-! ## The notice and the relayed messages that start (R16, R17, R145) -/

theorem State.hasResponse_eq_false (s : State) (l : MsgLink) :
    s.hasResponse l = false ↔ ∀ p ∈ s.svc.filled, p.link ≠ l := by
  simp [State.hasResponse]

/-- The offered notice is taken where S is free and no response waits for it (R145). -/
theorem State.noticeFree_iff (s : State) :
    (s.senderFree .service && !s.hasResponse .service && s.events.offer) = true ↔
      .sender .service ∈ s.boundary.due ∧ s.links.service.emission = none ∧ s.links.service.rx = .locked ∧
        (∀ p ∈ s.svc.filled, p.link ≠ .service) ∧ s.events.offer = true := by
  simp only [Bool.and_eq_true, Bool.not_eq_true', State.senderFree_iff, State.hasResponse_eq_false, and_assoc]
  rfl

/-- Settles O33: the records are coded by the table, and the notice takes the head of the delivery order. -/
theorem noticeTakesTheHeadOfTheQueue : Obligations.NoticeTakesTheHeadOfTheQueue := by
  unfold Obligations.NoticeTakesTheHeadOfTheQueue
  refine ⟨fun n e h => ?_, fun s => ⟨fun busy => congrArg Host.Outcome.next (if_neg (mt s.noticeFree_iff.mp busy)),
    fun free => ⟨_, congrArg Host.Outcome.next (if_pos (s.noticeFree_iff.mpr free)), rfl, s.events.take_perm 4,
      s.events.take_sublist 4⟩⟩⟩
  have code : e.kind.code = 1 + n := code_of_getElem? rfl h
  refine ⟨?_, encEvent_of_code code⟩
  rw [EventKind.urgent_iff_code, code]
  exact decide_eq_decide.mpr (by omega)

theorem Tab.modify_modify {n : Nat} {α : Type} (t : Tab n α) (i : Fin n) (f g : α → α) :
    (t.modify i f).modify i g = t.modify i fun x => g (f x) := by
  refine Tab.ext_get fun j => ?_
  simp only [Tab.get_modify]
  split <;> rfl

/-- Two changes of one framer are one. -/
theorem State.modFramer_modFramer (s : State) (l : Link) (f g : Framer → Framer) :
    (s.modFramer l f).modFramer l g = s.modFramer l fun x => g (f x) := by
  cases l with
  | donor n => simp only [State.modFramer, Tab.modify_modify]
  | remote r => simp only [State.modFramer, Tab.modify_modify]
  | service => rfl

section Starts

variable {s : State} {r : RemoteId}

theorem State.startRemote_nothing (h : s.senderFree (.remote r) = false ∨
    ((s.framer (.remote r)).pollPlace = false ∧ (s.framer (.remote r)).relayQueue = [])) : s.startRemote r = s := by
  unfold State.startRemote
  rcases h with h | ⟨poll, queue⟩
  · rw [h]; rfl
  · simp only [poll, queue]
    exact ite_self s

/-- A waiting POLL starts first (R17). -/
theorem State.startRemote_poll (free : s.senderFree (.remote r) = true) (poll : (s.framer (.remote r)).pollPlace = true) :
    s.startRemote r = (s.modFramer (.remote r) fun f => { f with
      pollPlace := false, emission := some ⟨.poll, pollSlots r⟩ }).unDue (.sender (.remote r)) := by
  unfold State.startRemote
  rw [if_pos free]
  simp only [poll, if_true, State.startEmission, State.modFramer_modFramer]

/-- The oldest relayed message starts, and the arbiter tells of its place (R17). -/
theorem State.startRemote_relayed (free : s.senderFree (.remote r) = true)
    (poll : (s.framer (.remote r)).pollPlace = false) {m : Relayed} {ms : List Relayed}
    (queue : (s.framer (.remote r)).relayQueue = m :: ms) :
    s.startRemote r = ((s.modFramer (.remote r) fun f => { f with
      relayQueue := ms, emission := some ⟨.relayed m.tag, relayedSlots r m⟩ }).unDue (.sender (.remote r))).reoffer r := by
  unfold State.startRemote
  rw [if_pos free]
  simp only [poll, queue, State.startEmission, State.modFramer_modFramer]
  rfl

theorem State.reoffer_nil (h : s.svc.refused.get r = []) : s.reoffer r = s := by
  simp only [State.reoffer, h]

/-- The offer refused earliest is made again, and accepted where there is a place (R17). -/
theorem State.reoffer_cons {m : Relayed} {ms : List Relayed} (h : s.svc.refused.get r = m :: ms)
    (room : (s.framer (.remote r)).relayQueue.length < 4) : s.reoffer r = (s.setRefused r ms).acceptOffer r m := by
  simp only [State.reoffer, h, if_pos room]

end Starts

/-- An accepted offer, whole: its place in the relay queue, and for a copy the port's leave of the set relay (R17, R164). -/
theorem State.acceptOffer_eq (s : State) (r : RemoteId) (m : Relayed) : s.acceptOffer r m =
    { s.modFramer (.remote r) (Framer.enqueue m) with svc := if m.copy then s.svc.left r else s.svc } := by
  cases copy : m.copy with
  | false => exact s.acceptOffer_attempt r copy
  | true => exact s.acceptOffer_copy r copy

/-- Settles O34: POLL, relayed message or nothing, and an offer accepted again as `State.acceptOffer_eq` says. -/
theorem arbiterStartsThePollFirst : Obligations.ArbiterStartsThePollFirst := by
  unfold Obligations.ArbiterStartsThePollFirst
  intro s r f free header
  have open' : free → s.senderFree (.remote r) = true := (s.senderFree_iff _).mpr
  refine ⟨fun h => congrArg Host.Outcome.next (State.startRemote_nothing ?_), fun hf poll => ?_,
    fun m ms hf poll queue => ?_⟩
  · exact h.imp_left fun busy => Bool.eq_false_iff.mpr (mt (s.senderFree_iff _).mp busy)
  · exact congrArg Host.Outcome.next (State.startRemote_poll (open' hf) poll)
  intro e
  set w := (s.modFramer (.remote r) fun f => { f with relayQueue := ms, emission := some e }).unDue
    (.sender (.remote r)) with hw
  have starts : s.startRemote r = w.reoffer r := State.startRemote_relayed (open' hf) poll queue
  have framer : ∀ k, w.framer k = if .remote r = k then { s.framer k with relayQueue := ms, emission := some e } else s.framer k :=
    fun k => s.framer_modFramer _ _ _
  refine ⟨fun none => congrArg Host.Outcome.next (starts.trans (State.reoffer_nil none)), fun x xs refused room => ?_⟩
  have own : w.framer (.remote r) = { f with relayQueue := ms, emission := some e } := (framer _).trans (if_pos rfl)
  have accepted := starts.trans ((State.reoffer_cons (s := w) refused (by rw [own]; exact room)).trans (State.acceptOffer_eq _ r x))
  set v : Service := { s.svc with refused := s.svc.refused.set r xs } with hv
  have relay : (w.setRefused r xs).svc = v := rfl
  rw [relay] at accepted
  have left := v.left_frame r
  refine ⟨_, congrArg Host.Outcome.next accepted, ?_⟩
  have framers : ∀ k, ((w.setRefused r xs).modFramer (.remote r) (Framer.enqueue x)).framer k =
      if .remote r = k then (w.framer k).enqueue x else w.framer k := fun k => State.framer_modFramer _ _ _ _
  have after : ∀ c : Bool, (if c then v.left r else v) = { v with
      setRelay := (if c then v.left r else v).setRelay, filled := (if c then v.left r else v).filled
      reserved := (if c then v.left r else v).reserved } := fun c => by
    cases c with
    | false => rfl
    | true => exact left
  have svc := after x.copy
  refine ⟨((framers _).trans (if_pos rfl)).trans (congrArg (Framer.enqueue x) own), ?_, fun y hy => ?_, rfl, fun k hk => ?_,
    (congrArg Service.pass svc :), (congrArg Service.input svc :), fun attempt => ?_, fun copy u hu => ?_⟩
  · exact (congrArg (·.refused.get r) svc :).trans (Tab.get_set_self ..)
  · exact (congrArg (·.refused.get y) svc :).trans (Tab.get_set_ne _ _ (Ne.symm hy))
  · exact ((framers k).trans (if_neg (Ne.symm hk))).trans ((framer k).trans (if_neg (Ne.symm hk)))
  · simp only [attempt, Bool.false_eq_true, if_false]
    exact ⟨rfl, rfl⟩
  · simp only [copy, if_true]
    refine ⟨fun more => ?_, fun last => ?_⟩
    · rw [Service.left_more (v := v) hu more]
      exact ⟨rfl, rfl⟩
    · rw [Service.left_last (v := v) hu last]
      exact ⟨rfl, fun place => ⟨congrArg (v.filled ++ ·) (if_pos place), rfl⟩⟩

end Sys2Proof.Machine
end

section
namespace Sys2Proof.Machine

/-! ## Events, counters and tap (R143, R146, R158, R159) -/

section Requests

variable {s : State} {q : Request} {kind : Byte} {f : State → Request → Verdict}

/-- A request being taken whose body decodes goes to its owning rule (R152, R153). -/
theorem State.takeRequest_takes (h : s.takes q kind) :
    s.takeRequest kind f = s.dropRequest.conclude q (f s.dropRequest q) := by
  obtain ⟨next, hkind, decodes⟩ := h
  simp only [State.takeRequest, next, if_pos hkind, State.judge, decodes]

/-- A refusal by the owning rule. -/
theorem State.takeRequest_refused (h : s.takes q kind) {st : Status} (e : f s.dropRequest q = .error st) :
    s.takeRequest kind f = s.turnedAway q st := by
  rw [State.takeRequest_takes h, e]
  rfl

/-- A request carried out by the owning rule. -/
theorem State.takeRequest_done (h : s.takes q kind) {t : State} {body : List Byte} (e : f s.dropRequest q = .ok (t, body)) :
    s.takeRequest kind f = t.fill (q.answer .done body) := by
  rw [State.takeRequest_takes h, e]
  rfl

end Requests

theorem finOf_eq_none {n : Nat} {b : Byte} (h : n ≤ b.toNat) : finOf n b = none := dif_neg (Nat.not_lt.mpr h)

section Tap

variable (s : State) (b : List Byte)

theorem State.askTap_none (h : byteAt b 0 = 0) : s.askTap b = ok (s.setTap .none) := if_pos h

theorem State.askTap_combined (h : byteAt b 0 = 1) :
    s.askTap b = need .badIndex (finOf 12 (byteAt b 2)) fun c => ok (s.setTap (.combined c)) := by
  simp [State.askTap, h]

theorem State.askTap_port (h0 : byteAt b 0 ≠ 0) (h1 : byteAt b 0 ≠ 1) :
    s.askTap b = need .badIndex (finOf 16 (byteAt b 1)) fun r => need .badIndex (finOf 12 (byteAt b 2)) fun c =>
      ok (s.setTap (if byteAt b 0 = 2 then .raw r c else .downlink r c)) := by
  simp only [State.askTap, if_neg h0, if_neg h1]
  split <;> rfl

end Tap

/-- The groups at 0, block by block (R6, R37, R56, R159). -/
theorem State.clearGroups_eq (s : State) (mask : Byte) : s.clearGroups mask = { s with
    links := if mask.getLsbD 0 then s.clearLinks.links else s.links
    comb := { s.comb with
      counters := if mask.getLsbD 1 then Tab.const 16 UplinkCounters.zero else s.comb.counters
      clips := if mask.getLsbD 2 then Tab.const 12 0 else s.comb.clips }
    dist := { s.dist with clips := if mask.getLsbD 2 then Tab.const 12 0 else s.dist.clips }
    svc := if mask.getLsbD 3 then s.clearService.svc else s.svc } := by
  unfold State.clearGroups
  cases mask.getLsbD 0 <;> cases mask.getLsbD 1 <;> cases mask.getLsbD 2 <;> cases mask.getLsbD 3 <;> rfl

theorem State.framer_clearLinks (s : State) (l : Link) :
    s.clearLinks.framer l = { s.framer l with counters := LinkCounters.zero } := by
  cases l with
  | donor n => exact Tab.get_map ..
  | remote r => exact Tab.get_map ..
  | service => rfl

/-- READ-EVENTS: the records taken, and an offer that stands while records are left (R143, R146). -/
theorem State.askReadEvents_eq (s : State) (b : List Byte) :
    let (es, p) := s.events.take (min 8 (byteAt b 0).toNat)
    s.askReadEvents b = .ok ({ s with events := { p with offer := p.offer && decide (p.records ≠ []) } },
      encEvents s.events.overflow p.records.length es) := by
  have left : ∀ es : List Event, (!es.isEmpty) = decide (es ≠ []) := fun es => by cases es <;> rfl
  simp only [State.askReadEvents, left]

/-- Settles O56: each request is taken, and its rule's verdict is read off. -/
theorem eventsCountersAndTapAreServed : Obligations.EventsCountersAndTapAreServed := by
  unfold Obligations.EventsCountersAndTapAreServed
  intro s q b
  refine ⟨fun h => ⟨_, congrArg Host.Outcome.next (State.takeRequest_done h (s.dropRequest.askReadEvents_eq b)), ?_⟩,
    fun h => ⟨fun high => ?_, fun low => ?_⟩, fun h => ?_⟩
  · exact ⟨rfl, s.events.take_perm _, s.events.take_sublist _⟩
  · exact congrArg Host.Outcome.next (State.takeRequest_refused h (if_pos (decide_eq_true high)))
  · have served : s.dropRequest.askClearCounters b = ok (s.dropRequest.clearGroups (byteAt b 0)) :=
      if_neg (by simpa using low)
    refine ⟨_, congrArg Host.Outcome.next (State.takeRequest_done h served), ?_⟩
    intro mask u
    rw [State.clearGroups_eq]
    refine ⟨fun l => ?_, rfl, rfl, ?_, rfl⟩
    · show State.framer { s.dropRequest with links := _ } l = _
      cases bit : mask.getLsbD 0 with
      | true => exact s.framer_clearLinks l
      | false => rfl
    · show State.svc (State.fill { s.dropRequest with svc := _ } _) = _
      cases bit : mask.getLsbD 3 <;> rfl
  · intro tapped
    have refused : ∀ st, s.dropRequest.askTap b = .error st → exec .tap s = .next (s.turnedAway q st) := fun st e =>
      congrArg Host.Outcome.next (State.takeRequest_refused h e)
    have done : ∀ t, s.dropRequest.askTap b = ok (s.dropRequest.setTap t) → tapped t := fun t e => by
      have served := State.takeRequest_done (kind := kindTap) (f := fun s q => s.askTap q.body) h e
      exact congrArg Host.Outcome.next served
    refine ⟨fun h0 => done _ (State.askTap_none _ b h0), fun h0 h1 port => refused _ ?_, fun h0 carrier => refused _ ?_,
      fun c hc => ⟨fun h1 => done _ ?_, fun r hr => ⟨fun h2 => done _ ?_, fun h3 => done _ ?_⟩⟩⟩
    · rw [State.askTap_port _ b h0 h1, finOf_eq_none port]; rfl
    · by_cases h1 : byteAt b 0 = 1
      · rw [State.askTap_combined _ b h1, finOf_eq_none carrier]; rfl
      · rw [State.askTap_port _ b h0 h1, finOf_eq_none carrier]
        cases finOf 16 (byteAt b 1) <;> rfl
    · rw [State.askTap_combined _ b h1, finOf_of_toNat hc]; rfl
    · rw [State.askTap_port _ b (by simp [h2]) (by simp [h2]), finOf_of_toNat hr, finOf_of_toNat hc]
      simp only [h2]; rfl
    · rw [State.askTap_port _ b (by simp [h3]) (by simp [h3]), finOf_of_toNat hr, finOf_of_toNat hc]
      simp only [h3]; rfl

end Sys2Proof.Machine
end

section
namespace Sys2Proof.Machine

/-! ## The reset state (R165) -/

theorem State.reset_framer (l : Link) : State.reset.framer l = Framer.reset := by
  cases l with
  | donor n => exact Tab.get_const ..
  | remote r => exact Tab.get_const ..
  | service => rfl

theorem State.reset_supRec (r : RemoteId) : State.reset.supRec r = SupRecord.reset := Tab.get_const ..

theorem State.reset_ramp (r : RemoteId) : State.reset.ramp r = ⟨0, 0, true⟩ := Tab.get_const ..

theorem State.reset_live (r : RemoteId) : State.reset.live r = RemoteEntry.default :=
  congrArg LiveRemote.entry (Tab.get_const ..)

theorem State.reset_activity (r : RemoteId) (c : CarrierId) : State.reset.activity r c = Activity.reset :=
  (congrArg (fun t => Tab.get t c) (Tab.get_const ..)).trans (Tab.get_const ..)

theorem State.reset_health (r : RemoteId) : State.reset.health r = .vacant := congrArg SupRecord.health (State.reset_supRec r)

theorem State.reset_serviced (r : RemoteId) : State.reset.serviced r = false := by
  rw [State.serviced, State.reset_health]; rfl

theorem State.reset_configLaw : State.reset.ConfigLaw := ⟨Stored.default_lawful, nofun, nofun⟩

theorem Engine.idle_moveLaw : Engine.idle.MoveLaw :=
  ⟨fun _ => rfl, nofun, nofun, nofun, (by rintro (h | h | h) <;> cases h), nofun, (by rintro (h | h) <;> cases h)⟩

theorem State.reset_bounded : State.reset.links.bounded := by
  have framer : ∀ l, (State.reset.framer l).bounded := fun l => by rw [State.reset_framer]; exact Framer.reset_bounded
  exact ⟨fun n => framer (.donor n), fun r => framer (.remote r), framer .service⟩

/-- Every remote is VACANT, its ramp done at gain 0, and no sector is loaded (R30, R110, R119). -/
theorem State.reset_supervisionLaw : State.reset.SupervisionLaw where
  sources y := by
    rw [State.reset_supRec, State.reset_health]
    exact (List.filter_eq_nil_iff.mpr fun _ _ => Bool.false_ne_true).symm
  boost y := by rw [State.reset_supRec]; rfl
  target r := by rw [State.reset_ramp, State.targetOf, State.reset_serviced]; rfl
  done r := by rw [State.reset_ramp]; exact ⟨fun _ => rfl, fun _ => rfl⟩
  present r := by rw [State.reset_ramp]; exact ⟨Nat.zero_le _, fun _ => rfl⟩
  held r := by rw [State.reset_supRec]; exact ⟨nofun, nofun⟩
  joining r h := by rw [State.reset_health] at h; cases h
  ramping := nofun
  degraded := nofun
  vacant := nofun
  unloaded _ := ⟨State.reset_health, rfl, rfl, rfl, rfl⟩
  serials x y _ h := by rw [State.reset_serviced] at h; cases h
  gains r := ⟨by rw [State.reset_live]; decide, nofun⟩
  fading h := by rcases h with h | h <;> cases h

theorem State.reset_alignmentLaw : State.reset.AlignmentLaw := .of_unstarted rfl rfl rfl fun r => Tab.get_const _ r

theorem State.reset_meter_lawful : State.reset.meter.Lawful :=
  ⟨fun r c => by rw [← State.activity, State.reset_activity]; exact .reset, nofun, nofun, nofun⟩

/-- Settles O3, law by law. -/
theorem resetMeetsEveryLaw : Obligations.ResetMeetsEveryLaw :=
  ⟨State.reset_configLaw, EventQueue.reset_lawful, Engine.idle_lawful, Engine.idle_moveLaw,
    ⟨Nat.zero_le _, Nat.zero_le _⟩, State.reset_bounded, State.reset_supervisionLaw, State.reset_alignmentLaw,
    State.reset_meter_lawful⟩

/-- Settles O4: the state after power-on is the reset state but for what stays, and its banks hold the reset value in every
place. -/
theorem powerOnResetsEveryBlock : Obligations.PowerOnResetsEveryBlock := by
  unfold Obligations.PowerOnResetsEveryBlock
  intro s
  refine ⟨_, rfl, rfl, fun l => ?_, rfl, rfl, rfl, fun r => ⟨State.reset_ramp r, Tab.get_const ..⟩, fun n => Tab.get_const ..,
    fun c => Tab.get_const .., fun r => ⟨Tab.get_const .., Tab.get_const .., Tab.get_const .., Tab.get_const ..⟩,
    fun c => ⟨Tab.get_const .., Tab.get_const ..⟩, rfl, State.reset_activity, rfl, rfl, rfl, rfl, rfl,
    fun x => Tab.get_const .., fun r => Tab.get_const .., rfl, rfl, rfl, rfl, rfl, State.reset_supRec,
    fun x => ⟨Tab.get_const .., Tab.get_const ..⟩, rfl, rfl, rfl, rfl, rfl, rfl,
    fun r => ⟨Tab.get_const .., Tab.get_const .., Tab.get_const ..⟩, rfl, rfl, rfl, fun n => Tab.get_const .., rfl⟩
  have framer : s.powerOn.framer l = Framer.reset := State.reset_framer l
  rw [framer]
  exact ⟨rfl, rfl, rfl, rfl, rfl, rfl, rfl, rfl, rfl, rfl⟩

end Sys2Proof.Machine
end

section
namespace Sys2Proof.Machine

/-! ## Slots and assembly (R13, R14, 12.2) -/

theorem word_of_bytes16 (v : BitVec 16) : (v.extractLsb' 8 8 ++ v.extractLsb' 0 8 : BitVec 16) = v := by
  ext i hi
  rw [BitVec.getElem_append]
  split
  · simp [BitVec.getLsbD_eq_getElem hi]
  · simp [show 8 + (i - 8) = i by omega, BitVec.getLsbD_eq_getElem hi]

/-- A header is read back from its bytes (12.2). -/
theorem headerOf_encHeader (h : Header) : headerOf (encHeader h) = h := by
  have mask : wordAt (encHeader h) 2 = h.mask := word_of_bytes16 h.mask
  unfold headerOf
  rw [mask]
  rfl

theorem encHeader_length (h : Header) : (encHeader h).length = 16 := rfl

/-- The body with the zeros that fill its last piece. -/
def padded (body : List Byte) : List Byte := body ++ List.replicate 15 0

theorem bodyPiece_eq {body : List Byte} {k : Nat} (h : 16 * k < body.length) :
    bodyPiece body k = ((padded body).drop (16 * k)).take 16 := by
  have rest : (body.drop (16 * k)).length = body.length - 16 * k := List.length_drop
  unfold bodyPiece padded
  simp only [List.drop_append_of_le_length h.le, List.take_append, List.take_replicate, List.length_take, rest]
  congr 2
  omega

theorem bodyPiece_length (body : List Byte) (k : Nat) : (bodyPiece body k).length = 16 := by
  simp only [bodyPiece, List.length_append, List.length_take, List.length_replicate]
  omega

/-- The pieces before the j-th are the body's beginning, padded. -/
theorem pieces_flatten {body : List Byte} {j : Nat} (h : j ≤ pieceCount body.length) :
    ((List.range j).map (bodyPiece body)).flatten = (padded body).take (16 * j) := by
  induction j with
  | zero => rfl
  | succ j ih =>
    have inside : 16 * j < body.length := by unfold pieceCount at h; omega
    rw [List.range_succ, List.map_append, List.flatten_append, ih (by omega), Nat.mul_succ, List.take_add]
    simp [bodyPiece_eq inside]

/-- The pieces together are the body again. -/
theorem pieces_body (body : List Byte) :
    (((List.range (pieceCount body.length)).map (bodyPiece body)).flatten).take body.length = body := by
  rw [pieces_flatten le_rfl, List.take_take, Nat.min_eq_left (by unfold pieceCount; omega)]
  exact List.take_left

/-- The slots of a message with a body (R13). -/
theorem messageSlots_of_body {h : Header} {body : List Byte} (hb : body ≠ []) : messageSlots h body =
    ⟨2, encHeader h⟩ :: (List.range (pieceCount body.length)).map fun k =>
      ⟨if k + 1 = pieceCount body.length then 4 else 3, bodyPiece body k⟩ := by
  have : 0 < body.length := List.length_pos_iff.mpr hb
  exact if_neg (by unfold pieceCount; omega)

theorem messageSlots_nil (h : Header) : messageSlots h [] = [⟨1, encHeader h⟩] := rfl

/-- The assembler, the count of messages it discarded and the messages it completed. -/
abbrev Taken := Option Assembly × Nat × List Message

/-- One slot taken, the discarded and completed messages collected. -/
def takeOne (p : Taken) (z : Slot) : Taken :=
  let a := assembleSlot p.1 z.flag z.bytes
  (a.assembly, p.2.1 + a.malformed, p.2.2 ++ a.complete.toList)

theorem takeOne_eq {a a' : Option Assembly} {flag : Byte} {bytes : List Byte} {n : Nat} {m : Option Message}
    (e : assembleSlot a flag bytes = ⟨a', n, m⟩) (k : Nat) (ms : List Message) :
    takeOne (a, k, ms) ⟨flag, bytes⟩ = (a', k + n, ms ++ m.toList) := by
  simp only [takeOne, e]

/-- The pieces before the last are collected (R14). -/
theorem middles_collected {h : Header} {n : Nat} (piece : Nat → List Byte) (want : pieceCount h.length.toNat = n) {j : Nat}
    (hj : j < n) :
    ((List.range j).map fun k => (⟨if k + 1 = n then 4 else 3, piece k⟩ : Slot)).foldl takeOne (some ⟨h, []⟩, 0, []) =
      (some ⟨h, (List.range j).map piece⟩, 0, []) := by
  induction j with
  | zero => rfl
  | succ j ih =>
    have middle : assembleSlot (some ⟨h, (List.range j).map piece⟩) 3 (piece j) =
        ⟨some ⟨h, (List.range j).map piece ++ [piece j]⟩, 0, none⟩ := by
      refine if_pos ?_
      simp only [List.length_map, List.length_range, want]
      exact hj
    rw [List.range_succ, List.map_append, List.foldl_append, ih (by omega)]
    simp only [List.map_cons, List.map_nil, List.foldl_cons, List.foldl_nil, takeOne, if_neg (Nat.ne_of_lt hj), middle,
      List.map_append]
    rfl

/-- The last slot completes the message (R14). -/
theorem last_completes {h : Header} {pieces : List (List Byte)} (last : List Byte)
    (want : pieces.length + 1 = pieceCount h.length.toNat) :
    assembleSlot (some ⟨h, pieces⟩) 4 last = ⟨none, 0, some ⟨h, ((pieces ++ [last]).flatten).take h.length.toNat⟩⟩ :=
  if_pos want

/-- The slots of a message, taken one after another by an idle assembler, complete exactly that message (R14). -/
theorem slots_assemble {h : Header} {body : List Byte} (short : body.length ≤ 224) (length : h.length.toNat = body.length) :
    (messageSlots h body).foldl takeOne (none, 0, []) = (none, 0, [⟨h, body⟩]) := by
  by_cases hb : body = []
  · subst hb
    have only : assembleSlot none 1 (encHeader h) = ⟨none, 0, some ⟨h, []⟩⟩ := by
      have := headerOf_encHeader h
      simp [assembleSlot, this, length, discards]
    exact takeOne_eq only 0 []
  · have positive : 0 < body.length := List.length_pos_iff.mpr hb
    have first : assembleSlot none 2 (encHeader h) = ⟨some ⟨h, []⟩, 0, none⟩ := by
      have := headerOf_encHeader h
      simp [assembleSlot, this, length, discards, short, Nat.one_le_iff_ne_zero, positive.ne']
    obtain ⟨n, hn⟩ : ∃ n, pieceCount body.length = n + 1 := ⟨(body.length - 1) / 16, by unfold pieceCount; omega⟩
    have want : pieceCount h.length.toNat = n + 1 := by rw [length, hn]
    have last := last_completes (h := h) (pieces := (List.range n).map (bodyPiece body)) (bodyPiece body n)
      (by rw [List.length_map, List.length_range, want])
    have whole : (((List.range n).map (bodyPiece body) ++ [bodyPiece body n]).flatten).take h.length.toNat = body := by
      have := pieces_body body
      rwa [hn, List.range_succ, List.map_append, ← length] at this
    rw [messageSlots_of_body hb, hn, List.foldl_cons]
    have started : takeOne (none, 0, []) ⟨2, encHeader h⟩ = (some ⟨h, []⟩, 0, []) := takeOne_eq first 0 []
    rw [started, List.range_succ, List.map_append, List.foldl_append,
      middles_collected (bodyPiece body) want (Nat.lt_succ_self n)]
    simp only [List.map_cons, List.map_nil, List.foldl_cons, List.foldl_nil, if_true]
    exact (takeOne_eq last 0 []).trans (by rw [whole]; rfl)

/-- Settles O25: the slots are counted and read off, and taken one after another. -/
theorem messagesSurviveTheirSlots : Obligations.MessagesSurviveTheirSlots := by
  unfold Obligations.MessagesSurviveTheirSlots
  intro h body short length
  refine ⟨?_, ?_, fun k hk => ?_, fun z hz => ?_, slots_assemble short length⟩
  · by_cases hb : body = []
    · subst hb; rfl
    · rw [messageSlots_of_body hb, List.length_cons, List.length_map, List.length_range, Nat.add_comm]; rfl
  · by_cases hb : body = []
    · subst hb; rfl
    · rw [messageSlots_of_body hb, if_neg hb]; rfl
  · have hb : body ≠ [] := by rintro rfl; simp at hk
    have flag : k + 1 = pieceCount body.length ↔ body.length ≤ 16 * (k + 1) := by unfold pieceCount; omega
    rw [messageSlots_of_body hb, List.getElem?_cons_succ, List.getElem?_map,
      List.getElem?_range (show k < pieceCount body.length from hk), Option.map_some, bodyPiece_eq (by omega)]
    simp only [flag, padded]
  · by_cases hb : body = []
    · subst hb
      obtain rfl := List.mem_singleton.mp hz
      exact ⟨encHeader_length h, by simp⟩
    · rw [messageSlots_of_body hb] at hz
      rcases List.mem_cons.mp hz with rfl | hz
      · exact ⟨encHeader_length h, by simp⟩
      · obtain ⟨k, -, rfl⟩ := List.mem_map.mp hz
        refine ⟨bodyPiece_length body k, ?_⟩
        show (if _ then _ else _ : Byte) ≠ 0
        split <;> decide

end Sys2Proof.Machine
end

section
namespace Sys2Proof.Machine

/-! ## Leaving LOCKED (R5, R9, R12, R14, R18, R28, R41, R122, R123, R144, R152, R163, R164) -/

theorem State.mem_unDue {s : State} {d e : Due} : e ∈ (s.unDue d).boundary.due ↔ e ∈ s.boundary.due ∧ e ≠ d := by
  simp [State.unDue]

/-- The framer's own part of leaving LOCKED, with the restart that the end of its response makes due (R7, R167). -/
def State.unlocked (s : State) (l : Link) : State :=
  if (s.framer l).emission.any Emission.isRestart then (s.modFramer l Framer.unlock).markDue .restart
  else s.modFramer l Framer.unlock

theorem State.unlocked_frame (s : State) (l : Link) :
    s.unlocked l = { s.modFramer l Framer.unlock with boundary := (s.unlocked l).boundary } := by
  unfold State.unlocked State.markDue
  split
  · split <;> rfl
  · rfl

theorem State.unlocked_framer (s : State) (l k : Link) : (s.unlocked l).framer k = (s.modFramer l Framer.unlock).framer k := by
  rw [State.unlocked_frame]; exact State.framer_congr rfl k

theorem State.unlocked_restart {s : State} {l : Link} {e : Emission} (h : (s.framer l).emission = some e)
    (r : e.what = .response true) : .restart ∈ (s.unlocked l).boundary.due := by
  have restarting : (s.framer l).emission.any Emission.isRestart = true := by
    rw [h]
    show e.isRestart = true
    rw [Emission.isRestart, r]
  rw [State.unlocked, if_pos restarting, State.due_markDue]
  split
  · exact List.contains_iff_mem.mp ‹_›
  · exact List.mem_append_right _ (List.mem_singleton_self _)

theorem State.leaveLocked_donor (s : State) (n : DonorId) :
    s.leaveLocked (.donor n) = (s.unlocked (.donor n)).donorUnlocked n := rfl

theorem State.leaveLocked_remote (s : State) (r : RemoteId) :
    s.leaveLocked (.remote r) = (s.unlocked (.remote r)).remoteUnlocked r := rfl

theorem State.leaveLocked_service (s : State) : s.leaveLocked .service = (s.unlocked .service).dropOffer := rfl

/-! ### A donor link -/

/-- The loss of the reference, where the link was selected (R9, R10). -/
theorem State.loseReference_frame (s : State) (n : DonorId) :
    (s.clock.reference ≠ some n → s.loseReference n = s) ∧
    (s.clock.reference = some n → s.loseReference n = { s with
      clock := { s.clock with reference := s.bestReference }
      events := s.events.post .referenceLost (.donor n) none
        (match s.bestReference with | some m => word16 m.val | none => 0xFFFF) s.now }) :=
  ⟨fun h => if_neg h, fun h => if_pos h⟩

theorem State.loseReference_only (s : State) (n : DonorId) :
    s.loseReference n = { s with clock := (s.loseReference n).clock, events := (s.loseReference n).events } := by
  obtain ⟨other, selected⟩ := s.loseReference_frame n
  by_cases h : s.clock.reference = some n
  · rw [selected h]
  · rw [other h]

/-- The requests of donor link n removed and counted (R152). -/
def Service.removed (v : Service) (n : DonorId) : Service := { v with
  input := v.input.filter fun q => decide (q.link ≠ .donor n)
  donorCounts := v.donorCounts.modify n fun c => { c with
    removals := satAdd c.removals (v.input.filter fun q => decide (q.link = .donor n)).length } }

/-- What the loss of a donor link leaves of each block (R9, R28, R152). -/
theorem State.donorUnlocked_eq (s : State) (n : DonorId) : s.donorUnlocked n = { s with
    clock := (s.loseReference n).clock
    events := (s.loseReference n).events
    dist := { s.dist with donors := s.dist.donors.modify n fun d => { d with timer := some 0 } }
    boundary := (s.unDue (.donorGrace n)).boundary
    svc := s.svc.removed n } := by
  unfold State.donorUnlocked
  rw [State.loseReference_only]
  rfl

/-! ### A remote link -/

theorem Service.aborted_none {v : Service} {r : RemoteId} (h : v.pass.get r = none) : v.aborted r = v := by
  simp only [Service.aborted, h]

/-- The Relay once remote link r has left LOCKED (R163, R164). -/
def Service.lostPort (v : Service) (r : RemoteId) : Service :=
  Service.left { v.aborted r with refused := (v.aborted r).refused.set r [] } r

theorem State.abortPass_frame (s : State) (r : RemoteId) : s.abortPass r = { s with
    links := (s.abortPass r).links, svc := s.svc.aborted r, boundary := (s.abortPass r).boundary } := by
  obtain ⟨l, v, d, h⟩ := s.endPass_frame r .aborted []
  have svc := s.abortPass_svc r
  unfold State.abortPass at *
  rw [← svc, h]

theorem State.abortPass_restart (s : State) (r : RemoteId) (h : .restart ∈ s.boundary.due) :
    .restart ∈ (s.abortPass r).boundary.due := by
  unfold State.abortPass
  cases open' : s.svc.pass.get r with
  | none => rwa [State.endPass_none open']
  | some p =>
    rw [State.endPass_some open']
    exact State.mem_unDue.mpr ⟨State.mem_unDue.mpr ⟨h, nofun⟩, nofun⟩

/-- The Supervisor's and the Combiner's part of the loss of a remote link (R41, R122, R123). -/
def State.portCleared (s : State) (r : RemoteId) : State :=
  ((s.setQueue r []).modSup r fun v => { v with
    awaiting := false, grace := if s.serviced r then some 0 else v.grace }).unDue (.linkGrace r)

theorem State.remoteUnlocked_eq (s : State) (r : RemoteId) : s.remoteUnlocked r = { s.portCleared r with
    links := ((s.portCleared r).abortPass r).links
    svc := s.svc.lostPort r
    boundary := ((s.portCleared r).abortPass r).boundary } := by
  have frame := (s.portCleared r).abortPass_frame r
  show ((((s.portCleared r).abortPass r).setRefused r []).leaveRemaining r) = _
  rw [State.leaveRemaining_eq]
  generalize (s.portCleared r).abortPass r = t at *
  rw [frame]
  rfl

/-- The framer of the link after the loss: nothing more of its own work is left (R12, R14, R18). -/
theorem State.leaveLocked_framer (s : State) (l : Link) : (s.leaveLocked l).framer l = (s.framer l).unlock := by
  have own : (s.unlocked l).framer l = (s.framer l).unlock := (s.unlocked_framer l l).trans (s.framer_modFramer_self l _)
  cases l with
  | donor n =>
    rw [State.leaveLocked_donor, State.donorUnlocked_eq]
    exact own
  | service => exact own
  | remote r =>
    rw [State.leaveLocked_remote, State.remoteUnlocked_eq]
    refine ((State.framer_congr rfl _).trans (State.abortPass_framer _ r (.remote r))).trans ?_
    rw [if_pos rfl, Framer.withdrawn]
    have cleared : ((s.unlocked (.remote r)).portCleared r).framer (.remote r) = (s.framer (.remote r)).unlock := own
    rw [cleared]
    split <;> rfl

/-- The restart that is due stays so (R167). -/
theorem State.leaveLocked_restart {s : State} {l : Link} (h : .restart ∈ (s.unlocked l).boundary.due) :
    .restart ∈ (s.leaveLocked l).boundary.due := by
  cases l with
  | donor n =>
    rw [State.leaveLocked_donor, State.donorUnlocked_eq]
    exact State.mem_unDue.mpr ⟨h, nofun⟩
  | service => exact h
  | remote r =>
    rw [State.leaveLocked_remote, State.remoteUnlocked_eq]
    exact State.abortPass_restart _ r (State.mem_unDue.mpr ⟨h, nofun⟩)

end Sys2Proof.Machine
end

section
namespace Sys2Proof.Machine

/-! ### The two commands that lose the lock (R1, R2) -/

/-- A loss of lock depends on the state with what arrived before taken. -/
theorem State.loseLock_congr {s v : State} {l : Link} (h : s.takeArrived l = v.takeArrived l) (next : RxState)
    (own : Framer → Framer) : s.loseLock l next own = v.loseLock l next own := by
  unfold State.loseLock
  rw [h]

/-- The two ways to lose the lock of link l: the command, the receive state it leaves, and the framer's own change. -/
inductive Unlocks (l : Link) : Instr → RxState → (Framer → Framer) → Prop where
  | signal : Unlocks l (.lossOfSignal l) .down id
  | errored (x : LinkFrame) : Unlocks l (.erroredFrame l x) .hunt fun f => f.erroredLocked (isPresent x)

theorem Unlocks.not_locked {l : Link} {c : Instr} {next : RxState} {own : Framer → Framer} (h : Unlocks l c next own) :
    next ≠ .locked := by
  cases h <;> nofun

/-- Loss of signal, and the fourth errored frame in a row, take the lock (R1, R2). -/
theorem exec_unlocks {c : Instr} {l : Link} {n : Nat}
    (hc : c = .lossOfSignal l ∨ ∃ x, c = .erroredFrame l x ∧ isGood x = false ∧ n = 3) :
    ∃ next own, Unlocks l c next own ∧ ∀ v : State, (v.framer l).rx = .locked → (v.framer l).streak = n →
      exec c v = .next (v.loseLock l next own) := by
  rcases hc with rfl | ⟨x, rfl, bad, rfl⟩
  · exact ⟨_, _, .signal, fun v locked _ => congrArg Host.Outcome.next (if_pos (decide_eq_true locked))⟩
  · exact ⟨_, _, .errored x, fun v locked streak =>
      congrArg Host.Outcome.next ((v.frameEnds_errored l bad).trans (State.erroredFrame_fourth _ locked streak))⟩

/-- The framer after a loss of lock. -/
def Framer.lost (next : RxState) (own : Framer → Framer) (f : Framer) : Framer := ((own f).loseLock next).unlock

/-! ### What arrived before (R15, R124, R151) -/

theorem State.openPass_spares (s : State) (r : RemoteId) (l : MsgLink) (m : Message) : Spares s (s.openPass r l m) := by
  rw [State.openPass_eq]
  refine Spares.trans ?_ (State.offer_spares _ _ _)
  exact .of_svc rfl rfl rfl rfl rfl

theorem State.startSetRelay_spares (s : State) (l : MsgLink) (m : Message) (ports : List RemoteId) :
    Spares s (s.startSetRelay l m ports) := by
  unfold State.startSetRelay
  refine (Spares.of_svc (v := { s.svc with
    setRelay := some ⟨l, m.head.tag, m.head.kind, m.body, ports⟩, reserved := s.svc.reserved ++ [.setRelay] })
    rfl rfl rfl rfl rfl).trans (Spares.trans ?_ (State.endSetRelay_spares _))
  exact .foldl (fun s r => (s.takeTag_spares r).trans (State.offer_spares _ _ _)) ports _

/-- A message from S or a donor link changes no receive side (R148, R149, R151). -/
theorem State.serviceArrives_receive (s : State) (l : MsgLink) (m : Message) (k : Link) :
    (s.framer k).SameReceive ((s.serviceArrives l m).framer k) := by
  have counted : ∀ (t : State) (f : LinkService → LinkService), (t.framer k).SameReceive ((t.countSvc l f).framer k) :=
    fun t f => by rw [State.framer_congr (t.countSvc_links l f)]; exact .refl _
  have answered : ∀ st, (s.framer k).SameReceive ((s.answerArrival l m st).framer k) := fun st => by
    unfold State.answerArrival
    split
    · exact counted (s.fill _) _
    · exact counted s _
  have admitted : (s.framer k).SameReceive ((s.admitMessage l m).framer k) := by
    unfold State.admitMessage
    split
    · exact counted s _
    · split
      · exact answered _
      · exact counted { s with svc := _ } _
      · exact (s.openPass_spares _ l m).receive k
      · exact (s.startSetRelay_spares l m _).receive k
  unfold State.serviceArrives
  split
  · exact counted s _
  · split
    · exact counted s _
    · split
      · exact answered _
      · exact admitted
    · exact admitted

/-- The message of S or a donor link that waits first is taken first, as its own row takes it. -/
theorem State.takeArrived_service {s : State} {k : MsgLink} {m : Message} {ms : List Message}
    (h : (s.framer (linkOf k)).handed = m :: ms) :
    let v := s.takeServiceMessage k
    s.takeArrived (linkOf k) = v.takeArrived (linkOf k) ∧
      Framer.SameReceive { s.framer (linkOf k) with handed := ms } (v.framer (linkOf k)) := by
  intro v
  have receive : Framer.SameReceive { s.framer (linkOf k) with handed := ms } (v.framer (linkOf k)) := by
    have own := (s.modFramer (linkOf k) fun f => { f with handed := ms }).serviceArrives_receive k m (linkOf k)
    rw [State.framer_modFramer_self] at own
    rwa [show v = _ from State.takeServiceMessage_cons h]
  have left : (v.framer (linkOf k)).handed = ms := by rw [show v.framer (linkOf k) = _ from receive]
  have drained : ∀ s : State, s.takeArrived (linkOf k) = s.drainService k (s.framer (linkOf k)).handed.length := fun s => by
    cases k <;> rfl
  refine ⟨?_, receive⟩
  rw [drained, drained, h, left]
  rfl

end Sys2Proof.Machine
end

section
namespace Sys2Proof.Machine

/-! ### The loss of lock, link by link -/

/-- The framer of link l as it stands when its lock is lost, before the blocks do their part. -/
def State.dropsLock (s : State) (l : Link) (next : RxState) (own : Framer → Framer) : State :=
  (s.modFramer l fun f => (own f).loseLock next).unlocked l

section Loss

variable (s : State) (next : RxState) (own : Framer → Framer)

theorem State.dropsLock_frame (l : Link) : s.dropsLock l next own = { s with
    links := (s.dropsLock l next own).links, boundary := (s.dropsLock l next own).boundary } := by
  unfold State.dropsLock
  rw [State.unlocked_frame]
  cases l <;> rfl

theorem State.dropsLock_framer (l k : Link) :
    (s.dropsLock l next own).framer k = if l = k then (s.framer k).lost next own else s.framer k := by
  unfold State.dropsLock
  rw [State.unlocked_framer, State.framer_modFramer, State.framer_modFramer]
  split <;> rfl

theorem State.loseLock_donor (n : DonorId) (h : s.takeArrived (.donor n) = s) :
    s.loseLock (.donor n) next own = (s.dropsLock (.donor n) next own).donorUnlocked n := by
  unfold State.loseLock
  rw [h]
  rfl

theorem State.loseLock_remote (r : RemoteId) (h : s.takeArrived (.remote r) = s) :
    s.loseLock (.remote r) next own = (s.dropsLock (.remote r) next own).remoteUnlocked r := by
  unfold State.loseLock
  rw [h]
  rfl

theorem State.loseLock_framer (l : Link) (h : s.takeArrived l = s) :
    (s.loseLock l next own).framer l = (s.framer l).lost next own := by
  unfold State.loseLock
  rw [State.leaveLocked_framer, h, State.framer_modFramer_self]
  rfl

theorem State.loseLock_service (h : s.takeArrived .service = s) :
    s.loseLock .service next own = (s.dropsLock .service next own).dropOffer := by
  unfold State.loseLock
  rw [h]
  rfl

/-- The end of the response to RESTART makes RESTART due (R167). -/
theorem State.loseLock_restart (l : Link) (h : s.takeArrived l = s) {e : Emission}
    (emission : (own (s.framer l)).emission = some e) (r : e.what = .response true) :
    .restart ∈ (s.loseLock l next own).boundary.due := by
  unfold State.loseLock
  rw [h]
  refine State.leaveLocked_restart (State.unlocked_restart (e := e) ?_ r)
  rw [State.framer_modFramer_self]
  exact emission

/-- The donor link that is selected once link n is no longer LOCKED (R9). -/
theorem State.dropsLock_bestReference {n : DonorId} (unlocked : next ≠ .locked) :
    (s.dropsLock (.donor n) next own).bestReference = (List.finRange 4).find? fun m =>
      s.settings.reference.permits m && decide (m ≠ n) && s.locked (.donor m) := by
  have locked : ∀ m, (s.dropsLock (.donor n) next own).locked (.donor m) = (decide (m ≠ n) && s.locked (.donor m)) := fun m => by
    simp only [State.locked, State.dropsLock_framer, Link.donor.injEq]
    by_cases h : n = m
    · simp [h, Framer.lost, Framer.loseLock, Framer.unlock, unlocked]
    · simp [h, Ne.symm h]
  have settings : (s.dropsLock (.donor n) next own).settings = s.settings := by rw [State.dropsLock_frame]
  simp only [State.bestReference, locked, settings, Bool.and_assoc]

end Loss

/-- The end of a pass-through by abortion leaves every other port's slot and refused offers, and the set relay. -/
theorem Service.aborted_others (v : Service) (r : RemoteId) : (v.aborted r).setRelay = v.setRelay ∧
    ∀ x, x ≠ r → (v.aborted r).pass.get x = v.pass.get x ∧ (v.aborted r).refused.get x = v.refused.get x := by
  unfold Service.aborted
  cases v.pass.get r with
  | none => exact ⟨rfl, fun _ _ => ⟨rfl, rfl⟩⟩
  | some p => exact ⟨rfl, fun x hx => ⟨Tab.get_set_ne _ _ (Ne.symm hx), Tab.get_set_ne _ _ (Ne.symm hx)⟩⟩

section LostPort

variable {v : Service} {r : RemoteId} {aborted : List Response} {kept : List Reservation}

theorem Service.lostPort_frame (v : Service) (r : RemoteId) : v.lostPort r = { v.aborted r with
    refused := (v.aborted r).refused.set r [], setRelay := (v.lostPort r).setRelay, filled := (v.lostPort r).filled
    reserved := (v.lostPort r).reserved } := Service.left_frame _ r

theorem Service.lostPort_pass (v : Service) (r : RemoteId) : (v.lostPort r).pass.get r = none ∧
    (v.lostPort r).refused.get r = [] ∧ ∀ x, x ≠ r →
      (v.lostPort r).pass.get x = v.pass.get x ∧ (v.lostPort r).refused.get x = v.refused.get x := by
  obtain ⟨-, others⟩ := v.aborted_others r
  rw [Service.lostPort_frame]
  refine ⟨v.aborted_pass r, Tab.get_set_self .., fun x hx => ?_⟩
  obtain ⟨pass, refused⟩ := others x hx
  exact ⟨pass, (Tab.get_set_ne _ _ (Ne.symm hx)).trans refused⟩

/-- The set relay and the response queue after the loss of port r (R163, R164). -/
theorem Service.lostPort_relay (filled : (v.aborted r).filled = v.filled ++ aborted) (reserved : (v.aborted r).reserved = kept)
    (place : .setRelay ∈ kept ↔ .setRelay ∈ v.reserved) :
    (v.setRelay = none → (v.lostPort r).setRelay = none ∧ (v.lostPort r).filled = v.filled ++ aborted ∧
      (v.lostPort r).reserved = kept) ∧
    (∀ w, v.setRelay = some w → w.remaining.erase r ≠ [] →
      (v.lostPort r).setRelay = some { w with remaining := w.remaining.erase r } ∧
      (v.lostPort r).filled = v.filled ++ aborted ∧ (v.lostPort r).reserved = kept) ∧
    ∀ w, v.setRelay = some w → w.remaining.erase r = [] → (v.lostPort r).setRelay = none ∧
      (v.lostPort r).reserved = kept.erase .setRelay ∧
      (v.lostPort r).filled = v.filled ++ aborted ++ if .setRelay ∈ v.reserved then [w.done] else [] := by
  obtain ⟨relay, -⟩ := v.aborted_others r
  unfold Service.lostPort
  set u : Service := { v.aborted r with refused := (v.aborted r).refused.set r [] }
  have filled : u.filled = _ := filled
  have reserved : u.reserved = _ := reserved
  have relay : u.setRelay = _ := relay
  refine ⟨fun h => ?_, fun w h more => ?_, fun w h last => ?_⟩
  · rw [Service.left_none r (relay.trans h)]
    exact ⟨relay.trans h, filled, reserved⟩
  · rw [Service.left_more (relay.trans h) more]
    exact ⟨rfl, filled, reserved⟩
  · rw [Service.left_last (relay.trans h) last]
    refine ⟨rfl, congrArg (List.erase · Reservation.setRelay) reserved, ?_⟩
    show u.filled ++ (if .setRelay ∈ u.reserved then [w.done] else []) = _
    simp only [filled, reserved, place]

end LostPort

/-- Settles O23: what arrived first is taken first; then the framer, and each block by its own equation. -/
theorem leavingLockedTakesEffect : Obligations.LeavingLockedTakesEffect := by
  unfold Obligations.LeavingLockedTakesEffect
  intro s l locked c hc
  obtain ⟨next, own, un, runs⟩ := exec_unlocks hc
  have here := runs s locked rfl
  have first : ∀ v : State, s.takeArrived l = v.takeArrived l → (s.framer l).rx = (v.framer l).rx →
      (s.framer l).streak = (v.framer l).streak → exec c s = exec c v := fun v taken rx streak => by
    rw [here, runs v (rx.symm.trans locked) streak.symm, State.loseLock_congr taken]
  refine ⟨fun k m ms hl hm => ?_, fun r before m after hl hm hk hb => ?_, fun none => ?_⟩
  · subst hl
    obtain ⟨taken, receive⟩ := State.takeArrived_service hm
    exact ⟨_, rfl, first _ taken (congrArg Framer.rx receive).symm (congrArg Framer.streak receive).symm⟩
  · subst hl
    obtain ⟨taken, receive⟩ := s.takeArrived_status r before after m hm hk hb
    rw [State.framer_modFramer_self] at receive
    refine ⟨_, congrArg Host.Outcome.next (State.takeRemoteMessage_cons _
      (congrArg Framer.handed (State.framer_modFramer_self ..)) hk), ?_⟩
    rw [State.modFramer_modFramer]
    exact first _ taken (congrArg Framer.rx receive).symm (congrArg Framer.streak receive).symm
  have untaken : s.takeArrived l = s := s.takeArrived_of_none l fun m hm taken => none ⟨m, hm, taken⟩
  refine ⟨_, here, ?_, fun hl => ?_, fun n hl => ?_, fun r hl => ?_⟩
  · have framer := s.loseLock_framer next own l untaken
    rw [framer]
    refine ⟨?_, ?_, ?_, rfl, rfl, rfl, rfl, rfl, ?_, ?_, ?_, ?_, fun e he hw => ?_, ?_, ?_, ?_⟩
    · intro e; cases e; cases un; rfl
    · intro e; cases un with
      | signal => exact absurd rfl e
      | errored x => rfl
    · cases un <;> rfl
    · cases un <;> rfl
    · intro e; cases e; cases un; rfl
    · intro e; cases un with
      | signal => exact absurd rfl e
      | errored x => rfl
    · intro x e; cases e; cases un; exact ⟨rfl, rfl⟩
    · exact s.loseLock_restart next own l untaken (by cases un <;> exact he) hw
    · cases un <;> rfl
    · cases un <;> rfl
    · cases un <;> rfl
  · subst hl
    have frame := s.dropsLock_frame next own .service
    rw [s.loseLock_service next own untaken]
    exact ⟨rfl, (congrArg State.svc frame :)⟩
  · subst hl
    have frame := s.dropsLock_frame next own (.donor n)
    have best := s.dropsLock_bestReference next own (n := n) un.not_locked
    rw [s.loseLock_donor next own n untaken, State.donorUnlocked_eq]
    obtain ⟨other, selected⟩ := (s.dropsLock (.donor n) next own).loseReference_frame n
    generalize s.dropsLock (.donor n) next own = u at *
    have svc : u.svc = s.svc := (congrArg State.svc frame :)
    have clock : u.clock = s.clock := (congrArg State.clock frame :)
    have events : u.events = s.events := (congrArg State.events frame :)
    have now : u.now = s.now := (congrArg State.now frame :)
    have dist : u.dist = s.dist := (congrArg State.dist frame :)
    simp only [svc, dist]
    rw [clock] at other selected
    refine ⟨Tab.get_modify_self .., rfl, congrArg LinkService.removals (Tab.get_modify_self ..), rfl, rfl, rfl,
      fun m hm => Tab.get_modify_ne _ _ (Ne.symm hm), fun h => ?_, fun h => ?_⟩
    · rw [other h]
      exact ⟨clock, events⟩
    · rw [selected h, ← best]
      rw [events, now]
      exact ⟨rfl, rfl⟩
  · subst hl
    have frame := s.dropsLock_frame next own (.remote r)
    rw [s.loseLock_remote next own r untaken, State.remoteUnlocked_eq]
    generalize s.dropsLock (.remote r) next own = u at *
    have svc : u.svc = s.svc := (congrArg State.svc frame :)
    have comb : u.comb = s.comb := (congrArg State.comb frame :)
    have sup : u.supRec r = s.supRec r := (congrArg (State.supRec · r) frame :)
    have serviced : u.serviced r = s.serviced r := (congrArg (State.serviced · r) frame :)
    have record : (u.portCleared r).supRec r = { s.supRec r with
        awaiting := false, grace := if s.serviced r then some 0 else (s.supRec r).grace } := by
      refine (State.supRec_modSup_self (u.setQueue r []) r _).trans ?_
      show (fun v : SupRecord => { v with awaiting := false, grace := if u.serviced r then some 0 else v.grace }) (u.supRec r) = _
      rw [serviced, sup]
    rw [svc]
    obtain ⟨pass, refused, others⟩ := s.svc.lostPort_pass r
    refine ⟨Tab.get_set_self .., congrArg (·.counters.get r) comb, record, pass, refused, (congrArg State.events frame :),
      ?_, others⟩
    intro aborted kept left
    have apart : .setRelay ∈ kept ↔ .setRelay ∈ s.svc.reserved := by
      simp only [kept]
      split
      · exact List.mem_erase_of_ne nofun
      · exact .rfl
    refine Service.lostPort_relay ?_ ?_ apart
    · simp only [Service.aborted, aborted]
      cases s.svc.pass.get r with
      | none => exact (List.append_nil _).symm
      | some p => rfl
    · simp only [Service.aborted, kept]
      cases s.svc.pass.get r <;> rfl

end Sys2Proof.Machine
end

section
namespace Sys2Proof.Machine

/-! ## The blocks' work at a boundary, block by block (R4, R12, R22 to R25, R42 to R44, R54, R55) -/

theorem State.framer_distribute (s : State) (fs : DonorFrames) : (∀ n, (s.distribute fs).framer (.donor n) =
    (s.framer (.donor n)).takeOldest) ∧ (∀ r, (s.distribute fs).framer (.remote r) = s.framer (.remote r)) ∧
    (s.distribute fs).framer .service = s.framer .service :=
  ⟨fun _ => Tab.get_map .., fun _ => rfl, rfl⟩

/-- What frame building, a release and transmission leave of each block but the framers. -/
structure FramesBuilt (w b t : State) : Prop where
  frame : t = { w with
    links := t.links, dist := t.dist, comb := t.comb, meter := t.meter, boundary := { w.boundary with due := t.boundary.due } }
  dist : t.dist = (w.distribute w.oldestFrames).dist
  comb : t.comb = { b.comb with weights := t.comb.weights }
  meter : t.meter = b.meter

section Around

variable {w : State} {f : State → State × DonorUplink}

theorem State.framesAround_built (release : ∀ b, (f b).1 = { b with comb := (f b).1.comb, meter := (f b).1.meter }) :
    FramesBuilt w (f (w.distribute w.oldestFrames)).1 (w.framesAround f) := by
  have b := release (w.distribute w.oldestFrames)
  have only := ((f (w.distribute w.oldestFrames)).1.noteWeights.transmitAll_frames (Tab.ofFn (w.downLanes w.oldestFrames))
    (f (w.distribute w.oldestFrames)).2 (w.tapLane w.oldestFrames (f (w.distribute w.oldestFrames)).2)).1
  have eq : w.framesAround f = (f (w.distribute w.oldestFrames)).1.noteWeights.transmitAll
    (Tab.ofFn (w.downLanes w.oldestFrames)) (f (w.distribute w.oldestFrames)).2
      (w.tapLane w.oldestFrames (f (w.distribute w.oldestFrames)).2) := rfl
  rw [← eq] at only
  generalize w.framesAround f = t at *
  generalize (f (w.distribute w.oldestFrames)).1 = d at *
  have whole : t = { d.noteWeights with links := t.links, boundary := { d.noteWeights.boundary with due := t.boundary.due } } :=
    only
  refine ⟨?_, ?_, ?_, ?_⟩
  · rw [whole, b]; rfl
  · rw [whole, b]; rfl
  · rw [whole]; rfl
  · rw [whole]; rfl

/-- The frame of each link (R4, R25, R43, R54). -/
theorem State.framesAround_framers (release : ∀ b, (f b).1 = { b with comb := (f b).1.comb, meter := (f b).1.meter }) :
    (∀ n, (w.framesAround f).framer (.donor n) = (w.framer (.donor n)).takeOldest.send
      (f (w.distribute w.oldestFrames)).2.number (f (w.distribute w.oldestFrames)).2.mark []
      ((f (w.distribute w.oldestFrames)).2.lanes.get n)) ∧
    (∀ r, (w.framesAround f).framer (.remote r) =
      (w.framer (.remote r)).send w.now 0 (mapBytes (w.mapOf r)) (w.downLanes w.oldestFrames r)) ∧
    (w.framesAround f).framer .service = (w.framer .service).send w.now 0 []
      [w.tapLane w.oldestFrames (f (w.distribute w.oldestFrames)).2] := by
  have b := release (w.distribute w.oldestFrames)
  obtain ⟨-, donor, remote, service⟩ :=
    (f (w.distribute w.oldestFrames)).1.noteWeights.transmitAll_frames (Tab.ofFn (w.downLanes w.oldestFrames))
      (f (w.distribute w.oldestFrames)).2 (w.tapLane w.oldestFrames (f (w.distribute w.oldestFrames)).2)
  have links : (f (w.distribute w.oldestFrames)).1.noteWeights.links = (w.distribute w.oldestFrames).links :=
    (congrArg State.links b :)
  have now : (f (w.distribute w.oldestFrames)).1.noteWeights.now = w.now := (congrArg State.now b :)
  have maps : ∀ r, (f (w.distribute w.oldestFrames)).1.noteWeights.dist.lastMap.get r = w.mapOf r := fun r =>
    (congrArg (·.dist.lastMap.get r) b :).trans (Tab.get_ofFn _ r)
  have framer := State.framer_congr links
  obtain ⟨oldest, others, service'⟩ := w.framer_distribute w.oldestFrames
  refine ⟨fun n => ?_, fun r => ?_, ?_⟩
  · rw [← oldest, ← framer]; exact donor n
  · rw [← others, ← framer, ← now, ← maps, ← Tab.get_ofFn (w.downLanes w.oldestFrames) r]; exact remote r
  · rw [← service', ← framer, ← now]; exact service

end Around

/-- The blocks' work on the boundary that stands open: p is what is found, or in the order of release first that with its
release done, and f is the release that follows frame building, if it is still to come. -/
structure State.ActsBy (s : State) (part : BoundaryPart) (p : State) (f : State → State × DonorUplink) : Prop where
  runs : exec (.frameBoundary part) s = .next (p.beforeFrames.framesAround f)
  start : p = { s with boundary := { s.boundary with acting := false }, comb := p.comb, meter := p.meter }
  release : ∀ b, (f b).1 = { b with comb := (f b).1.comb, meter := (f b).1.meter }
  order : (part = .act ∧ p = s.setActing false ∧ f = State.combine) ∨
    (part = .releaseFirst ∧ p = (s.setActing false).combine.1 ∧ f = fun b => (b, (s.setActing false).combine.2))

theorem State.actsBy (s : State) {part : BoundaryPart} (acting : s.boundary.acting = true)
    (h : part = .act ∨ part = .releaseFirst) : ∃ p f, s.ActsBy part p f := by
  rcases h with rfl | rfl
  · have work : s.actBoundary = (s.setActing false).beforeFrames.framesAround State.combine := by
      unfold State.actBoundary State.frameWork
      exact if_pos acting
    exact ⟨s.setActing false, State.combine, congrArg Host.Outcome.next work, rfl, State.combine_frame, .inl ⟨rfl, rfl, rfl⟩⟩
  · have work : s.actReleaseFirst = (s.setActing false).combine.1.beforeFrames.framesAround
        fun b => (b, (s.setActing false).combine.2) := by
      unfold State.actReleaseFirst
      exact if_pos acting
    have frame := (s.setActing false).combine_frame
    exact ⟨(s.setActing false).combine.1, _, congrArg Host.Outcome.next work, frame, fun _ => rfl, .inr ⟨rfl, rfl, rfl⟩⟩

end Sys2Proof.Machine
end

section
namespace Sys2Proof.Machine

/-! ## What the Distributor records (R12, R22 to R24) -/

theorem Framer.takeOldest_buffer (f : Framer) : f.takeOldest.buffer = f.buffer.drop 1 := by
  unfold Framer.takeOldest
  cases f.buffer with
  | nil => rfl
  | cons x xs => rfl

theorem Framer.takeOldest_gaps (f : Framer) :
    f.takeOldest.counters.gaps = if f.buffer = [] then satInc f.counters.gaps else f.counters.gaps := by
  unfold Framer.takeOldest
  cases f.buffer with
  | nil => rfl
  | cons x xs => rfl

/-- The map in a remote's frame, by what is configured (R23). -/
theorem State.mapOf_eq (s : State) (r : RemoteId) : s.mapOf r = match (s.live r).configured, s.sectorOf r with
    | true, some x => s.laneMap x
    | _, _ => LaneMap.idle := by
  unfold State.mapOf
  cases (s.live r).configured with
  | false => rfl
  | true => cases s.sectorOf r <;> rfl

theorem State.ActsBy.before {s p : State} {part : BoundaryPart} {f : State → State × DonorUplink} (h : s.ActsBy part p f) :
    p.beforeFrames.dist = { s.dist with ramps := p.beforeFrames.dist.ramps } ∧ p.beforeFrames.now = s.now ∧
      (∀ l, (s.framer l).SameReceive (p.beforeFrames.framer l)) := by
  have spares := p.beforeFrames_spares
  have start := h.start
  have dist : p.dist = s.dist := (congrArg State.dist start :)
  have clock : p.clock = s.clock := (congrArg State.clock start :)
  have links : p.links = s.links := (congrArg State.links start :)
  refine ⟨by rw [spares.dist, dist], by simp only [State.now, spares.clock, clock], fun l => ?_⟩
  rw [← State.framer_congr links l]
  exact spares.receive l

/-- Settles O15: the Distributor's state is the one that frame building leaves. -/
theorem distributorRecordsEachBoundary : Obligations.DistributorRecordsEachBoundary := by
  unfold Obligations.DistributorRecordsEachBoundary
  intro s part acting hpart
  obtain ⟨p, f, acts⟩ := s.actsBy acting hpart
  obtain ⟨dist, now, receive⟩ := acts.before
  have built := State.framesAround_built (w := p.beforeFrames) acts.release
  obtain ⟨donor, -, -⟩ := State.framesAround_framers (w := p.beforeFrames) acts.release
  refine ⟨_, acts.runs, ?_⟩
  generalize p.beforeFrames.framesAround f = t at *
  generalize p.beforeFrames = w at *
  have maps : ∀ x, t.dist.maps.get x = w.laneMap x := fun x => by rw [built.dist]; exact Tab.get_ofFn ..
  have lastMap : ∀ r, t.dist.lastMap.get r = w.mapOf r := fun r => by rw [built.dist]; exact Tab.get_ofFn ..
  have applied : ∀ r, t.dist.applied.get r = (w.supRec r).mode := fun r => by rw [built.dist]; exact Tab.get_ofFn ..
  have sup : t.sup = w.sup := (congrArg State.sup built.frame :)
  have map : t.map = w.map := (congrArg State.map built.frame :)
  have table : w.dist.carriers = s.dist.carriers := (congrArg Distributor.carriers dist :)
  have carriers : ∀ x, w.carriersOf x = s.carriersOf x := fun x => congrArg (fun d : Tab 12 Carrier =>
    (List.finRange 12).filter fun c => (d.get c).enabled && decide ((d.get c).sector = some x)) table
  refine ⟨fun x => ?_, fun r => ⟨?_, ?_, ?_⟩, fun n => ?_⟩
  · rw [maps, State.laneMap, carriers]; rfl
  · have sent : t.dist.sent.get r = (⟨w.now, w.mapOf r, (w.supRec r).mode⟩ :: w.dist.sent.get r).take 16 := by
      rw [built.dist]; exact Tab.get_mapIdx ..
    rw [sent, lastMap, applied, now, dist]
  · rw [applied, State.supRec_congr sup]
  · rw [lastMap, State.mapOf_eq]
    have live : t.live r = w.live r := congrArg (fun m : SectorMap => (m.remotes.get r).entry) map
    have sector : t.sectorOf r = w.sectorOf r := congrArg RemoteEntry.sector live
    rw [live, sector]
    cases (w.live r).configured with
    | false => rfl
    | true =>
      cases w.sectorOf r with
      | none => rfl
      | some x => exact (maps x).symm
  · have same := receive (.donor n)
    have buffer : (w.framer (.donor n)).buffer = (s.framer (.donor n)).buffer := (congrArg Framer.buffer same :)
    have gaps : (w.framer (.donor n)).counters.gaps = (s.framer (.donor n)).counters.gaps :=
      (congrArg (·.counters.gaps) same :)
    rw [donor n, ← buffer, ← gaps]
    exact ⟨Framer.takeOldest_buffer _, Framer.takeOldest_gaps _⟩

end Sys2Proof.Machine
end

section
namespace Sys2Proof.Machine

/-! ## What the switch and the ramp step of a boundary leave of the senders (R16, R17, R33, R78, R83) -/

/-- Every message boundary that was due is due, and no other; and no switch has fallen due. -/
structure DueKept (s t : State) : Prop where
  senders : ∀ l, .sender l ∈ t.boundary.due ↔ .sender l ∈ s.boundary.due
  switch : .switch ∈ t.boundary.due → .switch ∈ s.boundary.due

namespace DueKept

theorem of_eq {s t : State} (h : t.boundary = s.boundary) : DueKept s t := ⟨fun _ => by rw [h], fun k => by rwa [← h]⟩

theorem refl (s : State) : DueKept s s := of_eq rfl

theorem trans {s t u : State} (h : DueKept s t) (k : DueKept t u) : DueKept s u :=
  ⟨fun l => (k.senders l).trans (h.senders l), fun e => h.switch (k.switch e)⟩

theorem after {s t u : State} (k : DueKept t u) (h : t.boundary = s.boundary) : DueKept s u := (of_eq h).trans k

theorem ite {s t u : State} {c : Prop} [Decidable c] (h : DueKept s t) (k : DueKept s u) :
    DueKept s (if c then t else u) := by
  split
  · exact h
  · exact k

theorem foldl {α : Type} {f : State → α → State} (h : ∀ s a, DueKept s (f s a)) (xs : List α) (s : State) :
    DueKept s (xs.foldl f s) := by
  induction xs generalizing s with
  | nil => exact refl s
  | cons a xs ih => exact (h s a).trans (ih (f s a))

end DueKept

theorem State.unDue_dueKept (s : State) {e : Due} (h : ∀ l, Due.sender l ≠ e) : DueKept s (s.unDue e) :=
  ⟨fun l => State.mem_unDue.trans (and_iff_left (h l)), fun k => (State.mem_unDue.mp k).1⟩

theorem State.mem_markDue {s : State} {d e : Due} : e ∈ (s.markDue d).boundary.due ↔ e = d ∨ e ∈ s.boundary.due := by
  rw [State.due_markDue]
  split
  · have here : d ∈ s.boundary.due := List.contains_iff_mem.mp ‹_›
    exact ⟨.inr, fun h => h.elim (fun e => e ▸ here) id⟩
  · rw [List.mem_append, List.mem_singleton, or_comm]

theorem State.markDue_dueKept (s : State) {e : Due} (h : ∀ l, Due.sender l ≠ e) (k : Due.switch ≠ e) :
    DueKept s (s.markDue e) :=
  ⟨fun l => State.mem_markDue.trans (or_iff_right (h l)), fun m => (State.mem_markDue.mp m).resolve_left k⟩

/-! ### The end of a move, completions and recomputes -/

theorem State.tellHeld_dueKept (s : State) (rs : List RemoteId) (b : Bool) : DueKept s (s.tellHeld rs b) :=
  .foldl (f := fun s r => s.modSup r fun v => { v with held := b }) (fun _ _ => .of_eq rfl) rs s

theorem State.releaseHolds_dueKept (s : State) : DueKept s s.releaseHolds :=
  DueKept.trans (t := { s with engine := { s.engine with holdSet := [] } }) (.of_eq rfl)
    (State.tellHeld_dueKept _ s.engine.holdSet false)

theorem State.postEnd_dueKept (s : State) (m : MoveRecord) (o : MoveOutcome) : DueKept s (s.postEnd m o) := by
  unfold State.postEnd
  split
  · split <;> exact .of_eq rfl
  · exact .refl s
  · split
    · exact .of_eq rfl
    · exact .refl s

theorem State.adoptPlan_dueKept (s : State) (m : MoveRecord) (o : MoveOutcome) : DueKept s (s.adoptPlan m o) :=
  DueKept.ite (.of_eq rfl) (.refl s)

theorem State.engineRests_dueKept (s : State) : DueKept s s.engineRests :=
  (s.releaseHolds_dueKept.trans (State.unDue_dueKept _ (e := .switch) nofun)).trans (.of_eq rfl)

theorem State.askRetest_dueKept (s : State) : DueKept s s.askRetest := by
  unfold State.askRetest
  split
  · exact DueKept.ite (s.markDue_dueKept nofun nofun) (.refl s)
  · exact .refl s

theorem State.moveEnd_dueKept (s : State) (o : MoveOutcome) : DueKept s (s.moveEnd o) := by
  unfold State.moveEnd
  split
  · exact .refl s
  · rename_i m _
    refine DueKept.trans ?_ (State.askRetest_dueKept _)
    refine DueKept.trans ?_ (State.engineRests_dueKept _)
    refine DueKept.trans ?_ (State.postEnd_dueKept _ m o)
    exact (State.adoptPlan_dueKept _ m o).after rfl

theorem State.phaseDone_dueKept (s : State) : DueKept s s.phaseDone := by
  unfold State.phaseDone
  split
  · exact .of_eq rfl
  · exact s.moveEnd_dueKept _
  · exact s.moveEnd_dueKept _
  · exact .refl s

theorem State.leavePhase_dueKept (s : State) (r : RemoteId) : DueKept s (s.leavePhase r) := by
  unfold State.leavePhase
  simp only
  exact DueKept.ite (DueKept.ite ((State.phaseDone_dueKept _).after rfl) (.of_eq rfl)) (.refl s)

theorem State.engineRecompute_dueKept (s : State) (r : RemoteId) : DueKept s (s.engineRecompute r) :=
  DueKept.ite ((State.leavePhase_dueKept (s.beginRamp r) r).after rfl) (.of_eq rfl)

theorem State.reevalBoosts_boundary (s : State) (ys : List RemoteId) : (s.reevalBoosts ys).1.boundary = s.boundary := by
  unfold State.reevalBoosts
  suffices h : ∀ acc : State × List RemoteId, (ys.foldl (fun acc y =>
      let (s, ch) := acc.1.reevalBoost y
      (s, if ch then acc.2 ++ [y] else acc.2)) acc).1.boundary = acc.1.boundary from h (s, [])
  induction ys with
  | nil => exact fun _ => rfl
  | cons y ys ih => exact fun acc => ih _

theorem State.evalDegraded_boundary (s : State) (p : Bool) (x : SectorId) : (s.evalDegraded p x).boundary = s.boundary := by
  unfold State.evalDegraded
  simp only
  split
  · rfl
  · split <;> rfl

theorem State.evalSector_boundary (s : State) (x : Option SectorId) : (s.evalSector x).boundary = s.boundary := by
  cases x with
  | none => rfl
  | some x => exact s.evalDegraded_boundary true x

theorem State.joined_dueKept (s : State) (r : RemoteId) : DueKept s (s.joined r) := by
  unfold State.joined
  simp only
  refine DueKept.after (.foldl State.engineRecompute_dueKept _ _) ?_
  rw [State.evalSector_boundary, State.reevalBoosts_boundary]
  rfl

theorem State.completion_dueKept (s : State) (r : RemoteId) : DueKept s (s.completion r) :=
  (s.leavePhase_dueKept r).trans (DueKept.ite (State.joined_dueKept _ r) (.refl _))

theorem State.recompute_dueKept (s : State) (r : RemoteId) : DueKept s (s.recompute r) :=
  DueKept.ite ((State.completion_dueKept (s.beginRamp r) r).after rfl) (.of_eq rfl)

theorem State.recomputeAll_dueKept (s : State) (rs : List RemoteId) : DueKept s (s.recomputeAll rs) :=
  .foldl State.recompute_dueKept rs s

theorem State.evaluateAll_boundary (s : State) : s.evaluateAll.1.boundary = s.boundary := by
  have sectors : ∀ (xs : List SectorId) (t : State),
      (xs.foldl (fun s x => s.evalDegraded true x) t).boundary = t.boundary := by
    intro xs
    induction xs with
    | nil => exact fun _ => rfl
    | cons x xs ih => exact fun t => (ih _).trans (t.evalDegraded_boundary true x)
  unfold State.evaluateAll
  exact (sectors _ _).trans (s.reevalBoosts_boundary _)

/-! ### The switch and the ramp step -/

/-- What the switch and the ramp step leave of the senders, with no message boundary taken. -/
structure SendersKept (s t : State) : Prop where
  due : DueKept s t
  emission : ∀ l, (t.framer l).emission = (s.framer l).emission
  poll : ∀ l, (s.framer l).pollPlace = true → (t.framer l).pollPlace = true
  filled : ∃ qs, t.svc.filled = s.svc.filled ++ qs
  offer : t.events.offer = s.events.offer

namespace SendersKept

theorem trans {s t u : State} (h : SendersKept s t) (k : SendersKept t u) : SendersKept s u where
  due := h.due.trans k.due
  emission l := (k.emission l).trans (h.emission l)
  poll l e := k.poll l (h.poll l e)
  filled := by
    obtain ⟨qs, hq⟩ := h.filled
    obtain ⟨rs, kr⟩ := k.filled
    exact ⟨qs ++ rs, by rw [kr, hq, List.append_assoc]⟩
  offer := k.offer.trans h.offer

theorem of_links {s t : State} (due : DueKept s t) (links : t.links = s.links) (svc : t.svc = s.svc)
    (offer : t.events.offer = s.events.offer) : SendersKept s t where
  due := due
  emission l := by rw [State.framer_congr links]
  poll l := by rw [State.framer_congr links]; exact id
  filled := ⟨[], by rw [svc, List.append_nil]⟩
  offer := offer

theorem of_eq {s t : State} (boundary : t.boundary = s.boundary) (links : t.links = s.links) (svc : t.svc = s.svc)
    (events : t.events = s.events) : SendersKept s t := of_links (.of_eq boundary) links svc (by rw [events])

theorem refl (s : State) : SendersKept s s := of_eq rfl rfl rfl rfl

theorem ite {s t u : State} {c : Prop} [Decidable c] (h : SendersKept s t) (k : SendersKept s u) :
    SendersKept s (if c then t else u) := by
  split
  · exact h
  · exact k

theorem foldl {α : Type} {f : State → α → State} (h : ∀ s a, SendersKept s (f s a)) (xs : List α) (s : State) :
    SendersKept s (xs.foldl f s) := by
  induction xs generalizing s with
  | nil => exact refl s
  | cons a xs ih => exact (h s a).trans (ih (f s a))

end SendersKept

theorem EventQueue.Posted.offer {ks : List EventKind} {q p : EventQueue} (h : EventQueue.Posted ks q p) : p.offer = q.offer := by
  obtain ⟨es, -, rfl⟩ := h
  induction es generalizing q with
  | nil => rfl
  | cons e es ih => exact (ih (q := q.post e.kind e.subject e.tag e.detail e.firstFc)).trans (EventQueue.post_offer ..)

/-- A settling leaves the senders, but for what it makes due. -/
theorem Settles.sendersKept {s t : State} (h : Settles s t) (due : DueKept s t) : SendersKept s t :=
  .of_links due h.links h.svc h.events.offer

/-- Entry to FADE-IN touches the engine and the held flags alone (R78, R83). -/
theorem State.enterFadeIn_sendersKept (s : State) (m : MoveRecord) (phase : List RemoteId) (p : Option PlanMap) :
    SendersKept s (s.enterFadeIn m phase p) :=
  Settles.sendersKept ((State.releaseHolds_settles s).trans (State.setEngine_settles _ _))
    (s.releaseHolds_dueKept.trans (.of_eq rfl))

theorem State.recomputeAll_sendersKept (s : State) (rs : List RemoteId) : SendersKept s (s.recomputeAll rs) :=
  (s.recomputeAll_settles rs).sendersKept (s.recomputeAll_dueKept rs)

theorem State.reevalBoosts_sendersKept (s : State) (ys : List RemoteId) : SendersKept s (s.reevalBoosts ys).1 :=
  (s.reevalBoosts_settles ys).sendersKept (.of_eq (s.reevalBoosts_boundary ys))

theorem State.evalDegraded_sendersKept (s : State) (x : SectorId) : SendersKept s (s.evalDegraded true x) :=
  (s.evalDegraded_settles x).sendersKept (.of_eq (s.evalDegraded_boundary true x))

theorem State.evalSector_sendersKept (s : State) (x : Option SectorId) : SendersKept s (s.evalSector x) :=
  (s.evalSector_settles x).sendersKept (.of_eq (s.evalSector_boundary x))

theorem State.singleSwitch_sendersKept (s : State) : SendersKept s s.singleSwitch := by
  unfold State.singleSwitch
  split
  · rename_i m _
    split
    · rename_i r x y ps _
      refine SendersKept.trans ?_ (State.recomputeAll_sendersKept _ _)
      refine SendersKept.trans ?_ (State.evalDegraded_sendersKept _ _)
      refine SendersKept.trans ?_ (State.evalSector_sendersKept _ _)
      refine SendersKept.trans ?_ (State.reevalBoosts_sendersKept (State.enterFadeIn _ m [r] none) (withFirst r _))
      refine SendersKept.trans ?_ (State.enterFadeIn_sendersKept _ _ _ _)
      exact SendersKept.ite (.of_eq rfl rfl rfl rfl) (.of_eq rfl rfl rfl rfl)
    · exact .refl s
  · exact .refl s

end Sys2Proof.Machine
end

section
namespace Sys2Proof.Machine

/-! ## The switch of a batch and the ramp step, for the senders (R33, R83, R113, R121) -/

theorem State.unDue_sendersKept (s : State) {e : Due} (h : ∀ l, Due.sender l ≠ e) : SendersKept s (s.unDue e) :=
  .of_links (s.unDue_dueKept h) rfl rfl rfl

/-- A change of one framer leaves the senders, when the emission and a waiting POLL stay. -/
theorem SendersKept.of_framer {s t : State} {l : Link} {f : Framer → Framer} (due : DueKept s t)
    (links : t.links = (s.modFramer l f).links) (emission : ∀ x, (f x).emission = x.emission)
    (poll : ∀ x, x.pollPlace = true → (f x).pollPlace = true) (filled : ∃ qs, t.svc.filled = s.svc.filled ++ qs)
    (offer : t.events.offer = s.events.offer) : SendersKept s t where
  due := due
  emission k := by
    rw [State.framer_congr links, State.framer_modFramer]
    split
    · exact emission _
    · rfl
  poll k e := by
    rw [State.framer_congr links, State.framer_modFramer]
    split
    · rename_i h; exact poll _ (h ▸ e)
    · exact e
  filled := filled
  offer := offer

/-- What ends a pass-through leaves the senders, but for the answer it fills. -/
theorem State.endPass_sendersKept (s : State) (r : RemoteId) (st : Status) (b : List Byte) :
    SendersKept s (s.endPass r st b) := by
  cases h : s.svc.pass.get r with
  | none => rw [State.endPass_none h]; exact .refl s
  | some p =>
    rw [State.endPass_some h]
    have due := (s.unDue_dueKept (e := .passTimeout r) nofun).trans (State.unDue_dueKept _ (e := .retryEnd r) nofun)
    exact .of_framer (f := Framer.copiesOnly) ⟨due.senders, due.switch⟩ rfl (fun _ => rfl) (fun _ => id) ⟨_, rfl⟩ rfl

theorem State.abortPass_sendersKept (s : State) (r : RemoteId) : SendersKept s (s.abortPass r) :=
  s.endPass_sendersKept r .aborted []

theorem State.vacate_sendersKept (s : State) (r : RemoteId) : SendersKept s (s.vacate r) := by
  refine SendersKept.trans ?_ (State.abortPass_sendersKept _ r)
  refine SendersKept.trans (t := (State.unDue _ _).unDue _) ?_ (.of_eq rfl rfl rfl rfl)
  refine SendersKept.trans ?_ (State.unDue_sendersKept _ nofun)
  refine SendersKept.trans ?_ (State.unDue_sendersKept _ nofun)
  exact .of_eq rfl rfl rfl rfl

theorem State.queuePoll_sendersKept (s : State) (r : RemoteId) : SendersKept s (s.queuePoll r) :=
  .of_framer (f := fun f => { f with pollPlace := true }) (.of_eq rfl) rfl (fun _ => rfl) (fun _ _ => rfl)
    ⟨[], (List.append_nil _).symm⟩ rfl

theorem State.bringIn_sendersKept (s : State) (r : RemoteId) : SendersKept s (s.bringIn r) := by
  unfold State.bringIn State.pollIfLocked
  refine SendersKept.trans ?_ (.ite (State.queuePoll_sendersKept _ r) (.refl _))
  exact .of_eq rfl rfl rfl rfl

theorem State.deriveMode_sendersKept (s : State) (r : RemoteId) : SendersKept s (s.deriveMode r) :=
  .of_eq rfl rfl rfl rfl

theorem State.applyConfigured_sendersKept (s : State) (r : RemoteId) (was : Bool) :
    SendersKept s (s.applyConfigured r was) := by
  unfold State.applyConfigured
  refine SendersKept.trans ?_ (State.deriveMode_sendersKept _ r)
  exact SendersKept.ite (s.vacate_sendersKept r) (SendersKept.ite (s.bringIn_sendersKept r) (.refl s))

theorem State.writeHistory_sendersKept (s : State) (r : RemoteId) : SendersKept s (s.writeHistory r) :=
  .of_eq rfl rfl rfl rfl

theorem State.clearHoming_sendersKept (s : State) (r : RemoteId) : SendersKept s (s.clearHoming r) :=
  .of_eq rfl rfl rfl rfl

theorem State.setLive_sendersKept (s : State) (r : RemoteId) (v : LiveRemote) : SendersKept s (s.setLive r v) :=
  .of_eq rfl rfl rfl rfl

theorem State.setSectors_sendersKept (s : State) (t : Tab 8 SectorEntry) : SendersKept s (s.setSectors t) :=
  .of_eq rfl rfl rfl rfl

theorem State.applyEntry_sendersKept (s : State) (r : RemoteId) (e : RemoteEntry) : SendersKept s (s.applyEntry r e) := by
  unfold State.applyEntry
  refine SendersKept.trans ?_ (State.setLive_sendersKept _ r e.asLive)
  refine SendersKept.trans (t := if (s.map.remotes.get r).entry.sector = e.place then s else s.writeHistory r) ?_ ?_
  · exact SendersKept.ite (.refl s) (s.writeHistory_sendersKept r)
  · exact SendersKept.ite (.refl _) (State.clearHoming_sendersKept _ r)

theorem State.applyMap_sendersKept (s : State) (new : PlanMap) : SendersKept s (s.applyMap new) := by
  unfold State.applyMap
  refine SendersKept.trans ?_ (State.setSectors_sendersKept _ _)
  exact .foldl (f := fun s r => s.applyEntry r (new.remotes.get r)) (fun s r => s.applyEntry_sendersKept r _) _ s

theorem State.applyHealths_sendersKept (s before : State) : SendersKept s (s.applyHealths before) :=
  .foldl (f := fun s r => s.applyConfigured r (before.live r).configured) (fun s r => s.applyConfigured_sendersKept r _) _ s

theorem State.moveEnd_sendersKept (s : State) (o : MoveOutcome) : SendersKept s (s.moveEnd o) :=
  (s.moveEnd_settles o).sendersKept (s.moveEnd_dueKept o)

theorem State.evaluateAll_sendersKept (s : State) : SendersKept s s.evaluateAll.1 :=
  s.evaluateAll_settles.sendersKept (.of_eq s.evaluateAll_boundary)

theorem State.wholeSwitch_sendersKept (s : State) : SendersKept s s.wholeSwitch := by
  unfold State.wholeSwitch
  split
  · rename_i m new _ _
    have begun : SendersKept s (((s.applyMap new).applyHealths s).enterFadeIn m
        (m.fading.filter fun r => decide (((s.applyMap new).applyHealths s).health r ≠ .vacant)) (some new)).evaluateAll.1 := by
      refine SendersKept.trans ?_ (State.evaluateAll_sendersKept _)
      refine SendersKept.trans ?_ (State.enterFadeIn_sendersKept _ _ _ _)
      exact (s.applyMap_sendersKept new).trans (State.applyHealths_sendersKept _ s)
    simp only
    generalize State.evaluateAll _ = v at begun ⊢
    have all : ∀ rs, SendersKept s (v.1.recomputeAll rs) := fun rs => begun.trans (v.1.recomputeAll_sendersKept rs)
    split
    · exact (all _).trans (State.moveEnd_sendersKept _ _)
    · exact all _
  · exact .refl s

theorem State.switchFalls_sendersKept (s : State) : SendersKept s s.switchFalls :=
  .ite (.ite s.wholeSwitch_sendersKept s.singleSwitch_sendersKept) (.refl s)

/-- The completions of a ramp step are settlings. -/
theorem State.completions_settle (s : State) (rs : List RemoteId) : Settles s (rs.foldl State.completion s) :=
  .foldl State.completion_settles rs s

theorem State.rampStep_sendersKept (s : State) : SendersKept s s.rampStep := by
  unfold State.rampStep
  refine SendersKept.trans ?_ ((State.completions_settle _ _).sendersKept (.foldl State.completion_dueKept _ _))
  exact .of_eq rfl rfl rfl rfl

/-- The ramp step changes no link and nothing of the message service. -/
theorem State.rampStep_links (s : State) : s.rampStep.links = s.links ∧ s.rampStep.svc = s.svc := by
  unfold State.rampStep
  exact ⟨(State.completions_settle _ _).links, (State.completions_settle _ _).svc⟩

end Sys2Proof.Machine
end

section
namespace Sys2Proof.Machine

/-! ## The message boundaries taken one after another (R4, R16, R17, R145, R164) -/

/-- The DONE of the set relay that has ended between these two states of the Relay (R164). -/
def Service.ended (v w : Service) : List Response :=
  match v.setRelay, w.setRelay with
  | some x, none => if .setRelay ∈ v.reserved then [x.done] else []
  | _, _ => []

/-- A set relay that was running is running with its place, or has ended; with none running there is none. -/
def Service.RelayGoesOn (v w : Service) : Prop :=
  match v.setRelay with
  | none => w.setRelay = none
  | some x => w.setRelay = none ∨
      ∃ y, w.setRelay = some y ∧ y.done = x.done ∧ (Reservation.setRelay ∈ w.reserved ↔ Reservation.setRelay ∈ v.reserved)

/-- The responses of the link that wait in the response queue, the oldest first. -/
def ofLink (l : MsgLink) (qs : List Response) : List Response := qs.filter fun q => decide (q.link = l)

theorem ofLink_append (l : MsgLink) (qs rs : List Response) : ofLink l (qs ++ rs) = ofLink l qs ++ ofLink l rs :=
  List.filter_append ..

/-- What the message boundaries of these links leave. -/
structure LinksStart (ls : List Link) (s t : State) : Prop where
  frame : t = { s with links := t.links, svc := t.svc, events := t.events, boundary := { s.boundary with due := t.boundary.due } }
  svc : t.svc = { s.svc with
    refused := t.svc.refused, setRelay := t.svc.setRelay, filled := t.svc.filled, reserved := t.svc.reserved }
  framers : ∀ k, k ∉ ls → t.framer k = s.framer k
  due : ∀ k, k ∉ ls → (.sender k ∈ t.boundary.due ↔ .sender k ∈ s.boundary.due)
  events : .service ∉ ls → t.events = s.events
  relay : (∀ r, .remote r ∉ ls) → t.svc = { s.svc with filled := t.svc.filled }
  goesOn : s.svc.RelayGoesOn t.svc
  waiting : ∀ l, linkOf l ∉ ls → ofLink l t.svc.filled = ofLink l (s.svc.filled ++ s.svc.ended t.svc)

theorem Service.ended_of_eq {v w : Service} (h : w.setRelay = v.setRelay) : v.ended w = [] := by
  unfold Service.ended
  rw [h]
  cases v.setRelay <;> rfl

theorem Service.waiting_of_eq {v w : Service} (l : MsgLink) (f : w.filled = v.filled) (h : w.setRelay = v.setRelay) :
    ofLink l w.filled = ofLink l (v.filled ++ v.ended w) := by
  rw [Service.ended_of_eq h, List.append_nil, f]

theorem Service.goesOn_of_eq {v w : Service} (h : w.setRelay = v.setRelay) (r : w.reserved = v.reserved) : v.RelayGoesOn w := by
  unfold Service.RelayGoesOn
  cases e : v.setRelay with
  | none => exact h.trans e
  | some x => exact .inr ⟨x, h.trans e, rfl, by rw [r]⟩

theorem Service.RelayGoesOn.trans {u v w : Service} (h : u.RelayGoesOn v) (k : v.RelayGoesOn w) : u.RelayGoesOn w := by
  unfold Service.RelayGoesOn at *
  cases e : u.setRelay with
  | none =>
    simp only [e] at h
    simp only [h] at k
    exact k
  | some x =>
    simp only [e] at h
    rcases h with h | ⟨y, hy, done, place⟩
    · simp only [h] at k
      exact .inl k
    · simp only [hy] at k
      rcases k with k | ⟨z, hz, done', place'⟩
      · exact .inl k
      · exact .inr ⟨z, hz, done'.trans done, place'.trans place⟩

/-- A set relay ends once. -/
theorem Service.ended_trans {u v w : Service} (h : u.RelayGoesOn v) (k : v.RelayGoesOn w) :
    u.ended w = u.ended v ++ v.ended w := by
  unfold Service.RelayGoesOn Service.ended at *
  cases e : u.setRelay with
  | none =>
    simp only [e] at h
    simp only [h] at k ⊢
    rfl
  | some x =>
    simp only [e] at h
    rcases h with h | ⟨y, hy, done, place⟩
    · simp only [h] at k ⊢
      simp only [k, List.append_nil]
    · simp only [hy, List.nil_append] at k ⊢
      cases w.setRelay with
      | none => simp only [done, place]
      | some z => rfl

namespace LinksStart

variable {ls ms : List Link} {s t u : State}

theorem refl (s : State) : LinksStart [] s s where
  frame := rfl
  svc := rfl
  framers _ _ := rfl
  due _ _ := Iff.rfl
  events _ := rfl
  relay _ := rfl
  goesOn := Service.goesOn_of_eq rfl rfl
  waiting l _ := Service.waiting_of_eq l rfl rfl

theorem trans (h : LinksStart ls s t) (k : LinksStart ms t u) : LinksStart (ls ++ ms) s u where
  frame := by rw [k.frame, h.frame]
  svc := by rw [k.svc, h.svc]
  framers l hl := by
    obtain ⟨hls, hms⟩ := not_or.mp (mt List.mem_append.mpr hl)
    exact (k.framers l hms).trans (h.framers l hls)
  due l hl := by
    obtain ⟨hls, hms⟩ := not_or.mp (mt List.mem_append.mpr hl)
    exact (k.due l hms).trans (h.due l hls)
  events hl := by
    obtain ⟨hls, hms⟩ := not_or.mp (mt List.mem_append.mpr hl)
    exact (k.events hms).trans (h.events hls)
  relay hr := by
    rw [k.relay fun r e => hr r (List.mem_append_right _ e), h.relay fun r e => hr r (List.mem_append_left _ e)]
  goesOn := h.goesOn.trans k.goesOn
  waiting l hl := by
    obtain ⟨hls, hms⟩ := not_or.mp (mt List.mem_append.mpr hl)
    have first := h.waiting l hls
    rw [k.waiting l hms, ofLink_append, first, Service.ended_trans h.goesOn k.goesOn, ← ofLink_append, List.append_assoc]

theorem mono (h : LinksStart ls s t) (sub : ls ⊆ ms) : LinksStart ms s t where
  frame := h.frame
  svc := h.svc
  framers l hl := h.framers l fun e => hl (sub e)
  due l hl := h.due l fun e => hl (sub e)
  events hl := h.events fun e => hl (sub e)
  relay hr := h.relay fun r e => hr r (sub e)
  goesOn := h.goesOn
  waiting l hl := h.waiting l fun e => hl (sub e)

end LinksStart

/-! ### One message boundary -/

/-- A message boundary that has been taken (log entry 2). -/
def State.startLink (s : State) (l : Link) : State := (s.startAny l).unDue (.sender l)

theorem State.sender_unDue {s : State} {k l : Link} (h : k ≠ l) :
    .sender k ∈ (s.unDue (.sender l)).boundary.due ↔ .sender k ∈ s.boundary.due :=
  State.mem_unDue.trans (and_iff_left fun e => h (by cases e; rfl))

theorem LinksStart.unDue {l : Link} {s t : State} (h : LinksStart [l] s t) : LinksStart [l] s (t.unDue (.sender l)) where
  frame := by
    have frame := h.frame
    generalize t.boundary.due = d at frame
    rw [frame]; rfl
  svc := h.svc
  framers := h.framers
  due k hk := (State.sender_unDue (by simpa using hk)).trans (h.due k hk)
  events := h.events
  relay := h.relay
  goesOn := h.goesOn
  waiting := h.waiting

/-- What starts on a link changes its framer, and of the boundary whether its message boundary is due. -/
theorem LinksStart.of_framer {l : Link} {f : Framer → Framer} {s t : State}
    (frame : t = { s.modFramer l f with
      svc := t.svc, events := t.events, boundary := { s.boundary with due := t.boundary.due } })
    (due : t.boundary.due = s.boundary.due ∨ t.boundary.due = (s.unDue (.sender l)).boundary.due)
    (svc : t.svc = { s.svc with
      refused := t.svc.refused, setRelay := t.svc.setRelay, filled := t.svc.filled, reserved := t.svc.reserved })
    (events : l ≠ .service → t.events = s.events)
    (relay : (∀ r, .remote r ≠ l) → t.svc = { s.svc with filled := t.svc.filled })
    (goesOn : s.svc.RelayGoesOn t.svc)
    (waiting : ∀ m, linkOf m ≠ l → ofLink m t.svc.filled = ofLink m (s.svc.filled ++ s.svc.ended t.svc)) :
    LinksStart [l] s t where
  frame := by rw [frame]; cases l <;> rfl
  svc := svc
  framers k hk := by
    have links : t.links = (s.modFramer l f).links := (congrArg State.links frame :)
    rw [State.framer_congr links, State.framer_modFramer, if_neg (Ne.symm (by simpa using hk))]
  due k hk := by
    rcases due with due | due
    · rw [due]
    · rw [due]; exact State.sender_unDue (by simpa using hk)
  events h := events fun e => h (by rw [e]; exact List.mem_singleton_self _)
  relay h := relay fun r e => h r (by rw [e]; exact List.mem_singleton_self _)
  goesOn := goesOn
  waiting m hm := waiting m (by simpa using hm)

/-- A message that starts with the Relay's state as it was. -/
theorem LinksStart.of_emission {l : Link} {f : Framer → Framer} {s : State} :
    LinksStart [l] s ((s.modFramer l f).unDue (.sender l)) := by
  have svc : ((s.modFramer l f).unDue (.sender l)).svc = s.svc := s.modFramer_svc l f
  refine .of_framer (f := f) ?_ (.inr ?_) (by rw [svc]) (fun _ => s.modFramer_events l f) (fun _ => by rw [svc])
    (by rw [svc]; exact Service.goesOn_of_eq rfl rfl) fun m _ => by rw [svc]; exact Service.waiting_of_eq m rfl rfl
  · cases l <;> rfl
  · exact congrArg (fun b : Boundary => (b.due.filter fun d => decide (d ≠ .sender l))) (s.modFramer_boundary l f)

/-- The oldest response for the link, as the response queue holds it. -/
theorem oldest_response {l : MsgLink} {qs : List Response} {q : Response}
    (h : qs.find? (fun q => decide (q.link = l)) = some q) :
    q.link = l ∧ ∃ before after, qs = before ++ q :: after ∧ ∀ p ∈ before, p.link ≠ l := by
  obtain ⟨here, before, after, split, none⟩ := List.find?_eq_some_iff_append.mp h
  exact ⟨of_decide_eq_true here, before, after, split, fun p hp => by simpa using none p hp⟩

theorem no_response {l : MsgLink} {qs : List Response} (h : qs.find? (fun q => decide (q.link = l)) = none) :
    ∀ q ∈ qs, q.link ≠ l := fun q hq => by simpa using List.find?_eq_none.mp h q hq

theorem State.startResponse_links (s : State) (l : MsgLink) : LinksStart [linkOf l] s (s.startResponse l) := by
  cases free : s.senderFree (linkOf l) with
  | false => rw [State.startResponse_nothing (.inl free)]; exact (LinksStart.refl s).mono (List.nil_subset _)
  | true =>
    cases first : s.svc.filled.find? (fun q => decide (q.link = l)) with
    | none => rw [State.startResponse_nothing (.inr (no_response first))]; exact (LinksStart.refl s).mono (List.nil_subset _)
    | some p =>
      obtain ⟨here, before, after, split, others⟩ := oldest_response first
      rw [State.startResponse_oldest free split others here]
      refine .of_framer (f := fun f => { f with emission := some ⟨.response p.restart, responseSlots p⟩ })
        ?_ (.inr ?_) rfl (fun _ => ?_) (fun _ => rfl) (Service.goesOn_of_eq rfl rfl) fun m hm => ?_
      · cases l <;> rfl
      · cases l <;> rfl
      · cases l <;> rfl
      · have other : ¬decide (p.link = m) = true := by
          rw [here, decide_eq_true_eq]
          exact fun e => hm (by rw [e])
        have kept : ofLink m (before ++ after) = ofLink m s.svc.filled := by
          rw [split, ofLink_append, ofLink_append, ofLink, ofLink, ofLink,
            List.filter_cons_of_neg (p := fun q : Response => decide (q.link = m)) other]
        exact kept.trans (Service.waiting_of_eq (v := s.svc) (w := s.svc) m rfl rfl)

/-- What the offered notice holds, and what it leaves of the Event Queue (R145). -/
def EventQueue.noticed (q : EventQueue) : EventQueue := { (q.take 4).2 with seq := q.seq + 1, offer := false }

def EventQueue.notice (q : EventQueue) : Emission :=
  ⟨.notice, noticeSlots q.seq (encEvents q.overflow (q.take 4).2.records.length (q.take 4).1)⟩

theorem State.startNotice_taken {s : State}
    (h : (s.senderFree .service && !s.hasResponse .service && s.events.offer) = true) : s.startNotice =
      { s.modFramer .service fun f => { f with emission := some s.events.notice } with
        events := s.events.noticed }.unDue (.sender .service) := by
  unfold State.startNotice
  rw [if_pos h]
  rfl

theorem State.startNotice_nothing {s : State}
    (h : ¬(s.senderFree .service && !s.hasResponse .service && s.events.offer) = true) : s.startNotice = s := if_neg h

theorem State.startNotice_links (s : State) : LinksStart [.service] s s.startNotice := by
  by_cases h : (s.senderFree .service && !s.hasResponse .service && s.events.offer) = true
  · rw [State.startNotice_taken h]
    exact .of_framer (f := fun f => { f with emission := some s.events.notice }) rfl (.inr rfl) rfl (fun h => absurd rfl h)
      (fun _ => rfl) (Service.goesOn_of_eq rfl rfl) fun m _ => Service.waiting_of_eq m rfl rfl
  · rw [State.startNotice_nothing h]
    exact (LinksStart.refl s).mono (List.nil_subset _)

/-- A port's leave of the set relay fills a place with DONE where it ends it (R164). -/
theorem Service.left_relay (v : Service) (r : RemoteId) :
    v.RelayGoesOn (v.left r) ∧ (v.left r).filled = v.filled ++ v.ended (v.left r) := by
  unfold Service.RelayGoesOn Service.ended
  cases h : v.setRelay with
  | none => rw [Service.left_none r h]; exact ⟨h, (List.append_nil _).symm⟩
  | some w =>
    by_cases last : w.remaining.erase r = []
    · rw [Service.left_last h last]; exact ⟨.inl rfl, rfl⟩
    · rw [Service.left_more h last]; exact ⟨.inr ⟨_, rfl, rfl, Iff.rfl⟩, (List.append_nil _).symm⟩

theorem Service.left_withRefused (v : Service) (r : RemoteId) (x : Tab 16 (List Relayed)) :
    let w := Service.left { v with refused := x } r
    w = { v with refused := w.refused, setRelay := w.setRelay, filled := w.filled, reserved := w.reserved } := by
  have frame := Service.left_frame { v with refused := x } r
  intro w
  have refused : w.refused = x := (congrArg Service.refused frame :)
  rw [refused]
  exact frame

theorem State.reoffer_links (s : State) (r : RemoteId) : LinksStart [.remote r] s (s.reoffer r) := by
  have same : LinksStart [.remote r] s s := (LinksStart.refl s).mono (List.nil_subset _)
  unfold State.reoffer
  split
  · exact same
  · rename_i m ms _
    split
    · rw [State.acceptOffer_eq]
      cases m.copy with
      | false =>
        refine .of_framer (f := Framer.enqueue m) rfl (.inl rfl) rfl (fun _ => rfl) (fun h => absurd rfl (h r))
          (Service.goesOn_of_eq rfl rfl) fun l _ => Service.waiting_of_eq l rfl rfl
      | true =>
        obtain ⟨goesOn, filled⟩ := Service.left_relay { s.svc with refused := s.svc.refused.set r ms } r
        refine .of_framer (f := Framer.enqueue m) rfl (.inl rfl) ?_ (fun _ => rfl) (fun h => absurd rfl (h r))
          goesOn fun l _ => congrArg (ofLink l) filled
        exact Service.left_withRefused s.svc r _
    · exact same

theorem State.startRemote_links (s : State) (r : RemoteId) : LinksStart [.remote r] s (s.startRemote r) := by
  have same : LinksStart [.remote r] s s := (LinksStart.refl s).mono (List.nil_subset _)
  cases free : s.senderFree (.remote r) with
  | false => rw [State.startRemote_nothing (.inl free)]; exact same
  | true =>
    cases poll : (s.framer (.remote r)).pollPlace with
    | true => rw [State.startRemote_poll free poll]; exact .of_emission
    | false =>
      cases queue : (s.framer (.remote r)).relayQueue with
      | nil => rw [State.startRemote_nothing (.inr ⟨poll, queue⟩)]; exact same
      | cons m ms =>
        rw [State.startRemote_relayed free poll queue]
        exact (LinksStart.of_emission.trans (State.reoffer_links _ r)).mono (by simp)

theorem State.startAny_links (s : State) (l : Link) : LinksStart [l] s (s.startAny l) := by
  cases l with
  | donor n => exact s.startResponse_links (.donor n)
  | remote r => exact s.startRemote_links r
  | service => exact ((s.startResponse_links .service).trans (State.startNotice_links _)).mono (by simp [linkOf])

theorem State.startLink_links (s : State) (l : Link) : LinksStart [l] s (s.startLink l) := (s.startAny_links l).unDue

/-- The message boundaries of these links, taken in this order. -/
def State.startLinks (s : State) (ls : List Link) : State := ls.foldl State.startLink s

theorem State.startLinks_links (s : State) (ls : List Link) : LinksStart ls s (s.startLinks ls) := by
  induction ls generalizing s with
  | nil => exact .refl s
  | cons l ls ih => exact (s.startLink_links l).trans (ih (s.startLink l))

theorem State.startSenders_eq (s : State) : s.startSenders = s.startLinks allLinks := rfl

end Sys2Proof.Machine
end

section
namespace Sys2Proof.Machine

/-! ## What each link has in emission once every message boundary is taken (R16, R17, R145) -/

theorem State.startAny_busy {s : State} {l : Link} (h : s.senderFree l = false) : s.startAny l = s := by
  cases l with
  | donor n => exact State.startResponse_nothing (l := .donor n) (.inl h)
  | remote r => exact State.startRemote_nothing (.inl h)
  | service =>
    have idle : s.startResponse .service = s := State.startResponse_nothing (l := .service) (.inl h)
    show (s.startResponse .service).startNotice = s
    rw [idle]
    exact State.startNotice_nothing (by simp [h])

section Turns

variable {s : State}

theorem State.startResponse_emission {l : MsgLink} {q : Response} (free : s.senderFree (linkOf l) = true)
    (first : s.svc.filled.find? (fun q => decide (q.link = l)) = some q) :
    ((s.startResponse l).framer (linkOf l)).emission = some ⟨.response q.restart, responseSlots q⟩ ∧
      (s.startResponse l).senderFree (linkOf l) = false ∧ (s.startResponse l).events = s.events := by
  obtain ⟨here, before, after, split, others⟩ := oldest_response first
  rw [State.startResponse_oldest free split others here]
  refine ⟨?_, Bool.eq_false_iff.mpr fun h => ?_, ?_⟩
  · exact congrArg Framer.emission ((State.framer_congr rfl _).trans
      (s.framer_modFramer_self _ fun f => { f with emission := some ⟨.response q.restart, responseSlots q⟩ }))
  · obtain ⟨due, -⟩ := (State.senderFree_iff _ _).mp h
    exact (State.mem_unDue.mp due).2 rfl
  · cases l <;> rfl

theorem State.startResponse_none {l : MsgLink} (first : s.svc.filled.find? (fun q => decide (q.link = l)) = none) :
    s.startResponse l = s := State.startResponse_nothing (.inr (no_response first))

/-- S starts its oldest response. -/
theorem State.startService_response {q : Response} (free : s.senderFree .service = true)
    (first : s.svc.filled.find? (fun q => decide (q.link = .service)) = some q) :
    ((s.startAny .service).framer .service).emission = some ⟨.response q.restart, responseSlots q⟩ ∧
      (s.startAny .service).events = s.events := by
  obtain ⟨emission, busy, events⟩ := State.startResponse_emission (l := .service) free first
  have busy : (s.startResponse .service).senderFree .service = false := busy
  have rest : s.startAny .service = s.startResponse .service := State.startNotice_nothing (by simp [busy])
  rw [rest]
  exact ⟨emission, events⟩

theorem State.startService_notice (first : s.svc.filled.find? (fun q => decide (q.link = .service)) = none) :
    s.startAny .service = s.startNotice := by
  show (s.startResponse .service).startNotice = _
  rw [State.startResponse_none first]

theorem State.hasResponse_none {l : MsgLink} (first : s.svc.filled.find? (fun q => decide (q.link = l)) = none) :
    s.hasResponse l = false := (s.hasResponse_eq_false l).mpr (no_response first)

theorem State.reoffer_emission (s : State) (r : RemoteId) (l : Link) :
    ((s.reoffer r).framer l).emission = (s.framer l).emission := by
  unfold State.reoffer
  split
  · rfl
  · rename_i m ms _
    split
    · rw [State.acceptOffer_eq]
      refine (congrArg Framer.emission ((State.framer_congr rfl l).trans (State.framer_modFramer _ _ _ _))).trans ?_
      split <;> rfl
    · rfl

end Turns

/-! ### Each link's turn -/

theorem LinksStart.senderFree {ls : List Link} {s t : State} (h : LinksStart ls s t) {l : Link} (hl : l ∉ ls) :
    t.senderFree l = s.senderFree l := by
  rw [Bool.eq_iff_iff, State.senderFree_iff, State.senderFree_iff, h.due l hl, h.framers l hl]

theorem LinksStart.oldest {ls : List Link} {s t : State} (h : LinksStart ls s t) {l : MsgLink} (hl : linkOf l ∉ ls) :
    t.svc.filled.find? (fun q => decide (q.link = l)) =
      (s.svc.filled ++ s.svc.ended t.svc).find? fun q => decide (q.link = l) := by
  rw [← List.head?_filter, ← List.head?_filter]
  exact congrArg List.head? (h.waiting l hl)

/-- The turn of link l: v is what the links before it leave, and w what all leave. -/
structure TurnOf (l : Link) (u v w : State) : Prop where
  framer : v.framer l = u.framer l
  free : v.senderFree l = u.senderFree l
  after : w.framer l = (v.startAny l).framer l
  donor : ∀ n, l = .donor n → v.svc.filled.find? (fun q => decide (q.link = .donor n)) =
    u.svc.filled.find? fun q => decide (q.link = .donor n)
  service : l = .service → w = v.startLink .service ∧ v.events = u.events ∧
    v.svc.filled.find? (fun q => decide (q.link = .service)) =
      (u.svc.filled ++ u.svc.ended v.svc).find? fun q => decide (q.link = .service)

theorem State.startLinks_append (s : State) (ls ms : List Link) : s.startLinks (ls ++ ms) = (s.startLinks ls).startLinks ms :=
  List.foldl_append ..

theorem allLinks_nodup : allLinks.Nodup := by decide

/-- Every link has its turn: donor links before all remote links, and S after all others (log entry 2). -/
theorem allLinks_split (l : Link) : ∃ before after, allLinks = before ++ l :: after ∧
    (∀ n, l = .donor n → ∀ r, .remote r ∉ before) ∧ (l = .service → after = []) := by
  cases l with
  | donor n =>
    obtain ⟨a, b, h⟩ := List.append_of_mem (List.mem_finRange n)
    refine ⟨a.map .donor, b.map .donor ++ (List.finRange 16).map .remote ++ [.service], ?_, fun _ _ r => by simp, nofun⟩
    simp only [allLinks, h, List.map_append, List.map_cons, List.append_assoc, List.cons_append]
  | remote r =>
    obtain ⟨a, b, h⟩ := List.append_of_mem (List.mem_finRange r)
    refine ⟨(List.finRange 4).map .donor ++ a.map .remote, b.map .remote ++ [.service], ?_, nofun, nofun⟩
    simp only [allLinks, h, List.map_append, List.map_cons, List.append_assoc, List.cons_append]
  | service => exact ⟨_, [], rfl, nofun, fun _ => rfl⟩

theorem State.startSenders_turn (u : State) (l : Link) : ∃ v, TurnOf l u v u.startSenders := by
  obtain ⟨before, after, split, donors, last⟩ := allLinks_split l
  have nodup := allLinks_nodup
  rw [split, List.nodup_middle, List.nodup_cons, List.mem_append, not_or] at nodup
  obtain ⟨⟨new, done⟩, -⟩ := nodup
  have first := u.startLinks_links before
  have rest := ((u.startLinks before).startLink l).startLinks_links after
  have all : u.startSenders = ((u.startLinks before).startLink l).startLinks after := by
    rw [State.startSenders_eq, split, State.startLinks_append]; rfl
  rw [← all] at rest
  refine ⟨u.startLinks before, first.framers l new, first.senderFree new, rest.framers l done, fun n hn => ?_, fun hs => ?_⟩
  · subst hn
    have stands : (u.startLinks before).svc.setRelay = u.svc.setRelay :=
      (congrArg Service.setRelay (first.relay (donors n rfl)) :)
    rw [first.oldest (l := .donor n) new, Service.ended_of_eq stands, List.append_nil]
  · subst hs
    refine ⟨by rw [all, last rfl]; rfl, first.events new, first.oldest (l := .service) new⟩

/-- The oldest response that waits for a link at its turn; S finds the DONE that the starts of the remote links have
brought (log entry 2). -/
def Service.oldestFor (v w : Service) (l : MsgLink) : Option Response :=
  (match l with | .service => v.filled ++ v.ended w | .donor _ => v.filled).find? fun q => decide (q.link = l)

section Senders

variable {u : State}

theorem State.startSenders_busy {l : Link} (h : u.senderFree l = false) :
    (u.startSenders.framer l).emission = (u.framer l).emission := by
  obtain ⟨v, turn⟩ := u.startSenders_turn l
  rw [turn.after, State.startAny_busy (turn.free.trans h), turn.framer]

/-- The Relay's part of S's turn is done before it. -/
theorem TurnOf.ended {u v w : State} (turn : TurnOf .service u v w) : u.svc.ended w.svc = u.svc.ended v.svc := by
  obtain ⟨rfl, -⟩ := turn.service rfl
  have relay := (v.startLink_links .service).relay (by simp)
  have setRelay : (v.startLink .service).svc.setRelay = v.svc.setRelay := (congrArg Service.setRelay relay :)
  unfold Service.ended
  rw [setRelay]

theorem State.startSenders_response {l : MsgLink} {q : Response} (free : u.senderFree (linkOf l) = true)
    (first : u.svc.oldestFor u.startSenders.svc l = some q) :
    (u.startSenders.framer (linkOf l)).emission = some ⟨.response q.restart, responseSlots q⟩ := by
  obtain ⟨v, turn⟩ := u.startSenders_turn (linkOf l)
  rw [turn.after]
  have free := turn.free.trans free
  cases l with
  | donor n => exact (State.startResponse_emission (l := .donor n) free ((turn.donor n rfl).trans first)).1
  | service =>
    unfold Service.oldestFor at first
    rw [TurnOf.ended turn] at first
    exact (State.startService_response free ((turn.service rfl).2.2.trans first)).1

/-- A framer whose message boundary stands open has nothing in emission. -/
theorem State.senderFree_idle {l : Link} (free : u.senderFree l = true) : (u.framer l).emission = none :=
  ((u.senderFree_iff l).mp free).2.1

theorem State.startSenders_donor {n : DonorId} (free : u.senderFree (.donor n) = true)
    (first : u.svc.oldestFor u.startSenders.svc (.donor n) = none) :
    (u.startSenders.framer (.donor n)).emission = none := by
  obtain ⟨v, turn⟩ := u.startSenders_turn (.donor n)
  have idle : v.startAny (.donor n) = v := State.startResponse_none ((turn.donor n rfl).trans first)
  rw [turn.after, idle, turn.framer, State.senderFree_idle free]

theorem State.startSenders_poll {r : RemoteId} (free : u.senderFree (.remote r) = true)
    (poll : (u.framer (.remote r)).pollPlace = true) :
    (u.startSenders.framer (.remote r)).emission = some ⟨.poll, pollSlots r⟩ := by
  obtain ⟨v, turn⟩ := u.startSenders_turn (.remote r)
  have starts : v.startAny (.remote r) = _ := State.startRemote_poll (turn.free.trans free) (by rw [turn.framer, poll])
  rw [turn.after, starts]
  exact congrArg Framer.emission (v.framer_modFramer_self (.remote r)
    fun f => { f with pollPlace := false, emission := some ⟨.poll, pollSlots r⟩ })

theorem State.startSenders_relayed {r : RemoteId} {m : Relayed} {ms : List Relayed} (free : u.senderFree (.remote r) = true)
    (poll : (u.framer (.remote r)).pollPlace = false) (queue : (u.framer (.remote r)).relayQueue = m :: ms) :
    (u.startSenders.framer (.remote r)).emission = some ⟨.relayed m.tag, relayedSlots r m⟩ := by
  obtain ⟨v, turn⟩ := u.startSenders_turn (.remote r)
  have starts : v.startAny (.remote r) = _ :=
    State.startRemote_relayed (turn.free.trans free) (by rw [turn.framer, poll]) (turn.framer ▸ queue)
  rw [turn.after, starts, State.reoffer_emission]
  exact congrArg Framer.emission (v.framer_modFramer_self (.remote r)
    fun f => { f with relayQueue := ms, emission := some ⟨.relayed m.tag, relayedSlots r m⟩ })

theorem State.startSenders_silent {r : RemoteId} (free : u.senderFree (.remote r) = true)
    (poll : (u.framer (.remote r)).pollPlace = false) (queue : (u.framer (.remote r)).relayQueue = []) :
    (u.startSenders.framer (.remote r)).emission = none := by
  obtain ⟨v, turn⟩ := u.startSenders_turn (.remote r)
  have idle : v.startAny (.remote r) = v :=
    State.startRemote_nothing (.inr ⟨by rw [turn.framer, poll], by rw [turn.framer, queue]⟩)
  rw [turn.after, idle, turn.framer, State.senderFree_idle free]

/-- S takes the offered notice at its turn (R145). -/
def State.noticeTaken (u : State) : Prop :=
  u.senderFree .service = true ∧ u.svc.oldestFor u.startSenders.svc .service = none ∧ u.events.offer = true

theorem State.startSenders_notice (h : u.noticeTaken) :
    (u.startSenders.framer .service).emission = some u.events.notice ∧ u.startSenders.events = u.events.noticed := by
  obtain ⟨free, none, offer⟩ := h
  obtain ⟨v, turn⟩ := u.startSenders_turn .service
  obtain ⟨whole, events, oldest⟩ := turn.service rfl
  unfold Service.oldestFor at none
  rw [TurnOf.ended turn] at none
  have none := oldest.trans none
  have taken := State.startNotice_taken (s := v) (by
    rw [turn.free, free, State.hasResponse_none none, events, offer]; rfl)
  have starts := (State.startService_notice none).trans taken
  constructor
  · rw [turn.after, starts, ← events]
    rfl
  · rw [whole, ← events]
    exact (congrArg State.events starts :)

theorem State.startSenders_quiet_service (h : ¬u.noticeTaken) : u.startSenders.events = u.events ∧
    (u.senderFree .service = true → u.svc.oldestFor u.startSenders.svc .service = none →
      (u.startSenders.framer .service).emission = none) := by
  obtain ⟨v, turn⟩ := u.startSenders_turn .service
  obtain ⟨whole, events, oldest⟩ := turn.service rfl
  have now : u.startSenders.events = (v.startAny .service).events := (congrArg State.events whole :)
  have waiting : u.svc.oldestFor u.startSenders.svc .service =
      v.svc.filled.find? fun q => decide (q.link = .service) := by
    unfold Service.oldestFor
    rw [TurnOf.ended turn]
    exact oldest.symm
  cases free : u.senderFree .service with
  | false => exact ⟨by rw [now, State.startAny_busy (turn.free.trans free), events], nofun⟩
  | true =>
    cases first : v.svc.filled.find? (fun q => decide (q.link = .service)) with
    | some q =>
      exact ⟨by rw [now, (State.startService_response (turn.free.trans free) first).2, events],
        fun _ none => by rw [waiting, first] at none; cases none⟩
    | none =>
      have offer : v.events.offer = false := by
        rw [events]
        exact Bool.eq_false_iff.mpr fun offer => h ⟨free, waiting.trans first, offer⟩
      have idle : v.startAny .service = v :=
        (State.startService_notice first).trans (State.startNotice_nothing (by simp [offer]))
      exact ⟨by rw [now, idle, events], fun _ _ => by rw [turn.after, idle, turn.framer, State.senderFree_idle free]⟩

end Senders

end Sys2Proof.Machine
end

section
namespace Sys2Proof.Machine

/-! ## What the last slot of a message makes due (R17, R167) -/

theorem State.mem_markAll {s : State} {es : List Due} {e : Due} : e ∈ (s.markAll es).boundary.due ↔
    e ∈ es ∨ e ∈ s.boundary.due := by
  unfold State.markAll
  induction es generalizing s with
  | nil => simp
  | cons x xs ih => rw [List.foldl_cons, ih, State.mem_markDue, List.mem_cons, or_left_comm, or_assoc]

section Transmit

variable {s : State} {e : Due}

theorem State.mem_due_transmit {l : Link} {number : FC} {mark : Nat} {map : List Byte} {lanes : List Lane} :
    e ∈ (s.transmit l number mark map lanes).boundary.due ↔ e ∈ (s.framer l).lastSlotDue l ∨ e ∈ s.boundary.due := by
  unfold State.transmit
  rw [State.mem_markAll, State.modFramer_boundary]

variable {α : Type} (g : α → Link) (number : State → FC) (mark : Nat) (map : State → α → List Byte) (lanes : α → List Lane)

/-- One frame on each of these links. -/
def State.transmitEach (s : State) (xs : List α) : State :=
  xs.foldl (fun s a => s.transmit (g a) (number s) mark (map s a) (lanes a)) s

variable {xs : List α}

theorem State.due_transmitEach (h : e ∈ s.boundary.due) : e ∈ (s.transmitEach g number mark map lanes xs).boundary.due := by
  induction xs generalizing s with
  | nil => exact h
  | cons a xs ih => exact ih (State.mem_due_transmit.mpr (.inr h))

theorem State.framer_transmitEach {l : Link} (h : ∀ a ∈ xs, g a ≠ l) :
    (s.transmitEach g number mark map lanes xs).framer l = s.framer l := by
  induction xs generalizing s with
  | nil => rfl
  | cons a xs ih =>
    obtain ⟨ne, rest⟩ := List.forall_mem_cons.mp h
    exact (ih rest).trans ((State.framer_transmit ..).trans (if_neg ne))

/-- The last slot on one of the links makes due what it brings. -/
theorem State.lastSlot_transmitEach {l : Link} (here : ∃ a ∈ xs, g a = l) (h : e ∈ (s.framer l).lastSlotDue l) :
    e ∈ (s.transmitEach g number mark map lanes xs).boundary.due := by
  induction xs generalizing s with
  | nil => simp at here
  | cons a xs ih =>
    by_cases own : g a = l
    · subst own
      have first : e ∈ (s.transmit (g a) (number s) mark (map s a) (lanes a)).boundary.due :=
        State.mem_due_transmit.mpr (.inl h)
      exact State.due_transmitEach (xs := xs) g number mark map lanes first
    · refine ih ?_ ?_
      · obtain ⟨b, hb, hl⟩ := here
        rcases List.mem_cons.mp hb with rfl | hb
        · exact absurd hl own
        · exact ⟨b, hb, hl⟩
      · rw [State.framer_transmit, if_neg own]
        exact h

end Transmit

theorem State.lastSlot_transmitAll {s : State} {down : Tab 16 (List Lane)} {u : DonorUplink} {tap : Lane} {l : Link} {e : Due}
    (h : e ∈ (s.framer l).lastSlotDue l) : e ∈ (s.transmitAll down u tap).boundary.due := by
  set v := s.transmitEach Link.donor (fun _ => u.number) u.mark (fun _ _ => []) u.lanes.get (List.finRange 4) with hv
  set w := v.transmitEach Link.remote State.now 0 (fun s r => mapBytes (s.dist.lastMap.get r)) down.get (List.finRange 16)
    with hw
  have all : s.transmitAll down u tap = w.transmit .service w.now 0 [] [tap] := rfl
  rw [all, State.mem_due_transmit]
  cases l with
  | donor n =>
    right
    rw [hw]
    apply State.due_transmitEach
    rw [hv]
    exact State.lastSlot_transmitEach _ _ _ _ _ ⟨n, List.mem_finRange n, rfl⟩ h
  | remote r =>
    right
    rw [hw]
    apply State.lastSlot_transmitEach _ _ _ _ _ ⟨r, List.mem_finRange r, rfl⟩
    rw [hv, State.framer_transmitEach _ _ _ _ _ (by simp)]
    exact h
  | service =>
    left
    rw [hw, State.framer_transmitEach _ _ _ _ _ (by simp), hv, State.framer_transmitEach _ _ _ _ _ (by simp)]
    exact h

/-! ## The frame that shows what a link has in emission (R4, R13, R16, R17, R167, R169) -/

/-- The link's frame at a boundary carries the next slot of e, or an idle slot, and the last slot makes due what it
brings. -/
def State.Sends (t : State) (l : Link) (e : Option Emission) : Prop := ∃ x, (t.framer l).sent = some x ∧
  (e = none → x.flag = 0 ∧ x.slot = List.replicate 16 0 ∧ (t.framer l).emission = none) ∧
  ∀ m z zs, e = some m → m.slots = z :: zs → x.flag = z.flag ∧ x.slot = z.bytes ∧
    (t.framer l).emission = (if zs = [] then none else some { m with slots := zs }) ∧
    (zs = [] → ∀ r tag, l = .remote r → m.what = .relayed tag → .sent r tag ∈ t.boundary.due) ∧
    (zs = [] → m.what = .response true → .restart ∈ t.boundary.due)

theorem Framer.nextSlot_none {f : Framer} (h : f.emission = none) : f.nextSlot = ⟨0, List.replicate 16 0⟩ := by
  rw [Framer.nextSlot, h]

theorem Framer.nextSlot_some {f : Framer} {m : Emission} {z : Slot} {zs : List Slot} (h : f.emission = some m)
    (slots : m.slots = z :: zs) : f.nextSlot = z := by
  simp only [Framer.nextSlot, h, slots, List.headD_cons]

theorem Framer.afterSlot_some {f : Framer} {m : Emission} {z : Slot} {zs : List Slot} (h : f.emission = some m)
    (slots : m.slots = z :: zs) : f.afterSlot = if zs = [] then none else some { m with slots := zs } := by
  simp only [Framer.afterSlot, h, slots, List.length_cons, List.drop_succ_cons, List.drop_zero]
  cases zs <;> simp

theorem Framer.lastSlotDue_some {f : Framer} {m : Emission} {z : Slot} (l : Link) (h : f.emission = some m)
    (slots : m.slots = [z]) : f.lastSlotDue l = match m.what, l with
      | .relayed t, .remote r => [.sent r t]
      | .response true, _ => [.restart]
      | _, _ => [] := by
  simp only [Framer.lastSlotDue, h, slots]
  rfl

/-- A frame sent by a framer with this in emission. -/
theorem State.sends_of_send {t : State} {l : Link} {f : Framer} {number : FC} {mark : Nat} {map : List Byte}
    {lanes : List Lane} (h : t.framer l = f.send number mark map lanes)
    (due : ∀ d ∈ f.lastSlotDue l, d ∈ t.boundary.due) : t.Sends l f.emission := by
  refine ⟨sealed ⟨0, low16 number, BitVec.ofNat 8 mark, f.nextSlot.flag, f.nextSlot.bytes, map, lanes, 0⟩,
    by rw [h]; rfl, fun silent => ?_, fun m z zs here slots => ?_⟩
  · have after : (t.framer l).emission = none := by rw [h, Framer.send, Framer.afterSlot, silent]
    rw [Framer.nextSlot_none silent]
    exact ⟨rfl, rfl, after⟩
  · have after : (t.framer l).emission = f.afterSlot := by rw [h]; rfl
    rw [Framer.nextSlot_some here slots, after, Framer.afterSlot_some here slots]
    refine ⟨rfl, rfl, rfl, fun last r tag hl what => due _ ?_, fun last what => due _ ?_⟩
    · rw [Framer.lastSlotDue_some l here (by rw [slots, last]), what, hl]
      exact List.mem_singleton_self _
    · rw [Framer.lastSlotDue_some l here (by rw [slots, last]), what]
      exact List.mem_singleton_self _

end Sys2Proof.Machine
end

section
namespace Sys2Proof.Machine

/-! ## What the switch and the ramp step of a boundary leave (R33, R78, R83) -/

/-- The switch and the ramp step that are still due have been taken. -/
def State.fallen (p : State) : State := (p.takeDue .switch State.switchFalls).takeDue .rampStep State.rampStep

theorem State.beforeFrames_eq (p : State) : p.beforeFrames = p.fallen.startSenders := rfl

theorem State.takeDue_not_mem {p : State} {e : Due} (h : e ∉ p.boundary.due) (f : State → State) : p.takeDue e f = p :=
  if_neg (by simpa using h)

theorem State.takeDue_mem {p : State} {e : Due} (h : e ∈ p.boundary.due) (f : State → State) : p.takeDue e f = f (p.unDue e) :=
  if_pos (by simpa using h)

theorem State.takeDue_sendersKept (p : State) {e : Due} (h : ∀ l, Due.sender l ≠ e) {f : State → State}
    (kept : ∀ s, SendersKept s (f s)) : SendersKept p (p.takeDue e f) := by
  unfold State.takeDue
  split
  · exact (p.unDue_sendersKept h).trans (kept _)
  · exact .refl p

theorem State.fallen_sendersKept (p : State) : SendersKept p p.fallen :=
  (p.takeDue_sendersKept (e := .switch) nofun State.switchFalls_sendersKept).trans
    (State.takeDue_sendersKept _ (e := .rampStep) nofun State.rampStep_sendersKept)

theorem State.fallen_spares (p : State) : Spares p p.fallen :=
  (State.takeDue_spares _ _ _ fun s => s.switchFalls_spares).trans (State.takeDue_spares _ _ _ fun s => s.rampStep_spares)

/-- Without a switch only ramps move, and the move they end (R33). -/
theorem State.fallen_links {p : State} (h : .switch ∉ p.boundary.due) : p.fallen.svc = p.svc ∧ p.fallen.links = p.links := by
  unfold State.fallen
  rw [State.takeDue_not_mem h]
  unfold State.takeDue
  split
  · obtain ⟨links, svc⟩ := (p.unDue .rampStep).rampStep_links
    exact ⟨svc, links⟩
  · exact ⟨rfl, rfl⟩

/-- A switch that has fallen is not due again. -/
theorem State.switch_taken (p : State) : .switch ∉ (p.takeDue .switch State.switchFalls).boundary.due := by
  by_cases h : .switch ∈ p.boundary.due
  · rw [State.takeDue_mem h]
    intro again
    have before := (p.unDue .switch).switchFalls_sendersKept.due.switch again
    exact (State.mem_unDue.mp before).2 rfl
  · rw [State.takeDue_not_mem h]
    exact h

/-- SWITCH, BATCH_SWITCH and RAMP_STEP_EVENT, one after another, take the switch and the ramp step. -/
theorem State.fallen_taken (p : State) :
    ∃ v w, exec .switch p = .next v ∧ exec .batchSwitch v = .next w ∧ exec .rampStepEvent w = .next p.fallen := by
  cases batch : p.batchRunning with
  | true =>
    refine ⟨p, p.takeDue .switch State.switchFalls, ?_, ?_, rfl⟩
    · show Host.Outcome.next (if p.batchRunning = true then p else _) = _
      rw [if_pos batch]
    · show Host.Outcome.next (if p.batchRunning = true then _ else p) = _
      rw [if_pos batch]
  | false =>
    refine ⟨p.takeDue .switch State.switchFalls, p.takeDue .switch State.switchFalls, ?_, ?_, rfl⟩
    · show Host.Outcome.next (if p.batchRunning = true then p else _) = _
      rw [if_neg (by simp [batch])]
    · show Host.Outcome.next (if (p.takeDue .switch State.switchFalls).batchRunning = true then _ else _) = _
      rw [State.takeDue_not_mem p.switch_taken, ite_self]

/-! ## What a release or a hold hands over (R42 to R44, R54, R55, R60, R62) -/

theorem State.release_stale (s : State) (n : FC) (r : RemoteId) (c : CarrierId) :
    ((s.release n).activity r c).stale = (s.activity r c).stale := by
  have row : (s.release n).activity r c = match s.measured r c n with
      | some level => (s.activity r c).measure s.settings.activityMargin level
      | none => s.activity r c := by
    show Tab.get (Tab.get (Tab.mapIdx _ _) r) c = _
    rw [Tab.get_mapIdx, Tab.get_mapIdx]
    rfl
  rw [row]
  cases s.measured r c n <;> rfl

/-- The slot of a donor frame that carries an enabled carrier (R54). -/
theorem State.slotCarrier_own {s : State} (law : CarrierTableLaw s.dist.carriers) {c : CarrierId}
    (enabled : (s.carrier c).enabled = true) : s.slotCarrier (s.carrier c).donor (s.carrier c).slot = some c := by
  have fits : ((s.carrier c).enabled && decide ((s.carrier c).donor = (s.carrier c).donor) &&
      decide ((s.carrier c).slot = (s.carrier c).slot)) = true := by simp [enabled]
  cases found : s.slotCarrier (s.carrier c).donor (s.carrier c).slot with
  | none => exact absurd fits (List.find?_eq_none.mp found c (List.mem_finRange c))
  | some a =>
    have same := List.find?_some found
    simp only [Bool.and_eq_true, decide_eq_true_eq] at same
    obtain ⟨⟨on, donor⟩, slot⟩ := same
    by_cases e : a = c
    · rw [e]
    · exact absurd ⟨donor, slot⟩ (law.1 a c e on enabled)

theorem State.releasedUplink_lanes (s : State) (t : FC) (gap : Nat) (n : DonorId) :
    (s.releasedUplink t gap).lanes.get n = s.donorLanes n t := Tab.get_ofFn ..

theorem holdUplink_lanes (l : FC) (n : DonorId) : (holdUplink l).lanes.get n = List.replicate 3 silentLane := Tab.get_const ..

theorem State.donorLanes_slot (s : State) (n : DonorId) (t : FC) (k : Fin 3) : (s.donorLanes n t).getD k.val silentLane =
    match s.slotCarrier n k with
    | some c => s.upLane c t
    | none => silentLane := by
  have here : (List.finRange 3)[k.val]? = some k := by simp
  rw [State.donorLanes, List.getD_eq_getElem?_getD, List.getElem?_map, here]
  rfl

/-- What a release or a hold leaves, and hands over, of those parts that do not depend on which it is. -/
structure State.Combines (v : State) : Prop where
  history : v.combine.1.comb.history = v.comb.history
  stale : ∀ r c, (v.combine.1.activity r c).stale = (v.activity r c).stale
  last : v.combine.1.comb.last = some v.combine.2.number
  lanes : ∀ n, (v.combine.2.lanes.get n).length = 3
  tap : ∀ c, v.svc.tap = .combined c → CarrierTableLaw v.dist.carriers → v.combine.2.tap =
    if (v.carrier c).enabled then (v.combine.2.lanes.get (v.carrier c).donor).getD (v.carrier c).slot.val silentLane
    else silentLane

theorem State.combines_released {v : State} {n : FC} {gap : Nat}
    (h : v.combine = (v.setDelay.release n, v.setDelay.releasedUplink n gap)) : v.Combines where
  history := by rw [h]; rfl
  stale r c := by rw [h]; exact v.setDelay.release_stale n r c
  last := by rw [h]; rfl
  lanes x := by
    rw [h, State.releasedUplink_lanes, State.donorLanes, List.length_map, List.length_finRange]
  tap c tap law := by
    rw [h]
    have lane : (v.setDelay.releasedUplink n gap).tap = if (v.carrier c).enabled then v.setDelay.upLane c n else silentLane := by
      show v.setDelay.tapUp n = _
      unfold State.tapUp
      rw [show v.setDelay.svc.tap = .combined c from tap]
      rfl
    rw [lane]
    by_cases enabled : (v.carrier c).enabled = true
    · have own : v.setDelay.slotCarrier (v.carrier c).donor (v.carrier c).slot = some c :=
        State.slotCarrier_own (s := v.setDelay) law enabled
      rw [if_pos enabled, if_pos enabled, State.releasedUplink_lanes, State.donorLanes_slot, own]
    · rw [if_neg enabled, if_neg enabled]

theorem State.combines (v : State) : v.Combines := by
  rcases v.combine_cases with ⟨-, h⟩ | ⟨l, -, -, h⟩ | ⟨l, last, -, h⟩
  · exact State.combines_released h
  · exact State.combines_released h
  · refine ⟨by rw [h]; rfl, fun r c => by rw [h]; rfl, by rw [h]; exact last, fun n => ?_, fun c _ _ => ?_⟩
    · rw [h, holdUplink_lanes, List.length_replicate]
    · rw [h, holdUplink_lanes, List.getD_replicate _ (v.carrier c).slot.isLt, ite_self]
      rfl

end Sys2Proof.Machine
end

section
namespace Sys2Proof.Machine

/-! ## The 21 frames of a boundary (R4, R13, R16, R17, R23, R25, R55, R158, R169) -/

/-- What a release or a hold hands to the framers, with what it leaves: the same in both orders of switch and release. -/
structure State.HandsOver (s w : State) (d : State × DonorUplink) : Prop where
  last : d.1.comb.last = some d.2.number
  history : d.1.comb.history = w.comb.history
  stale : ∀ r c, (d.1.activity r c).stale = (w.activity r c).stale
  lanes : ∀ n, (d.2.lanes.get n).length = 3
  tap : ∀ c, s.svc.tap = .combined c → CarrierTableLaw s.dist.carriers → d.2.tap =
    if (s.carrier c).enabled then (d.2.lanes.get (s.carrier c).donor).getD (s.carrier c).slot.val silentLane else silentLane

theorem Framer.takeOldest_emission (f : Framer) : f.takeOldest.emission = f.emission := by
  unfold Framer.takeOldest
  split <;> rfl

/-- Each link's frame carries what its framer has in emission when the frames are built (R4, R16, R17). -/
theorem State.framesAround_sends {w : State} {f : State → State × DonorUplink}
    (release : ∀ b, (f b).1 = { b with comb := (f b).1.comb, meter := (f b).1.meter }) (l : Link) :
    (w.framesAround f).Sends l (w.framer l).emission := by
  obtain ⟨donor, remote, service⟩ := State.framesAround_framers (w := w) release
  obtain ⟨oldest, others, service'⟩ := w.framer_distribute w.oldestFrames
  have links : (f (w.distribute w.oldestFrames)).1.noteWeights.links = (w.distribute w.oldestFrames).links :=
    (congrArg State.links (release (w.distribute w.oldestFrames)) :)
  have eq : w.framesAround f = (f (w.distribute w.oldestFrames)).1.noteWeights.transmitAll
    (Tab.ofFn (w.downLanes w.oldestFrames)) (f (w.distribute w.oldestFrames)).2
      (w.tapLane w.oldestFrames (f (w.distribute w.oldestFrames)).2) := rfl
  have due : ∀ g : Framer, (f (w.distribute w.oldestFrames)).1.noteWeights.framer l = g →
      ∀ d ∈ g.lastSlotDue l, d ∈ (w.framesAround f).boundary.due := fun g hg d hd => by
    rw [eq]
    exact State.lastSlot_transmitAll (by rw [hg]; exact hd)
  have framer := State.framer_congr links l
  cases l with
  | donor n =>
    rw [← Framer.takeOldest_emission]
    exact State.sends_of_send (donor n) (due _ (framer.trans (oldest n)))
  | remote r => exact State.sends_of_send (remote r) (due _ (framer.trans (others r)))
  | service => exact State.sends_of_send service (due _ (framer.trans service'))

section Acts

variable {s p : State} {part : BoundaryPart} {f : State → State × DonorUplink}

theorem State.ActsBy.precedes (h : s.ActsBy part p f) : s.Precedes part p p.fallen where
  start := h.start
  found e := by
    rcases h.order with ⟨-, rfl, -⟩ | ⟨first, -, -⟩
    · exact ⟨rfl, rfl⟩
    · rw [e] at first; cases first
  history := by
    rcases h.order with ⟨-, rfl, -⟩ | ⟨-, rfl, -⟩
    · rfl
    · exact (s.setActing false).combines.history
  stale r c := by
    rcases h.order with ⟨-, rfl, -⟩ | ⟨-, rfl, -⟩
    · rfl
    · exact (s.setActing false).combines.stale r c
  falls := p.fallen_taken

theorem State.ActsBy.handsOver (h : s.ActsBy part p f) :
    s.HandsOver p.beforeFrames (f (p.beforeFrames.distribute p.beforeFrames.oldestFrames)) := by
  have spares := p.beforeFrames_spares
  obtain ⟨dist, -, -⟩ := h.before
  have tap : p.beforeFrames.svc.tap = s.svc.tap := spares.tap.trans (congrArg (·.svc.tap) h.start :)
  have carriers : p.beforeFrames.dist.carriers = s.dist.carriers := (congrArg Distributor.carriers dist :)
  have comb := spares.comb
  rcases h.order with ⟨-, -, rfl⟩ | ⟨-, first, rfl⟩
  · generalize p.beforeFrames = w at *
    have c := (w.distribute w.oldestFrames).combines
    refine ⟨c.last, c.history, c.stale, c.lanes, fun k hk law => ?_⟩
    have same : (w.distribute w.oldestFrames).carrier k = s.carrier k := congrArg (Tab.get · k) carriers
    rw [← same]
    exact c.tap k (tap.trans hk) (carriers ▸ law)
  · have c := (s.setActing false).combines
    have last : p.beforeFrames.comb.last = p.comb.last := (congrArg Combiner.last comb :)
    have here : p.comb.last = (s.setActing false).combine.1.comb.last := congrArg (·.comb.last) first
    generalize p.beforeFrames = w at *
    exact ⟨(last.trans here).trans c.last, rfl, fun _ _ => rfl, c.lanes, c.tap⟩

/-- A message boundary stands open at the start of the blocks' work, and so when its turn comes. -/
theorem State.ActsBy.free (h : s.ActsBy part p f) (l : Link) : p.fallen.senderFree l = true ↔
    .sender l ∈ s.boundary.due ∧ (s.framer l).emission = none ∧ s.locked l = true := by
  have kept := p.fallen_sendersKept
  have links : p.links = s.links := (congrArg State.links h.start :)
  have due : p.boundary.due = s.boundary.due := (congrArg (·.boundary.due) h.start :)
  have rx : (p.fallen.framer l).rx = (p.framer l).rx := (congrArg Framer.rx (p.fallen_spares.receive l) :)
  rw [State.senderFree_iff, kept.due.senders, kept.emission, rx, due, State.framer_congr links, State.locked, decide_eq_true_eq]

end Acts

end Sys2Proof.Machine
end

section
namespace Sys2Proof.Machine

/-! ## What stands in the frames (R22, R23, R25, R55, R158) -/

theorem State.laneMap_length (s : State) (x : SectorId) : (s.laneMap x).length = 6 := by
  simp only [State.laneMap, LaneMap.idle, List.length_take, List.length_append, List.length_replicate]
  omega

theorem State.mapOf_length (s : State) (r : RemoteId) : (s.mapOf r).length = 6 := by
  unfold State.mapOf
  split
  · split
    · exact s.laneMap_length _
    · rfl
  · rfl

theorem mapBytes_length (m : LaneMap) : (mapBytes m).length = m.length := List.length_map ..

/-- The lane of a map's first entry for a carrier, among lanes built entry by entry. -/
theorem LaneMap.lane_of_carrier (m : LaneMap) (c : CarrierId) (lane : Option CarrierId → Lane) :
    (match m.findIdx? fun z => decide (z = some c) with
      | some i => (m.map lane).getD i silentLane
      | none => silentLane) = if m.contains (some c) then lane (some c) else silentLane := by
  cases found : m.findIdx? fun z => decide (z = some c) with
  | none =>
    have absent : ¬m.contains (some c) = true := by
      rw [List.contains_iff_mem]
      intro here
      simpa using List.findIdx?_eq_none_iff.mp found _ here
    rw [if_neg absent]
  | some i =>
    obtain ⟨bound, here, -⟩ := List.findIdx?_eq_some_iff_getElem.mp found
    have here : m[i] = some c := of_decide_eq_true here
    have present : m.contains (some c) = true := List.contains_iff_mem.mpr (here ▸ List.getElem_mem bound)
    rw [if_pos present]
    simp only [List.getD_eq_getElem?_getD, List.getElem?_map, List.getElem?_eq_getElem bound, here]
    rfl

theorem State.tapDown_eq (s : State) (fs : DonorFrames) (r : RemoteId) (c : CarrierId) : s.tapDown fs r c =
    match (s.mapOf r).findIdx? fun z => decide (z = some c) with
    | some i => (s.downLanes fs r).getD i silentLane
    | none => silentLane :=
  (LaneMap.lane_of_carrier (s.mapOf r) c fun | some c => s.downLane fs r c | none => silentLane).symm

/-- A frame that a framer sends (R4, R169). -/
def Framer.outgoing (f : Framer) (number : FC) (mark : Nat) (map : List Byte) (lanes : List Lane) : LinkFrame :=
  sealed ⟨0, low16 number, BitVec.ofNat 8 mark, f.nextSlot.flag, f.nextSlot.bytes, map, lanes, 0⟩

/-- Opened by the delimiter, with the check over it (R169). -/
theorem Framer.outgoing_good (f : Framer) (number : FC) (mark : Nat) (map : List Byte) (lanes : List Lane) :
    let x := f.outgoing number mark map lanes
    x.delimiter = 0x7E5A81A5 ∧ x.check = frameCheck (frameBody x) ∧ isGood x = true := by
  intro x
  have good : isGood x = true := isGood_sealed _
  have check := good
  rw [isGood, Bool.and_eq_true] at check
  exact ⟨rfl, (of_decide_eq_true check.2).symm, good⟩

/-! ## The blocks' work, clause by clause -/

section Acts

variable {s p : State} {part : BoundaryPart} {f : State → State × DonorUplink}

/-- The senders change links, Relay, responses, Event Queue and what is due; the frames links, Distributor, Combiner,
Meter and what is due. -/
theorem State.ActsBy.kept (h : s.ActsBy part p f) :
    let u := p.fallen
    let t := p.beforeFrames.framesAround f
    t.map = u.map ∧ t.sup = u.sup ∧ t.engine = u.engine ∧ t.spreader = u.spreader ∧ t.store = u.store ∧
      t.dist.ramps = u.dist.ramps ∧ t.dist.donors = s.dist.donors ∧ t.comb.history = u.comb.history ∧
      t.svc.pass = u.svc.pass ∧ ∀ r c, (t.activity r c).stale = (u.activity r c).stale := by
  intro u t
  have built := State.framesAround_built (w := p.beforeFrames) h.release
  have hands := h.handsOver
  obtain ⟨dist, -, -⟩ := h.before
  have starts : LinksStart allLinks u p.beforeFrames := u.startLinks_links allLinks
  change FramesBuilt _ _ t at built
  generalize t = t at *
  generalize p.beforeFrames = w at *
  have frame := starts.frame
  have svc := starts.svc
  generalize u = u at *
  have comb : t.comb.history = w.comb.history := (congrArg Combiner.history built.comb :).trans hands.history
  have meter : ∀ r c, (t.activity r c).stale = (w.activity r c).stale := fun r c => by
    rw [← hands.stale r c]
    exact congrArg (fun m : Meter => ((m.records.get r).get c).stale) built.meter
  refine ⟨?_, ?_, ?_, ?_, ?_, ?_, ?_, ?_, ?_, fun r c => ?_⟩
  · exact (congrArg State.map built.frame :).trans (congrArg State.map frame :)
  · exact (congrArg State.sup built.frame :).trans (congrArg State.sup frame :)
  · exact (congrArg State.engine built.frame :).trans (congrArg State.engine frame :)
  · exact (congrArg State.spreader built.frame :).trans (congrArg State.spreader frame :)
  · exact (congrArg State.store built.frame :).trans (congrArg State.store frame :)
  · exact (congrArg Distributor.ramps built.dist :).trans (congrArg (·.dist.ramps) frame :)
  · exact (congrArg Distributor.donors built.dist :).trans (congrArg Distributor.donors dist :)
  · exact comb.trans (congrArg (·.comb.history) frame :)
  · exact (congrArg (·.svc.pass) built.frame :).trans (congrArg Service.pass svc :)
  · exact (meter r c).trans (congrArg (fun s : State => (s.activity r c).stale) frame :)

end Acts

end Sys2Proof.Machine
end

section
namespace Sys2Proof.Machine

section Acts

variable {s p : State} {part : BoundaryPart} {f : State → State × DonorUplink}

/-- What stands in the frame of each link. -/
structure State.Outgoing (s w t : State) (up : DonorUplink) : Prop where
  remote : ∀ r, (t.framer (.remote r)).sent =
    some ((w.framer (.remote r)).outgoing s.now 0 (mapBytes (w.mapOf r)) (w.downLanes w.oldestFrames r))
  service : (t.framer .service).sent = some ((w.framer .service).outgoing s.now 0 [] [w.tapLane w.oldestFrames up])
  donor : ∀ n, (t.framer (.donor n)).sent =
    some ((w.framer (.donor n)).takeOldest.outgoing up.number up.mark [] (up.lanes.get n))
  lastMap : ∀ r, t.dist.lastMap.get r = w.mapOf r
  last : t.comb.last = some up.number
  lanes : ∀ n, (up.lanes.get n).length = 3
  selected : w.svc.tap = s.svc.tap
  tap : ∀ c, s.svc.tap = .combined c → CarrierTableLaw s.dist.carriers → up.tap =
    if (s.carrier c).enabled then (up.lanes.get (s.carrier c).donor).getD (s.carrier c).slot.val silentLane else silentLane

theorem State.ActsBy.outgoing (h : s.ActsBy part p f) : ∃ up, s.Outgoing p.beforeFrames (p.beforeFrames.framesAround f) up := by
  have built := State.framesAround_built (w := p.beforeFrames) h.release
  have hands := h.handsOver
  have spares := p.beforeFrames_spares
  obtain ⟨-, now, -⟩ := h.before
  have tap : p.beforeFrames.svc.tap = s.svc.tap := spares.tap.trans (congrArg (·.svc.tap) h.start :)
  obtain ⟨donor, remote, service⟩ := State.framesAround_framers (w := p.beforeFrames) h.release
  generalize p.beforeFrames.framesAround f = t at *
  generalize p.beforeFrames = w at *
  rw [now] at remote service
  exact ⟨_, fun r => congrArg Framer.sent (remote r), congrArg Framer.sent service, fun n => congrArg Framer.sent (donor n),
    fun r => (congrArg (·.lastMap.get r) built.dist :).trans (Tab.get_ofFn ..),
    (congrArg Combiner.last built.comb :).trans hands.last, hands.lanes, tap, hands.tap⟩

end Acts

namespace State.Outgoing

variable {s w t : State} {up : DonorUplink}

/-- The frame to a remote shows its map (R23). -/
theorem remote_frame (h : s.Outgoing w t up) (r : RemoteId) : ∃ x, (t.framer (.remote r)).sent = some x ∧
    x.number = low16 s.now ∧ x.gapMark = 0 ∧ x.map = mapBytes (t.dist.lastMap.get r) ∧ x.map.length = 6 ∧
      x.lanes.length = 6 := by
  refine ⟨_, h.remote r, rfl, rfl, (congrArg mapBytes (h.lastMap r)).symm, ?_, ?_⟩
  · exact (mapBytes_length _).trans (w.mapOf_length r)
  · exact (List.length_map ..).trans (w.mapOf_length r)

/-- The frame to a donor link carries the number released last (R43, R44). -/
theorem donor_frame (h : s.Outgoing w t up) (n : DonorId) : ∃ x l, (t.framer (.donor n)).sent = some x ∧
    t.comb.last = some l ∧ x.number = low16 l ∧ x.map = [] ∧ x.lanes.length = 3 :=
  ⟨_, _, h.donor n, h.last, rfl, rfl, h.lanes n⟩

/-- The lane of S by the selection (R25, R55, R158). -/
theorem tapLane_none (h : s.Outgoing w t up) (off : s.svc.tap = .none) : w.tapLane w.oldestFrames up = silentLane := by
  rw [State.tapLane, h.selected, off]

theorem tapLane_downlink (h : s.Outgoing w t up) {r : RemoteId} {c : CarrierId} (tap : s.svc.tap = .downlink r c) :
    w.tapLane w.oldestFrames up = match (t.dist.lastMap.get r).findIdx? fun z => decide (z = some c) with
      | some i => (w.downLanes w.oldestFrames r).getD i silentLane
      | none => silentLane := by
  rw [State.tapLane, h.selected, tap, h.lastMap r]
  exact w.tapDown_eq w.oldestFrames r c

theorem tapLane_combined (h : s.Outgoing w t up) {c : CarrierId} (tap : s.svc.tap = .combined c) :
    w.tapLane w.oldestFrames up = up.tap := by
  rw [State.tapLane, h.selected, tap]

theorem good (h : s.Outgoing w t up) (l : Link) : ∃ x, (t.framer l).sent = some x ∧ x.delimiter = 0x7E5A81A5 ∧
    x.check = frameCheck (frameBody x) ∧ isGood x = true := by
  cases l with
  | donor n => exact ⟨_, h.donor n, Framer.outgoing_good ..⟩
  | remote r => exact ⟨_, h.remote r, Framer.outgoing_good ..⟩
  | service => exact ⟨_, h.service, Framer.outgoing_good ..⟩

end State.Outgoing

section Acts

variable {s p : State} {part : BoundaryPart} {f : State → State × DonorUplink}

/-- The blocks' work has no part in stored configuration, and the boundary is done. -/
theorem State.ActsBy.stored (h : s.ActsBy part p f) :
    let t := p.beforeFrames.framesAround f
    t.boundary.acting = false ∧ t.now = s.now ∧ t.settings = s.settings ∧ t.loader = s.loader ∧
      t.dist.carriers = s.dist.carriers ∧ t.store.plans = s.store.plans ∧ t.svc.input = s.svc.input ∧
      t.svc.tap = s.svc.tap := by
  intro t
  have built := State.framesAround_built (w := p.beforeFrames) h.release
  have spares := p.beforeFrames_spares
  obtain ⟨dist, now, -⟩ := h.before
  have start := h.start
  change FramesBuilt _ _ t at built
  generalize t = t at *
  generalize p.beforeFrames = w at *
  have frame := built.frame
  refine ⟨?_, ?_, ?_, ?_, ?_, ?_, ?_, ?_⟩
  · exact ((congrArg (·.boundary.acting) frame :).trans spares.acting).trans (congrArg (·.boundary.acting) start :)
  · exact (congrArg State.now frame :).trans now
  · exact ((congrArg State.settings frame :).trans spares.settings).trans (congrArg State.settings start :)
  · exact ((congrArg State.loader frame :).trans spares.loader).trans (congrArg State.loader start :)
  · exact (congrArg Distributor.carriers built.dist :).trans (congrArg Distributor.carriers dist :)
  · exact ((congrArg (·.store.plans) frame :).trans (congrArg (·.plans) spares.store :)).trans
      (congrArg (·.store.plans) start :)
  · exact ((congrArg (·.svc.input) frame :).trans spares.input).trans (congrArg (·.svc.input) start :)
  · exact ((congrArg (·.svc.tap) frame :).trans spares.tap).trans (congrArg (·.svc.tap) start :)

/-- What the switch and the ramp step leave of what the senders find. -/
theorem State.ActsBy.found (h : s.ActsBy part p f) :
    (∃ qs, p.fallen.svc.filled = s.svc.filled ++ qs) ∧ p.fallen.events.offer = s.events.offer ∧
      (∀ r, (s.framer (.remote r)).pollPlace = true → (p.fallen.framer (.remote r)).pollPlace = true) ∧
      (.switch ∉ s.boundary.due → p.fallen.svc = s.svc ∧ p.fallen.links = s.links) ∧
      ∀ l, (p.fallen.framer l).emission = (s.framer l).emission := by
  have kept := p.fallen_sendersKept
  have start := h.start
  have links : p.links = s.links := (congrArg State.links start :)
  have svc : p.svc = s.svc := (congrArg State.svc start :)
  have framer := State.framer_congr links
  have due : p.boundary.due = s.boundary.due := (congrArg (·.boundary.due) start :)
  refine ⟨svc ▸ kept.filled, kept.offer.trans (congrArg (·.events.offer) start :), fun r hr => kept.poll _ (by rw [framer, hr]),
    fun off => ?_, fun l => (kept.emission l).trans (by rw [framer])⟩
  obtain ⟨same, same'⟩ := State.fallen_links (p := p) (due ▸ off)
  exact ⟨same.trans svc, same'.trans links⟩

end Acts

end Sys2Proof.Machine
end

section
namespace Sys2Proof.Machine

/-- Settles O13: what falls at the boundary, each link's turn to start a message, and then the frames. -/
theorem everyBoundarySendsTwentyOneFrames : Obligations.EveryBoundarySendsTwentyOneFrames := by
  unfold Obligations.EveryBoundarySendsTwentyOneFrames
  intro s part acting hpart
  obtain ⟨p, f, acts⟩ := s.actsBy acting hpart
  obtain ⟨up, out⟩ := acts.outgoing
  obtain ⟨filled, offer, poll, off, emission⟩ := acts.found
  have sends := State.framesAround_sends (w := p.beforeFrames) acts.release
  have frame := (State.framesAround_built (w := p.beforeFrames) acts.release).frame
  have turns := p.beforeFrames_eq
  have runs := acts.runs
  have precedes := acts.precedes
  have kept := acts.kept
  have stored := acts.stored
  have free := acts.free
  generalize p.beforeFrames.framesAround f = t at *
  generalize p.beforeFrames = w at *
  generalize p.fallen = u at *
  have svc : t.svc = w.svc := (congrArg State.svc frame :)
  have events : t.events = w.events := (congrArg State.events frame :)
  refine ⟨p, u, t, precedes, runs, kept, out.remote_frame, ?_, out.donor_frame, out.good, ?_, filled, offer, poll, off, stored⟩
  · refine ⟨_, out.service, rfl, rfl, rfl, rfl, fun none => ?_, fun r c tap => ⟨_, out.remote r, ?_⟩,
      fun c tap law => ⟨_, out.donor _, ?_⟩⟩
    · exact congrArg (fun x => [x]) (out.tapLane_none none)
    · exact congrArg (fun x => [x]) (out.tapLane_downlink tap)
    · exact congrArg (fun x => [x]) ((out.tapLane_combined tap).trans (out.tap c tap law))
  subst turns
  intro sends' starts ended waiting noticed
  have oldest : ∀ l, waiting l = u.svc.oldestFor u.startSenders.svc l := fun l => by
    rw [← svc]
    cases l <;> rfl
  have notices : noticed ↔ u.noticeTaken := by
    show starts .service ∧ waiting .service = none ∧ u.events.offer = true ↔ _
    rw [oldest]
    exact and_congr_left' (free .service).symm
  have carries : ∀ {l e}, (u.startSenders.framer l).emission = e → sends' l e := fun {l e} h => h ▸ sends l
  refine ⟨fun l busy => ?_, fun l q start first => ?_, fun n start first => ?_, fun start first none => ?_, fun taken => ?_,
    fun quiet => ?_, fun r start poll => ?_, fun r m ms start poll queue => ?_, fun r start poll queue => ?_⟩
  · exact carries ((State.startSenders_busy (Bool.eq_false_iff.mpr fun h => busy ((free l).mp h))).trans (emission l))
  · exact carries (State.startSenders_response ((free _).mpr start) ((oldest l).symm.trans first))
  · exact carries (State.startSenders_donor ((free _).mpr start) ((oldest (.donor n)).symm.trans first))
  · have quiet : ¬u.noticeTaken := fun h => Bool.false_ne_true (none.symm.trans h.2.2)
    exact carries ((State.startSenders_quiet_service quiet).2 ((free _).mpr start) ((oldest .service).symm.trans first))
  · obtain ⟨emission, noticed⟩ := State.startSenders_notice (notices.mp taken)
    have queue := events.trans noticed
    have records : t.events.records = (u.events.take 4).2.records := (congrArg EventQueue.records queue :)
    intro es body
    have whole : body = encEvents u.events.overflow (u.events.take 4).2.records.length (u.events.take 4).1 := by
      rw [← records]
      rfl
    refine ⟨carries (emission.trans ?_), ?_, ?_, ?_⟩
    · rw [whole]
      rfl
    · rw [queue]; rfl
    · rw [queue]; exact u.events.take_perm 4
    · rw [queue]; exact u.events.take_sublist 4
  · exact events.trans (State.startSenders_quiet_service (mt notices.mpr quiet)).1
  · exact carries (State.startSenders_poll ((free _).mpr start) poll)
  · exact carries (State.startSenders_relayed ((free _).mpr start) poll queue)
  · exact carries (State.startSenders_silent ((free _).mpr start) poll queue)

end Sys2Proof.Machine
end

section
namespace Sys2Proof.Machine

/-! ## A step on every member of a table (R28, R122, R132, R161) -/

/-- The events that are due, replaced. -/
def State.withDue (s : State) (d : List Due) : State := { s with boundary := { s.boundary with due := d } }

/-- The events due once these are marked, in order. -/
def dueMarked (d es : List Due) : List Due := es.foldl (fun d e => if d.contains e then d else d ++ [e]) d

theorem dueMarked_append (d es fs : List Due) : dueMarked d (es ++ fs) = dueMarked (dueMarked d es) fs := List.foldl_append ..

theorem State.markAll_withDue (s : State) (es : List Due) : s.markAll es = s.withDue (dueMarked s.boundary.due es) := by
  unfold State.markAll dueMarked
  induction es generalizing s with
  | nil => rfl
  | cons e es ih =>
    rw [List.foldl_cons, List.foldl_cons, ih, State.due_markDue]
    unfold State.markDue
    split <;> rfl

theorem Tab.modify_same {n : Nat} {α : Type} (t : Tab n α) (i : Fin n) {f : α → α} (h : f (t.get i) = t.get i) :
    t.modify i f = t := by
  refine Tab.ext_get fun j => ?_
  rw [Tab.get_modify]
  split
  · rename_i e; rw [← e, h]
  · rfl

theorem Tab.modify_congr {n : Nat} {α : Type} (t : Tab n α) (i : Fin n) {f g : α → α} (h : f (t.get i) = g (t.get i)) :
    t.modify i f = t.modify i g := congrArg (t.set i) h

/-- A table that is part of the state, apart from what is due. -/
structure TablePart (n : Nat) (α : Type) where
  get : State → Tab n α
  put : State → Tab n α → State
  get_put : ∀ s x, get (put s x) = x
  put_put : ∀ s x y, put (put s x) y = put s y
  put_get : ∀ s, put s (get s) = s
  get_due : ∀ s d, get (s.withDue d) = get s
  put_due : ∀ s d x, put (s.withDue d) x = (put s x).withDue d
  boundary : ∀ s x, (put s x).boundary = s.boundary

namespace TablePart

variable {n : Nat} {α : Type} (part : TablePart n α)

/-- One member is changed, and some events fall due. -/
def change (s : State) (i : Fin n) (g : α → α) (marks : List Due) : State :=
  (part.put s ((part.get s).modify i g)).markAll marks

theorem change_nothing (s : State) (i : Fin n) {g : α → α} (h : g ((part.get s).get i) = (part.get s).get i) :
    part.change s i g [] = s := by
  unfold change
  rw [Tab.modify_same _ _ h, part.put_get]
  rfl

theorem change_eq (s : State) (i : Fin n) (g : α → α) (marks : List Due) :
    ∃ d, part.change s i g marks = (part.put s ((part.get s).modify i g)).withDue d ∧
      ∀ e, e ∈ d ↔ e ∈ s.boundary.due ∨ e ∈ marks := by
  refine ⟨_, State.markAll_withDue _ _, fun e => ?_⟩
  have mem := State.mem_markAll (s := part.put s ((part.get s).modify i g)) (es := marks) (e := e)
  rw [State.markAll_withDue] at mem
  rw [or_comm, ← part.boundary s ((part.get s).modify i g)]
  exact mem

theorem change_change (s : State) (i : Fin n) (f g : α → α) (ds es : List Due) :
    part.change (part.change s i f ds) i g es = part.change s i (fun x => g (f x)) (ds ++ es) := by
  unfold change
  simp only [State.markAll_withDue, part.get_due, part.get_put, part.put_due, part.put_put, part.boundary, Tab.modify_modify]
  exact congrArg (State.withDue _) (dueMarked_append ..).symm

/-- Each of these members, one after another, is changed as it stands and makes due what its value says. -/
theorem foldl_change {C : State → Prop} {step : State → Fin n → State} {g : Fin n → α → α} {marks : Fin n → α → List Due}
    {D : α → Prop} (put : ∀ s x, C s → C (part.put s x)) (due : ∀ s d, C s → C (s.withDue d))
    (each : ∀ s i, C s → D ((part.get s).get i) → step s i = part.change s i (g i) (marks i ((part.get s).get i)))
    {xs : List (Fin n)} (nodup : xs.Nodup) {s : State} (c : C s) (d : ∀ i ∈ xs, D ((part.get s).get i)) :
    ∃ es, xs.foldl step s =
        (part.put s (Tab.ofFn fun i => if i ∈ xs then g i ((part.get s).get i) else (part.get s).get i)).withDue es ∧
      ∀ e, e ∈ es ↔ e ∈ s.boundary.due ∨ ∃ i ∈ xs, e ∈ marks i ((part.get s).get i) := by
  induction xs generalizing s with
  | nil =>
    have same : (Tab.ofFn fun i => (part.get s).get i) = part.get s := Tab.ext_get fun i => Tab.get_ofFn ..
    exact ⟨s.boundary.due, by simp [same, part.put_get, State.withDue], fun e => by simp⟩
  | cons i xs ih =>
    obtain ⟨new, rest⟩ := List.nodup_cons.mp nodup
    obtain ⟨first, eq, mem⟩ := part.change_eq s i (g i) (marks i ((part.get s).get i))
    rw [List.foldl_cons, each s i c (d i List.mem_cons_self), eq]
    have table : part.get ((part.put s ((part.get s).modify i (g i))).withDue first) = (part.get s).modify i (g i) := by
      rw [part.get_due, part.get_put]
    have puts : ∀ x, part.put ((part.put s ((part.get s).modify i (g i))).withDue first) x = (part.put s x).withDue first :=
      fun x => by rw [part.put_due, part.put_put]
    have now : ((part.put s ((part.get s).modify i (g i))).withDue first).boundary.due = first := rfl
    have c := due _ first (put s ((part.get s).modify i (g i)) c)
    generalize (part.put s ((part.get s).modify i (g i))).withDue first = v at *
    have other : ∀ j ∈ xs, (part.get v).get j = (part.get s).get j := fun j hj => by
      have apart : i ≠ j := fun e => new (e ▸ hj)
      rw [table, Tab.get_modify_ne _ _ apart]
    obtain ⟨es, whole, all⟩ := ih rest c fun j hj => by
      rw [other j hj]
      exact d j (List.mem_cons_of_mem _ hj)
    refine ⟨es, ?_, fun e => ?_⟩
    · rw [whole, puts]
      show (part.put s _).withDue es = _
      refine congrArg (fun x => (part.put s x).withDue es) (Tab.ext_get fun j => ?_)
      rw [Tab.get_ofFn, Tab.get_ofFn, table]
      by_cases own : j = i
      · subst own
        rw [if_neg new, Tab.get_modify_self, if_pos List.mem_cons_self]
      · rw [Tab.get_modify_ne _ _ (Ne.symm own)]
        simp [own]
    · have rest : (∃ j ∈ xs, e ∈ marks j ((part.get v).get j)) ↔ ∃ j ∈ xs, e ∈ marks j ((part.get s).get j) :=
        exists_congr fun j => and_congr_right fun hj => by rw [other j hj]
      simp only [all, now, mem, rest, List.mem_cons, exists_eq_or_imp, or_assoc]

/-- The same for every member of the table. -/
theorem foldl_all {C : State → Prop} {step : State → Fin n → State} {g : Fin n → α → α} {marks : Fin n → α → List Due}
    {D : α → Prop} (put : ∀ s x, C s → C (part.put s x)) (due : ∀ s d, C s → C (s.withDue d))
    (each : ∀ s i, C s → D ((part.get s).get i) → step s i = part.change s i (g i) (marks i ((part.get s).get i)))
    {s : State} (c : C s) (d : ∀ i, D ((part.get s).get i)) :
    ∃ es, (List.finRange n).foldl step s = (part.put s ((part.get s).mapIdx g)).withDue es ∧
      ∀ e, e ∈ es ↔ e ∈ s.boundary.due ∨ ∃ i, e ∈ marks i ((part.get s).get i) := by
  obtain ⟨es, whole, all⟩ := part.foldl_change put due each (List.nodup_finRange n) c fun i _ => d i
  refine ⟨es, ?_, fun e => (all e).trans (by simp)⟩
  rw [whole]
  refine congrArg (fun x => (part.put s x).withDue es) (Tab.ext_get fun i => ?_)
  rw [Tab.get_ofFn, Tab.get_mapIdx, if_pos (List.mem_finRange i)]

end TablePart

end Sys2Proof.Machine
end

section
namespace Sys2Proof.Machine

/-! ## The timers at a boundary (R28, R64, R116, R122, R123, R132, R144, R161, R162) -/

def donorTable : TablePart 4 DonorState where
  get s := s.dist.donors
  put s x := { s with dist := { s.dist with donors := x } }
  get_put _ _ := rfl
  put_put _ _ _ := rfl
  put_get _ := rfl
  get_due _ _ := rfl
  put_due _ _ _ := rfl
  boundary _ _ := rfl

def remoteTable : TablePart 16 SupRecord where
  get s := s.sup.records
  put s x := { s with sup := { s.sup with records := x } }
  get_put _ _ := rfl
  put_put _ _ _ := rfl
  put_get _ := rfl
  get_due _ _ := rfl
  put_due _ _ _ := rfl
  boundary _ _ := rfl

def passTable : TablePart 16 (Option Pass) where
  get s := s.svc.pass
  put s x := { s with svc := { s.svc with pass := x } }
  get_put _ _ := rfl
  put_put _ _ _ := rfl
  put_get _ := rfl
  get_due _ _ := rfl
  put_due _ _ _ := rfl
  boundary _ _ := rfl

/-! ### Each timer, as it counts and what it makes due -/

/-- What a timer that counts up to a limit makes due. -/
def timerDue (limit : Nat) (timer : Option Nat) (e : Due) : List Due :=
  match timer with
  | some k => if limit ≤ k + 1 then [e] else []
  | none => []

theorem mem_timerDue {limit : Nat} {timer : Option Nat} {e d : Due} :
    d ∈ timerDue limit timer e ↔ d = e ∧ ∃ k, timer = some k ∧ limit ≤ k + 1 := by
  unfold timerDue
  cases timer with
  | none => simp
  | some k => by_cases h : limit ≤ k + 1 <;> simp [h]

/-- The donor grace timer; boundary FC 0 finds it at 0 (R28, R29). -/
def DonorState.ticked (first : Bool) (d : DonorState) : DonorState :=
  { d with timer := if first then d.timer else d.timer.map (· + 1) }

def graceDue (c : Settings) (first : Bool) (n : DonorId) (d : DonorState) : List Due :=
  if first then [] else timerDue c.grace d.timer (.donorGrace n)

/-- The link grace timer and the flap decay timer (R123, R132). -/
def SupRecord.ticked (v : SupRecord) : SupRecord :=
  { v with grace := v.grace.map (· + 1), decay := v.decay.map (· + 1) }

def recordDue (c : Settings) (r : RemoteId) (v : SupRecord) : List Due :=
  timerDue c.grace v.grace (.linkGrace r) ++ timerDue (c.flapPeriod * 8000) v.decay (.flap r)

/-- The pass timeout and the retry delay (R161, R162). -/
def PassPhase.counted : PassPhase → PassPhase
  | .awaiting n => .awaiting (n + 1)
  | .sending (some d) => .sending (some (if d < 8 then d + 1 else d))
  | .sending none => .sending none

def Pass.counted (p : Pass) : Pass := { p with phase := p.phase.counted }

def passDue (c : Settings) (r : RemoteId) (p : Option Pass) : List Due :=
  match p.map Pass.phase with
  | some (.awaiting n) => if c.passTimeout ≤ n + 1 then [.passTimeout r] else []
  | some (.sending (some d)) => if 8 ≤ d then [.retryEnd r] else []
  | _ => []

theorem State.markDue_if (s : State) (e : Due) (p : Prop) [Decidable p] :
    (if p then s.markDue e else s) = s.markAll (if p then [e] else []) := by
  split <;> rfl

/-- A timer of one member that counts up to a limit. -/
theorem TablePart.timer_change {n : Nat} {α : Type} (part : TablePart n α) (s : State) (i : Fin n) {timer : α → Option Nat}
    {set : α → Option Nat → α} (own : ∀ a, set a (timer a) = a) (limit : Nat) (e : Due) :
    (match timer ((part.get s).get i) with
      | some k =>
        if limit ≤ k + 1 then (part.put s ((part.get s).modify i fun a => set a (some (k + 1)))).markDue e
        else part.put s ((part.get s).modify i fun a => set a (some (k + 1)))
      | none => s) =
    part.change s i (fun a => set a ((timer a).map (· + 1))) (timerDue limit (timer ((part.get s).get i)) e) := by
  cases value : timer ((part.get s).get i) with
  | none => exact (part.change_nothing s i (by rw [value, Option.map_none, ← value, own])).symm
  | some k =>
    have counts : (part.get s).modify i (fun a => set a ((timer a).map (· + 1))) =
        (part.get s).modify i fun a => set a (some (k + 1)) := Tab.modify_congr _ _ (by rw [value]; rfl)
    simp only [timerDue, TablePart.change, counts]
    exact State.markDue_if _ _ _

section Steps

variable {c : Settings} {s : State}

theorem State.tickDonor_change (h : s.settings = c) (first : Bool) (n : DonorId) :
    State.tickDonor first s n = donorTable.change s n (DonorState.ticked first) (graceDue c first n (s.dist.donors.get n)) := by
  subst h
  cases first with
  | true =>
    refine Eq.trans ?_ (donorTable.change_nothing s n (g := DonorState.ticked true) rfl).symm
    unfold State.tickDonor
    split <;> rfl
  | false =>
    exact donorTable.timer_change s n (set := fun d t => { d with timer := t }) (fun _ => rfl)
      s.settings.grace (.donorGrace n)

theorem State.tickGrace_change (s : State) (r : RemoteId) : s.tickGrace r =
    remoteTable.change s r (fun v => { v with grace := v.grace.map (· + 1) })
      (timerDue s.settings.grace (s.supRec r).grace (.linkGrace r)) :=
  remoteTable.timer_change s r (set := fun v t => { v with grace := t }) (fun _ => rfl)
    s.settings.grace (.linkGrace r)

theorem State.tickDecay_change (s : State) (r : RemoteId) : s.tickDecay r =
    remoteTable.change s r (fun v => { v with decay := v.decay.map (· + 1) })
      (timerDue (s.settings.flapPeriod * 8000) (s.supRec r).decay (.flap r)) :=
  remoteTable.timer_change s r (set := fun v t => { v with decay := t }) (fun _ => rfl)
    (s.settings.flapPeriod * 8000) (.flap r)

theorem State.tickRemote_change (h : s.settings = c) (r : RemoteId) :
    s.tickRemote r = remoteTable.change s r SupRecord.ticked (recordDue c r (s.supRec r)) := by
  subst h
  obtain ⟨d, grace, -⟩ := remoteTable.change_eq s r (fun v => { v with grace := v.grace.map (· + 1) })
    (timerDue s.settings.grace (s.supRec r).grace (.linkGrace r))
  unfold State.tickRemote recordDue
  rw [State.tickDecay_change, State.tickGrace_change]
  have settings : (remoteTable.change s r (fun v => { v with grace := v.grace.map (· + 1) })
    (timerDue s.settings.grace (s.supRec r).grace (.linkGrace r))).settings = s.settings := by rw [grace]; rfl
  have decay : ((remoteTable.change s r (fun v => { v with grace := v.grace.map (· + 1) })
      (timerDue s.settings.grace (s.supRec r).grace (.linkGrace r))).supRec r).decay = (s.supRec r).decay := by
    rw [grace]
    exact (congrArg SupRecord.decay (Tab.get_modify_self s.sup.records r fun v => { v with grace := v.grace.map (· + 1) }) :)
  rw [settings, decay, remoteTable.change_change]
  rfl

theorem State.tickPass_change (h : s.settings = c) (r : RemoteId) :
    s.tickPass r = passTable.change s r (Option.map Pass.counted) (passDue c r (s.svc.pass.get r)) := by
  unfold State.tickPass passDue
  subst h
  cases slot : s.svc.pass.get r with
  | none =>
    have still : Option.map Pass.counted ((passTable.get s).get r) = (passTable.get s).get r := by
      rw [show (passTable.get s).get r = none from slot]; rfl
    simp only [Option.map_none, passTable.change_nothing s r still]
  | some p =>
    have counts : s.svc.pass.modify r (Option.map Pass.counted) = s.svc.pass.set r (some p.counted) :=
      congrArg (s.svc.pass.set r) (by rw [slot]; rfl)
    have change : ∀ es, passTable.change s r (Option.map Pass.counted) es = (s.setPass r (some p.counted)).markAll es := fun es =>
      congrArg (fun x => (passTable.put s x).markAll es) counts
    have same : ∀ q, p.counted = q → s.setPass r (some q) = s.setPass r (some p.counted) := fun q h => by rw [h]
    simp only [Option.map_some, change]
    cases phase : p.phase with
    | awaiting n =>
      simp only
      rw [State.markDue_if, same _ (by simp only [Pass.counted, PassPhase.counted, phase])]
      rfl
    | sending delay =>
      have still : p.counted = p → s.setPass r (some p.counted) = s := fun h => by
        rw [h]
        exact (congrArg (passTable.put s) (Tab.modify_same _ r (f := fun _ => some p) slot.symm) :)
      cases delay with
      | none => exact (still (congrArg (fun q => { p with phase := q }) (by rw [phase]; rfl : p.phase.counted = p.phase))).symm
      | some d =>
        by_cases ripe : 8 ≤ d
        · have rest : p.counted = p := congrArg (fun q => { p with phase := q })
            (by rw [phase, PassPhase.counted, if_neg (Nat.not_lt.mpr ripe)] : p.phase.counted = p.phase)
          simp only [still rest, if_pos ripe, if_pos (Nat.lt_succ_of_le ripe)]
          rfl
        · simp only [if_neg ripe, if_neg (mt Nat.le_of_lt_succ ripe)]
          rw [same _ (by simp only [Pass.counted, PassPhase.counted, phase, if_pos (Nat.lt_of_not_le ripe)])]
          rfl

end Steps

end Sys2Proof.Machine
end

section
namespace Sys2Proof.Machine

/-! ### All timers at one boundary -/

theorem Tab.mapIdx_const {n : Nat} {α β : Type} (t : Tab n α) (f : α → β) : t.mapIdx (fun _ => f) = t.map f :=
  Tab.ext_get fun i => by rw [Tab.get_mapIdx, Tab.get_map]

/-- The window count; the boundary that begins the first window is not counted (R64). -/
def Meter.ticked (m : Meter) (fc : FC) : Meter :=
  if m.firstNext then { m with firstNext := false, count := 0, startFc := fc } else { m with count := m.count + 1 }

/-- Every timer has counted, but those the manual starts at FC 0. -/
def State.ticked (s : State) (first : Bool) : State := { s with
  dist := { s.dist with donors := s.dist.donors.map (DonorState.ticked first) }
  sup := { s.sup with
    records := s.sup.records.map SupRecord.ticked, pollCount := if first then s.sup.pollCount else s.sup.pollCount + 1 }
  svc := { s.svc with pass := s.svc.pass.map (Option.map Pass.counted) }
  meter := s.meter.ticked s.now
  events := { s.events with pacing := if first then s.events.pacing else s.events.pacing + 1 } }

/-- The event is one that a timer brings, and its time has come. -/
def State.TimeCome (s : State) (first : Bool) : Due → Prop
  | .window => s.meter.firstNext = false ∧ s.meter.window ≤ s.meter.count + 1
  | .poll => first = false ∧ s.sup.pollForce ≤ s.sup.pollCount + 1
  | .pacing => first = false ∧ s.settings.pacing ≤ s.events.pacing + 1
  | .donorGrace n => first = false ∧ ∃ k, (s.dist.donors.get n).timer = some k ∧ s.settings.grace ≤ k + 1
  | .linkGrace r => ∃ k, (s.supRec r).grace = some k ∧ s.settings.grace ≤ k + 1
  | .flap r => ∃ k, (s.supRec r).decay = some k ∧ s.settings.flapPeriod * 8000 ≤ k + 1
  | .passTimeout r => ∃ p k, s.svc.pass.get r = some p ∧ p.phase = .awaiting k ∧ s.settings.passTimeout ≤ k + 1
  | .retryEnd r => ∃ p d, s.svc.pass.get r = some p ∧ p.phase = .sending (some d) ∧ 8 ≤ d
  | .schedule => ∃ c, s.store.schedule = some c ∧ c.waiting = false ∧ atOrAfter s.now c.dueFc = true
  | _ => False

theorem mem_graceDue {c : Settings} {first : Bool} {n : DonorId} {d : DonorState} {e : Due} : e ∈ graceDue c first n d ↔
    e = .donorGrace n ∧ first = false ∧ ∃ k, d.timer = some k ∧ c.grace ≤ k + 1 := by
  unfold graceDue
  cases first with
  | true => simp
  | false => simp [mem_timerDue]

theorem mem_recordDue {c : Settings} {r : RemoteId} {v : SupRecord} {e : Due} : e ∈ recordDue c r v ↔
    (e = .linkGrace r ∧ ∃ k, v.grace = some k ∧ c.grace ≤ k + 1) ∨
      (e = .flap r ∧ ∃ k, v.decay = some k ∧ c.flapPeriod * 8000 ≤ k + 1) := by
  rw [recordDue, List.mem_append, mem_timerDue, mem_timerDue]

theorem mem_passDue {c : Settings} {r : RemoteId} {p : Option Pass} {e : Due} : e ∈ passDue c r p ↔
    (e = .passTimeout r ∧ ∃ q k, p = some q ∧ q.phase = .awaiting k ∧ c.passTimeout ≤ k + 1) ∨
      (e = .retryEnd r ∧ ∃ q d, p = some q ∧ q.phase = .sending (some d) ∧ 8 ≤ d) := by
  unfold passDue
  cases p with
  | none => simp
  | some q =>
    cases phase : q.phase with
    | awaiting k => simp [phase, and_comm]
    | sending d => cases d <;> simp [phase, and_comm]

/-! ### The window, the poll, the pacing and the schedule -/

section Counts

variable (s : State) (first : Bool)

theorem State.tickWindow_eq : s.tickWindow = { s with meter := s.meter.ticked s.now }.markAll
    (if s.meter.firstNext then [] else if s.meter.window ≤ s.meter.count + 1 then [.window] else []) := by
  unfold State.tickWindow Meter.ticked
  by_cases next : s.meter.firstNext = true
  · rw [if_pos next, if_pos next, if_pos next]
    rfl
  · rw [if_neg next, if_neg next, if_neg next]
    exact State.markDue_if _ _ (s.meter.window ≤ s.meter.count + 1)

theorem State.tickPoll_eq : s.tickPoll first =
    { s with sup := { s.sup with pollCount := if first then s.sup.pollCount else s.sup.pollCount + 1 } }.markAll
      (if first then [] else if s.sup.pollForce ≤ s.sup.pollCount + 1 then [.poll] else []) := by
  cases first with
  | true => rfl
  | false => exact State.markDue_if _ _ _

theorem State.tickPacing_eq : s.tickPacing first =
    { s with events := { s.events with pacing := if first then s.events.pacing else s.events.pacing + 1 } }.markAll
      (if first then [] else if s.settings.pacing ≤ s.events.pacing + 1 then [.pacing] else []) := by
  cases first with
  | true => rfl
  | false => exact State.markDue_if _ _ _

theorem State.tickSchedule_eq : s.tickSchedule = s.markAll (match s.store.schedule with
    | some c => if !c.waiting && c.reached s.now then [.schedule] else []
    | none => []) := by
  unfold State.tickSchedule
  cases s.store.schedule with
  | none => rfl
  | some c => exact State.markDue_if s .schedule ((!c.waiting && c.reached s.now) = true)

/-- What the counts of the hub itself make due. -/
def State.countsDue : List Due :=
  (if s.meter.firstNext then [] else if s.meter.window ≤ s.meter.count + 1 then [.window] else []) ++
    ((if first then [] else if s.sup.pollForce ≤ s.sup.pollCount + 1 then [.poll] else []) ++
      ((if first then [] else if s.settings.pacing ≤ s.events.pacing + 1 then [.pacing] else []) ++
        match s.store.schedule with
        | some c => if !c.waiting && c.reached s.now then [.schedule] else []
        | none => []))

theorem State.mem_countsDue {e : Due} : e ∈ s.countsDue first ↔
    (e = .window ∧ s.meter.firstNext = false ∧ s.meter.window ≤ s.meter.count + 1) ∨
      (e = .poll ∧ first = false ∧ s.sup.pollForce ≤ s.sup.pollCount + 1) ∨
        (e = .pacing ∧ first = false ∧ s.settings.pacing ≤ s.events.pacing + 1) ∨
          (e = .schedule ∧ ∃ c, s.store.schedule = some c ∧ c.waiting = false ∧ atOrAfter s.now c.dueFc = true) := by
  have alone : ∀ (p : Prop) [Decidable p] (d : Due), e ∈ (if p then [d] else []) ↔ e = d ∧ p := fun p _ d => by
    by_cases h : p <;> simp [h]
  have later : ∀ (b : Bool) (p : Prop) [Decidable p] (d : Due),
      e ∈ (if b then [] else if p then [d] else []) ↔ e = d ∧ b = false ∧ p := fun b p _ d => by
    cases b <;> simp [alone]
  unfold State.countsDue
  rw [List.mem_append, List.mem_append, List.mem_append, later, later, later]
  refine or_congr_right (or_congr_right (or_congr_right ?_))
  cases s.store.schedule with
  | none => simp
  | some c => simp [alone, Schedule.reached]

/-- The counts of the hub itself. -/
def State.counted : State := { s with
  meter := s.meter.ticked s.now
  sup := { s.sup with pollCount := if first then s.sup.pollCount else s.sup.pollCount + 1 }
  events := { s.events with pacing := if first then s.events.pacing else s.events.pacing + 1 } }

theorem State.counts_eq : ((s.tickWindow.tickPoll first).tickPacing first).tickSchedule =
    (s.counted first).markAll (s.countsDue first) := by
  rw [State.tickWindow_eq, State.markAll_withDue, State.tickPoll_eq, State.markAll_withDue, State.tickPacing_eq,
    State.markAll_withDue, State.tickSchedule_eq, State.markAll_withDue, State.markAll_withDue]
  rw [State.countsDue, dueMarked_append, dueMarked_append, dueMarked_append]
  rfl

end Counts

/-! ### The timers of the donor links, the remotes and the pass-throughs -/

section Tables

variable (s : State) (first : Bool)

def State.donorsTicked : State := { s with dist := { s.dist with donors := s.dist.donors.map (DonorState.ticked first) } }

def State.remotesTicked : State := { s with sup := { s.sup with records := s.sup.records.map SupRecord.ticked } }

def State.passesTicked : State := { s with svc := { s.svc with pass := s.svc.pass.map (Option.map Pass.counted) } }

theorem State.tickDonors_eq : ∃ d, (List.finRange 4).foldl (State.tickDonor first) s = (s.donorsTicked first).withDue d ∧
    ∀ e, e ∈ d ↔ e ∈ s.boundary.due ∨ ∃ n, e ∈ graceDue s.settings first n (s.dist.donors.get n) := by
  rw [State.donorsTicked, ← Tab.mapIdx_const]
  exact donorTable.foldl_all (C := fun t => t.settings = s.settings) (D := fun _ => True)
    (fun _ _ h => h) (fun _ _ h => h) (fun t n h _ => State.tickDonor_change h first n) rfl fun _ => trivial

theorem State.tickRemotes_eq : ∃ d, (List.finRange 16).foldl State.tickRemote s = s.remotesTicked.withDue d ∧
    ∀ e, e ∈ d ↔ e ∈ s.boundary.due ∨ ∃ r, e ∈ recordDue s.settings r (s.supRec r) := by
  rw [State.remotesTicked, ← Tab.mapIdx_const]
  exact remoteTable.foldl_all (C := fun t => t.settings = s.settings) (D := fun _ => True)
    (fun _ _ h => h) (fun _ _ h => h) (fun t r h _ => State.tickRemote_change h r) rfl fun _ => trivial

theorem State.tickPasses_eq : ∃ d, (List.finRange 16).foldl State.tickPass s = s.passesTicked.withDue d ∧
    ∀ e, e ∈ d ↔ e ∈ s.boundary.due ∨ ∃ r, e ∈ passDue s.settings r (s.svc.pass.get r) := by
  rw [State.passesTicked, ← Tab.mapIdx_const]
  exact passTable.foldl_all (C := fun t => t.settings = s.settings) (D := fun _ => True)
    (fun _ _ h => h) (fun _ _ h => h) (fun t r h _ => State.tickPass_change h r) rfl fun _ => trivial

theorem State.timeCome_iff (e : Due) : s.TimeCome first e ↔
    (∃ n, e ∈ graceDue s.settings first n (s.dist.donors.get n)) ∨ (∃ r, e ∈ recordDue s.settings r (s.supRec r)) ∨
      (∃ r, e ∈ passDue s.settings r (s.svc.pass.get r)) ∨ e ∈ s.countsDue first := by
  simp only [mem_graceDue, mem_recordDue, mem_passDue, State.mem_countsDue]
  cases e <;> simp [State.TimeCome]

/-- One boundary for all timers: what they count, and what falls due. -/
theorem State.tickAll_eq : ∃ d, s.tickAll first = (s.ticked first).withDue d ∧
    ∀ e, e ∈ d ↔ e ∈ s.boundary.due ∨ s.TimeCome first e := by
  obtain ⟨d1, donors, due1⟩ := s.tickDonors_eq first
  obtain ⟨d2, records, due2⟩ := ((s.donorsTicked first).withDue d1).tickRemotes_eq
  obtain ⟨d3, passes, due3⟩ := (((s.donorsTicked first).withDue d1).remotesTicked.withDue d2).tickPasses_eq
  have whole : s.tickAll first = ((s.ticked first).withDue d3).markAll (s.countsDue first) := by
    have chain : s.tickAll first = (((((List.finRange 16).foldl State.tickPass ((List.finRange 16).foldl State.tickRemote
        ((List.finRange 4).foldl (State.tickDonor first) s))).tickWindow.tickPoll first).tickPacing first).tickSchedule) := rfl
    rw [chain, donors, records, passes, State.counts_eq]
    rfl
  refine ⟨_, whole.trans (State.markAll_withDue _ _), fun e => ?_⟩
  have marked := State.mem_markAll (s := (s.ticked first).withDue d3) (es := s.countsDue first) (e := e)
  rw [State.markAll_withDue] at marked
  have all : e ∈ d3 ↔ ((e ∈ s.boundary.due ∨ ∃ n, e ∈ graceDue s.settings first n (s.dist.donors.get n)) ∨
      ∃ r, e ∈ recordDue s.settings r (s.supRec r)) ∨ ∃ r, e ∈ passDue s.settings r (s.svc.pass.get r) :=
    (due3 e).trans (or_congr_left ((due2 e).trans (or_congr_left (due1 e))))
  refine marked.trans ?_
  show e ∈ s.countsDue first ∨ e ∈ d3 ↔ _
  rw [or_comm, all, or_assoc, or_assoc, or_assoc, State.timeCome_iff]

end Tables

end Sys2Proof.Machine
end

section
namespace Sys2Proof.Machine

/-! ## The load of the live map (R47, R110, R121, R128, R136, R152) -/

/-- What the load of the live map finds: nothing is configured yet, so no remote has left VACANT (R119). -/
structure State.AllVacant (s : State) : Prop where
  health : ∀ r, s.health r = .vacant
  sources : ∀ y, (s.supRec y).sources = []
  boost : ∀ y, (s.supRec y).boost = 0
  present : ∀ r, (s.ramp r).present = 0

theorem State.SupervisionLaw.allVacant {s : State} (h : s.SupervisionLaw) (load : s.map.loadNext = true) : s.AllVacant := by
  obtain ⟨vacant, -⟩ := h.unloaded load
  have out : ∀ r, (s.health r).serves = false := fun r => by rw [vacant r]; rfl
  have sources : ∀ y, (s.supRec y).sources = [] := fun y => by
    rw [h.sources y]
    exact List.filter_eq_nil_iff.mpr fun x _ => by simp [out]
  refine ⟨vacant, sources, fun y => ?_, fun r => (h.present r).2 (by rw [State.serviced, vacant r]; rfl)⟩
  rw [h.boost y, sources y]
  exact ite_self 0

/-! ### One port -/

theorem Tab.map_ofFn {n : Nat} {α β : Type} (f : Fin n → α) (g : α → β) : (Tab.ofFn f).map g = Tab.ofFn fun i => g (f i) :=
  Tab.ext_get fun i => by rw [Tab.get_map, Tab.get_ofFn, Tab.get_ofFn]

theorem Tab.ofFn_get {n : Nat} {α : Type} (t : Tab n α) : (Tab.ofFn fun i => t.get i) = t :=
  Tab.ext_get fun _ => Tab.get_ofFn ..

/-- One part of a table of several, where one member has changed. -/
theorem Tab.map_modify_ofFn {n : Nat} {α γ : Type} {f : Fin n → α} (h : α → γ) {t : Tab n γ} (same : ∀ j, h (f j) = t.get j)
    (i : Fin n) (g : α → α) : ((Tab.ofFn f).modify i g).map h = t.set i (h (g (f i))) := by
  refine Tab.ext_get fun j => ?_
  rw [Tab.get_map, Tab.get_modify, Tab.get_set, Tab.get_ofFn]
  split
  · rename_i own; rw [own]
  · exact same j

/-- One part of a table of several, where every member has changed. -/
theorem Tab.map_mapIdx_ofFn {n : Nat} {α γ : Type} {f : Fin n → α} {k : Fin n → α → α} (h : α → γ) {t : Tab n γ}
    (same : ∀ j, h (k j (f j)) = t.get j) : ((Tab.ofFn f).mapIdx k).map h = t :=
  Tab.ext_get fun j => by rw [Tab.get_map, Tab.get_mapIdx, Tab.get_ofFn, same]

/-- What the blocks hold of each remote port: its supervision record, its framer and its activity records. -/
def portTable : TablePart 16 (SupRecord × Framer × Tab 12 Activity) where
  get s := Tab.ofFn fun r => (s.sup.records.get r, s.links.remotes.get r, s.meter.records.get r)
  put s x := { s with
    sup := { s.sup with records := x.map Prod.fst }
    links := { s.links with remotes := x.map fun p => p.2.1 }
    meter := { s.meter with records := x.map fun p => p.2.2 } }
  get_put s x := Tab.ext_get fun r => by simp
  put_put _ _ _ := rfl
  put_get s := by simp only [Tab.map_ofFn, Tab.ofFn_get]
  get_due _ _ := rfl
  put_due _ _ _ := rfl
  boundary _ _ := rfl

/-- A port as the load leaves it, by whether it is configured, and the configured mode. -/
def portLoaded (configured : Bool) (mode : Mode) : SupRecord × Framer × Tab 12 Activity → SupRecord × Framer × Tab 12 Activity
  | (v, f, row) =>
    ({ v with
        health := if configured then .waiting else .vacant
        cause := if configured then none else v.cause
        mode := v.alarms.effective mode
        awaiting := v.awaiting || (configured && decide (f.rx = .locked)) },
      { f with pollPlace := f.pollPlace || (configured && decide (f.rx = .locked)) },
      row.map fun a => { a with stale := a.stale || configured })

theorem portTable_change (s : State) (r : RemoteId)
    (g : SupRecord × Framer × Tab 12 Activity → SupRecord × Framer × Tab 12 Activity) :
    portTable.change s r g [] =
      let p := g (s.supRec r, s.framer (.remote r), s.meter.records.get r)
      { s with
        sup := { s.sup with records := s.sup.records.set r p.1 }
        links := { s.links with remotes := s.links.remotes.set r p.2.1 }
        meter := { s.meter with records := s.meter.records.set r p.2.2 } } := by
  have sup := Tab.map_modify_ofFn Prod.fst (t := s.sup.records)
    (f := fun r => (s.sup.records.get r, s.links.remotes.get r, s.meter.records.get r)) (fun _ => rfl) r g
  have links := Tab.map_modify_ofFn (fun p => p.2.1) (t := s.links.remotes)
    (f := fun r => (s.sup.records.get r, s.links.remotes.get r, s.meter.records.get r)) (fun _ => rfl) r g
  have meter := Tab.map_modify_ofFn (fun p => p.2.2) (t := s.meter.records)
    (f := fun r => (s.sup.records.get r, s.links.remotes.get r, s.meter.records.get r)) (fun _ => rfl) r g
  show portTable.put s ((portTable.get s).modify r g) = _
  unfold portTable
  simp only
  rw [sup, links, meter]
  rfl

/-- A port comes into the map (R121). -/
theorem State.bringIn_eq {s : State} {r : RemoteId} (present : (s.ramp r).present = 0) : s.bringIn r = { s with
    sup := { s.sup with records := s.sup.records.modify r fun v =>
      { v with health := .waiting, cause := none, awaiting := v.awaiting || s.locked (.remote r) } }
    links := { s.links with remotes := s.links.remotes.modify r fun f =>
      { f with pollPlace := f.pollPlace || s.locked (.remote r) } }
    meter := { s.meter with records := s.meter.records.modify r fun row => row.map fun a => { a with stale := true } } } := by
  have ramps : s.dist.ramps.modify r (fun p => { p with present := 0 }) = s.dist.ramps := by
    refine Tab.modify_same _ _ ?_
    show ({ s.ramp r with present := 0 } : Ramp) = s.ramp r
    rw [← present]
  have whole : s.bringIn r = if s.locked (.remote r) = true then { s with
        sup := { s.sup with records := (s.sup.records.modify r fun v =>
          { v with health := .waiting, cause := none }).modify r fun v => { v with awaiting := true } }
        links := { s.links with remotes := s.links.remotes.modify r fun f => { f with pollPlace := true } }
        dist := { s.dist with ramps := s.dist.ramps.modify r fun p => { p with present := 0 } }
        meter := { s.meter with records := s.meter.records.modify r fun row => row.map fun a => { a with stale := true } } }
      else { s with
        sup := { s.sup with records := s.sup.records.modify r fun v => { v with health := .waiting, cause := none } }
        dist := { s.dist with ramps := s.dist.ramps.modify r fun p => { p with present := 0 } }
        meter := { s.meter with records := s.meter.records.modify r fun row => row.map fun a => { a with stale := true } } } := rfl
  rw [whole, ramps]
  by_cases locked : s.locked (.remote r) = true
  · rw [if_pos locked, Tab.modify_modify]
    simp only [locked, Bool.or_true]
  · have off : s.locked (.remote r) = false := Bool.eq_false_iff.mpr locked
    have links : (s.links.remotes.modify r fun f => { f with pollPlace := f.pollPlace || false }) = s.links.remotes :=
      Tab.modify_same _ _ (by rw [Bool.or_false])
    rw [if_neg locked, off, links]
    simp only [Bool.or_false]

theorem portLoaded_configured (m : Mode) (v : SupRecord) (f : Framer) (row : Tab 12 Activity) :
    portLoaded true m (v, f, row) = ({ v with
        health := .waiting, cause := none, mode := v.alarms.effective m, awaiting := v.awaiting || decide (f.rx = .locked) },
      { f with pollPlace := f.pollPlace || decide (f.rx = .locked) }, row.map fun a => { a with stale := true }) := by
  simp only [portLoaded, Bool.or_true, Bool.true_and, if_true]

theorem portLoaded_unconfigured (m : Mode) {v : SupRecord} (vacant : v.health = .vacant) (f : Framer) (row : Tab 12 Activity) :
    portLoaded false m (v, f, row) = ({ v with mode := v.alarms.effective m }, f, row) := by
  have same : (row.map fun a => a) = row := Tab.ext_get fun _ => Tab.get_map ..
  simp only [portLoaded, Bool.or_false, Bool.false_and, Bool.false_eq_true, if_false, same, ← vacant]

theorem State.loadRemote_change {s : State} {r : RemoteId} (vacant : s.health r = .vacant) (present : (s.ramp r).present = 0) :
    s.loadRemote r = portTable.change s r (portLoaded (s.live r).configured (s.live r).mode) [] := by
  rw [portTable_change]
  unfold State.loadRemote
  cases configured : (s.live r).configured with
  | true =>
    simp only [vacant, decide_true, Bool.and_self, if_true, State.bringIn_eq present, portLoaded_configured]
    have records := Tab.modify_modify s.sup.records r
      (fun v => { v with health := .waiting, cause := none, awaiting := v.awaiting || s.locked (.remote r) })
      fun v => { v with mode := v.alarms.effective (s.live r).mode }
    exact congrArg (fun x => { s with
      sup := { s.sup with records := x }
      links := { s.links with remotes := s.links.remotes.modify r fun f =>
        { f with pollPlace := f.pollPlace || s.locked (.remote r) } }
      meter := { s.meter with records := s.meter.records.modify r fun row => row.map fun a => { a with stale := true } } }) records
  | false =>
    have links : s.links.remotes.set r (s.framer (.remote r)) = s.links.remotes := Tab.modify_same (f := id) _ _ rfl
    have meter : s.meter.records.set r (s.meter.records.get r) = s.meter.records := Tab.modify_same (f := id) _ _ rfl
    simp only [vacant, Bool.false_and, Bool.not_false, Bool.true_and, ne_eq, not_true, decide_false, Bool.false_eq_true,
      if_false, portLoaded_unconfigured _ (v := s.supRec r) vacant, links, meter]
    rfl

end Sys2Proof.Machine
end

section
namespace Sys2Proof.Machine

/-! ### All ports, and the sectors -/

/-- Every port as the load leaves it. -/
def State.portsLoaded (s : State) : State := { s with
  sup := { s.sup with records := s.sup.records.mapIdx fun (r : RemoteId) (v : SupRecord) => { v with
    health := if (s.live r).configured then .waiting else .vacant
    cause := if (s.live r).configured then none else v.cause
    mode := v.alarms.effective (s.live r).mode
    awaiting := v.awaiting || ((s.live r).configured && s.locked (.remote r)) } }
  links := { s.links with remotes := s.links.remotes.mapIdx fun (r : RemoteId) (f : Framer) =>
    { f with pollPlace := f.pollPlace || ((s.live r).configured && s.locked (.remote r)) } }
  meter := { s.meter with records := s.meter.records.mapIdx fun (r : RemoteId) row => row.map fun (a : Activity) =>
    { a with stale := a.stale || (s.live r).configured } } }

/-- Every sector as the load leaves it: nothing serves (R136). -/
def State.sectorsLoaded (s : State) : State := { s with sup := { s.sup with
  serving := Tab.const 8 0, degraded := s.map.sectors.map fun e => decide (0 < e.minimum) } }

theorem State.portsLoaded_eq (s : State) :
    portTable.put s ((portTable.get s).mapIdx fun r => portLoaded (s.live r).configured (s.live r).mode) = s.portsLoaded := by
  have sup := Tab.map_mapIdx_ofFn (k := fun r => portLoaded (s.live r).configured (s.live r).mode) Prod.fst
    (f := fun r => (s.sup.records.get r, s.links.remotes.get r, s.meter.records.get r))
    (t := s.portsLoaded.sup.records) fun r => by rw [State.portsLoaded, Tab.get_mapIdx]; rfl
  have links := Tab.map_mapIdx_ofFn (k := fun r => portLoaded (s.live r).configured (s.live r).mode) (fun p => p.2.1)
    (f := fun r => (s.sup.records.get r, s.links.remotes.get r, s.meter.records.get r))
    (t := s.portsLoaded.links.remotes) fun r => by rw [State.portsLoaded, Tab.get_mapIdx]; rfl
  have meter := Tab.map_mapIdx_ofFn (k := fun r => portLoaded (s.live r).configured (s.live r).mode) (fun p => p.2.2)
    (f := fun r => (s.sup.records.get r, s.links.remotes.get r, s.meter.records.get r))
    (t := s.portsLoaded.meter.records) fun r => by rw [State.portsLoaded, Tab.get_mapIdx]; rfl
  unfold portTable
  simp only
  rw [sup, links, meter]
  rfl

theorem portTable_health (s : State) (r : RemoteId) : ((portTable.get s).get r).1.health = s.health r :=
  congrArg (fun p : SupRecord × Framer × Tab 12 Activity => p.1.health) (Tab.get_ofFn ..)

theorem State.loadRemotes_eq {s : State} (h : s.AllVacant) : ∃ d,
    (List.finRange 16).foldl State.loadRemote s = s.portsLoaded.withDue d ∧ ∀ e, e ∈ d ↔ e ∈ s.boundary.due := by
  obtain ⟨d, whole, due⟩ := portTable.foldl_all (step := State.loadRemote)
    (C := fun t => t.map = s.map ∧ ∀ r, (t.ramp r).present = 0) (D := fun p => p.1.health = .vacant)
    (g := fun r => portLoaded (s.live r).configured (s.live r).mode) (marks := fun _ _ => [])
    (fun _ _ c => c) (fun _ _ c => c)
    (fun t r ⟨map, present⟩ vacant => by
      have live : t.live r = s.live r := by rw [State.live, map]; rfl
      rw [State.loadRemote_change ((portTable_health t r).symm.trans vacant) (present r), live])
    (s := s) ⟨rfl, h.present⟩ fun r => (portTable_health s r).trans (h.health r)
  refine ⟨d, by rw [whole, State.portsLoaded_eq], fun e => (due e).trans (by simp)⟩

section NothingServes

variable {s : State}

/-- Without sources and boosts nothing is boosted anew (R134, R135). -/
theorem State.reevalBoosts_idle (out : ∀ r, (s.health r).serves = false) (sources : ∀ y, (s.supRec y).sources = [])
    (boost : ∀ y, (s.supRec y).boost = 0) (ys : List RemoteId) : s.reevalBoosts ys = (s, []) := by
  have one : ∀ y, s.reevalBoost y = (s, false) := fun y => by
    have none : s.sourcesOf y = [] := if_neg (by simp [out y])
    have zero : s.appliedBoost y [] = 0 := ite_self 0
    have same : (s.modSup y fun v => { v with sources := [], boost := 0 }) = s :=
      congrArg (remoteTable.put s) (Tab.modify_same _ _ (by
        show ({ s.supRec y with sources := [], boost := 0 } : SupRecord) = s.supRec y
        rw [← sources y, ← boost y]))
    unfold State.reevalBoost
    simp only [none, zero, same, boost y, ne_eq, not_true, decide_false]
  unfold State.reevalBoosts
  induction ys with
  | nil => rfl
  | cons y ys ih =>
    rw [List.foldl_cons, one y]
    exact ih

def sectorTable : TablePart 8 (Nat × Bool) where
  get s := Tab.ofFn fun x => (s.sup.serving.get x, s.sup.degraded.get x)
  put s x := { s with sup := { s.sup with serving := x.map Prod.fst, degraded := x.map Prod.snd } }
  get_put s x := Tab.ext_get fun r => by simp
  put_put _ _ _ := rfl
  put_get s := by simp only [Tab.map_ofFn, Tab.ofFn_get]
  get_due _ _ := rfl
  put_due _ _ _ := rfl
  boundary _ _ := rfl

theorem State.servingNow_zero (out : ∀ r, (s.health r).serves = false) (x : SectorId) : s.servingNow x = 0 := by
  rw [State.servingNow, List.length_eq_zero_iff, List.filter_eq_nil_iff]
  exact fun r _ => by simp [out r]

theorem State.evalDegraded_change (x : SectorId) (none : s.servingNow x = 0) : s.evalDegraded false x =
    sectorTable.change s x (fun _ => (0, decide (0 < (s.map.sectors.get x).minimum))) [] := by
  have serving := Tab.map_modify_ofFn Prod.fst (f := fun x => (s.sup.serving.get x, s.sup.degraded.get x)) (fun _ => rfl) x
    fun _ => (0, decide (0 < (s.map.sectors.get x).minimum))
  have degraded := Tab.map_modify_ofFn Prod.snd (f := fun x => (s.sup.serving.get x, s.sup.degraded.get x)) (fun _ => rfl) x
    fun _ => (0, decide (0 < (s.map.sectors.get x).minimum))
  show _ = sectorTable.put s ((sectorTable.get s).modify x _)
  unfold State.evalDegraded State.degradedNow sectorTable
  simp only [Bool.false_and, Bool.false_eq_true, if_false]
  rw [serving, degraded, none]

theorem State.evalSectors_eq (out : ∀ r, (s.health r).serves = false) : ∃ d,
    (List.finRange 8).foldl (fun s x => s.evalDegraded false x) s = s.sectorsLoaded.withDue d ∧
      ∀ e, e ∈ d ↔ e ∈ s.boundary.due := by
  obtain ⟨d, whole, due⟩ := sectorTable.foldl_all (step := fun s x => s.evalDegraded false x)
    (C := fun t => (∀ x, t.servingNow x = 0) ∧ t.map = s.map) (D := fun _ => True)
    (g := fun x _ => (0, decide (0 < (s.map.sectors.get x).minimum))) (marks := fun _ _ => [])
    (fun _ _ c => c) (fun _ _ c => c)
    (fun t x ⟨zero, map⟩ _ => by rw [State.evalDegraded_change x (zero x), map])
    (s := s) ⟨State.servingNow_zero out, rfl⟩ fun _ => trivial
  refine ⟨d, whole.trans (congrArg (State.withDue · d) ?_), fun e => (due e).trans (by simp)⟩
  have serving := Tab.map_mapIdx_ofFn (k := fun x _ => ((0 : Nat), decide (0 < (s.map.sectors.get x).minimum))) Prod.fst
    (f := fun x => (s.sup.serving.get x, s.sup.degraded.get x)) (t := Tab.const 8 0) fun x => (Tab.get_const ..).symm
  have degraded := Tab.map_mapIdx_ofFn (k := fun x _ => ((0 : Nat), decide (0 < (s.map.sectors.get x).minimum))) Prod.snd
    (f := fun x => (s.sup.serving.get x, s.sup.degraded.get x))
    (t := s.map.sectors.map fun e => decide (0 < e.minimum)) fun x => by rw [Tab.get_map]
  unfold sectorTable
  simp only
  rw [serving, degraded]
  rfl

end NothingServes

theorem State.recomputeAll_nil (s : State) : s.recomputeAll [] = s := rfl

theorem State.sectorsLoaded_withDue (s : State) (d e : List Due) :
    ((s.withDue d).sectorsLoaded).withDue e = s.sectorsLoaded.withDue e := rfl

/-- The live map is loaded: the map, the ports and the sectors (R110). -/
theorem State.loadMap_eq {s : State} (h : s.AllVacant) : ∃ d,
    s.loadMap = (s.takeStartPlan.portsLoaded.sectorsLoaded).withDue d ∧ ∀ e, e ∈ d ↔ e ∈ s.boundary.due := by
  have vacant : s.takeStartPlan.AllVacant := ⟨h.health, h.sources, h.boost, h.present⟩
  obtain ⟨d1, ports, due1⟩ := State.loadRemotes_eq vacant
  have records : ∀ r, (s.takeStartPlan.portsLoaded.withDue d1).supRec r = _ := fun r => Tab.get_mapIdx ..
  have out : ∀ r, ((s.takeStartPlan.portsLoaded.withDue d1).health r).serves = false := fun r => by
    rw [State.health, records r]
    cases (s.takeStartPlan.live r).configured <;> rfl
  have idle := State.reevalBoosts_idle out (fun y => by rw [records y]; exact h.sources y)
    (fun y => by rw [records y]; exact h.boost y) (List.finRange 16)
  obtain ⟨d2, sectors, due2⟩ := State.evalSectors_eq out
  refine ⟨d2, ?_, fun e => (due2 e).trans (due1 e)⟩
  unfold State.loadMap
  rw [ports]
  simp only [idle]
  rw [State.recomputeAll_nil, sectors, State.sectorsLoaded_withDue]

end Sys2Proof.Machine
end

section
namespace Sys2Proof.Machine

/-! ## The emission of a boundary (R8, R110, R165) -/

/-- With nothing outstanding there is nothing to settle before the next boundary (log entry 2). -/
theorem State.settle_idle {s : State} (idle : s.boundary = ⟨false, []⟩) (handed : ∀ l, (s.framer l).handed = []) :
    s.settle = s := by
  have acted : s.actBoundary = s := if_neg (by simp [idle])
  have taken : s.takeList s.boundary.due = s := by rw [idle]; rfl
  have stays : ∀ {α : Type} (f : State → α → State) (xs : List α), (∀ x, f s x = s) → xs.foldl f s = s := by
    intro α f xs h
    induction xs with
    | nil => rfl
    | cons x xs ih => rw [List.foldl_cons, h x, ih]
  have drained : s.drainHanded = s := by
    have remotes := stays (fun s r => s.drainRemote r (s.framer (.remote r)).handed.length) (List.finRange 16)
      fun r => by rw [handed]; rfl
    have donors := stays (fun s n => s.drainService (.donor n) (s.framer (.donor n)).handed.length) (List.finRange 4)
      fun n => by rw [handed]; rfl
    unfold State.drainHanded
    simp only [remotes, donors, handed]
    rfl
  unfold State.settle
  simp only [acted, taken, drained]

/-- The first event of a hub on defaults (R165). -/
def State.eventsAt (s : State) (first : Bool) (fc : FC) : EventQueue :=
  match first, s.loader.image with
  | true, some (.defaulted c) => s.events.post .configDefaulted .hub none
      (match c with | .absent => 1 | .checkFailed => 2 | .refused => 3) fc
  | _, _ => s.events

theorem State.postDefaulted_eq (s : State) (first : Bool) :
    (if first then s.postDefaulted else s) = { s with events := s.eventsAt first s.now } := by
  unfold State.postDefaulted State.eventsAt
  cases first with
  | false => rfl
  | true =>
    cases s.loader.image with
    | none => rfl
    | some i =>
      cases i with
      | defaulted c => cases c <;> rfl
      | _ => rfl

theorem EventQueue.post_pacing (q : EventQueue) (k : EventKind) (x : Subject) (tag : Option (Fin 16)) (d : BitVec 16) (fc : FC) :
    (q.post k x tag d fc).pacing = q.pacing := by
  unfold EventQueue.post
  split
  · rfl
  · split
    · rfl
    · split <;> rfl

theorem State.eventsAt_pacing (s : State) (first : Bool) (fc : FC) : (s.eventsAt first fc).pacing = s.events.pacing := by
  unfold State.eventsAt
  split
  · exact EventQueue.post_pacing ..
  · rfl

theorem mem_allLinks (l : Link) : l ∈ allLinks := by
  obtain ⟨before, after, split, -⟩ := allLinks_split l
  rw [split]
  exact List.mem_append_right _ List.mem_cons_self

theorem State.mem_boundaryEvents {s : State} {e : Due} : e ∈ s.boundaryEvents ↔
    (e = .switch ∧ s.engine.state = .switchPending) ∨ (e = .rampStep ∧ s.now.toNat % s.settings.rampInterval = 0) ∨
      ∃ l, e = .sender l ∧ (s.framer l).emission = none := by
  have alone : ∀ (p : Prop) [Decidable p] (d : Due), e ∈ (if p then [d] else []) ↔ e = d ∧ p := fun p _ d => by
    by_cases h : p <;> simp [h]
  unfold State.boundaryEvents
  rw [List.mem_append, List.mem_append, alone, alone, or_assoc]
  refine or_congr_right (or_congr_right ?_)
  simp only [List.mem_map, List.mem_filter, mem_allLinks, true_and, Option.isNone_iff_eq_none]
  exact exists_congr fun l => ⟨fun ⟨h, k⟩ => ⟨k.symm, h⟩, fun ⟨k, h⟩ => ⟨h, k.symm⟩⟩

/-- What the emission does after the load of the live map, if it comes with it. -/
theorem State.afterTick_eq (s v : State) (first : Bool) (loaded : (if s.map.loadNext then s.loadMap else s) = v) :
    ∃ d, s.afterTick first = ((({ v with events := v.eventsAt first v.now } : State).ticked first).withDue d).setActing true ∧
      ∀ e, e ∈ d ↔ e ∈ v.boundary.due ∨ ({ v with events := v.eventsAt first v.now } : State).TimeCome first e ∨
        e ∈ v.boundaryEvents := by
  obtain ⟨d, ticked, due⟩ := ({ v with events := v.eventsAt first v.now } : State).tickAll_eq first
  have whole : s.afterTick first = (({ v with events := v.eventsAt first v.now } : State).ticked first |>.withDue d
      |>.markAll v.boundaryEvents).setActing true := by
    unfold State.afterTick
    simp only [loaded, State.postDefaulted_eq, ticked]
    rfl
  refine ⟨_, whole.trans (congrArg (State.setActing · true) (State.markAll_withDue _ _)), fun e => ?_⟩
  have marked := State.mem_markAll (es := v.boundaryEvents) (e := e)
    (s := (({ v with events := v.eventsAt first v.now } : State).ticked first).withDue d)
  rw [State.markAll_withDue] at marked
  refine marked.trans ?_
  show e ∈ v.boundaryEvents ∨ e ∈ d ↔ _
  rw [due, or_comm, or_assoc]

end Sys2Proof.Machine
end

section
namespace Sys2Proof.Machine

/-! ### What falls due at the emission of a boundary -/

/-- Everything that decides what falls due is as in s, and the boundary's number is fc. -/
structure State.SameTimers (s : State) (fc : FC) (v : State) : Prop where
  nothing : v.boundary.due = []
  now : v.now = fc
  engine : v.engine = s.engine
  settings : v.settings = s.settings
  emission : ∀ l, (v.framer l).emission = (s.framer l).emission
  meter : v.meter = { s.meter with records := v.meter.records }
  force : v.sup.pollForce = s.sup.pollForce
  count : v.sup.pollCount = s.sup.pollCount
  events : v.events = s.events
  donors : v.dist.donors = s.dist.donors
  grace : ∀ r, (v.supRec r).grace = (s.supRec r).grace
  decay : ∀ r, (v.supRec r).decay = (s.supRec r).decay
  pass : v.svc.pass = s.svc.pass
  store : v.store = s.store

/-- The events that fall due at boundary fc, by what is found there. -/
def State.FallsDue (s : State) (first : Bool) (fc : FC) : Due → Prop
  | .switch => s.engine.state = .switchPending
  | .rampStep => fc.toNat % s.settings.rampInterval = 0
  | .sender l => (s.framer l).emission = none
  | .window => s.meter.firstNext = false ∧ s.meter.window ≤ s.meter.count + 1
  | .poll => first = false ∧ s.sup.pollForce ≤ s.sup.pollCount + 1
  | .pacing => first = false ∧ s.settings.pacing ≤ s.events.pacing + 1
  | .donorGrace n => first = false ∧ ∃ k, (s.dist.donors.get n).timer = some k ∧ s.settings.grace ≤ k + 1
  | .linkGrace r => ∃ k, (s.supRec r).grace = some k ∧ s.settings.grace ≤ k + 1
  | .flap r => ∃ k, (s.supRec r).decay = some k ∧ s.settings.flapPeriod * 8000 ≤ k + 1
  | .passTimeout r => ∃ p k, s.svc.pass.get r = some p ∧ p.phase = .awaiting k ∧ s.settings.passTimeout ≤ k + 1
  | .retryEnd r => ∃ p d, s.svc.pass.get r = some p ∧ p.phase = .sending (some d) ∧ 8 ≤ d
  | .schedule => ∃ c, s.store.schedule = some c ∧ c.waiting = false ∧ atOrAfter fc c.dueFc = true
  | _ => False

theorem State.SameTimers.falls {s v : State} {fc : FC} (h : s.SameTimers fc v) (first : Bool) (e : Due) :
    (e ∈ v.boundary.due ∨ ({ v with events := v.eventsAt first v.now } : State).TimeCome first e ∨
      e ∈ v.boundaryEvents) ↔ s.FallsDue first fc e := by
  have next : v.meter.firstNext = s.meter.firstNext := (congrArg Meter.firstNext h.meter :)
  have window : v.meter.window = s.meter.window := (congrArg Meter.window h.meter :)
  have count : v.meter.count = s.meter.count := (congrArg Meter.count h.meter :)
  have come : ({ v with events := v.eventsAt first v.now } : State).TimeCome first e ↔ v.TimeCome first e := by
    cases e
    case pacing =>
      show first = false ∧ v.settings.pacing ≤ (v.eventsAt first v.now).pacing + 1 ↔ _
      rw [State.eventsAt_pacing]
      exact Iff.rfl
    all_goals exact Iff.rfl
  rw [come, State.mem_boundaryEvents, h.nothing]
  cases e <;> simp [State.TimeCome, State.FallsDue, next, window, count, h.now, h.engine, h.settings, h.emission, h.force,
    h.count, h.events, h.donors, h.grace, h.decay, h.pass, h.store]

theorem State.sameTimers_tickClock {s : State} (idle : s.boundary = ⟨false, []⟩) :
    s.SameTimers s.tickClock.clock.fc s.tickClock := by
  exact ⟨congrArg Boundary.due idle, rfl, rfl, rfl, fun _ => rfl, rfl, rfl, rfl, rfl, rfl, fun _ => rfl, fun _ => rfl, rfl, rfl⟩

/-! ### The plan that the live map is loaded from (R110) -/

/-- The start plan, when it is valid. -/
def State.startSource (s : State) : Option PlanId :=
  match s.store.start with
  | some p => if (s.store.plans.get p).valid then some p else none
  | none => none

def State.planOf (s : State) (source : Option PlanId) : Plan :=
  match source with
  | some p => s.store.plans.get p
  | none => Plan.default

theorem State.startPlan_eq (s : State) : s.startPlan = s.startSource.map fun p => (p, s.store.plans.get p) := by
  unfold State.startPlan State.startSource
  cases s.store.start with
  | none => rfl
  | some p => simp only; split <;> rfl

/-- A port's live record from the plan: without a sector where it is unconfigured (R110). -/
def RemoteEntry.loaded (e : RemoteEntry) : RemoteEntry := { e with sector := if e.configured then e.sector else none }

theorem State.takeStartPlan_eq (s : State) : s.takeStartPlan = { s with
    map := ⟨(s.planOf s.startSource).remotes.map fun e => ⟨e.loaded, e.loaded.sector⟩, (s.planOf s.startSource).sectors,
      s.startSource, false, false⟩
    comb := { s.comb with history := Tab.const 16 ⟨none, none, s.now⟩ }
    svc := { s.svc with taking := true } } := by
  have plan : (match s.startPlan with | some p => p.2 | none => Plan.default) = s.planOf s.startSource := by
    rw [State.startPlan_eq]
    cases s.startSource <;> rfl
  have active : s.startPlan.map Prod.fst = s.startSource := by
    rw [State.startPlan_eq]
    cases s.startSource <;> rfl
  unfold State.takeStartPlan
  rw [active]
  exact congrArg (fun p : Plan => { s with
    map := ⟨p.remotes.map fun e => ⟨e.loaded, e.loaded.sector⟩, p.sectors, s.startSource, false, false⟩
    comb := { s.comb with history := Tab.const 16 ⟨none, none, s.now⟩ }
    svc := { s.svc with taking := true } }) plan

end Sys2Proof.Machine
end

section
namespace Sys2Proof.Machine

/-! ### The emission, whole -/

/-- The map, the ports and the sectors as the load leaves them (R110). -/
def State.mapLoaded (s : State) : State := s.takeStartPlan.portsLoaded.sectorsLoaded

theorem State.takeStartPlan_live (s : State) (r : RemoteId) :
    s.takeStartPlan.live r = ((s.planOf s.startSource).remotes.get r).loaded := by
  rw [State.takeStartPlan_eq]
  exact congrArg LiveRemote.entry (Tab.get_map ..)

theorem State.sameTimers_mapLoaded {s : State} (idle : s.boundary = ⟨false, []⟩) :
    s.SameTimers s.tickClock.clock.fc s.tickClock.mapLoaded := by
  have record : ∀ r, s.tickClock.mapLoaded.supRec r = _ := fun r => Tab.get_mapIdx ..
  refine ⟨congrArg Boundary.due idle, rfl, rfl, rfl, fun l => ?_, rfl, rfl, rfl, rfl, rfl, fun r => ?_, fun r => ?_, rfl, rfl⟩
  · cases l with
    | remote r =>
      have framer : s.tickClock.mapLoaded.framer (.remote r) = _ := Tab.get_mapIdx ..
      rw [framer]; rfl
    | donor n => rfl
    | service => rfl
  · rw [record]; rfl
  · rw [record]; rfl

/-- What the boundary finds once the live map is loaded, if it is still to be. -/
def State.found (s : State) : State := if s.map.loadNext then s.tickClock.mapLoaded else s.tickClock

/-- The state after the emission, but for what is due: the loaded map, the report of a hub on defaults, and the timers. -/
def State.emitted (s : State) (v : State) : State :=
  ({ v with events := v.eventsAt (!s.clock.started) v.now } : State).ticked (!s.clock.started)

theorem State.emitBoundary_idle {s : State} (ended : s.loader.readEnded = true) (idle : s.boundary = ⟨false, []⟩)
    (handed : ∀ l, (s.framer l).handed = []) (law : s.map.loadNext = true → s.SupervisionLaw) :
    ∃ d, s.emitBoundary = ((s.emitted s.found).withDue d).setActing true ∧
      ∀ e, e ∈ d ↔ s.FallsDue (!s.clock.started) s.tickClock.clock.fc e := by
  have emits : s.emitBoundary = s.tickClock.afterTick (!s.clock.started) := by
    unfold State.emitBoundary
    rw [if_pos ended]
    simp only [State.settle_idle idle handed]
  rw [emits]
  unfold State.found
  cases load : s.map.loadNext with
  | false =>
    obtain ⟨d, whole, due⟩ := State.afterTick_eq s.tickClock s.tickClock (!s.clock.started) (if_neg (by
      show ¬s.map.loadNext = true
      rw [load]; exact Bool.false_ne_true))
    exact ⟨d, whole, fun e => (due e).trans ((State.sameTimers_tickClock idle).falls _ e)⟩
  | true =>
    have vacant := (law load).allVacant load
    obtain ⟨d0, loaded, due0⟩ := State.loadMap_eq (s := s.tickClock) ⟨vacant.health, vacant.sources, vacant.boost, vacant.present⟩
    have none : d0 = s.tickClock.mapLoaded.boundary.due := by
      have empty : s.tickClock.boundary.due = [] := congrArg Boundary.due idle
      rw [empty] at due0
      exact (List.eq_nil_iff_forall_not_mem.mpr fun e h => List.not_mem_nil ((due0 e).mp h)).trans empty.symm
    have same : s.tickClock.loadMap = s.tickClock.mapLoaded := by rw [loaded, none]; rfl
    obtain ⟨d, whole, due⟩ := State.afterTick_eq s.tickClock s.tickClock.mapLoaded (!s.clock.started)
      ((if_pos load).trans same)
    exact ⟨d, whole, fun e => (due e).trans ((State.sameTimers_mapLoaded idle).falls _ e)⟩

end Sys2Proof.Machine
end

section
namespace Sys2Proof.Machine

/-- The emission moves the frame count and opens the boundary, and touches no stored configuration. -/
theorem State.emitBoundary_frame {s : State} (ended : s.loader.readEnded = true) :
    s.emitBoundary.clock.fc = (if s.clock.started then s.clock.fc + 1 else 0) ∧ s.emitBoundary.clock.started = true ∧
      s.emitBoundary.boundary.acting = true ∧ s.emitBoundary.settings = s.settings ∧
      s.emitBoundary.dist.carriers = s.dist.carriers ∧ s.emitBoundary.store.plans = s.store.plans ∧
      s.emitBoundary.loader = s.loader := by
  have settled := s.settle_steady
  unfold State.emitBoundary
  rw [if_pos ended]
  simp only
  generalize s.settle = u at settled
  have rest := (u.tickClock.afterTick_quiet (!u.clock.started)).steady
  obtain ⟨v, calm, eq⟩ := State.afterTick_calm u.tickClock (!u.clock.started)
  refine ⟨?_, rest.started.trans rfl, by rw [eq]; rfl, rest.settings.trans settled.settings,
    rest.carriers.trans settled.carriers, rest.plans.trans settled.plans, rest.loader.trans settled.loader⟩
  rw [rest.fc, ← settled.fc, ← settled.started]
  rfl

theorem State.eq_of_parts {s t : State} (pending : t.pending = s.pending) (loader : t.loader = s.loader)
    (clock : t.clock = s.clock) (settings : t.settings = s.settings) (links : t.links = s.links) (dist : t.dist = s.dist)
    (comb : t.comb = s.comb) (meter : t.meter = s.meter) (map : t.map = s.map) (engine : t.engine = s.engine)
    (spreader : t.spreader = s.spreader) (store : t.store = s.store) (sup : t.sup = s.sup) (events : t.events = s.events)
    (svc : t.svc = s.svc) (boundary : t.boundary = s.boundary) : t = s := by
  obtain ⟨⟩ := s
  obtain ⟨⟩ := t
  simp only at *
  subst_vars
  rfl

theorem Meter.ticked_records (m : Meter) (x : Tab 16 (Tab 12 Activity)) (fc : FC) :
    ({ m with records := x } : Meter).ticked fc = { m.ticked fc with records := x } := by
  unfold Meter.ticked
  split <;> rfl

theorem Tab.map_mapIdx {n : Nat} {α β γ : Type} (t : Tab n α) (f : Fin n → α → β) (g : β → γ) :
    (t.mapIdx f).map g = t.mapIdx fun i a => g (f i a) :=
  Tab.ext_get fun i => by rw [Tab.get_map, Tab.get_mapIdx, Tab.get_mapIdx]

theorem State.emitted_events {s v : State} (events : v.events = s.events) (loader : v.loader = s.loader) :
    (s.emitted v).events = { s.eventsAt (!s.clock.started) v.now with
      pacing := if !s.clock.started then s.events.pacing else s.events.pacing + 1 } := by
  have same : v.eventsAt (!s.clock.started) v.now = s.eventsAt (!s.clock.started) v.now := by
    unfold State.eventsAt
    rw [events, loader]
  have pacing := s.eventsAt_pacing (!s.clock.started) v.now
  unfold State.emitted State.ticked
  simp only [same, pacing]

/-- Settles O11: the emission with nothing outstanding is the load of the map, the report of FC 0 and the timers. -/
theorem boundaryCarriesTheNextFrameCount : Obligations.BoundaryCarriesTheNextFrameCount := by
  unfold Obligations.BoundaryCarriesTheNextFrameCount
  refine fun s => ⟨fun unread => congrArg Host.Outcome.next (if_neg (by simp [unread])), fun ended => ?_⟩
  obtain ⟨fc, started, acting, settings, carriers, plans, loader⟩ := State.emitBoundary_frame ended
  refine ⟨s.emitBoundary, rfl, fc, started, acting, settings, carriers, plans, loader, rfl, fun idle handed => ?_⟩
  intro first fc' reported counted donors polls passes meter events
  have number : fc' = s.tickClock.clock.fc := fc
  have report : ∀ {n : FC}, n = fc' → { s.eventsAt (!s.clock.started) n with
      pacing := if !s.clock.started then s.events.pacing else s.events.pacing + 1 } = events := fun {n} h => by
    subst h
    rfl
  refine ⟨fun unloaded => ?_, fun law e => ?_, fun load law => ?_⟩
  · obtain ⟨d, whole, -⟩ := State.emitBoundary_idle ended idle handed fun load => absurd (load.symm.trans unloaded) nofun
    have found : s.found = s.tickClock := if_neg (by rw [unloaded]; exact Bool.false_ne_true)
    rw [found] at whole
    have part : ∀ {β : Type} (f : State → β), f s.emitBoundary = _ := fun f => congrArg f whole
    refine State.eq_of_parts (part State.pending) (part State.loader) ?_ (part State.settings) (part State.links)
      (part State.dist) (part State.comb) ?_ (part State.map) (part State.engine) (part State.spreader) (part State.store)
      (part State.sup) ?_ (part State.svc) rfl
    · exact (part State.clock).trans (congrArg (fun x : FC => { s.clock with fc := x, started := true }) number.symm)
    · exact (part State.meter).trans (congrArg s.meter.ticked number.symm)
    · exact ((part State.events).trans (State.emitted_events (v := s.tickClock) rfl rfl)).trans (report number.symm)
  · obtain ⟨d, whole, due⟩ := State.emitBoundary_idle ended idle handed law
    rw [whole]
    refine (due e).trans ?_
    rw [← number]
    cases e <;> exact Iff.rfl
  · intro source plan configured place
    obtain ⟨d, whole, -⟩ := State.emitBoundary_idle ended idle handed fun _ => law
    have found : s.found = s.tickClock.mapLoaded := if_pos load
    rw [found] at whole
    have part : ∀ {β : Type} (f : State → β), f s.emitBoundary = _ := fun f => congrArg f whole
    have taken : plan = s.planOf s.startSource := rfl
    have live : ∀ r, s.tickClock.takeStartPlan.live r = { plan.remotes.get r with sector := place r } :=
      s.tickClock.takeStartPlan_live
    have ports : (fun r => (s.tickClock.takeStartPlan.live r).configured) = configured := funext fun r => by rw [live]
    refine ⟨State.eq_of_parts (part State.pending) (part State.loader) ?_ (part State.settings) ?_
      (part State.dist) ?_ ?_ ?_ (part State.engine) (part State.spreader) (part State.store)
      ?_ ?_ (part State.svc) rfl, fun r => ?_, fun x => ⟨?_, ?_⟩⟩
    · exact (part State.clock).trans (congrArg (fun x : FC => { s.clock with fc := x, started := true }) number.symm)
    · exact (part State.links).trans (congrArg (fun c : RemoteId → Bool => { s.links with
        remotes := s.links.remotes.mapIdx fun (r : RemoteId) (f : Framer) =>
          { f with pollPlace := f.pollPlace || (c r && s.locked (.remote r)) } }) ports)
    · exact (part State.comb).trans (congrArg (fun x : FC => { s.comb with
        history := Tab.const 16 ⟨none, none, x⟩ }) number.symm)
    · refine (part State.meter).trans ((Meter.ticked_records s.meter _ s.tickClock.now).trans ?_)
      exact congrArg₂ (fun (m : Meter) (c : RemoteId → Bool) => { m with
        records := s.meter.records.mapIdx fun (r : RemoteId) row => row.map fun (a : Activity) =>
          { a with stale := a.stale || c r } }) (congrArg s.meter.ticked number.symm) ports
    · have loaded : s.emitBoundary.map = s.tickClock.takeStartPlan.map := part State.map
      rw [loaded, State.takeStartPlan_eq]
      refine congrArg (fun m => (⟨m, plan.sectors, source, false, false⟩ : SectorMap)) (Tab.ext_get fun r => ?_)
      rw [Tab.get_ofFn]
      exact Tab.get_map ..
    · have table : s.emitBoundary.sup = { s.sup with
          records := s.emitBoundary.sup.records, degraded := s.emitBoundary.sup.degraded
          serving := s.emitBoundary.sup.serving, pollCount := polls } := by rw [part State.sup]; rfl
      refine table.trans (congrArg (fun x => { s.sup with
        records := x, degraded := s.emitBoundary.sup.degraded, serving := s.emitBoundary.sup.serving, pollCount := polls })
          ((part fun t => t.sup.records).trans ((Tab.map_mapIdx ..).trans (Tab.ext_get fun r => ?_))))
      rw [Tab.get_mapIdx, Tab.get_mapIdx, live]
      rfl
    · exact ((part State.events).trans (State.emitted_events (v := s.tickClock.mapLoaded) rfl rfl)).trans (report number.symm)
    · exact (part fun t => (t.ramp r).present).trans ((law.allVacant load).present r)
    · exact (part fun t => t.sup.serving.get x).trans (Tab.get_const ..)
    · have flag : s.emitBoundary.sup.degraded.get x = _ := (part fun t => t.sup.degraded.get x).trans (Tab.get_map ..)
      rw [flag, decide_eq_true_eq, State.takeStartPlan_eq]
      exact Iff.rfl

end Sys2Proof.Machine
end

section
namespace Sys2Proof.Machine

/-! ## The configuration at every step (R19, R20, R154, R165, R166) -/

/-- Settles O5: every command keeps the laws of the device (`exec_sound`), the configuration's among them. -/
theorem everyStepKeepsTheConfigurationLaw : Obligations.EveryStepKeepsTheConfigurationLaw := by
  intro s t hs h
  unfold step at h
  split at h
  · cases h; exact hs
  · rename_i c rest _
    exact (exec_sound h).config (hs.congr rfl rfl rfl rfl rfl rfl)

end Sys2Proof.Machine
end

section
namespace Sys2Proof.Machine

/-! ## The branch mappings and the targets (R26, R31, R51) -/

/-- A remote is in service exactly when it is in none of the other four health states (R119). -/
theorem Health.inService_iff (h : Health) :
    h.inService = true ↔ ¬(h = .vacant ∨ h = .waiting ∨ h = .lost ∨ h = .isolated) := by
  cases h <;> simp [Health.inService]

theorem length_padTo (n : Nat) (b : Branch) (h : b.length ≤ n) : (padTo n b).length = n := by
  simp [padTo, h]

/-- Reading a padded branch: past its end a branch reads as zero samples (log entry 4). -/
theorem getElem_padTo (n : Nat) (b : Branch) (k : Nat) (h : k < (padTo n b).length) :
    (padTo n b)[k] = b.getD k ⟨0, 0⟩ := by
  simp only [padTo, List.getElem_append, List.getD_eq_getElem?_getD, zeroSample]
  split
  · rename_i hk; simp [hk]
  · rename_i hk; simp [List.getElem?_eq_none (by omega : b.length ≤ k)]

/-- Two branches combined reach as far as the longer one. -/
theorem length_zipBranch {β : Type} (f : Sample → Sample → β) (x y : Branch) :
    (zipBranch f x y).length = max x.length y.length := by
  simp [zipBranch, length_padTo]

/-- A sample of two branches combined. -/
theorem getElem?_zipBranch {β : Type} (f : Sample → Sample → β) (x y : Branch) (k : Nat)
    (h : k < max x.length y.length) :
    (zipBranch f x y)[k]? = some (f (x.getD k ⟨0, 0⟩) (y.getD k ⟨0, 0⟩)) := by
  rw [List.getElem?_eq_getElem (by rwa [length_zipBranch])]
  simp only [zipBranch, List.getElem_zipWith, getElem_padTo]

/-- The half sum never leaves 16 bits. -/
theorem toInt_halfSum (a b : BitVec 16) : (halfSum a b).toInt = (a.toInt + b.toInt + 1) / 2 := by
  have ha := BitVec.toInt_lt (x := a)
  have ha' := BitVec.le_toInt (x := a)
  have hb := BitVec.toInt_lt (x := b)
  have hb' := BitVec.le_toInt (x := b)
  rw [halfSum, BitVec.toInt_ofInt, Int.bmod_def]
  norm_num at *
  omega

/-- Settles O58: the rows of both tables by evaluation, and the half sum sample by sample. -/
theorem branchMappingsFollowTheTables : Obligations.BranchMappingsFollowTheTables := by
  unfold Obligations.BranchMappingsFollowTheTables
  intro a b
  refine ⟨⟨rfl, rfl, rfl, rfl, rfl, rfl, rfl, rfl⟩, ⟨rfl, rfl, rfl, rfl, rfl, rfl, rfl, rfl⟩,
    fun s r c n h => ?_, length_zipBranch _ a b, fun k hk => ⟨_, getElem?_zipBranch _ a b k hk, ?_, ?_⟩⟩
  · simp only [State.delivered, h, Option.map_some]
  · exact toInt_halfSum _ _
  · exact toInt_halfSum _ _

/-- Settles O59: the four branches of `State.targetOf`, with `out` read as the remote not being in service. -/
theorem targetIsTheFirstCaseThatApplies : Obligations.TargetIsTheFirstCaseThatApplies := by
  unfold Obligations.TargetIsTheFirstCaseThatApplies
  intro s r out held hot
  have serviced : s.serviced r = true ↔ ¬out := Health.inService_iff _
  refine ⟨fun h => ?_, fun h k => ?_, fun h k l => ?_, fun h k l => ?_⟩
  · have : s.serviced r = false := by simpa using mt serviced.mp (not_not.mpr h)
    simp [State.targetOf, this]
  · simp [State.targetOf, serviced.mpr h, show r ∈ s.engine.holdSet from k]
  · simp [State.targetOf, serviced.mpr h, show r ∉ s.engine.holdSet from k, show (s.supRec r).alarms.hot = true from l,
      thermalTarget]
  · simp [State.targetOf, serviced.mpr h, show r ∉ s.engine.holdSet from k,
      show ¬(s.supRec r).alarms.hot = true from l]

end Sys2Proof.Machine
end

section
namespace Sys2Proof.Machine

/-! ## The laws of supervision inside a command (R30 to R35, R73 to R86, R121 to R136)

Between two commands the engine keeps `Engine.MoveLaw` and the hub `State.SupervisionLaw`. Inside a command a change has
been made and what follows from it has still to be settled: boosts and targets to compute again, completions to notice,
degraded flags to evaluate, a departure to tell the engine. A `Debt` names what is still owed, and `State.Owes` says that
the laws hold but for it. Each operation of the Supervisor and of the Move Engine is shown to pay a part of the debt. -/

/-- What a change under way has still to settle: remotes whose source set and boost, whose target, or whose completion
notice is owed, sectors whose degraded flag is, remotes whose departure the engine has not been told, and whether the
engine stands in a phase that began with nothing to wait for, which ends at once (R83, R86). -/
structure Debt where
  boosts : List RemoteId := []
  targets : List RemoteId := []
  notices : List RemoteId := []
  sectors : List SectorId := []
  leaving : List RemoteId := []
  empty : Bool := false

/-- More is owed, or as much. -/
structure Debt.Within (c d : Debt) : Prop where
  boosts : ∀ x ∈ c.boosts, x ∈ d.boosts
  targets : ∀ x ∈ c.targets, x ∈ d.targets
  notices : ∀ x ∈ c.notices, x ∈ d.notices
  sectors : ∀ x ∈ c.sectors, x ∈ d.sectors
  leaving : ∀ x ∈ c.leaving, x ∈ d.leaving
  empty : c.empty = d.empty

/-- The engine's laws, where a phase that began empty has nothing to wait for and nothing held. -/
structure Engine.Orderly (empty : Bool) (e : Engine) : Prop where
  lawful : e.lawful
  idle : e.state = .idle → e = Engine.idle
  shape : ∀ m, e.record = some m → m.Shape
  switched : ∀ m, e.record = some m → (m.switchFc.isSome = true ↔ e.state = .fadeIn)
  pending : ∀ m, e.record = some m → (e.pendingMap.isSome = true ↔ m.kind = .batch)
  waiting : empty = false → e.state = .fadeOut ∨ e.state = .fadeIn ∨ e.state = .recovering → e.phaseSet ≠ []
  phase : ∀ m, e.record = some m → ∀ r ∈ e.phaseSet, r ∈ m.fading
  held : e.state = .fadeOut ∨ e.state = .switchPending → ∀ m, e.record = some m →
    (∀ r ∈ m.fading, r ∈ e.holdSet) ∧ (m.kind ≠ .batch → e.holdSet = m.fading)
  free : empty = true → e.holdSet = []

/-- Source sets and applied boosts are those of R134, but for the remotes owed. -/
structure State.BoostLaw (owed : List RemoteId) (s : State) : Prop where
  sources : ∀ y, y ∉ owed → (s.supRec y).sources = s.sourcesOf y
  boost : ∀ y, y ∉ owed → (s.supRec y).boost = s.appliedBoost y (s.supRec y).sources

/-- Targets and done flags are those of R31 and R32, and completions have been noticed (R79, R125), but for the remotes
owed; the present gains are in range (R30). -/
structure State.RampLaw (targets notices : List RemoteId) (s : State) : Prop where
  target : ∀ r, r ∉ targets → (s.ramp r).target = s.targetOf r
  done : ∀ r, r ∉ targets → ((s.ramp r).done = true ↔ (s.ramp r).present = (s.ramp r).target)
  present : ∀ r, (s.ramp r).present ≤ 1023 ∧ (s.serviced r = false → (s.ramp r).present = 0)
  joining : ∀ r, r ∉ notices → s.health r = .joining → (s.supRec r).held = false → (s.ramp r).done = false
  ramping : ∀ r, r ∉ notices → r ∈ s.engine.phaseSet → (s.ramp r).done = false

/-- Serving counts and degraded flags are those of R136, but for the sectors owed. -/
def State.SectorLaw (owed : List SectorId) (s : State) : Prop :=
  s.map.loadNext = false → ∀ x, x ∉ owed → s.sup.serving.get x = s.servingNow x ∧ s.sup.degraded.get x = s.degradedNow x

/-- VACANT are the unconfigured remotes (R121); before the live map is loaded every one is, and nothing moves (R110). -/
structure State.LoadLaw (s : State) : Prop where
  vacant : s.map.loadNext = false → ∀ r, s.health r = .vacant ↔ (s.live r).configured = false
  unloaded : s.map.loadNext = true →
    (∀ r, s.health r = .vacant) ∧ s.engine.state = .idle ∧ s.store.schedule = none ∧ s.svc.taking = false ∧
      s.spreader.request = none

/-- No two remotes in service have the same recorded serial (R124). -/
def State.SerialLaw (s : State) : Prop :=
  ∀ x y, x ≠ y → s.serviced x = true → s.serviced y = true → (s.supRec x).serial.isSome = true →
    (s.supRec x).serial ≠ (s.supRec y).serial

/-- Every base gain, in the live map and in the pending one, is in range (R107). -/
def State.GainLaw (s : State) : Prop :=
  ∀ r, (s.live r).baseGain ≤ 1023 ∧
    ∀ p, s.engine.pendingMap = some p → (p.remotes.get r).baseGain ≤ 1023

/-- The fading remotes before the switch are in service, but for those leaving, and a single move's is still in its from
sector (R80 to R82). -/
def State.FadingLaw (leaving : List RemoteId) (s : State) : Prop :=
  s.engine.state = .fadeOut ∨ s.engine.state = .switchPending → ∀ m, s.engine.record = some m →
    (s.engine.state = .fadeOut ∨ m.kind = .batch ∨ m.kind = .manual →
      ∀ r ∈ m.fading, r ∉ leaving → s.serviced r = true) ∧
      (m.kind ≠ .batch → ∀ p ∈ m.places, p.origin = s.sectorOf p.remote)

/-- The laws of the engine and of supervision hold at s, but for what is owed. -/
structure State.Owes (d : Debt) (s : State) : Prop where
  engine : s.engine.Orderly d.empty
  boosts : s.BoostLaw d.boosts
  ramps : s.RampLaw d.targets d.notices
  held : ∀ r, (s.supRec r).held = true ↔ r ∈ s.engine.holdSet
  sectors : s.SectorLaw d.sectors
  load : s.LoadLaw
  serials : s.SerialLaw
  gains : s.GainLaw
  fading : s.FadingLaw d.leaving

/-- Nothing owed: the laws themselves. -/
abbrev State.Settled (s : State) : Prop := s.Owes {}

/-! ### The laws of the statements -/

theorem Engine.orderly_iff (e : Engine) : e.Orderly false ↔ e.lawful ∧ e.MoveLaw := by
  constructor
  · intro h
    exact ⟨h.lawful, h.idle, h.shape, h.switched, h.pending, h.waiting rfl, h.phase, h.held⟩
  · rintro ⟨h, k⟩
    exact ⟨h, k.idle, k.shape, k.switched, k.pending, fun _ => k.waiting, k.phase, k.held, fun x => nomatch x⟩

/-- The boost sources of the law are those the Supervisor computes (R134). -/
theorem State.sourcesOf_eq (s : State) (y : RemoteId) : s.sourcesOf y = (List.finRange 16).filter fun x =>
    (s.health y).serves && (s.health x).isOut && decide (s.sectorOf y ≠ none) && decide (s.sectorOf x = s.sectorOf y) &&
      decide (y ∈ (s.live x).partners) && decide (0 < (s.live x).boost) := by
  unfold State.sourcesOf
  split
  · rename_i h
    refine List.filter_congr fun x _ => ?_
    rw [h, Bool.true_and, State.isSource]
    cases hs : s.sectorOf y <;> simp
  · rename_i h
    rw [eq_comm, List.filter_eq_nil_iff]
    simp [h]

theorem State.largestBoost_eq (s : State) (xs : List RemoteId) :
    s.largestBoost xs = (xs.map fun x => (s.live x).boost).foldl max 0 := by
  rw [State.largestBoost, List.foldl_map]

theorem State.settled_iff (s : State) : s.Settled ↔ s.engine.lawful ∧ s.engine.MoveLaw ∧ s.SupervisionLaw := by
  constructor
  · intro h
    obtain ⟨lawful, moves⟩ := (Engine.orderly_iff _).mp h.engine
    refine ⟨lawful, moves, ⟨fun y => ?_, fun y => ?_, fun r => h.ramps.target r (by simp), fun r => h.ramps.done r (by simp),
      h.ramps.present, h.held, fun r => h.ramps.joining r (by simp), fun r => h.ramps.ramping r (by simp),
      fun hl x => ?_, h.load.vacant, h.load.unloaded, h.serials, h.gains, fun hs m hm => ?_⟩⟩
    · rw [h.boosts.sources y (by simp), State.sourcesOf_eq]
    · rw [h.boosts.boost y (by simp), State.appliedBoost, State.largestBoost_eq]
    · obtain ⟨serving, flag⟩ := h.sectors hl x (by simp)
      exact ⟨serving, by rw [flag, State.degradedNow, decide_eq_true_iff]⟩
    · obtain ⟨serviced, origin⟩ := h.fading hs m hm
      exact ⟨fun k r hr => serviced k r hr (by simp), origin⟩
  · rintro ⟨lawful, moves, h⟩
    refine ⟨(Engine.orderly_iff _).mpr ⟨lawful, moves⟩, ⟨fun y _ => ?_, fun y _ => ?_⟩,
      ⟨fun r _ => h.target r, fun r _ => h.done r, h.present, fun r _ => h.joining r, fun r _ => h.ramping r⟩, h.held,
      fun hl x _ => ?_, ⟨h.vacant, h.unloaded⟩, h.serials, h.gains, fun hs m hm => ?_⟩
    · rw [h.sources y, State.sourcesOf_eq]
    · rw [h.boost y, State.appliedBoost, State.largestBoost_eq]
    · obtain ⟨serving, flag⟩ := h.degraded hl x
      exact ⟨serving, Bool.eq_iff_iff.mpr (flag.trans (by rw [State.degradedNow, decide_eq_true_iff]))⟩
    · obtain ⟨serviced, origin⟩ := h.fading hs m hm
      exact ⟨fun k r hr _ => serviced k r hr, origin⟩

/-- More may be owed. -/
theorem State.Owes.mono {c d : Debt} {s : State} (h : s.Owes c) (w : c.Within d) : s.Owes d where
  engine := w.empty ▸ h.engine
  boosts := ⟨fun y hy => h.boosts.sources y (mt (w.boosts y) hy), fun y hy => h.boosts.boost y (mt (w.boosts y) hy)⟩
  ramps := ⟨fun r hr => h.ramps.target r (mt (w.targets r) hr), fun r hr => h.ramps.done r (mt (w.targets r) hr),
    h.ramps.present, fun r hr => h.ramps.joining r (mt (w.notices r) hr), fun r hr => h.ramps.ramping r (mt (w.notices r) hr)⟩
  held := h.held
  sectors := fun hl x hx => h.sectors hl x (mt (w.sectors x) hx)
  load := h.load
  serials := h.serials
  gains := h.gains
  fading := fun hs m hm => ⟨fun k r hr hn => (h.fading hs m hm).1 k r hr (mt (w.leaving r) hn), (h.fading hs m hm).2⟩

/-! ### What the laws read -/

/-- Source sets read health and the live map (R134). -/
theorem State.sourcesOf_congr {s t : State} (health : ∀ x, t.health x = s.health x) (live : ∀ x, t.live x = s.live x)
    (y : RemoteId) : t.sourcesOf y = s.sourcesOf y := by
  have source : t.isSource y = s.isSource y := funext fun x => by
    rw [State.isSource, State.sectorOf, State.sectorOf, health, live, live]
    rfl
  simp only [State.sourcesOf, source, health]

theorem State.appliedBoost_congr {s t : State} {y : RemoteId} (hot : (t.supRec y).alarms.hot = (s.supRec y).alarms.hot)
    (live : ∀ x, t.live x = s.live x) (xs : List RemoteId) : t.appliedBoost y xs = s.appliedBoost y xs := by
  simp only [State.appliedBoost, State.largestBoost, hot, live]

/-- A target reads the remote itself and whether it is held (R31). -/
theorem State.targetOf_congr {s t : State} {r : RemoteId} (health : t.serviced r = s.serviced r)
    (hold : r ∈ t.engine.holdSet ↔ r ∈ s.engine.holdSet) (hot : (t.supRec r).alarms.hot = (s.supRec r).alarms.hot)
    (boost : (t.supRec r).boost = (s.supRec r).boost) (gain : (t.live r).baseGain = (s.live r).baseGain) :
    t.targetOf r = s.targetOf r := by
  simp only [State.targetOf, health, List.contains_iff_mem, hold, hot, boost, gain]

/-- Serving counts read the health of the members (R136). -/
theorem State.servingNow_congr {s t : State} {x : SectorId} (sector : ∀ r, t.sectorOf r = s.sectorOf r)
    (serves : ∀ r, s.sectorOf r = some x → (t.health r).serves = (s.health r).serves) :
    t.servingNow x = s.servingNow x := by
  simp only [State.servingNow, State.members, sector]
  congr 1
  refine List.filter_congr fun r hr => serves r ?_
  simpa using (List.mem_filter.mp hr).2

/-- What the laws look at is as it was: any part of the hub that is not the Supervisor's, the Move Engine's or the live
map's may have changed, and the serial of a remote out of service. -/
structure Apart (s t : State) : Prop where
  ramps : t.dist.ramps = s.dist.ramps
  map : t.map = { s.map with active := t.map.active, diverged := t.map.diverged }
  engine : t.engine = s.engine
  health : ∀ r, t.health r = s.health r
  hot : ∀ r, (t.supRec r).alarms.hot = (s.supRec r).alarms.hot
  sources : ∀ r, (t.supRec r).sources = (s.supRec r).sources
  boost : ∀ r, (t.supRec r).boost = (s.supRec r).boost
  held : ∀ r, (t.supRec r).held = (s.supRec r).held
  serial : ∀ r, s.serviced r = true → (t.supRec r).serial = (s.supRec r).serial
  degraded : t.sup.degraded = s.sup.degraded
  serving : t.sup.serving = s.sup.serving
  schedule : s.store.schedule = none → t.store.schedule = none
  taking : s.svc.taking = false → t.svc.taking = false
  request : s.spreader.request = none → t.spreader.request = none

namespace Apart

theorem refl (s : State) : Apart s s :=
  ⟨rfl, rfl, rfl, fun _ => rfl, fun _ => rfl, fun _ => rfl, fun _ => rfl, fun _ => rfl, fun _ _ => rfl, rfl, rfl, id, id, id⟩

theorem trans {s t u : State} (h : Apart s t) (k : Apart t u) : Apart s u where
  ramps := k.ramps.trans h.ramps
  map := by rw [k.map, h.map]
  engine := k.engine.trans h.engine
  health := fun r => (k.health r).trans (h.health r)
  hot := fun r => (k.hot r).trans (h.hot r)
  sources := fun r => (k.sources r).trans (h.sources r)
  boost := fun r => (k.boost r).trans (h.boost r)
  held := fun r => (k.held r).trans (h.held r)
  serial := fun r hr => (k.serial r (by rw [State.serviced, h.health]; exact hr)).trans (h.serial r hr)
  degraded := k.degraded.trans h.degraded
  serving := k.serving.trans h.serving
  schedule := k.schedule ∘ h.schedule
  taking := k.taking ∘ h.taking
  request := k.request ∘ h.request

theorem ite {s t u : State} {c : Prop} [Decidable c] (h : Apart s t) (k : Apart s u) : Apart s (if c then t else u) := by
  split
  · exact h
  · exact k

theorem foldl {α : Type} {f : State → α → State} (h : ∀ s a, Apart s (f s a)) (xs : List α) (s : State) :
    Apart s (xs.foldl f s) := by
  induction xs generalizing s with
  | nil => exact refl s
  | cons a xs ih => exact (h s a).trans (ih (f s a))

/-- A change that leaves every part the laws look at. -/
theorem of_parts {s t : State} (ramps : t.dist.ramps = s.dist.ramps) (map : t.map = s.map) (engine : t.engine = s.engine)
    (sup : t.sup = s.sup) (schedule : t.store.schedule = s.store.schedule) (taking : t.svc.taking = s.svc.taking)
    (spreader : t.spreader = s.spreader) : Apart s t := by
  have records : ∀ r, t.supRec r = s.supRec r := State.supRec_congr sup
  refine ⟨ramps, by rw [map], engine, fun r => by rw [State.health, records]; rfl, fun r => by rw [records],
    fun r => by rw [records], fun r => by rw [records], fun r => by rw [records], fun r _ => by rw [records],
    by rw [sup], by rw [sup], ?_, ?_, ?_⟩
  · rw [schedule]; exact id
  · rw [taking]; exact id
  · rw [spreader]; exact id

variable {s t : State}

theorem remotes (h : Apart s t) : t.map.remotes = s.map.remotes := by rw [h.map]

theorem loadNext (h : Apart s t) : t.map.loadNext = s.map.loadNext := by rw [h.map]

theorem live (h : Apart s t) (r : RemoteId) : t.live r = s.live r := by rw [State.live, h.remotes]; rfl

theorem sectorOf (h : Apart s t) (r : RemoteId) : t.sectorOf r = s.sectorOf r := by
  rw [State.sectorOf, h.live]; rfl

theorem serviced (h : Apart s t) (r : RemoteId) : t.serviced r = s.serviced r := by
  rw [State.serviced, h.health]; rfl

theorem ramp (h : Apart s t) (r : RemoteId) : t.ramp r = s.ramp r := by rw [State.ramp, h.ramps]; rfl

theorem targetOf (h : Apart s t) (r : RemoteId) : t.targetOf r = s.targetOf r :=
  State.targetOf_congr (h.serviced r) (by rw [h.engine]) (h.hot r) (h.boost r) (by rw [h.live])

theorem servingNow (h : Apart s t) (x : SectorId) : t.servingNow x = s.servingNow x :=
  State.servingNow_congr h.sectorOf fun r _ => by rw [h.health]

theorem degradedNow (h : Apart s t) (x : SectorId) : t.degradedNow x = s.degradedNow x := by
  rw [State.degradedNow, h.servingNow, h.map]
  rfl

end Apart

/-- The laws stand where nothing they look at has changed. -/
theorem State.Owes.apart {d : Debt} {s t : State} (h : s.Owes d) (a : Apart s t) : t.Owes d where
  engine := a.engine ▸ h.engine
  boosts := ⟨fun y hy => by rw [a.sources, h.boosts.sources y hy, State.sourcesOf_congr a.health a.live],
    fun y hy => by rw [a.boost, h.boosts.boost y hy, State.appliedBoost_congr (a.hot y) a.live, a.sources]⟩
  ramps := ⟨fun r hr => by rw [a.ramp, a.targetOf]; exact h.ramps.target r hr,
    fun r hr => by rw [a.ramp]; exact h.ramps.done r hr, fun r => by rw [a.ramp, a.serviced]; exact h.ramps.present r,
    fun r hr => by rw [a.ramp, a.health, a.held]; exact h.ramps.joining r hr,
    fun r hr => by rw [a.ramp, a.engine]; exact h.ramps.ramping r hr⟩
  held := fun r => by rw [a.held, a.engine]; exact h.held r
  sectors := fun hl x hx => by
    rw [a.serving, a.degraded, a.servingNow, a.degradedNow]
    exact h.sectors (a.loadNext ▸ hl) x hx
  load := ⟨fun hl r => by rw [a.health, a.live]; exact h.load.vacant (a.loadNext ▸ hl) r, fun hl => by
    obtain ⟨vacant, idle, schedule, taking, request⟩ := h.load.unloaded (a.loadNext ▸ hl)
    exact ⟨fun r => (a.health r).trans (vacant r), by rw [a.engine]; exact idle, a.schedule schedule, a.taking taking,
      a.request request⟩⟩
  serials := fun x y hxy hx hy => by
    rw [a.serviced] at hx hy
    rw [a.serial x hx, a.serial y hy]
    exact h.serials x y hxy hx hy
  gains := fun r => by rw [a.live, a.engine]; exact h.gains r
  fading := by
    simp only [State.FadingLaw, a.engine, a.serviced, a.sectorOf]
    exact h.fading

end Sys2Proof.Machine
end

section
namespace Sys2Proof.Machine

/-! ### Each change, and the debt it makes or pays -/

section Changes

variable {s : State} {B T J : List RemoteId} {X : List SectorId} {F : List RemoteId} {e : Bool}

theorem State.supRec_modSup_ne (s : State) {r x : RemoteId} (f : SupRecord → SupRecord) (h : x ≠ r) :
    (s.modSup r f).supRec x = s.supRec x := by
  rw [State.supRec_modSup, if_neg (Ne.symm h)]

/-- The record of one remote changes: its boost, target and notice are owed, those of the partners it names too when it
enters or leaves the states of a boost source (R134), and its sector's flag when it starts or ends serving (R136). -/
theorem State.Owes.modSup {d : Debt} (h : s.Owes d) (r : RemoteId) (f : SupRecord → SupRecord)
    (held : (f (s.supRec r)).held = (s.supRec r).held)
    (boost : r ∈ d.boosts) (target : r ∈ d.targets) (notice : r ∈ d.notices)
    (partners : (f (s.supRec r)).health.isOut = (s.health r).isOut ∨ ∀ y ∈ (s.live r).partners, y ∈ d.boosts)
    (sector : (f (s.supRec r)).health.serves = (s.health r).serves ∨ ∀ x, s.sectorOf r = some x → x ∈ d.sectors)
    (vacant : (f (s.supRec r)).health = .vacant ↔ s.health r = .vacant)
    (present : (f (s.supRec r)).health.inService = false → (s.ramp r).present = 0)
    (serial : (f (s.supRec r)).health.inService = true → (f (s.supRec r)).serial.isSome = true →
      ∀ x, x ≠ r → s.serviced x = true → (s.supRec x).serial ≠ (f (s.supRec r)).serial)
    (fading : r ∈ d.leaving ∨ (s.serviced r = true → (f (s.supRec r)).health.inService = true)) :
    (s.modSup r f).Owes d := by
  have self : (s.modSup r f).supRec r = f (s.supRec r) := State.supRec_modSup_self s r f
  have other : ∀ x, x ≠ r → (s.modSup r f).supRec x = s.supRec x := fun x hx => State.supRec_modSup_ne s f hx
  have serviced : ∀ x, x ≠ r → (s.modSup r f).serviced x = s.serviced x := fun x hx => by
    rw [State.serviced, State.health, other x hx]; rfl
  have selfServiced : (s.modSup r f).serviced r = (f (s.supRec r)).health.inService := by
    rw [State.serviced, State.health, self]
  refine ⟨h.engine, ⟨fun y hy => ?_, fun y hy => ?_⟩, ⟨fun x hx => ?_, h.ramps.done, fun x => ?_, fun x hx => ?_,
    h.ramps.ramping⟩, fun x => ?_, fun hl x hx => ?_, ⟨fun hl x => ?_, fun hl => ?_⟩, fun x y hxy hx hy hs => ?_, h.gains,
    fun hs m hm => ⟨fun k x hx hn => ?_, (h.fading hs m hm).2⟩⟩
  · have hne : y ≠ r := fun k => hy (k ▸ boost)
    have source : ∀ x, (s.modSup r f).isSource y x = s.isSource y x := fun x => by
      by_cases hx : x = r
      · subst hx
        simp only [State.isSource, State.health, self]
        rcases partners with same | all
        · rw [same]; rfl
        · have : (s.live x).partners.contains y = false := by
            simpa using fun k => hy (all y k)
          have after : ((s.modSup x f).live x).partners.contains y = false := this
          rw [this, after, Bool.and_false, Bool.and_false, Bool.false_and, Bool.false_and]
      · simp only [State.isSource, State.health, other x hx]; rfl
    rw [other y hne, h.boosts.sources y hy, State.sourcesOf, State.sourcesOf, State.health, State.health, other y hne,
      show (s.modSup r f).isSource y = s.isSource y from funext source]
  · have hne : y ≠ r := fun k => hy (k ▸ boost)
    rw [other y hne, h.boosts.boost y hy, State.appliedBoost, State.appliedBoost, other y hne]
    rfl
  · have hne : x ≠ r := fun k => hx (k ▸ target)
    exact (h.ramps.target x hx).trans
      (State.targetOf_congr (serviced x hne) Iff.rfl (by rw [other x hne]) (by rw [other x hne]) rfl).symm
  · refine ⟨(h.ramps.present x).1, fun hs => ?_⟩
    by_cases hx : x = r
    · subst hx; exact present (selfServiced.symm.trans hs)
    · exact (h.ramps.present x).2 ((serviced x hx).symm.trans hs)
  · have hne : x ≠ r := fun k => hx (k ▸ notice)
    rw [State.health, other x hne]
    exact h.ramps.joining x hx
  · by_cases hx : x = r
    · subst hx; rw [self, held]; exact h.held x
    · rw [other x hx]; exact h.held x
  · have serving : (s.modSup r f).servingNow x = s.servingNow x :=
      State.servingNow_congr (fun _ => rfl) fun z hz => by
        by_cases hzr : z = r
        · subst hzr
          rw [State.health, self]
          exact sector.resolve_right fun k => hx (k x hz)
        · rw [State.health, other z hzr]; rfl
    rw [State.degradedNow, serving]
    exact h.sectors hl x hx
  · by_cases hx : x = r
    · subst hx; rw [State.health, self, vacant]; exact h.load.vacant hl x
    · rw [State.health, other x hx]; exact h.load.vacant hl x
  · obtain ⟨all, rest⟩ := h.load.unloaded hl
    refine ⟨fun x => ?_, rest⟩
    by_cases hx : x = r
    · subst hx; rw [State.health, self, vacant]; exact all x
    · rw [State.health, other x hx]; exact all x
  · by_cases hxr : x = r
    · subst hxr
      rw [selfServiced] at hx
      rw [self] at hs ⊢
      rw [other y (Ne.symm hxy)]
      exact (serial hx hs y (Ne.symm hxy) ((serviced y (Ne.symm hxy)).symm.trans hy)).symm
    · rw [other x hxr] at hs ⊢
      rw [serviced x hxr] at hx
      by_cases hyr : y = r
      · subst hyr
        rw [self]
        by_cases hf : (f (s.supRec y)).serial.isSome = true
        · exact serial (selfServiced.symm.trans hy) hf x hxr hx
        · exact fun k => hf (k ▸ hs)
      · rw [other y hyr]
        exact h.serials x y hxy hx ((serviced y hyr).symm.trans hy) hs
  · by_cases hxr : x = r
    · subst hxr
      rw [selfServiced]
      exact (fading.resolve_left hn) ((h.fading hs m hm).1 k x hx hn)
    · rw [serviced x hxr]; exact (h.fading hs m hm).1 k x hx hn

/-- The present gain of a remote is set to 0 (R34): its target and its notice are owed. -/
theorem State.Owes.zeroGain {d : Debt} (h : s.Owes d) {r : RemoteId} (target : r ∈ d.targets) (notice : r ∈ d.notices) :
    (s.modRamp r fun p => { p with present := 0 }).Owes d := by
  have other : ∀ x, x ≠ r → (s.modRamp r fun p => { p with present := 0 }).ramp x = s.ramp x := fun x hx => by
    rw [State.ramp_modRamp, if_neg (Ne.symm hx)]
  refine ⟨h.engine, ⟨h.boosts.sources, h.boosts.boost⟩, ⟨fun x hx => ?_, fun x hx => ?_, fun x => ?_, fun x hx => ?_,
    fun x hx => ?_⟩, h.held, h.sectors, ⟨h.load.vacant, h.load.unloaded⟩, h.serials, h.gains, h.fading⟩
  · rw [other x fun k => hx (k ▸ target)]; exact h.ramps.target x hx
  · rw [other x fun k => hx (k ▸ target)]; exact h.ramps.done x hx
  · by_cases hx : x = r
    · subst hx
      rw [State.ramp_modRamp_self]
      exact ⟨Nat.zero_le _, fun _ => rfl⟩
    · rw [other x hx]; exact h.ramps.present x
  · rw [other x fun k => hx (k ▸ notice)]; exact h.ramps.joining x hx
  · rw [other x fun k => hx (k ▸ notice)]; exact h.ramps.ramping x hx

theorem State.ramp_beginRamp (s : State) (r x : RemoteId) : (s.beginRamp r).ramp x =
    if r = x then ⟨(s.ramp r).present, s.targetOf r, decide ((s.ramp r).present = s.targetOf r)⟩ else s.ramp x := by
  rw [State.beginRamp, State.ramp_modRamp]
  split
  · subst_vars; rfl
  · rfl

/-- A new ramp begins: the target is paid, and a notice may be owed (R32). -/
theorem State.Owes.beginRamp {r : RemoteId} (h : s.Owes ⟨B, r :: T, J, X, F, e⟩) (notice : r ∈ J) :
    (s.beginRamp r).Owes ⟨B, T, J, X, F, e⟩ := by
  have other : ∀ x, x ≠ r → (s.beginRamp r).ramp x = s.ramp x := fun x hx => by
    rw [State.ramp_beginRamp, if_neg (Ne.symm hx)]
  have self : (s.beginRamp r).ramp r = ⟨(s.ramp r).present, s.targetOf r, decide ((s.ramp r).present = s.targetOf r)⟩ := by
    rw [State.ramp_beginRamp, if_pos rfl]
  refine ⟨h.engine, ⟨h.boosts.sources, h.boosts.boost⟩, ⟨fun x hx => ?_, fun x hx => ?_, fun x => ?_, fun x hx => ?_,
    fun x hx => ?_⟩, h.held, h.sectors, ⟨h.load.vacant, h.load.unloaded⟩, h.serials, h.gains, h.fading⟩
  · by_cases hxr : x = r
    · subst hxr; rw [self]; rfl
    · rw [other x hxr]; exact h.ramps.target x (by simp [hxr, show x ∉ T from hx])
  · by_cases hxr : x = r
    · subst hxr; rw [self, decide_eq_true_iff]
    · rw [other x hxr]; exact h.ramps.done x (by simp [hxr, show x ∉ T from hx])
  · by_cases hxr : x = r
    · subst hxr; rw [self]; exact h.ramps.present x
    · rw [other x hxr]; exact h.ramps.present x
  · rw [other x fun k => hx (k ▸ notice)]; exact h.ramps.joining x hx
  · rw [other x fun k => hx (k ▸ notice)]; exact h.ramps.ramping x hx

/-- A notice is no longer owed where there is none to give. -/
theorem State.Owes.noticed {r : RemoteId} (h : s.Owes ⟨B, T, r :: J, X, F, e⟩)
    (joining : s.health r = .joining → (s.supRec r).held = false → (s.ramp r).done = false)
    (ramping : r ∈ s.engine.phaseSet → (s.ramp r).done = false) : s.Owes ⟨B, T, J, X, F, e⟩ where
  engine := h.engine
  boosts := h.boosts
  ramps := ⟨h.ramps.target, h.ramps.done, h.ramps.present,
    fun x hx => if k : x = r then k ▸ joining else h.ramps.joining x (by simp [k, show x ∉ J from hx]),
    fun x hx => if k : x = r then k ▸ ramping else h.ramps.ramping x (by simp [k, show x ∉ J from hx])⟩
  held := h.held
  sectors := h.sectors
  load := h.load
  serials := h.serials
  gains := h.gains
  fading := h.fading

/-- The engine changes, its holds apart: the phase set may only shrink. -/
theorem State.Owes.setEngine {F' : List RemoteId} {e' : Bool} (h : s.Owes ⟨B, T, J, X, F, e⟩) (g : Engine)
    (orderly : g.Orderly e') (holds : g.holdSet = s.engine.holdSet) (phase : ∀ r ∈ g.phaseSet, r ∈ s.engine.phaseSet)
    (pending : g.pendingMap = s.engine.pendingMap) (idle : s.engine.state = .idle → g.state = .idle)
    (fading : ({ s with engine := g } : State).FadingLaw F') : ({ s with engine := g } : State).Owes ⟨B, T, J, X, F', e'⟩ where
  engine := orderly
  boosts := ⟨h.boosts.sources, h.boosts.boost⟩
  ramps := ⟨fun r hr => (h.ramps.target r hr).trans
      (State.targetOf_congr (s := s) (t := { s with engine := g }) rfl (by rw [holds]) rfl rfl rfl).symm,
    h.ramps.done, h.ramps.present, h.ramps.joining, fun r hr k => h.ramps.ramping r hr (phase r k)⟩
  held := fun r => by
    show _ ↔ r ∈ g.holdSet
    rw [holds]; exact h.held r
  sectors := h.sectors
  load := ⟨h.load.vacant, fun hl => by
    obtain ⟨vacant, rests, others⟩ := h.load.unloaded hl
    exact ⟨vacant, idle rests, others⟩⟩
  serials := h.serials
  gains := fun r => ⟨(h.gains r).1, fun p hp => (h.gains r).2 p (pending ▸ hp)⟩
  fading := fading

theorem State.supRec_tellHeld (rs : List RemoteId) (b : Bool) : ∀ (s : State) (x : RemoteId),
    (s.tellHeld rs b).supRec x = if x ∈ rs then { s.supRec x with held := b } else s.supRec x := by
  induction rs with
  | nil => exact fun _ _ => rfl
  | cons r rs ih =>
    intro s x
    rw [State.tellHeld, List.foldl_cons, ← State.tellHeld, ih, State.supRec_modSup]
    by_cases hx : x = r
    · subst hx
      simp
    · simp [hx, Ne.symm hx]

theorem State.tellHeld_frame (rs : List RemoteId) (b : Bool) : ∀ s : State, s.tellHeld rs b =
    { s with sup := { s.sup with records := (s.tellHeld rs b).sup.records } } := by
  induction rs with
  | nil => exact fun _ => rfl
  | cons r rs ih =>
    intro s
    rw [State.tellHeld, List.foldl_cons, ← State.tellHeld, ih]
    rfl

/-- Every record as the release of the holds leaves it (R78, R79). -/
theorem State.Owes.supRec_releaseHolds {d : Debt} (h : s.Owes d) (r : RemoteId) :
    s.releaseHolds.supRec r = { s.supRec r with held := false } := by
  rw [State.releaseHolds, State.supRec_tellHeld]
  split
  · rfl
  · rename_i hr
    have : (s.supRec r).held = false := by simpa using mt (h.held r).mp hr
    rw [← this]
    rfl

/-- Every hold is released, with the targets and notices of the remotes held owed, and the engine goes on in a state
where nothing is held. -/
theorem State.Owes.release {e' : Bool} (h : s.Owes ⟨B, T, J, X, F, e⟩) (g : Engine)
    (owed : ∀ r ∈ s.engine.holdSet, r ∈ T ∧ r ∈ J) (orderly : g.Orderly e')
    (after : g.state ≠ .fadeOut ∧ g.state ≠ .switchPending) (holds : g.holdSet = [])
    (phase : ∀ r ∈ g.phaseSet, r ∈ J ∨ r ∈ s.engine.phaseSet)
    (pending : ∀ p, g.pendingMap = some p → s.engine.pendingMap = some p)
    (idle : s.engine.state = .idle → g.state = .idle) :
    ({ s.releaseHolds with engine := g } : State).Owes ⟨B, T, J, X, [], e'⟩ := by
  obtain ⟨records, told, frame⟩ : ∃ records, (∀ r, ({ s with sup := { s.sup with records := records } } : State).supRec r =
      { s.supRec r with held := false }) ∧ { s.releaseHolds with engine := g } =
      ({ s with engine := g, sup := { s.sup with records := records } } : State) := by
    refine ⟨s.releaseHolds.sup.records, h.supRec_releaseHolds, ?_⟩
    rw [State.releaseHolds, State.tellHeld_frame]
  rw [frame]
  set t : State := { s with engine := g, sup := { s.sup with records := records } } with ht
  have record : ∀ r, t.supRec r = { s.supRec r with held := false } := told
  have health : ∀ r, t.health r = s.health r := fun r => by rw [State.health, record]; rfl
  have serviced : ∀ r, t.serviced r = s.serviced r := fun r => by rw [State.serviced, health]; rfl
  have serving : ∀ x, t.servingNow x = s.servingNow x := fun x =>
    State.servingNow_congr (fun _ => rfl) fun r _ => by rw [health]
  refine ⟨orderly, ⟨fun y hy => ?_, fun y hy => ?_⟩, ⟨fun r hr => ?_, h.ramps.done, fun r => ?_, fun r hr => ?_,
    fun r hr k => ?_⟩, fun r => ?_, fun hl x hx => ?_, ⟨fun hl r => ?_, fun hl => ?_⟩, fun x y => ?_,
    fun r => ⟨(h.gains r).1, fun p hp => (h.gains r).2 p (pending p hp)⟩, fun hs => absurd hs (by simp [t, after])⟩
  · rw [record, State.sourcesOf_congr health (fun _ => rfl)]
    exact h.boosts.sources y hy
  · rw [State.appliedBoost_congr (s := s) (t := t) (y := y) (by rw [record]) (fun _ => rfl), record]
    exact h.boosts.boost y hy
  · have free : r ∉ s.engine.holdSet := fun k => hr (owed r k).1
    exact (h.ramps.target r hr).trans (State.targetOf_congr (t := t) (serviced r) (by simp [t, holds, free])
      (by rw [record]) (by rw [record]) rfl).symm
  · rw [serviced]; exact h.ramps.present r
  · have free : (s.supRec r).held = false := by simpa using mt (h.held r).mp fun k => hr (owed r k).2
    intro k _
    exact h.ramps.joining r hr ((health r).symm.trans k) free
  · exact h.ramps.ramping r hr ((phase r k).resolve_left hr)
  · rw [record]; simp [t, holds]
  · rw [serving, State.degradedNow, serving]; exact h.sectors hl x hx
  · rw [health]; exact h.load.vacant hl r
  · obtain ⟨vacant, rests, others⟩ := h.load.unloaded hl
    exact ⟨fun r => (health r).trans (vacant r), idle rests, others⟩
  · rw [serviced, serviced, record, record]; exact h.serials x y

/-- A degraded flag is evaluated (R136). -/
theorem State.Owes.evalDegraded (b : Bool) {x : SectorId} (h : s.Owes ⟨B, T, J, x :: X, F, e⟩) :
    (s.evalDegraded b x).Owes ⟨B, T, J, X, F, e⟩ := by
  set t : State := { s with sup := { s.sup with
    serving := s.sup.serving.set x (s.servingNow x), degraded := s.sup.degraded.set x (s.degradedNow x) } } with ht
  have owes : t.Owes ⟨B, T, J, X, F, e⟩ := by
    refine ⟨h.engine, ⟨h.boosts.sources, h.boosts.boost⟩, ⟨h.ramps.target, h.ramps.done, h.ramps.present, h.ramps.joining,
      h.ramps.ramping⟩, h.held, fun hl y hy => ?_, ⟨h.load.vacant, h.load.unloaded⟩, h.serials, h.gains, h.fading⟩
    show (s.sup.serving.set x _).get y = s.servingNow y ∧ (s.sup.degraded.set x _).get y = s.degradedNow y
    rw [Tab.get_set, Tab.get_set]
    split
    · subst_vars; exact ⟨rfl, rfl⟩
    · rename_i hxy
      exact h.sectors hl y (by simp [Ne.symm hxy, show y ∉ X from hy])
  have apart : ∀ k n, Apart t (t.post k (.sector x) n) := fun _ _ => .of_parts rfl rfl rfl rfl rfl rfl rfl
  unfold State.evalDegraded
  exact owes.apart (.ite (apart _ _) (.ite (apart _ _) (.refl t)))

theorem State.Owes.evalSector {o : Option SectorId} (h : s.Owes ⟨B, T, J, o.toList ++ X, F, e⟩) :
    (s.evalSector o).Owes ⟨B, T, J, X, F, e⟩ := by
  cases o with
  | none => exact h
  | some x => exact h.evalDegraded true

/-- A source set and an applied boost are evaluated; where the boost changed, the target is owed (R32, R135). -/
theorem State.Owes.reevalBoost (h : s.Owes ⟨B, T, J, X, F, e⟩) (y : RemoteId) :
    (s.reevalBoost y).1.Owes ⟨B.filter fun x => decide (x ≠ y), if (s.reevalBoost y).2 then y :: T else T, J, X, F, e⟩ ∧
      ((s.reevalBoost y).2 = true → y ∈ B) := by
  set xs := s.sourcesOf y with hxs
  set b := s.appliedBoost y xs with hb
  have eq : s.reevalBoost y = (s.modSup y fun v => { v with sources := xs, boost := b }, decide (b ≠ (s.supRec y).boost)) := rfl
  rw [eq]
  set t := s.modSup y fun v => { v with sources := xs, boost := b } with ht
  have record : ∀ x, t.supRec x = if y = x then { s.supRec x with sources := xs, boost := b } else s.supRec x :=
    fun x => State.supRec_modSup s y x _
  have health : ∀ x, t.health x = s.health x := fun x => by rw [State.health, record]; split <;> rfl
  have hot : ∀ x, (t.supRec x).alarms.hot = (s.supRec x).alarms.hot := fun x => by rw [record]; split <;> rfl
  have held : ∀ x, (t.supRec x).held = (s.supRec x).held := fun x => by rw [record]; split <;> rfl
  have serial : ∀ x, (t.supRec x).serial = (s.supRec x).serial := fun x => by rw [record]; split <;> rfl
  have serviced : ∀ x, t.serviced x = s.serviced x := fun x => by rw [State.serviced, health]; rfl
  have serving : ∀ x, t.servingNow x = s.servingNow x := fun x =>
    State.servingNow_congr (fun _ => rfl) fun r _ => by rw [health]
  have kept : ∀ x, x ∉ B.filter (fun x => decide (x ≠ y)) → x ≠ y → x ∉ B := fun x hx hne k =>
    hx (List.mem_filter.mpr ⟨k, by simpa using hne⟩)
  have keptT : ∀ x, x ∉ (if decide (b ≠ (s.supRec y).boost) = true then y :: T else T) → x ∉ T := fun x hx k =>
    hx (by split <;> simp [k])
  refine ⟨⟨h.engine, ⟨fun x hx => ?_, fun x hx => ?_⟩, ⟨fun x hx => ?_, fun x hx => h.ramps.done x (keptT x hx), fun x => ?_,
    fun x hx => ?_, h.ramps.ramping⟩, fun x => ?_, fun hl x hx => ?_, ⟨fun hl x => ?_, fun hl => ?_⟩, fun x z => ?_, h.gains,
    ?_⟩, fun k => ?_⟩
  · rw [State.sourcesOf_congr health (fun _ => rfl), record]
    split
    · subst_vars; rfl
    · rename_i hne; exact h.boosts.sources x (kept x hx (Ne.symm hne))
  · rw [State.appliedBoost_congr (hot x) (fun _ => rfl), record]
    split
    · subst_vars; rfl
    · rename_i hne; exact h.boosts.boost x (kept x hx (Ne.symm hne))
  · refine (h.ramps.target x (keptT x hx)).trans (State.targetOf_congr (t := t) (serviced x) Iff.rfl (hot x) ?_ rfl).symm
    rw [record]
    split
    · subst_vars
      by_contra hne
      exact hx (by dsimp only; rw [if_pos (by simpa using hne)]; exact List.mem_cons_self)
    · rfl
  · rw [serviced]; exact h.ramps.present x
  · rw [health, held]; exact h.ramps.joining x hx
  · rw [held]; exact h.held x
  · rw [State.degradedNow, serving]; exact h.sectors hl x hx
  · rw [health]; exact h.load.vacant hl x
  · obtain ⟨vacant, others⟩ := h.load.unloaded hl
    exact ⟨fun r => (health r).trans (vacant r), others⟩
  · rw [serviced, serviced, serial, serial]; exact h.serials x z
  · intro hs m hm
    exact ⟨fun k x hx hn => (serviced x).trans ((h.fading hs m hm).1 k x hx hn), (h.fading hs m hm).2⟩
  · by_contra hB
    have := h.boosts.boost y hB
    rw [h.boosts.sources y hB] at this
    exact absurd this.symm (by simpa [hb, hxs] using k)

/-- The same for several remotes. -/
theorem State.Owes.reevalBoosts (h : s.Owes ⟨B, T, J, X, F, e⟩) (ys : List RemoteId) :
    (s.reevalBoosts ys).1.Owes ⟨B.filter fun x => decide (x ∉ ys), (s.reevalBoosts ys).2 ++ T, J, X, F, e⟩ ∧
      ∀ y ∈ (s.reevalBoosts ys).2, y ∈ B := by
  suffices all : ∀ (ys done acc : List RemoteId) (s : State),
      s.Owes ⟨B.filter fun x => decide (x ∉ done), acc ++ T, J, X, F, e⟩ → (∀ y ∈ acc, y ∈ B) →
      let p := ys.foldl (fun (acc : State × List RemoteId) y =>
        let (s, ch) := acc.1.reevalBoost y
        (s, if ch then acc.2 ++ [y] else acc.2)) (s, acc)
      p.1.Owes ⟨B.filter fun x => decide (x ∉ done ++ ys), p.2 ++ T, J, X, F, e⟩ ∧ ∀ y ∈ p.2, y ∈ B from
    all ys [] [] s (by simpa using h) (by simp)
  intro ys
  induction ys with
  | nil => exact fun done acc s h k => ⟨by simpa using h, k⟩
  | cons y ys ih =>
    intro done acc s h k
    obtain ⟨owes, changed⟩ := h.reevalBoost y
    have next := ih (done ++ [y]) (if (s.reevalBoost y).2 then acc ++ [y] else acc) (s.reevalBoost y).1
      (owes.mono ⟨fun x hx => ?_, fun x hx => ?_, fun _ => id, fun _ => id, fun _ => id, rfl⟩) fun x hx => ?_
    · simpa only [List.append_assoc, List.singleton_append, List.foldl_cons] using next
    · simp only [List.mem_filter, decide_eq_true_eq, List.mem_append, List.mem_singleton, not_or] at hx ⊢
      exact ⟨hx.1.1, hx.1.2, hx.2⟩
    · dsimp only at hx ⊢
      split at hx <;> simp_all
      tauto
    · split at hx
      · rename_i hc
        rcases List.mem_append.mp hx with hx | hx
        · exact k x hx
        · rw [List.mem_singleton.mp hx]; exact (List.mem_filter.mp (changed hc)).1
      · exact k x hx

end Changes

end Sys2Proof.Machine
end

section
namespace Sys2Proof.Machine

/-! ### The end of a move and of a phase (R77, R79, R84, R86) -/

theorem State.post_apart (s : State) (k : EventKind) (x : Subject) (d : BitVec 16) : Apart s (s.post k x d) :=
  .of_parts rfl rfl rfl rfl rfl rfl rfl

theorem State.unDue_apart (s : State) (e : Due) : Apart s (s.unDue e) := .of_parts rfl rfl rfl rfl rfl rfl rfl

theorem State.markDue_apart (s : State) (e : Due) : Apart s (s.markDue e) := by
  unfold State.markDue
  exact .ite (.refl s) (.of_parts rfl rfl rfl rfl rfl rfl rfl)

theorem State.askRetest_apart (s : State) : Apart s s.askRetest := by
  unfold State.askRetest
  split
  · exact .ite (s.markDue_apart _) (.refl s)
  · exact .refl s

theorem State.postEnd_events (s : State) (m : MoveRecord) (o : MoveOutcome) :
    s.postEnd m o = { s with events := (s.postEnd m o).events } := by
  unfold State.postEnd
  split
  · split <;> rfl
  · rfl
  · split <;> rfl

theorem State.adoptPlan_map (s : State) (m : MoveRecord) (o : MoveOutcome) : s.adoptPlan m o =
    { s with map := { s.map with active := (s.adoptPlan m o).map.active, diverged := (s.adoptPlan m o).map.diverged } } := by
  unfold State.adoptPlan
  split <;> rfl

/-- The end of a move leaves the engine IDLE with every hold released; the rest of it the laws do not look at. -/
theorem State.moveEnd_apart {s : State} {m : MoveRecord} (h : s.engine.record = some m) (o : MoveOutcome) :
    Apart { s.releaseHolds with engine := Engine.idle } (s.moveEnd o) := by
  unfold State.moveEnd
  simp only [h]
  set u := ((({ s with engine := { s.engine with record := some { m with outcome := some o } } } : State).adoptPlan m
    o).postEnd m o) with hu
  obtain ⟨active, diverged, q, eq⟩ : ∃ active diverged q, u = { s with
      engine := { s.engine with record := some { m with outcome := some o } }
      map := { s.map with active := active, diverged := diverged }, events := q } := by
    rw [hu, State.postEnd_events, State.adoptPlan_map]
    exact ⟨_, _, _, rfl⟩
  have told : ∀ r, u.releaseHolds.supRec r = s.releaseHolds.supRec r := fun r => by
    rw [State.releaseHolds, State.releaseHolds, State.supRec_tellHeld, State.supRec_tellHeld, eq]
    rfl
  refine Apart.trans ?_ (State.askRetest_apart _)
  unfold State.engineRests
  have hu' : u.releaseHolds = { u with
      engine := { u.engine with holdSet := [] }
      sup := { u.sup with records := u.releaseHolds.sup.records } } := by
    rw [State.releaseHolds, State.tellHeld_frame]
  have hs' : s.releaseHolds = { s with
      engine := { s.engine with holdSet := [] }
      sup := { s.sup with records := s.releaseHolds.sup.records } } := by
    rw [State.releaseHolds, State.tellHeld_frame]
  refine ⟨?_, ?_, rfl, fun r => congrArg SupRecord.health (told r), fun r => congrArg (fun v => v.alarms.hot) (told r),
    fun r => congrArg SupRecord.sources (told r), fun r => congrArg SupRecord.boost (told r),
    fun r => congrArg SupRecord.held (told r), fun r _ => congrArg SupRecord.serial (told r), ?_, ?_, ?_, ?_, ?_⟩
  · show u.releaseHolds.dist.ramps = s.releaseHolds.dist.ramps
    rw [hu', hs', eq]
  · show u.releaseHolds.map = { s.releaseHolds.map with
      active := u.releaseHolds.map.active, diverged := u.releaseHolds.map.diverged }
    rw [hu', hs', eq]
  · show u.releaseHolds.sup.degraded = s.releaseHolds.sup.degraded
    rw [hu', hs', eq]
  · show u.releaseHolds.sup.serving = s.releaseHolds.sup.serving
    rw [hu', hs', eq]
  · show s.releaseHolds.store.schedule = none → u.releaseHolds.store.schedule = none
    rw [hu', hs', eq]
    exact id
  · show s.releaseHolds.svc.taking = false → u.releaseHolds.svc.taking = false
    rw [hu', hs', eq]
    exact id
  · show s.releaseHolds.spreader.request = none → u.spreader.request = none
    rw [hs', eq]
    exact id

theorem State.phaseDone_fadeIn {s : State} (h : s.engine.state = .fadeIn) : s.phaseDone = s.moveEnd .done := by
  rw [State.phaseDone, h]

theorem State.phaseDone_recovering {s : State} (h : s.engine.state = .recovering) : s.phaseDone = s.moveEnd .aborted := by
  rw [State.phaseDone, h]

theorem Engine.idle_orderly (e : Bool) : Engine.idle.Orderly e where
  lawful := Engine.idle_lawful
  idle := fun _ => rfl
  shape := fun _ h => nomatch h
  switched := fun _ h => nomatch h
  pending := fun _ h => nomatch h
  waiting := fun _ h => by rcases h with h | h | h <;> cases h
  phase := fun _ h => nomatch h
  held := fun _ _ h => nomatch h
  free := fun _ => rfl

section Phases

variable {s : State} {B T J : List RemoteId} {X : List SectorId} {F : List RemoteId} {e : Bool}

/-- A move ends with the targets and notices of the remotes held, if there are any, owed (R79). -/
theorem State.Owes.moveEnd {e' : Bool} (h : s.Owes ⟨B, T, J, X, F, e⟩) (o : MoveOutcome)
    (owed : ∀ r ∈ s.engine.holdSet, r ∈ T ∧ r ∈ J) : (s.moveEnd o).Owes ⟨B, T, J, X, [], e'⟩ := by
  cases hm : s.engine.record with
  | none =>
    have same : s.moveEnd o = s := by rw [State.moveEnd, hm]
    have idle : s.engine = Engine.idle := h.engine.idle (h.engine.lawful.1.mpr hm)
    rw [same]
    exact ⟨idle ▸ Engine.idle_orderly e', h.boosts, h.ramps, h.held, h.sectors, h.load, h.serials, h.gains,
      fun _ m k => by rw [hm] at k; cases k⟩
  | some m =>
    exact (h.release Engine.idle owed (Engine.idle_orderly e') ⟨nofun, nofun⟩ rfl nofun nofun (fun _ => rfl)).apart
      (State.moveEnd_apart hm o)

/-- A remote leaves the phase set, and the last one ends the phase: the debts stay as they are. -/
theorem State.Owes.leavePhase (h : s.Owes ⟨B, T, J, X, F, e⟩) (r : RemoteId) :
    (s.leavePhase r).Owes ⟨B, T, J, X, F, e⟩ := by
  obtain ⟨record, phaseless, holdless⟩ := h.engine.lawful
  unfold State.leavePhase
  split
  swap
  · exact h
  rename_i inPhase
  have member : r ∈ s.engine.phaseSet := by simpa using inPhase
  have notIdle : s.engine.state ≠ .idle := fun k => by rw [phaseless (.inl k)] at member; cases member
  have notPending : s.engine.state ≠ .switchPending := fun k => by rw [phaseless (.inr k)] at member; cases member
  simp only
  set left := s.engine.phaseSet.filter fun x => decide (x ≠ r) with hleft
  have within : ∀ x ∈ left, x ∈ s.engine.phaseSet := fun x hx => (List.mem_filter.mp hx).1
  split
  · rename_i none
    have none : left = [] := by simpa using none
    by_cases fades : s.engine.state = .fadeOut
    · have eq : ({ s with engine := { s.engine with phaseSet := left } } : State).phaseDone =
          { s with engine := { s.engine with phaseSet := left, state := .switchPending } } := by
        rw [State.phaseDone]
        simp only [fades]
      rw [eq, none]
      have k := h.engine
      refine h.setEngine _ ⟨⟨⟨nofun, fun q => absurd (record.mpr q) notIdle⟩, fun _ => rfl, fun q => ?_⟩, nofun, k.shape,
        fun m hm => ?_, k.pending, fun _ q => ?_, fun _ _ => nofun, fun _ => k.held (.inl fades), k.free⟩ rfl
        (fun _ q => nomatch q) rfl (fun q => absurd q notIdle) fun _ m hm => ?_
      · rcases q with q | q | q <;> cases q
      · have := k.switched m hm
        rw [fades] at this
        simpa using this
      · rcases q with q | q | q <;> cases q
      · obtain ⟨serviced, origin⟩ := h.fading (.inl fades) m hm
        exact ⟨fun _ => serviced (.inl fades), origin⟩
    · have ends : s.engine.state = .fadeIn ∨ s.engine.state = .recovering := by
        revert notIdle notPending fades
        cases s.engine.state <;> simp
      have free : s.engine.holdSet = [] := holdless (.inr ends)
      have k := h.engine
      have emptied : ({ s with engine := { s.engine with phaseSet := left } } : State).Owes ⟨B, T, J, X, F, true⟩ :=
        h.setEngine _ ⟨⟨record, fun q => absurd q (by simp [notIdle, notPending]), holdless⟩, fun q => absurd q notIdle,
          k.shape, k.switched, k.pending, nofun, fun m hm x hx => k.phase m hm x (within x hx), k.held, fun _ => free⟩ rfl
          within rfl id h.fading
      have owed : ∀ x ∈ s.engine.holdSet, x ∈ T ∧ x ∈ J := by rw [free]; exact fun _ q => nomatch q
      have ended : ∀ o, (({ s with engine := { s.engine with phaseSet := left } } : State).moveEnd o).Owes
          ⟨B, T, J, X, F, e⟩ := fun o =>
        (emptied.moveEnd o owed).mono ⟨fun _ => id, fun _ => id, fun _ => id, fun _ => id, nofun, rfl⟩
      rcases ends with ends | ends
      · exact (State.phaseDone_fadeIn (s := { s with engine := { s.engine with phaseSet := left } }) ends) ▸ ended .done
      · exact (State.phaseDone_recovering (s := { s with engine := { s.engine with phaseSet := left } }) ends) ▸ ended .aborted
  · rename_i some
    have some : left ≠ [] := by simpa using some
    have k := h.engine
    exact h.setEngine _ ⟨⟨record, fun q => absurd q (by simp [notIdle, notPending]), holdless⟩, fun q => absurd q notIdle,
      k.shape, k.switched, k.pending, fun _ _ => some, fun m hm x hx => k.phase m hm x (within x hx), k.held, k.free⟩ rfl
      within rfl id h.fading

theorem State.moveEnd_engine (s : State) (o : MoveOutcome) : (s.moveEnd o).engine = Engine.idle ∨ s.moveEnd o = s := by
  cases hm : s.engine.record with
  | none => exact .inr (by rw [State.moveEnd, hm])
  | some m => exact .inl (State.moveEnd_apart hm o).engine

/-- The remote has left the phase set. -/
theorem State.not_mem_leavePhase (s : State) (r : RemoteId) : r ∉ (s.leavePhase r).engine.phaseSet := by
  unfold State.leavePhase
  split
  swap
  · rename_i h; simpa using h
  simp only
  split
  swap
  · simp
  have ended : ∀ (u : State) (o : MoveOutcome), r ∉ u.engine.phaseSet → r ∉ (u.moveEnd o).engine.phaseSet := fun u o k => by
    rcases u.moveEnd_engine o with q | q
    · rw [q]; exact nofun
    · rw [q]; exact k
  unfold State.phaseDone
  split
  · simp
  · exact ended _ _ (by simp)
  · exact ended _ _ (by simp)
  · simp

/-! ### Recomputes and completions (R32, R35, R125) -/

theorem Settles.live {s t : State} (h : Settles s t) (r : RemoteId) : t.live r = s.live r := by
  rw [State.live, h.map]; rfl

theorem Settles.sectorOf {s t : State} (h : Settles s t) (r : RemoteId) : t.sectorOf r = s.sectorOf r := by
  rw [State.sectorOf, h.live]; rfl

theorem Settles.concerned {s t : State} (h : Settles s t) (r : RemoteId) : t.concerned r = s.concerned r := by
  rw [State.concerned, h.live]; rfl

/-- A recompute whose notice reaches the Move Engine alone, of a remote that is not JOINING. -/
theorem State.Owes.engineRecompute {r : RemoteId} (h : s.Owes ⟨B, r :: T, r :: J, X, F, e⟩) (joined : s.health r ≠ .joining) :
    (s.engineRecompute r).Owes ⟨B, T, J, X, F, e⟩ := by
  have begun := h.beginRamp (List.mem_cons_self ..)
  unfold State.engineRecompute
  simp only
  split
  · have same : ((s.beginRamp r).leavePhase r).health r = s.health r :=
      ((State.leavePhase_settles _ r).sup r).health_eq joined
    exact (begun.leavePhase r).noticed (fun k => absurd (same.symm.trans k) joined)
      fun k => absurd k (State.not_mem_leavePhase _ r)
  · rename_i ramping
    have ramping : ((s.beginRamp r).ramp r).done = false := by simpa using ramping
    exact begun.noticed (fun _ _ => ramping) fun _ => ramping

theorem State.Owes.serial_ne {d : Debt} (h : s.Owes d) {r : RemoteId} (serviced : s.serviced r = true)
    (some : (s.supRec r).serial.isSome = true) (x : RemoteId) (hx : x ≠ r) (hs : s.serviced x = true) :
    (s.supRec x).serial ≠ (s.supRec r).serial :=
  (h.serials r x (Ne.symm hx) serviced hs some).symm

/-- The health of r where JOINING ends, with its report: the first part of `State.joined` (R125). -/
def State.serve (s : State) (r : RemoteId) : State :=
  (s.modSup r fun v => { v with health := if (s.supRec r).alarms.active then .impaired else .serving }).post .remoteJoined
    (.remote r) (if (s.supRec r).alarms.active then 1 else 0)

theorem State.Owes.serve {r : RemoteId} (h : s.Owes ⟨[], T, r :: J, [], F, e⟩) (joining : s.health r = .joining) :
    (s.serve r).Owes ⟨[r], r :: T, r :: J, (s.sectorOf r).toList, F, e⟩ := by
  have serviced : s.serviced r = true := by rw [State.serviced, joining]; rfl
  have more : s.Owes ⟨[r], r :: T, r :: J, (s.sectorOf r).toList, F, e⟩ :=
    h.mono ⟨nofun, fun x hx => List.mem_cons_of_mem _ hx, fun _ => id, nofun, fun _ => id, rfl⟩
  refine State.Owes.apart (State.Owes.modSup more r
    (fun v => { v with health := if (s.supRec r).alarms.active then .impaired else .serving }) rfl (by simp) (by simp) (by simp)
    (.inl ?_) (.inr fun x hx => by simp [hx]) ?_ ?_ (fun _ => h.serial_ne serviced) (.inr fun _ => ?_))
    (State.post_apart _ _ _ _)
  · rw [joining]; dsimp only; split <;> rfl
  · rw [joining]; dsimp only; split <;> simp
  · dsimp only; split <;> simp [Health.inService]
  · dsimp only; split <;> rfl

theorem State.serve_health {s : State} (r : RemoteId) : (s.serve r).health r ≠ .joining := by
  have health : (s.serve r).health r = if (s.supRec r).alarms.active then .impaired else .serving :=
    congrArg SupRecord.health (State.supRec_modSup_self s r _)
  rw [health]
  split <;> simp

/-- The boosts of the remotes concerned, evaluated once r serves. -/
def State.served (s : State) (r : RemoteId) : State × List RemoteId := (s.serve r).reevalBoosts ((s.serve r).concerned r)

theorem State.joined_eq (s : State) (r : RemoteId) : s.joined r = (withFirst r (s.served r).2).foldl State.engineRecompute
    ((s.served r).1.evalSector ((s.served r).1.sectorOf r)) := rfl

/-- A remote that joins is the only one whose target it changes (R125, R135). -/
theorem State.Owes.joined_alone {r : RemoteId} (h : s.Owes ⟨[], T, r :: J, [], F, e⟩) (joining : s.health r = .joining) :
    s.joined r = ((s.served r).1.evalSector (s.sectorOf r)).engineRecompute r := by
  obtain ⟨-, changed⟩ := (h.serve joining).reevalBoosts ((s.serve r).concerned r)
  have alone : withFirst r (s.served r).2 = [r] := by
    rw [withFirst, List.filter_eq_nil_iff.mpr fun x hx => by simpa using changed x hx]
  have sector : (s.served r).1.sectorOf r = s.sectorOf r := ((s.serve r).reevalBoosts_settles _).sectorOf r
  rw [State.joined_eq, alone, sector]
  rfl

/-- A remote that is JOINING joins, and its notice is paid (R125). -/
theorem State.Owes.joined {r : RemoteId} (h : s.Owes ⟨[], T, r :: J, [], F, e⟩) (joining : s.health r = .joining) :
    (s.joined r).Owes ⟨[], T, J, [], F, e⟩ := by
  rw [h.joined_alone joining]
  obtain ⟨boosted, changed⟩ := (h.serve joining).reevalBoosts ((s.serve r).concerned r)
  have paid : (s.served r).1.Owes ⟨[], r :: T, r :: J, (s.sectorOf r).toList ++ [], F, e⟩ := by
    refine boosted.mono ⟨fun x hx => ?_, fun x hx => ?_, fun _ => id, fun x hx => by simpa using hx, fun _ => id, rfl⟩
    · simp only [State.concerned, List.mem_filter, List.mem_singleton] at hx
      simp [hx.1] at hx
    · rcases List.mem_append.mp hx with hx | hx
      · rw [List.mem_singleton.mp (changed x hx)]; exact List.mem_cons_self
      · exact hx
  refine paid.evalSector.engineRecompute ?_
  have kept : (s.served r).1.health r ≠ .joining := fun k => State.serve_health r
    (((((s.serve r).reevalBoosts_settles ((s.serve r).concerned r)).sup r).health_eq (State.serve_health r)).symm.trans k)
  exact fun k => kept ((((State.evalSector_settles (s.served r).1 _).sup r).health_eq kept).symm.trans k)

/-- A completion notice is taken by the engine and by the Supervisor (R35, R125). -/
theorem State.Owes.completion {r : RemoteId} (h : s.Owes ⟨[], T, r :: J, [], F, e⟩) :
    (s.completion r).Owes ⟨[], T, J, [], F, e⟩ := by
  have left := h.leavePhase r
  unfold State.completion State.engineNotice
  simp only
  split
  · rename_i k
    simp only [Bool.and_eq_true, decide_eq_true_eq] at k
    exact left.joined k.1
  · rename_i k
    refine left.noticed (fun joining held => absurd ?_ k) fun q => absurd q (State.not_mem_leavePhase s r)
    simp [joining, held]

/-- The target of a remote is computed again (R32). -/
theorem State.Owes.recompute {r : RemoteId} (h : s.Owes ⟨[], r :: T, r :: J, [], F, e⟩) :
    (s.recompute r).Owes ⟨[], T, J, [], F, e⟩ := by
  have begun := h.beginRamp (List.mem_cons_self ..)
  unfold State.recompute
  simp only
  split
  · exact begun.completion
  · rename_i ramping
    have ramping : ((s.beginRamp r).ramp r).done = false := by simpa using ramping
    exact begun.noticed (fun _ _ => ramping) fun _ => ramping

theorem State.Owes.recomputeAll (rs : List RemoteId) : ∀ {s : State}, s.Owes ⟨[], rs, rs, [], F, e⟩ →
    (s.recomputeAll rs).Owes ⟨[], [], [], [], F, e⟩ := by
  induction rs with
  | nil => exact id
  | cons r rs ih => exact fun h => ih h.recompute

/-- A health change of r has been made: boosts, degraded flag and recomputes follow (R32, R131, R135, R136). -/
theorem State.Owes.settleHealth {r : RemoteId} (h : s.Owes ⟨s.concerned r, [r], [r], (s.sectorOf r).toList, F, e⟩) :
    (s.settleHealth r).Owes ⟨[], [], [], [], F, e⟩ := by
  unfold State.settleHealth
  simp only
  have settles := s.reevalBoosts_settles (s.concerned r)
  obtain ⟨boosted, -⟩ := h.reevalBoosts (s.concerned r)
  set p := s.reevalBoosts (s.concerned r) with hp
  rw [settles.sectorOf r]
  refine State.Owes.recomputeAll _ (State.Owes.evalSector ?_)
  refine boosted.mono ⟨fun x hx => by simp at hx, fun x hx => ?_, fun x hx => ?_, fun x hx => by simpa using hx,
    fun _ => id, rfl⟩
  · by_cases hxr : x = r
    · simp [withFirst, hxr]
    · simpa [withFirst, hxr] using hx
  · simp only [List.mem_singleton] at hx
    simp [withFirst, hx]

end Phases

end Sys2Proof.Machine
end

section
namespace Sys2Proof.Machine

/-! ### Departures (R34, R80, R82, R130, R131) -/

/-- A record changed in nothing the laws look at. -/
theorem State.modSup_apart (s : State) (r : RemoteId) (f : SupRecord → SupRecord)
    (same : let v := s.supRec r
      (f v).health = v.health ∧ (f v).alarms.hot = v.alarms.hot ∧ (f v).sources = v.sources ∧ (f v).boost = v.boost ∧
        (f v).held = v.held)
    (serial : s.serviced r = true → (f (s.supRec r)).serial = (s.supRec r).serial) : Apart s (s.modSup r f) := by
  obtain ⟨health, hot, sources, boost, held⟩ := same
  have read : ∀ {α : Type} (g : SupRecord → α), g (f (s.supRec r)) = g (s.supRec r) → ∀ x, g ((s.modSup r f).supRec x) =
      g (s.supRec x) := fun g k x => by
    rw [State.supRec_modSup]
    split
    · subst_vars; exact k
    · rfl
  refine ⟨rfl, rfl, rfl, read _ health, read (fun v => v.alarms.hot) hot, read _ sources, read _ boost, read _ held,
    fun x hx => ?_, rfl, rfl, id, id, id⟩
  rw [State.supRec_modSup]
  split
  · subst_vars; exact serial hx
  · rfl

theorem State.modFramer_apart (s : State) (l : Link) (f : Framer → Framer) : Apart s (s.modFramer l f) := by
  cases l <;> exact .of_parts rfl rfl rfl rfl rfl rfl rfl

theorem State.abortPass_apart (s : State) (r : RemoteId) : Apart s (s.abortPass r) := by
  have taking := (s.abortPass_spares r).taking
  rw [State.abortPass_frame] at taking ⊢
  exact .of_parts rfl rfl rfl rfl rfl taking rfl

theorem State.queuePoll_apart (s : State) (r : RemoteId) : Apart s (s.queuePoll r) :=
  (s.modFramer_apart _ _).trans (State.modSup_apart _ _ _ ⟨rfl, rfl, rfl, rfl, rfl⟩ fun _ => rfl)

theorem State.deriveMode_apart (s : State) (r : RemoteId) : Apart s (s.deriveMode r) :=
  s.modSup_apart _ _ ⟨rfl, rfl, rfl, rfl, rfl⟩ fun _ => rfl

section Departures

variable {s : State} {B T J : List RemoteId} {X : List SectorId} {F : List RemoteId} {e : Bool} {r : RemoteId}

/-- What a departure from a batch before its switch does to the engine (R82). -/
theorem State.engineDeparture_batch {m : MoveRecord} (h : s.engine.Orderly false) (hm : s.engine.record = some m)
    (before : s.engine.state = .fadeOut ∨ s.engine.state = .switchPending) (batch : m.kind = .batch) :
    s.engineDeparture r = { s with engine := { s.engine with
      state := if s.engine.phaseSet.filter (fun z => decide (z ≠ r)) = [] then .switchPending else .fadeOut
      record := some { m with fading := m.fading.filter fun z => decide (z ≠ r) }
      phaseSet := s.engine.phaseSet.filter fun z => decide (z ≠ r) } } := by
  obtain ⟨-, phaseless, -⟩ := h.lawful
  have cond : (decide (s.engine.state = .fadeOut) || decide (s.engine.state = .switchPending)) = true := by simpa using before
  have isBatch : m.isBatch = true := by simp [MoveRecord.isBatch, batch]
  unfold State.engineDeparture
  simp only [hm, cond, isBatch, if_true]
  unfold State.leavePhase
  by_cases member : r ∈ s.engine.phaseSet
  · have fades : s.engine.state = .fadeOut := before.resolve_right fun k => by
      rw [phaseless (.inr k)] at member; cases member
    rw [if_pos (by simpa using member)]
    simp only
    by_cases none : s.engine.phaseSet.filter (fun z => decide (z ≠ r)) = []
    · rw [if_pos (List.isEmpty_iff.mpr none), if_pos none]
      unfold State.phaseDone
      simp only [fades]
    · rw [if_neg (mt List.isEmpty_iff.mp none), if_neg none, ← fades]
  · have same : s.engine.phaseSet.filter (fun z => decide (z ≠ r)) = s.engine.phaseSet :=
      List.filter_eq_self.mpr fun z hz => decide_eq_true fun k => member (k ▸ hz)
    rw [if_neg (by simpa using member), same]
    rcases before with fades | pending
    · rw [if_neg (h.waiting rfl (.inl fades)), ← fades]
    · rw [if_pos (phaseless (.inr pending)), ← pending]

/-- The engine's law of a batch that goes on without r (R82). -/
theorem Engine.Orderly.withoutRemote {g : Engine} {m : MoveRecord} (h : g.Orderly false) (hm : g.record = some m)
    (before : g.state = .fadeOut ∨ g.state = .switchPending) (batch : m.kind = .batch) (r : RemoteId) :
    Engine.Orderly false { g with
      state := if g.phaseSet.filter (fun z => decide (z ≠ r)) = [] then .switchPending else .fadeOut
      record := some { m with fading := m.fading.filter fun z => decide (z ≠ r) }
      phaseSet := g.phaseSet.filter fun z => decide (z ≠ r) } := by
  set left := g.phaseSet.filter fun z => decide (z ≠ r) with hleft
  have state : (if left = [] then EngineState.switchPending else .fadeOut) ≠ .idle ∧
      (if left = [] then EngineState.switchPending else .fadeOut) ≠ .fadeIn ∧
      (if left = [] then EngineState.switchPending else .fadeOut) ≠ .recovering := by
    split <;> exact ⟨nofun, nofun, nofun⟩
  obtain ⟨idle, fadeIn, recovering⟩ := state
  have shape := h.shape m hm
  refine ⟨⟨⟨fun k => absurd k idle, nofun⟩, fun k => ?_, fun k => ?_⟩, fun k => absurd k idle, fun m' hm' => ?_,
    fun m' hm' => ?_, fun m' hm' => ?_, fun _ k => ?_, fun m' hm' x hx => ?_, fun _ m' hm' => ?_, nofun⟩
  · by_contra some
    simp [some] at k
  · rcases k with k | k | k
    · exact absurd k idle
    · exact absurd k fadeIn
    · exact absurd k recovering
  · cases hm'
    refine ⟨shape.outcome, shape.plan, fun k => absurd batch k, fun x hx => shape.fading x (List.mem_filter.mp hx).1⟩
  · cases hm'
    have := h.switched m hm
    simp only [fadeIn, iff_false]
    rcases before with k | k <;> simpa [k] using this
  · cases hm'; exact h.pending m hm
  · intro none
    rw [if_pos none] at k
    rcases k with k | k | k <;> cases k
  · cases hm'
    obtain ⟨hx, hne⟩ := List.mem_filter.mp hx
    exact List.mem_filter.mpr ⟨h.phase m hm x hx, hne⟩
  · cases hm'
    exact ⟨fun x hx => (h.held before m hm).1 x (List.mem_filter.mp hx).1, fun k => absurd batch k⟩

/-- The engine learns of a departure: what it has not been told is paid (R80, R82). -/
theorem State.Owes.engineDeparture (h : s.Owes ⟨B, T, J, X, [r], false⟩) (target : r ∈ T) (notice : r ∈ J) :
    (s.engineDeparture r).Owes ⟨B, T, J, X, [], false⟩ := by
  have told : s.FadingLaw [] → s.Owes ⟨B, T, J, X, [], false⟩ := fun k =>
    ⟨h.engine, h.boosts, h.ramps, h.held, h.sectors, h.load, h.serials, h.gains, k⟩
  cases hm : s.engine.record with
  | none =>
    rw [show s.engineDeparture r = s by rw [State.engineDeparture, hm]]
    exact told fun _ m k => by rw [hm] at k; cases k
  | some m =>
    by_cases before : s.engine.state = .fadeOut ∨ s.engine.state = .switchPending
    · by_cases batch : m.kind = .batch
      · rw [State.engineDeparture_batch h.engine hm before batch]
        refine h.setEngine _ (h.engine.withoutRemote hm before batch r) rfl (fun x hx => (List.mem_filter.mp hx).1) rfl
          (fun k => by rcases before with q | q <;> rw [q] at k <;> cases k) fun _ m' hm' => ?_
        cases hm'
        refine ⟨fun _ x hx _ => ?_, fun k => absurd batch k⟩
        obtain ⟨hx, hne⟩ := List.mem_filter.mp hx
        exact (h.fading before m hm).1 (.inr (.inl batch)) x hx (by simpa using hne)
      · have cond : (decide (s.engine.state = .fadeOut) || decide (s.engine.state = .switchPending)) = true := by
          simpa using before
        have single : m.isBatch = false := by simp [MoveRecord.isBatch, batch]
        obtain ⟨held, all⟩ := h.engine.held before m hm
        obtain ⟨z, x, y, -, fading⟩ := (h.engine.shape m hm).single batch
        unfold State.engineDeparture
        simp only [hm, cond, single, if_true, Bool.false_eq_true, if_false]
        split
        · rename_i member
          have member : r = z := by rw [fading] at member; simpa using member
          refine h.moveEnd .abandoned fun q hq => ?_
          rw [all batch, fading, List.mem_singleton, ← member] at hq
          exact hq ▸ ⟨target, notice⟩
        · rename_i other
          refine told fun k m' hm' => ?_
          obtain rfl : m = m' := by rw [hm] at hm'; exact Option.some.inj hm'
          refine ⟨fun q x hx _ => (h.fading k m hm).1 q x hx ?_, (h.fading k m hm).2⟩
          intro hxr
          exact other (by simpa using (List.mem_singleton.mp hxr) ▸ hx)
    · have cond : (decide (s.engine.state = .fadeOut) || decide (s.engine.state = .switchPending)) = false := by
        simpa using before
      rw [show s.engineDeparture r = s by rw [State.engineDeparture, hm]; simp only [cond, Bool.false_eq_true, if_false]]
      exact told fun k => absurd k before

/-- What a health change of r may leave to settle. -/
abbrev State.ChangeOf (s : State) (r : RemoteId) : Debt := ⟨s.concerned r, [r], [r], (s.sectorOf r).toList, [], false⟩

/-- The remote as it leaves, before the engine and the Relay are told (R34, R63, R131): the first part of
`State.enterOut`. -/
def State.departing (s : State) (r : RemoteId) (k : Health) (c : Option Cause) : State :=
  (((s.modSup r fun v => { v with health := k, cause := c, grace := none }).unDue (.linkGrace r)).modRamp r fun p =>
    { p with present := 0 }).markStale r

/-- The engine has been told of a departure from service. -/
def State.departed (s : State) (r : RemoteId) (k : Health) (c : Option Cause) : State :=
  if s.serviced r then (s.departing r k c).engineDeparture r else s.departing r k c

theorem State.enterOut_eq (s : State) (r : RemoteId) (k : Health) (c : Option Cause) : s.enterOut r k c =
    (if k = .waiting then s.departed r k c else (s.departed r k c).abortPass r).settleHealth r := rfl

theorem State.Owes.departing (h : s.Owes (s.ChangeOf r)) (present : s.health r ≠ .vacant) {k : Health}
    (out : k.inService = false) (vacant : k ≠ .vacant) (c : Option Cause) : (s.departing r k c).Owes
      ⟨s.concerned r, [r], [r], (s.sectorOf r).toList, if s.serviced r then [r] else [], false⟩ := by
  set f : SupRecord → SupRecord := fun v => { v with health := k, cause := c, grace := none } with hf
  set z := s.modRamp r fun p => { p with present := 0 } with hz
  have more : z.Owes ⟨s.concerned r, [r], [r], (s.sectorOf r).toList, if s.serviced r then [r] else [], false⟩ :=
    (h.zeroGain (r := r) (by simp) (by simp)).mono ⟨fun _ => id, fun _ => id, fun _ => id, fun _ => id, nofun, rfl⟩
  have gone : (z.modSup r f).Owes ⟨s.concerned r, [r], [r], (s.sectorOf r).toList,
      if s.serviced r then [r] else [], false⟩ := by
    refine more.modSup r f rfl (by simp [State.concerned]) (by simp) (by simp) (.inr fun y hy => ?_)
      (.inr fun x hx => Option.mem_toList.mpr hx) ⟨fun q => absurd q vacant, fun q => absurd q present⟩ (fun _ => ?_)
      (fun q => absurd (out.symm.trans q) (by simp)) ?_
    · by_cases hyr : y = r
      · simp [State.concerned, hyr]
      · simp [State.concerned, hyr, show y ∈ (s.live r).partners from hy]
    · rw [hz, State.ramp_modRamp_self]
    · by_cases was : s.serviced r = true
      · simp [was]
      · exact .inr fun q => absurd q was
  exact gone.apart (show Apart (z.modSup r f) (s.departing r k c) from .of_parts rfl rfl rfl rfl rfl rfl rfl)

theorem State.Owes.departed (h : s.Owes (s.ChangeOf r)) (present : s.health r ≠ .vacant) {k : Health}
    (out : k.inService = false) (vacant : k ≠ .vacant) (c : Option Cause) : (s.departed r k c).Owes (s.ChangeOf r) := by
  have left := h.departing present out vacant c
  unfold State.departed
  split
  · rename_i was
    rw [if_pos was] at left
    exact left.engineDeparture (by simp) (by simp)
  · rename_i was
    rw [if_neg was] at left
    exact left

theorem State.departed_live (s : State) (r : RemoteId) (k : Health) (c : Option Cause) (x : RemoteId) :
    (s.departed r k c).live x = s.live x := by
  unfold State.departed
  split
  · exact ((s.departing r k c).engineDeparture_settles r).live x
  · rfl

/-- A remote leaves for LOST, ISOLATED or WAITING (R34, R131). -/
theorem State.Owes.enterOut (h : s.Owes (s.ChangeOf r)) (present : s.health r ≠ .vacant) {k : Health}
    (out : k.inService = false) (vacant : k ≠ .vacant) (c : Option Cause) : (s.enterOut r k c).Settled := by
  have live := s.departed_live r k c
  have apart : Apart (s.departed r k c) (if k = .waiting then s.departed r k c else (s.departed r k c).abortPass r) :=
    .ite (.refl _) ((s.departed r k c).abortPass_apart r)
  have ready := (h.departed present out vacant c).apart apart
  rw [State.enterOut_eq]
  revert ready
  generalize (if k = .waiting then s.departed r k c else (s.departed r k c).abortPass r) = u at apart
  intro ready
  refine State.Owes.settleHealth ?_
  have sector : u.sectorOf r = s.sectorOf r := by rw [apart.sectorOf, State.sectorOf, live]; rfl
  have concerned : u.concerned r = s.concerned r := by rw [State.concerned, apart.live, live]; rfl
  rw [sector, concerned]
  exact ready

/-- A remote in service is lost (R130, R132). -/
theorem State.Owes.lose (h : s.Owes (s.ChangeOf r)) (serviced : s.serviced r = true) (c : Cause) :
    (s.lose r c).Settled := by
  have present : s.health r ≠ .vacant := fun k => by rw [State.serviced, k] at serviced; cases serviced
  unfold State.lose
  simp only
  set a := s.modSup r fun v => { v with
    flap := min 15 ((s.supRec r).flap + 1)
    decay := if (s.supRec r).flap = 0 then some 0 else v.decay } with ha
  have apart : Apart s a := s.modSup_apart _ _ ⟨rfl, rfl, rfl, rfl, rfl⟩ fun _ => rfl
  have lost := apart.trans (a.post_apart .remoteLost (.remote r) (word16 c.code))
  split
  · have isolated := lost.trans (State.post_apart _ .remoteIsolated (.remote r) (word16 Cause.flapping.code))
    exact (h.apart isolated).enterOut (k := .isolated) (fun q => present ((isolated.health r).symm.trans q)) rfl nofun _
  · exact (h.apart lost).enterOut (k := .lost) (fun q => present ((lost.health r).symm.trans q)) rfl nofun _

theorem State.Settled.apart {t : State} (h : s.Settled) (a : Apart s t) : t.Settled := State.Owes.apart h a

theorem State.Settled.change (h : s.Settled) (r : RemoteId) : s.Owes (s.ChangeOf r) :=
  h.mono ⟨nofun, nofun, nofun, nofun, nofun, rfl⟩

end Departures

end Sys2Proof.Machine
end

section
namespace Sys2Proof.Machine

/-! ### STATUS (R124 to R129) and polls (R122, R123) -/

theorem State.postOutputs_apart (s : State) (r : RemoteId) (old new : Alarms) : Apart s (s.postOutputs r old new) := by
  unfold State.postOutputs
  exact .ite (.refl _) (.ite (State.post_apart _ _ _ _) (State.post_apart _ _ _ _))

theorem State.postThermal_apart (s : State) (r : RemoteId) (old new : Alarms) : Apart s (s.postThermal r old new) := by
  unfold State.postThermal
  exact .ite (.refl _) (.ite (State.post_apart _ _ _ _) (State.post_apart _ _ _ _))

section Joins

variable {s : State} {B T J : List RemoteId} {X : List SectorId} {F : List RemoteId} {r : RemoteId}

/-- A batch before its switch holds one remote more (R82). -/
theorem State.Owes.holdRemote (h : s.Owes ⟨B, T, J, X, F, false⟩) (target : r ∈ T)
    (before : s.engine.state = .fadeOut ∨ s.engine.state = .switchPending)
    (batch : ∀ m, s.engine.record = some m → m.kind = .batch) : (s.holdRemote r).Owes ⟨B, T, J, X, F, false⟩ := by
  unfold State.holdRemote
  split
  · exact h
  set g : Engine := { s.engine with holdSet := s.engine.holdSet ++ [r] } with hg
  set t := ({ s with engine := g } : State).tellHeld [r] true with ht
  have record : ∀ x, t.supRec x = if x ∈ [r] then { s.supRec x with held := true } else s.supRec x :=
    State.supRec_tellHeld [r] true { s with engine := g }
  have read : ∀ {α : Type} (p : SupRecord → α), (∀ v, p { v with held := true } = p v) → ∀ x, p (t.supRec x) =
      p (s.supRec x) := fun p k x => by rw [record]; split <;> simp [k]
  have health : ∀ x, t.health x = s.health x := read SupRecord.health fun _ => rfl
  have serviced : ∀ x, t.serviced x = s.serviced x := fun x => by rw [State.serviced, health]; rfl
  have serving : ∀ x, t.servingNow x = s.servingNow x := fun x =>
    State.servingNow_congr (fun _ => rfl) fun r _ => by rw [health]
  have k := h.engine
  obtain ⟨recorded, phaseless, -⟩ := k.lawful
  have notAfter : ¬(s.engine.state = .idle ∨ s.engine.state = .fadeIn ∨ s.engine.state = .recovering) := by
    rcases before with q | q <;> simp [q]
  refine ⟨⟨⟨recorded, phaseless, fun q => absurd q notAfter⟩, fun q => absurd (.inl q) notAfter, k.shape, k.switched,
      k.pending, k.waiting, k.phase, fun q m hm => ⟨fun x hx => List.mem_append_left _ ((k.held q m hm).1 x hx),
        fun other => absurd (batch m hm) other⟩, nofun⟩,
    ⟨fun y hy => ?_, fun y hy => ?_⟩, ⟨fun x hx => ?_, h.ramps.done, fun x => ?_, fun x hx hj free => ?_, h.ramps.ramping⟩,
    fun x => ?_, fun hl x hx => ?_, ⟨fun hl x => ?_, fun hl => ?_⟩, fun x y => ?_, h.gains, fun hs m hm => ?_⟩
  · rw [read SupRecord.sources fun _ => rfl, State.sourcesOf_congr health (fun _ => rfl)]
    exact h.boosts.sources y hy
  · rw [read SupRecord.boost fun _ => rfl, read SupRecord.sources fun _ => rfl,
      State.appliedBoost_congr (read (fun v => v.alarms.hot) (fun _ => rfl) y) (fun _ => rfl)]
    exact h.boosts.boost y hy
  · have other : x ≠ r := fun q => hx (q ▸ target)
    refine (h.ramps.target x hx).trans (State.targetOf_congr (t := t) (serviced x) ?_
      (read (fun v => v.alarms.hot) (fun _ => rfl) x) (read SupRecord.boost (fun _ => rfl) x) rfl).symm
    show x ∈ s.engine.holdSet ++ [r] ↔ _
    simp [other]
  · rw [serviced]; exact h.ramps.present x
  · rw [health] at hj
    refine h.ramps.joining x hx hj ?_
    rw [record] at free
    split at free
    · cases free
    · exact free
  · rw [record]
    show _ ↔ x ∈ s.engine.holdSet ++ [r]
    rw [List.mem_append]
    split
    · rename_i member; exact ⟨fun _ => .inr member, fun _ => rfl⟩
    · rename_i other; rw [h.held x]; exact ⟨.inl, fun q => q.resolve_right other⟩
  · rw [serving, State.degradedNow, serving]; exact h.sectors hl x hx
  · rw [health]; exact h.load.vacant hl x
  · exact absurd (.inl (h.load.unloaded hl).2.1) notAfter
  · rw [serviced, serviced, read SupRecord.serial fun _ => rfl, read SupRecord.serial fun _ => rfl]
    exact h.serials x y
  · obtain ⟨all, origin⟩ := h.fading hs m hm
    exact ⟨fun q x hx hn => (serviced x).trans (all q x hx hn), origin⟩

/-- The engine runs a batch when its record says so. -/
theorem State.batchRunning_iff (s : State) : s.batchRunning = true ↔ ∃ m, s.engine.record = some m ∧ m.kind = .batch := by
  unfold State.batchRunning
  cases s.engine.record with
  | none => simp
  | some m => simp [MoveRecord.isBatch]

/-- A remote enters JOINING, its serial that of no other in service (R124). -/
theorem State.Owes.enterJoining (h : s.Owes (s.ChangeOf r)) (out : s.health r = .waiting ∨ s.health r = .lost)
    (serial : ∀ x, x ≠ r → s.serviced x = true → (s.supRec x).serial ≠ (s.supRec r).serial) :
    (s.enterJoining r).Settled := by
  unfold State.enterJoining
  simp only
  set a := s.modSup r fun v => { v with health := .joining, cause := none } with ha
  have entered : a.Owes (s.ChangeOf r) := by
    refine h.modSup r (fun v => { v with health := .joining, cause := none }) rfl (by simp [State.concerned]) (by simp)
      (by simp) (.inr fun y hy => ?_) (.inl ?_) ⟨nofun, fun k => ?_⟩ nofun (fun _ _ => serial) (.inr fun _ => rfl)
    · by_cases hyr : y = r
      · simp [State.concerned, hyr]
      · simp [State.concerned, hyr, hy]
    · rcases out with k | k <;> rw [k] <;> rfl
    · rcases out with q | q <;> rw [q] at k <;> cases k
  refine State.Owes.settleHealth ?_
  split
  · rename_i hold
    simp only [Bool.and_eq_true, Bool.or_eq_true, decide_eq_true_eq] at hold
    obtain ⟨running, before⟩ := hold
    obtain ⟨m, hm, batch⟩ := a.batchRunning_iff.mp running
    have held := entered.holdRemote (r := r) (by simp) before fun m' hm' => by rw [hm] at hm'; cases hm'; exact batch
    have live : ∀ x, (a.holdRemote r).live x = s.live x := (a.holdRemote_settles r).live
    have concerned : (a.holdRemote r).concerned r = s.concerned r := by rw [State.concerned, live]; rfl
    have sector : (a.holdRemote r).sectorOf r = s.sectorOf r := by rw [State.sectorOf, live]; rfl
    rw [concerned, sector]
    exact held
  · exact entered

/-- With the source set and the boost of a remote, its target and its notice owed, the alarms may change (R129, R135). -/
theorem State.Owes.takeAlarms {d : Debt} (h : s.Owes d) (new : Alarms)
    (owed : r ∈ d.boosts ∧ r ∈ d.targets ∧ r ∈ d.notices) : (s.takeAlarms r new).Owes d := by
  obtain ⟨boost, target, notice⟩ := owed
  have taken : (s.modSup r fun v => { v with alarms := new }).Owes d :=
    h.modSup r (fun v => { v with alarms := new }) rfl boost target notice (.inl rfl) (.inl rfl)
      Iff.rfl (h.ramps.present r).2 (fun serviced => h.serial_ne serviced) (.inr id)
  exact ((taken.apart (State.deriveMode_apart _ r)).apart (State.postOutputs_apart _ r _ _)).apart
    (State.postThermal_apart _ r _ _)

/-- Alarms that leave the over-temperature as it was touch nothing the laws look at. -/
theorem State.takeAlarms_apart {new : Alarms} (same : new.hot = (s.supRec r).alarms.hot) : Apart s (s.takeAlarms r new) :=
  (((State.modSup_apart s r (fun v => { v with alarms := new }) ⟨rfl, same, rfl, rfl, rfl⟩ fun _ => rfl).trans
    (State.deriveMode_apart _ r)).trans (State.postOutputs_apart _ r _ _)).trans (State.postThermal_apart _ r _ _)

/-- What the alarms of a STATUS leave of the record. -/
theorem State.takeAlarms_record (s : State) (r x : RemoteId) (new : Alarms) : (s.takeAlarms r new).supRec x =
    if r = x then { s.supRec x with alarms := new, mode := new.effective (s.live x).mode } else s.supRec x := by
  have events : ∀ t : State, ∀ old, ((t.postOutputs r old new).postThermal r old new).sup = t.sup := fun t old => by
    unfold State.postThermal State.postOutputs
    split <;> [skip; split] <;> (split <;> [skip; split]) <;> rfl
  unfold State.takeAlarms
  simp only
  rw [State.supRec_congr (events _ _), State.deriveMode, State.supRec_modSup, State.supRec_modSup]
  split
  · subst_vars; rfl
  · rfl

/-- The recompute that a change of over-temperature asks for settles it (R129, R135). -/
theorem State.Settled.thermalRecompute (h : s.Settled) (new : Alarms) :
    ((s.takeAlarms r new).thermalRecompute r (s.supRec r).alarms).Settled := by
  have hot : ((s.takeAlarms r new).supRec r).alarms = new := by rw [State.takeAlarms_record, if_pos rfl]
  unfold State.thermalRecompute
  rw [hot]
  split
  · rename_i same
    exact h.apart (State.takeAlarms_apart same.symm)
  · have owes : s.Owes ⟨[r], [r], [r], [], [], false⟩ := h.mono ⟨nofun, nofun, nofun, nofun, nofun, rfl⟩
    obtain ⟨boosted, changed⟩ := (owes.takeAlarms (r := r) new (by simp)).reevalBoosts [r]
    simp only
    refine State.Owes.recomputeAll _ (boosted.mono ⟨fun x hx => by simp at hx, fun x hx => ?_, fun x hx => ?_, fun _ => id,
      fun _ => id, rfl⟩)
    · rcases List.mem_append.mp hx with hx | hx
      · rw [List.mem_singleton.mp (changed x hx)]; exact List.mem_cons_self
      · rw [List.mem_singleton.mp hx]; exact List.mem_cons_self
    · rw [List.mem_singleton.mp hx]; exact List.mem_cons_self

theorem State.takeAlarms_live (s : State) (r : RemoteId) (new : Alarms) (x : RemoteId) :
    (s.takeAlarms r new).live x = s.live x :=
  ((State.deriveMode_apart _ r).trans ((State.postOutputs_apart _ r (s.supRec r).alarms new).trans
    (State.postThermal_apart _ r (s.supRec r).alarms new))).live (s := s.modSup r fun v => { v with alarms := new }) x

/-- The debt of a change of r stands through the taking of its alarms. -/
theorem State.Settled.takeAlarms (h : s.Settled) (r : RemoteId) (new : Alarms) :
    (s.takeAlarms r new).Owes ((s.takeAlarms r new).ChangeOf r) := by
  have same : (s.takeAlarms r new).ChangeOf r = s.ChangeOf r := by
    simp only [State.ChangeOf, State.concerned, State.sectorOf, State.takeAlarms_live]
  rw [same]
  exact (h.change r).takeAlarms new (by simp [State.concerned])

/-- A STATUS that passes the checks of R124 in WAITING or LOST. -/
theorem State.Settled.acceptJoin (h : s.Settled) (out : s.health r = .waiting ∨ s.health r = .lost) (b : List Byte)
    (alone : s.serialHolder r (statusSerial b) = none) : (s.acceptJoin r b).Settled := by
  unfold State.acceptJoin
  simp only
  set a := s.modSup r fun v => { v with serial := some (statusSerial b), position := some (statusPosition b) } with ha
  have notServiced : s.serviced r = false := by rcases out with k | k <;> rw [State.serviced, k] <;> rfl
  have apart : Apart s a := s.modSup_apart _ _ ⟨rfl, rfl, rfl, rfl, rfl⟩ fun k => by rw [notServiced] at k; cases k
  have known : a.Settled := h.apart apart
  have alarms : (s.supRec r).alarms = (a.supRec r).alarms := by rw [ha, State.supRec_modSup_self]
  rw [alarms]
  split
  · exact known.thermalRecompute _
  · have record := a.takeAlarms_record r
    have health : (a.takeAlarms r (statusAlarms b)).health r = s.health r := by
      rw [State.health, record, if_pos rfl]
      exact apart.health r
    refine (known.takeAlarms r _).enterJoining (by rw [health]; exact out) fun x hx serviced => ?_
    rw [record, if_neg (Ne.symm hx), record, if_pos rfl]
    have serial : (a.supRec r).serial = some (statusSerial b) := by rw [ha, State.supRec_modSup_self]
    have other : a.supRec x = s.supRec x := State.supRec_modSup_ne s _ hx
    rw [State.serviced, State.health, record, if_neg (Ne.symm hx), other] at serviced
    have := List.find?_eq_none.mp alone x (List.mem_finRange x)
    simp only [Bool.and_eq_true, decide_eq_true_eq, not_and] at this
    show (a.supRec x).serial ≠ (a.supRec r).serial
    rw [other, serial]
    exact this ⟨hx, serviced⟩

theorem State.Settled.identityChecks (h : s.Settled) (out : s.health r = .waiting ∨ s.health r = .lost) (b : List Byte) :
    (s.identityChecks r b).Settled := by
  unfold State.identityChecks State.duplicateCheck
  split
  · exact h.apart (s.post_apart _ _ _)
  · split
    · exact h.apart (s.post_apart _ _ _)
    · rename_i alone
      exact h.acceptJoin out b alone

/-- A STATUS accepted in service (R126, R127). -/
theorem State.Settled.acceptInService (h : s.Settled) (serviced : s.serviced r = true) (b : List Byte) :
    (s.acceptInService r b).Settled := by
  unfold State.acceptInService
  simp only
  set a := s.modSup r fun v => { v with position := some (statusPosition b) } with ha
  have apart : Apart s a := s.modSup_apart _ _ ⟨rfl, rfl, rfl, rfl, rfl⟩ fun _ => rfl
  have known : a.Settled := h.apart apart
  have alarms : (s.supRec r).alarms = (a.supRec r).alarms := by rw [ha, State.supRec_modSup_self]
  have health : (a.takeAlarms r (statusAlarms b)).health r = s.health r := by
    rw [State.health, a.takeAlarms_record r, if_pos rfl]
    exact apart.health r
  rw [alarms]
  split
  · exact (known.takeAlarms r _).lose (by rw [State.serviced, health]; exact serviced) _
  split
  · exact known.thermalRecompute _
  · rename_i changed
    have moves : ∀ k : Health, healthByAlarms k (statusAlarms b) ≠ k → (k = .serving ∨ k = .impaired) ∧
        (healthByAlarms k (statusAlarms b) = .serving ∨ healthByAlarms k (statusAlarms b) = .impaired) := by
      intro k hk
      cases k <;> simp only [healthByAlarms, ne_eq, not_true] at hk ⊢ <;> split <;> simp
    obtain ⟨was, now⟩ := moves _ changed
    have inService : (healthByAlarms ((a.takeAlarms r (statusAlarms b)).health r) (statusAlarms b)).inService = true := by
      rcases now with k | k <;> rw [k] <;> rfl
    refine State.Owes.settleHealth (State.Owes.modSup (known.takeAlarms r _) r
      (fun v => { v with health := healthByAlarms ((a.takeAlarms r (statusAlarms b)).health r) (statusAlarms b) }) rfl
      (by simp [State.concerned]) (by simp) (by simp) (.inl ?_) (.inl ?_) ⟨fun k => ?_, fun k => ?_⟩
      (fun k => absurd (inService.symm.trans k) (by simp)) (fun _ => (known.takeAlarms r _).serial_ne
        (by rw [State.serviced, health]; exact serviced)) (.inr fun _ => inService))
    · rcases was with k | k <;> rcases now with q | q <;> rw [q, k] <;> rfl
    · rcases was with k | k <;> rcases now with q | q <;> rw [q, k] <;> rfl
    · rcases now with q | q <;> rw [q] at k <;> cases k
    · rcases was with q | q <;> rw [q] at k <;> cases k

/-- Every STATUS leaves the laws as they are (R124 to R129). -/
theorem State.Settled.statusArrives (h : s.Settled) (r : RemoteId) (b : List Byte) : (s.statusArrives r b).Settled := by
  unfold State.statusArrives
  simp only
  set a := s.modSup r fun v => { v with miss := 0, awaiting := false, report := some ⟨b, s.now⟩ } with ha
  have known : a.Settled := h.apart (s.modSup_apart _ _ ⟨rfl, rfl, rfl, rfl, rfl⟩ fun _ => rfl)
  have inService : a.serviced r = true → (a.inServiceCheck r b).Settled := fun serviced => by
    unfold State.inServiceCheck
    split
    · exact known.acceptInService serviced b
    · exact (known.change r).lose serviced _
  cases hh : a.health r with
  | vacant => exact known
  | isolated => exact known
  | waiting => exact known.identityChecks (.inl hh) b
  | lost => exact known.identityChecks (.inr hh) b
  | joining => exact inService (by rw [State.serviced, hh]; rfl)
  | serving => exact inService (by rw [State.serviced, hh]; rfl)
  | impaired => exact inService (by rw [State.serviced, hh]; rfl)

theorem State.Settled.pollRemote (h : s.Settled) (r : RemoteId) : (s.pollRemote r).Settled := by
  unfold State.pollRemote
  split
  · exact h
  simp only
  set a := (if (s.supRec r).awaiting then s.modSup r fun v => { v with miss := min 15 (v.miss + 1) } else s) with ha
  have known : a.Settled := h.apart (.ite (s.modSup_apart _ _ ⟨rfl, rfl, rfl, rfl, rfl⟩ fun _ => rfl) (.refl s))
  split
  · rename_i lost
    simp only [Bool.and_eq_true] at lost
    exact ((known.change r).lose lost.1 _).apart (State.queuePoll_apart _ r)
  · exact known.apart (State.queuePoll_apart _ r)

/-- A loop of steps that keep the laws keeps them. -/
theorem State.Settled.foldl {α : Type} {f : State → α → State} (step : ∀ s a, State.Settled s → (f s a).Settled)
    (xs : List α) : ∀ {s : State}, s.Settled → (xs.foldl f s).Settled := by
  induction xs with
  | nil => exact id
  | cons a xs ih => exact fun h => ih (step _ a h)

theorem State.Settled.pollExpires (h : s.Settled) : s.pollExpires.Settled :=
  State.Settled.foldl (fun _ r k => k.pollRemote r) _ (h.apart (show Apart s
    { s with sup := { s.sup with pollCount := 0, pollForce := s.settings.poll } } from
      ⟨rfl, rfl, rfl, fun _ => rfl, fun _ => rfl, fun _ => rfl, fun _ => rfl, fun _ => rfl, fun _ _ => rfl, rfl, rfl, id, id, id⟩))

theorem State.Settled.graceExpires (h : s.Settled) (r : RemoteId) : (s.graceExpires r).Settled := by
  unfold State.graceExpires
  simp only
  have known := h.apart (s.modSup_apart r (fun v => { v with grace := none }) ⟨rfl, rfl, rfl, rfl, rfl⟩ fun _ => rfl)
  split
  · rename_i serviced
    exact (known.change r).lose serviced _
  · exact known

theorem State.Settled.flapExpires (h : s.Settled) (r : RemoteId) : (s.flapExpires r).Settled :=
  h.apart (s.modSup_apart r _ ⟨rfl, rfl, rfl, rfl, rfl⟩ fun _ => rfl)

theorem State.Settled.isolate (h : s.Settled) (present : s.health r ≠ .vacant) : (s.isolate r).Settled :=
  ((h.apart (s.post_apart .remoteIsolated (.remote r) (word16 Cause.command.code))).change r).enterOut (k := .isolated)
    present rfl nofun _

theorem State.Settled.restore (h : s.Settled) (isolated : s.health r = .isolated) : (s.restore r).Settled := by
  unfold State.restore
  simp only
  set a := s.modSup r fun v => { v with flap := 0, decay := none } with ha
  have apart : Apart s (a.unDue (.flap r)) :=
    (s.modSup_apart _ _ ⟨rfl, rfl, rfl, rfl, rfl⟩ fun _ => rfl).trans (a.unDue_apart _)
  have entered := ((h.apart apart).change r).enterOut (k := .waiting) (by rw [apart.health, isolated]; nofun) rfl nofun none
  unfold State.pollIfLocked
  split
  · exact entered.apart (State.queuePoll_apart _ r)
  · exact entered

end Joins

end Sys2Proof.Machine
end

section
namespace Sys2Proof.Machine

/-! ### The ramp step (R33) -/

/-- A target is a gain in range (R30, R31). -/
theorem State.Owes.targetOf_le {d : Debt} {s : State} (h : s.Owes d) (r : RemoteId) : s.targetOf r ≤ 1023 := by
  have gain := (h.gains r).1
  unfold State.targetOf thermalTarget
  split
  · exact Nat.zero_le _
  split
  · exact Nat.zero_le _
  split
  · omega
  · exact Nat.min_le_left ..

/-- The present gain after a ramp step. -/
def Ramp.moved (k : Nat) (p : Ramp) : Nat :=
  if p.done then p.present
  else if p.present ≤ p.target then min p.target (p.present + k) else max p.target (p.present - k)

theorem Ramp.step_eq (p : Ramp) (k : Nat) :
    p.step k = ⟨p.moved k, p.target, if p.done then true else decide (p.moved k = p.target)⟩ := by
  unfold Ramp.step Ramp.moved
  split
  · rename_i h; rw [← h]
  · rfl

/-- A gain never moves past its target (R33). -/
theorem Ramp.moved_le (p : Ramp) (k : Nat) : p.moved k ≤ max p.present p.target := by
  unfold Ramp.moved
  split
  · exact le_max_left ..
  split
  · exact (min_le_left ..).trans (le_max_right ..)
  · exact max_le (le_max_right ..) ((Nat.sub_le ..).trans (le_max_left ..))

/-- The ramps moved one step. -/
def State.ramped (s : State) : State :=
  { s with dist := { s.dist with ramps := s.dist.ramps.map fun p => p.step s.settings.rampStep } }

/-- The remotes whose ramps a step completes. -/
def State.completing (s : State) : List RemoteId :=
  (List.finRange 16).filter fun r => !(s.ramp r).done && ((s.ramp r).step s.settings.rampStep).done

theorem State.ramp_ramped (s : State) (r : RemoteId) : s.ramped.ramp r = (s.ramp r).step s.settings.rampStep := by
  show (s.dist.ramps.map _).get r = _
  rw [Tab.get_map]
  rfl

theorem State.mem_completing {s : State} {r : RemoteId} :
    r ∈ s.completing ↔ (s.ramp r).done = false ∧ ((s.ramp r).step s.settings.rampStep).done = true := by
  simp [State.completing]

/-- The ramps have moved, and the notices of those completed are owed (R33). -/
theorem State.Settled.ramped {s : State} (h : s.Settled) : s.ramped.Owes ⟨[], [], s.completing, [], [], false⟩ := by
  have ramp := s.ramp_ramped
  have noticed : ∀ r, r ∉ s.completing → (s.ramp r).done = false → (s.ramped.ramp r).done = false := fun r hr moving => by
    rw [ramp]
    by_contra done
    exact hr (State.mem_completing.mpr ⟨moving, by simpa using done⟩)
  refine ⟨h.engine, ⟨h.boosts.sources, h.boosts.boost⟩, ⟨fun r hr => ?_, fun r hr => ?_, fun r => ?_, fun r hr hj hf => ?_,
    fun r hr k => ?_⟩, h.held, h.sectors, ⟨h.load.vacant, h.load.unloaded⟩, h.serials, h.gains, h.fading⟩
  · rw [ramp, Ramp.step_eq]; exact h.ramps.target r hr
  · rw [ramp, Ramp.step_eq]
    dsimp only
    split
    · rename_i done
      have := (h.ramps.done r hr).mp done
      simpa [Ramp.moved, done] using this
    · exact decide_eq_true_iff
  · have target := h.ramps.target r nofun
    obtain ⟨range, out⟩ := h.ramps.present r
    have moved := (s.ramp r).moved_le s.settings.rampStep
    rw [ramp, Ramp.step_eq]
    refine ⟨moved.trans (max_le range (target ▸ h.targetOf_le r)), fun notServiced => ?_⟩
    have notServiced : s.serviced r = false := notServiced
    have zero : s.targetOf r = 0 := by simp [State.targetOf, notServiced]
    rw [target, zero, out notServiced] at moved
    exact Nat.le_zero.mp moved
  · exact noticed r hr (h.ramps.joining r nofun hj hf)
  · exact noticed r hr (h.ramps.ramping r nofun k)

theorem State.Owes.completions (rs : List RemoteId) {F : List RemoteId} {e : Bool} : ∀ {s : State},
    s.Owes ⟨[], [], rs, [], F, e⟩ → (rs.foldl State.completion s).Owes ⟨[], [], [], [], F, e⟩ := by
  induction rs with
  | nil => exact id
  | cons r rs ih => exact fun h => ih h.completion

theorem State.Settled.rampStep {s : State} (h : s.Settled) : s.rampStep.Settled := h.ramped.completions _

/-! ### Starts and recovery (R74 to R77, R81, R85, R86) -/

/-- A move that has started in IDLE leaves the laws as they are. -/
theorem State.Settled.started {s t : State} {m : MoveRecord} {p : Option PlanMap} (h : s.Settled) (st : Started m p s t)
    (idle : s.engine.state = .idle) (loaded : s.map.loadNext = false) (shape : m.Shape) (switch : m.switchFc = none)
    (plan : p.isSome = true ↔ m.kind = .batch) (gains : ∀ q, p = some q → ∀ r, (q.remotes.get r).baseGain ≤ 1023)
    (serviced : m.kind = .batch ∨ m.kind = .manual → ∀ r ∈ m.fading, s.serviced r = true)
    (origin : m.kind ≠ .batch → ∀ q ∈ m.places, q.origin = s.sectorOf q.remote) : t.Settled := by
  have free : s.engine.holdSet = [] := h.engine.lawful.2.2 (.inl idle)
  have engine := st.engine
  have map : t.map = s.map := by rw [st.frame]
  have live : ∀ r, t.live r = s.live r := fun r => by rw [State.live, map]; rfl
  have sectorOf : ∀ r, t.sectorOf r = s.sectorOf r := fun r => by rw [State.sectorOf, live]; rfl
  have read : ∀ {α : Type} (f : SupRecord → α), (∀ v, f { v with held := true } = f v) → ∀ x, f (t.supRec x) =
      f (s.supRec x) := fun f k x => by rw [st.records]; split <;> simp [k]
  have health : ∀ x, t.health x = s.health x := read SupRecord.health fun _ => rfl
  have served : ∀ x, t.serviced x = s.serviced x := fun x => by rw [State.serviced, health]; rfl
  have serving : ∀ x, t.servingNow x = s.servingNow x := fun x => State.servingNow_congr sectorOf fun r _ => by rw [health]
  have before : ∀ {c : EngineState}, c ∈ [EngineState.idle, .fadeIn, .recovering] → t.engine.state ≠ c := fun hc k => by
    rw [engine] at k
    dsimp only at k
    split at k <;> subst k <;> simp at hc
  have hold : t.engine.holdSet = m.fading := by rw [engine]
  have record : t.engine.record = some m := by rw [engine]
  have is : ∀ {n}, t.engine.record = some n → m = n := fun k => Option.some.inj (record.symm.trans k)
  have phase : ∀ r ∈ t.engine.phaseSet, r ∈ m.fading ∧ (s.ramp r).present ≠ 0 := fun r hr => by
    rw [engine] at hr
    simpa using hr
  refine ⟨⟨⟨⟨fun k => absurd k (before (by simp)), fun k => nomatch record.symm.trans k⟩, fun k => ?_, fun k => ?_⟩,
      fun k => absurd k (before (by simp)), fun n hn => is hn ▸ shape,
      fun n hn => by rw [← is hn, switch]; simp [before], fun n hn => by rw [← is hn, engine]; exact plan, fun _ k => ?_,
      fun n hn r hr => is hn ▸ (phase r hr).1, fun _ n hn => by rw [hold, is hn]; exact ⟨fun _ => id, fun _ => rfl⟩, nofun⟩,
    ⟨fun y hy => ?_, fun y hy => ?_⟩, ⟨fun r hr => ?_, fun r hr => ?_, fun r => ?_, fun r hr hj hf => ?_, fun r hr k => ?_⟩,
    fun r => ?_, fun hl x hx => ?_, ⟨fun hl r => ?_, fun hl => ?_⟩, fun x y => ?_, fun r => ⟨?_, fun q hq => ?_⟩,
    fun k n hn => ?_⟩
  · have pending := k.resolve_left (before (by simp))
    rw [engine] at pending ⊢
    dsimp only at pending ⊢
    split at pending
    · rename_i all
      exact List.filter_eq_nil_iff.mpr fun r hr => by simp [all r hr]
    · cases pending
  · rcases k with k | k | k <;> exact absurd k (before (by simp))
  · rcases k with k | k | k
    · rw [engine] at k ⊢
      dsimp only at k ⊢
      split at k
      · cases k
      · rename_i some
        push Not at some
        obtain ⟨r, hr, present⟩ := some
        exact List.ne_nil_of_mem (List.mem_filter.mpr ⟨hr, by simpa using present⟩)
    · exact absurd k (before (by simp))
    · exact absurd k (before (by simp))
  · rw [read SupRecord.sources fun _ => rfl, State.sourcesOf_congr health live]
    exact h.boosts.sources y hy
  · rw [read SupRecord.boost fun _ => rfl, read SupRecord.sources fun _ => rfl,
      State.appliedBoost_congr (read (fun v => v.alarms.hot) (fun _ => rfl) y) live]
    exact h.boosts.boost y hy
  · rw [st.ramps]
    split
    · rename_i member; exact (State.targetOf_held (by rw [hold]; exact member)).symm
    · rename_i other
      refine (h.ramps.target r hr).trans (State.targetOf_congr (served r) (by simp [hold, other, free])
        (read (fun v => v.alarms.hot) (fun _ => rfl) r) (read SupRecord.boost (fun _ => rfl) r) (by rw [live])).symm
  · rw [st.ramps]
    split
    · exact decide_eq_true_iff
    · exact h.ramps.done r hr
  · rw [served, st.ramps]
    split <;> exact h.ramps.present r
  · rw [st.records] at hf
    rw [st.ramps]
    split at hf
    · cases hf
    · rename_i other
      rw [if_neg other]
      exact h.ramps.joining r hr ((health r).symm.trans hj) hf
  · obtain ⟨member, present⟩ := phase r k
    rw [st.ramps, if_pos member]
    simpa using present
  · rw [st.records, hold]
    split
    · rename_i member; exact ⟨fun _ => member, fun _ => rfl⟩
    · rename_i other
      have := h.held r
      rw [free] at this
      rw [this]
      exact ⟨nofun, fun k => absurd k other⟩
  · have same : t.sup.serving = s.sup.serving ∧ t.sup.degraded = s.sup.degraded := by rw [st.frame]; exact ⟨rfl, rfl⟩
    rw [same.1, same.2, serving, State.degradedNow, serving, map]
    exact h.sectors loaded x hx
  · rw [health, live]; exact h.load.vacant loaded r
  · rw [map, loaded] at hl; cases hl
  · rw [served, served, read SupRecord.serial fun _ => rfl, read SupRecord.serial fun _ => rfl]
    exact h.serials x y
  · rw [live]; exact (h.gains r).1
  · rw [engine] at hq; exact gains q hq r
  · obtain rfl := is hn
    refine ⟨fun q r hr _ => ?_, fun single x hx => (origin single x hx).trans (sectorOf _).symm⟩
    rw [served]
    by_cases kind : m.kind = .batch ∨ m.kind = .manual
    · exact serviced kind r hr
    push Not at kind
    have fades : t.engine.state = .fadeOut := q.resolve_right fun q => q.elim kind.1 kind.2
    rw [engine] at fades
    dsimp only at fades
    split at fades
    · cases fades
    rename_i moving
    push Not at moving
    obtain ⟨z, hz, present⟩ := moving
    obtain ⟨w, _, _, -, fading⟩ := shape.single kind.1
    rw [fading, List.mem_singleton] at hr hz
    rw [hr, ← hz]
    by_contra out
    exact present ((h.ramps.present z).2 (by simpa using out))

theorem State.startSingle_busy {s : State} (h : s.engine.state ≠ .idle) (k : MoveKind) (r : RemoteId) (y : SectorId) :
    s.startSingle k r y = (s, false) := by
  rw [State.startSingle, if_neg (by simpa [State.engineIdle] using h)]

theorem State.Settled.startSingle {s : State} (h : s.Settled) (loaded : s.map.loadNext = false) {k : MoveKind}
    (single : k ≠ .batch) {r : RemoteId} (serviced : k = .manual → s.serviced r = true) (y : SectorId) :
    (s.startSingle k r y).1.Settled := by
  by_cases idle : s.engine.state = .idle
  · obtain ⟨-, st⟩ := State.startSingle_started idle k r y
    refine h.started st idle loaded ⟨rfl, by simp [single], fun _ => ⟨_, _, _, rfl, rfl⟩, by simp⟩ rfl (by simp [single])
      nofun (fun q x hx => ?_) (fun _ q hq => by rw [List.mem_singleton.mp hq])
    rw [List.mem_singleton.mp hx]
    exact serviced (q.resolve_left single)
  · rw [State.startSingle_busy idle]; exact h

theorem State.startCutOver_busy {s : State} (h : s.engine.state ≠ .idle) (p : PlanId) : s.startCutOver p = (s, false) := by
  rw [State.startCutOver, State.startBatch, if_neg (by simpa [State.engineIdle] using h)]

theorem State.Settled.startCutOver {s : State} (h : s.Settled) (config : s.ConfigLaw) (loaded : s.map.loadNext = false)
    (p : PlanId) : (s.startCutOver p).1.Settled := by
  by_cases idle : s.engine.state = .idle
  · obtain ⟨-, st⟩ := State.startCutOver_started idle p
    have serviced : ∀ r ∈ (s.batchTo p).fading, s.serviced r = true := fun r hr => (List.mem_filter.mp hr).2
    refine h.started st idle loaded ⟨rfl, by simp [State.batchTo], fun k => absurd rfl k, fun r hr => ?_⟩ rfl
      ⟨fun _ => rfl, fun _ => rfl⟩ (fun q hq r => ?_) (fun _ => serviced) (fun k => absurd rfl k)
    · exact ⟨_, List.mem_map.mpr ⟨r, (List.mem_filter.mp hr).1, rfl⟩, rfl⟩
    · cases hq
      exact ((config.current.plans p).remotes r).1
  · rw [State.startCutOver_busy idle]; exact h

theorem State.sup_tellHeld (rs : List RemoteId) (b : Bool) : ∀ {s t : State}, t.sup = s.sup →
    (t.tellHeld rs b).sup = (s.tellHeld rs b).sup := by
  induction rs with
  | nil => exact id
  | cons r rs ih =>
    intro s t h
    refine ih ?_
    simp only [State.modSup, h]

theorem State.releaseHolds_eq (s : State) : s.releaseHolds = { s with
    engine := { s.engine with holdSet := [] }, sup := s.releaseHolds.sup } := by
  rw [State.releaseHolds, State.tellHeld_frame]

/-- The release of the holds reads the holds and the records alone. -/
theorem State.sup_releaseHolds {s t : State} (sup : t.sup = s.sup) (holds : t.engine.holdSet = s.engine.holdSet) :
    t.releaseHolds.sup = s.releaseHolds.sup := by
  rw [State.releaseHolds, State.releaseHolds, holds]
  exact State.sup_tellHeld _ _ (t := { t with engine := { t.engine with holdSet := [] } }) sup

/-- An accepted ABORT (R85, R86). -/
theorem State.Settled.startRecovery {s : State} (h : s.Settled) (fades : s.engine.state = .fadeOut) :
    s.startRecovery.Settled := by
  have k := h.engine
  cases hm : s.engine.record with
  | none => rw [State.startRecovery, hm]; exact h
  | some m =>
    obtain ⟨held, -⟩ := k.held (.inl fades) m hm
    have switched := k.switched m hm
    rw [fades] at switched
    have owes : s.Owes ⟨[], s.engine.holdSet, s.engine.holdSet, [], [], false⟩ :=
      h.mono ⟨nofun, nofun, nofun, nofun, nofun, rfl⟩
    have recovering : (s.enterRecovery m).Owes ⟨[], s.engine.holdSet, s.engine.holdSet, [], [], m.fading.isEmpty⟩ := by
      refine owes.release { s.engine with state := .recovering, phaseSet := m.fading, holdSet := [] } (fun _ q => ⟨q, q⟩)
        ⟨⟨⟨nofun, fun q => nomatch hm.symm.trans q⟩, fun q => ?_, fun _ => rfl⟩, nofun, k.shape, fun n hn => ?_, k.pending,
          fun q _ none => ?_, fun n hn r hr => ?_, fun q => ?_, fun _ => rfl⟩
        ⟨nofun, nofun⟩ rfl (fun r hr => .inl (held r hr)) (fun _ => id) (fun q => absurd q (by simp [fades]))
      · rcases q with q | q <;> cases q
      · obtain rfl : m = n := Option.some.inj (hm.symm.trans hn)
        simpa using switched
      · simp only at none
        simp [none] at q
      · obtain rfl : m = n := Option.some.inj (hm.symm.trans hn)
        exact hr
      · rcases q with q | q <;> cases q
    have recomputed := recovering.recomputeAll
    unfold State.startRecovery
    rw [hm]
    simp only
    split
    · rename_i empty
      rw [empty] at recomputed
      exact recomputed.moveEnd .aborted (by rw [recomputed.engine.free rfl]; exact fun _ q => nomatch q)
    · rename_i some
      rw [show m.fading.isEmpty = false by simpa using some] at recomputed
      exact recomputed

end Sys2Proof.Machine
end

section
namespace Sys2Proof.Machine

/-! ### The switch of a single move (R78) -/

section Single

variable {s : State} {B T J : List RemoteId} {X : List SectorId} {F : List RemoteId} {e : Bool} {r : RemoteId}

/-- The membership of a remote changes: source sets and boosts are owed, and the flags of both sectors (R78). -/
theorem State.Owes.setSector (h : s.Owes ⟨B, T, J, X, F, e⟩) (after : s.engine.state ≠ .fadeOut ∧ s.engine.state ≠ .switchPending)
    (y : SectorId) (boosts : ∀ x ∈ s.concerned r, x ∈ B) (old : ∀ x, s.sectorOf r = some x → x ∈ X) (new : y ∈ X) :
    (s.modLive r fun v => { v with sector := some y }).Owes ⟨B, T, J, X, F, e⟩ := by
  set t := s.modLive r fun v => { v with sector := some y } with ht
  have live : ∀ x, t.live x = if r = x then { s.live x with sector := some y } else s.live x := fun x => by
    rw [State.live, ht, State.modLive]
    simp only [Tab.get_modify]
    split <;> rfl
  have other : ∀ x, x ≠ r → t.live x = s.live x := fun x hx => by rw [live, if_neg (Ne.symm hx)]
  have sectorOf : ∀ x, x ≠ r → t.sectorOf x = s.sectorOf x := fun x hx => by rw [State.sectorOf, other x hx]; rfl
  have own : t.sectorOf r = some y := by rw [State.sectorOf, live, if_pos rfl]
  have read : ∀ {α : Type} (f : RemoteEntry → α), (∀ v : RemoteEntry, f { v with sector := some y } = f v) → ∀ x, f (t.live x) =
      f (s.live x) := fun f k x => by rw [live]; split <;> simp [k]
  have partners := read RemoteEntry.partners fun _ => rfl
  have boost := read RemoteEntry.boost fun _ => rfl
  have gain := read RemoteEntry.baseGain fun _ => rfl
  have configured := read RemoteEntry.configured fun _ => rfl
  have concerned : ∀ x, x ∉ B → x ≠ r ∧ x ∉ (s.live r).partners := fun x hx => by
    have hne : x ≠ r := fun q => hx (boosts x (by simp [State.concerned, q]))
    exact ⟨hne, fun q => hx (boosts x (by simp [State.concerned, q, hne]))⟩
  have sources : ∀ x, x ∉ B → t.sourcesOf x = s.sourcesOf x := fun x hx => by
    obtain ⟨hne, notPartner⟩ := concerned x hx
    have source : t.isSource x = s.isSource x := funext fun z => by
      simp only [State.isSource, partners, boost, sectorOf x hne]
      by_cases hz : z = r
      · subst hz
        have : (s.live z).partners.contains x = false := by simpa using notPartner
        rw [this]
        simp
      · rw [sectorOf z hz]
        rfl
    rw [State.sourcesOf, source]
    rfl
  have applied : ∀ x xs, t.appliedBoost x xs = s.appliedBoost x xs := fun x xs => by
    simp only [State.appliedBoost, State.largestBoost, boost]
    rfl
  have serving : ∀ x, x ∉ X → t.servingNow x = s.servingNow x := fun x hx => by
    have members : t.members x = s.members x := List.filter_congr fun z _ => by
      by_cases hz : z = r
      · subst hz
        rw [own]
        have hy : (some y : Option SectorId) ≠ some x := fun q => hx (Option.some.inj q ▸ new)
        have ho : s.sectorOf z ≠ some x := fun q => hx (old x q)
        simp [hy, ho]
      · rw [sectorOf z hz]
    rw [State.servingNow, members]
    rfl
  refine ⟨h.engine, ⟨fun x hx => (h.boosts.sources x hx).trans (sources x hx).symm,
      fun x hx => (h.boosts.boost x hx).trans (applied x _).symm⟩,
    ⟨fun x hx => (h.ramps.target x hx).trans (State.targetOf_congr (s := s) (t := t) rfl Iff.rfl rfl rfl (gain x)).symm, h.ramps.done,
      h.ramps.present, h.ramps.joining, h.ramps.ramping⟩, h.held, fun hl x hx => ?_,
    ⟨fun hl x => by rw [configured]; exact h.load.vacant hl x, h.load.unloaded⟩, h.serials,
    fun x => by rw [gain]; exact h.gains x, fun q => absurd q (by simp [ht, State.modLive, after])⟩
  rw [State.degradedNow, serving x hx]
  exact h.sectors hl x hx

/-- The hub in FADE-IN at a switch, before the boosts and the flags follow: what the laws look at of it. -/
theorem State.singleSwitch_enters (s : State) (m : MoveRecord) (y : SectorId) (g : Engine)
    (hg : g = ⟨.fadeIn, some { m with switchFc := some s.now }, [r], [], none⟩) :
    Apart (({ s.releaseHolds with engine := g } : State).modLive r fun v => { v with sector := some y })
      ((if m.kind = .manual then (s.changeSector r (some y)).diverge else s.changeSector r (some y)).enterFadeIn m [r] none) := by
  subst hg
  have manual : ∀ d : Bool, Apart (({ s.releaseHolds with
      engine := ⟨.fadeIn, some { m with switchFc := some s.now }, [r], [], none⟩ } : State).modLive r fun v =>
        { v with sector := some y })
      (State.enterFadeIn { s.changeSector r (some y) with map := { (s.changeSector r (some y)).map with diverged := d } }
        m [r] none) := fun d => by
    set u : State := { s.changeSector r (some y) with map := { (s.changeSector r (some y)).map with diverged := d } } with hu
    have sup : u.releaseHolds.sup = s.releaseHolds.sup := State.sup_releaseHolds rfl rfl
    unfold State.enterFadeIn
    rw [State.releaseHolds_eq u, State.releaseHolds_eq s, sup]
    exact ⟨rfl, rfl, rfl, fun _ => rfl, fun _ => rfl, fun _ => rfl, fun _ => rfl, fun _ => rfl, fun _ _ => rfl, rfl, rfl, id,
      id, id⟩
  split
  · exact manual true
  · exact manual s.map.diverged

/-- The switch of a single move (R78). -/
theorem State.Settled.singleSwitch (h : s.Settled) (pending : s.engine.state = .switchPending)
    (single : ∀ m, s.engine.record = some m → m.kind ≠ .batch) : s.singleSwitch.Settled := by
  have k := h.engine
  unfold State.singleSwitch
  cases hm : s.engine.record with
  | none => exact h
  | some m =>
    obtain ⟨r, x, y, places, fading⟩ := (k.shape m hm).single (single m hm)
    have holds : s.engine.holdSet = [r] := ((k.held (.inr pending) m hm).2 (single m hm)).trans fading
    have origin : x = s.sectorOf r := (h.fading (.inr pending) m hm).2 (single m hm) ⟨r, x, .sector y⟩ (by simp [places])
    have notPlan : m.kind ≠ .batch := single m hm
    simp only [places]
    obtain ⟨g, hg⟩ : ∃ g : Engine, g = ⟨.fadeIn, some { m with switchFc := some s.now }, [r], [], none⟩ := ⟨_, rfl⟩
    have shape := k.shape m hm
    have owes : s.Owes ⟨s.concerned r, [r], [r], x.toList ++ [y], [], false⟩ :=
      h.mono ⟨nofun, nofun, nofun, nofun, nofun, rfl⟩
    have orderly : g.Orderly false := by
      subst hg
      refine ⟨⟨⟨nofun, nofun⟩, ?_, fun _ => rfl⟩, nofun, ?_, ?_, ?_, fun _ _ => nofun, ?_, ?_, nofun⟩
      · rintro (q | q) <;> cases q
      · rintro _ ⟨⟩
        exact ⟨shape.outcome, shape.plan, shape.single, shape.fading⟩
      · rintro _ ⟨⟩
        simp
      · rintro _ ⟨⟩
        simpa using notPlan
      · rintro _ ⟨⟩ z hz
        rw [fading]
        exact hz
      · rintro (q | q) <;> cases q
    have released := owes.release g (by rw [holds]; exact fun z hz => ⟨hz, hz⟩) orderly (by subst hg; exact ⟨nofun, nofun⟩)
      (by subst hg; rfl) (by subst hg; exact fun z hz => .inl hz) (by subst hg; exact nofun)
      (fun q => absurd q (by simp [pending]))
    have sameMap : ({ s.releaseHolds with engine := g } : State).map = s.map := by rw [State.releaseHolds_eq]
    have sameLive : ∀ z, ({ s.releaseHolds with engine := g } : State).live z = s.live z := fun z => by
      rw [State.live, sameMap]; rfl
    have moved := (released.setSector (r := r) (by subst hg; exact ⟨nofun, nofun⟩) y
      (by rw [State.concerned, sameLive]; exact fun _ => id)
      (fun z hz => by
        rw [State.sectorOf, sameLive] at hz
        rw [origin, show s.sectorOf r = some z from hz]; simp) (by simp)).apart (s.singleSwitch_enters m y g hg)
    revert moved
    generalize hc : ((if m.kind = .manual then (s.changeSector r (some y)).diverge
      else s.changeSector r (some y)).enterFadeIn m [r] none) = c
    intro moved
    have partners : (c.live r).partners = (s.live r).partners := by
      have apart := s.singleSwitch_enters (r := r) m y g hg
      rw [hc] at apart
      rw [apart.live r, State.live, State.modLive]
      simp only [Tab.get_modify_self]
      exact congrArg RemoteEntry.partners (sameLive r)
    set ys := withFirst r ((c.live r).partners ++ c.namers r).dedup with hys
    obtain ⟨boosted, -⟩ := moved.reevalBoosts ys
    refine State.Owes.recomputeAll _ (State.Owes.evalDegraded true (State.Owes.evalSector
      (boosted.mono ⟨fun z hz => ?_, fun z hz => ?_, fun z hz => ?_, fun _ => id, nofun, rfl⟩)))
    · exfalso
      simp only [State.concerned, List.mem_filter, decide_eq_true_eq, List.mem_cons] at hz
      obtain ⟨member, none⟩ := hz
      refine none ?_
      rw [hys, withFirst]
      rcases member with q | ⟨q, hne⟩
      · simp [q]
      · simp [hne, partners, q]
    · by_cases hzr : z = r
      · simp [withFirst, hzr]
      · simpa [withFirst, hzr] using hz
    · simp [withFirst, List.mem_singleton.mp hz]

end Single

end Sys2Proof.Machine
end

section
namespace Sys2Proof.Machine

/-! ### The switch of a batch (R83, R113, R114) -/

/-- What the laws look at beside the records, the ramps and the live map is as it was, but for flags that are evaluated
anew. -/
structure State.SameRest (s t : State) : Prop where
  engine : t.engine = s.engine
  loadNext : t.map.loadNext = s.map.loadNext
  schedule : t.store.schedule = s.store.schedule
  taking : t.svc.taking = s.svc.taking
  request : t.spreader.request = s.spreader.request

theorem State.SameRest.refl (s : State) : s.SameRest s := ⟨rfl, rfl, rfl, rfl, rfl⟩

theorem State.SameRest.trans {s t u : State} (h : s.SameRest t) (k : t.SameRest u) : s.SameRest u :=
  ⟨k.engine.trans h.engine, k.loadNext.trans h.loadNext, k.schedule.trans h.schedule, k.taking.trans h.taking,
    k.request.trans h.request⟩

/-- What the new configured field does to the record and the ramp of a port (R114, R121). -/
structure SupRecord.Reconfigured (was now : Bool) (v : SupRecord) (p : Ramp) (w : SupRecord) (q : Ramp) : Prop where
  held : w.held = v.held
  gone : was = true → now = false → w.health = .vacant
  come : was = false → now = true → w.health = .waiting
  stays : was = now → w.health = v.health ∧ w.alarms = v.alarms ∧ w.boost = v.boost ∧ w.serial = v.serial ∧ q = p
  zero : was ≠ now → q.present = 0

/-- The records and ramps of the ports may have changed; the live map is as it was. -/
structure State.PortsOnly (s t : State) (rs : List RemoteId) : Prop where
  rest : s.SameRest t
  map : t.map = s.map
  records : ∀ x, x ∉ rs → t.supRec x = s.supRec x
  ramps : ∀ x, x ∉ rs → t.ramp x = s.ramp x

theorem State.abortPass_svc_taking (s : State) (r : RemoteId) : (s.abortPass r).svc.taking = s.svc.taking :=
  (s.abortPass_spares r).taking

/-- A remote becomes unconfigured: everything but its own record, gain, activity and pass-through stands. -/
theorem State.vacate_ports (s : State) (r : RemoteId) : s.PortsOnly (s.vacate r) [r] ∧
    (s.vacate r).supRec r = (s.supRec r).unconfigured (s.live r).mode ∧ ((s.vacate r).ramp r).present = 0 := by
  have taking := fun u : State => u.abortPass_svc_taking r
  unfold State.vacate
  simp only
  generalize hu : ((((s.modSup r fun v => v.unconfigured (s.live r).mode).unDue (.linkGrace r)).unDue (.flap r)).modRamp r
    fun p => { p with present := 0 }).markStale r = u
  have records : u.sup = (s.modSup r fun v => v.unconfigured (s.live r).mode).sup := by rw [← hu]; rfl
  have ramps : u.dist = (s.modRamp r fun p => { p with present := 0 }).dist := by rw [← hu]; rfl
  have kept : u.engine = s.engine ∧ u.map = s.map ∧ u.store = s.store ∧ u.spreader = s.spreader ∧ u.svc = s.svc := by
    rw [← hu]; simp
  obtain ⟨engine, map, store, spreader, svc⟩ := kept
  obtain ⟨sup, dist, engine', map', store', spreader'⟩ : (u.abortPass r).sup = u.sup ∧ (u.abortPass r).dist = u.dist ∧
      (u.abortPass r).engine = u.engine ∧ (u.abortPass r).map = u.map ∧ (u.abortPass r).store = u.store ∧
      (u.abortPass r).spreader = u.spreader := by
    rw [u.abortPass_frame r]
    exact ⟨rfl, rfl, rfl, rfl, rfl, rfl⟩
  have record : ∀ x, (u.abortPass r).supRec x = (s.modSup r fun v => v.unconfigured (s.live r).mode).supRec x := fun x => by
    rw [State.supRec, State.supRec, sup, records]
  have ramp : ∀ x, (u.abortPass r).ramp x = (s.modRamp r fun p => { p with present := 0 }).ramp x := fun x => by
    rw [State.ramp, State.ramp, dist, ramps]
  refine ⟨⟨⟨engine'.trans engine, by rw [map', map], by rw [store', store], (taking u).trans (by rw [svc]),
    by rw [spreader', spreader]⟩, map'.trans map, fun x hx => ?_, fun x hx => ?_⟩, ?_, ?_⟩
  · rw [record, State.supRec_modSup_ne s _ (by simpa using hx)]
  · rw [ramp, State.ramp_modRamp, if_neg (by simpa [eq_comm] using hx)]
  · rw [record, State.supRec_modSup_self]
  · rw [ramp, State.ramp_modRamp_self]

/-- A VACANT remote becomes configured: everything but its own record, gain, activity and POLL place stands. -/
theorem State.bringIn_ports (s : State) (r : RemoteId) : s.PortsOnly (s.bringIn r) [r] ∧
    ((s.bringIn r).supRec r).health = .waiting ∧ ((s.bringIn r).supRec r).held = (s.supRec r).held ∧
    ((s.bringIn r).ramp r).present = 0 := by
  unfold State.bringIn
  simp only
  set u := ((s.modSup r fun v => { v with health := .waiting, cause := none }).modRamp r
    fun p => { p with present := 0 }).markStale r with hu
  have entered : s.PortsOnly u [r] ∧ (u.supRec r).health = .waiting ∧ (u.supRec r).held = (s.supRec r).held ∧
      (u.ramp r).present = 0 := by
    refine ⟨⟨⟨rfl, rfl, rfl, rfl, rfl⟩, rfl, fun x hx => State.supRec_modSup_ne s _ (by simpa using hx), fun x hx => ?_⟩,
      ?_, ?_, ?_⟩
    · exact (State.ramp_modRamp _ r x _).trans (if_neg (by simpa [eq_comm] using hx))
    · exact congrArg SupRecord.health (State.supRec_modSup_self s r fun v => { v with health := .waiting, cause := none })
    · exact (congrArg SupRecord.held
        (State.supRec_modSup_self s r fun v => { v with health := .waiting, cause := none }) :)
    · exact congrArg Ramp.present (State.ramp_modRamp_self s r fun p => { p with present := 0 })
  unfold State.pollIfLocked
  split
  swap
  · exact entered
  obtain ⟨⟨rest, map, records, ramps⟩, health, held, present⟩ := entered
  have poll : (u.queuePoll r).supRec = (u.modSup r fun v => { v with awaiting := true }).supRec := rfl
  refine ⟨⟨⟨rest.engine, rest.loadNext, rest.schedule, rest.taking, rest.request⟩, map, fun x hx => ?_, ramps⟩, ?_, ?_, present⟩
  · rw [poll, State.supRec_modSup_ne u _ (by simpa using hx)]; exact records x hx
  · rw [poll, State.supRec_modSup_self]; exact health
  · rw [poll, State.supRec_modSup_self]; exact held

/-- One port follows its new configured field (R114, R121, R128). -/
theorem State.applyConfigured_ports (s : State) (r : RemoteId) (was : Bool) : s.PortsOnly (s.applyConfigured r was) [r] ∧
    SupRecord.Reconfigured was (s.live r).configured (s.supRec r) (s.ramp r)
      ((s.applyConfigured r was).supRec r) ((s.applyConfigured r was).ramp r) := by
  unfold State.applyConfigured
  simp only
  set u := (if (was && !(s.live r).configured) = true then s.vacate r
    else if (!was && (s.live r).configured) = true then s.bringIn r else s) with hu
  have changed : s.PortsOnly u [r] ∧
      SupRecord.Reconfigured was (s.live r).configured (s.supRec r) (s.ramp r) (u.supRec r) (u.ramp r) := by
    rw [hu]
    cases was <;> cases (s.live r).configured
    · exact ⟨⟨.refl s, rfl, fun _ _ => rfl, fun _ _ => rfl⟩, rfl, nofun, nofun, fun _ => ⟨rfl, rfl, rfl, rfl, rfl⟩, nofun⟩
    · obtain ⟨ports, health, held, present⟩ := s.bringIn_ports r
      refine ⟨ports, ?_⟩
      show SupRecord.Reconfigured false true _ _ ((s.bringIn r).supRec r) ((s.bringIn r).ramp r)
      exact ⟨held, nofun, fun _ _ => health, nofun, fun _ => present⟩
    · obtain ⟨ports, record, present⟩ := s.vacate_ports r
      refine ⟨ports, ?_⟩
      show SupRecord.Reconfigured true false _ _ ((s.vacate r).supRec r) ((s.vacate r).ramp r)
      rw [record]
      exact ⟨rfl, fun _ _ => rfl, nofun, nofun, fun _ => present⟩
    · exact ⟨⟨.refl s, rfl, fun _ _ => rfl, fun _ _ => rfl⟩, rfl, nofun, nofun, fun _ => ⟨rfl, rfl, rfl, rfl, rfl⟩, nofun⟩
  obtain ⟨⟨rest, map, records, ramps⟩, held, gone, come, stays, zero⟩ := changed
  have self : (u.deriveMode r).supRec r = { u.supRec r with mode := (u.supRec r).alarms.effective (u.live r).mode } :=
    State.supRec_modSup_self u r _
  refine ⟨⟨⟨rest.engine, rest.loadNext, rest.schedule, rest.taking, rest.request⟩, map,
    fun x hx => (State.supRec_modSup_ne u _ (by simpa using hx)).trans (records x hx), ramps⟩, ?_⟩
  rw [self]
  exact ⟨held, gone, come, stays, zero⟩

/-- Every port follows its new configured field (R114, R121). -/
theorem State.applyHealths_ports (s before : State) : s.PortsOnly (s.applyHealths before) (List.finRange 16) ∧
    ∀ r, SupRecord.Reconfigured (before.live r).configured (s.live r).configured (s.supRec r) (s.ramp r)
      ((s.applyHealths before).supRec r) ((s.applyHealths before).ramp r) := by
  suffices all : ∀ (xs : List RemoteId) (u : State), xs.Nodup →
      let t := xs.foldl (fun s r => s.applyConfigured r (before.live r).configured) u
      u.PortsOnly t xs ∧ ∀ r ∈ xs, SupRecord.Reconfigured (before.live r).configured (u.live r).configured (u.supRec r)
        (u.ramp r) (t.supRec r) (t.ramp r) by
    obtain ⟨ports, each⟩ := all (List.finRange 16) s (List.nodup_finRange 16)
    exact ⟨ports, fun r => each r (List.mem_finRange r)⟩
  intro xs
  induction xs with
  | nil => exact fun u _ => ⟨⟨.refl u, rfl, fun _ _ => rfl, fun _ _ => rfl⟩, fun _ h => nomatch h⟩
  | cons r xs ih =>
    intro u nodup
    obtain ⟨notIn, nodup⟩ := List.nodup_cons.mp nodup
    obtain ⟨one, own⟩ := u.applyConfigured_ports r (before.live r).configured
    obtain ⟨others, each⟩ := ih (u.applyConfigured r (before.live r).configured) nodup
    refine ⟨⟨one.rest.trans others.rest, others.map.trans one.map, fun x hx => ?_, fun x hx => ?_⟩, fun x hx => ?_⟩
    · simp only [List.mem_cons, not_or] at hx
      exact (others.records x hx.2).trans (one.records x (by simpa using hx.1))
    · simp only [List.mem_cons, not_or] at hx
      exact (others.ramps x hx.2).trans (one.ramps x (by simpa using hx.1))
    · by_cases hxr : x = r
      · subst hxr
        rw [List.foldl_cons, others.records x notIn, others.ramps x notIn]
        exact own
      · have member : x ∈ xs := (List.mem_cons.mp hx).resolve_left hxr
        have live : (u.applyConfigured r (before.live r).configured).live x = u.live x := by
          rw [State.live, one.map]; rfl
        have := each x member
        rw [live, one.records x (by simpa using hxr), one.ramps x (by simpa using hxr)] at this
        exact this

/-- One pending entry replaces a live record; no other record of the map, and nothing else the laws look at, changes. -/
theorem State.applyEntry_rest (s : State) (r : RemoteId) (e : RemoteEntry) :
    s.SameRest (s.applyEntry r e) ∧ (s.applyEntry r e).sup = s.sup ∧ (s.applyEntry r e).dist = s.dist ∧
      (s.applyEntry r e).map = { s.map with remotes := s.map.remotes.set r e.asLive } := by
  unfold State.applyEntry
  simp only
  split <;> split <;> exact ⟨⟨rfl, rfl, rfl, rfl, rfl⟩, rfl, rfl, rfl⟩

/-- The pending map replaces the live map (R113). -/
theorem State.applyMap_rest (s : State) (new : PlanMap) :
    s.SameRest (s.applyMap new) ∧ (s.applyMap new).sup = s.sup ∧ (s.applyMap new).dist = s.dist ∧
      (∀ r, (s.applyMap new).live r = (new.remotes.get r).asLive.entry) := by
  suffices all : ∀ (xs : List RemoteId) (u : State),
      let t := xs.foldl (fun s r => s.applyEntry r (new.remotes.get r)) u
      u.SameRest t ∧ t.sup = u.sup ∧ t.dist = u.dist ∧
        ∀ r, t.map.remotes.get r = if r ∈ xs then (new.remotes.get r).asLive else u.map.remotes.get r by
    obtain ⟨rest, sup, dist, live⟩ := all (List.finRange 16) s
    unfold State.applyMap
    revert rest sup dist live
    generalize (List.finRange 16).foldl (fun s r => s.applyEntry r (new.remotes.get r)) s = t
    intro rest sup dist live
    refine ⟨⟨rest.engine, rest.loadNext, rest.schedule, rest.taking, rest.request⟩, sup, dist, fun r => ?_⟩
    exact congrArg LiveRemote.entry ((live r).trans (if_pos (List.mem_finRange r)))
  intro xs
  induction xs with
  | nil => exact fun u => ⟨.refl u, rfl, rfl, fun r => rfl⟩
  | cons r xs ih =>
    intro u
    obtain ⟨rest, sup, dist, map⟩ := u.applyEntry_rest r (new.remotes.get r)
    obtain ⟨rest', sup', dist', live⟩ := ih (u.applyEntry r (new.remotes.get r))
    refine ⟨rest.trans rest', sup'.trans sup, dist'.trans dist, fun x => (live x).trans ?_⟩
    by_cases hx : x ∈ xs
    · simp [hx]
    · rw [if_neg hx, map, Tab.get_set]
      by_cases hxr : r = x
      · subst hxr; simp
      · simp [hx, Ne.symm hxr, hxr]

section Batch

variable {s : State} {m : MoveRecord} {new : PlanMap}

/-- The remotes whose targets a batch switch concerns, boosts apart (R83). -/
def State.switched (s : State) (new : PlanMap) : List RemoteId := (List.finRange 16).filter fun r =>
  decide ((s.live r).baseGain ≠ (new.remotes.get r).baseGain) || s.engine.holdSet.contains r ||
    (s.live r).configured != (new.remotes.get r).configured

/-- The state of a batch switch in FADE-IN: boosts, flags, and the targets and notices of the remotes concerned are
owed. -/
theorem State.Settled.enterBatch (h : s.Settled) (pending : s.engine.state = .switchPending)
    (hm : s.engine.record = some m) (hn : s.engine.pendingMap = some new) :
    let t := (s.applyMap new).applyHealths s
    let phase := m.fading.filter fun r => decide (t.health r ≠ .vacant)
    (t.enterFadeIn m phase (some new)).Owes
      ⟨List.finRange 16, s.switched new, s.switched new, List.finRange 8, [], phase.isEmpty⟩ := by
  intro t phase
  have k := h.engine
  obtain ⟨rest, sup, dist, entry⟩ := s.applyMap_rest new
  obtain ⟨⟨rest', map, -, -⟩, each⟩ := (s.applyMap new).applyHealths_ports s
  obtain ⟨engine, loadNext, schedule, taking, request⟩ := rest.trans rest'
  have each : ∀ r, SupRecord.Reconfigured (s.live r).configured (new.remotes.get r).configured (s.supRec r) (s.ramp r)
      (t.supRec r) (t.ramp r) := fun r => by
    have := each r
    rw [entry] at this
    rw [show s.supRec r = (s.applyMap new).supRec r by rw [State.supRec, ← sup]; rfl,
      show s.ramp r = (s.applyMap new).ramp r by rw [State.ramp, ← dist]; rfl]
    exact this
  have live : ∀ r, t.live r = (new.remotes.get r).asLive.entry := fun r => by
    rw [← entry, State.live, map]; rfl
  have batch : m.kind = .batch := (k.pending m hm).mp (by rw [hn]; rfl)
  have shape := k.shape m hm
  have loaded : s.map.loadNext = false := by
    by_contra load
    have := (h.load.unloaded (by simpa using load)).2.1
    rw [pending] at this
    cases this
  set g : Engine := ⟨.fadeIn, some { m with switchFc := some t.now }, phase, [], some new⟩ with hg
  set u := t.enterFadeIn m phase (some new) with hu
  have eq : u = { t with engine := g, sup := t.releaseHolds.sup } := by
    rw [hu, State.enterFadeIn, State.releaseHolds_eq]
  have record : ∀ r, u.supRec r = { t.supRec r with held := false } := fun r => by
    have told : u.supRec r = if r ∈ t.engine.holdSet then { t.supRec r with held := false } else t.supRec r := by
      rw [eq]
      exact State.supRec_tellHeld t.engine.holdSet false { t with engine := { t.engine with holdSet := [] } } r
    rw [told]
    split
    · rfl
    · rename_i free
      rw [show t.engine = s.engine from engine] at free
      have : (t.supRec r).held = false := by
        rw [(each r).held]
        simpa using mt (h.held r).mp free
      rw [← this]
  have ramp : ∀ r, u.ramp r = t.ramp r := fun r => by rw [eq]; rfl
  have liveU : ∀ r, u.live r = (new.remotes.get r).asLive.entry := fun r => by rw [← live, eq]; rfl
  have kept : ∀ r, r ∉ s.switched new → (s.live r).baseGain = (new.remotes.get r).baseGain ∧ r ∉ s.engine.holdSet ∧
      (s.live r).configured = (new.remotes.get r).configured := fun r hr => by
    simp only [State.switched, List.mem_filter, List.mem_finRange, true_and, Bool.or_eq_true, not_or, decide_eq_true_eq,
      bne_iff_ne, ne_eq, not_not, List.contains_iff_mem] at hr
    exact ⟨hr.1.1, hr.1.2, hr.2⟩
  have vacant : ∀ r, u.health r = .vacant ↔ (new.remotes.get r).configured = false := fun r => by
    have old := h.load.vacant loaded r
    rw [State.health, record]
    obtain ⟨-, gone, come, stays, -⟩ := each r
    cases was : (s.live r).configured <;> cases now : (new.remotes.get r).configured
    · rw [was, now] at stays
      simpa [State.health, (stays rfl).1, was] using old
    · simp [come was now]
    · simp [gone was now]
    · rw [was, now] at stays
      simpa [State.health, (stays rfl).1, was] using old
  have service : ∀ r, u.serviced r = true → (s.live r).configured = (new.remotes.get r).configured := fun r hr => by
    rw [State.serviced, State.health, record] at hr
    obtain ⟨-, gone, come, -, -⟩ := each r
    cases was : (s.live r).configured <;> cases now : (new.remotes.get r).configured
    · rfl
    · simp [come was now, Health.inService] at hr
    · simp [gone was now, Health.inService] at hr
    · rfl
  have same : ∀ r, (s.live r).configured = (new.remotes.get r).configured →
      u.health r = s.health r ∧ (u.supRec r).alarms = (s.supRec r).alarms ∧ (u.supRec r).boost = (s.supRec r).boost ∧
        (u.supRec r).serial = (s.supRec r).serial ∧ u.ramp r = s.ramp r := fun r hr => by
    rw [State.health, record, ramp]
    exact (each r).stays hr
  have held : ∀ r ∈ phase, r ∈ s.switched new := fun r hr => by
    have := (k.held (.inr pending) m hm).1 r (List.mem_filter.mp hr).1
    simp [State.switched, this]
  have state : u.engine = g := by rw [eq]
  refine ⟨?_, ⟨fun y hy => absurd (List.mem_finRange y) hy, fun y hy => absurd (List.mem_finRange y) hy⟩,
    ⟨fun r hr => ?_, fun r hr => ?_, fun r => ?_, fun r hr hj _ => ?_, fun r hr hp => ?_⟩, fun r => ?_,
    fun _ x hx => absurd (List.mem_finRange x) hx, ⟨fun _ r => ?_, fun hl => ?_⟩, fun x y hxy hx hy => ?_, fun r => ⟨?_, fun p hp => ?_⟩,
    fun q => ?_⟩
  · rw [state]
    refine ⟨⟨⟨nofun, nofun⟩, ?_, fun _ => rfl⟩, nofun, ?_, ?_, ?_, fun some _ => ?_, ?_, ?_, fun _ => rfl⟩
    · rintro (q | q) <;> cases q
    · rintro _ ⟨⟩
      exact ⟨shape.outcome, shape.plan, shape.single, shape.fading⟩
    · rintro _ ⟨⟩
      simp [hg]
    · rintro _ ⟨⟩
      simpa [hg] using batch
    · simpa using some
    · rintro _ ⟨⟩ r hr
      exact (List.mem_filter.mp hr).1
    · rintro (q | q) <;> cases q
  · obtain ⟨gain, free, configured⟩ := kept r hr
    obtain ⟨health, alarms, boost, -, ramp⟩ := same r configured
    rw [ramp]
    refine (h.ramps.target r nofun).trans (State.targetOf_congr (by rw [State.serviced, health]; rfl) ?_ (by rw [alarms])
      boost (by rw [liveU]; exact gain.symm)).symm
    rw [state]
    simp [hg, free]
  · obtain ⟨-, -, configured⟩ := kept r hr
    rw [(same r configured).2.2.2.2]
    exact h.ramps.done r nofun
  · by_cases configured : (s.live r).configured = (new.remotes.get r).configured
    · obtain ⟨health, -, -, -, ramp⟩ := same r configured
      rw [ramp, State.serviced, health]
      exact h.ramps.present r
    · have zero : (u.ramp r).present = 0 := (ramp r).symm ▸ (each r).zero configured
      exact ⟨by rw [zero]; exact Nat.zero_le _, fun _ => zero⟩
  · obtain ⟨-, free, configured⟩ := kept r hr
    obtain ⟨health, -, -, -, ramp⟩ := same r configured
    rw [ramp]
    exact h.ramps.joining r nofun (health.symm.trans hj) (by simpa using mt (h.held r).mp free)
  · rw [state] at hp
    exact absurd (held r hp) hr
  · rw [record, state]
    simp [hg]
  · rw [vacant, liveU]
    rfl
  · have : u.map.loadNext = false := by rw [eq]; exact loadNext.trans loaded
    rw [this] at hl
    cases hl
  · obtain ⟨healthX, -, -, serialX, -⟩ := same x (service x hx)
    obtain ⟨healthY, -, -, serialY, -⟩ := same y (service y hy)
    rw [serialX, serialY]
    rw [State.serviced, healthX] at hx
    rw [State.serviced, healthY] at hy
    exact h.serials x y hxy hx hy
  · rw [liveU]
    exact (h.gains r).2 new hn
  · rw [state] at hp
    cases hp
    exact (h.gains r).2 new hn
  · rw [state] at q
    rcases q with q | q <;> cases q

theorem State.Owes.evalSectors (xs : List SectorId) (b : Bool) {B T J F : List RemoteId} {e : Bool} : ∀ {s : State},
    s.Owes ⟨B, T, J, xs, F, e⟩ → (xs.foldl (fun s x => s.evalDegraded b x) s).Owes ⟨B, T, J, [], F, e⟩ := by
  induction xs with
  | nil => exact id
  | cons x xs ih => exact fun h => ih (h.evalDegraded b)

theorem State.evaluateAll_eq (s : State) : s.evaluateAll =
    ((List.finRange 8).foldl (fun s x => s.evalDegraded true x) (s.reevalBoosts (List.finRange 16)).1,
      (s.reevalBoosts (List.finRange 16)).2) := by
  unfold State.evaluateAll
  generalize s.reevalBoosts (List.finRange 16) = p
  rfl

theorem State.evaluateAll_live (s : State) (r : RemoteId) : s.evaluateAll.1.live r = s.live r :=
  s.evaluateAll_settles.live r

/-- Every boost and every flag is evaluated (R83). -/
theorem State.Owes.evaluateAll {B T J F : List RemoteId} {e : Bool} (h : s.Owes ⟨B, T, J, List.finRange 8, F, e⟩) :
    s.evaluateAll.1.Owes ⟨[], s.evaluateAll.2 ++ T, J, [], F, e⟩ := by
  obtain ⟨boosted, -⟩ := h.reevalBoosts (List.finRange 16)
  rw [State.evaluateAll_eq]
  revert boosted
  generalize s.reevalBoosts (List.finRange 16) = p
  intro boosted
  dsimp only
  have paid : p.1.Owes ⟨[], p.2 ++ T, J, List.finRange 8, F, e⟩ :=
    boosted.mono ⟨fun x hx => absurd (List.mem_finRange x) (of_decide_eq_true (List.mem_filter.mp hx).2), fun _ => id,
      fun _ => id, fun _ => id, fun _ => id, rfl⟩
  exact paid.evalSectors (List.finRange 8) true

/-- The switch of a batch (R83, R113, R114). -/
theorem State.Settled.wholeSwitch (h : s.Settled) (pending : s.engine.state = .switchPending) : s.wholeSwitch.Settled := by
  unfold State.wholeSwitch
  cases hm : s.engine.record with
  | none => exact h
  | some m =>
    cases hn : s.engine.pendingMap with
    | none => exact h
    | some new =>
      have entered := h.enterBatch pending hm hn
      simp only at entered ⊢
      set t := (s.applyMap new).applyHealths s with ht
      set phase := m.fading.filter fun r => decide (t.health r ≠ .vacant) with hphase
      set u := t.enterFadeIn m phase (some new) with hu
      have live : ∀ r, u.evaluateAll.1.live r = (new.remotes.get r).asLive.entry := fun r => by
        rw [State.evaluateAll_live, hu, State.enterFadeIn, State.releaseHolds_eq]
        obtain ⟨-, -, -, entry⟩ := s.applyMap_rest new
        obtain ⟨⟨-, map, -, -⟩, -⟩ := (s.applyMap new).applyHealths_ports s
        rw [← entry, State.live, State.live, ← map]
      have evaluated := entered.evaluateAll
      have recomputed : (u.evaluateAll.1.recomputeAll
          (u.evaluateAll.1.recomputedAfter s u.evaluateAll.2)).Owes ⟨[], [], [], [], [], phase.isEmpty⟩ := by
        have all : ∀ x ∈ s.switched new, x ∈ u.evaluateAll.1.recomputedAfter s u.evaluateAll.2 := fun x hx => by
          simp only [State.switched, State.recomputedAfter, List.mem_filter, Bool.or_eq_true, live] at hx ⊢
          refine ⟨hx.1, ?_⟩
          rcases hx.2 with (q | q) | q
          · exact .inl (.inl (.inl q))
          · exact .inl (.inl (.inr q))
          · exact .inr q
        refine State.Owes.recomputeAll _ (evaluated.mono ⟨fun _ => id, fun x hx => ?_, all, fun _ => id, fun _ => id, rfl⟩)
        rcases List.mem_append.mp hx with hx | hx
        · simp only [State.recomputedAfter, List.mem_filter, List.mem_finRange, true_and, Bool.or_eq_true,
            List.contains_iff_mem]
          exact .inl (.inr hx)
        · exact all x hx
      split
      · rename_i empty
        rw [empty] at recomputed
        exact recomputed.moveEnd .done (by rw [recomputed.engine.free rfl]; exact fun _ q => nomatch q)
      · rename_i some
        rw [show phase.isEmpty = false by simpa using some] at recomputed
        exact recomputed

theorem State.Settled.switchFalls (h : s.Settled) : s.switchFalls.Settled := by
  unfold State.switchFalls
  split
  swap
  · exact h
  rename_i pending
  split
  · exact h.wholeSwitch pending
  · rename_i single
    refine h.singleSwitch pending fun m hm batch => single ?_
    exact s.batchRunning_iff.mpr ⟨m, hm, batch⟩

end Batch

end Sys2Proof.Machine
end

section
namespace Sys2Proof.Machine

/-! ### The relay, the arbiters and the senders stand apart -/

theorem Apart.of_svc {s : State} {v : Service} (taking : v.taking = s.svc.taking) : Apart s { s with svc := v } :=
  .of_parts rfl rfl rfl rfl rfl taking rfl

/-- `Apart.trans`, read from the last change back. -/
theorem Apart.after {s t u : State} (k : Apart t u) (h : Apart s t) : Apart s u := h.trans k

theorem State.setPass_apart (s : State) (r : RemoteId) (p : Option Pass) : Apart s (s.setPass r p) :=
  .of_svc rfl

theorem State.setRefused_apart (s : State) (r : RemoteId) (ms : List Relayed) : Apart s (s.setRefused r ms) :=
  .of_svc rfl

theorem State.takeTag_apart (s : State) (r : RemoteId) : Apart s (s.takeTag r).2 :=
  .of_svc rfl

theorem State.countRelay_apart (s : State) (r : RemoteId) (f : PortService → PortService) : Apart s (s.countRelay r f) :=
  .of_svc rfl

theorem State.countSvc_apart (s : State) (l : MsgLink) (f : LinkService → LinkService) : Apart s (s.countSvc l f) := by
  cases l <;> exact .of_svc rfl

theorem State.fillReserved_apart (s : State) (v : Reservation) (p : Response) : Apart s (s.fillReserved v p) := by
  unfold State.fillReserved
  split
  · exact .of_svc rfl
  · exact .refl s

theorem State.endSetRelay_apart (s : State) : Apart s s.endSetRelay := by
  unfold State.endSetRelay
  split
  · split
    · exact (s.fillReserved_apart _ _).trans (.of_svc rfl)
    · exact .refl s
  · exact .refl s

theorem State.leaveRemaining_apart (s : State) (r : RemoteId) : Apart s (s.leaveRemaining r) := by
  unfold State.leaveRemaining
  split
  · exact (State.endSetRelay_apart _).after (.of_svc rfl)
  · exact .refl s

theorem State.acceptOffer_apart (s : State) (r : RemoteId) (m : Relayed) : Apart s (s.acceptOffer r m) := by
  unfold State.acceptOffer
  split
  · exact (s.modFramer_apart _ _).trans (State.leaveRemaining_apart _ _)
  · exact s.modFramer_apart _ _

theorem State.offer_apart (s : State) (r : RemoteId) (m : Relayed) : Apart s (s.offer r m) :=
  .ite (s.acceptOffer_apart r m) (s.setRefused_apart _ _)

theorem State.reoffer_apart (s : State) (r : RemoteId) : Apart s (s.reoffer r) := by
  unfold State.reoffer
  split
  · exact .refl s
  · exact .ite ((s.setRefused_apart r _).trans (State.acceptOffer_apart _ r _)) (.refl s)

theorem State.withdraw_apart (s : State) (r : RemoteId) : Apart s (s.withdraw r) :=
  (s.modFramer_apart _ _).trans (State.setRefused_apart _ _ _)

theorem State.endPass_apart (s : State) (r : RemoteId) (st : Status) (body : List Byte) :
    Apart s (s.endPass r st body) := by
  unfold State.endPass
  split
  · exact ((((s.fillReserved_apart _ _).trans (State.setPass_apart _ _ _)).trans
      (State.withdraw_apart _ _)).trans (State.unDue_apart _ _)).trans (State.unDue_apart _ _)
  · exact .refl s

theorem State.sentReport_apart (s : State) (r : RemoteId) (t : Byte) : Apart s (s.sentReport r t) := by
  unfold State.sentReport
  split
  · exact .ite (s.setPass_apart _ _) (.refl s)
  · exact .refl s

theorem State.passExpires_apart (s : State) (r : RemoteId) : Apart s (s.passExpires r) := by
  unfold State.passExpires
  split
  · split
    · exact (s.countRelay_apart _ _).trans (State.endPass_apart _ _ _ _)
    · exact .refl s
  · exact .refl s

theorem State.retryEnds_apart (s : State) (r : RemoteId) : Apart s (s.retryEnds r) := by
  unfold State.retryEnds
  split
  · split
    · exact (s.setPass_apart _ _).trans (State.offer_apart _ _ _)
    · exact .refl s
  · exact .refl s

theorem State.replyArrives_apart (s : State) (r : RemoteId) (m : Message) : Apart s (s.replyArrives r m) := by
  unfold State.replyArrives
  split
  · exact .ite (s.endPass_apart _ _ _) (s.countRelay_apart _ _)
  · exact s.countRelay_apart _ _

theorem State.retryPass_apart (s : State) (r : RemoteId) (p : Pass) : Apart s (s.retryPass r p) :=
  ((((s.withdraw_apart r).trans (State.takeTag_apart _ _)).trans (State.setPass_apart _ _ _)).trans
    (State.unDue_apart _ _)).trans (State.unDue_apart _ _)

theorem State.busyArrives_apart (s : State) (r : RemoteId) (m : Message) : Apart s (s.busyArrives r m) := by
  unfold State.busyArrives
  split
  · refine .ite ((s.countRelay_apart r fun c => { c with busies := satInc c.busies }).trans ?_) (s.countRelay_apart _ _)
    exact .ite (State.endPass_apart _ _ _ _) (State.retryPass_apart _ _ _)
  · exact s.countRelay_apart _ _

theorem State.tickPass_apart (s : State) (r : RemoteId) : Apart s (s.tickPass r) := by
  unfold State.tickPass
  split
  · split
    · exact (s.setPass_apart r _).trans (.ite (State.markDue_apart _ _) (.refl _))
    · exact .ite (s.markDue_apart _) (s.setPass_apart _ _)
    · exact .refl s
  · exact .refl s

theorem State.relayLinkLost_apart (s : State) (r : RemoteId) : Apart s (s.relayLinkLost r) :=
  ((s.abortPass_apart r).trans (State.setRefused_apart _ _ _)).trans (State.leaveRemaining_apart _ _)

theorem State.startEmission_apart (s : State) (l : Link) (w : Sending) (slots : List Slot) :
    Apart s (s.startEmission l w slots) :=
  (s.modFramer_apart l _).trans (State.unDue_apart _ _)

theorem State.startResponse_apart (s : State) (l : MsgLink) : Apart s (s.startResponse l) := by
  unfold State.startResponse
  split
  · split
    · exact (State.startEmission_apart _ _ _ _).after (.of_svc rfl)
    · exact .refl s
  · exact .refl s

theorem State.startNotice_apart (s : State) : Apart s s.startNotice := by
  unfold State.startNotice
  split
  · exact (State.startEmission_apart _ _ _ _).after (.of_parts rfl rfl rfl rfl rfl rfl rfl)
  · exact .refl s

theorem State.startRemote_apart (s : State) (r : RemoteId) : Apart s (s.startRemote r) := by
  unfold State.startRemote
  split
  · simp only
    split
    · exact (s.modFramer_apart _ _).trans (State.startEmission_apart _ _ _ _)
    · split
      · exact ((s.modFramer_apart _ _).trans (State.startEmission_apart _ _ _ _)).trans (State.reoffer_apart _ _)
      · exact .refl s
  · exact .refl s

theorem State.startAny_apart (s : State) (l : Link) : Apart s (s.startAny l) := by
  cases l with
  | donor n => exact s.startResponse_apart _
  | remote r => exact s.startRemote_apart r
  | service => exact (s.startResponse_apart _).trans (State.startNotice_apart _)

theorem State.startSenders_apart (s : State) : Apart s s.startSenders :=
  .foldl (fun s l => (s.startAny_apart l).trans (State.unDue_apart _ _)) _ s

/-! ### The receive sides of the links stand apart -/

theorem State.setReference_apart (s : State) (n : Option DonorId) : Apart s (s.setReference n) :=
  .of_parts rfl rfl rfl rfl rfl rfl rfl

theorem State.selectReference_apart (s : State) : Apart s s.selectReference := by
  unfold State.selectReference
  split
  · exact .refl s
  · split
    · exact (s.setReference_apart _).trans (State.post_apart _ _ _ _)
    · exact .refl s

theorem State.loseReference_apart (s : State) (n : DonorId) : Apart s (s.loseReference n) :=
  .ite ((s.setReference_apart _).trans (State.post_apart _ _ _ _)) (.refl s)

theorem State.reviseReference_apart (s : State) : Apart s s.reviseReference := by
  unfold State.reviseReference
  split
  · exact .ite (.refl s) (s.setReference_apart _)
  · exact s.selectReference_apart

theorem State.removeRequests_apart (s : State) (n : DonorId) : Apart s (s.removeRequests n) := by
  unfold State.removeRequests
  exact (Apart.of_svc (v := { s.svc with input := s.svc.input.filter fun q => decide (q.link ≠ MsgLink.donor n) }) rfl).trans
    (State.countSvc_apart _ _ _)

theorem State.modDonor_apart (s : State) (n : DonorId) (f : DonorState → DonorState) : Apart s (s.modDonor n f) :=
  .of_parts rfl rfl rfl rfl rfl rfl rfl

theorem State.donorUnlocked_apart (s : State) (n : DonorId) : Apart s (s.donorUnlocked n) :=
  (((s.loseReference_apart n).trans (State.modDonor_apart _ _ _)).trans (State.unDue_apart _ _)).trans
    (State.removeRequests_apart _ _)

theorem State.setQueue_apart (s : State) (r : RemoteId) (q : List Entry) : Apart s (s.setQueue r q) :=
  .of_parts rfl rfl rfl rfl rfl rfl rfl

theorem State.remoteUnlocked_apart (s : State) (r : RemoteId) : Apart s (s.remoteUnlocked r) :=
  (((s.setQueue_apart r []).trans (State.modSup_apart _ _ _ ⟨rfl, rfl, rfl, rfl, rfl⟩ fun _ => rfl)).trans
    (State.unDue_apart _ _)).trans (State.relayLinkLost_apart _ _)

theorem State.leaveLocked_apart (s : State) (l : Link) : Apart s (s.leaveLocked l) := by
  unfold State.leaveLocked
  simp only
  have h : Apart s (if (s.framer l).emission.any Emission.isRestart then
      (s.modFramer l Framer.unlock).markDue .restart else s.modFramer l Framer.unlock) :=
    .ite ((s.modFramer_apart l _).trans (State.markDue_apart _ _)) (s.modFramer_apart l _)
  refine h.trans ?_
  cases l with
  | donor n => exact State.donorUnlocked_apart _ n
  | remote r => exact State.remoteUnlocked_apart _ r
  | service => exact .of_parts rfl rfl rfl rfl rfl rfl rfl

theorem State.donorLocked_apart (s : State) (n : DonorId) : Apart s (s.donorLocked n) := by
  have h := (s.modDonor_apart n fun _ => ⟨none, false, false⟩).trans (State.unDue_apart _ (.donorGrace n))
  exact .ite (h.trans (State.post_apart _ _ _ _)) h

theorem State.remoteLocked_apart (s : State) (r : RemoteId) : Apart s (s.remoteLocked r) := by
  have h := (s.modSup_apart r (fun v => { v with grace := none }) ⟨rfl, rfl, rfl, rfl, rfl⟩ fun _ => rfl).trans
    (State.unDue_apart _ (.linkGrace r))
  exact .ite h (h.trans (State.queuePoll_apart _ _))

theorem State.enterLocked_apart (s : State) (l : Link) : Apart s (s.enterLocked l) := by
  unfold State.enterLocked
  simp only
  refine (s.modFramer_apart l fun f => { f with rx := .locked, streak := 0 }).trans ?_
  cases l with
  | donor n => exact (State.selectReference_apart _).trans (State.donorLocked_apart _ _)
  | remote r => exact State.remoteLocked_apart _ _
  | service => exact .refl _

theorem State.countPort_apart (s : State) (r : RemoteId) (f : UplinkCounters → UplinkCounters) :
    Apart s (s.countPort r f) :=
  .of_parts rfl rfl rfl rfl rfl rfl rfl

theorem State.acceptEntry_apart (s : State) (r : RemoteId) (e : Entry) : Apart s (s.acceptEntry r e) :=
  .of_parts rfl rfl rfl rfl rfl rfl rfl

theorem State.countLate_apart (s : State) (r : RemoteId) : Apart s (s.countLate r) :=
  .of_parts rfl rfl rfl rfl rfl rfl rfl

theorem State.classify_apart (s : State) (r : RemoteId) (e : Entry) : Apart s (s.classify r e) := by
  refine Apart.ite (s.countPort_apart _ _) (.ite (s.countLate_apart r) (.ite (s.countPort_apart _ _)
    (.ite ?_ (s.acceptEntry_apart r e))))
  exact ((s.setQueue_apart r _).trans (State.countPort_apart _ _ _)).trans (State.acceptEntry_apart _ _ _)

theorem State.deliver_apart (s : State) (l : Link) (x : LinkFrame) : Apart s (s.deliver l x) := by
  unfold State.deliver
  simp only
  refine Apart.trans ?_ (State.modFramer_apart _ _ _)
  refine (s.modFramer_apart l fun f => f.goodLocked x.number).trans ?_
  cases l with
  | donor n => exact State.modFramer_apart _ _ _
  | remote r => exact State.classify_apart _ _ _
  | service => exact .refl _

theorem State.goodFrame_apart (s : State) (l : Link) (x : LinkFrame) : Apart s (s.goodFrame l x) := by
  unfold State.goodFrame
  simp only
  split
  · exact .refl s
  · exact s.modFramer_apart _ _
  · refine .ite (.ite ?_ (s.modFramer_apart _ _)) (s.modFramer_apart _ _)
    exact ((s.modFramer_apart l _).trans (State.enterLocked_apart _ _)).trans (State.deliver_apart _ _ _)
  · exact s.deliver_apart l x

theorem State.signalReturns_apart (s : State) (l : Link) : Apart s (s.signalReturns l) := by
  unfold State.signalReturns
  exact .ite (s.modFramer_apart _ _) (.refl s)

end Sys2Proof.Machine
end

section
namespace Sys2Proof.Machine

/-! ### Requests that arrive stand apart -/

theorem State.answerArrival_apart (s : State) (l : MsgLink) (m : Message) (st : Status) :
    Apart s (s.answerArrival l m st) := by
  unfold State.answerArrival
  split
  · exact (State.countSvc_apart _ _ _).after (.of_svc rfl)
  · exact s.countSvc_apart _ _

theorem State.openPass_apart (s : State) (r : RemoteId) (l : MsgLink) (m : Message) : Apart s (s.openPass r l m) := by
  unfold State.openPass
  simp only
  exact (State.offer_apart _ _ _).after ((State.countRelay_apart _ _ _).after (.of_svc rfl))

theorem State.startSetRelay_apart (s : State) (l : MsgLink) (m : Message) (ports : List RemoteId) :
    Apart s (s.startSetRelay l m ports) := by
  unfold State.startSetRelay
  simp only
  refine (State.endSetRelay_apart _).after ((Apart.foldl (fun s r => ?_) ports _).after (.of_svc rfl))
  exact (s.takeTag_apart r).trans (State.offer_apart _ _ _)

theorem State.admitMessage_apart (s : State) (l : MsgLink) (m : Message) : Apart s (s.admitMessage l m) := by
  unfold State.admitMessage
  split
  · exact s.countSvc_apart _ _
  · split
    · exact s.answerArrival_apart _ _ _
    · exact (State.countSvc_apart _ _ _).after (.of_svc rfl)
    · exact s.openPass_apart _ _ _
    · exact s.startSetRelay_apart _ _ _

theorem State.serviceArrives_apart (s : State) (l : MsgLink) (m : Message) : Apart s (s.serviceArrives l m) := by
  unfold State.serviceArrives
  split
  · exact s.countSvc_apart _ _
  · split
    · exact s.countSvc_apart _ _
    · exact .ite (s.answerArrival_apart _ _ _) (s.admitMessage_apart _ _)
    · exact s.admitMessage_apart _ _

theorem State.takeServiceMessage_apart (s : State) (l : MsgLink) : Apart s (s.takeServiceMessage l) := by
  unfold State.takeServiceMessage
  split
  · exact (s.modFramer_apart _ _).trans (State.serviceArrives_apart _ _ _)
  · exact .refl s

theorem State.drainService_apart (s : State) (l : MsgLink) (n : Nat) : Apart s (s.drainService l n) := by
  induction n generalizing s with
  | zero => exact .refl s
  | succ n ih => exact (s.takeServiceMessage_apart l).trans (ih _)

/-! ### The frames of a boundary and the counts stand apart -/

theorem State.markAll_apart (s : State) (es : List Due) : Apart s (s.markAll es) := .foldl State.markDue_apart es s

theorem State.setActing_apart (s : State) (b : Bool) : Apart s (s.setActing b) := .of_parts rfl rfl rfl rfl rfl rfl rfl

theorem State.combine_apart (s : State) : Apart s s.combine.1 := by
  have released : ∀ t : FC, Apart s (s.setDelay.release t) := fun _ => .of_parts rfl rfl rfl rfl rfl rfl rfl
  unfold State.combine
  simp only
  split
  · exact released _
  · split
    · exact released _
    · exact .of_parts rfl rfl rfl rfl rfl rfl rfl

theorem State.transmit_apart (s : State) (l : Link) (n : FC) (k : Nat) (m : List Byte) (x : List Lane) :
    Apart s (s.transmit l n k m x) :=
  (s.modFramer_apart l _).trans (State.markAll_apart _ _)

theorem State.transmitAll_apart (s : State) (d : Tab 16 (List Lane)) (u : DonorUplink) (t : Lane) :
    Apart s (s.transmitAll d u t) :=
  ((Apart.foldl (fun (s : State) n => s.transmit_apart (.donor n) _ _ _ _) _ s).trans
    (.foldl (fun (s : State) r => s.transmit_apart (.remote r) _ _ _ _) _ _)).trans (State.transmit_apart _ _ _ _ _ _)

theorem State.distribute_apart (s : State) (fs : DonorFrames) : Apart s (s.distribute fs) :=
  .of_parts rfl rfl rfl rfl rfl rfl rfl

theorem State.noteWeights_apart (s : State) : Apart s s.noteWeights := .of_parts rfl rfl rfl rfl rfl rfl rfl

/-- Frame building and transmission, around a release that itself stands apart. -/
theorem State.framesAround_apart (s : State) (f : State → State × DonorUplink) (h : ∀ s, Apart s (f s).1) :
    Apart s (s.framesAround f) :=
  (((s.distribute_apart _).trans (h _)).trans (State.noteWeights_apart _)).trans (State.transmitAll_apart _ _ _ _)

theorem State.donorGraceExpires_apart (s : State) (n : DonorId) : Apart s (s.donorGraceExpires n) :=
  .ite ((s.modDonor_apart n _).trans (State.post_apart _ _ _ _)) (s.modDonor_apart n _)

theorem State.pacingExpires_apart (s : State) : Apart s s.pacingExpires := .of_parts rfl rfl rfl rfl rfl rfl rfl

theorem State.tickDonor_apart (s : State) (b : Bool) (n : DonorId) : Apart s (State.tickDonor b s n) := by
  unfold State.tickDonor
  split
  · exact .ite (.refl s) ((s.modDonor_apart n _).trans (.ite (State.markDue_apart _ _) (.refl _)))
  · exact .refl s

theorem State.tickGrace_apart (s : State) (r : RemoteId) : Apart s (s.tickGrace r) := by
  unfold State.tickGrace
  split
  · exact (s.modSup_apart r _ ⟨rfl, rfl, rfl, rfl, rfl⟩ fun _ => rfl).trans (.ite (State.markDue_apart _ _) (.refl _))
  · exact .refl s

theorem State.tickDecay_apart (s : State) (r : RemoteId) : Apart s (s.tickDecay r) := by
  unfold State.tickDecay
  split
  · exact (s.modSup_apart r _ ⟨rfl, rfl, rfl, rfl, rfl⟩ fun _ => rfl).trans (.ite (State.markDue_apart _ _) (.refl _))
  · exact .refl s

theorem State.tickWindow_apart (s : State) : Apart s s.tickWindow :=
  .ite (.of_parts rfl rfl rfl rfl rfl rfl rfl)
    (Apart.trans (t := { s with meter := { s.meter with count := s.meter.count + 1 } }) (.of_parts rfl rfl rfl rfl rfl rfl rfl)
      (.ite (State.markDue_apart _ _) (.refl _)))

theorem State.tickPoll_apart (s : State) (b : Bool) : Apart s (s.tickPoll b) :=
  .ite (.refl s) (Apart.trans (t := { s with sup := { s.sup with pollCount := s.sup.pollCount + 1 } })
    ⟨rfl, rfl, rfl, fun _ => rfl, fun _ => rfl, fun _ => rfl, fun _ => rfl, fun _ => rfl, fun _ _ => rfl, rfl, rfl, id, id, id⟩
    (.ite (State.markDue_apart _ _) (.refl _)))

theorem State.tickPacing_apart (s : State) (b : Bool) : Apart s (s.tickPacing b) :=
  .ite (.refl s) (Apart.trans (t := { s with events := { s.events with pacing := s.events.pacing + 1 } })
    (.of_parts rfl rfl rfl rfl rfl rfl rfl) (.ite (State.markDue_apart _ _) (.refl _)))

theorem State.tickSchedule_apart (s : State) : Apart s s.tickSchedule := by
  unfold State.tickSchedule
  split
  · exact .ite (s.markDue_apart _) (.refl s)
  · exact .refl s

theorem State.tickAll_apart (s : State) (b : Bool) : Apart s (s.tickAll b) := by
  have ticked : ∀ s : State, ∀ r, Apart s (s.tickRemote r) := fun s r => (s.tickGrace_apart r).trans (State.tickDecay_apart _ r)
  exact ((((((Apart.foldl (f := State.tickDonor b) (fun s n => s.tickDonor_apart b n) _ s).trans
    (.foldl ticked _ _)).trans (.foldl State.tickPass_apart _ _)).trans (State.tickWindow_apart _)).trans
    (State.tickPoll_apart _ _)).trans (State.tickPacing_apart _ _)).trans (State.tickSchedule_apart _)

theorem State.postDefaulted_apart (s : State) : Apart s s.postDefaulted := by
  unfold State.postDefaulted
  split
  · exact s.post_apart _ _ _
  · exact .refl s

/-! ### The window end stands apart, up to the start it asks for -/

theorem State.clipAlarm_apart (s : State) (c : CarrierId) : Apart s (s.clipAlarm c) :=
  .ite (s.post_apart _ _ _) (.refl s)

theorem State.portAlarms_apart (s : State) (r : RemoteId) : Apart s (s.portAlarms r) := by
  unfold State.portAlarms
  simp only
  refine Apart.trans (t := if s.settings.lateLimit ≠ 0 ∧ (s.comb.window.get r).late > s.settings.lateLimit then
      s.post .lateUplink (.remote r) (word16 (s.comb.window.get r).late) else s) (.ite (s.post_apart _ _ _) (.refl s)) ?_
  exact .ite (State.post_apart _ _ _ _) (.refl _)

theorem State.closeWindow_apart (s : State) : Apart s s.closeWindow := .of_parts rfl rfl rfl rfl rfl rfl rfl

theorem State.clearWindow_apart (s : State) : Apart s s.clearWindow := .of_parts rfl rfl rfl rfl rfl rfl rfl

theorem State.windowAlarms_apart (s : State) : Apart s s.windowAlarms :=
  ((Apart.foldl State.clipAlarm_apart _ s).trans (.foldl State.portAlarms_apart _ _)).trans (State.clearWindow_apart _)

theorem State.meterEnds_apart (s : State) : Apart s s.meterEnds := s.closeWindow_apart.trans (State.windowAlarms_apart _)

/-- A change of the Spreader alone that asks for nothing. -/
theorem Apart.of_spreader {s : State} {p : Spreader} (request : p.request = s.spreader.request) :
    Apart s { s with spreader := p } :=
  ⟨rfl, rfl, rfl, fun _ => rfl, fun _ => rfl, fun _ => rfl, fun _ => rfl, fun _ => rfl, fun _ _ => rfl, rfl, rfl, id, id,
    fun k => request.trans k⟩

theorem State.relief_apart (s : State) (p : Published) : Apart s (s.relief p).1 := by
  unfold State.relief
  split
  · exact .refl s
  · simp only
    split
    · exact s.post_apart _ _ _
    · split
      · exact s.post_apart _ _ _
      · split
        · exact s.post_apart _ _ _
        · exact .refl s

theorem State.evaluate_apart (s : State) (p : Published) : Apart s (s.evaluate p).1 := by
  unfold State.evaluate
  split
  · exact .refl s
  · have relieved := s.relief_apart p
    split
    · rename_i ht
      rw [ht] at relieved
      exact relieved
    · exact relieved

theorem State.clearStreak_apart (s : State) (q : StartRequest) : Apart s (s.clearStreak q) := by
  unfold State.clearStreak
  split
  · exact .of_spreader rfl
  · exact .of_spreader rfl

/-! ### What a request of the Spreader is (R99, R101) -/

/-- Relief asks only where a remote is serving. -/
theorem State.relief_asks {s t : State} {p : Published} {k : SpreadKind} {r : RemoteId} {x y : SectorId}
    (h : s.relief p = (t, .asks k r x y)) : ∃ r, s.health r = .serving := by
  unfold State.relief at h
  split at h
  · cases h
  simp only at h
  split at h
  · cases h
  split at h
  · cases h
  rename_i x _ some _
  obtain ⟨r, hr⟩ : ∃ r, r ∈ (s.members x).filter fun r =>
      decide (s.health r = .serving) && s.coversNone x r && decide (p.remote.get r > 0) := by
    by_contra none
    refine some ?_
    rw [State.candidates, List.eq_nil_iff_forall_not_mem.mpr fun r hr => none ⟨r, hr⟩]
    rfl
  have := (List.mem_filter.mp hr).2
  simp only [Bool.and_eq_true, decide_eq_true_eq] at this
  exact ⟨r, this.1.1⟩

/-- Homing asks only where a homing streak is above 0. -/
theorem State.homing_asks {s : State} {res : Result} {k : SpreadKind} {r : RemoteId} {x y : SectorId}
    (h : s.homing res = .asks k r x y) : ∃ r, s.spreader.homing.get r > 0 := by
  unfold State.homing at h
  split at h
  · cases h
  rename_i q hq
  have member : ∀ (better : RemoteId → RemoteId → Bool) (l : List RemoteId) q, bestBy better l = some q → q ∈ l := by
    intro better l
    induction l with
    | nil => intro q hq; cases hq
    | cons a l ih =>
      intro q hq
      unfold bestBy at hq
      split at hq
      · cases hq; exact List.mem_cons_self
      · rename_i best
        split at hq <;> cases hq
        · exact List.mem_cons_of_mem _ (ih _ best)
        · exact List.mem_cons_self
  have := (List.mem_filter.mp (member _ _ _ hq)).2
  simp only [Bool.and_eq_true, decide_eq_true_eq] at this
  exact ⟨q, this.2⟩

end Sys2Proof.Machine
end

section
namespace Sys2Proof.Machine

/-! ### A reset, a RESTART and the load of the live map (R110, R165, R167) -/

theorem State.reset_settled : State.reset.Settled :=
  (State.settled_iff _).mpr ⟨Engine.idle_lawful, Engine.idle_moveLaw, State.reset_supervisionLaw⟩

theorem State.powerOn_settled (s : State) : s.powerOn.Settled :=
  State.reset_settled.apart (.of_parts rfl rfl rfl rfl rfl rfl rfl)

theorem State.Settled.restartEffect {s : State} (h : s.Settled) : s.restartEffect.Settled := by
  set t := s.restartEffect with ht
  have record : ∀ r, t.supRec r = SupRecord.reset := fun r => Tab.get_const ..
  have ramp : ∀ r, t.ramp r = ⟨0, 0, true⟩ := fun r => Tab.get_const ..
  have health : ∀ r, t.health r = .vacant := fun r => congrArg SupRecord.health (record r)
  have out : ∀ r, t.serviced r = false := fun r => by rw [State.serviced, health]; rfl
  refine ⟨Engine.idle_orderly false, ⟨fun y _ => ?_, fun y _ => by rw [record]; exact (ite_self 0).symm⟩,
    ⟨fun r _ => ?_, fun r _ => ?_, fun r => ?_, fun r _ q => ?_, nofun⟩, fun r => ?_, nofun, ⟨nofun, fun _ => ⟨health, rfl, rfl, rfl, rfl⟩⟩, fun x y _ q => ?_,
    fun r => ⟨(h.gains r).1, nofun⟩, fun q => ?_⟩
  · rw [record, State.sourcesOf, if_neg (by rw [health]; decide)]
    rfl
  · rw [ramp, State.targetOf, out]; rfl
  · rw [ramp]; exact ⟨fun _ => rfl, fun _ => rfl⟩
  · rw [ramp]; exact ⟨Nat.zero_le _, fun _ => rfl⟩
  · rw [health] at q; cases q
  · rw [record]; exact ⟨nofun, nofun⟩
  · rw [out] at q; cases q
  · rcases q with q | q <;> cases q

/-- The live map as loaded: WAITING are the configured remotes, and nothing serves yet (R110, R121, R136). -/
theorem State.Settled.loadMap {s : State} (h : s.Settled) (config : s.ConfigLaw) (load : s.map.loadNext = true) :
    s.loadMap.Settled := by
  obtain ⟨vacant, idle, -⟩ := h.load.unloaded load
  have still : s.engine = Engine.idle := h.engine.idle idle
  obtain ⟨-, -, law⟩ := (State.settled_iff s).mp h
  have start := law.allVacant load
  obtain ⟨d, whole, -⟩ := State.loadMap_eq start
  rw [whole]
  set t := s.takeStartPlan.portsLoaded.sectorsLoaded.withDue d with ht
  have record : ∀ r, t.supRec r = { s.supRec r with
      health := if (s.takeStartPlan.live r).configured then .waiting else .vacant
      cause := if (s.takeStartPlan.live r).configured then none else (s.supRec r).cause
      mode := (s.supRec r).alarms.effective (s.takeStartPlan.live r).mode
      awaiting := (s.supRec r).awaiting || ((s.takeStartPlan.live r).configured && s.locked (.remote r)) } :=
    fun r => Tab.get_mapIdx ..
  have engine : t.engine = Engine.idle := still
  have health : ∀ r, t.health r = if (t.live r).configured then .waiting else .vacant :=
    fun r => congrArg SupRecord.health (record r)
  have out : ∀ r, t.serviced r = false := fun r => by rw [State.serviced, health]; split <;> rfl
  have serves : ∀ r, (t.health r).serves = false := fun r => by rw [health]; split <;> rfl
  have held : ∀ r, (t.supRec r).held = false := fun r => by
    rw [record]
    have := h.held r
    rw [still] at this
    exact Bool.eq_false_iff.mpr fun k => nomatch this.mp k
  have target : ∀ r, t.targetOf r = 0 := fun r => by rw [State.targetOf, out]; rfl
  have none : ∀ r, s.serviced r = false := fun r => by rw [State.serviced, vacant]; rfl
  have zero : ∀ r, (t.ramp r).target = 0 ∧ (t.ramp r).present = 0 ∧ (t.ramp r).done = true := fun r => by
    have aim : (s.ramp r).target = 0 := by
      rw [h.ramps.target r (by simp), State.targetOf, none r]; rfl
    exact ⟨aim, start.present r, (h.ramps.done r (by simp)).mpr ((start.present r).trans aim.symm)⟩
  refine ⟨engine ▸ Engine.idle_orderly false, ⟨fun y _ => ?_, fun y _ => ?_⟩, ⟨fun r _ => ?_, fun r _ => ?_, fun r => ?_,
    fun r _ q => ?_, fun r _ q => ?_⟩, fun r => ?_, fun _ x _ => ?_, ⟨fun _ r => ?_, nofun⟩, fun x y _ q => ?_,
    fun r => ⟨?_, fun p hp => ?_⟩, fun q => ?_⟩
  · rw [State.sourcesOf, if_neg (by rw [serves]; decide), record]
    exact start.sources y
  · have sources : (t.supRec y).sources = [] := by rw [record]; exact start.sources y
    have boost : (t.supRec y).boost = 0 := by rw [record]; exact start.boost y
    rw [sources, boost]
    exact (ite_self 0).symm
  · rw [target]; exact (zero r).1
  · obtain ⟨aim, present, done⟩ := zero r
    rw [aim, present, done]
    simp
  · rw [(zero r).2.1]; exact ⟨Nat.zero_le _, fun _ => rfl⟩
  · rw [health] at q; split at q <;> cases q
  · rw [engine] at q; cases q
  · rw [held, engine]; exact ⟨nofun, nofun⟩
  · have now : t.servingNow x = 0 := State.servingNow_zero serves x
    rw [State.degradedNow, now]
    exact ⟨Tab.get_const .., Tab.get_map ..⟩
  · rw [health]
    cases (t.live r).configured <;> simp
  · rw [out] at q; cases q
  · have live : t.live r = s.takeStartPlan.live r := rfl
    rw [live, State.takeStartPlan_live]
    cases s.startSource with
    | some p => exact ((config.current.plans p).remotes r).1
    | none => exact (Plan.default_lawful.remotes r).1
  · rw [engine] at hp; cases hp
  · rw [engine] at q; rcases q with q | q <;> cases q

theorem State.tickClock_apart (s : State) : Apart s s.tickClock := .of_parts rfl rfl rfl rfl rfl rfl rfl

/-! ### Both laws through the parts of a command -/

/-- The laws a step leaves in place: of the stored configuration, and of the engine and supervision. -/
structure State.Upheld (s : State) : Prop where
  config : s.ConfigLaw
  settled : s.Settled

namespace State.Upheld

variable {s t : State}

theorem steady (h : s.Upheld) (q : Steady s t) (k : t.Settled) : t.Upheld := ⟨q.config h.config, k⟩

theorem quiet (h : s.Upheld) (q : Quiet s t) (a : Apart s t) : t.Upheld := h.steady q.steady (h.settled.apart a)

theorem foldl {α : Type} {f : State → α → State} (step : ∀ s a, s.Upheld → (f s a).Upheld) (xs : List α) :
    ∀ {s : State}, s.Upheld → (xs.foldl f s).Upheld := by
  induction xs with
  | nil => exact id
  | cons a xs ih => exact fun h => ih (step _ a h)

theorem ite {c : Prop} [Decidable c] {u : State} (h : t.Upheld) (k : u.Upheld) : (if c then t else u).Upheld := by
  split
  · exact h
  · exact k

theorem takeDue (h : s.Upheld) (e : Due) {f : State → State} (step : ∀ t, t.Upheld → (f t).Upheld) :
    (s.takeDue e f).Upheld :=
  ite (step _ (h.quiet (s.unDue_quiet e) (s.unDue_apart e))) h

/-! ### The due tests of a schedule (R116) -/

theorem setSchedule (h : s.Upheld) (loaded : s.map.loadNext = false) (c : Option Schedule) : (s.setSchedule c).Upheld := by
  obtain ⟨config, k⟩ := h
  refine ⟨(s.setSchedule_quiet c).steady.config config, ⟨k.engine, ⟨k.boosts.sources, k.boosts.boost⟩,
    ⟨k.ramps.target, k.ramps.done, k.ramps.present, k.ramps.joining, k.ramps.ramping⟩, k.held, k.sectors, ⟨k.load.vacant, fun q => ?_⟩, k.serials, k.gains, k.fading⟩⟩
  exact absurd (loaded.symm.trans q) (by simp)

/-- A schedule stands only once the live map is loaded. -/
theorem loaded_of_schedule (h : s.Upheld) {c : Schedule} (k : s.store.schedule = some c) : s.map.loadNext = false := by
  by_contra load
  obtain ⟨-, -, none, -⟩ := h.settled.load.unloaded (by simpa using load)
  rw [none] at k
  cases k

theorem loaded_of_request (h : s.Upheld) {q : StartRequest} (k : s.spreader.request = some q) : s.map.loadNext = false := by
  by_contra load
  obtain ⟨-, -, -, -, none⟩ := h.settled.load.unloaded (by simpa using load)
  rw [none] at k
  cases k

theorem loaded_of_taking (h : s.Upheld) (k : s.svc.taking = true) : s.map.loadNext = false := by
  by_contra load
  obtain ⟨-, -, -, off, -⟩ := h.settled.load.unloaded (by simpa using load)
  rw [off] at k
  cases k

theorem testSchedule (h : s.Upheld) (loaded : s.map.loadNext = false) (c : Schedule) : (s.testSchedule c).Upheld := by
  unfold State.testSchedule
  split
  · have posted : (s.post .cutoverAborted (.plan c.plan) 4).Upheld := h.quiet (s.post_quiet _ _ _) (s.post_apart _ _ _)
    exact posted.setSchedule loaded none
  · have begun : (s.startCutOver c.plan).1.Upheld :=
      h.steady (s.startCutOver_quiet _).steady (h.settled.startCutOver h.config loaded c.plan)
    simp only
    split
    · rename_i taken
      have idle : s.engine.state = .idle := by
        by_contra busy
        rw [State.startCutOver_busy busy] at taken
        cases taken
      obtain ⟨-, st⟩ := State.startCutOver_started idle c.plan
      exact begun.setSchedule (by rw [st.frame]; exact loaded) none
    · exact h.setSchedule loaded _

theorem dueTest (h : s.Upheld) : s.dueTest.Upheld := by
  unfold State.dueTest
  split
  · rename_i c hc
    exact ite (h.testSchedule (h.loaded_of_schedule hc) c) h
  · exact h

theorem waitingTest (h : s.Upheld) : s.waitingTest.Upheld := by
  unfold State.waitingTest
  split
  · rename_i c hc
    exact ite (h.testSchedule (h.loaded_of_schedule hc) c) h
  · exact h

/-! ### The window end (R65 to R69, R91 to R102) -/

theorem setRequest (h : s.Upheld) (q : Option StartRequest) (loaded : q ≠ none → s.map.loadNext = false) :
    (s.setRequest q).Upheld := by
  obtain ⟨config, k⟩ := h
  refine ⟨(s.setRequest_quiet q).steady.config config, ⟨k.engine, ⟨k.boosts.sources, k.boosts.boost⟩,
    ⟨k.ramps.target, k.ramps.done, k.ramps.present, k.ramps.joining, k.ramps.ramping⟩, k.held, k.sectors, ⟨k.load.vacant, fun load => ?_⟩, k.serials, k.gains, k.fading⟩⟩
  obtain ⟨vacant, idle, schedule, taking, -⟩ := k.load.unloaded load
  refine ⟨vacant, idle, schedule, taking, ?_⟩
  by_contra some
  exact absurd ((loaded some).symm.trans load) (by simp)

/-- Before the live map is loaded no remote serves, so the Spreader asks for nothing. -/
theorem loaded_of_asks (h : s.Upheld) (p : Published) {t : State} {k : SpreadKind} {r : RemoteId} {x y : SectorId}
    (asks : ((s.judgeSettled p).updateStreaks p).evaluate p = (t, .asks k r x y)) : s.map.loadNext = false := by
  by_contra load
  obtain ⟨vacant, -⟩ := h.settled.load.unloaded (by simpa using load)
  set a := (s.judgeSettled p).updateStreaks p with ha
  have health : ∀ r, a.health r = .vacant := vacant
  have relieves : ∀ {b : State} {k : SpreadKind} {r : RemoteId} {x y : SectorId}, a.relief p ≠ (b, .asks k r x y) := by
    intro b k r x y q
    obtain ⟨z, hz⟩ := State.relief_asks q
    rw [health] at hz
    cases hz
  unfold State.evaluate at asks
  split at asks
  · cases (Prod.mk.inj asks).2
  split at asks
  · rename_i b res relieved
    obtain ⟨z, hz⟩ := State.homing_asks (congrArg Prod.snd asks)
    have streak : b.spreader.homing.get z = 0 := by
      have same : b.spreader = a.spreader := by
        rw [show b = (a.relief p).1 by rw [relieved]]
        unfold State.relief
        split
        · rfl
        · simp only
          split
          · rfl
          · split
            · rfl
            · split <;> rfl
      have homing : ∀ r h x, (s.judgeSettled p).homeConditions p r h x = false := fun r h x => by
        have : decide ((s.judgeSettled p).health r = .serving) = false := by
          rw [show (s.judgeSettled p).health r = .vacant from vacant r]; rfl
        rw [State.homeConditions, this]
        simp
      rw [same]
      show (Tab.ofFn ((s.judgeSettled p).homingStreak p)).get z = 0
      rw [Tab.get_ofFn, State.homingStreak]
      split
      · rw [homing]; rfl
      · rfl
    omega
  · exact relieves asks

theorem spread (h : s.Upheld) (p : Published) : (s.spread p).Upheld := by
  have judged : Apart s ((s.judgeSettled p).updateStreaks p) := .of_spreader rfl
  have evaluated := h.quiet (((s.judgeSettled_quiet p).trans (State.updateStreaks_quiet _ p)).trans (State.evaluate_quiet _ p))
    (judged.trans (State.evaluate_apart _ p))
  unfold State.spread
  simp only
  cases ev : ((s.judgeSettled p).updateStreaks p).evaluate p with
  | mk t e =>
    rw [ev] at evaluated
    cases e with
    | decided res =>
      have cleared : (t.setRequest none).Upheld := evaluated.setRequest none (by simp)
      exact cleared.quiet (State.recordDecision_quiet _ _) (.of_spreader rfl)
    | asks k r x y =>
      refine evaluated.setRequest _ fun _ => ?_
      have map : t.map.loadNext = s.map.loadNext := by
        have := (judged.trans (State.evaluate_apart _ p)).loadNext
        rwa [ev] at this
      exact map.trans (h.loaded_of_asks p ev)

theorem spreadEnds (h : s.Upheld) : s.spreadEnds.Upheld := by
  unfold State.spreadEnds
  split
  · exact h.spread _
  · exact h

theorem answerRequest (h : s.Upheld) (q : StartRequest) (loaded : s.map.loadNext = false) : (s.answerRequest q).Upheld := by
  have asked : (s.setRequest none).Upheld := h.setRequest none (by simp)
  have begun := asked.steady (State.startSingle_quiet _ q.kind.move q.remote q.dest).steady
    (asked.settled.startSingle loaded (k := q.kind.move) (r := q.remote) (by cases q.kind <;> decide)
      (by cases q.kind <;> nofun) q.dest)
  unfold State.answerRequest
  simp only
  split
  · exact begun.quiet ((State.clearStreak_quiet _ q).trans (State.recordDecision_quiet _ _))
      ((State.clearStreak_apart _ q).trans (.of_spreader rfl))
  · exact begun.quiet (State.recordDecision_quiet _ _) (.of_spreader rfl)

theorem takeRequested (h : s.Upheld) : s.takeRequested.Upheld := by
  unfold State.takeRequested
  split
  · rename_i q hq
    exact h.answerRequest q (h.loaded_of_request hq)
  · exact h

theorem meterEnds (h : s.Upheld) : s.meterEnds.Upheld := h.quiet s.meterEnds_quiet s.meterEnds_apart

theorem windowPart (h : s.Upheld) (part : WindowPart) : (s.windowPart part).Upheld := by
  unfold State.windowPart
  cases part with
  | whole => exact h.takeDue _ (f := State.windowEnd) fun t k => k.meterEnds.spreadEnds.takeRequested
  | meter => exact h.takeDue _ fun t k => k.meterEnds.quiet (State.markDue_quiet _ _) (State.markDue_apart _ _)
  | spread =>
    exact h.takeDue _ fun t k => k.spreadEnds.quiet (Quiet.ite (State.markDue_quiet _ _) (.refl _))
      (.ite (State.markDue_apart _ _) (.refl _))
  | start => exact h.takeDue _ (f := State.takeRequested) fun t k => k.takeRequested

/-! ### Messages (R15, R124) -/

theorem statusArrives (h : s.Upheld) (r : RemoteId) (b : List Byte) : (s.statusArrives r b).Upheld :=
  h.steady (s.statusArrives_quiet r b).steady (h.settled.statusArrives r b)

theorem modFramer (h : s.Upheld) (l : Link) (f : Framer → Framer) : (s.modFramer l f).Upheld :=
  ⟨by cases l <;> exact h.config.congr rfl rfl rfl rfl rfl rfl, h.settled.apart (s.modFramer_apart l f)⟩

theorem takeRemoteMessage (h : s.Upheld) (r : RemoteId) (kind : Byte) {f : State → Message → State}
    (step : ∀ t m, t.Upheld → (f t m).Upheld) : (s.takeRemoteMessage r kind f).Upheld := by
  unfold State.takeRemoteMessage
  split
  · exact ite (step _ _ (h.modFramer _ _)) h
  · exact h

theorem takeStatus (h : s.Upheld) (r : RemoteId) : (s.takeStatus r).Upheld :=
  h.takeRemoteMessage r _ fun _ m k => k.statusArrives r m.body

theorem takeReply (h : s.Upheld) (r : RemoteId) : (s.takeReply r).Upheld :=
  h.takeRemoteMessage r _ fun t m k => k.quiet (t.replyArrives_quiet r m) (t.replyArrives_apart r m)

theorem takeBusy (h : s.Upheld) (r : RemoteId) : (s.takeBusy r).Upheld :=
  h.takeRemoteMessage r _ fun t m k => k.quiet (t.busyArrives_quiet r m) (t.busyArrives_apart r m)

theorem drainRemote (r : RemoteId) (n : Nat) : ∀ {s : State}, s.Upheld → (s.drainRemote r n).Upheld := by
  induction n with
  | zero => exact id
  | succ n ih =>
    intro s h
    refine ih ?_
    unfold State.takeAnyRemote
    split
    · exact ite (h.takeStatus r) (ite (h.takeReply r) (h.takeBusy r))
    · exact h

theorem drainService (h : s.Upheld) (l : MsgLink) (n : Nat) : (s.drainService l n).Upheld :=
  h.steady (s.drainService_steady l n) (h.settled.apart (s.drainService_apart l n))

theorem drainHanded (h : s.Upheld) : s.drainHanded.Upheld :=
  (foldl (fun _ n k => k.drainService (.donor n) _) _ (foldl (fun _ r k => drainRemote r _ k) _ h)).drainService _ _

theorem takeStatuses (r : RemoteId) (n : Nat) : ∀ {s : State}, s.Upheld → (s.takeStatuses r n).Upheld := by
  induction n with
  | zero => exact id
  | succ n ih =>
    intro s h
    refine ih ?_
    unfold State.takeWaitingStatus
    split
    · exact (h.modFramer _ _).statusArrives _ _
    · exact h

theorem takeArrived (h : s.Upheld) (l : Link) : (s.takeArrived l).Upheld := by
  cases l with
  | donor n => exact h.drainService _ _
  | remote r => exact takeStatuses r _ h
  | service => exact h.drainService _ _

/-! ### Links (R1, R2) -/

theorem loseLock (h : s.Upheld) (l : Link) (next : RxState) (own : Framer → Framer) : (s.loseLock l next own).Upheld :=
  (((h.takeArrived l).modFramer l fun f => (own f).loseLock next).quiet (State.leaveLocked_quiet _ l)
    (State.leaveLocked_apart _ l))

theorem frameEnds (h : s.Upheld) (l : Link) (x : LinkFrame) : (s.frameEnds l x).Upheld := by
  refine ite (h.quiet (s.goodFrame_quiet l x) (s.goodFrame_apart l x)) ?_
  unfold State.erroredFrame
  simp only
  split
  · exact h
  · exact h
  · exact h.modFramer _ _
  · exact ite (h.loseLock l _ _) (h.modFramer _ _)

theorem lossOfSignal (h : s.Upheld) (l : Link) : (s.lossOfSignal l).Upheld := ite (h.loseLock l _ _) (h.modFramer _ _)

/-! ### A whole boundary -/

theorem switchFalls (h : s.Upheld) : s.switchFalls.Upheld := h.steady s.switchFalls_quiet.steady h.settled.switchFalls

theorem rampStep (h : s.Upheld) : s.rampStep.Upheld := h.steady s.rampStep_quiet.steady h.settled.rampStep

theorem dueEffect (h : s.Upheld) (e : Due) : (s.dueEffect e).Upheld := by
  cases e with
  | switch => exact h.switchFalls
  | rampStep => exact h.rampStep
  | sender l => exact h.quiet (s.startAny_quiet l) (s.startAny_apart l)
  | window => exact h.meterEnds.spreadEnds.takeRequested
  | spread => exact h.spreadEnds.takeRequested
  | startRequest => exact h.takeRequested
  | poll => exact h.steady s.pollExpires_quiet.steady h.settled.pollExpires
  | pacing => exact h.quiet s.pacingExpires_quiet s.pacingExpires_apart
  | donorGrace n => exact h.quiet (s.donorGraceExpires_quiet n) (s.donorGraceExpires_apart n)
  | linkGrace r => exact h.steady (s.graceExpires_quiet r).steady (h.settled.graceExpires r)
  | flap r => exact h.steady (s.flapExpires_quiet r).steady (h.settled.flapExpires r)
  | passTimeout r => exact h.quiet (s.passExpires_quiet r) (s.passExpires_apart r)
  | retryEnd r => exact h.quiet (s.retryEnds_quiet r) (s.retryEnds_apart r)
  | schedule => exact h.dueTest
  | retest => exact h.waitingTest
  | sent r t => exact h.quiet (s.sentReport_quiet r t) (s.sentReport_apart r t)
  | restart => exact h.steady s.restartEffect_quiet.steady h.settled.restartEffect

theorem takeList (h : s.Upheld) (es : List Due) : (s.takeList es).Upheld :=
  foldl (fun _ e k => k.takeDue e fun _ k => k.dueEffect e) es h

theorem beforeFrames (h : s.Upheld) : s.beforeFrames.Upheld :=
  ((h.takeDue _ fun _ k => k.switchFalls).takeDue _ fun _ k => k.rampStep).quiet (State.startSenders_quiet _)
    (State.startSenders_apart _)

theorem setActing (h : s.Upheld) (b : Bool) : (s.setActing b).Upheld := h.quiet (s.setActing_quiet b) (s.setActing_apart b)

theorem actBoundary (h : s.Upheld) : s.actBoundary.Upheld :=
  ite ((h.setActing false).beforeFrames.quiet (State.framesAround_quiet _ _ State.combine_quiet)
    (State.framesAround_apart _ _ State.combine_apart)) h

theorem actReleaseFirst (h : s.Upheld) : s.actReleaseFirst.Upheld := by
  unfold State.actReleaseFirst
  refine ite ?_ h
  exact ((h.setActing false).quiet (State.combine_quiet _) (State.combine_apart _)).beforeFrames.quiet
    (State.framesAround_quiet _ _ Quiet.refl) (State.framesAround_apart _ _ Apart.refl)

theorem settle (h : s.Upheld) : s.settle.Upheld := ((h.actBoundary.takeList _).drainHanded).takeList _

theorem loadMap (h : s.Upheld) (load : s.map.loadNext = true) : s.loadMap.Upheld :=
  h.steady s.loadMap_quiet.steady (h.settled.loadMap h.config load)

theorem afterTick (h : s.Upheld) (first : Bool) : (s.afterTick first).Upheld := by
  have loaded : (if s.map.loadNext then s.loadMap else s).Upheld := by
    split
    · rename_i load; exact h.loadMap load
    · exact h
  unfold State.afterTick
  simp only
  generalize (if s.map.loadNext then s.loadMap else s) = a at loaded
  have posted : (if first then a.postDefaulted else a).Upheld := ite (loaded.quiet a.postDefaulted_quiet a.postDefaulted_apart) loaded
  exact ((posted.quiet (State.tickAll_quiet _ first) (State.tickAll_apart _ first)).quiet (State.markAll_quiet _ _)
    (State.markAll_apart _ _)).setActing true

theorem emitBoundary (h : s.Upheld) : s.emitBoundary.Upheld := by
  refine ite ?_ h
  have ticked : s.settle.tickClock.Upheld :=
    ⟨(State.tickClock_sound _).config h.settle.config, h.settle.settled.apart (State.tickClock_apart _)⟩
  exact ticked.afterTick _

theorem boundaryPart (h : s.Upheld) (p : BoundaryPart) : (s.boundaryPart p).Upheld := by
  cases p with
  | whole => exact h.emitBoundary.actBoundary
  | emit => exact h.emitBoundary
  | act => exact h.actBoundary
  | releaseFirst => exact h.actReleaseFirst

end State.Upheld

end Sys2Proof.Machine
end

section
namespace Sys2Proof.Machine

/-! ### The live records written by SET-REMOTE (R155) -/

section Live

variable {s : State} {B T J : List RemoteId} {X : List SectorId} {F : List RemoteId} {b : Bool} {r : RemoteId}

/-- A live record is replaced by one of the same sector: boosts are owed where partners or boost changed, the target of the
remote where its base gain did. -/
theorem State.Owes.setLive {e : RemoteEntry} (h : s.Owes ⟨B, T, J, X, F, b⟩) (configured : e.configured = (s.live r).configured)
    (sector : e.sector = (s.live r).sector) (gain : e.baseGain ≤ 1023)
    (boosts : (e.partners = (s.live r).partners ∧ e.boost = (s.live r).boost) ∨ ∀ y, y ∈ B)
    (target : e.baseGain = (s.live r).baseGain ∨ r ∈ T) : (s.modLive r fun _ => e).Owes ⟨B, T, J, X, F, b⟩ := by
  set t := s.modLive r fun _ => e with ht
  have live : ∀ x, t.live x = if r = x then e else s.live x := fun x => by
    rw [State.live, ht, State.modLive]
    simp only [Tab.get_modify]
    split <;> rfl
  have read : ∀ {α : Type} (g : RemoteEntry → α), g e = g (s.live r) → ∀ x, g (t.live x) = g (s.live x) := fun g k x => by
    rw [live]
    split
    · rename_i own; rw [k, own]
    · rfl
  have sectorOf : ∀ x, t.sectorOf x = s.sectorOf x := read RemoteEntry.sector sector
  have serving : ∀ x, t.servingNow x = s.servingNow x := fun x => State.servingNow_congr sectorOf fun _ _ => rfl
  refine ⟨h.engine, ⟨fun y hy => ?_, fun y hy => ?_⟩, ⟨fun x hx => ?_, h.ramps.done, h.ramps.present, h.ramps.joining,
    h.ramps.ramping⟩, h.held, fun hl x hx => ?_, ⟨fun hl x => ?_, h.load.unloaded⟩, h.serials,
    fun x => ⟨?_, (h.gains x).2⟩, fun k m hm => ⟨(h.fading k m hm).1, fun single p hp => ?_⟩⟩
  · obtain ⟨partners, boost⟩ := boosts.resolve_right fun all => hy (all y)
    have source : t.isSource y = s.isSource y := funext fun x => by
      rw [State.isSource, sectorOf, sectorOf, read _ partners, read _ boost]
      rfl
    rw [State.sourcesOf, source]
    exact h.boosts.sources y hy
  · obtain ⟨-, boost⟩ := boosts.resolve_right fun all => hy (all y)
    have largest : ∀ xs, t.largestBoost xs = s.largestBoost xs := fun xs => by
      simp only [State.largestBoost, read RemoteEntry.boost boost]
    rw [State.appliedBoost, largest]
    exact h.boosts.boost y hy
  · refine (h.ramps.target x hx).trans (State.targetOf_congr (s := s) (t := t) rfl Iff.rfl rfl rfl ?_).symm
    rw [live]
    split
    · rename_i own
      rw [target.resolve_right fun k => hx (own ▸ k), own]
    · rfl
  · rw [State.degradedNow, serving]
    exact h.sectors hl x hx
  · rw [read RemoteEntry.configured configured]
    exact h.load.vacant hl x
  · rw [live]
    split
    · exact gain
    · exact (h.gains x).1
  · rw [sectorOf]
    exact (h.fading k m hm).2 single p hp

end Live

theorem State.diverge_apart (s : State) : Apart s s.diverge :=
  ⟨rfl, rfl, rfl, fun _ => rfl, fun _ => rfl, fun _ => rfl, fun _ => rfl, fun _ => rfl, fun _ _ => rfl, rfl, rfl, id, id, id⟩

theorem State.Settled.setRemoteEntry {s : State} (h : s.Settled) {r : RemoteId} {e : RemoteEntry}
    (configured : e.configured = (s.live r).configured) (sector : e.sector = (s.live r).sector) (gain : e.baseGain ≤ 1023) :
    (s.setRemoteEntry r e).Settled := by
  set T : List RemoteId := if e.baseGain = (s.live r).baseGain then [] else [r] with hT
  set kept : Prop := e.partners = (s.live r).partners ∧ e.boost = (s.live r).boost with hkept
  set B : List RemoteId := if kept then [] else List.finRange 16 with hB
  have written : (s.modLive r fun _ => e).Owes ⟨B, T, [], [], [], false⟩ := by
    refine State.Owes.setLive (h.mono ⟨nofun, nofun, nofun, nofun, nofun, rfl⟩) configured sector gain ?_ ?_
    · by_cases k : kept
      · exact .inl k
      · exact .inr fun y => by rw [hB, if_neg k]; exact List.mem_finRange y
    · by_cases k : e.baseGain = (s.live r).baseGain
      · exact .inl k
      · exact .inr (by rw [hT, if_neg k]; exact List.mem_singleton_self r)
  have ready := (written.apart (State.diverge_apart _)).apart (State.deriveMode_apart _ r)
  set a := ((s.modLive r fun _ => e).diverge).deriveMode r with ha
  have boosted : ∀ p : State × List RemoteId, p.1.Owes ⟨[], p.2 ++ T, [], [], [], false⟩ →
      (if e.baseGain = (s.live r).baseGain then p.1.recomputeAll p.2 else p.1.recomputeAll (withFirst r p.2)).Settled := by
    intro p owes
    split
    · rename_i same
      rw [hT, if_pos same] at owes
      exact State.Owes.recomputeAll _ (owes.mono ⟨nofun, fun x hx => by simpa using hx, nofun, nofun, nofun, rfl⟩)
    · rename_i other
      rw [hT, if_neg other] at owes
      refine State.Owes.recomputeAll _ (owes.mono ⟨nofun, fun x hx => ?_, nofun, nofun, nofun, rfl⟩)
      by_cases hx' : x = r
      · simp [withFirst, hx']
      · simpa [withFirst, hx'] using hx
  unfold State.setRemoteEntry
  simp only
  split
  · exact h
  rw [← ha]
  apply boosted
  split
  · rename_i same
    rw [hB, if_pos same] at ready
    exact ready
  · refine (ready.reevalBoosts (List.finRange 16)).1.mono ⟨fun x hx => ?_, fun _ => id, nofun, nofun, nofun, rfl⟩
    simp [List.mem_finRange] at hx

/-- A changed minimum is evaluated (R136). -/
theorem State.Settled.setSectorEntry {s : State} (h : s.Settled) (x : SectorId) (e : SectorEntry) :
    (s.setSectorEntry x e).Settled := by
  set a : State := State.diverge { s with map := { s.map with sectors := s.map.sectors.set x e } } with ha
  have kept : ∀ X, (∀ y, y ∉ X → ((s.map.sectors.set x e).get y).minimum = (s.map.sectors.get y).minimum) →
      a.Owes ⟨[], [], [], X, [], false⟩ := fun X same => by
    refine ⟨h.engine, ⟨h.boosts.sources, h.boosts.boost⟩, ⟨h.ramps.target, h.ramps.done, h.ramps.present, h.ramps.joining,
      h.ramps.ramping⟩, h.held, fun hl y hy => ?_, ⟨h.load.vacant, h.load.unloaded⟩, h.serials, h.gains, h.fading⟩
    obtain ⟨serving, flag⟩ := h.sectors hl y (by simp)
    refine ⟨serving, flag.trans ?_⟩
    show decide (s.servingNow y < _) = decide (s.servingNow y < ((s.map.sectors.set x e).get y).minimum)
    rw [same y hy]
  unfold State.setSectorEntry
  simp only
  split
  · exact h
  split
  · rename_i same
    refine kept [] fun y _ => ?_
    rw [Tab.get_set]
    split
    · rename_i own; rw [same, own]
    · rfl
  · refine (kept [x] fun y hy => ?_).evalDegraded true
    rw [Tab.get_set, if_neg fun own => hy (by simp [own])]

end Sys2Proof.Machine
end

section
namespace Sys2Proof.Machine

/-! ### Requests -/

/-- Whatever state a verdict answers keeps the laws. -/
def Verdict.Settled (v : Verdict) : Prop := ∀ t b, v = .ok (t, b) → t.Settled

namespace Verdict.Settled

theorem error (st : Status) : Verdict.Settled (.error st) := fun _ _ h => by cases h

theorem done {t : State} {b : List Byte} (h : t.Settled) : Verdict.Settled (.ok (t, b)) := fun _ _ k => by
  cases k; exact h

theorem need {α : Type} {st : Status} {x : Option α} {f : α → Verdict} (h : ∀ a, x = some a → Verdict.Settled (f a)) :
    Verdict.Settled (Machine.need st x f) := by
  unfold Machine.need
  split
  · exact h _ rfl
  · exact error st

theorem refuseIf {c : Bool} {st : Status} {v : Verdict} (h : c = false → Verdict.Settled v) :
    Verdict.Settled (Machine.refuseIf c st v) := by
  unfold Machine.refuseIf
  split
  · exact error st
  · rename_i hc; exact h (by simpa using hc)

theorem ite {c : Prop} [Decidable c] {v w : Verdict} (h : Verdict.Settled v) (k : Verdict.Settled w) :
    Verdict.Settled (if c then v else w) := by
  split
  · exact h
  · exact k

end Verdict.Settled

theorem State.applySettings_apart (s : State) (items : List Nat) (c : Settings) : Apart s (s.applySettings items c) := by
  unfold State.applySettings
  simp only
  have written : Apart s { s with settings := c } := .of_parts rfl rfl rfl rfl rfl rfl rfl
  have revised : Apart s (if items.contains 9 then State.reviseReference { s with settings := c } else { s with settings := c }) :=
    .ite (written.trans (State.reviseReference_apart _)) written
  generalize (if items.contains 9 then State.reviseReference { s with settings := c } else { s with settings := c }) = a at revised
  exact .ite revised (revised.trans (.of_parts rfl rfl rfl rfl rfl rfl rfl))

theorem State.clearGroups_apart (s : State) (m : Byte) : Apart s (s.clearGroups m) := by
  unfold State.clearGroups
  simp only
  refine Apart.trans (t := if m.getLsbD 0 then s.clearLinks else s)
    (.ite (.of_parts rfl rfl rfl rfl rfl rfl rfl) (.refl s)) ?_
  generalize (if m.getLsbD 0 then s.clearLinks else s) = a
  refine Apart.trans (t := if m.getLsbD 1 then a.clearUplink else a)
    (.ite (.of_parts rfl rfl rfl rfl rfl rfl rfl) (.refl a)) ?_
  generalize (if m.getLsbD 1 then a.clearUplink else a) = a
  refine Apart.trans (t := if m.getLsbD 2 then a.clearCarriers else a)
    (.ite (.of_parts rfl rfl rfl rfl rfl rfl rfl) (.refl a)) ?_
  generalize (if m.getLsbD 2 then a.clearCarriers else a) = a
  exact .ite (.of_svc rfl) (.refl a)

section Requests

variable {s : State}

theorem State.Settled.writeSettings (h : s.Settled) (b : List Byte) : Verdict.Settled (s.askWriteSettings b) :=
  .refuseIf fun _ => .refuseIf fun _ => .need fun c _ => .done (h.apart (s.applySettings_apart _ c))

theorem State.Settled.writeCarrier (h : s.Settled) (b : List Byte) : Verdict.Settled (s.askWriteCarrier b) :=
  .need fun _ _ => .need fun _ _ => .refuseIf fun _ => .refuseIf fun _ =>
    .done (h.apart (.of_parts rfl rfl rfl rfl rfl rfl rfl))

theorem State.modPlan_apart (s : State) (p : PlanId) (f : Plan → Plan) : Apart s (s.modPlan p f) :=
  .of_parts rfl rfl rfl rfl rfl rfl rfl

theorem State.Settled.writePlan (h : s.Settled) (b : List Byte) : Verdict.Settled (s.askWritePlan b) :=
  .need fun p _ => .ite (.need fun _ _ => .done (h.apart (.of_parts rfl rfl rfl rfl rfl rfl rfl)))
    (.ite (.need fun _ _ => .need fun _ _ => .done (h.apart (s.modPlan_apart p _)))
      (.need fun _ _ => .need fun _ _ => .done (h.apart (s.modPlan_apart p _))))

theorem State.Settled.setRemote (h : s.Settled) (b : List Byte) : Verdict.Settled (s.askSetRemote b) := by
  refine .ite (.need fun r _ => .refuseIf fun _ => .refuseIf fun _ => .need fun e he => .done ?_)
    (.need fun x _ => .refuseIf fun _ => .need fun e _ => .done (h.setSectorEntry x e))
  obtain ⟨read, -⟩ := Option.filter_eq_some_iff.mp he
  obtain ⟨gain, -, -, -, -, sector⟩ := entryAt_inRange read
  refine h.setRemoteEntry ?_ sector gain
  simp only [entryAt, Option.bind_eq_bind, Option.bind_eq_some_iff, Option.pure_def, Option.some.injEq] at read
  obtain ⟨_, _, _, _, _, _, _, _, _, _, rfl⟩ := read
  rfl

theorem State.Settled.move (h : s.Settled) (loaded : s.map.loadNext = false) (b : List Byte) :
    Verdict.Settled (s.askMove b) :=
  .need fun _ _ => .refuseIf fun _ => .refuseIf fun out => .need fun y _ => .refuseIf fun _ => .refuseIf fun _ =>
    .done (h.startSingle loaded (by decide) (fun _ => by simpa using out) y)

theorem State.Settled.abort (h : s.Settled) : Verdict.Settled s.askAbort := by
  unfold State.askAbort
  split
  · rename_i fades; exact .done (h.startRecovery fades)
  all_goals exact .error _

theorem State.Upheld.cutOver (h : s.Upheld) (loaded : s.map.loadNext = false) (b : List Byte) :
    Verdict.Settled (s.askCutOver b) :=
  .need fun p _ => .refuseIf fun _ => .refuseIf fun _ => .done (h.settled.startCutOver h.config loaded p)

theorem State.Upheld.replaceSchedule (h : s.Upheld) (loaded : s.map.loadNext = false) (c : Option Schedule) :
    (s.replaceSchedule c).Settled :=
  ((h.setSchedule loaded c).settled.apart (State.unDue_apart _ _)).apart (State.unDue_apart _ _)

theorem State.Upheld.cue (h : s.Upheld) (loaded : s.map.loadNext = false) : Verdict.Settled s.askCue := by
  refine .need fun c _ => .done ?_
  have moved : ((s.setSchedule (some { c with dueFc := s.now })).unDue .schedule).Upheld :=
    (h.setSchedule loaded _).quiet (State.unDue_quiet _ _) (State.unDue_apart _ _)
  split
  · exact moved.settled
  · exact (moved.testSchedule loaded _).settled

theorem State.Settled.isolateAsked (h : s.Settled) (b : List Byte) : Verdict.Settled (s.askIsolate b) := by
  refine .need fun r _ => .refuseIf fun present => .done ?_
  split
  · exact h
  · exact h.isolate (by simpa using present)

theorem State.Settled.restoreAsked (h : s.Settled) (b : List Byte) : Verdict.Settled (s.askRestore b) :=
  .need fun r _ => .refuseIf fun isolated => .done (h.restore (by simpa using isolated))

theorem State.Settled.readEvents (h : s.Settled) (b : List Byte) : Verdict.Settled (s.askReadEvents b) :=
  .done (h.apart (.of_parts rfl rfl rfl rfl rfl rfl rfl))

theorem State.Settled.tapAsked (h : s.Settled) (b : List Byte) : Verdict.Settled (s.askTap b) := by
  have selected : ∀ x, Verdict.Settled (ok (s.setTap x)) := fun _ => .done (h.apart (.of_svc rfl))
  exact .ite (selected _) (.ite (.need fun _ _ => selected _) (.ite (.need fun _ _ => .need fun _ _ => selected _)
    (.need fun _ _ => .need fun _ _ => selected _)))

end Requests

section Taking

variable {s : State}

/-- Requests are taken only once the live map is loaded (R152). -/
theorem State.Upheld.loaded_of_next (h : s.Upheld) {q : Request} (k : s.nextRequest = some q) : s.map.loadNext = false := by
  unfold State.nextRequest at k
  split at k
  · rename_i taking
    simp only [Bool.and_eq_true] at taking
    exact h.loaded_of_taking taking.1
  · cases k

theorem State.Upheld.dropRequest (h : s.Upheld) : s.dropRequest.Upheld := h.quiet s.dropRequest_quiet (.of_svc rfl)

theorem State.fill_apart (s : State) (p : Response) : Apart s (s.fill p) := .of_svc rfl

/-- A request that is taken and answered. -/
theorem State.Upheld.takeRequest (h : s.Upheld) (kind : Byte) {f : State → Request → Verdict}
    (step : ∀ t q, t.Upheld → t.map.loadNext = false → Verdict.Settled (f t q)) : (s.takeRequest kind f).Settled := by
  unfold State.takeRequest
  split
  · rename_i q hq
    split
    · have dropped := h.dropRequest
      have judged : Verdict.Settled (s.dropRequest.judge q f) := by
        unfold State.judge
        split
        · exact .error _
        · exact step _ q dropped (h.loaded_of_next hq)
      unfold State.conclude
      split
      · rename_i t body answer
        exact State.Settled.apart (judged t body answer) (t.fill_apart _)
      · exact dropped.settled.apart (State.fill_apart _ _)
    · exact h.settled
  · exact h.settled

theorem State.Upheld.takeSave (h : s.Upheld) : s.takeSave.Settled := by
  unfold State.takeSave
  split
  · split
    · have dropped := h.dropRequest.settled
      unfold State.executeSave
      split
      · exact dropped.apart (State.fill_apart _ _)
      · split
        · exact dropped.apart (State.fill_apart _ _)
        · split
          · exact dropped.apart (State.fill_apart _ _)
          · exact dropped.apart (.of_parts rfl rfl rfl rfl rfl rfl rfl)
    · exact h.settled
  · exact h.settled

theorem State.stopTaking_apart (s : State) : Apart s s.stopTaking :=
  ⟨rfl, rfl, rfl, fun _ => rfl, fun _ => rfl, fun _ => rfl, fun _ => rfl, fun _ => rfl, fun _ _ => rfl, rfl, rfl, id,
    fun _ => rfl, id⟩

theorem State.Upheld.takeRestart (h : s.Upheld) : s.takeRestart.Settled := by
  unfold State.takeRestart
  split
  · split
    · have dropped := h.dropRequest.settled
      unfold State.executeRestart
      split
      · exact dropped.apart (State.fill_apart _ _)
      · exact (dropped.apart (State.stopTaking_apart _)).apart (State.fill_apart _ _)
    · exact h.settled
  · exact h.settled

theorem State.Upheld.takeUnknown (h : s.Upheld) : s.takeUnknown.Settled := by
  unfold State.takeUnknown
  split
  · split
    · exact h.dropRequest.settled.apart (State.fill_apart _ _)
    · exact h.settled
  · exact h.settled

/-! ### The end of the image read and of a SAVE (R165, R166) -/

theorem State.install_apart (s : State) (m : Stored) (i : ImageState) : Apart s (s.install m i) :=
  (State.reviseReference_apart _).after
    ⟨rfl, rfl, rfl, fun _ => rfl, fun _ => rfl, fun _ => rfl, fun _ => rfl, fun _ => rfl, fun _ _ => rfl, rfl, rfl, id, id, id⟩

theorem State.readEnds_apart (s : State) (read : ImageRead) : Apart s (s.readEnds read) := by
  unfold State.readEnds
  split
  · exact .refl s
  · split
    · exact s.install_apart _ _
    · exact s.install_apart _ _

theorem State.answerSave_apart (s : State) (st : Status) : Apart s (s.answerSave st) := by
  unfold State.answerSave
  split
  · exact s.fillReserved_apart _ _
  · exact .refl s

theorem State.saveCompletes_apart (s : State) : Apart s s.saveCompletes := by
  unfold State.saveCompletes
  split
  · exact (State.post_apart _ _ _ _).after ((State.answerSave_apart _ _).after (.of_parts rfl rfl rfl rfl rfl rfl rfl))
  · exact .refl s

theorem State.saveFails_apart (s : State) : Apart s s.saveFails := by
  unfold State.saveFails
  split
  · exact (State.post_apart _ _ _ _).after ((State.answerSave_apart _ _).after (.of_parts rfl rfl rfl rfl rfl rfl rfl))
  · exact .refl s

/-! ### Every command -/

theorem exec_settled {c : Instr} {t : State} (h : s.Upheld) (next : exec c s = .next t) : t.Settled := by
  have k := h.settled
  cases c
  case relayedMessageSent r =>
    simp only [exec, execRelayedMessageSent] at next
    split at next <;> cases next
    · exact (h.takeDue (f := fun s => s.sentReport r _) _
        fun u k => k.quiet (u.sentReport_quiet r _) (u.sentReport_apart r _)).settled
    · exact k
  all_goals cases next
  case powerOnReset => exact s.powerOn_settled
  case imageReadEnd x => exact k.apart (s.readEnds_apart x)
  case frameBoundary p => exact (h.boundaryPart p).settled
  case lossOfSignal l => exact (h.lossOfSignal l).settled
  case signalReturns l => exact k.apart (s.signalReturns_apart l)
  case goodFrame l x => exact (h.frameEnds l x).settled
  case erroredFrame l x => exact (h.frameEnds l x).settled
  case serviceMessageArrival l => exact k.apart (s.takeServiceMessage_apart l)
  case status r => exact (h.takeStatus r).settled
  case reply r => exact (h.takeReply r).settled
  case busyReply r => exact (h.takeBusy r).settled
  case responseStart l => exact k.apart (s.startResponse_apart l)
  case notice => exact k.apart s.startNotice_apart
  case arbiterMessageBoundary r => exact k.apart (s.startRemote_apart r)
  case donorGraceExpiry n => exact (h.takeDue _ fun u q => q.dueEffect (.donorGrace n)).settled
  case linkGraceExpiry r => exact (h.takeDue _ fun u q => q.dueEffect (.linkGrace r)).settled
  case pollEvent => exact (h.takeDue _ fun u q => q.dueEffect .poll).settled
  case flapDecayExpiry r => exact (h.takeDue _ fun u q => q.dueEffect (.flap r)).settled
  case rampStepEvent => exact (h.takeDue _ fun u q => q.dueEffect .rampStep).settled
  case windowEnd p => exact (h.windowPart p).settled
  case pacingTimerExpiry => exact (h.takeDue _ fun u q => q.dueEffect .pacing).settled
  case passTimeout r => exact (h.takeDue _ fun u q => q.dueEffect (.passTimeout r)).settled
  case passRetryDelayEnd r => exact (h.takeDue _ fun u q => q.dueEffect (.retryEnd r)).settled
  case scheduleDue => exact (h.takeDue _ fun u q => q.dueEffect .schedule).settled
  case dueWaitingRetest => exact (h.takeDue _ fun u q => q.dueEffect .retest).settled
  case switch => exact (State.Upheld.ite h (h.takeDue _ fun u q => q.dueEffect .switch)).settled
  case batchSwitch => exact (State.Upheld.ite (h.takeDue _ fun u q => q.dueEffect .switch) h).settled
  case saveWriteCompletion => exact k.apart s.saveCompletes_apart
  case saveWriteFailure => exact k.apart s.saveFails_apart
  case restartTakesEffect => exact (h.takeDue _ fun u q => q.dueEffect .restart).settled
  case identify => exact h.takeRequest _ fun _ _ q _ => .done q.settled
  case readSettings => exact h.takeRequest _ fun _ _ q _ => .done q.settled
  case writeSettings => exact h.takeRequest _ fun _ _ q _ => q.settled.writeSettings _
  case readCarrier => exact h.takeRequest _ fun _ _ q _ => .need fun _ _ => .done q.settled
  case writeCarrier => exact h.takeRequest _ fun _ _ q _ => q.settled.writeCarrier _
  case readPlan =>
    exact h.takeRequest _ fun _ _ q _ => .need fun _ _ => .ite (.done q.settled)
      (.ite (.need fun _ _ => .done q.settled) (.need fun _ _ => .done q.settled))
  case writePlan => exact h.takeRequest _ fun _ _ q _ => q.settled.writePlan _
  case readLive =>
    exact h.takeRequest _ fun _ _ q _ => .ite (.need fun _ _ => .done q.settled) (.need fun _ _ => .done q.settled)
  case setRemote => exact h.takeRequest _ fun _ _ q _ => q.settled.setRemote _
  case readLoad => exact h.takeRequest _ fun _ _ q _ => .ite (.done q.settled) (.need fun _ _ => .done q.settled)
  case move => exact h.takeRequest _ fun _ _ q loaded => q.settled.move loaded _
  case abort => exact h.takeRequest _ fun _ _ q _ => q.settled.abort
  case cutOver => exact h.takeRequest _ fun _ _ q loaded => q.cutOver loaded _
  case schedule =>
    exact h.takeRequest _ fun _ _ q loaded => .need fun _ _ => .refuseIf fun _ => .done (q.replaceSchedule loaded _)
  case cue => exact h.takeRequest _ fun _ _ q loaded => q.cue loaded
  case cancel => exact h.takeRequest _ fun _ _ q loaded => .need fun _ _ => .done (q.replaceSchedule loaded _)
  case isolate => exact h.takeRequest _ fun _ _ q _ => q.settled.isolateAsked _
  case restore => exact h.takeRequest _ fun _ _ q _ => q.settled.restoreAsked _
  case readEvents => exact h.takeRequest _ fun _ _ q _ => q.settled.readEvents _
  case readCounters => exact h.takeRequest _ fun _ _ q _ => .done q.settled
  case clearCounters =>
    exact h.takeRequest _ fun t _ q _ => .refuseIf fun _ => .done (q.settled.apart (t.clearGroups_apart _))
  case tap => exact h.takeRequest _ fun _ _ q _ => q.settled.tapAsked _
  case save => exact h.takeSave
  case restart => exact h.takeRestart
  case unknownRequest => exact h.takeUnknown

end Taking

/-- Settles O8: every command leaves nothing owed (`exec_settled`). -/
theorem everyStepKeepsTheSupervisionLaw : Obligations.EveryStepKeepsTheSupervisionLaw := by
  intro s t config lawful moves supervision h
  have settled : s.Settled := (State.settled_iff s).mpr ⟨lawful, moves, supervision⟩
  have next : t.Settled := by
    unfold step at h
    split at h
    · cases h; exact settled
    · have dropped : s.dropPending.Upheld :=
        ⟨config.congr rfl rfl rfl rfl rfl rfl, settled.apart (.of_parts rfl rfl rfl rfl rfl rfl rfl)⟩
      exact exec_settled dropped h
  exact ((State.settled_iff t).mp next).2.2

end Sys2Proof.Machine
end

section
namespace Sys2Proof.Machine

/-! ## Moves that go on, and moves that end (R77, R79, R82, R84, R86)

What a settling does to the Move Engine is that remotes leave the phase set: `Leaving` says which, and what the engine has
come to, whatever else the settling did. -/

/-- No move has ended: the Spreader has been told no end, the map and the schedule are as they were, a test that is due
stays due, and nothing but a settling has posted. -/
structure Rests (s t : State) : Prop where
  lastEnd : t.spreader.lastEnd = s.spreader.lastEnd
  map : t.map = s.map
  schedule : t.store.schedule = s.store.schedule
  now : t.now = s.now
  retest : .retest ∈ s.boundary.due → .retest ∈ t.boundary.due
  posted : EventQueue.Posted settlingKinds s.events t.events

namespace Rests

theorem refl (s : State) : Rests s s := ⟨rfl, rfl, rfl, rfl, id, .refl _ _⟩

theorem trans {s t u : State} (h : Rests s t) (k : Rests t u) : Rests s u :=
  ⟨k.lastEnd.trans h.lastEnd, k.map.trans h.map, k.schedule.trans h.schedule, k.now.trans h.now, k.retest ∘ h.retest,
    h.posted.trans k.posted⟩

/-- A settling that leaves the Spreader, the map and what is due. -/
theorem of_settles {s t : State} (h : Settles s t) (spreader : t.spreader = s.spreader) (map : t.map = s.map)
    (boundary : t.boundary = s.boundary) : Rests s t :=
  ⟨by rw [spreader], map, by rw [h.store], h.now, by rw [boundary]; exact id, h.events⟩

end Rests

namespace MoveRecord.Ended

variable {m : MoveRecord} {o : MoveOutcome} {s t u : State}

/-- What came before the end changes nothing about it. -/
theorem before (h : Rests s t) (k : m.Ended o t u) : m.Ended o s u where
  engine := k.engine
  lastEnd := by rw [k.lastEnd, h.now]
  reported := by
    have := k.reported.before h.posted
    rwa [h.now] at this
  retest := fun c hc w => k.retest c (h.schedule.trans hc) w
  adopted := k.adopted
  kept := fun q => (k.kept q).trans (by rw [h.map])

/-- Nor does what comes after it. -/
theorem after (h : m.Ended o s t) (k : Rests t u) (engine : u.engine = t.engine) : m.Ended o s u where
  engine := engine.trans h.engine
  lastEnd := k.lastEnd.trans h.lastEnd
  reported := h.reported.after k.posted
  retest := fun c hc w => k.retest (h.retest c hc w)
  adopted := by rw [k.map]; exact h.adopted
  kept := by rw [k.map]; exact h.kept

end MoveRecord.Ended

theorem State.askRetest_due {s : State} {c : Schedule} (hc : s.store.schedule = some c) (w : c.waiting = true) :
    .retest ∈ s.askRetest.boundary.due := by
  simp only [State.askRetest, hc, w, if_true, State.due_markDue]
  split
  · rename_i h; simpa using h
  · exact List.mem_append_right _ (List.mem_singleton_self _)

theorem State.askRetest_frame (s : State) : s.askRetest = { s with boundary := s.askRetest.boundary } := by
  unfold State.askRetest State.markDue
  split
  · split
    · split <;> rfl
    · rfl
  · rfl

/-- The event of the end of a move (R79, R139). -/
theorem State.postEnd_reported {m : MoveRecord} (shape : m.Shape) (s : State) (o : MoveOutcome) :
    s.postEnd m o = s.post (m.endEvent o).1 (m.endEvent o).2 (word16 o.code) := by
  cases m with
  | mk kind plan places _ _ _ fading =>
    cases kind with
    | batch =>
      obtain ⟨p, hp⟩ := Option.isSome_iff_exists.mp (shape.plan.mpr rfl)
      dsimp only at hp
      subst hp
      cases o <;> rfl
    | manual => obtain ⟨r, x, y, hp, -⟩ := shape.single nofun; dsimp only at hp; subst hp; rfl
    | auto => obtain ⟨r, x, y, hp, -⟩ := shape.single nofun; dsimp only at hp; subst hp; rfl
    | homing => obtain ⟨r, x, y, hp, -⟩ := shape.single nofun; dsimp only at hp; subst hp; rfl

theorem State.endEvent_tagless (s : State) (m : MoveRecord) (o : MoveOutcome) : s.eventTag (m.endEvent o).2 = none := by
  unfold MoveRecord.endEvent
  split <;> rfl

/-- The end of a move (R79, R84, R116). -/
theorem State.moveEnd_ended {s : State} {m : MoveRecord} (h : s.engine.record = some m) (shape : m.Shape) (o : MoveOutcome) :
    m.Ended o s (s.moveEnd o) := by
  have apart := State.moveEnd_apart h o
  unfold State.moveEnd at apart ⊢
  simp only [h] at apart ⊢
  set b := (({ s with engine := { s.engine with record := some { m with outcome := some o } } } : State).adoptPlan m o) with hb
  have adopted : b = { s with
      engine := { s.engine with record := some { m with outcome := some o } }
      map := { s.map with active := b.map.active, diverged := b.map.diverged } } := by
    rw [hb, State.adoptPlan_map]
  rw [State.postEnd_reported shape] at apart ⊢
  set v := (b.post (m.endEvent o).1 (m.endEvent o).2 (word16 o.code)).engineRests with hv
  have rests : v.events = b.events.post (m.endEvent o).1 (m.endEvent o).2 none (word16 o.code) s.now ∧
      v.map = b.map ∧ v.store = s.store ∧ v.spreader.lastEnd = some s.now := by
    rw [hv, State.engineRests, State.releaseHolds_eq, State.post, State.endEvent_tagless, adopted]
    exact ⟨rfl, rfl, rfl, rfl⟩
  obtain ⟨events, map, store, lastEnd⟩ := rests
  refine ⟨apart.engine, ?_, ?_, fun c hc w => ?_, fun batch done => ?_, fun single => ?_⟩
  · rw [State.askRetest_frame]; exact lastEnd
  · rw [State.askRetest_frame]
    show EventQueue.Reports _ _ _ _ _ v.events
    rw [events, adopted]
    cases o <;> exact .one _ _ _ _ _
  · exact State.askRetest_due (by rw [store]; exact hc) w
  · rw [State.askRetest_frame]
    show v.map.active = _ ∧ v.map.diverged = _
    rw [map, hb, State.adoptPlan, if_pos (by simp [MoveRecord.isBatch, batch, done])]
    exact ⟨rfl, rfl⟩
  · rw [State.askRetest_frame]
    show v.map.active = _
    have kept : (m.isBatch && decide (o = .done)) = false := by
      rcases single with q | q <;> simp [MoveRecord.isBatch, q]
    rw [map, hb, State.adoptPlan, if_neg (by simp [kept])]

end Sys2Proof.Machine
end

section
namespace Sys2Proof.Machine

/-! ### Remotes leave the phase set -/

/-- The phase set without these remotes. -/
def Engine.remaining (e : Engine) (gone : List RemoteId) : List RemoteId := e.phaseSet.filter fun z => decide (z ∉ gone)

/-- These remotes have left the phase set, and nothing else has happened to the engine: with none left FADE-OUT has become
SWITCH-PENDING, and a move in FADE-IN or RECOVERING has ended. -/
structure Leaving (gone : List RemoteId) (s t : State) : Prop where
  rests : s.engine.phaseSet = [] ∨ s.engine.remaining gone ≠ [] ∨ s.engine.state = .fadeOut → Rests s t
  goes : s.engine.phaseSet = [] ∨ s.engine.remaining gone ≠ [] →
    t.engine = { s.engine with phaseSet := s.engine.remaining gone }
  pends : s.engine.phaseSet ≠ [] → s.engine.remaining gone = [] → s.engine.state = .fadeOut →
    t.engine = { s.engine with phaseSet := [], state := .switchPending }
  ends : s.engine.phaseSet ≠ [] → s.engine.remaining gone = [] → s.engine.state = .fadeIn ∨ s.engine.state = .recovering →
    ∀ m, s.engine.record = some m → m.Shape → m.Ended (if s.engine.state = .fadeIn then .done else .aborted) s t

theorem Engine.remaining_of_disjoint {e : Engine} {gone : List RemoteId} (h : ∀ z ∈ e.phaseSet, z ∉ gone) :
    e.remaining gone = e.phaseSet := List.filter_eq_self.mpr fun z hz => decide_eq_true (h z hz)

theorem Engine.remaining_nil {e : Engine} (h : e.phaseSet = []) (gone : List RemoteId) : e.remaining gone = [] := by
  rw [Engine.remaining, h]; rfl

namespace Leaving

variable {g g' : List RemoteId} {s t u : State}

/-- Nothing has happened to the engine. -/
theorem still (h : Rests s t) (engine : t.engine = s.engine) : Leaving [] s t := by
  have all : s.engine.remaining [] = s.engine.phaseSet := Engine.remaining_of_disjoint fun _ _ => List.not_mem_nil
  exact ⟨fun _ => h, fun _ => by rw [engine, all], fun some k => absurd (all.symm.trans k) some,
    fun some k => absurd (all.symm.trans k) some⟩

/-- Only the members of the phase set count. -/
theorem congr (h : Leaving g s t) (same : ∀ z ∈ s.engine.phaseSet, z ∈ g ↔ z ∈ g') : Leaving g' s t := by
  have left : s.engine.remaining g' = s.engine.remaining g := List.filter_congr fun z hz =>
    decide_eq_decide.mpr (not_congr (same z hz).symm)
  obtain ⟨rests, goes, pends, ends⟩ := h
  refine ⟨?_, ?_, ?_, ?_⟩ <;> rw [left] <;> assumption

/-- An empty phase set stands. -/
theorem idle (h : Leaving g s t) (k : s.engine.phaseSet = []) : Rests s t ∧ t.engine = s.engine := by
  refine ⟨h.rests (.inl k), ?_⟩
  rw [h.goes (.inl k), Engine.remaining_nil k, ← k]

theorem trans (h : Leaving g s t) (k : Leaving g' t u) : Leaving (g ++ g') s u := by
  have both : ∀ e : Engine, e.remaining (g ++ g') = (e.remaining g).filter fun z => decide (z ∉ g') := fun e => by
    rw [Engine.remaining, Engine.remaining, List.filter_filter]
    exact List.filter_congr fun z _ => by simp [Bool.and_comm]
  by_cases empty : s.engine.phaseSet = []
  · obtain ⟨first, same⟩ := h.idle empty
    obtain ⟨second, same'⟩ := k.idle (by rw [same]; exact empty)
    have nil := Engine.remaining_nil empty (g ++ g')
    exact ⟨fun _ => first.trans second, fun _ => by rw [same', same, nil, ← empty], fun some => absurd empty some,
      fun some => absurd empty some⟩
  by_cases left : s.engine.remaining g = []
  · have gone : s.engine.remaining (g ++ g') = [] := by rw [both, left]; rfl
    refine ⟨fun q => ?_, fun q => absurd gone (q.resolve_left empty), fun _ _ fades => ?_, fun _ _ after m hm shape => ?_⟩
    · have fades := (q.resolve_left empty).resolve_left (not_not.mpr gone)
      have pending := h.pends empty left fades
      exact (h.rests (.inr (.inr fades))).trans (k.idle (by rw [pending])).1
    · have pending := h.pends empty left fades
      exact (k.idle (by rw [pending])).2.trans pending
    · have ended := h.ends empty left after m hm shape
      obtain ⟨second, same⟩ := k.idle (by rw [ended.engine])
      exact ended.after second same
  · have goes := h.goes (.inr left)
    have first := h.rests (.inr (.inl left))
    have rest : t.engine.remaining g' = s.engine.remaining (g ++ g') := by rw [both, goes]; rfl
    have phase : t.engine.phaseSet ≠ [] := by rw [goes]; exact left
    have state : t.engine.state = s.engine.state := by rw [goes]
    have record : t.engine.record = s.engine.record := by rw [goes]
    refine ⟨fun q => first.trans (k.rests (.inr ?_)), fun q => ?_, fun _ none fades => ?_, fun _ none after m hm shape => ?_⟩
    · rw [rest, state]; exact q.resolve_left empty
    · rw [k.goes (.inr (by rw [rest]; exact q.resolve_left empty)), rest, goes]
    · rw [k.pends phase (rest.trans none) (state.trans fades), goes]
    · have ended := k.ends phase (rest.trans none) (by rw [state]; exact after) m (record.trans hm) shape
      rw [state] at ended
      exact ended.before first

theorem after_rests (h : Rests s t) (engine : t.engine = s.engine) (k : Leaving g t u) : Leaving g s u :=
  (still h engine).trans k

end Leaving

/-- One remote leaves the phase set (R77, R79, R84, R86). -/
theorem State.leavePhase_leaving (s : State) (r : RemoteId) : Leaving [r] s (s.leavePhase r) := by
  have left : s.engine.remaining [r] = s.engine.phaseSet.filter fun z => decide (z ≠ r) :=
    List.filter_congr fun z _ => by simp
  unfold State.leavePhase
  split
  swap
  · rename_i out
    have out : r ∉ s.engine.phaseSet := by simpa using out
    exact (Leaving.still (.refl s) rfl).congr fun z hz => by simp [show z ≠ r from fun k => out (k ▸ hz)]
  rename_i member
  have some : s.engine.phaseSet ≠ [] := List.ne_nil_of_mem (by simpa using member)
  simp only
  rw [← left]
  set a : State := { s with engine := { s.engine with phaseSet := s.engine.remaining [r] } } with ha
  have begun : Rests s a := ⟨rfl, rfl, rfl, rfl, id, .refl _ _⟩
  split
  · rename_i none
    have none : s.engine.remaining [r] = [] := by simpa using none
    refine ⟨fun q => ?_, fun q => absurd none (q.resolve_left some), fun _ _ fades => ?_, fun _ _ after m hm shape => ?_⟩
    · have fades : a.engine.state = .fadeOut := (q.resolve_left some).resolve_left (not_not.mpr none)
      rw [State.phaseDone, fades]
      exact ⟨rfl, rfl, rfl, rfl, id, .refl _ _⟩
    · have fades : a.engine.state = .fadeOut := fades
      rw [State.phaseDone, fades, ha, none]
    · rcases after with q | q
      · rw [if_pos q, State.phaseDone_fadeIn (s := a) q]
        exact (State.moveEnd_ended (s := a) hm shape .done).before begun
      · rw [if_neg (by rw [q]; nofun), State.phaseDone_recovering (s := a) q]
        exact (State.moveEnd_ended (s := a) hm shape .aborted).before begun
  · rename_i some'
    have some' : s.engine.remaining [r] ≠ [] := by simpa using some'
    exact ⟨fun _ => begun, fun _ => rfl, fun _ none => absurd none some', fun _ none => absurd none some'⟩

/-! ### Recomputes and completions -/

theorem State.beginRamp_rests (s : State) (r : RemoteId) : Rests s (s.beginRamp r) :=
  ⟨rfl, rfl, rfl, rfl, id, .refl _ _⟩

theorem State.reevalBoosts_rests (s : State) (ys : List RemoteId) :
    Rests s (s.reevalBoosts ys).1 ∧ (s.reevalBoosts ys).1.engine = s.engine := by
  suffices all : ∀ (ys acc : List RemoteId) (t : State), Rests s t → t.engine = s.engine →
      let p := (ys.foldl (fun (acc : State × List RemoteId) y =>
        let (s, ch) := acc.1.reevalBoost y
        (s, if ch then acc.2 ++ [y] else acc.2)) (t, acc)).1
      Rests s p ∧ p.engine = s.engine from all ys [] s (.refl s) rfl
  intro ys
  induction ys with
  | nil => exact fun _ _ h k => ⟨h, k⟩
  | cons y ys ih =>
    exact fun acc t h k => ih _ _ (h.trans (show Rests t (t.reevalBoost y).1 from ⟨rfl, rfl, rfl, rfl, id, .refl _ _⟩)) k

theorem State.evalSector_rests (s : State) (o : Option SectorId) :
    Rests s (s.evalSector o) ∧ (s.evalSector o).engine = s.engine := by
  cases o with
  | none => exact ⟨.refl s, rfl⟩
  | some x =>
    have parts : (s.evalDegraded true x).spreader = s.spreader ∧ (s.evalDegraded true x).map = s.map ∧
        (s.evalDegraded true x).engine = s.engine := by
      unfold State.evalDegraded
      simp only
      split
      · exact ⟨rfl, rfl, rfl⟩
      · split <;> exact ⟨rfl, rfl, rfl⟩
    obtain ⟨spreader, map, engine⟩ := parts
    exact ⟨.of_settles (s.evalDegraded_settles x) spreader map (s.evalDegraded_boundary true x), engine⟩

theorem State.engineRecompute_leaving {s : State} {r : RemoteId} (out : r ∉ s.engine.phaseSet) :
    Leaving [] s (s.engineRecompute r) := by
  have begun := s.beginRamp_rests r
  unfold State.engineRecompute
  simp only
  split
  · refine (Leaving.after_rests begun rfl (State.leavePhase_leaving _ r)).congr fun z hz => ?_
    simp [show z ≠ r from fun k => out (k ▸ hz)]
  · exact .still begun rfl

section Completions

variable {s : State} {T J F : List RemoteId} {e : Bool}

theorem State.Owes.joined_leaving {r : RemoteId} (h : s.Owes ⟨[], T, r :: J, [], F, e⟩) (joining : s.health r = .joining)
    (out : r ∉ s.engine.phaseSet) : Leaving [] s (s.joined r) := by
  have served : Rests s (s.serve r) :=
    .of_settles (s.serveNow_settles r joining) rfl rfl rfl
  obtain ⟨boosted, same⟩ := (s.serve r).reevalBoosts_rests ((s.serve r).concerned r)
  obtain ⟨evaluated, same'⟩ := (s.served r).1.evalSector_rests (s.sectorOf r)
  have engine : ((s.served r).1.evalSector (s.sectorOf r)).engine = s.engine := same'.trans same
  rw [h.joined_alone joining]
  exact .after_rests ((served.trans boosted).trans evaluated) engine
    (State.engineRecompute_leaving (by rw [engine]; exact out))

/-- A completion notice takes the remote out of the phase set, and does nothing more to the engine (R35). -/
theorem State.Owes.completion_leaving {r : RemoteId} (h : s.Owes ⟨[], T, r :: J, [], F, e⟩) :
    Leaving [r] s (s.completion r) := by
  have left := s.leavePhase_leaving r
  unfold State.completion State.engineNotice
  simp only
  split
  · rename_i k
    simp only [Bool.and_eq_true, decide_eq_true_eq] at k
    exact (left.trans ((h.leavePhase r).joined_leaving k.1 (State.not_mem_leavePhase s r))).congr fun z _ => by simp
  · exact left

theorem State.Owes.completions_leaving (rs : List RemoteId) : ∀ {s : State}, s.Owes ⟨[], [], rs, [], F, e⟩ →
    Leaving rs s (rs.foldl State.completion s) := by
  induction rs with
  | nil => exact fun _ => .still (.refl _) rfl
  | cons r rs ih => exact fun h => (h.completion_leaving).trans (ih h.completion)

end Completions

end Sys2Proof.Machine
end

section
namespace Sys2Proof.Machine

/-! ### The end of JOINING at a ramp step (R33, R125) -/

/-- Healths stay, and a remote that is not held is not held afterwards. -/
def HealthsKept (s t : State) : Prop :=
  ∀ x, t.health x = s.health x ∧ ((s.supRec x).held = false → (t.supRec x).held = false)

theorem HealthsKept.of_sup {s t : State} (h : t.sup = s.sup) : HealthsKept s t := fun x =>
  ⟨congrArg SupRecord.health (State.supRec_congr h x), fun k => by rw [State.supRec_congr h]; exact k⟩

theorem HealthsKept.trans {s t u : State} (h : HealthsKept s t) (k : HealthsKept t u) : HealthsKept s u := fun x =>
  ⟨(k x).1.trans (h x).1, fun q => (k x).2 ((h x).2 q)⟩

theorem State.moveEnd_healthsKept (s : State) (o : MoveOutcome) : HealthsKept s (s.moveEnd o) := by
  cases hm : s.engine.record with
  | none => rw [show s.moveEnd o = s by rw [State.moveEnd, hm]]; exact .of_sup rfl
  | some m =>
    have released : HealthsKept s { s.releaseHolds with engine := Engine.idle } := fun x => by
      have record : s.releaseHolds.supRec x = if x ∈ s.engine.holdSet then { s.supRec x with held := false } else s.supRec x :=
        State.supRec_tellHeld _ _ _ _
      refine ⟨(congrArg SupRecord.health record).trans ?_, fun k => (congrArg SupRecord.held record).trans ?_⟩
      · split <;> rfl
      · split
        · rfl
        · exact k
    have apart := State.moveEnd_apart hm o
    exact released.trans fun x => ⟨apart.health x, fun k => (apart.held x).trans k⟩

theorem State.leavePhase_healthsKept (s : State) (r : RemoteId) : HealthsKept s (s.leavePhase r) := by
  unfold State.leavePhase
  split
  swap
  · exact .of_sup rfl
  simp only
  split
  swap
  · exact .of_sup rfl
  unfold State.phaseDone
  split
  · exact .of_sup rfl
  · exact (HealthsKept.of_sup rfl).trans (State.moveEnd_healthsKept _ _)
  · exact (HealthsKept.of_sup rfl).trans (State.moveEnd_healthsKept _ _)
  · exact .of_sup rfl

theorem State.reevalBoosts_healthsKept (s : State) (ys : List RemoteId) : HealthsKept s (s.reevalBoosts ys).1 := by
  suffices all : ∀ (ys acc : List RemoteId) (t : State), HealthsKept s t →
      HealthsKept s (ys.foldl (fun (acc : State × List RemoteId) y =>
        let (s, ch) := acc.1.reevalBoost y
        (s, if ch then acc.2 ++ [y] else acc.2)) (t, acc)).1 from all ys [] s (.of_sup rfl)
  intro ys
  induction ys with
  | nil => exact fun _ _ h => h
  | cons y ys ih =>
    refine fun acc t h => ih _ _ (h.trans fun x => ?_)
    have record : (t.reevalBoost y).1.supRec x = _ := State.supRec_modSup ..
    refine ⟨(congrArg SupRecord.health record).trans ?_, fun k => (congrArg SupRecord.held record).trans ?_⟩
    · split
      · rename_i own; rw [own]; rfl
      · rfl
    · split
      · rename_i own; rw [own]; exact k
      · exact k

theorem State.evalSector_healthsKept (s : State) (o : Option SectorId) : HealthsKept s (s.evalSector o) := by
  cases o with
  | none => exact .of_sup rfl
  | some x =>
    have records : (s.evalDegraded true x).sup.records = s.sup.records := by
      unfold State.evalDegraded
      simp only
      split
      · rfl
      · split <;> rfl
    have same : ∀ z, (s.evalDegraded true x).supRec z = s.supRec z := fun z => by rw [State.supRec, records]; rfl
    exact fun z => ⟨congrArg SupRecord.health (same z), fun k => (congrArg SupRecord.held (same z)).trans k⟩

theorem State.engineRecompute_healthsKept (s : State) (r : RemoteId) : HealthsKept s (s.engineRecompute r) := by
  have begun : HealthsKept s (s.beginRamp r) := .of_sup rfl
  unfold State.engineRecompute
  simp only
  split
  · exact begun.trans (State.leavePhase_healthsKept _ _)
  · exact begun

theorem HealthsKept.foldl {α : Type} {f : State → α → State} (h : ∀ s a, HealthsKept s (f s a)) (xs : List α) (s : State) :
    HealthsKept s (xs.foldl f s) := by
  induction xs generalizing s with
  | nil => exact .of_sup rfl
  | cons a xs ih => exact (h s a).trans (ih _)

/-- What follows the end of JOINING changes no health. -/
theorem State.joined_healthsKept (s : State) (r : RemoteId) : HealthsKept (s.serve r) (s.joined r) := by
  rw [State.joined_eq]
  exact (((s.serve r).reevalBoosts_healthsKept _).trans (State.evalSector_healthsKept _ _)).trans
    (.foldl State.engineRecompute_healthsKept _ _)

/-- The health that ends JOINING: IMPAIRED with an alarm active, else SERVING (R125). -/
def SupRecord.joinsAs (v : SupRecord) : Health := if v.alarms.active then .impaired else .serving

theorem State.serve_others {s : State} {r x : RemoteId} (h : x ≠ r) : (s.serve r).supRec x = s.supRec x :=
  State.supRec_modSup_ne s _ h

/-- A completion notice of a remote that is JOINING and not held ends JOINING (R35, R125). -/
theorem State.completion_joins {s : State} {r : RemoteId} (joining : s.health r = .joining) (free : (s.supRec r).held = false) :
    (s.completion r).health r = (s.supRec r).joinsAs := by
  obtain ⟨health, held⟩ := s.leavePhase_healthsKept r r
  set u := s.leavePhase r with hu
  have alarms : (u.supRec r).alarms = (s.supRec r).alarms := by rw [((s.leavePhase_settles r).sup r).rest]
  have ends : (decide (u.health r = .joining) && !(u.supRec r).held) = true := by simp [health, joining, held free]
  have whole : s.completion r = u.joined r := if_pos ends
  have serves : (u.serve r).health r = if (u.supRec r).alarms.active then .impaired else .serving :=
    congrArg SupRecord.health (State.supRec_modSup_self u r _)
  rw [whole, (u.joined_healthsKept r r).1, serves, alarms]
  rfl

/-- A completion notice of another remote leaves it JOINING and not held. -/
theorem State.completion_other {s : State} {r x : RemoteId} (h : x ≠ r) (joining : s.health r = .joining)
    (free : (s.supRec r).held = false) :
    (s.completion x).health r = .joining ∧ ((s.completion x).supRec r).held = false := by
  obtain ⟨health, held⟩ := s.leavePhase_healthsKept x r
  unfold State.completion State.engineNotice
  simp only
  split
  · obtain ⟨health', held'⟩ := (s.leavePhase x).joined_healthsKept x r
    have same := State.serve_others (s := s.leavePhase x) (Ne.symm h)
    refine ⟨health'.trans ((congrArg SupRecord.health same).trans (health.trans joining)), held' ?_⟩
    exact (congrArg SupRecord.held same).trans (held free)
  · exact ⟨health.trans joining, held free⟩

/-- Every remote in the list that is JOINING and not held joins. -/
theorem State.completions_join (rs : List RemoteId) {r : RemoteId} : ∀ {s : State}, r ∈ rs → s.health r = .joining →
    (s.supRec r).held = false → (rs.foldl State.completion s).health r = (s.supRec r).joinsAs := by
  induction rs with
  | nil => exact fun h => nomatch h
  | cons x rs ih =>
    intro s member joining free
    have alarms : ((s.completion x).supRec r).alarms = (s.supRec r).alarms := by
      rw [((s.completion_settles x).sup r).rest]
    by_cases own : x = r
    · subst own
      have joined := State.completion_joins joining free
      have serves : ((s.completion x).health x).serves = true := by
        rw [joined, SupRecord.joinsAs]; split <;> rfl
      exact ((Settles.foldl State.completion_settles rs (s.completion x)).serves x serves).trans joined
    · obtain ⟨joining', free'⟩ := State.completion_other own joining free
      rw [List.foldl_cons, ih ((List.mem_cons.mp member).resolve_left fun k => own k.symm) joining' free', SupRecord.joinsAs,
        SupRecord.joinsAs, alarms]

/-! ### The ramp step -/

theorem State.ramped_eq (s : State) : s.ramped = { s with dist := { s.dist with ramps := s.dist.ramps.map fun p =>
    ⟨p.moved s.settings.rampStep, p.target, p.done || decide (p.moved s.settings.rampStep = p.target)⟩ } } := by
  have step : (fun p : Ramp => p.step s.settings.rampStep) = fun p =>
      ⟨p.moved s.settings.rampStep, p.target, p.done || decide (p.moved s.settings.rampStep = p.target)⟩ :=
    funext fun p => by rw [Ramp.step_eq]; cases p.done <;> rfl
  rw [State.ramped, step]

theorem State.mem_completing_iff {s : State} {r : RemoteId} (moving : (s.ramp r).done = false) :
    r ∈ s.completing ↔ (s.ramp r).moved s.settings.rampStep = (s.ramp r).target := by
  rw [State.mem_completing, Ramp.step_eq]
  simp [moving]

/-- What a ramp step does to the Move Engine under the laws (R77, R79, R82, R84, R86). -/
theorem State.Settled.rampStep_leaving {s : State} (h : s.Settled) : Leaving s.completing s s.rampStep :=
  .after_rests (t := s.ramped) ⟨rfl, rfl, rfl, rfl, id, .refl _ _⟩ rfl (h.ramped.completions_leaving _)

theorem State.rampStep_settles (s : State) : Settles s.ramped s.rampStep := .foldl State.completion_settles _ _

/-- Settles O38: the ramps have moved (`State.ramped_eq`), their completions settle (`State.completion_settles`), and to the
engine they are remotes that leave the phase set (`Leaving`). -/
theorem rampStepMovesEveryRamp : Obligations.RampStepMovesEveryRamp := by
  intro s due
  set b := s.unDue .rampStep with hb
  refine ⟨b.rampStep, congrArg Host.Outcome.next (State.takeDue_of_due _ due), ?_⟩
  have settles := b.rampStep_settles
  have ramp : ∀ r, b.ramped.ramp r = (s.ramp r).step s.settings.rampStep := b.ramp_ramped
  have present : ∀ r, (b.rampStep.ramp r).present = (s.ramp r).moved s.settings.rampStep := fun r => by
    rw [settles.present r, ramp, Ramp.step_eq]
  refine ⟨?_, present, fun r joining free moving arrived => ?_, fun lawful moves supervision => ?_⟩
  · rw [State.ramped_eq] at settles; exact settles
  · have member : r ∈ b.completing := (State.mem_completing_iff (s := b) moving).mpr arrived
    have health : b.rampStep.health r = (s.supRec r).joinsAs := State.completions_join _ member joining free
    have serves : (b.rampStep.health r).serves = true := by rw [health, SupRecord.joinsAs]; split <;> rfl
    have reported := settles.joins r joining serves
    rw [health] at reported ⊢
    refine ⟨rfl, ?_⟩
    have bad : (s.supRec r).alarms.active = ((s.supRec r).alarms.outA != (s.supRec r).alarms.outB || (s.supRec r).alarms.hot) := rfl
    rw [← bad]
    unfold SupRecord.joinsAs at reported
    cases hbad : (s.supRec r).alarms.active <;> rw [hbad] at reported <;> exact reported
  · have settled : s.Settled := (State.settled_iff s).mpr ⟨lawful, moves, supervision⟩
    have leaving := State.Settled.rampStep_leaving (settled.apart (s.unDue_apart .rampStep))
    have left : s.engine.remaining b.completing =
        s.engine.phaseSet.filter fun r => decide ((s.ramp r).moved s.settings.rampStep ≠ (s.ramp r).target) :=
      List.filter_congr fun r hr => decide_eq_decide.mpr (not_congr
        (State.mem_completing_iff (s := b) (settled.ramps.ramping r nofun hr)))
    have waiting := settled.engine.waiting rfl
    obtain ⟨-, phaseless, -⟩ := lawful
    have begun : Rests s b := ⟨rfl, rfl, rfl, rfl, fun k => State.mem_unDue.mpr ⟨k, nofun⟩, .refl _ _⟩
    have leaving := Leaving.after_rests begun rfl leaving
    intro gone
    have same : gone = s.engine.remaining b.completing := left.symm
    clear_value gone
    subst same
    refine ⟨fun rests => (leaving.idle (phaseless rests)).2, fun fades => ?_, fun m hm after => ⟨fun some => ?_, fun none => ?_⟩⟩
    · by_cases none : s.engine.remaining b.completing = []
      · rw [if_pos none, none]
        exact leaving.pends (waiting (.inl fades)) none fades
      · rw [if_neg none, leaving.goes (.inr none), ← fades]
    · exact leaving.goes (.inr some)
    · exact leaving.ends (waiting (.inr after)) none after m hm (settled.engine.shape m hm)

end Sys2Proof.Machine
end

section
namespace Sys2Proof.Machine

/-! ### Recomputes of remotes that are not JOINING (R32) -/

/-- With nothing held the end of a move changes neither ramps nor records, and leaves nothing held. -/
theorem State.moveEnd_frame {s : State} (free : s.engine.holdSet = []) (o : MoveOutcome) :
    (s.moveEnd o).dist = s.dist ∧ (s.moveEnd o).sup = s.sup ∧ (s.moveEnd o).engine.holdSet = [] := by
  unfold State.moveEnd
  split
  · exact ⟨rfl, rfl, free⟩
  · rename_i m hm
    rw [State.askRetest_frame, State.postEnd_events, State.adoptPlan_map, State.engineRests, State.releaseHolds]
    simp only [free]
    exact ⟨rfl, rfl, rfl⟩

/-- A remote that leaves the phase set changes neither ramps nor records nor holds. -/
theorem State.leavePhase_frame {s : State} (lawful : s.engine.lawful) (r : RemoteId) :
    (s.leavePhase r).dist = s.dist ∧ (s.leavePhase r).sup = s.sup ∧
      (s.leavePhase r).engine.holdSet = s.engine.holdSet := by
  obtain ⟨-, -, holdless⟩ := lawful
  unfold State.leavePhase
  split
  swap
  · exact ⟨rfl, rfl, rfl⟩
  simp only
  split
  swap
  · exact ⟨rfl, rfl, rfl⟩
  set a : State := { s with engine := { s.engine with phaseSet := s.engine.phaseSet.filter fun x => decide (x ≠ r) } } with ha
  have ended : s.engine.holdSet = [] → ∀ o, (a.moveEnd o).dist = s.dist ∧ (a.moveEnd o).sup = s.sup ∧
      (a.moveEnd o).engine.holdSet = s.engine.holdSet := fun free o => by
    obtain ⟨dist, sup, holds⟩ := State.moveEnd_frame (s := a) free o
    exact ⟨dist, sup, holds.trans free.symm⟩
  unfold State.phaseDone
  split
  · exact ⟨rfl, rfl, rfl⟩
  · rename_i k; exact ended (holdless (.inr (.inl k))) _
  · rename_i k; exact ended (holdless (.inr (.inr k))) _
  · exact ⟨rfl, rfl, rfl⟩

/-- The ramp that begins where r is computed again. -/
def State.rampOf (s : State) (r : RemoteId) : Ramp :=
  ⟨(s.ramp r).present, s.targetOf r, decide ((s.ramp r).present = s.targetOf r)⟩

section Recomputes

variable {s : State} {r : RemoteId}

theorem State.recompute_calm (calm : s.health r ≠ .joining) :
    s.recompute r = if (s.rampOf r).done then (s.beginRamp r).leavePhase r else s.beginRamp r := by
  have done : ((s.beginRamp r).ramp r) = s.rampOf r := by rw [State.ramp_beginRamp, if_pos rfl]; rfl
  have kept : ((s.beginRamp r).leavePhase r).health r ≠ .joining := by
    rw [((s.beginRamp r).leavePhase_healthsKept r r).1]; exact calm
  unfold State.recompute State.completion State.engineNotice
  simp only [done, kept, decide_false, Bool.false_and, Bool.false_eq_true, if_false]

/-- What the recompute of a remote that is not JOINING leaves, and what it reads of the others. -/
theorem State.recompute_parts (lawful : s.engine.lawful) (calm : s.health r ≠ .joining) :
    (∀ x, (s.recompute r).ramp x = if r = x then s.rampOf r else s.ramp x) ∧ (s.recompute r).sup = s.sup ∧
      (s.recompute r).engine.lawful ∧ (∀ x, (s.recompute r).targetOf x = s.targetOf x) ∧
      Leaving (if (s.rampOf r).done then [r] else []) s (s.recompute r) := by
  have begun := s.beginRamp_rests r
  obtain ⟨dist, sup, holds⟩ := (show (s.beginRamp r).engine.lawful from lawful) |> fun k => State.leavePhase_frame k r
  have target : ∀ t : State, t.sup = s.sup → t.engine.holdSet = s.engine.holdSet → (∀ x, t.live x = s.live x) →
      ∀ x, t.targetOf x = s.targetOf x := fun t sup holds live x =>
    State.targetOf_congr (congrArg Health.inService (congrArg SupRecord.health (State.supRec_congr sup x))) (by rw [holds])
      (by rw [State.supRec_congr sup]) (by rw [State.supRec_congr sup]) (by rw [live])
  have ramps : ∀ t : State, t.dist = (s.beginRamp r).dist → ∀ x, t.ramp x = if r = x then s.rampOf r else s.ramp x :=
    fun t dist x => by rw [State.ramp, dist, ← State.ramp, State.ramp_beginRamp]; rfl
  rw [State.recompute_calm calm]
  split
  · exact ⟨ramps _ dist, sup, ((s.beginRamp r).leavePhase_quiet r).engine lawful,
      target _ sup holds ((State.leavePhase_settles _ r).live), .after_rests begun rfl (State.leavePhase_leaving _ r)⟩
  · exact ⟨ramps _ rfl, rfl, lawful, fun _ => rfl, .still begun rfl⟩

/-- The recomputes of several remotes, none of them JOINING: each begins its ramp from the targets at the start, and those
complete at once leave the phase set. -/
theorem State.recomputeAll_parts (rs : List RemoteId) : ∀ {s : State}, s.engine.lawful → (∀ x ∈ rs, s.health x ≠ .joining) →
    (∀ x, (s.recomputeAll rs).ramp x = if x ∈ rs then s.rampOf x else s.ramp x) ∧
      Leaving (rs.filter fun x => (s.rampOf x).done) s (s.recomputeAll rs) := by
  induction rs with
  | nil => exact fun _ _ => ⟨fun _ => rfl, .still (.refl _) rfl⟩
  | cons r rs ih =>
    intro s lawful calm
    obtain ⟨ramps, sup, lawful', targets, leaving⟩ := State.recompute_parts lawful (calm r List.mem_cons_self)
    have same : ∀ x, (s.recompute r).rampOf x = s.rampOf x := fun x => by
      have present : ((s.recompute r).ramp x).present = (s.ramp x).present := (s.recompute_settles r).present x
      rw [State.rampOf, State.rampOf, present, targets]
    obtain ⟨rest, leaving'⟩ := ih lawful' fun x hx => by
      rw [State.health, State.supRec_congr sup]; exact calm x (List.mem_cons_of_mem _ hx)
    refine ⟨fun x => ?_, ?_⟩
    · rw [State.recomputeAll, List.foldl_cons, ← State.recomputeAll, rest, same, ramps]
      by_cases member : x ∈ rs
      · simp [member]
      · by_cases own : r = x
        · subst own; simp [member]
        · simp [member, own, Ne.symm own]
    · simp only [same] at leaving'
      refine (leaving.trans leaving').congr fun z _ => ?_
      by_cases done : (s.rampOf r).done = true <;> simp [done]

end Recomputes

/-! ### A settled health change, seen from the Move Engine -/

/-- No remote that is JOINING is boosted (R134). -/
def State.JoinersUnboosted (s : State) : Prop := ∀ y, s.health y = .joining → (s.supRec y).boost = 0

theorem State.Owes.joinersUnboosted {s : State} (h : s.Settled) : s.JoinersUnboosted := fun y joining => by
  rw [h.boosts.boost y nofun, h.boosts.sources y nofun, State.sourcesOf, if_neg (by rw [joining]; decide)]
  exact ite_self 0

/-- So an evaluation of boosts changes none of theirs (R135). -/
theorem State.JoinersUnboosted.reevalBoosts {s : State} (h : s.JoinersUnboosted) (ys : List RemoteId) :
    ∀ y ∈ (s.reevalBoosts ys).2, s.health y ≠ .joining := by
  suffices all : ∀ (ys acc : List RemoteId) (t : State), (∀ x, t.health x = s.health x) → t.JoinersUnboosted →
      (∀ y ∈ acc, s.health y ≠ .joining) → ∀ y ∈ (ys.foldl (fun (acc : State × List RemoteId) y =>
        let (s, ch) := acc.1.reevalBoost y
        (s, if ch then acc.2 ++ [y] else acc.2)) (t, acc)).2, s.health y ≠ .joining from
    all ys [] s (fun _ => rfl) h (by simp)
  intro ys
  induction ys with
  | nil => exact fun _ _ _ _ k => k
  | cons y ys ih =>
    intro acc t health free k
    have record : ∀ x, (t.reevalBoost y).1.supRec x = if y = x then
        { t.supRec x with sources := t.sourcesOf y, boost := t.appliedBoost y (t.sourcesOf y) } else t.supRec x := fun x => by
      refine (State.supRec_modSup t y x _).trans ?_
      split
      · rename_i own; rw [own]
      · rfl
    have kept : ∀ x, (t.reevalBoost y).1.health x = t.health x := fun x => by
      rw [State.health, record]; split <;> rfl
    have none : t.health y = .joining → t.appliedBoost y (t.sourcesOf y) = 0 := fun joining => by
      rw [State.sourcesOf, if_neg (by rw [joining]; decide)]
      exact ite_self 0
    refine ih _ _ (fun x => (kept x).trans (health x)) (fun x joining => ?_) fun x hx => ?_
    · have joining : t.health x = .joining := (kept x).symm.trans joining
      refine (congrArg SupRecord.boost (record x)).trans ?_
      split
      · rename_i own; subst own; exact none joining
      · exact free x joining
    · dsimp only at hx
      split at hx
      · rename_i changed
        rcases List.mem_append.mp hx with hx | hx
        · exact k x hx
        · rw [List.mem_singleton.mp hx]
          intro joining
          have joining : t.health y = .joining := (health y).trans joining
          have differs : t.appliedBoost y (t.sourcesOf y) ≠ (t.supRec y).boost := of_decide_eq_true changed
          exact differs ((none joining).trans (free y joining).symm)
      · exact k x hx

section Health

variable {s : State} {B : List RemoteId} {X : List SectorId} {F : List RemoteId} {r : RemoteId}

/-- The settling of a remote out of service: r leaves the phase set, and of the others those whose ramps are complete after
it (R84, R86). A fading remote that is held is not among them, for it moves toward 0 still (R80, R82). -/
theorem State.Owes.settleHealth_leaving (h : s.Owes ⟨B, [r], [r], X, F, false⟩) (joiners : s.JoinersUnboosted)
    (out : s.serviced r = false) : ∃ gone, Leaving gone s (s.settleHealth r) ∧
      (∀ z ∈ s.engine.phaseSet, z ∈ gone ↔ z = r ∨ ((s.settleHealth r).ramp z).done = true) ∧
      (∀ z ∈ s.engine.phaseSet, z ≠ r → z ∈ s.engine.holdSet → z ∉ gone) := by
  obtain ⟨boosted, engine1⟩ := s.reevalBoosts_rests (s.concerned r)
  have calm := joiners.reevalBoosts (s.concerned r)
  have kept1 := s.reevalBoosts_healthsKept (s.concerned r)
  have settles1 := s.reevalBoosts_settles (s.concerned r)
  have ramps1 : (s.reevalBoosts (s.concerned r)).1.dist = s.dist := by
    suffices all : ∀ (ys acc : List RemoteId) (t : State), t.dist = s.dist →
        (ys.foldl (fun (acc : State × List RemoteId) y =>
          let (s, ch) := acc.1.reevalBoost y
          (s, if ch then acc.2 ++ [y] else acc.2)) (t, acc)).1.dist = s.dist from all _ [] s rfl
    intro ys
    induction ys with
    | nil => exact fun _ _ k => k
    | cons y ys ih => exact fun acc t k => ih _ _ k
  set p := s.reevalBoosts (s.concerned r) with hp
  obtain ⟨evaluated, engine2⟩ := p.1.evalSector_rests (p.1.sectorOf r)
  have kept2 := p.1.evalSector_healthsKept (p.1.sectorOf r)
  have ramps2 : (p.1.evalSector (p.1.sectorOf r)).dist = p.1.dist := by
    cases p.1.sectorOf r with
    | none => rfl
    | some x =>
      unfold State.evalSector State.evalDegraded
      simp only
      split
      · rfl
      · split <;> rfl
  set q := p.1.evalSector (p.1.sectorOf r) with hq
  have health : ∀ x, q.health x = s.health x := fun x => (kept2 x).1.trans (kept1 x).1
  have engine : q.engine = s.engine := engine2.trans engine1
  have ramp : ∀ x, q.ramp x = s.ramp x := fun x => by rw [State.ramp, ramps2, ramps1]; rfl
  have outQ : q.serviced r = false := by rw [State.serviced, health]; exact out
  have whole : s.settleHealth r = q.recomputeAll (withFirst r p.2) := rfl
  obtain ⟨ramps, leaving⟩ := State.recomputeAll_parts (withFirst r p.2) (s := q) (by rw [engine]; exact h.engine.lawful)
    fun x hx => by
      rw [health]
      rcases List.mem_cons.mp hx with own | hx
      · intro joining
        rw [own] at joining
        rw [State.serviced, joining] at out
        cases out
      · exact calm x (List.mem_filter.mp hx).1
  rw [← whole] at ramps leaving
  have moving : ∀ z ∈ s.engine.phaseSet, z ≠ r → (s.ramp z).done = false := fun z hz hne =>
    h.ramps.ramping z (by simpa using hne) hz
  refine ⟨_, .after_rests (boosted.trans evaluated) engine leaving, fun z hz => ?_, fun z hz hne held member => ?_⟩
  · rw [List.mem_filter, ramps]
    by_cases own : z = r
    · have zero : (q.rampOf z).done = true := by
        have gain : (q.ramp z).present = 0 := by
          rw [ramp, own]; exact (h.ramps.present r).2 out
        rw [State.rampOf, gain, State.targetOf, own, outQ]
        rfl
      simp [own, withFirst, own ▸ zero]
    · by_cases member : z ∈ withFirst r p.2
      · simp [member, own]
      · simp [member, own, ramp, moving z hz own]
  · obtain ⟨-, done⟩ := List.mem_filter.mp member
    have target : q.targetOf z = 0 := State.targetOf_held (by rw [engine]; exact held)
    have aim : (s.ramp z).target = 0 := by
      rw [h.ramps.target z (by simpa using hne)]; exact State.targetOf_held held
    have still := (h.ramps.done z (by simpa using hne)).not.mp (by rw [moving z hz hne]; nofun)
    rw [State.rampOf, target, ramp] at done
    exact still (aim ▸ of_decide_eq_true done)

end Health

end Sys2Proof.Machine
end

section
namespace Sys2Proof.Machine

/-! ### A departure, seen from the Move Engine (R80, R82, R84, R86) -/

theorem Leaving.untouched {gone : List RemoteId} {s t : State} (h : Leaving gone s t) (k : ∀ z ∈ s.engine.phaseSet, z ∉ gone) :
    Rests s t ∧ t.engine = s.engine := by
  have all := Engine.remaining_of_disjoint k
  by_cases empty : s.engine.phaseSet = []
  · exact h.idle empty
  · have some : s.engine.remaining gone ≠ [] := by rw [all]; exact empty
    refine ⟨h.rests (.inr (.inl some)), ?_⟩
    rw [h.goes (.inr some), all]

section Departure

variable {s : State} {r : RemoteId} {m : MoveRecord}

theorem State.engineDeparture_none (h : s.engine.record = none) : s.engineDeparture r = s := by
  rw [State.engineDeparture, h]

theorem State.engineDeparture_single (h : s.engine.record = some m)
    (before : s.engine.state = .fadeOut ∨ s.engine.state = .switchPending) (single : m.kind ≠ .batch) :
    s.engineDeparture r = if r ∈ m.fading then s.moveEnd .abandoned else s := by
  have cond : (decide (s.engine.state = .fadeOut) || decide (s.engine.state = .switchPending)) = true := by simpa using before
  have not : m.isBatch = false := by simp [MoveRecord.isBatch, single]
  unfold State.engineDeparture
  simp only [h, cond, not, if_true, Bool.false_eq_true, if_false, List.contains_iff_mem]

theorem State.engineDeparture_after (h : s.engine.record = some m)
    (after : s.engine.state ≠ .fadeOut ∧ s.engine.state ≠ .switchPending) : s.engineDeparture r = s := by
  have cond : (decide (s.engine.state = .fadeOut) || decide (s.engine.state = .switchPending)) = false := by simpa using after
  unfold State.engineDeparture
  simp only [h, cond, Bool.false_eq_true, if_false]

/-- Healths and boosts are as before (a departure tells the engine, and no one else). -/
theorem State.engineDeparture_sup (h : s.engine.Orderly false) (x : RemoteId) :
    (s.engineDeparture r).health x = s.health x ∧ ((s.engineDeparture r).supRec x).boost = (s.supRec x).boost := by
  cases hm : s.engine.record with
  | none => rw [State.engineDeparture_none hm]; exact ⟨rfl, rfl⟩
  | some m =>
    by_cases before : s.engine.state = .fadeOut ∨ s.engine.state = .switchPending
    · by_cases batch : m.kind = .batch
      · rw [State.engineDeparture_batch h hm before batch]
        exact ⟨rfl, rfl⟩
      · rw [State.engineDeparture_single hm before batch]
        split
        · refine ⟨(s.moveEnd_healthsKept _ x).1, ((State.moveEnd_apart hm _).boost x).trans ?_⟩
          have record : s.releaseHolds.supRec x = if x ∈ s.engine.holdSet then { s.supRec x with held := false }
              else s.supRec x := State.supRec_tellHeld _ _ _ _
          refine (congrArg SupRecord.boost record).trans ?_
          split <;> rfl
        · exact ⟨rfl, rfl⟩
    · rw [State.engineDeparture_after hm (by simpa using before)]; exact ⟨rfl, rfl⟩

theorem State.abortPass_rests (s : State) (r : RemoteId) : Rests s (s.abortPass r) ∧ (s.abortPass r).engine = s.engine := by
  have retest : .retest ∈ s.boundary.due → .retest ∈ (s.abortPass r).boundary.due := fun k => by
    unfold State.abortPass State.endPass
    split
    · refine State.mem_unDue.mpr ⟨State.mem_unDue.mpr ⟨?_, nofun⟩, nofun⟩
      have same : ∀ (p : Response) (q : Option Pass), (((s.fillReserved (.pass r) p).setPass r q).withdraw r).boundary =
          s.boundary := fun p q => by simp [State.withdraw]
      rw [same]
      exact k
    · exact k
  have frame := s.abortPass_frame r
  refine ⟨⟨by rw [frame], by rw [frame], by rw [frame], by rw [State.now, frame]; rfl, retest, by rw [frame]; exact .refl _ _⟩,
    by rw [frame]⟩

/-- What the departure of a remote from service does to the engine under the laws. -/
theorem State.Settled.enterOut_follows (h : s.Settled) (serviced : s.serviced r = true) {k : Health}
    (out : k.inService = false) (vacant : k ≠ .vacant) (c : Option Cause) : EngineFollows r s (s.enterOut r k c) := by
  have present : s.health r ≠ .vacant := fun q => by rw [State.serviced, q] at serviced; cases serviced
  have begun : Rests s (s.departing r k c) :=
    ⟨rfl, rfl, rfl, rfl, fun q => State.mem_unDue.mpr ⟨q, nofun⟩, .refl _ _⟩
  have owes := (h.change r).departing present out vacant c
  set b := s.departing r k c with hb
  have engineB : b.engine = s.engine := rfl
  have told : s.departed r k c = b.engineDeparture r := if_pos serviced
  have paid := (h.change r).departed present out vacant c
  rw [told] at paid
  rw [State.enterOut_eq, told]
  have sup := State.engineDeparture_sup (s := b) (r := r) h.engine
  have records : ∀ x, b.supRec x = if r = x then { s.supRec x with health := k, cause := c, grace := none } else s.supRec x :=
    fun x => by
      refine (State.supRec_modSup s r x _).trans ?_
      split <;> rfl
  set d := b.engineDeparture r with hd
  obtain ⟨relayed, engineE⟩ : Rests d (if k = .waiting then d else d.abortPass r) ∧
      (if k = .waiting then d else d.abortPass r).engine = d.engine := by
    split
    · exact ⟨.refl d, rfl⟩
    · exact d.abortPass_rests r
  have apart : Apart d (if k = .waiting then d else d.abortPass r) := .ite (.refl d) (d.abortPass_apart r)
  have ready := paid.apart apart
  revert relayed engineE apart ready
  generalize (if k = .waiting then d else d.abortPass r) = u
  intro relayed engineE apart ready
  have joiners : u.JoinersUnboosted := fun y joining => by
    rw [apart.health, (sup y).1] at joining
    rw [apart.boost, (sup y).2]
    have health : b.health y = if r = y then k else s.health y := by
      rw [State.health, records]; split <;> rfl
    rw [records]
    rw [health] at joining
    split at joining
    · rw [joining] at out; cases out
    · rename_i other
      rw [if_neg other]
      exact State.Owes.joinersUnboosted h y joining
  have gone : u.serviced r = false := by
    rw [apart.serviced, State.serviced, (sup r).1, State.health, records, if_pos rfl]
    exact out
  obtain ⟨left, leaving, members, held⟩ := ready.settleHealth_leaving joiners gone
  set t := u.settleHealth r with ht
  have within : ∀ m, s.engine.record = some m → s.engine.state = .fadeOut ∨ s.engine.state = .switchPending →
      ∀ z ∈ s.engine.phaseSet, z ∈ m.fading ∧ z ∈ s.engine.holdSet := fun m hm before z hz =>
    ⟨h.engine.phase m hm z hz, (h.engine.held before m hm).1 z (h.engine.phase m hm z hz)⟩
  refine ⟨fun none => ?_, fun m hm before single member _ => ?_, fun m hm before single member => ?_,
    fun m hm before batch => ?_, fun m hm after => ?_⟩
  · have same : d = b := State.engineDeparture_none none
    rw [same] at engineE relayed
    obtain ⟨-, phaseless, -⟩ := h.engine.lawful
    obtain ⟨rests, engine⟩ := leaving.idle (by rw [engineE]; exact phaseless (.inl (h.engine.lawful.1.mpr none)))
    exact ⟨engine.trans engineE, ((begun.trans relayed).trans rests).lastEnd⟩
  · have ended : m.Ended .abandoned b d := by
      rw [hd, State.engineDeparture_single (s := b) hm before single, if_pos member]
      exact State.moveEnd_ended (s := b) hm (h.engine.shape m hm) .abandoned
    obtain ⟨rests, engine⟩ := leaving.idle (by rw [engineE, ended.engine])
    exact ((ended.before begun).after relayed engineE).after rests engine
  · have member : r ∉ m.fading := member.resolve_right (by simp [serviced])
    have same : d = b := by rw [hd, State.engineDeparture_single (s := b) hm before single, if_neg member]
    rw [same] at engineE
    refine (leaving.untouched fun z hz => ?_).2.trans engineE
    have hz' := hz
    rw [engineE] at hz'
    obtain ⟨fades, hold⟩ := within m hm before z hz'
    exact held z hz (fun own => member (own ▸ fades)) (by rw [engineE]; exact hold)
  · have formula : d.engine = _ := congrArg State.engine (State.engineDeparture_batch (s := b) h.engine hm before batch)
    refine ((leaving.untouched fun z hz => ?_).2.trans engineE).trans formula
    have hz' := hz
    rw [engineE, formula] at hz'
    obtain ⟨hz', other⟩ := List.mem_filter.mp hz'
    refine held z hz (of_decide_eq_true other) ?_
    rw [engineE, formula]
    exact (within m hm before z hz').2
  · have same : d = b := State.engineDeparture_after hm
      (by rcases after with q | q <;> exact ⟨by rw [engineB, q]; nofun, by rw [engineB, q]; nofun⟩)
    rw [same] at engineE relayed
    have rest : s.engine.phaseSet.filter (fun z => decide (z ≠ r) && !(t.ramp z).done) = u.engine.remaining left := by
      rw [Engine.remaining, engineE]
      refine List.filter_congr fun z hz => ?_
      have := members z (by rw [engineE]; exact hz)
      rw [Bool.eq_iff_iff, decide_eq_true_iff, this]
      simp
    intro gone
    have same : gone = u.engine.remaining left := rest
    clear_value gone
    subst same
    refine ⟨fun some => ?_, fun none => ?_⟩
    · rw [leaving.goes (.inr some), engineE, engineB]
    · have ends := leaving.ends (by rw [engineE]; exact h.engine.waiting rfl (.inr after)) none
        (by rw [engineE]; exact after) m (by rw [engineE]; exact hm) (h.engine.shape m hm)
      rw [engineE] at ends
      exact ends.before (begun.trans relayed)

end Departure

end Sys2Proof.Machine
end

section
namespace Sys2Proof.Machine

/-! ## Timers that expire (R28, R123, R130 to R132, R144) -/

/-- One more bit above all that are set. -/
theorem testBit_add_two_pow {acc i : Nat} (low : acc < 2 ^ i) (j : Nat) :
    (acc + 2 ^ i).testBit j = (acc.testBit j || decide (i = j)) := by
  rw [Nat.add_comm]
  rcases lt_trichotomy j i with less | same | more
  · rw [Nat.testBit_two_pow_add_gt less, decide_eq_false (Nat.ne_of_gt less), Bool.or_false]
  · subst same
    rw [Nat.testBit_two_pow_add_eq, Nat.testBit_lt_two_pow low]
    simp
  · have bound : 2 ^ i + acc < 2 ^ j := calc
      2 ^ i + acc < 2 ^ i + 2 ^ i := by omega
      _ = 2 ^ (i + 1) := by ring
      _ ≤ 2 ^ j := Nat.pow_le_pow_right (by omega) more
    rw [Nat.testBit_lt_two_pow bound, Nat.testBit_lt_two_pow (by omega), decide_eq_false (Nat.ne_of_lt more), Bool.or_false]

/-- A mask built bit by bit, in ascending order. -/
theorem mask_testBit {n : Nat} (l : List (Fin n)) : ∀ (acc : Nat), l.Pairwise (· < ·) → (∀ c ∈ l, acc < 2 ^ c.val) →
    acc < 2 ^ n → (l.foldl (fun m c => m + 2 ^ c.val) acc) < 2 ^ n ∧
      ∀ j : Fin n, (l.foldl (fun m c => m + 2 ^ c.val) acc).testBit j.val = (acc.testBit j.val || decide (j ∈ l)) := by
  induction l with
  | nil => exact fun acc _ _ bound => ⟨bound, fun j => by simp⟩
  | cons c l ih =>
    intro acc order low bound
    obtain ⟨above, order⟩ := List.pairwise_cons.mp order
    have here : acc < 2 ^ c.val := low c List.mem_cons_self
    have sum : acc + 2 ^ c.val < 2 ^ (c.val + 1) := by rw [pow_succ]; omega
    obtain ⟨less, bits⟩ := ih (acc + 2 ^ c.val) order
      (fun d hd => sum.trans_le (Nat.pow_le_pow_right (by omega) (above d hd)))
      (sum.trans_le (Nat.pow_le_pow_right (by omega) c.isLt))
    refine ⟨less, fun j => ?_⟩
    rw [List.foldl_cons, bits j, testBit_add_two_pow here, Bool.or_assoc]
    congr 1
    rw [Bool.eq_iff_iff]
    simp only [Bool.or_eq_true, decide_eq_true_eq, List.mem_cons, Fin.ext_iff]
    rw [eq_comm (a := c.val)]

theorem State.donorCarriers_mask (s : State) (n : DonorId) : s.donorCarriers n < 4096 ∧
    ∀ c : CarrierId, (s.donorCarriers n).testBit c.val = ((s.carrier c).enabled && decide ((s.carrier c).donor = n)) := by
  obtain ⟨bound, bits⟩ := mask_testBit
    ((List.finRange 12).filter fun c => (s.carrier c).enabled && decide ((s.carrier c).donor = n)) 0
    ((List.pairwise_lt_finRange 12).filter _) (fun c _ => Nat.two_pow_pos _) (by decide)
  refine ⟨bound, fun c => (bits c).trans ?_⟩
  rw [Nat.zero_testBit, Bool.false_or, Bool.eq_iff_iff]
  simp

/-- The grace counter idle, the departure is the same (R123). -/
theorem Departed.of_grace {r : RemoteId} {h : Health} {c : Option Cause} {s t : State}
    (k : Departed r h c (s.modSup r fun v => { v with grace := none }) t) : Departed r h c s t := by
  set u := s.modSup r fun v => { v with grace := none } with hu
  have self : u.supRec r = { s.supRec r with grace := none } := State.supRec_modSup_self ..
  have other : ∀ x, x ≠ r → u.supRec x = s.supRec x := fun x hx => State.supRec_modSup_ne s _ hx
  have health : ∀ x, u.health x = s.health x := fun x => by
    by_cases hx : x = r
    · subst hx; rw [State.health, self]; rfl
    · rw [State.health, other x hx]; rfl
  have flags : (fun x => ((u.members x).filter fun z => decide (z ≠ r) && (u.health z).serves).length) =
      fun x => ((s.members x).filter fun z => decide (z ≠ r) && (s.health z).serves).length := funext fun x => by
    simp only [health]
    rfl
  refine ⟨?_, k.present, k.stale, k.pass, k.aborted, k.withdrawn, k.framers, fun x hx => ?_, k.gains, k.activity, k.map,
    k.events, ?_, fun x joining => ?_,
    (Spares.trans (State.modSup_spares s r _) k.spares)⟩
  · rw [k.record, self]
  · rw [← other x hx]; exact k.others x hx
  · rw [← flags]; exact k.flags
  · exact k.joins x ((health x).trans joining)

/-- What came before a departure changes nothing about what it does to the engine. -/
theorem EngineFollows.before {r : RemoteId} {s u t : State} (k : EngineFollows r u t) (h : Rests s u)
    (engine : u.engine = s.engine) (serviced : u.serviced r = s.serviced r) : EngineFollows r s t where
  idle := fun none => by
    obtain ⟨same, lastEnd⟩ := k.idle (by rw [engine]; exact none)
    exact ⟨same.trans engine, lastEnd.trans h.lastEnd⟩
  abandoned := fun m hm before single member was =>
    (k.abandoned m (engine ▸ hm) (engine ▸ before) single member (serviced.trans was)).before h
  other := fun m hm before single member => (k.other m (engine ▸ hm) (engine ▸ before) single (serviced ▸ member)).trans engine
  batch := fun m hm before batch => by rw [k.batch m (engine ▸ hm) (engine ▸ before) batch, engine]
  after := fun m hm after => by
    have := k.after m (engine ▸ hm) (engine ▸ after)
    rw [engine] at this
    exact ⟨this.1, fun none => (this.2 none).before h⟩

section Loss

variable {s : State} {r : RemoteId}

/-- What a loss counts before the remote leaves (R130, R132). -/
def SupRecord.counted (v : SupRecord) : SupRecord :=
  { v with flap := min 15 (v.flap + 1), decay := if v.flap = 0 then some 0 else v.decay }

/-- The remote is about to be lost: counted, and reported; at the flap limit its isolation too. -/
def State.losing (s : State) (r : RemoteId) (c : Cause) : State :=
  let lost := (s.modSup r SupRecord.counted).post .remoteLost (.remote r) (word16 c.code)
  if s.settings.flapLimit ≤ min 15 ((s.supRec r).flap + 1) then
    lost.post .remoteIsolated (.remote r) (word16 Cause.flapping.code) else lost

theorem State.lose_eq (s : State) (r : RemoteId) (c : Cause) : s.lose r c =
    if s.settings.flapLimit ≤ min 15 ((s.supRec r).flap + 1) then (s.losing r c).enterOut r .isolated (some .flapping)
    else (s.losing r c).enterOut r .lost (some c) := by
  have counted : (s.modSup r fun v => { v with
      flap := min 15 ((s.supRec r).flap + 1), decay := if v.flap = 0 then some 0 else v.decay }) =
      s.modSup r SupRecord.counted :=
    congrArg (fun x => ({ s with sup := { s.sup with records := x } } : State)) (Tab.modify_congr _ r rfl)
  unfold State.lose State.losing
  simp only [counted, ge_iff_le]
  by_cases limit : s.settings.flapLimit ≤ min 15 ((s.supRec r).flap + 1)
  · exact (if_pos limit).trans (by rw [if_pos limit, if_pos limit])
  · exact (if_neg limit).trans (by rw [if_neg limit, if_neg limit])

theorem State.losing_apart (s : State) (r : RemoteId) (c : Cause) : Apart s (s.losing r c) := by
  have lost : Apart s ((s.modSup r SupRecord.counted).post .remoteLost (.remote r) (word16 c.code)) :=
    (s.modSup_apart r _ ⟨rfl, rfl, rfl, rfl, rfl⟩ fun _ => rfl).trans (State.post_apart _ _ _ _)
  exact .ite (lost.trans (State.post_apart _ _ _ _)) lost

theorem State.Settled.lose_follows (h : s.Settled) (serviced : s.serviced r = true) (c : Cause) :
    EngineFollows r (s.losing r c) (s.lose r c) := by
  have apart := s.losing_apart r c
  have follows : ∀ {k : Health} {cause : Option Cause}, k.inService = false → k ≠ .vacant →
      EngineFollows r (s.losing r c) ((s.losing r c).enterOut r k cause) := fun out vacant =>
    (h.apart apart).enterOut_follows ((apart.serviced r).trans serviced) out vacant _
  rw [State.lose_eq]
  split
  · exact follows rfl nofun
  · exact follows rfl nofun

end Loss

/-- Settles O36: the timers' own effects, and for the link grace the loss it brings (`State.lose_eq`), a departure
(`State.enterOut_departed`) that the engine follows (`State.Settled.lose_follows`). -/
theorem timersExpire : Obligations.TimersExpire := by
  intro s
  have taken : ∀ (e : Due) (f : State → State), e ∈ s.boundary.due →
      Host.Outcome.next (State.takeDue s e f) = (.next (f (s.unDue e)) : Host.Outcome State Fault Refusal) := fun e f due =>
    congrArg _ (State.takeDue_of_due f due)
  refine ⟨fun n due => ⟨(taken _ _ due).trans (congrArg _ ?_), s.donorCarriers_mask n⟩,
    fun due => (taken _ _ due).trans (congrArg _ ?_), fun r due => (taken _ _ due).trans (congrArg _ ?_), fun r due => ?_⟩
  · have same : (s.unDue (.donorGrace n)).donorCarriers n = s.donorCarriers n := rfl
    unfold State.donorGraceExpires
    simp only [same]
    by_cases none : s.donorCarriers n = 0
    · simp only [none, ne_eq, not_true, decide_false, Bool.false_eq_true, if_false, if_true]
      rfl
    · simp only [none, ne_eq, not_false_eq_true, decide_true, if_true, if_false]
      rfl
  · have some : (!s.events.records.isEmpty) = decide (s.events.records ≠ []) := by
      cases s.events.records <;> rfl
    unfold State.pacingExpires
    rw [← some]
    rfl
  · refine congrArg (fun x => ({ s.unDue (.flap r) with sup := { s.sup with records := x } } : State))
      (Tab.modify_congr _ r ?_)
    simp only [gt_iff_lt, Nat.sub_pos_iff_lt]
  · intro v u flap decay lost
    set grace : SupRecord → SupRecord := fun v => { v with grace := none } with hg
    set counts : SupRecord → SupRecord := fun v => { v with flap := flap, decay := decay } with hc
    have same : (u.modSup r grace).serviced r = s.serviced r := by
      rw [State.serviced, State.health, State.supRec_modSup_self]; rfl
    have record : (u.modSup r grace).supRec r = grace (s.supRec r) := State.supRec_modSup_self ..
    have records : (u.sup.records.modify r grace).modify r SupRecord.counted = (u.sup.records.modify r counts).modify r grace := by
      rw [Tab.modify_modify, Tab.modify_modify]
      exact Tab.modify_congr _ r rfl
    have loses : s.serviced r = true → u.graceExpires r = (u.modSup r grace).lose r .link := fun serviced =>
      if_pos (same.trans serviced)
    have flaps : ((u.modSup r grace).supRec r).flap = v.flap := by rw [record]
    have here : (u.modSup r grace).settings.flapLimit ≤ min 15 (v.flap + 1) ↔ s.settings.flapLimit ≤ flap := Iff.rfl
    have losing : ∀ q, (if s.settings.flapLimit ≤ flap then lost.post .remoteIsolated (.remote r) none 1 s.now else lost) = q →
        (u.modSup r grace).losing r .link = ({ u.modSup r counts with events := q } : State).modSup r grace := fun q hq => by
      have start : (u.modSup r grace).losing r .link = { u with
          sup := { u.sup with records := (u.sup.records.modify r grace).modify r SupRecord.counted }, events := q } := by
        rw [← hq, State.losing, flaps]
        by_cases limit : s.settings.flapLimit ≤ flap
        · rw [if_pos (here.mpr limit), if_pos limit]; rfl
        · rw [if_neg (mt here.mp limit), if_neg limit]; rfl
      rw [start, records]
      rfl
    have gone : ∀ (k : Health) (c : Option Cause) q, k.inService = false →
        (if s.settings.flapLimit ≤ flap then lost.post .remoteIsolated (.remote r) none 1 s.now else lost) = q →
        Departed r k c { u.modSup r counts with events := q } (((u.modSup r grace).losing r .link).enterOut r k c) :=
      fun k c q out hq => by
        rw [losing q hq]
        exact (State.enterOut_departed _ r k c out).of_grace
    refine ⟨fun out => (taken _ _ due).trans (congrArg _ (if_neg (by rw [← same] at out; exact Bool.eq_false_iff.mp out))),
      fun serviced => ⟨_, taken _ _ due, fun below => ?_, fun limit => ?_, fun lawful moves supervision => ?_⟩⟩
    · rw [loses serviced, State.lose_eq, flaps, if_neg (mt here.mp (Nat.not_le.mpr below))]
      exact gone _ _ _ rfl (if_neg (Nat.not_le.mpr below))
    · rw [loses serviced, State.lose_eq, flaps, if_pos (here.mpr limit)]
      exact gone _ _ _ rfl (if_pos limit)
    · have settled : s.Settled := (State.settled_iff s).mpr ⟨lawful, moves, supervision⟩
      have idle : (u.modSup r grace).Settled := settled.apart
        ((s.unDue_apart _).trans (State.modSup_apart _ r grace ⟨rfl, rfl, rfl, rfl, rfl⟩ fun _ => rfl))
      have follows := idle.lose_follows (same.trans serviced) .link
      rw [← loses serviced, losing _ rfl] at follows
      have waits : ∀ {e : Due}, e ∈ s.boundary.due → e ≠ .linkGrace r → e ∈ u.boundary.due := fun k ne =>
        State.mem_unDue.mpr ⟨k, ne⟩
      refine follows.before ⟨rfl, rfl, rfl, rfl, fun k => waits k nofun, ?_⟩ rfl ?_
      · by_cases limit : s.settings.flapLimit ≤ flap
        · rw [if_pos limit, if_neg (Nat.not_lt.mpr limit)]; exact .refl _ _
        · rw [if_neg limit, if_pos (Nat.not_le.mp limit)]; exact .refl _ _
      · have counted : (u.modSup r counts).serviced r = s.serviced r := by
          rw [State.serviced, State.health, State.supRec_modSup_self]; rfl
        rw [State.serviced, State.health, State.supRec_modSup_self]
        exact counted

end Sys2Proof.Machine
end

section
namespace Sys2Proof.Machine

/-! ## The lanes of the remotes' frames (R25 to R28, R37) -/

/-- Saturation brings a value to the nearest of the 16-bit range (Conventions). -/
theorem toInt_sat16 (y : Int) : (sat16 y).toInt = if y < -32768 then -32768 else if 32767 < y then 32767 else y := by
  have range : ∀ z : Int, -32768 ≤ z → z ≤ 32767 → (BitVec.ofInt 16 z).toInt = z := fun z low high => by
    rw [BitVec.toInt_ofInt]
    exact Int.bmod_eq_of_le (by omega) (by omega)
  unfold sat16
  split
  · exact range _ (by decide) (by decide)
  · split
    · exact range _ (by decide) (by decide)
    · exact range y (by omega) (by omega)

/-- The components of a sample that saturate (R27). -/
theorem clipsOf_eq (i q : Int) : clipsOf i q =
    (if i < -32768 ∨ 32767 < i then 1 else 0) + if q < -32768 ∨ 32767 < q then 1 else 0 := by
  unfold clipsOf clipped
  simp only [Bool.or_eq_true, decide_eq_true_eq, gt_iff_lt]

/-- Frame building finds in w the carriers and donor frames that stood at the boundary s, and leaves in t the gains and
modes it has used. -/
structure State.Builds (s w t : State) : Prop where
  carrier : ∀ c, w.carrier c = s.carrier c
  donors : w.dist.donors = s.dist.donors
  oldest : ∀ n, w.oldestFrames.get n = (s.framer (.donor n)).buffer.head?
  ramp : ∀ r, t.ramp r = w.ramp r
  mode : ∀ r, (t.supRec r).mode = (w.supRec r).mode
  lastMap : ∀ r, t.dist.lastMap.get r = w.mapOf r
  clips : ∀ c, t.dist.clips.get c = satAdd (s.dist.clips.get c) (w.carrierClips w.oldestFrames c)
  lanes : ∀ r, ∃ x, (t.framer (.remote r)).sent = some x ∧ x.lanes = w.downLanes w.oldestFrames r

section Acts

variable {s p : State} {part : BoundaryPart} {f : State → State × DonorUplink}

theorem State.ActsBy.builds (h : s.ActsBy part p f) : s.Builds p.beforeFrames (p.beforeFrames.framesAround f) := by
  have built := State.framesAround_built (w := p.beforeFrames) h.release
  obtain ⟨dist, -, receive⟩ := h.before
  obtain ⟨up, out⟩ := h.outgoing
  generalize p.beforeFrames.framesAround f = t at *
  generalize p.beforeFrames = w at *
  have clips : w.dist.clips = s.dist.clips := (congrArg Distributor.clips dist :)
  refine ⟨fun c => (congrArg (·.carriers.get c) dist :), (congrArg Distributor.donors dist :), fun n => ?_,
    fun r => (congrArg (·.ramps.get r) built.dist :), fun r => (congrArg (fun s : State => (s.supRec r).mode) built.frame :),
    out.lastMap, fun c => ?_, fun r => ⟨_, out.remote r, rfl⟩⟩
  · rw [← (congrArg Framer.buffer (receive (.donor n)) : (w.framer (.donor n)).buffer = _)]
    exact Tab.get_map ..
  · have table : t.dist.clips = w.dist.clips.mapIdx fun c n => satAdd n (w.carrierClips w.oldestFrames c) :=
      (congrArg Distributor.clips built.dist :)
    rw [table, Tab.get_mapIdx, clips]

end Acts

/-- Settles O16: frame building finds what the statement names (`State.ActsBy.builds`), and its arithmetic is R27's. -/
theorem remoteFramesCarryTheGainProduct : Obligations.RemoteFramesCarryTheGainProduct := by
  unfold Obligations.RemoteFramesCarryTheGainProduct
  intro s part acting hpart
  obtain ⟨p, f, acts⟩ := s.actsBy acting hpart
  have builds := acts.builds
  refine ⟨_, acts.runs, ⟨?_, fun y low high => ?_, fun y low => ?_, fun y high => ?_⟩⟩
  · generalize p.beforeFrames.framesAround f = t at *
    generalize p.beforeFrames = w at *
    intro source mapped product times clip clips
    have samples : ∀ c, w.donorSamples w.oldestFrames c = source (s.carrier c) := fun c => by
      simp only [State.donorSamples, builds.carrier, builds.donors, builds.oldest, source]
      cases (s.dist.donors.get (s.carrier c).donor).muted with
      | true => rfl
      | false => cases (s.framer (.donor (s.carrier c).donor)).buffer.head? <;> rfl
    have lane : ∀ r c, w.mappedLane w.oldestFrames r c = mapped r c := fun r c => by
      simp only [State.mappedLane, samples, builds.carrier, ← builds.mode, mapped]
    have branch : ∀ r c b, gainBranch (s.carrier c).gain (t.ramp r).present b = times r c b := fun _ _ _ => rfl
    have count : ∀ r c b, gainClips (s.carrier c).gain (t.ramp r).present b = clips r c b := fun r c b => by
      simp only [gainClips, clipsOf_eq, clips, clip, product, gainProduct]
    refine ⟨fun r => ?_, fun c => ?_⟩
    · obtain ⟨x, sent, lanes⟩ := builds.lanes r
      refine ⟨x, sent, lanes.trans ?_⟩
      rw [builds.lastMap, State.downLanes]
      refine List.map_congr_left fun z _ => ?_
      cases z with
      | none => rfl
      | some c => simp only [State.downLane, lane, builds.carrier, ← builds.ramp, branch]
    · rw [builds.clips, satAdd, State.carrierClips]
      simp only [List.contains_iff_mem, State.downClips, lane, builds.carrier, ← builds.ramp, count, ← builds.lastMap]
  · rw [toInt_sat16, if_neg (by omega), if_neg (by omega)]
  · rw [toInt_sat16, if_pos low]
  · rw [toInt_sat16, if_neg (by omega), if_pos high]

end Sys2Proof.Machine
end

section
namespace Sys2Proof.Machine

/-! ## Records read byte by byte (12.3, R107, R170) -/

theorem finOf_eq_some {n : Nat} {b : Byte} {i : Fin n} : finOf n b = some i ↔ b.toNat = i.val := by
  refine ⟨fun h => ?_, finOf_of_toNat⟩
  unfold finOf at h
  split at h
  · cases h; rfl
  · cases h

theorem yesNo_eq_some {b : Byte} {v : Bool} : yesNo b = some v ↔ SaysYes b v := by
  unfold yesNo SaysYes
  by_cases no : b = 0
  · subst no; cases v <;> decide
  · by_cases yes : b = 1
    · subst yes; cases v <;> decide
    · rw [if_neg no, if_neg yes]
      cases v
      · exact ⟨nofun, fun h => absurd h no⟩
      · exact ⟨nofun, fun h => absurd h yes⟩

theorem sectorByte_eq_some {b : Byte} {x : Option SectorId} : sectorByte b = some x ↔ NamesSector b x := by
  unfold sectorByte
  by_cases none : b = 0xFF
  · subst none
    cases x with
    | none => simp [NamesSector]
    | some x => simp only [NamesSector, if_true, Option.some.injEq, reduceCtorEq, false_iff]; exact fun h => by have := x.isLt; simp at h; omega
  · rw [if_neg none, Option.map_eq_some_iff]
    cases x with
    | none => simpa [NamesSector] using none
    | some x => simp [NamesSector, finOf_eq_some]

theorem branchesByte_eq_some {b : Byte} {two : Bool} :
    branchesByte b = some two ↔ b.toNat = if two then 2 else 1 := by
  unfold branchesByte
  by_cases one : b = 1
  · subst one; cases two <;> decide
  · by_cases pair : b = 2
    · subst pair; cases two <;> decide
    · rw [if_neg one, if_neg pair]
      cases two <;> simp [← BitVec.toNat_inj] at * <;> assumption

theorem modeByte_eq_some {b : Byte} {m : Mode} : modeByte b = some m ↔
    b.toNat = match m with | .straight => 0 | .cross => 1 | .foldA => 2 | .foldB => 3 := by
  unfold modeByte
  by_cases h0 : b = 0
  · subst h0; cases m <;> decide
  by_cases h1 : b = 1
  · subst h1; cases m <;> decide
  by_cases h2 : b = 2
  · subst h2; cases m <;> decide
  by_cases h3 : b = 3
  · subst h3; cases m <;> decide
  rw [if_neg h0, if_neg h1, if_neg h2, if_neg h3]
  simp only [← BitVec.toNat_inj] at h0 h1 h2 h3
  cases m <;> simp at * <;> assumption

theorem wordAt_toNat (b : List Byte) (i : Nat) :
    (wordAt b i).toNat = 256 * (byteAt b i).toNat + (byteAt b (i + 1)).toNat := by
  have low := (byteAt b (i + 1)).isLt
  rw [wordAt, BitVec.toNat_append, ← Nat.shiftLeft_add_eq_or_of_lt low, Nat.shiftLeft_eq]
  omega

theorem mapM_id_eq_some {α : Type} {l : List (Option α)} {ys : List α} : l.mapM id = some ys ↔ l = ys.map some := by
  induction l generalizing ys with
  | nil => cases ys <;> simp
  | cons x l ih =>
    simp only [List.mapM_cons, Option.bind_eq_bind, Option.bind_eq_some_iff, Option.pure_def, Option.some.injEq, id]
    constructor
    · rintro ⟨y, rfl, zs, hz, rfl⟩
      rw [ih.mp hz, List.map_cons]
    · intro h
      cases ys with
      | nil => cases h
      | cons y ys =>
        rw [List.map_cons, List.cons.injEq] at h
        exact ⟨y, h.1, ys, ih.mpr h.2, rfl⟩

theorem listAt_eq_some {n most : Nat} {b : List Byte} {i : Nat} {xs : List (Fin n)} :
    listAt n most b i = some xs ↔ ListsAt most b i xs := by
  have entries : ((List.range (byteAt b i).toNat).map fun k => finOf n (byteAt b (i + 1 + k))) = xs.map some ↔
      (byteAt b i).toNat = xs.length ∧ ∀ (k : Nat) (h : k < xs.length), (byteAt b (i + 1 + k)).toNat = (xs[k]).val := by
    constructor
    · intro h
      have length : (byteAt b i).toNat = xs.length := by simpa using congrArg List.length h
      refine ⟨length, fun k hk => finOf_eq_some.mp ?_⟩
      have := congrArg (fun l : List (Option (Fin n)) => l[k]?) h
      simpa [length, hk] using this
    · rintro ⟨length, each⟩
      refine List.ext_getElem (by simp [length]) fun k _ hk => ?_
      have hk : k < xs.length := by simpa using hk
      simpa using finOf_eq_some.mpr (each k hk)
  unfold listAt ListsAt
  by_cases many : (byteAt b i).toNat > most
  · simp only [if_pos many, reduceCtorEq, false_iff]
    exact fun ⟨bound, length, _⟩ => by omega
  · simp only [if_neg many, mapM_id_eq_some, entries]
    exact ⟨fun h => ⟨by omega, h⟩, fun h => h.2⟩

theorem labelAt_eq_some {most : Nat} {b : List Byte} {i : Nat} {label : Option (List Byte)} :
    labelAt most b i = some label ↔ LabelsAt most b i label := by
  unfold labelAt
  simp only
  by_cases absent : (byteAt b i).toNat = 0
  · have zero : byteAt b i = 0 := BitVec.eq_of_toNat_eq absent
    rw [if_pos absent]
    cases label with
    | none => simp [LabelsAt, zero]
    | some t =>
      simp only [LabelsAt, Option.some.injEq, reduceCtorEq, false_iff]
      exact fun ⟨size, _, length, _⟩ => by omega
  rw [if_neg absent]
  by_cases many : (byteAt b i).toNat > most
  · rw [if_pos many]
    cases label with
    | none => simp only [LabelsAt, reduceCtorEq, false_iff]; exact fun h => absent (by rw [h]; rfl)
    | some t =>
      simp only [LabelsAt, reduceCtorEq, false_iff]
      exact fun ⟨_, bound, length, _⟩ => by omega
  rw [if_neg many]
  cases label with
  | none =>
    refine ⟨fun h => ?_, fun h => absurd (congrArg BitVec.toNat h) absent⟩
    split at h <;> cases h
  | some t =>
    simp only [LabelsAt]
    constructor
    · intro h
      split at h
      · rename_i printable
        simp only [Option.some.injEq] at h
        subst h
        simp only [List.all_map, List.all_eq_true, List.mem_range, Function.comp_apply, Bool.and_eq_true,
          decide_eq_true_eq] at printable
        simp only [List.length_map, List.length_range, List.getElem_map, List.getElem_range]
        exact ⟨by omega, by omega, trivial, fun k hk => ⟨trivial, printable k hk⟩⟩
      · cases h
    · rintro ⟨_, bound, length, each⟩
      have text : ((List.range (byteAt b i).toNat).map fun k => byteAt b (i + 1 + k)) = t := by
        refine List.ext_getElem (by simp [length]) fun k _ hk => ?_
        simpa using (each k hk).1.symm
      rw [text, if_pos]
      simp only [List.all_eq_true, Bool.and_eq_true, decide_eq_true_eq]
      intro c hc
      obtain ⟨k, hk, rfl⟩ := List.getElem_of_mem hc
      exact (each k hk).2

theorem optWordAt_eq_some {b : List Byte} {i : Nat} {w : Option (BitVec 16)} : optWordAt b i = some w ↔ match w with
    | none => byteAt b i = 0
    | some v => byteAt b i = 1 ∧ v.toNat = 256 * (byteAt b (i + 1)).toNat + (byteAt b (i + 2)).toNat := by
  simp only [optWordAt, Option.map_eq_some_iff, yesNo_eq_some, SaysYes]
  cases w with
  | none => simp
  | some v =>
    simp only [← wordAt_toNat, BitVec.toNat_inj]
    constructor
    · rintro ⟨_ | _, present, word⟩
      · cases word
      · exact ⟨present, (Option.some.inj word).symm⟩
    · rintro ⟨present, rfl⟩
      exact ⟨true, present, rfl⟩

/-! ### Whole records -/

theorem carrierAt_eq_some {b : List Byte} {i : Nat} {k : Carrier} : carrierAt b i = some k ↔
    SaysYes (byteAt b i) k.enabled ∧ (byteAt b (i + 1)).toNat = k.donor.val ∧
      (byteAt b (i + 2)).toNat = k.slot.val ∧ (byteAt b (i + 3)).toNat = k.tag.val ∧
      NamesSector (byteAt b (i + 4)) k.sector ∧ (byteAt b (i + 5)).toNat = (if k.twoBranches then 2 else 1) ∧
      k.gain = min 1023 (256 * (byteAt b (i + 6)).toNat + (byteAt b (i + 7)).toNat) ∧
      k.headroom = min 4 (byteAt b (i + 8)).toNat := by
  simp only [carrierAt, Option.bind_eq_bind, Option.bind_eq_some_iff, Option.pure_def, Option.some.injEq, yesNo_eq_some,
    finOf_eq_some, sectorByte_eq_some, branchesByte_eq_some, wordAt_toNat]
  constructor
  · rintro ⟨_, enabled, _, donor, _, slot, _, tag, _, sector, _, two, rfl⟩
    exact ⟨enabled, donor, slot, tag, sector, two, rfl, rfl⟩
  · rintro ⟨enabled, donor, slot, tag, sector, two, gain, headroom⟩
    exact ⟨_, enabled, _, donor, _, slot, _, tag, _, sector, _, two, by rw [← gain, ← headroom]⟩

theorem entryAt_eq_some {b : List Byte} {i : Nat} {c : Bool} {x : Option SectorId} {e : RemoteEntry} :
    entryAt b i c x = some e ↔ e.configured = c ∧ e.sector = x ∧ e.FieldsAt b i := by
  simp only [entryAt, Option.bind_eq_bind, Option.bind_eq_some_iff, Option.pure_def, Option.some.injEq, yesNo_eq_some,
    modeByte_eq_some, listAt_eq_some, optWordAt_eq_some, wordAt_toNat]
  constructor
  · rintro ⟨_, mode, _, alternates, _, partners, _, position, _, gating, rfl⟩
    exact ⟨rfl, rfl, rfl, rfl, mode, alternates, partners, rfl, position, gating⟩
  · rintro ⟨rfl, rfl, gain, weight, mode, alternates, partners, boost, position, gating⟩
    exact ⟨_, mode, _, alternates, _, partners, _, position, _, gating, by rw [← gain, ← weight, ← boost]⟩

theorem RemoteEntry.consistent_iff {e : RemoteEntry} {r : RemoteId} {x : Option SectorId} : e.consistent r x = true ↔
    e.alternates.Nodup ∧ (∀ y ∈ e.alternates, x ≠ some y) ∧ e.partners.Nodup ∧ r ∉ e.partners := by
  simp only [RemoteEntry.consistent, Bool.and_eq_true, decide_eq_true_eq, Bool.not_eq_true', List.all_eq_true,
    List.contains_eq_mem, decide_eq_false_iff_not, ne_comm (a := x)]
  exact ⟨fun ⟨⟨⟨a, p⟩, own⟩, home⟩ => ⟨a, home, p, own⟩, fun ⟨a, home, p, own⟩ => ⟨⟨⟨a, p⟩, own⟩, home⟩⟩

theorem planEntryAt_eq_some {b : List Byte} {i : Nat} {r : RemoteId} {e : RemoteEntry} : planEntryAt b i r = some e ↔
    SaysYes (byteAt b i) e.configured ∧ NamesSector (byteAt b (i + 1)) e.sector ∧ e.FieldsAt b i ∧
      e.alternates.Nodup ∧ (∀ x ∈ e.alternates, e.sector ≠ some x) ∧ e.partners.Nodup ∧ r ∉ e.partners := by
  simp only [planEntryAt, Option.bind_eq_bind, Option.bind_eq_some_iff, yesNo_eq_some, sectorByte_eq_some, entryAt_eq_some,
    Option.ite_none_right_eq_some, Option.some.injEq, RemoteEntry.consistent_iff]
  constructor
  · rintro ⟨_, configured, _, sector, _, ⟨rfl, rfl, fields⟩, lists, rfl⟩
    exact ⟨configured, sector, fields, lists⟩
  · rintro ⟨configured, sector, fields, lists⟩
    exact ⟨_, configured, _, sector, e, ⟨rfl, rfl, fields⟩, lists, rfl⟩

theorem sectorEntryAt_eq_some {b : List Byte} {i : Nat} {e : SectorEntry} : sectorEntryAt b i = some e ↔
    e.ceiling = min 16000 (256 * (byteAt b i).toNat + (byteAt b (i + 1)).toNat) ∧
      e.minimum = min 16 (byteAt b (i + 2)).toNat ∧ SaysYes (byteAt b (i + 3)) e.source ∧
      SaysYes (byteAt b (i + 4)) e.destination ∧ SaysYes (byteAt b (i + 5)) e.gating := by
  simp only [sectorEntryAt, Option.bind_eq_bind, Option.bind_eq_some_iff, Option.pure_def, Option.some.injEq, yesNo_eq_some,
    wordAt_toNat]
  constructor
  · rintro ⟨_, source, _, destination, _, gating, rfl⟩
    exact ⟨rfl, rfl, source, destination, gating⟩
  · rintro ⟨ceiling, minimum, source, destination, gating⟩
    exact ⟨_, source, _, destination, _, gating, by rw [← ceiling, ← minimum]⟩

theorem planHeadAt_eq_some {b : List Byte} {i : Nat} {h : PlanHead} : planHeadAt b i = some h ↔
    SaysYes (byteAt b i) h.valid ∧ SaysYes (byteAt b (i + 1)) h.start ∧ LabelsAt 16 b (i + 2) h.label := by
  simp only [planHeadAt, Option.bind_eq_bind, Option.bind_eq_some_iff, Option.pure_def, Option.some.injEq, yesNo_eq_some,
    labelAt_eq_some]
  constructor
  · rintro ⟨_, valid, _, start, _, label, rfl⟩
    exact ⟨valid, start, label⟩
  · rintro ⟨valid, start, label⟩
    exact ⟨_, valid, _, start, _, label, rfl⟩

end Sys2Proof.Machine
end

section
namespace Sys2Proof.Machine

/-! ## Records as they are sent (12.3) -/

/-- A number's two bytes, most significant first. -/
theorem enc16_eq (n : Nat) : enc16 n = [BitVec.ofNat 8 (n / 256), BitVec.ofNat 8 n] := by
  have high : (word16 n).extractLsb' 8 8 = BitVec.ofNat 8 (n / 256) := by
    apply BitVec.eq_of_toNat_eq
    simp only [word16, BitVec.extractLsb'_toNat, BitVec.toNat_ofNat, Nat.shiftRight_eq_div_pow]
    omega
  have low : (word16 n).extractLsb' 0 8 = BitVec.ofNat 8 n := by
    apply BitVec.eq_of_toNat_eq
    simp only [word16, BitVec.extractLsb'_toNat, BitVec.toNat_ofNat, Nat.shiftRight_zero]
    omega
  rw [enc16, bytes16, high, low]

/-- These bytes stand in the body at this offset. -/
def StandsAt (b : List Byte) (i : Nat) (x : List Byte) : Prop := ∃ p a, b = p ++ x ++ a ∧ p.length = i

theorem standsAt_middle (p x a : List Byte) : StandsAt (p ++ x ++ a) p.length x := ⟨p, a, rfl, rfl⟩

namespace StandsAt

variable {b x y : List Byte} {i : Nat}

theorem append : StandsAt b i (x ++ y) ↔ StandsAt b i x ∧ StandsAt b (i + x.length) y := by
  constructor
  · rintro ⟨p, a, rfl, rfl⟩
    exact ⟨⟨p, y ++ a, by simp, rfl⟩, ⟨p ++ x, a, by simp, by simp⟩⟩
  · rintro ⟨⟨p, a, rfl, rfl⟩, q, c, same, length⟩
    rw [List.append_assoc q] at same
    obtain ⟨-, rfl⟩ := List.append_inj same (by simp [length])
    exact ⟨p, c, by simp, rfl⟩

theorem byteAt_eq (h : StandsAt b i x) {k : Nat} (hk : k < x.length) : byteAt b (i + k) = x[k] := by
  obtain ⟨p, a, rfl, rfl⟩ := h
  rw [byteAt, List.append_assoc, List.getD_append_right _ _ _ _ (by omega), Nat.add_sub_cancel_left, List.getD_append _ _ _ _ hk,
    List.getD_eq_getElem _ _ hk]

theorem first {v : Byte} (h : StandsAt b i (v :: x)) : byteAt b i = v := h.byteAt_eq (k := 0) (Nat.succ_pos _)

theorem second {v w : Byte} (h : StandsAt b i (v :: w :: x)) : byteAt b (i + 1) = w :=
  h.byteAt_eq (k := 1) (Nat.succ_lt_succ (Nat.succ_pos _))

theorem yes {v : Bool} (h : StandsAt b i (encYes v)) : SaysYes (byteAt b i) v := h.first

theorem num8 {n : Nat} (h : StandsAt b i (enc8 n)) (bound : n < 256) : (byteAt b i).toNat = n := by
  rw [StandsAt.first h, BitVec.toNat_ofNat, Nat.mod_eq_of_lt bound]

theorem num16 {n : Nat} (h : StandsAt b i (enc16 n)) (bound : n < 65536) :
    256 * (byteAt b i).toNat + (byteAt b (i + 1)).toNat = n := by
  rw [enc16_eq] at h
  rw [h.first, h.second, BitVec.toNat_ofNat, BitVec.toNat_ofNat]
  omega

theorem sector {x : Option SectorId} (h : StandsAt b i (encOptFin x)) : NamesSector (byteAt b i) x := by
  cases x with
  | none => exact StandsAt.first h
  | some x => exact StandsAt.num8 h (by omega)

theorem list {n most : Nat} {xs : List (Fin n)} (h : StandsAt b i (encList most xs)) (size : n ≤ 256) (room : most < 256)
    (bound : xs.length ≤ most) : ListsAt most b i xs := by
  obtain ⟨⟨count, entries⟩, -⟩ := append.mp h |>.imp_left append.mp
  refine ⟨bound, count.num8 (by omega), fun k hk => ?_⟩
  have : i + 1 + k = i + (enc8 xs.length).length + k := rfl
  rw [this, entries.byteAt_eq (by simpa using hk), List.getElem_map, BitVec.toNat_ofNat, Nat.mod_eq_of_lt (by omega)]

theorem label {most : Nat} {label : Option (List Byte)} (h : StandsAt b i (encLabel most label)) (room : most < 256)
    (lawful : LabelInRange most label) : LabelsAt most b i label := by
  cases label with
  | none => exact StandsAt.first h
  | some t =>
    obtain ⟨size, bound, printable⟩ := lawful t rfl
    obtain ⟨⟨count, text⟩, -⟩ := append.mp h |>.imp_left append.mp
    refine ⟨size, bound, count.num8 (by omega), fun k hk => ⟨?_, printable _ (List.getElem_mem hk)⟩⟩
    have : i + 1 + k = i + (enc8 t.length).length + k := rfl
    rw [this, text.byteAt_eq hk]

theorem optWord {w : Option (BitVec 16)} (h : StandsAt b i (encOpt 2 bytes16 w)) : optWordAt b i = some w := by
  refine optWordAt_eq_some.mpr ?_
  cases w with
  | none => exact StandsAt.first h
  | some v =>
    replace h : StandsAt b i ([1] ++ enc16 v.toNat) := by
      have same : word16 v.toNat = v := BitVec.ofNat_toNat .. |>.trans (BitVec.setWidth_eq v)
      rw [enc16, same]
      exact h
    obtain ⟨present, word⟩ := append.mp h
    exact ⟨present.first, (word.num16 v.isLt).symm⟩

end StandsAt

/-! ### Whole records -/

theorem encYes_length (v : Bool) : (encYes v).length = 1 := rfl

theorem enc8_length (n : Nat) : (enc8 n).length = 1 := rfl

theorem enc16_length (n : Nat) : (enc16 n).length = 2 := rfl

theorem encOptFin_length {n : Nat} (x : Option (Fin n)) : (encOptFin x).length = 1 := by cases x <;> rfl

theorem encOptWord_length (w : Option (BitVec 16)) : (encOpt 2 bytes16 w).length = 3 := by cases w <;> rfl

theorem encList_length {n most : Nat} {xs : List (Fin n)} (h : xs.length ≤ most) : (encList most xs).length = most + 1 := by
  simp only [encList, List.length_append, enc8_length, List.length_map, List.length_replicate]
  omega

namespace StandsAt

variable {b : List Byte} {i : Nat}

theorem carrier {k : Carrier} (h : StandsAt b i (encCarrier k)) (lawful : k.InRange) : carrierAt b i = some k := by
  obtain ⟨gain, headroom⟩ := lawful
  simp only [encCarrier, append, List.length_append, encYes_length, enc8_length, enc16_length, encOptFin_length,
    Nat.reduceAdd] at h
  obtain ⟨⟨⟨⟨⟨⟨⟨enabled, donor⟩, slot⟩, tag⟩, sector⟩, branches⟩, gains⟩, headrooms⟩ := h
  refine carrierAt_eq_some.mpr ⟨enabled.yes, donor.num8 (by omega), slot.num8 (by omega), tag.num8 (by omega), sector.sector,
    branches.num8 (by split <;> decide), ?_, ?_⟩
  · rw [gains.num16 (by omega), Nat.min_eq_right gain]
  · rw [headrooms.num8 (by omega), Nat.min_eq_right headroom]

theorem planEntry {r : RemoteId} {e : RemoteEntry} (h : StandsAt b i (encEntry e)) (lawful : e.InRange r) :
    planEntryAt b i r = some e := by
  obtain ⟨gain, weight, boost, few, distinct, home, two, differ, own⟩ := lawful
  simp only [encEntry, append, List.length_append, encYes_length, enc8_length, enc16_length, encOptFin_length,
    encList_length few, encList_length two, encOptWord_length, Nat.reduceAdd] at h
  obtain ⟨⟨⟨⟨⟨⟨⟨⟨⟨configured, sector⟩, gains⟩, weights⟩, mode⟩, alternates⟩, partners⟩, boosts⟩, position⟩, gating⟩ := h
  refine planEntryAt_eq_some.mpr ⟨configured.yes, sector.sector, ⟨?_, ?_, ?_, alternates.list (by decide) (by decide) few,
    partners.list (by decide) (by decide) two, (boosts.num8 (by omega)).symm, optWordAt_eq_some.mp position.optWord, gating.yes⟩, distinct, home, differ, own⟩
  · rw [gains.num16 (by omega), Nat.min_eq_right gain]
  · rw [weights.num16 (by omega), Nat.min_eq_right weight]
  · rw [mode.num8 (by cases e.mode <;> decide)]
    cases e.mode <;> rfl

theorem sectorEntry {e : SectorEntry} (h : StandsAt b i (encSectorEntry e)) (lawful : e.InRange) :
    sectorEntryAt b i = some e := by
  obtain ⟨ceiling, minimum⟩ := lawful
  simp only [encSectorEntry, append, List.length_append, encYes_length, enc8_length, enc16_length, Nat.reduceAdd] at h
  obtain ⟨⟨⟨⟨ceilings, minimums⟩, source⟩, destination⟩, gating⟩ := h
  refine sectorEntryAt_eq_some.mpr ⟨?_, ?_, source.yes, destination.yes, gating.yes⟩
  · rw [ceilings.num16 (by omega), Nat.min_eq_right ceiling]
  · rw [minimums.num8 (by omega), Nat.min_eq_right minimum]

end StandsAt
end Sys2Proof.Machine
end

section
namespace Sys2Proof.Machine

/-! ## WRITE-CARRIER and WRITE-PLAN (R20, R107, R108) -/

section Writes

variable {s : State} {b : List Byte}

theorem State.askWriteCarrier_of {c : CarrierId} {k : Carrier} (index : finOf 12 (byteAt b 0) = some c)
    (record : carrierAt b 1 = some k) : s.askWriteCarrier b =
      refuseIf ((decide (k.enabled ≠ (s.carrier c).enabled) || decide (k.sector ≠ (s.carrier c).sector)) && !s.engineIdle)
        .busy (refuseIf (!carriersLegal (s.dist.carriers.set c k)) .conflict
          (ok { s with dist := { s.dist with carriers := s.dist.carriers.set c k } })) := by
  simp only [State.askWriteCarrier, index, record, need]

theorem State.askWritePlan_head {p : PlanId} (index : finOf 4 (byteAt b 0) = some p) (part : byteAt b 1 = 0) :
    s.askWritePlan b = need .badValue (planHeadAt b 3) fun h => ok (s.writeHead p h) := by
  simp only [State.askWritePlan, index, need, part, if_true]

theorem State.askWritePlan_remote {p : PlanId} (index : finOf 4 (byteAt b 0) = some p) (part : byteAt b 1 = 1) :
    s.askWritePlan b = need .badIndex (finOf 16 (byteAt b 2)) fun r => need .badValue (planEntryAt b 3 r) fun e =>
      ok (s.modPlan p fun v => { v with remotes := v.remotes.set r e }) := by
  have other : ¬byteAt b 1 = 0 := by rw [part]; decide
  unfold State.askWritePlan
  rw [index]
  exact (if_neg other).trans (if_pos part)

theorem State.askWritePlan_sector {p : PlanId} (index : finOf 4 (byteAt b 0) = some p) (part : byteAt b 1 = 2) :
    s.askWritePlan b = need .badIndex (finOf 8 (byteAt b 2)) fun x => need .badValue (sectorEntryAt b 3) fun e =>
      ok (s.modPlan p fun v => { v with sectors := v.sectors.set x e }) := by
  have head : ¬byteAt b 1 = 0 := by rw [part]; decide
  have remote : ¬byteAt b 1 = 1 := by rw [part]; decide
  unfold State.askWritePlan
  rw [index]
  exact (if_neg head).trans (if_neg remote)

end Writes

/-- Settles O50: the checks of each request in order, the readers byte by byte, and the bytes sent read back
(`StandsAt.carrier`, `StandsAt.planEntry`, `StandsAt.sectorEntry`, `StandsAt.label`). -/
theorem tablesAreWrittenWhole : Obligations.TablesAreWrittenWhole := by
  unfold Obligations.TablesAreWrittenWhole
  refine ⟨fun s q => ⟨fun takes => ?_, fun takes => ?_⟩, fun b i => ⟨fun k => carrierAt_eq_some, fun r e => planEntryAt_eq_some,
    fun e => sectorEntryAt_eq_some, fun h => planHeadAt_eq_some, fun most label => labelAt_eq_some⟩, fun before after =>
    ⟨fun k => (standsAt_middle _ _ _).carrier, fun r e => (standsAt_middle _ _ _).planEntry,
      fun e => (standsAt_middle _ _ _).sectorEntry,
      fun most label room lawful => labelAt_eq_some.mpr ((standsAt_middle _ _ _).label (by omega) lawful)⟩⟩
  · have refused : ∀ {st}, s.dropRequest.askWriteCarrier q.body = .error st → exec .writeCarrier s = .next (s.turnedAway q st) :=
      fun e => congrArg Host.Outcome.next (State.takeRequest_refused takes e)
    refine ⟨fun high => refused (by rw [State.askWriteCarrier, finOf_eq_none high]; rfl), fun c hc => ?_⟩
    have index := finOf_of_toNat hc
    refine ⟨fun none => refused (by rw [State.askWriteCarrier, index, none]; rfl), fun k record => ?_⟩
    intro moved
    have ask := State.askWriteCarrier_of (s := s.dropRequest) index record
    have busy : ((decide (k.enabled ≠ (s.carrier c).enabled) || decide (k.sector ≠ (s.carrier c).sector)) &&
        !s.engineIdle) = true ↔ moved ∧ s.engine.state ≠ .idle := by
      simp [moved, State.engineIdle]
    have legal : (!carriersLegal (s.dist.carriers.set c k)) = true ↔ ¬CarrierTableLaw (s.dist.carriers.set c k) := by
      rw [Bool.not_eq_true', ← Bool.not_eq_true, carriersLegal_iff]
    refine ⟨fun h working => refused (ask.trans (if_pos (busy.mpr ⟨h, working⟩))), fun free broken => ?_, fun free law => ?_⟩
    · exact refused (ask.trans ((if_neg (mt busy.mp free)).trans (if_pos (legal.mpr broken))))
    · have done := State.takeRequest_done (kind := kindWriteCarrier) (f := fun s q => s.askWriteCarrier q.body) takes
        (ask.trans ((if_neg (mt busy.mp free)).trans (if_neg fun e => legal.mp e law)))
      exact ⟨congrArg Host.Outcome.next done, carrierAt_inRange record⟩
  · have refused : ∀ {st}, s.dropRequest.askWritePlan q.body = .error st → exec .writePlan s = .next (s.turnedAway q st) :=
      fun e => congrArg Host.Outcome.next (State.takeRequest_refused takes e)
    have done : ∀ t, s.dropRequest.askWritePlan q.body = ok t → exec .writePlan s = .next (t.fill (q.answer .done [])) :=
      fun _ e => congrArg Host.Outcome.next (State.takeRequest_done takes e)
    refine ⟨fun high => refused (by rw [State.askWritePlan, finOf_eq_none high]; rfl), fun p hp => ?_⟩
    have index := finOf_of_toNat hp
    refine ⟨fun part => ?_, fun part => ?_, fun part => ?_⟩
    · have ask := State.askWritePlan_head (s := s.dropRequest) index part
      exact ⟨fun none => refused (by rw [ask, none]; rfl), fun h head => done (s.dropRequest.writeHead p h) (by rw [ask, head]; rfl)⟩
    · have ask := State.askWritePlan_remote (s := s.dropRequest) index part
      refine ⟨fun high => refused (by rw [ask, finOf_eq_none high]; rfl), fun r hr => ?_⟩
      rw [finOf_of_toNat hr] at ask
      exact ⟨fun none => refused (ask.trans (by rw [need, none]; rfl)), fun e entry => ⟨planEntryAt_inRange entry,
        done (s.dropRequest.modPlan p fun v => { v with remotes := v.remotes.set r e }) (ask.trans (by rw [need, entry]; rfl))⟩⟩
    · have ask := State.askWritePlan_sector (s := s.dropRequest) index part
      refine ⟨fun high => refused (by rw [ask, finOf_eq_none high]; rfl), fun x hx => ?_⟩
      rw [finOf_of_toNat hx] at ask
      exact ⟨fun none => refused (ask.trans (by rw [need, none]; rfl)), fun e entry => ⟨sectorEntryAt_inRange entry,
        done (s.dropRequest.modPlan p fun v => { v with sectors := v.sectors.set x e }) (ask.trans (by rw [need, entry]; rfl))⟩⟩

end Sys2Proof.Machine
end

section
namespace Sys2Proof.Machine

/-! ## Reading requests (R21, R58, R70, R71, R88, R102, R109, R137, R154, R156, R157, R159) -/

section Takes

variable {s : State} {q : Request} {kind : Byte} {f : State → Request → Verdict}

/-- A reading request leaves all but the queues as it stands. -/
theorem State.takeRequest_reads (h : s.takes q kind) {body : List Byte} (e : f s.dropRequest q = .ok (s.dropRequest, body)) :
    s.takeRequest kind f = s.reported q body := State.takeRequest_done h e

theorem State.exec_reads (h : s.takes q kind) {c : Instr} (run : exec c s = .next (s.takeRequest kind f))
    {body content : List Byte} (ask : f s.dropRequest q = .ok (s.dropRequest, body)) (same : body = content) :
    exec c s = .next (s.reported q content) :=
  same ▸ run.trans (congrArg _ (State.takeRequest_reads h ask))

/-- A reading request with an index. -/
theorem State.exec_readsAt (h : s.takes q kind) {c : Instr} (run : exec c s = .next (s.takeRequest kind f)) {n k : Nat}
    {body content : Fin n → List Byte}
    (ask : f s.dropRequest q = need .badIndex (finOf n (byteAt q.body k)) fun i => .ok (s.dropRequest, body i))
    (same : ∀ i, body i = content i) :
    (∀ i : Fin n, (byteAt q.body k).toNat = i.val → exec c s = .next (s.reported q (content i))) ∧
      (n ≤ (byteAt q.body k).toNat → exec c s = .next (s.turnedAway q .badIndex)) :=
  ⟨fun i hi => run.trans (congrArg _ (State.takeRequest_reads h (by rw [ask, finOf_of_toNat hi, ← same]; rfl))),
    fun high => run.trans (congrArg _ (State.takeRequest_refused h (by rw [ask, finOf_eq_none high]; rfl)))⟩

end Takes

section Parts

variable {s : State} {b : List Byte}

theorem State.askReadPlan_head (part : byteAt b 1 = 0) :
    s.askReadPlan b = need .badIndex (finOf 4 (byteAt b 0)) fun p => .ok (s, s.headerBody p) := by
  simp only [State.askReadPlan, if_pos part]

theorem State.askReadPlan_remote {p : PlanId} (index : finOf 4 (byteAt b 0) = some p) (part : byteAt b 1 = 1) :
    s.askReadPlan b = need .badIndex (finOf 16 (byteAt b 2)) fun r => .ok (s, encEntry ((s.store.plans.get p).remotes.get r)) := by
  have head : ¬byteAt b 1 = 0 := by rw [part]; decide
  unfold State.askReadPlan
  rw [index]
  exact (if_neg head).trans (if_pos part)

theorem State.askReadPlan_sector {p : PlanId} (index : finOf 4 (byteAt b 0) = some p) (part : byteAt b 1 = 2) :
    s.askReadPlan b =
      need .badIndex (finOf 8 (byteAt b 2)) fun x => .ok (s, encSectorEntry ((s.store.plans.get p).sectors.get x)) := by
  have head : ¬byteAt b 1 = 0 := by rw [part]; decide
  have remote : ¬byteAt b 1 = 1 := by rw [part]; decide
  unfold State.askReadPlan
  rw [index]
  exact (if_neg head).trans (if_neg remote)

end Parts

/-! ### Fields -/

theorem Tab.items_eq {n : Nat} {α : Type} (t : Tab n α) : t.items = (List.finRange n).map t.get :=
  List.ext_getElem (by simp [t.len]) fun i _ _ => by simp [Tab.get]

theorem bytes16_eq (v : BitVec 16) : bytes16 v = enc16 v.toNat := by
  have same : word16 v.toNat = v := BitVec.ofNat_toNat .. |>.trans (BitVec.setWidth_eq v)
  rw [enc16, same]

theorem bytes32_eq (v : BitVec 32) : bytes32 v = enc16 (v.toNat / 65536) ++ enc16 v.toNat := by
  have byte : ∀ k, v.extractLsb' k 8 = BitVec.ofNat 8 (v.toNat / 2 ^ k) := fun k =>
    BitVec.eq_of_toNat_eq (by rw [BitVec.extractLsb'_toNat, Nat.shiftRight_eq_div_pow, BitVec.toNat_ofNat])
  simp only [bytes32, byte, enc16_eq, Nat.div_div_eq_div_mul, List.cons_append, List.nil_append]
  norm_num

theorem encList_eq {n : Nat} (most : Nat) (xs : List (Fin n)) : encList most xs =
    enc8 (xs.map Fin.val).length ++ (xs.map Fin.val).flatMap enc8 ++ List.replicate (most - (xs.map Fin.val).length) 0 := by
  have entries : (xs.map fun x => BitVec.ofNat 8 x.val) = (xs.map Fin.val).flatMap enc8 := by
    rw [List.flatMap_map, List.map_eq_flatMap]
    rfl
  rw [encList, entries, List.length_map]

theorem mapBytes_eq (m : LaneMap) : mapBytes m = m.flatMap encOptFin := by
  rw [mapBytes, List.map_eq_flatMap]
  congr 1
  funext c
  cases c <;> rfl

theorem Clock.holdover_eq (c : Clock) : c.holdover = decide (c.reference = none) := by
  rw [Clock.holdover]
  cases c.reference <;> rfl

theorem State.activeMembers_length (s : State) (x : SectorId) : (s.activeMembers x).length =
    ((List.finRange 16).filter fun r => decide (s.sectorOf r = some x) && s.serviced r).length := by
  simp only [State.activeMembers, State.members, List.filter_filter, Bool.and_comm]

/-- The places of the move in progress. -/
def State.movePlaces (s : State) : List Place := s.engine.record.elim [] MoveRecord.places

section Places

variable (s : State)

theorem State.placeOf_eq (r : RemoteId) : s.placeOf r = s.movePlaces.find? fun p => decide (p.remote = r) := by
  unfold State.placeOf State.movePlaces
  cases s.engine.record <;> rfl

theorem State.placesFrom_eq (x : SectorId) :
    s.placesFrom x = (s.movePlaces.filter fun p => decide (p.origin = some x)).length := by
  unfold State.placesFrom State.movePlaces
  cases s.engine.record <;> rfl

theorem State.placesTo_eq (x : SectorId) :
    s.placesTo x = (s.movePlaces.filter fun p => decide (p.dest = .sector x)).length := by
  unfold State.placesTo State.movePlaces
  cases s.engine.record <;> rfl

end Places

/-- Of each link its state and at least seven counters of two bytes. -/
theorem State.linkReport_length (s : State) (l : Link) : 15 ≤ (s.linkReport l).length := by
  cases l with
  | donor n => exact (by decide : 15 ≤ 19)
  | remote r => exact le_refl 15
  | service => exact le_refl 15

/-- The group of links is longer than a message may be (log entry 6). -/
theorem State.linksGroup_length (s : State) : 224 < (allLinks.flatMap s.linkReport).length := by
  rw [List.length_flatMap]
  calc 224 < (allLinks.map fun l => (s.linkReport l).length).length • 15 := by rw [List.length_map]; decide
    _ ≤ _ := List.card_nsmul_le_sum _ _ fun n hn => by
      obtain ⟨l, -, rfl⟩ := List.mem_map.mp hn
      exact s.linkReport_length l

theorem State.linksGroup_eq (s : State) : allLinks.flatMap s.linkReport =
    ((List.finRange 4).flatMap fun n => s.linkReport (.donor n)) ++
      ((List.finRange 16).flatMap fun r => s.linkReport (.remote r)) ++ s.linkReport .service := by
  simp only [allLinks, List.flatMap_append, List.flatMap_map, List.flatMap_singleton]

theorem State.countersBody_links (s : State) : s.countersBody 0 = (Config.oversizeBody (((List.finRange 4).flatMap fun n =>
    s.linkReport (.donor n)) ++ ((List.finRange 16).flatMap fun r => s.linkReport (.remote r)) ++
      s.linkReport .service)).take 224 := by
  rw [← State.linksGroup_eq]
  have fits : s.countersBody 0 = fitBody (allLinks.flatMap s.linkReport) := if_pos rfl
  rw [fits, fitBody, if_neg (Nat.not_le.mpr s.linksGroup_length)]

end Sys2Proof.Machine
end

section
namespace Sys2Proof.Machine

/-- Settles O47: each encoder of 12.3 in the statement's own words, then each request is taken, and its content is that of
its rule, field by field. -/
theorem readingRequestsReportTheState : Obligations.ReadingRequestsReportTheState := by
  unfold Obligations.ReadingRequestsReportTheState
  intro s q b B W L Y N opt label list map mode timer carrier entry sector engine places health grant image index
  -- Single fields (12.3).
  have word : ∀ n, enc16 n = W n := enc16_eq
  have byte : ∀ n, enc8 n = B n := fun _ => rfl
  have yes : ∀ v, encYes v = Y v := fun _ => rfl
  have long : ∀ v, bytes32 v = L v := fun v => by rw [bytes32_eq, word, word]
  have maybe : ∀ {n : Nat} (x : Option (Fin n)), encOptFin x = N (x.map Fin.val) := fun x => by cases x <;> rfl
  have optional : ∀ {α : Type} n (f g : α → List Byte), (∀ a, f a = g a) → ∀ v, encOpt n f v = opt n (v.map g) :=
    fun n f g same v => by cases v with
      | none => rfl
      | some a => exact congrArg (1 :: ·) (same a)
  have longs : ∀ v, encOpt 4 bytes32 v = opt 4 (v.map L) := optional 4 _ _ long
  have frames : ∀ v, encOptFc v = opt 4 (v.map L) := optional 4 _ _ long
  have labels : ∀ n v, encLabel n v = label n v := fun n v => by cases v <;> rfl
  have lists : ∀ {n : Nat} most (xs : List (Fin n)), encList most xs = list most (xs.map Fin.val) := fun _ _ => encList_eq ..
  have maps : ∀ m, mapBytes m = map m := fun m => (mapBytes_eq m).trans (congrArg (m.flatMap ·) (funext maybe))
  have timers : ∀ v, encTimer v = timer v := optional 2 _ _ fun n => by rw [word, bytes16_eq, word]
  have numbers : ∀ e : Option Entry, encNumber e = opt 4 (e.map fun x => L x.number) := fun e => by
    rw [encNumber, frames, Option.map_map]
    rfl
  have masks : ∀ xs, encMask xs = W (xs.foldl (fun m x => m ||| 2 ^ x.val) 0) := fun _ => word _
  have positions : ∀ v, encOpt 2 bytes16 v = opt 2 (v.map fun p => W p.toNat) := optional 2 _ _ fun p => by
    rw [bytes16_eq, word]
  have at1 : ∀ v, encOpt8 v = opt 1 (v.map B) := optional 1 _ _ fun _ => rfl
  have flags : ∀ v, encOpt 1 encYes v = opt 1 (v.map Y) := optional 1 _ _ fun _ => rfl
  have vendor : bytes16 Config.vendorCode = W 0x5543 := (bytes16_eq _).trans (word _)
  have model : bytes16 Config.partCode = W 0x0416 := (bytes16_eq _).trans (word _)
  -- Records.
  have carriers : ∀ k, encCarrier k = carrier k := fun k => by
    simp only [encCarrier, maybe, word]
    rfl
  have reports : ∀ v : Option Report, encOpt 13 (fun p => p.body ++ L p.arrival) v =
      opt 13 (v.map fun p => p.body ++ L p.arrival) := optional 13 _ _ fun _ => rfl
  have entries : ∀ e, encEntry e = entry e := fun e => by
    simp only [encEntry, maybe, word, lists, positions]
    rfl
  have sectors : ∀ z, encSectorEntry z = sector z := fun z => by
    simp only [encSectorEntry, word]
    rfl
  have engines : s.encEngine = engine := congrArg (B _ ++ ·) (optional 11 _ _ (fun m => by
    rw [encMove, maybe, long, frames]
    rfl) _)
  have items : s.settings.grants.items = (List.finRange 4).map s.settings.grants.get := Tab.items_eq _
  have state : B s.engine.state.code = engine.take 1 := rfl
  have grants : ∀ l : MsgLink, B (s.grantOf l).code = B (match l with
    | .service => 2 | .donor n => grant (s.settings.grants.get n)) := fun l => by cases l <;> rfl
  have moving : places = s.movePlaces := by
    simp only [places, State.movePlaces]
    cases s.engine.record <;> rfl
  have schedules : ∀ v, encOpt 6 encSchedule v = opt 6 (v.map fun c => B c.plan.val ++ L c.dueFc ++ Y c.waiting) :=
    optional 6 _ _ fun c => by rw [encSchedule, long]; rfl
  have decisions : ∀ v, encOpt 17 encDecision v =
      opt 17 (v.map fun d => W d.seq ++ L d.endFc ++ encResult d.result) := optional 17 _ _ fun d => by
    rw [encDecision, word, long]
  have windows : ∀ v, encOpt 10 encWindow v = opt 10 (v.map fun p => L p.startFc ++ L p.endFc ++ W p.window) :=
    optional 10 _ _ fun p => by rw [encWindow, word, long, long]
  have identity : s.dropRequest.identity q.link = s.identity q.link := rfl
  refine ⟨fun k e z => ⟨carriers k, entries e, sectors z⟩, fun takes => ?_, fun takes => ⟨?_, ?_⟩, fun takes => ?_,
    fun takes => ⟨fun part => ?_, fun part => ⟨fun high => ?_, fun p hp => ?_⟩, fun part => ⟨fun high => ?_, fun p hp => ?_⟩⟩,
    fun takes => ⟨fun part => ?_, fun part => ?_⟩, fun takes => ⟨fun part => ?_, fun part => ?_⟩,
    fun takes => ⟨fun part => ?_, fun part => ?_, fun part => ?_, fun part => ?_⟩⟩
  · refine State.exec_reads (f := fun s q => s.askIdentify q.link) takes rfl rfl ?_
    rw [identity]
    simp only [State.identity, vendor, model, byte, yes, word, long, maybe, frames, labels, grants, Clock.holdover_eq, state]
    simp only [image]
    cases s.loader.image with
    | none => rfl
    | some i => cases i <;> rfl
  · exact State.exec_reads (f := fun s _ => s.askReadSettings) takes rfl rfl
      (congrArg (s.settings.values.flatMap ·) (funext word))
  · intro c
    simp only [Settings.values, items, List.map_map]
    rfl
  · refine State.exec_readsAt (f := fun s q => s.askReadCarrier q.body) takes rfl rfl fun c => ?_
    rw [carriers]
    rfl
  · refine State.exec_readsAt (f := fun s q => s.askReadPlan q.body) takes rfl (State.askReadPlan_head part) fun p => ?_
    simp only [State.headerBody, labels]
    rfl
  · exact congrArg Host.Outcome.next (State.takeRequest_refused takes (by rw [State.askReadPlan, finOf_eq_none high]; rfl))
  · exact State.exec_readsAt (f := fun s q => s.askReadPlan q.body) takes rfl
      (State.askReadPlan_remote (finOf_of_toNat hp) part) fun r => entries _
  · exact congrArg Host.Outcome.next (State.takeRequest_refused takes (by rw [State.askReadPlan, finOf_eq_none high]; rfl))
  · exact State.exec_readsAt (f := fun s q => s.askReadPlan q.body) takes rfl
      (State.askReadPlan_sector (finOf_of_toNat hp) part) fun x => sectors _
  · refine State.exec_readsAt (f := fun s q => s.askReadLive q.body) takes rfl (if_pos part) fun r => ?_
    show s.liveRemoteBody r = _
    simp only [State.liveRemoteBody, State.encUplink, encSupervision, entries, maybe, byte, yes, word, long, frames, longs, maps,
      numbers, masks, reports, engines, at1, timers, positions, State.placeOf_eq, List.append_assoc]
    rw [← moving]
    generalize places.find? _ = place
    generalize (s.supRec r).cause = cause
    rcases place with _ | _ <;> rcases cause with _ | _ | _ | _ | _ | _ | _ <;> rfl
  · refine State.exec_readsAt (f := fun s q => s.askReadLive q.body) takes rfl (if_neg (by rw [part]; decide)) fun x => ?_
    show s.liveSectorBody x = _
    simp only [State.liveSectorBody, sectors, maps, engines, maybe, byte, yes, frames, flags, decisions, schedules, State.placesFrom_eq,
      State.placesTo_eq]
    rw [← moving]
    generalize s.spreader.decision = decision
    rcases decision with _ | ⟨_, _, _ | _ | _ | _ | _ | _⟩ <;> rfl
  · refine State.exec_reads (f := fun s q => s.askReadLoad q.body) takes rfl (if_pos part) ?_
    show s.loadBody = _
    simp only [State.loadBody, State.activeMembers_length, maybe, byte, word, windows]
    cases s.meter.published <;> rfl
  · refine State.exec_readsAt (f := fun s q => s.askReadLoad q.body) takes rfl (if_neg (by rw [part]; decide)) fun r => ?_
    show s.remoteLoadBody r = _
    simp only [State.remoteLoadBody, word, at1]
    rfl
  · refine State.exec_reads (f := fun s q => s.askReadCounters q.body) takes rfl rfl ?_
    rw [part]
    refine s.countersBody_links.trans ?_
    simp only [State.linkReport, funext word]
    rfl
  · refine State.exec_reads (f := fun s q => s.askReadCounters q.body) takes rfl rfl ?_
    rw [part]
    show s.comb.counters.items.flatMap encUplinkCounters = _
    rw [Tab.items_eq, List.flatMap_map]
    exact congrArg (List.flatMap · _) (funext fun r => congrArg (List.flatMap · _) (funext word))
  · refine State.exec_reads (f := fun s q => s.askReadCounters q.body) takes rfl rfl ?_
    rw [part]
    show (List.finRange 12).flatMap s.clipReport = _
    exact congrArg (List.flatMap · _) (funext fun c => by rw [State.clipReport, word, word, byte])
  · refine State.exec_reads (f := fun s q => s.askReadCounters q.body) takes rfl rfl ?_
    rw [part]
    show s.serviceReport = _
    simp only [State.serviceReport, Tab.items_eq, List.flatMap_map, funext word, List.append_assoc]

end Sys2Proof.Machine
end

section
namespace Sys2Proof.Machine

/-! ## The classification of an uplink frame (R11, R39, R40) -/

/-- An entry goes behind the entries numbered up to its own number, in front of the first one numbered after it (R38, R39). -/
theorem insertEntry_placed (e : Entry) (q : List Entry) : ∃ before after, insertEntry e q = before ++ e :: after ∧
    q = before ++ after ∧ (∀ y ∈ before, atOrAfter e.number y.number = true) ∧
    ∀ y ∈ after.head?, isBefore e.number y.number = true := by
  induction q with
  | nil => exact ⟨[], [], rfl, rfl, nofun, nofun⟩
  | cons z zs ih =>
    by_cases earlier : isBefore e.number z.number = true
    · refine ⟨[], z :: zs, if_pos earlier, rfl, nofun, fun y hy => ?_⟩
      cases hy
      exact earlier
    · obtain ⟨before, after, inserted, split, upTo, next⟩ := ih
      refine ⟨z :: before, after, ?_, congrArg (z :: ·) split, List.forall_mem_cons.mpr ⟨?_, upTo⟩, next⟩
      · rw [insertEntry, if_neg earlier, inserted]
        rfl
      · simpa [isBefore] using earlier

theorem State.isLate_iff {s : State} {n : FC} :
    s.isLate n = true ↔ ∃ l, s.comb.last = some l ∧ atOrAfter l n = true := by
  unfold State.isLate
  cases s.comb.last <;> simp

section Classify

variable {s : State} {r : RemoteId} {e : Entry}

theorem State.classify_outOfWindow (far : isAfter e.number (s.now + 2) = true) :
    s.classify r e = s.countPort r fun c => { c with outOfWindow := satInc c.outOfWindow } := if_pos far

theorem State.classify_late (near : isAfter e.number (s.now + 2) = false) (late : s.isLate e.number = true) :
    s.classify r e = s.countLate r := by
  simp only [State.classify, near, late, Bool.false_eq_true, if_false, if_true]

theorem State.classify_duplicate (near : isAfter e.number (s.now + 2) = false) (fresh : s.isLate e.number = false)
    (known : ∃ y ∈ s.comb.queues.get r, y.number = e.number) :
    s.classify r e = s.countPort r fun c => { c with duplicates := satInc c.duplicates } := by
  have any : (s.comb.queues.get r).any (fun x => decide (x.number = e.number)) = true := by simpa using known
  simp only [State.classify, near, fresh, any, Bool.false_eq_true, if_false, if_true]

theorem State.classify_new (near : isAfter e.number (s.now + 2) = false) (fresh : s.isLate e.number = false)
    (new : ¬∃ y ∈ s.comb.queues.get r, y.number = e.number) :
    s.classify r e = if 8 ≤ (s.comb.queues.get r).length then
      ((s.setQueue r ((s.comb.queues.get r).drop 1)).countPort r
        fun c => { c with overflows := satInc c.overflows }).acceptEntry r e
      else s.acceptEntry r e := by
  have any : (s.comb.queues.get r).any (fun x => decide (x.number = e.number)) = false := by simpa using new
  simp only [State.classify, near, fresh, any, Bool.false_eq_true, if_false, ge_iff_le]

/-- An accepted frame is in its queue and its lead in the window; the counters stay (R40). -/
theorem State.acceptEntry_port (s : State) (r : RemoteId) (e : Entry) :
    let w := s.comb.window.get r
    let lead := (e.number + BitVec.ofNat 32 s.comb.delay - e.arrival).toNat
    (s.acceptEntry r e).comb.queues.get r = insertEntry e (s.comb.queues.get r) ∧
    (s.acceptEntry r e).comb.window.get r = ⟨w.late, some (match w.minLead with | some m => min m lead | none => lead),
      if lead = 0 then satInc w.zeroLead else w.zeroLead⟩ ∧
    (s.acceptEntry r e).comb.counters = s.comb.counters :=
  ⟨Tab.get_modify_self .., Tab.get_set_self .., rfl⟩

end Classify

/-- What a good frame of a LOCKED remote link leaves of the Combiner is what its classification leaves (R2, R39). -/
theorem State.deliver_remote_comb (s : State) (r : RemoteId) (x : LinkFrame) : (s.deliver (.remote r) x).comb =
    ((s.modFramer (.remote r) fun f => f.goodLocked x.number).classify r
      ⟨expand s.now x.number, x.map, x.lanes, s.now⟩).comb := by
  unfold State.deliver
  rw [State.takeSlot_eq, State.modFramer_comb]
  rfl

/-- Settles O22: the first test of R39 that applies decides, and an accepted frame is placed by `insertEntry_placed`. -/
theorem uplinkArrivalsAreClassified : Obligations.UplinkArrivalsAreClassified := by
  unfold Obligations.UplinkArrivalsAreClassified
  intro s r x good locked
  have event := s.deliver_linkEvent (.remote r) x
  have runs : exec (.goodFrame (.remote r) x) s = .next (s.deliver (.remote r) x) := by
    show Host.Outcome.next (s.frameEnds (.remote r) x) = _
    rw [s.frameEnds_good _ good, State.goodFrame_locked x locked]
  refine ⟨_, runs, event.comb, fun y hy => ?_, ?_⟩
  · obtain ⟨queue, counters, window, -⟩ := event.ports y (by simpa using Ne.symm hy)
    exact ⟨queue, counters, window⟩
  rw [s.deliver_remote_comb r x]
  -- The framer's own part leaves the Combiner and the frame count.
  generalize hu : s.modFramer (.remote r) (fun f => f.goodLocked x.number) = u
  obtain ⟨comb, now⟩ : u.comb = s.comb ∧ u.now = s.now := by rw [← hu]; exact ⟨rfl, rfl⟩
  rw [← comb, ← now]
  set e : Entry := ⟨expand u.now x.number, x.map, x.lanes, u.now⟩
  have fresh (h : ¬∃ L, u.comb.last = some L ∧ atOrAfter L e.number = true) : u.isLate e.number = false :=
    Bool.eq_false_iff.mpr (mt State.isLate_iff.mp h)
  refine ⟨fun far => ?_, fun near late => ?_, fun near late known => ?_, fun near late new full => ?_,
    fun near late new room => ?_⟩
  · rw [State.classify_outOfWindow (e := e) far]
    exact ⟨rfl, rfl, Tab.get_modify_self ..⟩
  · rw [State.classify_late (e := e) near (State.isLate_iff.mpr late)]
    exact ⟨rfl, Tab.get_modify_self .., Tab.get_modify_self ..⟩
  · rw [State.classify_duplicate (e := e) near (fresh late) known]
    exact ⟨rfl, rfl, Tab.get_modify_self ..⟩
  · rw [State.classify_new (e := e) near (fresh late) new, if_pos full]
    set d := (u.setQueue r ((u.comb.queues.get r).drop 1)).countPort r fun c => { c with overflows := satInc c.overflows }
    have dropped : d.comb.queues.get r = (u.comb.queues.get r).drop 1 := Tab.get_set_self ..
    obtain ⟨queue, window, counters⟩ := d.acceptEntry_port r e
    obtain ⟨before, after, placed⟩ := insertEntry_placed e (d.comb.queues.get r)
    rw [queue, counters, ← dropped]
    exact ⟨⟨before, after, placed⟩, window, Tab.get_modify_self ..⟩
  · rw [State.classify_new (e := e) near (fresh late) new, if_neg (Nat.not_le.mpr room)]
    obtain ⟨queue, window, counters⟩ := u.acceptEntry_port r e
    obtain ⟨before, after, placed⟩ := insertEntry_placed e (u.comb.queues.get r)
    rw [queue, counters]
    exact ⟨⟨before, after, placed⟩, window, rfl⟩

end Sys2Proof.Machine
end

section
namespace Sys2Proof.Machine

/-! ## The Combiner's deadline in either order of switch and release (R42 to R45, R50, R60, R62, R113) -/

/-- What the deadline finds in v at the boundary of s: Combiner, measurements and tables of s, with the sent record, switch
histories, health and live map of z. -/
structure State.Finds (v s z : State) : Prop where
  now : v.now = s.now
  settings : v.settings = s.settings
  comb : v.comb = { s.comb with history := v.comb.history }
  activity : ∀ r c, v.activity r c = { s.activity r c with stale := (v.activity r c).stale }
  carriers : v.dist.carriers = s.dist.carriers
  tap : v.svc.tap = s.svc.tap
  sent : v.dist.sent = z.dist.sent
  history : v.comb.history = z.comb.history
  sup : v.sup = z.sup
  map : v.map = z.map

/-- What the deadline of v leaves at the end of the boundary of s, and what stands of it in the frames. -/
structure State.Leaves (s v t : State) : Prop where
  comb : t.comb = { v.combine.1.comb with history := t.comb.history, weights := t.comb.weights }
  activity : ∀ r c, t.activity r c = { v.combine.1.activity r c with stale := (t.activity r c).stale }
  weights : ∀ r, t.comb.weights.get r = ((s.now, (t.live r).weight) :: s.comb.weights.get r).take 16
  donor : ∀ n, ∃ x, (t.framer (.donor n)).sent = some x ∧ x.number = low16 v.combine.2.number ∧
    x.gapMark = BitVec.ofNat 8 v.combine.2.mark ∧ x.lanes = v.combine.2.lanes.get n
  raw : ∀ r c, s.svc.tap = .raw r c → ∃ x, (t.framer .service).sent = some x ∧ x.lanes = [v.combine.2.tap]

theorem State.combine_weights (v : State) : v.combine.1.comb.weights = v.comb.weights := by
  rcases v.combine_cases with ⟨_, h⟩ | ⟨_, _, _, h⟩ | ⟨_, _, _, h⟩ <;> rw [h] <;> rfl

/-- The weights in force when the frames are sent are noted for the boundary's number (R50). -/
theorem State.framesAround_weights {w : State} {f : State → State × DonorUplink}
    (release : ∀ b, (f b).1 = { b with comb := (f b).1.comb, meter := (f b).1.meter }) (r : RemoteId) :
    (w.framesAround f).comb.weights.get r =
      ((w.now, (w.live r).weight) :: (f (w.distribute w.oldestFrames)).1.comb.weights.get r).take 16 := by
  have b := release (w.distribute w.oldestFrames)
  have only := ((f (w.distribute w.oldestFrames)).1.noteWeights.transmitAll_frames (Tab.ofFn (w.downLanes w.oldestFrames))
    (f (w.distribute w.oldestFrames)).2 (w.tapLane w.oldestFrames (f (w.distribute w.oldestFrames)).2)).1
  have noted : (w.framesAround f).comb = (f (w.distribute w.oldestFrames)).1.noteWeights.comb := (congrArg State.comb only :)
  rw [noted]
  generalize (f (w.distribute w.oldestFrames)).1 = d at *
  have now : d.now = w.now := (congrArg State.now b :)
  have live : d.live r = w.live r := (congrArg (·.live r) b :)
  rw [← now, ← live]
  exact Tab.get_mapIdx ..

section Acts

variable {s p : State} {part : BoundaryPart} {f : State → State × DonorUplink}

/-- Weight notes, donor frames and the copy of S, in terms of the release or hold that f does or has done. -/
theorem State.ActsBy.leaves (h : s.ActsBy part p f) {v : State}
    (up : (f (p.beforeFrames.distribute p.beforeFrames.oldestFrames)).2 = v.combine.2)
    (weights : (f (p.beforeFrames.distribute p.beforeFrames.oldestFrames)).1.comb.weights = s.comb.weights)
    (comb : (p.beforeFrames.framesAround f).comb = { v.combine.1.comb with
      history := (p.beforeFrames.framesAround f).comb.history, weights := (p.beforeFrames.framesAround f).comb.weights })
    (activity : ∀ r c, (p.beforeFrames.framesAround f).activity r c =
      { v.combine.1.activity r c with stale := ((p.beforeFrames.framesAround f).activity r c).stale }) :
    s.Leaves v (p.beforeFrames.framesAround f) := by
  obtain ⟨donor, -, service⟩ := State.framesAround_framers (w := p.beforeFrames) h.release
  have built := State.framesAround_built (w := p.beforeFrames) h.release
  have noted := State.framesAround_weights (w := p.beforeFrames) h.release
  obtain ⟨-, now, -⟩ := h.before
  have tap : p.beforeFrames.svc.tap = s.svc.tap := p.beforeFrames_spares.tap.trans (congrArg (·.svc.tap) h.start :)
  generalize p.beforeFrames.framesAround f = t at *
  generalize p.beforeFrames = w at *
  have live : ∀ r, t.live r = w.live r := fun r => (congrArg (·.live r) built.frame :)
  refine ⟨comb, activity, fun r => ?_, fun n => ?_, fun r c raw => ?_⟩
  · rw [noted, now, live, weights]
  · rw [← up]
    exact ⟨Framer.outgoing _ _ _ _ _, congrArg Framer.sent (donor n), rfl, rfl, rfl⟩
  · have copy : w.tapLane w.oldestFrames v.combine.2 = v.combine.2.tap := by
      rw [State.tapLane, tap, raw]
    rw [up, copy] at service
    exact ⟨Framer.outgoing _ _ _ _ _, congrArg Framer.sent service, rfl⟩

/-- The deadline comes after frame building, or first of all. -/
theorem State.ActsBy.deadline (h : s.ActsBy part p f) : ∃ v,
    v.Finds s (if part = .act then p.beforeFrames.framesAround f else s) ∧ s.Leaves v (p.beforeFrames.framesAround f) := by
  have built := State.framesAround_built (w := p.beforeFrames) h.release
  have hands := h.handsOver
  have leaves {v : State} := h.leaves (v := v)
  obtain ⟨dist, now, -⟩ := h.before
  have spares := p.beforeFrames_spares
  have carriers : p.beforeFrames.dist.carriers = s.dist.carriers := (congrArg Distributor.carriers dist :)
  have tap : p.beforeFrames.svc.tap = s.svc.tap := spares.tap.trans (congrArg (·.svc.tap) h.start :)
  rcases h.order with ⟨rfl, rfl, rfl⟩ | ⟨rfl, rfl, rfl⟩
  · rw [if_pos rfl]
    generalize (s.setActing false).beforeFrames.framesAround State.combine = t at *
    generalize (s.setActing false).beforeFrames = w at *
    have weights : (w.distribute w.oldestFrames).combine.1.comb.weights = s.comb.weights :=
      (State.combine_weights _).trans (congrArg Combiner.weights spares.comb :)
    refine ⟨w.distribute w.oldestFrames, ⟨now, spares.settings, spares.comb, spares.records, carriers, tap, ?_, ?_, ?_, ?_⟩,
      leaves rfl weights ?_ fun r c => ?_⟩
    · exact (congrArg Distributor.sent built.dist :).symm
    · exact ((congrArg Combiner.history built.comb :).trans hands.history).symm
    · exact (congrArg State.sup built.frame :).symm
    · exact (congrArg State.map built.frame :).symm
    · rw [built.comb]
    · rw [State.activity, built.meter]
      rfl
  · rw [if_neg nofun]
    generalize (s.setActing false).combine.1.beforeFrames.framesAround _ = t at *
    generalize (s.setActing false).combine.1.beforeFrames = w at *
    have weights : w.comb.weights = s.comb.weights :=
      (congrArg Combiner.weights spares.comb :).trans (s.setActing false).combine_weights
    refine ⟨s.setActing false, ⟨rfl, rfl, rfl, fun _ _ => rfl, rfl, rfl, rfl, rfl, rfl, rfl⟩,
      leaves rfl weights ?_ fun r c => ?_⟩
    · rw [built.comb]
      show ({ w.comb with weights := _ } : Combiner) = _
      rw [spares.comb]
      rfl
    · rw [State.activity, built.meter]
      exact spares.records r c

end Acts

end Sys2Proof.Machine
end

section
namespace Sys2Proof.Machine

/-! ## A release, or a hold (R43 to R46, R54, R55, R60, R62) -/

/-- The record of r and c after the release of n: one measurement more, where the lane is measured (R60, R62). -/
theorem State.release_activity (s : State) (n : FC) (r : RemoteId) (c : CarrierId) : (s.release n).activity r c =
    (s.measured r c n).elim (s.activity r c) ((s.activity r c).measure s.settings.activityMargin) := by
  show Tab.get (Tab.get (Tab.mapIdx _ _) r) c = _
  rw [Tab.get_mapIdx, Tab.get_mapIdx]
  cases s.measured r c n <;> rfl

/-- The numbers passed over by the release of n; none at the first release (R43, log entry 30). -/
def State.gapAt (s : State) (n : FC) : Nat := s.comb.last.elim 0 fun l => (n - l - 1).toNat

section Combine

variable {v : State}

theorem State.combine_released {n : FC} (deadline : v.now - BitVec.ofNat 32 v.settings.alignment = n)
    (due : ∀ l, v.comb.last = some l → isAfter n l = true) :
    v.combine = (v.setDelay.release n, v.setDelay.releasedUplink n (v.gapAt n)) := by
  subst deadline
  rcases v.combine_cases with ⟨last, h⟩ | ⟨l, last, -, h⟩ | ⟨l, last, early, -⟩
  · rw [h, State.gapAt, last]
    rfl
  · rw [h, State.gapAt, last]
    rfl
  · exact absurd (due l last) (Bool.eq_false_iff.mp early)

theorem State.combine_held {n l : FC} (deadline : v.now - BitVec.ofNat 32 v.settings.alignment = n)
    (last : v.comb.last = some l) (early : isAfter n l = false) : v.combine = (v.setDelay, holdUplink l) := by
  subst deadline
  rcases v.combine_cases with ⟨first, -⟩ | ⟨m, same, after, -⟩ | ⟨m, same, -, h⟩
  · cases last.symm.trans first
  · cases last.symm.trans same
    exact absurd after (Bool.eq_false_iff.mp early)
  · cases last.symm.trans same
    exact h

end Combine

/-- The boundary of s at which v has released number n, with this gap mark. -/
structure State.Released (s v t : State) (n : FC) (gap : Nat) : Prop where
  last : t.comb.last = some n
  queues : ∀ r, t.comb.queues.get r = (v.comb.queues.get r).filter fun e => isAfter e.number n
  counters : ∀ r, t.comb.counters.get r = v.releaseCounters n r (v.comb.counters.get r)
  clips : ∀ c, t.comb.clips.get c = satAdd (v.comb.clips.get c) (v.upClips c n) ∧
    t.comb.windowClips.get c = satAdd (v.comb.windowClips.get c) (v.upClips c n)
  activity : ∀ r c, t.activity r c = { (v.measured r c n).elim (v.activity r c)
    ((v.activity r c).measure v.settings.activityMargin) with stale := (t.activity r c).stale }
  donor : ∀ d, ∃ x, (t.framer (.donor d)).sent = some x ∧ x.number = low16 n ∧ x.gapMark = BitVec.ofNat 8 gap ∧
    x.lanes = v.donorLanes d n
  raw : ∀ r c, s.svc.tap = .raw r c → ∃ x, (t.framer .service).sent = some x ∧
    x.lanes = [(v.rawLane r c n).getD silentLane]

/-- The boundary of s at which v holds the number l released last. -/
structure State.Held (s v t : State) (l : FC) : Prop where
  last : t.comb.last = some l
  queues : t.comb.queues = v.comb.queues
  counters : t.comb.counters = v.comb.counters
  donor : ∀ d, ∃ x, (t.framer (.donor d)).sent = some x ∧ x.number = low16 l ∧ x.gapMark = 7 ∧
    x.lanes = List.replicate 3 silentLane
  raw : ∀ r c, s.svc.tap = .raw r c → ∃ x, (t.framer .service).sent = some x ∧ x.lanes = [silentLane]

section Leaves

variable {s v z t : State}

/-- Nothing released yet, or a number after the last one: a release (R43). -/
theorem State.Leaves.released (h : s.Leaves v t) (f : v.Finds s z) {n : FC}
    (deadline : s.now - BitVec.ofNat 32 s.settings.alignment = n)
    (due : ∀ l, s.comb.last = some l → isAfter n l = true) : s.Released v t n (s.gapAt n) := by
  have same : v.comb.last = s.comb.last := (congrArg Combiner.last f.comb :)
  have k := State.combine_released (v := v) (by rw [f.now, f.settings, deadline]) (fun l hl => due l (same ▸ hl))
  rw [State.gapAt, same, ← State.gapAt] at k
  obtain ⟨comb, activity, -, donor, raw⟩ := h
  rw [k] at comb activity donor raw
  refine ⟨?_, fun r => ?_, fun r => ?_, fun c => ⟨?_, ?_⟩, fun r c => ?_, fun d => ?_, fun r c hr => ?_⟩
  · rw [comb]; rfl
  · rw [comb]; exact Tab.get_map ..
  · rw [comb]; exact Tab.get_mapIdx ..
  · rw [comb]; exact Tab.get_mapIdx ..
  · rw [comb]; exact Tab.get_mapIdx ..
  · have row := activity r c
    rw [State.release_activity] at row
    exact row
  · obtain ⟨x, sent, number, mark, lanes⟩ := donor d
    exact ⟨x, sent, number, mark, lanes.trans (v.setDelay.releasedUplink_lanes n _ d)⟩
  · obtain ⟨x, sent, lanes⟩ := raw r c hr
    refine ⟨x, sent, lanes.trans ?_⟩
    show [v.setDelay.tapUp n] = _
    rw [State.tapUp, show v.setDelay.svc.tap = .raw r c from f.tap.trans hr]
    rfl

/-- A number that is not after the last one: a hold (R44). -/
theorem State.Leaves.held (h : s.Leaves v t) (f : v.Finds s z) {n l : FC}
    (deadline : s.now - BitVec.ofNat 32 s.settings.alignment = n) (released : s.comb.last = some l)
    (early : isAfter n l = false) : s.Held v t l := by
  have last : v.comb.last = some l := (congrArg Combiner.last f.comb :).trans released
  have k := State.combine_held (v := v) (by rw [f.now, f.settings, deadline]) last early
  obtain ⟨comb, -, -, donor, raw⟩ := h
  rw [k] at comb donor raw
  refine ⟨?_, ?_, ?_, fun d => ?_, raw⟩
  · rw [comb]; exact last
  · rw [comb]; rfl
  · rw [comb]; rfl
  · obtain ⟨x, sent, number, mark, lanes⟩ := donor d
    exact ⟨x, sent, number, mark, lanes.trans (holdUplink_lanes l d)⟩

/-- The requested D is in force (R42). -/
theorem State.Leaves.delay (h : s.Leaves v t) : t.comb.delay = v.settings.alignment := by
  rw [h.comb]
  rcases v.combine_cases with ⟨_, k⟩ | ⟨_, _, _, k⟩ | ⟨_, _, _, k⟩ <;> rw [k] <;> rfl

end Leaves

/-! ## What is read of the entry for a number (R23, R45, R46, R55) -/

section Entry

variable {s : State} {r : RemoteId} {n : FC}

theorem State.releaseCounters_echo {e : Entry} (k : UplinkCounters) (taken : s.entryOf r n = some e)
    (echo : e.echo = mapBytes (s.sentFor r n).1) : s.releaseCounters n r k = k := by
  simp only [State.releaseCounters, State.echoPasses, taken, echo, decide_true, if_true]

theorem State.releaseCounters_mismatch {e : Entry} (k : UplinkCounters) (taken : s.entryOf r n = some e)
    (other : ¬e.echo = mapBytes (s.sentFor r n).1) :
    s.releaseCounters n r k = { k with mismatches := satInc k.mismatches } := by
  simp only [State.releaseCounters, State.echoPasses, taken, decide_eq_false (Ne.symm other), Bool.false_eq_true, if_false]

theorem State.releaseCounters_missing (k : UplinkCounters) (absent : s.entryOf r n = none) : s.releaseCounters n r k =
    if s.serviced r = true ∧ (s.live r).configured = true then { k with missing := satInc k.missing } else k := by
  simp only [State.releaseCounters, absent, Bool.and_eq_true]

/-- The lane of c in the entry for n that echoes the map sent for n (R46, R49, R55). -/
theorem State.rawLane_some {c : CarrierId} {e : Entry} {i : Nat} (taken : s.entryOf r n = some e)
    (echo : e.echo = mapBytes (s.sentFor r n).1)
    (lane : ((s.sentFor r n).1.findIdx? fun y => decide (y = some c)) = some i) :
    s.rawLane r c n = some (e.lanes.getD i silentLane) := by
  have passes : s.passing r n = some e := by
    rw [State.passing, taken, Option.filter_some]
    exact if_pos (decide_eq_true echo.symm)
  rw [State.rawLane, passes, LaneMap.laneOf, lane]

theorem State.rawLane_none {c : CarrierId} (h : s.entryOf r n = none ∨
    (∃ e, s.entryOf r n = some e ∧ ¬e.echo = mapBytes (s.sentFor r n).1) ∨
    ((s.sentFor r n).1.findIdx? fun y => decide (y = some c)) = none) : s.rawLane r c n = none := by
  rw [State.rawLane, LaneMap.laneOf, State.passing]
  rcases h with absent | ⟨e, taken, other⟩ | absent
  · rw [absent]
    rfl
  · rw [taken, Option.filter_some, if_neg fun h => other (of_decide_eq_true h).symm]
  · rw [absent]
    cases (s.entryOf r n).filter (s.echoPasses r n) <;> rfl

end Entry

section Finds

variable {s v z : State}

theorem State.Finds.sentFor (f : v.Finds s z) (r : RemoteId) (n : FC) : v.sentFor r n = z.sentFor r n := by
  rw [State.sentFor, State.sentFor, f.sent]

theorem State.Finds.entryOf (f : v.Finds s z) (r : RemoteId) (n : FC) :
    v.entryOf r n = (s.comb.queues.get r).find? fun e => decide (e.number = n) := by
  rw [State.entryOf, f.comb]

theorem State.Finds.serviced (f : v.Finds s z) (r : RemoteId) : v.serviced r = z.serviced r :=
  congrArg (fun v : SupRecord => v.health.inService) (State.supRec_congr f.sup r)

theorem State.Finds.live (f : v.Finds s z) (r : RemoteId) : v.live r = z.live r := by
  rw [State.live, State.live, f.map]

end Finds

/-- Settles O14: the deadline in either order (`State.ActsBy.deadline`) releases or holds (`State.Leaves.cases`). -/
theorem combinerReleasesOrHolds : Obligations.CombinerReleasesOrHolds := by
  unfold Obligations.CombinerReleasesOrHolds
  intro s part acting hpart
  obtain ⟨p, f, acts⟩ := s.actsBy acting hpart
  obtain ⟨v, finds, leaves⟩ := acts.deadline
  refine ⟨_, acts.runs, ?_⟩
  generalize p.beforeFrames.framesAround f = t at *
  have queues : v.comb.queues = s.comb.queues := (congrArg Combiner.queues finds.comb :)
  have counters : v.comb.counters = s.comb.counters := (congrArg Combiner.counters finds.comb :)
  refine ⟨?_, leaves.weights, ?_⟩
  · rw [← finds.settings]
    exact leaves.delay
  intro T u echoes taken held
  have entry : ∀ r, v.entryOf r T = taken r := fun r => finds.entryOf r T
  have echo : ∀ r e, echoes r e ↔ e.echo = mapBytes (v.sentFor r T).1 := fun r e => by rw [finds.sentFor]
  have release (due : ∀ l, s.comb.last = some l → isAfter T l = true) := leaves.released finds rfl due
  have free (h : ¬held) : ∀ l, s.comb.last = some l → isAfter T l = true := fun l last =>
    Bool.eq_true_of_not_eq_false fun early => h ⟨l, last, early⟩
  have sends (due : ∀ l, s.comb.last = some l → isAfter T l = true) : t.comb.last = some T ∧
      (∀ r, t.comb.queues.get r = (s.comb.queues.get r).filter fun e => isAfter e.number T) ∧
      ∀ n, ∃ x, (t.framer (.donor n)).sent = some x ∧ x.number = low16 T ∧ x.gapMark = BitVec.ofNat 8 (s.gapAt T) := by
    refine ⟨(release due).last, fun r => queues ▸ (release due).queues r, fun n => ?_⟩
    obtain ⟨x, sent, number, mark, -⟩ := (release due).donor n
    exact ⟨x, sent, number, mark⟩
  refine ⟨fun last => ?_, fun l last after => ?_, fun l last early => ?_, fun ⟨l, last, early⟩ => ?_, fun h r => ?_,
    fun r c tap => ?_⟩
  · have first := sends (fun l h => by rw [last] at h; cases h)
    rwa [State.gapAt, last] at first
  · have next := sends (fun m h => by rw [last] at h; cases h; exact after)
    rwa [State.gapAt, last] at next
  · have hold := leaves.held finds rfl last early
    exact ⟨hold.last, hold.queues.trans queues, hold.donor⟩
  · exact (leaves.held finds rfl last early).counters.trans counters
  · have count := (release (free h)).counters r
    rw [counters] at count
    refine ⟨fun e he same => ?_, fun e he other => ?_, fun absent => ?_⟩
    · rw [count]
      exact State.releaseCounters_echo _ ((entry r).trans he) ((echo r e).mp same)
    · rw [count]
      exact State.releaseCounters_mismatch _ ((entry r).trans he) (mt (echo r e).mpr other)
    · rw [count, State.releaseCounters_missing _ ((entry r).trans absent), finds.serviced, finds.live]
      rfl
  · by_cases h : held
    · obtain ⟨l, last, early⟩ := h
      obtain ⟨x, sent, lanes⟩ := (leaves.held finds rfl last early).raw r c tap
      exact ⟨x, sent, fun _ => lanes, fun free => absurd ⟨l, last, early⟩ free, fun free => absurd ⟨l, last, early⟩ free⟩
    · obtain ⟨x, sent, lanes⟩ := (release (free h)).raw r c tap
      refine ⟨x, sent, fun here => absurd here h, fun _ e i he same lane => lanes.trans ?_, fun _ silent => lanes.trans ?_⟩
      · rw [State.rawLane_some ((entry r).trans he) ((echo r e).mp same) (by rw [finds.sentFor]; exact lane)]
        rfl
      · rw [State.rawLane_none]
        · rfl
        · rw [entry, finds.sentFor]
          exact silent

end Sys2Proof.Machine
end

section
namespace Sys2Proof.Machine

/-! ## The weighted sum (R53) -/

theorem length_addShare (acc : Sums) (w : Nat) (b : Branch) : (addShare acc w b).length = max acc.length b.length := by
  simp [addShare, padTo]

/-- A sum past its last position is zero, as a branch past its end is silent (log entry 4). -/
theorem getD_addShare (acc : Sums) (w : Nat) (b : Branch) (k : Nat) : (addShare acc w b).getD k (0, 0) =
    ((acc.getD k (0, 0)).1 + w * (b.getD k zeroSample).i.toInt, (acc.getD k (0, 0)).2 + w * (b.getD k zeroSample).q.toInt) := by
  by_cases reached : k < max acc.length b.length
  · have here : k < (addShare acc w b).length := by rwa [length_addShare]
    have share := getElem_padTo (max acc.length b.length) b k (by rw [length_padTo _ _ (le_max_right ..)]; exact reached)
    have sum : (acc ++ List.replicate (max acc.length b.length - acc.length) ((0 : Int), (0 : Int)))[k]'(by simp; omega) =
        acc.getD k (0, 0) := by
      rw [List.getElem_append, List.getD_eq_getElem?_getD]
      split
      · rename_i inside
        rw [List.getElem?_eq_getElem inside]
        rfl
      · rename_i outside
        rw [List.getElem_replicate, List.getElem?_eq_none (Nat.not_lt.mp outside)]
        rfl
    rw [List.getD_eq_getElem _ _ here]
    simp only [addShare, List.getElem_zipWith, sum, share]
    rfl
  · obtain ⟨short, short'⟩ := max_le_iff.mp (Nat.not_lt.mp reached)
    rw [List.getD_eq_default _ _ (by rw [length_addShare]; exact Nat.not_lt.mp reached), List.getD_eq_default _ _ short,
      List.getD_eq_default _ _ short']
    simp [zeroSample]

/-- The sum of one component over the contributors, at one sample position. -/
def shareSum (component : Sample → BitVec 16) (shares : List (Nat × Branch)) (k : Nat) : Int :=
  (shares.map fun p => (p.1 : Int) * (component (p.2.getD k zeroSample)).toInt).sum

theorem getD_foldl_addShare (shares : List (Nat × Branch)) (acc : Sums) (k : Nat) :
    (shares.foldl (fun acc p => addShare acc p.1 p.2) acc).getD k (0, 0) =
      ((acc.getD k (0, 0)).1 + shareSum Sample.i shares k, (acc.getD k (0, 0)).2 + shareSum Sample.q shares k) := by
  induction shares generalizing acc with
  | nil => simp [shareSum]
  | cons p shares ih =>
    rw [List.foldl_cons, ih, getD_addShare]
    simp only [shareSum, List.map_cons, List.sum_cons, add_assoc]

theorem getD_branchSum (shares : List (Nat × Branch)) (k : Nat) :
    (branchSum shares).getD k (0, 0) = (shareSum Sample.i shares k, shareSum Sample.q shares k) := by
  rw [branchSum, getD_foldl_addShare]
  simp

theorem length_branchSum_le {shares : List (Nat × Branch)} {n : Nat} (h : ∀ p ∈ shares, p.2.length ≤ n) :
    (branchSum shares).length ≤ n := by
  have fold : ∀ acc : Sums, acc.length ≤ n → (shares.foldl (fun acc p => addShare acc p.1 p.2) acc).length ≤ n := by
    induction shares with
    | nil => exact fun acc short => short
    | cons p shares ih =>
      obtain ⟨first, rest⟩ := List.forall_mem_cons.mp h
      exact fun acc short => ih rest _ (by rw [length_addShare]; exact max_le short first)
  exact fold [] (Nat.zero_le n)

@[simp] theorem scaled_zero (headroom : Nat) : scaled headroom 0 = 0 := by
  rw [scaled, zero_add]
  exact Int.ediv_eq_zero_of_lt (by positivity) (pow_lt_pow_right₀ (by norm_num) (by omega))

/-- A component of an output sample is the rounded and saturated sum, at every position (R53). -/
theorem getD_sumBranch (headroom : Nat) (shares : List (Nat × Branch)) (k : Nat) :
    (sumBranch headroom shares).getD k zeroSample =
      ⟨sat16 (scaled headroom (shareSum Sample.i shares k)), sat16 (scaled headroom (shareSum Sample.q shares k))⟩ := by
  have silent : zeroSample = ⟨sat16 (scaled headroom 0), sat16 (scaled headroom 0)⟩ := by rw [scaled_zero]; rfl
  have map := List.getD_map (n := k) (branchSum shares) ((0 : Int), (0 : Int))
    (f := fun p => (⟨sat16 (scaled headroom p.1), sat16 (scaled headroom p.2)⟩ : Sample))
  rw [sumBranch, silent, map, getD_branchSum]

/-- A sum over a list, position by position, where positions past its end count nothing. -/
theorem sum_map_eq_sum_range {α : Type} (xs : List α) (d : α) (g : α → Nat) (h : g d = 0) {n : Nat} (short : xs.length ≤ n) :
    (xs.map g).sum = ((List.range n).map fun k => g (xs.getD k d)).sum := by
  induction xs generalizing n with
  | nil => simp [h]
  | cons x xs ih =>
    obtain ⟨m, rfl⟩ : ∃ m, n = m + 1 := ⟨n - 1, by simp at short; omega⟩
    rw [List.map_cons, List.sum_cons, ih (Nat.le_of_succ_le_succ short), List.range_succ_eq_map, List.map_cons, List.sum_cons,
      List.map_map]
    rfl

/-- Every saturated component counts one (R53). -/
theorem sumClips_eq (headroom : Nat) {shares : List (Nat × Branch)} {n : Nat} (h : ∀ p ∈ shares, p.2.length ≤ n) :
    sumClips headroom shares = ((List.range n).map fun k => clipsOf (scaled headroom (shareSum Sample.i shares k))
      (scaled headroom (shareSum Sample.q shares k))).sum := by
  have silent : clipsOf (scaled headroom 0) (scaled headroom 0) = 0 := by rw [scaled_zero]; rfl
  have sum := sum_map_eq_sum_range (branchSum shares) ((0 : Int), (0 : Int))
    (fun p => clipsOf (scaled headroom p.1) (scaled headroom p.2)) silent (length_branchSum_le h)
  simp only [getD_branchSum] at sum
  exact sum

/-- The sum of up to 16 contributors fits 32 bits (R53). -/
theorem shareSum_bounds (component : Sample → BitVec 16) {shares : List (Nat × Branch)} (few : shares.length ≤ 16)
    (weights : ∀ p ∈ shares, p.1 ≤ 4095) (k : Nat) :
    -2146959360 ≤ shareSum component shares k ∧ shareSum component shares k ≤ 2146959360 := by
  have term : ∀ x ∈ shares.map fun p => (p.1 : Int) * (component (p.2.getD k zeroSample)).toInt,
      -134184960 ≤ x ∧ x ≤ 134184960 := by
    intro x hx
    obtain ⟨p, hp, rfl⟩ := List.mem_map.mp hx
    have weight := weights p hp
    generalize component (p.2.getD k zeroSample) = x
    have low := BitVec.le_toInt x
    have high := BitVec.toInt_lt (x := x)
    norm_num at low high
    constructor <;> nlinarith
  have low := List.card_nsmul_le_sum _ (-134184960) fun x hx => (term x hx).1
  have high := List.sum_le_card_nsmul _ 134184960 fun x hx => (term x hx).2
  simp only [List.length_map, nsmul_eq_mul] at low high
  unfold shareSum
  omega

/-! ## The level (R61) -/

theorem energy_eq (b : Branch) : energy b = ((b.take 2048).map fun z => (z.i.toInt ^ 2 + z.q.toInt ^ 2).toNat).sum := by
  simp only [energy, pow_two]

theorem levelOfPower_eq {p e : Nat} (low : 2 ^ e ≤ p) (high : p < 2 ^ (e + 1)) :
    levelOfPower p = 4 * e + 4 * (p - 2 ^ e) / 2 ^ e + 1 := by
  have positive : p ≠ 0 := (lt_of_lt_of_le (Nat.two_pow_pos e) low).ne'
  have log : p.log2 = e := (Nat.log2_eq_iff positive).mpr ⟨low, high⟩
  rw [levelOfPower, if_neg positive, log]

/-! ## What stands recorded for a number (R23, R48, R50) -/

section Recorded

variable {s : State} {r : RemoteId} {n : FC}

theorem State.sectorFor_current (h : atOrAfter n (s.comb.history.get r).switchFc = true) :
    s.sectorFor r n = (s.live r).sector := if_pos h

theorem State.sectorFor_previous (earlier : atOrAfter n (s.comb.history.get r).switchFc = false)
    (began : (s.comb.history.get r).since = none ∨ ∃ f, (s.comb.history.get r).since = some f ∧ atOrAfter n f = true) :
    s.sectorFor r n = (s.comb.history.get r).previous := by
  rcases began with always | ⟨f, since, reached⟩
  · simp only [State.sectorFor, earlier, always, Bool.false_eq_true, if_false]
  · simp only [State.sectorFor, earlier, since, reached, Bool.false_eq_true, if_false, if_true]

theorem State.sectorFor_none (earlier : atOrAfter n (s.comb.history.get r).switchFc = false)
    (never : ¬((s.comb.history.get r).since = none ∨
      ∃ f, (s.comb.history.get r).since = some f ∧ atOrAfter n f = true)) : s.sectorFor r n = none := by
  cases since : (s.comb.history.get r).since with
  | none => exact absurd (.inl since) never
  | some f =>
    have before : atOrAfter n f = false := Bool.eq_false_iff.mpr fun reached => never (.inr ⟨f, since, reached⟩)
    simp only [State.sectorFor, earlier, since, before, Bool.false_eq_true, if_false]

theorem State.sentFor_first {before after : List SentRecord} {e : SentRecord} (h : s.dist.sent.get r = before ++ e :: after)
    (here : e.number = n) (others : ∀ y ∈ before, y.number ≠ n) : s.sentFor r n = (e.map, e.mode) := by
  have found : (before ++ e :: after).find? (fun e => decide (e.number = n)) = some e :=
    List.find?_eq_some_iff_append.mpr ⟨decide_eq_true here, before, after, rfl, by simpa using others⟩
  rw [State.sentFor, h, found]

theorem State.sentFor_absent (h : ∀ y ∈ s.dist.sent.get r, y.number ≠ n) : s.sentFor r n = (LaneMap.idle, .straight) := by
  have absent : (s.dist.sent.get r).find? (fun e => decide (e.number = n)) = none :=
    List.find?_eq_none.mpr (by simpa using h)
  rw [State.sentFor, absent]

theorem State.weightFor_first {before after : List (FC × Nat)} {w : Nat}
    (h : s.comb.weights.get r = before ++ (n, w) :: after) (others : ∀ y ∈ before, y.1 ≠ n) : s.weightFor r n = w := by
  have found : (before ++ (n, w) :: after).find? (fun e => decide (e.1 = n)) = some (n, w) :=
    List.find?_eq_some_iff_append.mpr ⟨decide_eq_true rfl, before, after, rfl, by simpa using others⟩
  rw [State.weightFor, h, found]

theorem State.weightFor_absent (h : ∀ y ∈ s.comb.weights.get r, y.1 ≠ n) : s.weightFor r n = 0 := by
  have absent : (s.comb.weights.get r).find? (fun e => decide (e.1 = n)) = none :=
    List.find?_eq_none.mpr (by simpa using h)
  rw [State.weightFor, absent]

end Recorded

end Sys2Proof.Machine
end

section
namespace Sys2Proof.Machine

/-! ## The contributions to a carrier (R45 to R54, R60 to R63) -/

/-- Without a switch at the boundary no record turns stale (R33, R63). -/
theorem State.fallen_meter {p : State} (h : .switch ∉ p.boundary.due) : p.fallen.meter = p.meter := by
  rw [State.fallen, State.takeDue_not_mem h]
  unfold State.takeDue
  split
  · exact (p.unDue .rampStep).rampStep_settles.meter
  · rfl

theorem State.ActsBy.stale {s p : State} {part : BoundaryPart} {f : State → State × DonorUplink} (h : s.ActsBy part p f)
    (off : .switch ∉ s.boundary.due) (r : RemoteId) (c : CarrierId) :
    ((p.beforeFrames.framesAround f).activity r c).stale = (s.activity r c).stale := by
  obtain ⟨-, -, -, -, -, -, -, -, -, kept⟩ := h.kept
  have due : p.boundary.due = s.boundary.due := (congrArg (·.boundary.due) h.start :)
  have meter : p.fallen.meter = p.meter := State.fallen_meter (due ▸ off)
  rw [kept, State.activity, meter]
  exact h.precedes.stale r c

section Finds

variable {s v z : State}

theorem State.Finds.carrier (f : v.Finds s z) (c : CarrierId) : v.carrier c = s.carrier c := by
  rw [State.carrier, State.carrier, f.carriers]

theorem State.Finds.weightFor (f : v.Finds s z) (r : RemoteId) (n : FC) : v.weightFor r n = s.weightFor r n := by
  rw [State.weightFor, State.weightFor, f.comb]

theorem State.Finds.sectorFor (f : v.Finds s z) (r : RemoteId) (n : FC) : v.sectorFor r n = z.sectorFor r n := by
  simp only [State.sectorFor, State.sectorOf, f.history, f.live]

theorem State.Finds.gatePasses (f : v.Finds s z) (r : RemoteId) (c : CarrierId) (x : SectorId) (level : Nat) :
    v.gatePasses r c x level = (!(z.map.sectors.get x).gating || !(z.live r).gatingAllowed || !(s.activity r c).settled ||
      decide ((s.activity r c).floor + s.settings.gateMargin ≤ level)) := by
  have record := f.activity r c
  have floor : (v.activity r c).floor = (s.activity r c).floor := (congrArg Activity.floor record :)
  have settled : (v.activity r c).settled = (s.activity r c).settled := (congrArg Activity.settled record :)
  rw [← floor, ← settled, ← f.map, ← f.live, ← f.settings]
  rfl

end Finds

/-- Branch B of a single-branch carrier is the sum of nothing (R53, R54). -/
theorem State.upLane_eq (s : State) (c : CarrierId) (n : FC) : s.upLane c n =
    ⟨sumBranch (s.carrier c).headroom ((s.contributions c n).map fun p => (p.1, p.2.a)), sumBranch (s.carrier c).headroom
      (if (s.carrier c).twoBranches then (s.contributions c n).map fun p => (p.1, p.2.b) else [])⟩ := by
  unfold State.upLane
  cases (s.carrier c).twoBranches <;> rfl

theorem State.upClips_eq (s : State) (c : CarrierId) (n : FC) : s.upClips c n =
    sumClips (s.carrier c).headroom ((s.contributions c n).map fun p => (p.1, p.2.a)) + sumClips (s.carrier c).headroom
      (if (s.carrier c).twoBranches then (s.contributions c n).map fun p => (p.1, p.2.b) else []) := by
  unfold State.upClips
  cases (s.carrier c).twoBranches <;> rfl

theorem State.measured_some {s : State} {r : RemoteId} {c : CarrierId} {n : FC} {level : Nat}
    (h : (s.delivered r c n).map (laneLevel (s.carrier c).twoBranches) = some level) (serviced : s.serviced r = true)
    (enabled : (s.carrier c).enabled = true) : s.measured r c n = some level := by
  rw [State.measured, serviced, enabled]
  exact h

theorem State.measured_none {s : State} {r : RemoteId} {c : CarrierId} {n : FC}
    (h : (s.delivered r c n).map (laneLevel (s.carrier c).twoBranches) = none ∨ s.serviced r = false ∨
      (s.carrier c).enabled = false) : s.measured r c n = none := by
  unfold State.measured
  rcases h with silent | out | off
  · rw [silent, ite_self]
  · rw [out, Bool.false_and]
    rfl
  · rw [off, Bool.and_false]
    rfl

/-- Settles O17: the number is released in either order (`State.Leaves.released`), its contributions are those of the
statement, lane by lane; then the arithmetic of R53 and R61, and what stands recorded for a number. -/
theorem donorFramesCarryTheWeightedSum : Obligations.DonorFramesCarryTheWeightedSum := by
  unfold Obligations.DonorFramesCarryTheWeightedSum
  refine ⟨fun s part acting hpart => ?_, fun h shares => ?_, fun l => ?_, rfl, fun s r N => ?_,
    fun p e low high => levelOfPower_eq low high⟩
  · intro T due
    obtain ⟨p, f, acts⟩ := s.actsBy acting hpart
    obtain ⟨v, finds, leaves⟩ := acts.deadline
    have stale := acts.stale
    refine ⟨_, acts.runs, ?_⟩
    generalize p.beforeFrames.framesAround f = t at *
    have released := leaves.released finds rfl due
    intro z lane share shares sumA sumB clips
    change v.Finds s z at finds
    have delivered : ∀ c r, v.delivered r c T = lane c r := fun c r => by
      simp only [lane]
      rw [State.delivered]
      cases taken : (s.comb.queues.get r).find? fun e => decide (e.number = T) with
      | none => rw [State.rawLane_none (.inl ((finds.entryOf r T).trans taken))]; rfl
      | some e =>
        have entry := (finds.entryOf r T).trans taken
        simp only [finds.carrier, finds.sentFor]
        cases found : (z.sentFor r T).1.findIdx? fun y => decide (y = some c) with
        | none =>
          rw [State.rawLane_none (.inr (.inr (by rw [finds.sentFor]; exact found)))]
          rfl
        | some i =>
          by_cases echo : e.echo = mapBytes (z.sentFor r T).1
          · rw [State.rawLane_some entry (by rw [finds.sentFor]; exact echo) (by rw [finds.sentFor]; exact found)]
            exact (if_pos echo).symm
          · rw [State.rawLane_none (.inr (.inl ⟨e, entry, by rw [finds.sentFor]; exact echo⟩))]
            exact (if_neg echo).symm
    have contributed : ∀ c r, v.contribution c T r = share c r := fun c r => by
      simp only [share, State.contribution, delivered, finds.carrier, finds.serviced, finds.sectorFor, finds.weightFor,
        finds.gatePasses]
      cases lane c r with
      | none => cases (s.carrier c).enabled <;> cases (s.carrier c).sector <;> rfl
      | some l =>
        cases (s.carrier c).enabled <;> cases (s.carrier c).sector <;>
          simp only [Bool.and_eq_true, decide_eq_true_eq, and_assoc, true_and, false_and, Bool.false_eq_true, if_false]
    have contributions : ∀ c, v.contributions c T = shares c := fun c =>
      congrArg (List.filterMap · (List.finRange 16)) (funext (contributed c))
    have level : ∀ r c, (v.delivered r c T).map (laneLevel (v.carrier c).twoBranches) =
        (lane c r).map (laneLevel (s.carrier c).twoBranches) := fun r c => by rw [delivered, finds.carrier]
    have output : ∀ c, v.upLane c T = ⟨sumBranch (s.carrier c).headroom (sumA c), sumBranch (s.carrier c).headroom (sumB c)⟩ :=
      fun c => by rw [State.upLane_eq, contributions, finds.carrier]
    have clipped : ∀ c, v.upClips c T = clips c := fun c => by rw [State.upClips_eq, contributions, finds.carrier]
    refine ⟨fun n => ?_, fun c => ?_, fun r c => ?_⟩
    · obtain ⟨x, sent, -, -, lanes⟩ := released.donor n
      refine ⟨x, sent, lanes.trans (List.map_congr_left fun k _ => ?_)⟩
      have slot : v.slotCarrier n k = (List.finRange 12).find? fun c => (s.carrier c).enabled &&
          decide ((s.carrier c).donor = n) && decide ((s.carrier c).slot = k) := by
        simp only [State.slotCarrier, finds.carrier]
      rw [slot]
      cases (List.finRange 12).find? _ with
      | none => rfl
      | some c => exact output c
    · have before : v.comb.clips = s.comb.clips ∧ v.comb.windowClips = s.comb.windowClips :=
        ⟨(congrArg Combiner.clips finds.comb :), (congrArg Combiner.windowClips finds.comb :)⟩
      rw [← clipped, ← before.1, ← before.2]
      exact released.clips c
    · have record := released.activity r c
      rw [finds.activity, finds.settings] at record
      refine ⟨fun m heard serviced enabled => ?_, fun silent => ?_, fun off => stale off r c⟩
      · rw [State.measured_some ((level r c).trans heard) ((finds.serviced r).trans serviced)
          (by rw [finds.carrier]; exact enabled)] at record
        exact record
      · rw [State.measured_none (by rw [level, finds.serviced, finds.carrier]; exact silent)] at record
        exact record
  · refine ⟨getD_sumBranch h shares, fun n short => ?_, fun few weights k => ⟨?_, ?_⟩⟩
    · rw [sumClips_eq h short]
      simp only [clipsOf_eq]
      rfl
    · exact shareSum_bounds Sample.i few weights k
    · exact shareSum_bounds Sample.q few weights k
  · refine ⟨?_, ?_⟩
    · rw [laneLevel, energy_eq]; rfl
    · rw [laneLevel, energy_eq, energy_eq]; rfl
  · exact ⟨State.sectorFor_current, State.sectorFor_previous, State.sectorFor_none, fun _ _ _ => State.sentFor_first,
      State.sentFor_absent, fun _ _ _ => State.weightFor_first, State.weightFor_absent⟩

end Sys2Proof.Machine
end

section
namespace Sys2Proof.Machine

/-! ## The window end (R57, R64 to R69) -/

/-! ### The records settled, and the loads of the records -/

/-- The two cases of R65, each with the whole record it leaves. -/
theorem Activity.settle_eq (a : Activity) (w : Nat) : a.settle w =
    if a.frames = 0 then { a with stale := true, busy := 0, minLevel := none }
    else ⟨if a.minLevel.getD a.floor < a.floor then a.minLevel.getD a.floor else min (a.floor + 1) (a.minLevel.getD a.floor),
      a.settled || decide (w / 2 ≤ a.frames), 0, 0, none, 1000 * a.busy / a.frames, false⟩ := rfl

theorem State.activity_closeWindow (s : State) (r : RemoteId) (c : CarrierId) :
    s.closeWindow.activity r c = (s.activity r c).settle s.meter.window := by
  simp [State.closeWindow, State.activity]

/-- The loads that a window end publishes are those of the settled records (R66, R69). -/
theorem State.published_closeWindow (s : State) : s.closeWindow.meter.published = some { s.closeWindow.loadsNow s.now with
    startFc := s.meter.startFc, window := s.meter.window, seq := (s.meter.seq + 1) % 65536 } := rfl

theorem State.activeMembers_eq (s : State) (x : SectorId) : s.activeMembers x =
    (List.finRange 16).filter fun r => decide (s.sectorOf r = some x) && s.serviced r := by
  simp only [State.activeMembers, State.members, List.filter_filter, Bool.and_comm]

/-- A remote that counts toward a load (R67): in service and configured, in its sector. -/
theorem State.remoteLoad_of_sector {s : State} {r : RemoteId} {x : SectorId}
    (counts : (s.serviced r && (s.live r).configured) = true) (sector : s.sectorOf r = some x) :
    s.remoteLoad r = ((s.dist.maps.get x).named.map fun c => (s.activity r c).counted).foldl max 0 := by
  rw [State.remoteLoad, if_pos counts, sector]

theorem State.remoteLoad_of_none {s : State} {r : RemoteId} (sector : s.sectorOf r = none) : s.remoteLoad r = 0 := by
  rw [State.remoteLoad, sector, ite_self]

theorem State.remoteLoad_of_out {s : State} {r : RemoteId} (out : (s.serviced r && (s.live r).configured) = false) :
    s.remoteLoad r = 0 := by
  rw [State.remoteLoad, out, if_neg Bool.false_ne_true]

/-! ### What follows the settling -/

/-- The window alarms, the Spreader's work and the start it asks for act on these parts of the hub alone. -/
def Evaluates (s t : State) : Prop :=
  t = { s with
    dist := t.dist, engine := t.engine, spreader := t.spreader, sup := t.sup, events := t.events, boundary := t.boundary }

/-- Of those parts the window alarms, and relief where it is blocked, act on the Event Queue alone. -/
def PostsOnly (s t : State) : Prop := t = { s with events := t.events }

theorem PostsOnly.evaluates {s t : State} (h : PostsOnly s t) : Evaluates s t := by
  rw [PostsOnly] at h
  rw [h]
  rfl

namespace PostsOnly

theorem refl (s : State) : PostsOnly s s := rfl

theorem post (s : State) (k : EventKind) (x : Subject) (d : BitVec 16) : PostsOnly s (s.post k x d) := rfl

theorem trans {s t u : State} (h : PostsOnly s t) (k : PostsOnly t u) : PostsOnly s u := by
  rw [PostsOnly] at h k
  rw [k, h]
  rfl

theorem ite {s t u : State} {c : Prop} [Decidable c] (h : PostsOnly s t) (k : PostsOnly s u) :
    PostsOnly s (if c then t else u) := by
  split
  · exact h
  · exact k

theorem foldl {α : Type} {f : State → α → State} (h : ∀ s a, PostsOnly s (f s a)) (xs : List α) (s : State) :
    PostsOnly s (xs.foldl f s) := by
  induction xs generalizing s with
  | nil => exact refl s
  | cons a xs ih => exact (h s a).trans (ih (f s a))

end PostsOnly

namespace Evaluates

theorem refl (s : State) : Evaluates s s := rfl

theorem trans {s t u : State} (h : Evaluates s t) (k : Evaluates t u) : Evaluates s u := by
  rw [Evaluates] at h k
  rw [k, h]
  rfl

theorem of_started {m : MoveRecord} {p : Option PlanMap} {s t : State} (h : Started m p s t) : Evaluates s t := by
  rw [h.frame]
  rfl

end Evaluates

theorem State.clipAlarm_posts (s : State) (c : CarrierId) : PostsOnly s (s.clipAlarm c) :=
  .ite (.post _ _ _ _) (.refl s)

theorem State.portAlarms_posts (s : State) (r : RemoteId) : PostsOnly s (s.portAlarms r) := by
  have late : PostsOnly s (if s.settings.lateLimit ≠ 0 ∧ (s.comb.window.get r).late > s.settings.lateLimit then
      s.post .lateUplink (.remote r) (word16 (s.comb.window.get r).late) else s) := .ite (.post _ _ _ _) (.refl s)
  exact .ite (late.trans (.post _ _ _ _)) late

/-- After the settling, the publication and the clearing of the window counts (R57, R64 to R66), the Meter's and the
Combiner's work only posts alarms. -/
theorem State.meterEnds_posts (s : State) : PostsOnly s.closeWindow.clearWindow s.meterEnds := by
  have alarms := (PostsOnly.foldl State.clipAlarm_posts (List.finRange 12) s.closeWindow).trans
    (.foldl State.portAlarms_posts (List.finRange 16) _)
  rw [State.meterEnds, State.windowAlarms]
  generalize (List.finRange 16).foldl _ _ = alarmed at alarms ⊢
  rw [PostsOnly] at alarms
  rw [alarms]
  rfl

theorem State.relief_posts (s : State) (p : Published) : PostsOnly s (s.relief p).1 := by
  unfold State.relief
  split
  · exact .refl s
  · simp only
    split
    · exact .post _ _ _ _
    · split
      · exact .post _ _ _ _
      · split
        · exact .post _ _ _ _
        · exact .refl s

theorem State.evaluate_posts (s : State) (p : Published) : PostsOnly s (s.evaluate p).1 := by
  have relieved := s.relief_posts p
  unfold State.evaluate
  split
  · exact .refl s
  · split
    · rename_i blocked
      rw [blocked] at relieved
      exact relieved
    · exact relieved

theorem State.setSpreader_evaluates (s : State) (v : Spreader) : Evaluates s { s with spreader := v } := rfl

theorem State.spread_evaluates (s : State) (p : Published) : Evaluates s (s.spread p) := by
  have judged : Evaluates s ((s.judgeSettled p).updateStreaks p) := rfl
  have evaluated := judged.trans (State.evaluate_posts _ p).evaluates
  unfold State.spread
  simp only
  split
  · exact evaluated.trans (State.setSpreader_evaluates _ _)
  · exact evaluated.trans (State.setSpreader_evaluates _ _)

theorem State.spreadEnds_evaluates (s : State) : Evaluates s s.spreadEnds := by
  unfold State.spreadEnds
  split
  · exact s.spread_evaluates _
  · exact .refl s

theorem State.startSingle_evaluates (s : State) (k : MoveKind) (r : RemoteId) (y : SectorId) :
    Evaluates s (s.startSingle k r y).1 := by
  by_cases idle : s.engine.state = .idle
  · obtain ⟨-, started⟩ := State.startSingle_started idle k r y
    exact .of_started started
  · rw [State.startSingle_busy idle]
    exact .refl s

theorem State.clearStreak_evaluates (s : State) (q : StartRequest) : Evaluates s (s.clearStreak q) := by
  unfold State.clearStreak
  split
  · exact s.setSpreader_evaluates _
  · exact s.setSpreader_evaluates _

theorem State.answerRequest_evaluates (s : State) (q : StartRequest) : Evaluates s (s.answerRequest q) := by
  have asked := (s.setSpreader_evaluates _).trans ((s.setRequest none).startSingle_evaluates q.kind.move q.remote q.dest)
  unfold State.answerRequest
  simp only
  split
  · exact (asked.trans (State.clearStreak_evaluates _ q)).trans (State.setSpreader_evaluates _ _)
  · exact asked.trans (State.setSpreader_evaluates _ _)

theorem State.takeRequested_evaluates (s : State) : Evaluates s s.takeRequested := by
  unfold State.takeRequested
  split
  · exact s.answerRequest_evaluates _
  · exact .refl s

theorem State.windowEnd_evaluates (s : State) : Evaluates s.closeWindow.clearWindow s.windowEnd :=
  (s.meterEnds_posts.evaluates.trans (State.spreadEnds_evaluates _)).trans (State.takeRequested_evaluates _)

theorem State.markDue_evaluates (s : State) (e : Due) : Evaluates s (s.markDue e) := by
  unfold State.markDue
  split
  · exact .refl s
  · rfl

theorem State.mem_due_markDue (s : State) (e : Due) : e ∈ (s.markDue e).boundary.due := by
  rw [State.due_markDue]
  split
  · rename_i due
    exact List.contains_iff_mem.mp due
  · exact List.mem_append_right _ List.mem_cons_self

/-! ### The window end, whole or the Meter's part of it -/

/-- A window end that the Meter has its part in settles, publishes and clears (R57, R64 to R69), and what follows leaves that
as it is. -/
theorem State.windowPart_evaluates {s : State} {part : WindowPart} (due : .window ∈ s.boundary.due)
    (metered : part = .whole ∨ part = .meter) : Evaluates s.closeWindow.clearWindow (s.windowPart part) := by
  have taken : Evaluates s.closeWindow.clearWindow (s.unDue .window).closeWindow.clearWindow := rfl
  rcases metered with rfl | rfl
  · rw [State.windowPart, State.takeDue_of_due _ due]
    exact taken.trans (State.windowEnd_evaluates _)
  · rw [State.windowPart, State.takeDue_of_due _ due]
    exact (taken.trans (State.meterEnds_posts _).evaluates).trans (State.markDue_evaluates _ _)

/-- The Meter's part leaves the Spreader's part due, and the Spreader, the Move Engine, the Distributor and the Supervisor as
they are (log entry 32). -/
theorem State.windowPart_meter {s : State} (due : .window ∈ s.boundary.due) :
    .spread ∈ (s.windowPart .meter).boundary.due ∧ (s.windowPart .meter).spreader = s.spreader ∧
      (s.windowPart .meter).engine = s.engine ∧ (s.windowPart .meter).dist = s.dist ∧
      (s.windowPart .meter).sup = s.sup := by
  have posts := (s.unDue .window).meterEnds_posts
  rw [State.windowPart, State.takeDue_of_due _ due]
  refine ⟨State.mem_due_markDue _ _, ?_⟩
  simp only [State.markDue_spreader, State.markDue_engine, State.markDue_dist, State.markDue_sup]
  rw [posts]
  exact ⟨rfl, rfl, rfl, rfl⟩

/-- Settles O39: the records settle and their loads are published (`State.activity_closeWindow`,
`State.published_closeWindow`), the loads are those of R67 and R68 (`State.remoteLoad_of_sector`,
`State.activeMembers_eq`), and the alarms, the Spreader and the engine leave that as it is (`State.windowPart_evaluates`). -/
theorem windowEndPublishesTheLoads : Obligations.WindowEndPublishesTheLoads := by
  intro s part due metered
  have ends := State.windowPart_evaluates due metered
  have published := (congrArg (fun t => t.meter.published) ends).trans s.published_closeWindow
  refine ⟨s.windowPart part, _, rfl, published, fun meter => meter ▸ State.windowPart_meter due, ?_⟩
  clear published
  generalize s.windowPart part = t at ends
  have activity : ∀ r c, t.activity r c = s.closeWindow.activity r c := fun r c =>
    congrArg (fun t => t.activity r c) ends
  have members : ∀ x, s.closeWindow.activeMembers x =
      (List.finRange 16).filter fun r => decide (s.sectorOf r = some x) && s.serviced r := s.closeWindow.activeMembers_eq
  refine ⟨fun r c => ?_, ⟨fun r => ?_, fun x => ?_, fun c => ⟨?_, ?_⟩, fun r => ?_⟩, rfl, rfl, rfl, rfl, ?_⟩
  · rw [activity, State.activity_closeWindow, Activity.settle_eq]
  · simp only [activity]
    refine (Tab.get_ofFn _ r).trans ?_
    cases counts : s.serviced r && (s.live r).configured with
    | false => exact State.remoteLoad_of_out (s := s.closeWindow) counts
    | true =>
      cases sector : s.sectorOf r with
      | none => exact State.remoteLoad_of_none (s := s.closeWindow) sector
      | some x => exact State.remoteLoad_of_sector (s := s.closeWindow) counts sector
  · refine ⟨(Tab.get_ofFn _ x).trans ?_, (Tab.get_ofFn _ x).trans (congrArg List.length (members x))⟩
    rw [State.sectorLoad, members]
    exact congrArg List.sum (List.map_congr_left fun r _ => (Tab.get_ofFn _ r).symm)
  · simp only [activity]
    refine (Tab.get_ofFn _ c).trans ?_
    rw [State.carrierLoad]
    simp only [members]
    rfl
  · exact Tab.get_ofFn _ c
  · exact Tab.get_ofFn _ r
  · rw [ends]
    exact ⟨rfl, rfl, rfl, rfl, fun _ => Tab.get_const _ _, fun _ => Tab.get_const _ _, rfl, rfl, rfl, rfl, rfl, rfl, rfl, rfl,
      rfl, rfl⟩

end Sys2Proof.Machine
end

section
namespace Sys2Proof.Machine

/-! ## The laws of the Move Engine at every step (R73, R74, R77 to R86)

`Engine.MoveLaw` needs no law of supervision: what each operation does to the engine keeps `Engine.Orderly` by itself.
`Steers` says so of a change, and is carried from the engine's own operations up to the commands. -/

/-- A change keeps the engine's laws, in a phase that began with nothing to wait for as `Engine.Orderly` has it. -/
def Steers (e : Bool) (s t : State) : Prop := s.engine.Orderly e → t.engine.Orderly e

namespace Steers

variable {e : Bool} {s t u : State}

theorem refl (s : State) : Steers e s s := id

theorem trans (h : Steers e s t) (k : Steers e t u) : Steers e s u := k ∘ h

theorem of_engine (h : t.engine = s.engine) : Steers e s t := fun k => h ▸ k

theorem of_apart (h : Apart s t) : Steers e s t := of_engine h.engine

theorem ite {c : Prop} [Decidable c] (h : Steers e s t) (k : Steers e s u) : Steers e s (if c then t else u) := by
  split
  · exact h
  · exact k

theorem foldl {α : Type} {f : State → α → State} (h : ∀ s a, Steers e s (f s a)) (xs : List α) (s : State) :
    Steers e s (xs.foldl f s) := by
  induction xs generalizing s with
  | nil => exact refl s
  | cons a xs ih => exact (h s a).trans (ih (f s a))

theorem takeDue (s : State) (d : Due) {f : State → State} (h : ∀ t, Steers e t (f t)) : Steers e s (s.takeDue d f) :=
  ite ((of_apart (s.unDue_apart d)).trans (h _)) (refl s)

end Steers

/-! ### The end of a move and of a phase (R77, R79, R84, R86) -/

/-- A move in progress ends in IDLE, with nothing held. -/
theorem State.moveEnd_idle {s : State} {e : Bool} (h : s.engine.Orderly e) (o : MoveOutcome) :
    (s.moveEnd o).engine = Engine.idle := by
  rcases s.moveEnd_engine o with ended | same
  · exact ended
  · cases hm : s.engine.record with
    | none => rw [same]; exact h.idle (h.lawful.1.mpr hm)
    | some m => exact (State.moveEnd_apart hm o).engine

theorem State.moveEnd_steers {e : Bool} (s : State) (o : MoveOutcome) : Steers e s (s.moveEnd o) := fun h => by
  rw [State.moveEnd_idle h o]
  exact Engine.idle_orderly e

/-- FADE-OUT with nothing left to wait for goes to SWITCH-PENDING (R77). -/
theorem Engine.Orderly.pends {g : Engine} {e : Bool} (h : g.Orderly e) (fades : g.state = .fadeOut) :
    Engine.Orderly e { g with phaseSet := [], state := .switchPending } := by
  obtain ⟨recorded, -, -⟩ := h.lawful
  refine ⟨⟨⟨nofun, fun none => ?_⟩, fun _ => rfl, ?_⟩, nofun, h.shape, fun m hm => ?_, h.pending, fun _ => ?_,
    fun _ _ => nofun, fun _ => h.held (.inl fades), h.free⟩
  · rw [recorded.mpr none] at fades; cases fades
  · rintro (k | k | k) <;> cases k
  · have := h.switched m hm
    rw [fades] at this
    simpa using this
  · rintro (k | k | k) <;> cases k

/-- The phase set may shrink while something is left, and in a phase that began empty. -/
theorem Engine.Orderly.shrinks {g : Engine} {e : Bool} (h : g.Orderly e) {left : List RemoteId}
    (within : ∀ x ∈ left, x ∈ g.phaseSet) (some : e = false → left ≠ []) : Engine.Orderly e { g with phaseSet := left } := by
  obtain ⟨recorded, phaseless, holdless⟩ := h.lawful
  have empty : g.phaseSet = [] → left = [] := fun none =>
    List.eq_nil_iff_forall_not_mem.mpr fun x hx => by rw [none] at within; exact nomatch within x hx
  refine ⟨⟨recorded, fun k => empty (phaseless k), holdless⟩, fun k => ?_, h.shape, h.switched, h.pending,
    fun k _ => some k, fun m hm x hx => h.phase m hm x (within x hx), h.held, h.free⟩
  rw [empty (phaseless (.inl k)), ← phaseless (.inl k)]
  exact h.idle k

theorem State.leavePhase_steers {e : Bool} (s : State) (r : RemoteId) : Steers e s (s.leavePhase r) := fun h => by
  obtain ⟨-, phaseless, -⟩ := h.lawful
  unfold State.leavePhase
  split
  swap
  · exact h
  rename_i member
  have member : r ∈ s.engine.phaseSet := by simpa using member
  have notIdle : s.engine.state ≠ .idle := fun k => by rw [phaseless (.inl k)] at member; cases member
  have notPending : s.engine.state ≠ .switchPending := fun k => by rw [phaseless (.inr k)] at member; cases member
  simp only
  set left := s.engine.phaseSet.filter fun x => decide (x ≠ r) with hleft
  have within : ∀ x ∈ left, x ∈ s.engine.phaseSet := fun x hx => (List.mem_filter.mp hx).1
  split
  swap
  · rename_i some
    exact h.shrinks within fun _ none => some (by rw [none]; rfl)
  rename_i last
  have last : left = [] := by simpa using last
  set t : State := { s with engine := { s.engine with phaseSet := left } } with ht
  have ends : ∀ o, s.engine.record ≠ none → (t.moveEnd o).engine.Orderly e := fun o recorded => by
    obtain ⟨m, hm⟩ := Option.ne_none_iff_exists'.mp recorded
    rw [(State.moveEnd_apart (s := t) hm o).engine]
    exact Engine.idle_orderly e
  have recorded : s.engine.record ≠ none := fun q => notIdle (h.lawful.1.mpr q)
  unfold State.phaseDone
  cases state : t.engine.state with
  | fadeOut =>
    show Engine.Orderly e { s.engine with phaseSet := left, state := .switchPending }
    rw [last]
    exact h.pends state
  | fadeIn => exact ends .done recorded
  | recovering => exact ends .aborted recorded
  | idle => exact absurd state notIdle
  | switchPending => exact absurd state notPending

/-! ### Recomputes, completions and health changes (R32, R35, R80, R82, R125) -/

theorem State.reevalBoosts_steers {e : Bool} (s : State) (ys : List RemoteId) : Steers e s (s.reevalBoosts ys).1 :=
  .of_engine (s.reevalBoosts_rests ys).2

theorem State.evalSector_steers {e : Bool} (s : State) (x : Option SectorId) : Steers e s (s.evalSector x) :=
  .of_engine (s.evalSector_rests x).2

theorem State.evalDegraded_steers {e : Bool} (s : State) (b : Bool) (x : SectorId) : Steers e s (s.evalDegraded b x) := by
  unfold State.evalDegraded
  exact .ite (.of_engine rfl) (.ite (.of_engine rfl) (.of_engine rfl))

theorem State.engineRecompute_steers {e : Bool} (s : State) (r : RemoteId) : Steers e s (s.engineRecompute r) :=
  .ite (.trans (t := s.beginRamp r) (.of_engine rfl) (State.leavePhase_steers _ r)) (.of_engine rfl)

theorem State.joined_steers {e : Bool} (s : State) (r : RemoteId) : Steers e s (s.joined r) := by
  rw [State.joined_eq]
  have served : Steers e s (s.served r).1 := .trans (t := s.serve r) (.of_engine rfl) (State.reevalBoosts_steers _ _)
  exact (served.trans (State.evalSector_steers _ _)).trans (.foldl State.engineRecompute_steers _ _)

theorem State.completion_steers {e : Bool} (s : State) (r : RemoteId) : Steers e s (s.completion r) :=
  .ite ((s.leavePhase_steers r).trans (State.joined_steers _ r)) (s.leavePhase_steers r)

theorem State.recompute_steers {e : Bool} (s : State) (r : RemoteId) : Steers e s (s.recompute r) :=
  .ite (.trans (t := s.beginRamp r) (.of_engine rfl) (State.completion_steers _ r)) (.of_engine rfl)

theorem State.recomputeAll_steers {e : Bool} (s : State) (rs : List RemoteId) : Steers e s (s.recomputeAll rs) :=
  .foldl State.recompute_steers rs s

theorem State.settleHealth_steers {e : Bool} (s : State) (r : RemoteId) : Steers e s (s.settleHealth r) := by
  unfold State.settleHealth
  simp only
  exact ((s.reevalBoosts_steers _).trans (State.evalSector_steers _ _)).trans (State.recomputeAll_steers _ _)

theorem State.rampStep_steers {e : Bool} (s : State) : Steers e s s.rampStep :=
  .trans (t := s.ramped) (.of_engine rfl) (.foldl State.completion_steers _ _)

theorem State.thermalRecompute_steers {e : Bool} (s : State) (r : RemoteId) (a : Alarms) :
    Steers e s (s.thermalRecompute r a) := by
  unfold State.thermalRecompute
  simp only
  exact .ite (.refl s) ((s.reevalBoosts_steers _).trans (State.recomputeAll_steers _ _))

/-- A departure ABANDONS a single move before its switch, and a batch goes on without the remote (R80, R82). -/
theorem State.engineDeparture_steers (s : State) (r : RemoteId) : Steers false s (s.engineDeparture r) := fun h => by
  cases hm : s.engine.record with
  | none => rw [State.engineDeparture_none hm]; exact h
  | some m =>
    by_cases before : s.engine.state = .fadeOut ∨ s.engine.state = .switchPending
    · by_cases batch : m.kind = .batch
      · rw [State.engineDeparture_batch h hm before batch]
        exact h.withoutRemote hm before batch r
      · rw [State.engineDeparture_single hm before batch]
        split
        · exact s.moveEnd_steers _ h
        · exact h
    · rw [State.engineDeparture_after hm (by simpa using before)]
      exact h

theorem State.enterOut_steers (s : State) (r : RemoteId) (k : Health) (c : Option Cause) :
    Steers false s (s.enterOut r k c) := by
  have departing : Steers false s (s.departing r k c) := .of_engine rfl
  have departed : Steers false s (s.departed r k c) :=
    .ite (departing.trans (State.engineDeparture_steers _ r)) departing
  rw [State.enterOut_eq]
  exact (departed.trans (.ite (.refl _) (.of_apart (State.abortPass_apart _ r)))).trans (State.settleHealth_steers _ r)

theorem State.lose_steers (s : State) (r : RemoteId) (c : Cause) : Steers false s (s.lose r c) := by
  rw [State.lose_eq]
  have losing : Steers false s (s.losing r c) := .of_apart (s.losing_apart r c)
  exact .ite (losing.trans (State.enterOut_steers _ _ _ _)) (losing.trans (State.enterOut_steers _ _ _ _))

/-- A batch before its switch may hold one remote more (R82). -/
theorem Engine.Orderly.holds {g : Engine} (h : g.Orderly false) (before : g.state = .fadeOut ∨ g.state = .switchPending)
    (batch : ∀ m, g.record = some m → m.kind = .batch) (r : RemoteId) :
    Engine.Orderly false { g with holdSet := g.holdSet ++ [r] } := by
  obtain ⟨recorded, phaseless, -⟩ := h.lawful
  have notAfter : ¬(g.state = .idle ∨ g.state = .fadeIn ∨ g.state = .recovering) := by
    rcases before with q | q <;> simp [q]
  exact ⟨⟨recorded, phaseless, fun q => absurd q notAfter⟩, fun q => absurd (.inl q) notAfter, h.shape, h.switched,
    h.pending, h.waiting, h.phase, fun q m hm => ⟨fun x hx => List.mem_append_left _ ((h.held q m hm).1 x hx),
      fun other => absurd (batch m hm) other⟩, nofun⟩

theorem State.holdRemote_steers {s : State} (before : s.engine.state = .fadeOut ∨ s.engine.state = .switchPending)
    (batch : s.batchRunning = true) (r : RemoteId) : Steers false s (s.holdRemote r) := fun h => by
  unfold State.holdRemote
  split
  · exact h
  obtain ⟨m, hm, kind⟩ := s.batchRunning_iff.mp batch
  exact h.holds before (fun n hn => by rw [hm] at hn; cases hn; exact kind) r

theorem State.enterJoining_steers (s : State) (r : RemoteId) : Steers false s (s.enterJoining r) := by
  unfold State.enterJoining
  simp only
  refine Steers.trans ?_ (State.settleHealth_steers _ r)
  split
  · rename_i hold
    simp only [Bool.and_eq_true, Bool.or_eq_true, decide_eq_true_eq] at hold
    obtain ⟨running, before⟩ := hold
    exact .trans (.of_engine rfl) (State.holdRemote_steers before running r)
  · exact .of_engine rfl

theorem State.takeAlarms_steers (s : State) (r : RemoteId) (a : Alarms) : Steers false s (s.takeAlarms r a) := by
  have taken : Steers false s ((s.modSup r fun v => { v with alarms := a }).deriveMode r) := .of_engine rfl
  exact (taken.trans (.of_apart (State.postOutputs_apart _ r _ _))).trans (.of_apart (State.postThermal_apart _ r _ _))

theorem State.identityChecks_steers (s : State) (r : RemoteId) (b : List Byte) :
    Steers false s (s.identityChecks r b) := by
  have accepted : Steers false s (s.acceptJoin r b) := by
    unfold State.acceptJoin
    simp only
    set a := s.modSup r fun v => { v with
      serial := some (statusSerial b), position := some (statusPosition b) } with ha
    have known : Steers false s (a.takeAlarms r (statusAlarms b)) :=
      .trans (t := a) (.of_engine rfl) (a.takeAlarms_steers r _)
    exact .ite (known.trans (State.thermalRecompute_steers _ r _)) (known.trans (State.enterJoining_steers _ r))
  unfold State.identityChecks State.duplicateCheck
  split
  · exact .of_engine rfl
  · split
    · exact .of_engine rfl
    · exact accepted

theorem State.acceptInService_steers (s : State) (r : RemoteId) (b : List Byte) :
    Steers false s (s.acceptInService r b) := by
  unfold State.acceptInService
  simp only
  set a := s.modSup r fun v => { v with position := some (statusPosition b) } with ha
  have known : Steers false s (a.takeAlarms r (statusAlarms b)) :=
    .trans (t := a) (.of_engine rfl) (a.takeAlarms_steers r _)
  generalize a.takeAlarms r (statusAlarms b) = t at known
  split
  · exact known.trans (t.lose_steers r _)
  split
  · exact known.trans (t.thermalRecompute_steers r _)
  · exact known.trans (.trans (t := t.modSup r _) (.of_engine rfl) (State.settleHealth_steers _ r))

theorem State.inServiceCheck_steers (s : State) (r : RemoteId) (b : List Byte) :
    Steers false s (s.inServiceCheck r b) :=
  .ite (s.acceptInService_steers r b) (s.lose_steers r _)

theorem State.statusArrives_steers (s : State) (r : RemoteId) (b : List Byte) : Steers false s (s.statusArrives r b) := by
  unfold State.statusArrives
  simp only
  set a := s.modSup r fun v => { v with miss := 0, awaiting := false, report := some ⟨b, s.now⟩ } with ha
  have known : Steers false s a := .of_engine rfl
  split
  · exact known
  · exact known
  · exact known.trans (a.identityChecks_steers r b)
  · exact known.trans (a.identityChecks_steers r b)
  all_goals exact known.trans (a.inServiceCheck_steers r b)

theorem State.pollRemote_steers (s : State) (r : RemoteId) : Steers false s (s.pollRemote r) := by
  refine .ite (.refl s) (.trans ?_ (.of_apart (State.queuePoll_apart _ r)))
  set a := (if (s.supRec r).awaiting then s.modSup r fun v => { v with miss := min 15 (v.miss + 1) } else s) with ha
  have missed : Steers false s a := .ite (.of_engine rfl) (.refl s)
  exact missed.trans (.ite (State.lose_steers _ r _) (.refl _))

theorem State.pollExpires_steers (s : State) : Steers false s s.pollExpires :=
  .trans (t := { s with sup := { s.sup with pollCount := 0, pollForce := s.settings.poll } }) (.of_engine rfl)
    (.foldl State.pollRemote_steers _ _)

theorem State.graceExpires_steers (s : State) (r : RemoteId) : Steers false s (s.graceExpires r) :=
  .ite (.trans (t := s.modSup r fun v => { v with grace := none }) (.of_engine rfl) (State.lose_steers _ r _))
    (.of_engine rfl)

theorem State.isolate_steers (s : State) (r : RemoteId) : Steers false s (s.isolate r) :=
  .trans (t := s.post .remoteIsolated (.remote r) (word16 Cause.command.code)) (.of_engine rfl)
    (State.enterOut_steers _ _ _ _)

theorem State.restore_steers (s : State) (r : RemoteId) : Steers false s (s.restore r) := by
  unfold State.restore State.pollIfLocked
  simp only
  set a := (s.modSup r fun v => { v with flap := 0, decay := none }).unDue (.flap r) with ha
  have entered : Steers false s (a.enterOut r .waiting none) := .trans (t := a) (.of_engine rfl) (a.enterOut_steers _ _ _)
  exact entered.trans (.ite (.of_apart (State.queuePoll_apart _ r)) (.refl _))

end Sys2Proof.Machine
end

section
namespace Sys2Proof.Machine

/-! ### Starts, switches and recovery (R74, R77, R78, R81, R83, R86) -/

/-- The engine as a move starts (R77, R81). -/
theorem Started.orderly {m : MoveRecord} {p : Option PlanMap} {s t : State} (h : Started m p s t) (shape : m.Shape)
    (switch : m.switchFc = none) (plan : p.isSome = true ↔ m.kind = .batch) : t.engine.Orderly false := by
  rw [h.engine]
  by_cases all : ∀ r ∈ m.fading, (s.ramp r).present = 0
  · have none : (m.fading.filter fun r => decide ((s.ramp r).present ≠ 0)) = [] :=
      List.filter_eq_nil_iff.mpr fun r hr => by simp [all r hr]
    rw [if_pos all, none]
    refine ⟨⟨⟨nofun, nofun⟩, fun _ => rfl, ?_⟩, nofun, ?_, ?_, ?_, fun _ => ?_, fun _ _ => nofun, ?_, nofun⟩
    · rintro (k | k | k) <;> cases k
    · rintro _ ⟨⟩; exact shape
    · rintro _ ⟨⟩; simp [switch]
    · rintro _ ⟨⟩; exact plan
    · rintro (k | k | k) <;> cases k
    · rintro _ _ ⟨⟩; exact ⟨fun _ => id, fun _ => rfl⟩
  · rw [if_neg all]
    push Not at all
    obtain ⟨r, hr, present⟩ := all
    have some : (m.fading.filter fun r => decide ((s.ramp r).present ≠ 0)) ≠ [] :=
      List.ne_nil_of_mem (List.mem_filter.mpr ⟨hr, by simpa using present⟩)
    refine ⟨⟨⟨nofun, nofun⟩, ?_, ?_⟩, nofun, ?_, ?_, ?_, fun _ _ => some, ?_, ?_, nofun⟩
    · rintro (k | k) <;> cases k
    · rintro (k | k | k) <;> cases k
    · rintro _ ⟨⟩; exact shape
    · rintro _ ⟨⟩; simp [switch]
    · rintro _ ⟨⟩; exact plan
    · rintro _ ⟨⟩ x hx; exact (List.mem_filter.mp hx).1
    · rintro _ _ ⟨⟩; exact ⟨fun _ => id, fun _ => rfl⟩

theorem State.startSingle_steers (s : State) {k : MoveKind} (single : k ≠ .batch) (r : RemoteId) (y : SectorId) :
    Steers false s (s.startSingle k r y).1 := fun h => by
  by_cases idle : s.engine.state = .idle
  · obtain ⟨-, st⟩ := State.startSingle_started idle k r y
    exact st.orderly ⟨rfl, by simp [single], fun _ => ⟨_, _, _, rfl, rfl⟩, by simp⟩ rfl (by simp [single])
  · rw [State.startSingle_busy idle]; exact h

/-- The record of a batch has the shape R74 gives it. -/
theorem State.batchTo_shape (s : State) (p : PlanId) : (s.batchTo p).Shape :=
  ⟨rfl, by simp [State.batchTo], fun k => absurd rfl k, fun r hr =>
    ⟨_, List.mem_map.mpr ⟨r, (List.mem_filter.mp hr).1, rfl⟩, rfl⟩⟩

theorem State.startCutOver_steers (s : State) (p : PlanId) : Steers false s (s.startCutOver p).1 := fun h => by
  by_cases idle : s.engine.state = .idle
  · obtain ⟨-, st⟩ := State.startCutOver_started idle p
    exact st.orderly (s.batchTo_shape p) rfl ⟨fun _ => rfl, fun _ => rfl⟩
  · rw [State.startCutOver_busy idle]; exact h

/-- FADE-IN after a switch, of a phase set among the fading remotes (R78, R83). -/
theorem MoveRecord.Shape.fadeIn {m : MoveRecord} (h : m.Shape) (fc : FC) {phase : List RemoteId} {p : Option PlanMap}
    (within : ∀ r ∈ phase, r ∈ m.fading) (plan : p.isSome = true ↔ m.kind = .batch) :
    Engine.Orderly phase.isEmpty ⟨.fadeIn, some { m with switchFc := some fc }, phase, [], p⟩ := by
  refine ⟨⟨⟨nofun, nofun⟩, ?_, fun _ => rfl⟩, nofun, ?_, ?_, ?_, fun some _ => by simpa using some, ?_, ?_, fun _ => rfl⟩
  · rintro (k | k) <;> cases k
  · rintro _ ⟨⟩; exact ⟨h.outcome, h.plan, h.single, h.fading⟩
  · rintro _ ⟨⟩; simp
  · rintro _ ⟨⟩; exact plan
  · rintro _ ⟨⟩; exact within
  · rintro (k | k) <;> cases k

theorem State.singleSwitch_steers {s : State} (single : s.batchRunning = false) : Steers false s s.singleSwitch := fun h => by
  unfold State.singleSwitch
  cases hm : s.engine.record with
  | none => exact h
  | some m =>
    have kind : m.kind ≠ .batch := fun k => by
      rw [s.batchRunning_iff.mpr ⟨m, hm, k⟩] at single; cases single
    obtain ⟨r, x, y, places, fading⟩ := (h.shape m hm).single kind
    simp only [places]
    have fadeIn : ∀ a : State, (a.enterFadeIn m [r] none).engine.Orderly false := fun a =>
      (h.shape m hm).fadeIn a.now (phase := [r]) (by rw [fading]; exact fun _ => id) (by simp [kind])
    have entered := fadeIn (if m.kind = .manual then (s.changeSector r (some y)).diverge else s.changeSector r (some y))
    revert entered
    generalize (if m.kind = .manual then (s.changeSector r (some y)).diverge
      else s.changeSector r (some y)).enterFadeIn m [r] none = a
    have tail : ∀ ys, Steers false a (((a.reevalBoosts ys).1.evalSector x).evalDegraded true y) := fun ys =>
      ((a.reevalBoosts_steers ys).trans (State.evalSector_steers _ x)).trans (State.evalDegraded_steers _ true y)
    exact fun entered => State.recomputeAll_steers _ _ (tail _ entered)

theorem State.evaluateAll_steers {e : Bool} (s : State) : Steers e s s.evaluateAll.1 := by
  have boosted : Steers e s (s.reevalBoosts (List.finRange 16)).1 := s.reevalBoosts_steers _
  rw [State.evaluateAll_eq]
  generalize s.reevalBoosts (List.finRange 16) = p at boosted
  generalize List.finRange 8 = xs
  exact boosted.trans (.foldl (fun t x => t.evalDegraded_steers true x) xs p.1)

/-- A batch whose phase began with nothing to wait for ends at once (R83, R84). -/
theorem State.wholeSwitch_steers (s : State) : Steers false s s.wholeSwitch := fun h => by
  unfold State.wholeSwitch
  cases hm : s.engine.record with
  | none => exact h
  | some m =>
    cases hn : s.engine.pendingMap with
    | none => exact h
    | some new =>
      simp only
      set t := (s.applyMap new).applyHealths s with ht
      set phase := m.fading.filter fun r => decide (t.health r ≠ .vacant) with hphase
      set u := t.enterFadeIn m phase (some new) with hu
      have batch : m.kind = .batch := (h.pending m hm).mp (by rw [hn]; rfl)
      have entered : u.engine.Orderly phase.isEmpty :=
        (h.shape m hm).fadeIn _ (fun r hr => (List.mem_filter.mp hr).1) (by simp [batch])
      have recomputed := State.recomputeAll_steers _ (u.evaluateAll.1.recomputedAfter s u.evaluateAll.2)
        (u.evaluateAll_steers entered)
      split
      · rw [State.moveEnd_idle recomputed]
        exact Engine.idle_orderly false
      · rename_i some
        rw [show phase.isEmpty = false by simpa using some] at recomputed
        exact recomputed

theorem State.switchFalls_steers (s : State) : Steers false s s.switchFalls := by
  unfold State.switchFalls
  split
  swap
  · exact .refl s
  split
  · exact s.wholeSwitch_steers
  · rename_i single
    exact State.singleSwitch_steers (by simpa using single)

/-- RECOVERING waits for every fading remote (R86). -/
theorem Engine.Orderly.recovers {g : Engine} {m : MoveRecord} (h : g.Orderly false) (hm : g.record = some m)
    (fades : g.state = .fadeOut) :
    Engine.Orderly m.fading.isEmpty { g with state := .recovering, phaseSet := m.fading, holdSet := [] } := by
  have only : ∀ {n}, g.record = some n → m = n := fun hn => Option.some.inj (hm.symm.trans hn)
  have switched := h.switched m hm
  rw [fades] at switched
  refine ⟨⟨⟨nofun, fun q => nomatch hm.symm.trans q⟩, ?_, fun _ => rfl⟩, nofun, h.shape, fun n hn => ?_, h.pending,
    fun some _ => by simpa using some, fun n hn r hr => only hn ▸ hr, ?_, fun _ => rfl⟩
  · rintro (q | q) <;> cases q
  · rw [← only hn]; simpa using switched
  · rintro (q | q) <;> cases q

theorem State.startRecovery_steers {s : State} (fades : s.engine.state = .fadeOut) : Steers false s s.startRecovery :=
    fun h => by
  unfold State.startRecovery
  cases hm : s.engine.record with
  | none => exact h
  | some m =>
    have entered : (s.enterRecovery m).engine.Orderly m.fading.isEmpty := h.recovers hm fades
    have recomputed := State.recomputeAll_steers _ s.engine.holdSet entered
    simp only
    split
    · rw [State.moveEnd_idle recomputed]
      exact Engine.idle_orderly false
    · rename_i some
      rw [show m.fading.isEmpty = false by simpa using some] at recomputed
      exact recomputed

/-! ### The live map and the schedule (R110, R116) -/

theorem State.loadRemote_steers (s : State) (r : RemoteId) : Steers false s (s.loadRemote r) := by
  unfold State.loadRemote
  simp only
  refine .trans (.ite ?_ (.ite ?_ (.refl s))) (.of_apart (State.deriveMode_apart _ r))
  · exact .of_engine (s.bringIn_ports r).1.rest.engine
  · exact .of_engine (s.vacate_ports r).1.rest.engine

theorem State.loadMap_steers (s : State) : Steers false s s.loadMap := by
  unfold State.loadMap
  simp only
  have started : Steers false s s.takeStartPlan := .of_engine rfl
  have loaded := started.trans (.foldl State.loadRemote_steers (List.finRange 16) _)
  exact ((loaded.trans (State.reevalBoosts_steers _ _)).trans
    (.foldl (fun t x => t.evalDegraded_steers false x) _ _)).trans (State.recomputeAll_steers _ _)

theorem State.testSchedule_steers (s : State) (c : Schedule) : Steers false s (s.testSchedule c) := by
  unfold State.testSchedule
  split
  · exact .of_engine rfl
  · simp only
    split
    · exact (s.startCutOver_steers c.plan).trans (.of_engine rfl)
    · exact .of_engine rfl

theorem State.dueTest_steers (s : State) : Steers false s s.dueTest := by
  unfold State.dueTest
  split
  · exact .ite (s.testSchedule_steers _) (.refl s)
  · exact .refl s

theorem State.waitingTest_steers (s : State) : Steers false s s.waitingTest := by
  unfold State.waitingTest
  split
  · exact .ite (s.testSchedule_steers _) (.refl s)
  · exact .refl s

/-! ### The window end (R91 to R102) -/

theorem State.spread_steers (s : State) (p : Published) : Steers false s (s.spread p) := by
  have judged : Apart s ((s.judgeSettled p).updateStreaks p) := .of_spreader rfl
  have evaluated : Steers false s (((s.judgeSettled p).updateStreaks p).evaluate p).1 :=
    .of_apart (judged.trans (State.evaluate_apart _ p))
  unfold State.spread
  simp only
  split
  · exact evaluated.trans (.of_engine rfl)
  · exact evaluated.trans (.of_engine rfl)

theorem State.spreadEnds_steers (s : State) : Steers false s s.spreadEnds := by
  unfold State.spreadEnds
  split
  · exact s.spread_steers _
  · exact .refl s

theorem State.takeRequested_steers (s : State) : Steers false s s.takeRequested := by
  unfold State.takeRequested
  split
  swap
  · exact .refl s
  rename_i q _
  have begun : Steers false s ((s.setRequest none).startSingle q.kind.move q.remote q.dest).1 :=
    .trans (t := s.setRequest none) (.of_engine rfl) (State.startSingle_steers _ (by cases q.kind <;> nofun) _ _)
  unfold State.answerRequest
  simp only
  split
  · exact (begun.trans (.of_apart (State.clearStreak_apart _ q))).trans (.of_engine rfl)
  · exact begun.trans (.of_engine rfl)

theorem State.meterEnds_steers (s : State) : Steers false s s.meterEnds := .of_apart s.meterEnds_apart

theorem State.windowPart_steers (s : State) (part : WindowPart) : Steers false s (s.windowPart part) := by
  unfold State.windowPart
  cases part with
  | whole =>
    exact Steers.takeDue s .window (f := State.windowEnd) fun t =>
      (t.meterEnds_steers.trans (State.spreadEnds_steers _)).trans (State.takeRequested_steers _)
  | meter => exact .takeDue s _ fun t => t.meterEnds_steers.trans (.of_apart (State.markDue_apart _ _))
  | spread =>
    refine .takeDue s _ fun t => t.spreadEnds_steers.trans ?_
    exact .ite (.of_apart (State.markDue_apart _ _)) (.refl _)
  | start => exact .takeDue s _ (f := State.takeRequested) State.takeRequested_steers

end Sys2Proof.Machine
end

section
namespace Sys2Proof.Machine

/-! ### Messages, links and boundaries -/

theorem State.takeRemoteMessage_steers (s : State) (r : RemoteId) (kind : Byte) {f : State → Message → State}
    (h : ∀ t m, Steers false t (f t m)) : Steers false s (s.takeRemoteMessage r kind f) := by
  unfold State.takeRemoteMessage
  split
  · exact .ite (.trans (.of_apart (s.modFramer_apart _ _)) (h _ _)) (.refl s)
  · exact .refl s

theorem State.takeStatus_steers (s : State) (r : RemoteId) : Steers false s (s.takeStatus r) :=
  s.takeRemoteMessage_steers r _ fun t m => t.statusArrives_steers r m.body

theorem State.takeReply_steers (s : State) (r : RemoteId) : Steers false s (s.takeReply r) :=
  s.takeRemoteMessage_steers r _ fun t m => .of_apart (t.replyArrives_apart r m)

theorem State.takeBusy_steers (s : State) (r : RemoteId) : Steers false s (s.takeBusy r) :=
  s.takeRemoteMessage_steers r _ fun t m => .of_apart (t.busyArrives_apart r m)

theorem State.drainRemote_steers (r : RemoteId) (n : Nat) : ∀ s : State, Steers false s (s.drainRemote r n) := by
  induction n with
  | zero => exact .refl
  | succ n ih =>
    intro s
    refine .trans (t := s.takeAnyRemote r) ?_ (ih _)
    unfold State.takeAnyRemote
    split
    · exact .ite (s.takeStatus_steers r) (.ite (s.takeReply_steers r) (s.takeBusy_steers r))
    · exact .refl s

theorem State.drainHanded_steers (s : State) : Steers false s s.drainHanded := by
  have remotes := Steers.foldl (e := false) (f := fun (t : State) r => t.drainRemote r (t.framer (.remote r)).handed.length)
    (fun t r => State.drainRemote_steers r _ t) (List.finRange 16) s
  have donors := fun u : State => Steers.foldl (e := false)
    (f := fun (t : State) n => t.drainService (.donor n) (t.framer (.donor n)).handed.length)
    (fun t n => .of_apart (t.drainService_apart (.donor n) _)) (List.finRange 4) u
  exact (remotes.trans (donors _)).trans (.of_apart (State.drainService_apart _ _ _))

theorem State.takeStatuses_steers (r : RemoteId) (n : Nat) : ∀ s : State, Steers false s (s.takeStatuses r n) := by
  induction n with
  | zero => exact .refl
  | succ n ih =>
    intro s
    refine .trans (t := s.takeWaitingStatus r) ?_ (ih _)
    unfold State.takeWaitingStatus
    split
    · exact .trans (.of_apart (s.modFramer_apart _ _)) (State.statusArrives_steers _ _ _)
    · exact .refl s

theorem State.loseLock_steers (s : State) (l : Link) (next : RxState) (own : Framer → Framer) :
    Steers false s (s.loseLock l next own) := by
  have arrived : Steers false s (s.takeArrived l) := by
    cases l with
    | donor n => exact .of_apart (s.drainService_apart _ _)
    | remote r => exact State.takeStatuses_steers r _ s
    | service => exact .of_apart (s.drainService_apart _ _)
  exact (arrived.trans (.of_apart (State.modFramer_apart _ l _))).trans (.of_apart (State.leaveLocked_apart _ l))

theorem State.frameEnds_steers (s : State) (l : Link) (x : LinkFrame) : Steers false s (s.frameEnds l x) := by
  refine .ite (.of_apart (s.goodFrame_apart l x)) ?_
  unfold State.erroredFrame
  simp only
  split
  · exact .refl s
  · exact .refl s
  · exact .of_apart (s.modFramer_apart _ _)
  · exact .ite (s.loseLock_steers l _ _) (.of_apart (s.modFramer_apart _ _))

theorem State.lossOfSignal_steers (s : State) (l : Link) : Steers false s (s.lossOfSignal l) :=
  .ite (s.loseLock_steers l _ _) (.of_apart (s.modFramer_apart _ _))

/-- A reset and a RESTART leave the engine IDLE (R73, R165, R167). -/
theorem Steers.idle {s t : State} (h : t.engine = Engine.idle) : Steers false s t := fun _ => h ▸ Engine.idle_orderly false

theorem State.dueEffect_steers (s : State) (e : Due) : Steers false s (s.dueEffect e) := by
  cases e with
  | switch => exact s.switchFalls_steers
  | rampStep => exact s.rampStep_steers
  | sender l => exact .of_apart (s.startAny_apart l)
  | window => exact (s.meterEnds_steers.trans (State.spreadEnds_steers _)).trans (State.takeRequested_steers _)
  | spread => exact s.spreadEnds_steers.trans (State.takeRequested_steers _)
  | startRequest => exact s.takeRequested_steers
  | poll => exact s.pollExpires_steers
  | pacing => exact .of_apart s.pacingExpires_apart
  | donorGrace n => exact .of_apart (s.donorGraceExpires_apart n)
  | linkGrace r => exact s.graceExpires_steers r
  | flap r => exact .of_engine rfl
  | passTimeout r => exact .of_apart (s.passExpires_apart r)
  | retryEnd r => exact .of_apart (s.retryEnds_apart r)
  | schedule => exact s.dueTest_steers
  | retest => exact s.waitingTest_steers
  | sent r t => exact .of_apart (s.sentReport_apart r t)
  | restart => exact .idle rfl

theorem State.takeDue_steers (s : State) (e : Due) : Steers false s (s.takeDue e fun t => t.dueEffect e) :=
  .takeDue s e fun t => t.dueEffect_steers e

theorem State.takeList_steers (s : State) (es : List Due) : Steers false s (s.takeList es) :=
  .foldl State.takeDue_steers es s

theorem State.beforeFrames_steers (s : State) : Steers false s s.beforeFrames :=
  ((s.takeDue_steers .switch).trans (State.takeDue_steers _ .rampStep)).trans (.of_apart (State.startSenders_apart _))

theorem State.actBoundary_steers (s : State) : Steers false s s.actBoundary := by
  have acted := (Steers.of_apart (s.setActing_apart false)).trans (State.beforeFrames_steers _)
  exact .ite (acted.trans (.of_apart (State.framesAround_apart _ _ State.combine_apart))) (.refl s)

theorem State.actReleaseFirst_steers (s : State) : Steers false s s.actReleaseFirst := by
  have released := (Steers.of_apart (e := false) (s.setActing_apart false)).trans
    (.of_apart (State.combine_apart _))
  exact .ite ((released.trans (State.beforeFrames_steers _)).trans (.of_apart (State.framesAround_apart _ _ Apart.refl)))
    (.refl s)

theorem State.afterTick_steers (s : State) (first : Bool) : Steers false s (s.afterTick first) := by
  unfold State.afterTick
  simp only
  have loaded : Steers false s (if s.map.loadNext then s.loadMap else s) := .ite s.loadMap_steers (.refl s)
  generalize (if s.map.loadNext then s.loadMap else s) = a at loaded
  have posted : Steers false s (if first then a.postDefaulted else a) :=
    loaded.trans (.ite (.of_apart a.postDefaulted_apart) (.refl a))
  generalize (if first then a.postDefaulted else a) = b at posted
  exact posted.trans (.of_apart (((b.tickAll_apart first).trans (State.markAll_apart _ _)).trans (State.setActing_apart _ _)))

theorem State.emitBoundary_steers (s : State) : Steers false s s.emitBoundary := by
  have settled : Steers false s s.settle :=
    ((s.actBoundary_steers.trans (State.takeList_steers _ _)).trans (State.drainHanded_steers _)).trans
      (State.takeList_steers _ _)
  exact .ite ((settled.trans (.of_apart (State.tickClock_apart _))).trans (State.afterTick_steers _ _)) (.refl s)

theorem State.boundaryPart_steers (s : State) (p : BoundaryPart) : Steers false s (s.boundaryPart p) := by
  cases p with
  | whole => exact s.emitBoundary_steers.trans (State.actBoundary_steers _)
  | emit => exact s.emitBoundary_steers
  | act => exact s.actBoundary_steers
  | releaseFirst => exact s.actReleaseFirst_steers

/-! ### Requests -/

/-- Whatever state a verdict answers keeps the engine's laws. -/
def Verdict.Steers (s : State) (v : Verdict) : Prop := ∀ t b, v = .ok (t, b) → Machine.Steers false s t

namespace Verdict.Steers

variable {s : State}

theorem error (st : Status) : Verdict.Steers s (.error st) := fun _ _ h => by cases h

theorem done {t : State} {b : List Byte} (h : Machine.Steers false s t) : Verdict.Steers s (.ok (t, b)) := fun _ _ k => by
  cases k; exact h

theorem report (b : List Byte) : Verdict.Steers s (.ok (s, b)) := done (.refl s)

theorem need {α : Type} {st : Status} {x : Option α} {f : α → Verdict} (h : ∀ a, Verdict.Steers s (f a)) :
    Verdict.Steers s (Machine.need st x f) := by
  unfold Machine.need
  split
  · exact h _
  · exact error st

theorem refuseIf {c : Bool} {st : Status} {v : Verdict} (h : Verdict.Steers s v) :
    Verdict.Steers s (Machine.refuseIf c st v) := by
  unfold Machine.refuseIf
  split
  · exact error st
  · exact h

theorem ite {c : Prop} [Decidable c] {v w : Verdict} (h : Verdict.Steers s v) (k : Verdict.Steers s w) :
    Verdict.Steers s (if c then v else w) := by
  split
  · exact h
  · exact k

end Verdict.Steers

section Requests

variable (s : State) (b : List Byte)

theorem State.setRemoteEntry_steers (r : RemoteId) (e : RemoteEntry) : Steers false s (s.setRemoteEntry r e) := by
  unfold State.setRemoteEntry
  simp only
  split
  · exact .refl s
  set a := ((s.modLive r fun _ => e).diverge).deriveMode r with ha
  have written : Steers false s a := .of_engine rfl
  clear_value a
  have boosted : Steers false s (if e.partners = (s.live r).partners ∧ e.boost = (s.live r).boost then (a, [])
      else a.reevalBoosts (List.finRange 16)).1 := by
    split
    · exact written
    · exact written.trans (a.reevalBoosts_steers _)
  generalize (if e.partners = (s.live r).partners ∧ e.boost = (s.live r).boost then (a, [])
    else a.reevalBoosts (List.finRange 16)) = p at boosted
  exact .ite (boosted.trans (State.recomputeAll_steers _ _)) (boosted.trans (State.recomputeAll_steers _ _))

theorem State.setSectorEntry_steers (x : SectorId) (e : SectorEntry) : Steers false s (s.setSectorEntry x e) := by
  unfold State.setSectorEntry
  simp only
  split
  · exact .refl s
  set a : State := State.diverge { s with map := { s.map with sectors := s.map.sectors.set x e } } with ha
  have written : Steers false s a := .of_engine rfl
  exact .ite written (written.trans (a.evalDegraded_steers true x))

theorem State.askWriteSettings_steers : Verdict.Steers s (s.askWriteSettings b) :=
  .refuseIf (.refuseIf (.need fun c => .done (.of_apart (s.applySettings_apart _ c))))

theorem State.askWriteCarrier_steers : Verdict.Steers s (s.askWriteCarrier b) :=
  .need fun _ => .need fun _ => .refuseIf (.refuseIf (.done (.of_engine rfl)))

theorem State.askReadPlan_steers : Verdict.Steers s (s.askReadPlan b) :=
  .need fun _ => .ite (.report _) (.ite (.need fun _ => .report _) (.need fun _ => .report _))

theorem State.askWritePlan_steers : Verdict.Steers s (s.askWritePlan b) :=
  .need fun _ => .ite (.need fun _ => .done (.of_engine rfl))
    (.ite (.need fun _ => .need fun _ => .done (.of_engine rfl)) (.need fun _ => .need fun _ => .done (.of_engine rfl)))

theorem State.askSetRemote_steers : Verdict.Steers s (s.askSetRemote b) :=
  .ite (.need fun r => .refuseIf (.refuseIf (.need fun e => .done (s.setRemoteEntry_steers r e))))
    (.need fun x => .refuseIf (.need fun e => .done (s.setSectorEntry_steers x e)))

theorem State.askMove_steers : Verdict.Steers s (s.askMove b) :=
  .need fun r => .refuseIf (.refuseIf (.need fun y => .refuseIf (.refuseIf
    (.done (s.startSingle_steers (by decide) r y)))))

theorem State.askAbort_steers : Verdict.Steers s s.askAbort := by
  unfold State.askAbort
  split
  · rename_i fades; exact .done (State.startRecovery_steers fades)
  all_goals exact .error _

theorem State.askCutOver_steers : Verdict.Steers s (s.askCutOver b) :=
  .need fun p => .refuseIf (.refuseIf (.done (s.startCutOver_steers p)))

theorem State.askCue_steers : Verdict.Steers s s.askCue := by
  refine .need fun c => .done ?_
  set a := (s.setSchedule (some { c with dueFc := s.now })).unDue .schedule with ha
  have moved : Steers false s a := .of_engine rfl
  exact .ite moved (moved.trans (a.testSchedule_steers _))

theorem State.askIsolate_steers : Verdict.Steers s (s.askIsolate b) :=
  .need fun r => .refuseIf (.done (.ite (.refl s) (s.isolate_steers r)))

theorem State.askTap_steers : Verdict.Steers s (s.askTap b) := by
  have selected : ∀ x, Verdict.Steers s (ok (s.setTap x)) := fun _ => .done (.of_engine rfl)
  exact .ite (selected _) (.ite (.need fun _ => selected _) (.ite (.need fun _ => .need fun _ => selected _)
    (.need fun _ => .need fun _ => selected _)))

/-- A request that is taken and answered. -/
theorem State.takeRequest_steers (kind : Byte) {f : State → Request → Verdict} (h : ∀ t q, Verdict.Steers t (f t q)) :
    Steers false s (s.takeRequest kind f) := by
  unfold State.takeRequest
  split
  swap
  · exact .refl s
  rename_i q _
  refine .ite ?_ (.refl s)
  have dropped : Steers false s s.dropRequest := .of_engine rfl
  have judged : Verdict.Steers s.dropRequest (s.dropRequest.judge q f) := by
    unfold State.judge
    split
    · exact .error _
    · exact h _ q
  unfold State.conclude
  split
  · rename_i t body answer
    exact (dropped.trans (judged t body answer)).trans (.of_engine rfl)
  · exact dropped.trans (.of_engine rfl)

theorem State.takeSave_steers : Steers false s s.takeSave := by
  unfold State.takeSave State.executeSave
  split
  · refine .ite ?_ (.refl s)
    split
    · exact .of_engine rfl
    · split
      · exact .of_engine rfl
      · exact .ite (.of_engine rfl) (.of_engine rfl)
  · exact .refl s

theorem State.takeRestart_steers : Steers false s s.takeRestart := by
  unfold State.takeRestart State.executeRestart
  split
  · refine .ite ?_ (.refl s)
    split <;> exact .of_engine rfl
  · exact .refl s

theorem State.takeUnknown_steers : Steers false s s.takeUnknown := by
  unfold State.takeUnknown
  split
  · exact .ite (.of_engine rfl) (.refl s)
  · exact .refl s

end Requests

/-! ### Every command -/

theorem exec_steers {c : Instr} {s t : State} (next : exec c s = .next t) : Steers false s t := by
  cases c
  case relayedMessageSent r =>
    simp only [exec, execRelayedMessageSent] at next
    split at next <;> cases next
    · exact s.takeDue_steers (.sent r _)
    · exact .refl s
  all_goals cases next
  case powerOnReset => exact .idle rfl
  case imageReadEnd x => exact .of_apart (s.readEnds_apart x)
  case frameBoundary p => exact s.boundaryPart_steers p
  case lossOfSignal l => exact s.lossOfSignal_steers l
  case signalReturns l => exact .of_apart (s.signalReturns_apart l)
  case goodFrame l x => exact s.frameEnds_steers l x
  case erroredFrame l x => exact s.frameEnds_steers l x
  case serviceMessageArrival l => exact .of_apart (s.takeServiceMessage_apart l)
  case status r => exact s.takeStatus_steers r
  case reply r => exact s.takeReply_steers r
  case busyReply r => exact s.takeBusy_steers r
  case responseStart l => exact .of_apart (s.startResponse_apart l)
  case notice => exact .of_apart s.startNotice_apart
  case arbiterMessageBoundary r => exact .of_apart (s.startRemote_apart r)
  case donorGraceExpiry n => exact s.takeDue_steers (.donorGrace n)
  case linkGraceExpiry r => exact s.takeDue_steers (.linkGrace r)
  case pollEvent => exact s.takeDue_steers .poll
  case flapDecayExpiry r => exact s.takeDue_steers (.flap r)
  case rampStepEvent => exact s.takeDue_steers .rampStep
  case windowEnd p => exact s.windowPart_steers p
  case pacingTimerExpiry => exact s.takeDue_steers .pacing
  case passTimeout r => exact s.takeDue_steers (.passTimeout r)
  case passRetryDelayEnd r => exact s.takeDue_steers (.retryEnd r)
  case scheduleDue => exact s.takeDue_steers .schedule
  case dueWaitingRetest => exact s.takeDue_steers .retest
  case switch => exact .ite (.refl s) (s.takeDue_steers .switch)
  case batchSwitch => exact .ite (s.takeDue_steers .switch) (.refl s)
  case saveWriteCompletion => exact .of_apart s.saveCompletes_apart
  case saveWriteFailure => exact .of_apart s.saveFails_apart
  case restartTakesEffect => exact s.takeDue_steers .restart
  case identify => exact s.takeRequest_steers _ fun _ _ => .report _
  case readSettings => exact s.takeRequest_steers _ fun _ _ => .report _
  case writeSettings => exact s.takeRequest_steers _ fun t q => t.askWriteSettings_steers q.body
  case readCarrier => exact s.takeRequest_steers _ fun _ _ => .need fun _ => .report _
  case writeCarrier => exact s.takeRequest_steers _ fun t q => t.askWriteCarrier_steers q.body
  case readPlan => exact s.takeRequest_steers _ fun t q => t.askReadPlan_steers q.body
  case writePlan => exact s.takeRequest_steers _ fun t q => t.askWritePlan_steers q.body
  case readLive =>
    exact s.takeRequest_steers _ fun _ _ => .ite (.need fun _ => .report _) (.need fun _ => .report _)
  case setRemote => exact s.takeRequest_steers _ fun t q => t.askSetRemote_steers q.body
  case readLoad => exact s.takeRequest_steers _ fun _ _ => .ite (.report _) (.need fun _ => .report _)
  case move => exact s.takeRequest_steers _ fun t q => t.askMove_steers q.body
  case abort => exact s.takeRequest_steers _ fun t _ => t.askAbort_steers
  case cutOver => exact s.takeRequest_steers _ fun t q => t.askCutOver_steers q.body
  case schedule =>
    exact s.takeRequest_steers _ fun _ _ => .need fun _ => .refuseIf (.done (.of_engine rfl))
  case cue => exact s.takeRequest_steers _ fun t _ => t.askCue_steers
  case cancel => exact s.takeRequest_steers _ fun _ _ => .need fun _ => .done (.of_engine rfl)
  case isolate => exact s.takeRequest_steers _ fun t q => t.askIsolate_steers q.body
  case restore => exact s.takeRequest_steers _ fun t _ => .need fun r => .refuseIf (.done (t.restore_steers r))
  case readEvents => exact s.takeRequest_steers _ fun _ _ => .done (.of_engine rfl)
  case readCounters => exact s.takeRequest_steers _ fun _ _ => .report _
  case clearCounters => exact s.takeRequest_steers _ fun t _ => .refuseIf (.done (.of_apart (t.clearGroups_apart _)))
  case tap => exact s.takeRequest_steers _ fun t q => t.askTap_steers q.body
  case save => exact s.takeSave_steers
  case restart => exact s.takeRestart_steers
  case unknownRequest => exact s.takeUnknown_steers

/-- Settles O7: every command keeps the engine's laws by what it does to the engine alone (`exec_steers`); the empty sets of
R73's table stand without `Engine.MoveLaw` (`exec_sound`). -/
theorem everyStepKeepsTheEngineLaw : Obligations.EveryStepKeepsTheEngineLaw := by
  intro s t lawful h
  unfold step at h
  split at h
  · cases h; exact ⟨lawful, id⟩
  · exact ⟨(exec_sound h).engine lawful, fun moves =>
      ((Engine.orderly_iff _).mp (exec_steers h ((Engine.orderly_iff _).mpr ⟨lawful, moves⟩))).2⟩

end Sys2Proof.Machine
end

section
namespace Sys2Proof.Machine

/-! ## Starts by a schedule, by MOVE and by CUT-OVER (R74 to R77, R81, R111, R112, R116) -/

/-- A start on a state that differs in its queues alone, answered. -/
theorem Started.fill {m : MoveRecord} {p : Option PlanMap} {s t : State} (h : Started m p s t) (x : Response) :
    Started m p (s.fill x) (t.fill x) where
  engine := h.engine
  ramps := h.ramps
  records := h.records
  frame := by
    obtain ⟨-, -, -, frame⟩ := h
    generalize ht : t.engine = g, t.dist.ramps = p, t.sup.records = k at frame ⊢
    subst frame
    rfl

section Tests

variable {s : State} {k : Schedule}

theorem State.testSchedule_invalid (h : (s.store.plans.get k.plan).valid = false) :
    s.testSchedule k = (s.post .cutoverAborted (.plan k.plan) 4).setSchedule none := by
  rw [State.testSchedule, h]
  rfl

theorem State.testSchedule_busy (h : (s.store.plans.get k.plan).valid = true) (busy : s.engine.state ≠ .idle) :
    s.testSchedule k = s.setSchedule (some { k with waiting := true }) := by
  rw [State.testSchedule, h, State.startCutOver_busy busy]
  rfl

/-- A schedule tested in IDLE starts its batch (R81, R112, R116). -/
theorem State.testSchedule_idle (h : (s.store.plans.get k.plan).valid = true) (idle : s.engine.state = .idle) :
    ∃ t, Started (s.batchTo k.plan) (some ⟨(s.store.plans.get k.plan).remotes, (s.store.plans.get k.plan).sectors⟩) s t ∧
      s.testSchedule k = { t with store := { s.store with schedule := none } } := by
  obtain ⟨taken, started⟩ := State.startCutOver_started idle k.plan
  refine ⟨_, started, ?_⟩
  have store : (s.startCutOver k.plan).1.store = s.store := by rw [started.frame]
  rw [State.testSchedule, h]
  simp only [Bool.not_true, Bool.false_eq_true, if_false, taken, if_true, State.setSchedule, store]

end Tests

/-- Settles O42: where it is due, either test is `State.testSchedule` of the schedule held. -/
theorem scheduleIsTestedWhenDue : Obligations.ScheduleIsTestedWhenDue := by
  intro s k e c held due test u plan
  have tested : exec c s = .next (u.testSchedule k) := by
    have held' : u.store.schedule = some k := held
    rcases test with ⟨rfl, rfl, fresh, reached⟩ | ⟨rfl, rfl, waiting⟩
    · have falls : (!k.waiting && k.reached u.now) = true := by rw [fresh]; exact reached
      refine congrArg Host.Outcome.next ((State.takeDue_of_due _ due).trans ?_)
      show u.dueTest = _
      simp only [State.dueTest, held', falls, if_true]
    · refine congrArg Host.Outcome.next ((State.takeDue_of_due _ due).trans ?_)
      show u.waitingTest = _
      simp only [State.waitingTest, held', waiting, if_true]
  rw [tested]
  refine ⟨fun invalid => ?_, fun valid busy => ?_, fun valid idle => ?_⟩
  · rw [State.testSchedule_invalid (s := u) invalid]
    rfl
  · rw [State.testSchedule_busy (s := u) valid busy]
    rfl
  · obtain ⟨t, started, same⟩ := State.testSchedule_idle (s := u) valid idle
    exact ⟨t, started, congrArg Host.Outcome.next same⟩

/-- A sector has no enabled carrier exactly when its list of carriers is empty (R22). -/
theorem State.carriersOf_isEmpty (s : State) (y : SectorId) :
    (s.carriersOf y).isEmpty = true ↔ ∀ c, (s.carrier c).enabled = true → (s.carrier c).sector ≠ some y := by
  simp [State.carriersOf, List.isEmpty_iff, List.filter_eq_nil_iff]

@[simp] theorem refuseIf_true (st : Status) (v : Verdict) : refuseIf true st v = .error st := rfl

@[simp] theorem refuseIf_false (st : Status) (v : Verdict) : refuseIf false st v = v := rfl

@[simp] theorem need_some {α : Type} (st : Status) (a : α) (f : α → Verdict) : need st (some a) f = f a := rfl

@[simp] theorem need_none {α : Type} (st : Status) (f : α → Verdict) : need st none f = .error st := rfl

theorem State.engineIdle_eq_true {s : State} (h : s.engine.state = .idle) : s.engineIdle = true := decide_eq_true h

theorem State.engineIdle_eq_false {s : State} (h : s.engine.state ≠ .idle) : s.engineIdle = false := decide_eq_false h

/-- Settles O52: the checks of MOVE in order, and a start in IDLE (`State.startSingle_started`). -/
theorem moveStartsASingleMove : Obligations.MoveStartsASingleMove := by
  intro s q takes away
  have refused : ∀ {st}, s.dropRequest.askMove q.body = .error st → away st := fun e =>
    congrArg Host.Outcome.next (State.takeRequest_refused takes e)
  refine ⟨fun high => refused (by simp [State.askMove, finOf_eq_none high]), fun r hr => ?_⟩
  have hr := finOf_of_toNat hr
  refine ⟨fun busy => refused ?_, fun idle out => refused ?_, fun idle serviced => ?_⟩
  · have busy := State.engineIdle_eq_false (s := s.dropRequest) busy
    simp [State.askMove, hr, busy]
  · have idle := State.engineIdle_eq_true (s := s.dropRequest) idle
    have out : s.dropRequest.serviced r = false := out
    simp [State.askMove, hr, idle, out]
  have free := State.engineIdle_eq_true (s := s.dropRequest) idle
  have serviced : s.dropRequest.serviced r = true := serviced
  refine ⟨fun high => refused (by simp [State.askMove, hr, free, serviced, finOf_eq_none high]), fun y hy => ?_⟩
  have hy := finOf_of_toNat hy
  have carries := s.dropRequest.carriersOf_isEmpty y
  refine ⟨fun own => refused ?_, fun other bare => refused ?_, fun other carrier => ?_⟩
  · have own : s.dropRequest.sectorOf r = some y := own
    simp [State.askMove, hr, free, serviced, hy, own]
  all_goals have other : ¬ s.dropRequest.sectorOf r = some y := other
  · have bare := carries.mpr bare
    simp [State.askMove, hr, free, serviced, hy, other, bare]
  · obtain ⟨c, enabled, sector⟩ := carrier
    have fed : (s.dropRequest.carriersOf y).isEmpty = false :=
      Bool.eq_false_iff.mpr fun bare => carries.mp bare c enabled sector
    have taken : s.dropRequest.askMove q.body = .ok ((s.dropRequest.startSingle .manual r y).1, []) := by
      simp [State.askMove, hr, free, serviced, hy, other, fed, ok]
    obtain ⟨-, started⟩ := State.startSingle_started (s := s.dropRequest) idle .manual r y
    exact ⟨_, started.fill _, congrArg Host.Outcome.next (State.takeRequest_done takes taken)⟩

end Sys2Proof.Machine
end

section
namespace Sys2Proof.Machine

/-! ## ISOLATE and RESTORE (R121, R131, R133, R163) -/

section Outside

variable {s : State} {r : RemoteId} {k : Health} {c : Option Cause}

theorem State.supRec_departing (s : State) (r : RemoteId) (k : Health) (c : Option Cause) (x : RemoteId) :
    (s.departing r k c).supRec x =
      if r = x then { s.supRec x with health := k, cause := c, grace := none } else s.supRec x := by
  refine (State.supRec_modSup s r x _).trans ?_
  split <;> rfl

theorem State.JoinersUnboosted.departing (h : s.JoinersUnboosted) (out : k.inService = false) :
    (s.departing r k c).JoinersUnboosted := fun y joining => by
  rw [State.health, State.supRec_departing] at joining
  rw [State.supRec_departing]
  split at joining
  · have joining : k = .joining := joining
    rw [joining] at out
    cases out
  · rename_i other
    rw [if_neg other]
    exact h y joining

/-- No remote out of service waits for a ramp before the switch (R80 to R82). -/
theorem State.Settled.out_phase (h : s.Settled) (out : s.serviced r = false)
    (before : s.engine.state = .fadeOut ∨ s.engine.state = .switchPending) {m : MoveRecord}
    (hm : s.engine.record = some m) : r ∉ s.engine.phaseSet := fun member => by
  rcases before with q | q
  · obtain ⟨fading, -⟩ := h.fading (.inl q) m hm
    rw [fading (.inl q) r (h.engine.phase m hm r member) List.not_mem_nil] at out
    cases out
  · obtain ⟨-, phaseless, -⟩ := h.engine.lawful
    rw [phaseless (.inr q)] at member
    exact List.not_mem_nil member

/-- Nor does a batch count one among those that are to recover. -/
theorem State.Settled.out_fading (h : s.Settled) (out : s.serviced r = false)
    (before : s.engine.state = .fadeOut ∨ s.engine.state = .switchPending) {m : MoveRecord}
    (hm : s.engine.record = some m) (batch : m.kind = .batch) : r ∉ m.fading := fun member => by
  obtain ⟨fading, -⟩ := h.fading before m hm
  rw [fading (.inr (.inl batch)) r member List.not_mem_nil] at out
  cases out

/-- What the departure of a remote that is out of service already does to the engine under the laws: the engine is not
told, and only the ramps that are complete after the settling can matter to it. -/
theorem State.Settled.enterOut_follows_out (h : s.Settled) (was : s.serviced r = false) (present : s.health r ≠ .vacant)
    (out : k.inService = false) (vacant : k ≠ .vacant) (c : Option Cause) : EngineFollows r s (s.enterOut r k c) := by
  have begun : Rests s (s.departing r k c) :=
    ⟨rfl, rfl, rfl, rfl, fun q => State.mem_unDue.mpr ⟨q, nofun⟩, .refl _ _⟩
  have joiners := State.JoinersUnboosted.departing (r := r) (c := c) (State.Owes.joinersUnboosted h) out
  have paid := (h.change r).departed present out vacant c
  have told : s.departed r k c = s.departing r k c := if_neg (by simp [was])
  rw [told] at paid
  rw [State.enterOut_eq, told]
  have engineB : (s.departing r k c).engine = s.engine := rfl
  have gone : (s.departing r k c).serviced r = false := by
    rw [State.serviced, State.health, State.supRec_departing, if_pos rfl]
    exact out
  revert begun joiners paid engineB gone
  generalize s.departing r k c = d
  intro begun joiners paid engineB gone
  obtain ⟨relayed, engineE⟩ : Rests d (if k = .waiting then d else d.abortPass r) ∧
      (if k = .waiting then d else d.abortPass r).engine = d.engine := by
    split
    · exact ⟨.refl d, rfl⟩
    · exact d.abortPass_rests r
  have apart : Apart d (if k = .waiting then d else d.abortPass r) := .ite (.refl d) (d.abortPass_apart r)
  have ready := paid.apart apart
  revert relayed engineE apart ready
  generalize (if k = .waiting then d else d.abortPass r) = u
  intro relayed engineE apart ready
  have joiners : u.JoinersUnboosted := fun y joining => by
    rw [apart.health] at joining
    rw [apart.boost]
    exact joiners y joining
  have rests := begun.trans relayed
  have engine : u.engine = s.engine := engineE.trans engineB
  obtain ⟨left, leaving, members, held⟩ := ready.settleHealth_leaving joiners ((apart.serviced r).trans gone)
  set t := u.settleHealth r with ht
  rw [engine] at members held
  have untold : ∀ m, s.engine.record = some m → s.engine.state = .fadeOut ∨ s.engine.state = .switchPending →
      t.engine = s.engine := fun m hm before => by
    refine (leaving.untouched fun z hz => ?_).2.trans engine
    rw [engine] at hz
    have own : z ≠ r := fun own => h.out_phase was before hm (own ▸ hz)
    exact held z hz own ((h.engine.held before m hm).1 z (h.engine.phase m hm z hz))
  refine ⟨fun none => ?_, fun m _ _ _ _ serviced => ?_, fun m hm before _ _ => untold m hm before,
    fun m hm before batch => (untold m hm before).trans ?_, fun m hm after => ?_⟩
  · obtain ⟨idle, phaseless, -⟩ := h.engine.lawful
    obtain ⟨still, same⟩ := leaving.idle (by rw [engine]; exact phaseless (.inl (idle.mpr none)))
    exact ⟨same.trans engine, (rests.trans still).lastEnd⟩
  · exact absurd (was.symm.trans serviced) (by simp)
  · have phases : s.engine.phaseSet.filter (fun z => decide (z ≠ r)) = s.engine.phaseSet :=
      List.filter_eq_self.mpr fun z hz => decide_eq_true fun own => h.out_phase was before hm (own ▸ hz)
    have fades : m.fading.filter (fun z => decide (z ≠ r)) = m.fading :=
      List.filter_eq_self.mpr fun z hz => decide_eq_true fun own => h.out_fading was before hm batch (own ▸ hz)
    have state : (if s.engine.phaseSet = [] then EngineState.switchPending else .fadeOut) = s.engine.state := by
      rcases before with q | q
      · rw [if_neg (h.engine.waiting rfl (.inl q)), q]
      · obtain ⟨-, phaseless, -⟩ := h.engine.lawful
        rw [if_pos (phaseless (.inr q)), q]
    rw [phases, fades, state, ← hm]
  · have rest : s.engine.phaseSet.filter (fun z => decide (z ≠ r) && !(t.ramp z).done) = u.engine.remaining left := by
      rw [Engine.remaining, engine]
      refine List.filter_congr fun z hz => ?_
      rw [Bool.eq_iff_iff, decide_eq_true_iff, members z hz]
      simp
    rw [rest]
    refine ⟨fun some => ?_, fun none => ?_⟩
    · rw [leaving.goes (.inr some), engine]
    · have ends := leaving.ends (by rw [engine]; exact h.engine.waiting rfl (.inr after)) none
        (by rw [engine]; exact after) m (by rw [engine]; exact hm) (h.engine.shape m hm)
      rw [engine] at ends
      exact ends.before rests

end Outside

section Asked

variable {s : State} {b : List Byte} {r : RemoteId}

theorem State.askIsolate_vacant (hr : finOf 16 (byteAt b 0) = some r) (h : s.health r = .vacant) :
    s.askIsolate b = .error .notReady := by
  simp [State.askIsolate, hr, h]

theorem State.askIsolate_isolated (hr : finOf 16 (byteAt b 0) = some r) (h : s.health r = .isolated) :
    s.askIsolate b = .ok (s, []) := by
  simp [State.askIsolate, hr, h, ok]

theorem State.askIsolate_present (hr : finOf 16 (byteAt b 0) = some r) (present : s.health r ≠ .vacant)
    (fresh : s.health r ≠ .isolated) : s.askIsolate b = .ok (s.isolate r, []) := by
  simp [State.askIsolate, hr, present, fresh, ok]

theorem State.askRestore_other (hr : finOf 16 (byteAt b 0) = some r) (h : s.health r ≠ .isolated) :
    s.askRestore b = .error .notReady := by
  simp [State.askRestore, hr, h]

theorem State.askRestore_isolated (hr : finOf 16 (byteAt b 0) = some r) (h : s.health r = .isolated) :
    s.askRestore b = .ok (s.restore r, []) := by
  simp [State.askRestore, hr, h, ok]

/-- An entry to ISOLATED, seen from the Move Engine, whether the remote was in service or not. -/
theorem State.Settled.isolates_follows (h : s.Settled) (present : s.health r ≠ .vacant) (c : Option Cause) :
    EngineFollows r s (s.enterOut r .isolated c) := by
  have other : Health.isolated ≠ .vacant := fun same => by cases same
  by_cases was : s.serviced r = true
  · exact h.enterOut_follows was rfl other c
  · exact h.enterOut_follows_out (Bool.eq_false_iff.mpr was) present rfl other c

/-- A remote that enters WAITING leaves every link as it is. -/
theorem Departed.locked {c : Option Cause} {t : State} (h : Departed r .waiting c s t) (l : Link) :
    t.locked l = s.locked l := by
  have same : t.framer l = s.framer l := by
    by_cases own : l = .remote r
    · rw [own]; exact h.withdrawn
    · exact h.framers l own
  rw [State.locked, same]
  rfl

end Asked

/-- Settles O55: entry to ISOLATED and to WAITING are departures (`State.enterOut_departed`), and the engine follows the
isolation of a remote in service and of one out of it. -/
theorem isolateAndRestoreChangeHealth : Obligations.IsolateAndRestoreChangeHealth := by
  intro s q u
  refine ⟨fun takes => ?_, fun takes => ?_⟩
  · have refused : ∀ {st}, s.dropRequest.askIsolate q.body = .error st → exec .isolate s = .next (s.turnedAway q st) :=
      fun e => congrArg Host.Outcome.next (State.takeRequest_refused takes e)
    have done : ∀ {t}, s.dropRequest.askIsolate q.body = .ok (t, []) →
        exec .isolate s = .next (t.fill (q.answer .done [])) :=
      fun e => congrArg Host.Outcome.next (State.takeRequest_done takes e)
    refine ⟨fun high => refused (by simp [State.askIsolate, finOf_eq_none high]), fun r hr => ?_⟩
    have hr := finOf_of_toNat hr
    refine ⟨fun vacant => refused (State.askIsolate_vacant hr vacant),
      fun isolated => done (State.askIsolate_isolated hr isolated), fun present fresh => ?_⟩
    refine ⟨s.dropRequest.isolate r, State.enterOut_departed _ r .isolated _ rfl, fun lawful moves supervision => ?_,
      (done (State.askIsolate_present hr present fresh)).trans ?_⟩
    · have settled : s.dropRequest.Settled :=
        ((State.settled_iff s).mpr ⟨lawful, moves, supervision⟩).apart (.of_svc rfl)
      have follows := (settled.apart (State.post_apart s.dropRequest .remoteIsolated (.remote r)
        (word16 Cause.command.code))).isolates_follows (r := r) present (some .command)
      exact follows.before ⟨rfl, rfl, rfl, rfl, id, .refl _ _⟩ rfl rfl
    · obtain ⟨-, kind, -⟩ := takes
      rw [Request.answer, kind]
      rfl
  · have refused : ∀ {st}, s.dropRequest.askRestore q.body = .error st → exec .restore s = .next (s.turnedAway q st) :=
      fun e => congrArg Host.Outcome.next (State.takeRequest_refused takes e)
    refine ⟨fun high => refused (by simp [State.askRestore, finOf_eq_none high]), fun r hr => ?_⟩
    have hr := finOf_of_toNat hr
    refine ⟨fun other => refused (State.askRestore_other hr other), fun isolated => ?_⟩
    set u := (s.dropRequest.modSup r fun v => { v with flap := 0, decay := none }).unDue (.flap r)
    have same : u.locked (.remote r) = s.locked (.remote r) := rfl
    have departed := State.enterOut_departed u r .waiting none rfl
    have done : exec .restore s = .next (((u.enterOut r .waiting none).pollIfLocked r).fill (q.answer .done [])) :=
      congrArg Host.Outcome.next (State.takeRequest_done takes (State.askRestore_isolated hr isolated))
    obtain ⟨-, kind, -⟩ := takes
    rw [Request.answer, kind] at done
    generalize u.enterOut r .waiting none = t at departed done
    have locked := (departed.locked (.remote r)).trans same
    refine ⟨t, departed, fun free => done.trans ?_, fun up => done.trans ?_⟩
    · rw [State.pollIfLocked, if_neg (by rw [locked, free]; nofun)]
      rfl
    · rw [State.pollIfLocked, if_pos (locked.trans up)]
      rfl

end Sys2Proof.Machine
end

section
namespace Sys2Proof.Machine

/-! ## Recomputes with nothing held (R31, R32, R35, R79, R84, R86)

After a switch and in recovery nothing is held. What the recomputes of R32 then do to targets, boosts and the Move Engine
is said here without the laws of the device. -/

/-! ### The end of a move, whatever its record -/

/-- A record whose end has an event to report (R79). -/
def MoveRecord.Told (m : MoveRecord) : Prop := m.Shape ∨ m.kind ≠ .batch ∧ m.places ≠ []

/-- The move of record m has ended with this outcome: the engine is IDLE, the end FC is with the Spreader, and a batch that
ended DONE has made its plan the active one (R79, R84). -/
structure MoveRecord.Closed (m : MoveRecord) (o : MoveOutcome) (s t : State) : Prop where
  engine : t.engine = Engine.idle
  lastEnd : t.spreader.lastEnd = some s.now
  map : t.map = if m.kind = .batch ∧ o = .done then { s.map with active := m.plan, diverged := false } else s.map
  ended : m.Told → m.Ended o s t

namespace MoveRecord.Closed

variable {m : MoveRecord} {o : MoveOutcome} {s t u : State}

theorem before (h : Rests s t) (k : m.Closed o t u) : m.Closed o s u where
  engine := k.engine
  lastEnd := by rw [k.lastEnd, h.now]
  map := by rw [k.map, h.map]
  ended := fun told => (k.ended told).before h

theorem after (h : m.Closed o s t) (k : Rests t u) (engine : u.engine = t.engine) : m.Closed o s u where
  engine := engine.trans h.engine
  lastEnd := k.lastEnd.trans h.lastEnd
  map := k.map.trans h.map
  ended := fun told => (h.ended told).after k engine

end MoveRecord.Closed

/-- The record of a single move of remote r, in the shape R74 gives it. -/
def MoveRecord.single (m : MoveRecord) (r : RemoteId) : MoveRecord :=
  { m with outcome := none, plan := none, places := [⟨r, none, .sector 0⟩], fading := [r] }

theorem MoveRecord.single_shape {m : MoveRecord} (single : m.kind ≠ .batch) (r : RemoteId) : (m.single r).Shape :=
  ⟨rfl, ⟨nofun, fun batch => absurd batch single⟩, fun _ => ⟨r, none, 0, rfl, rfl⟩,
    fun _ hz => ⟨⟨r, none, .sector 0⟩, List.mem_singleton_self _, (List.mem_singleton.mp hz).symm⟩⟩

/-- What the end of a move leaves the engine's blocks reads the holds, the records and the state the report left. -/
theorem State.engineRests_congr {u : State} {e : Engine} (holds : e.holdSet = u.engine.holdSet) :
    ({ u with engine := e } : State).engineRests = u.engineRests := by
  have sup : ({ u with engine := e } : State).releaseHolds.sup = u.releaseHolds.sup := State.sup_releaseHolds rfl holds
  rw [State.engineRests, State.engineRests, State.releaseHolds_eq, State.releaseHolds_eq u, sup]
  rfl

/-- The end of a single move reads the remote of its record alone. -/
theorem State.moveEnd_single {s : State} {m : MoveRecord} (hm : s.engine.record = some m) (single : m.kind ≠ .batch)
    {p : Place} {ps : List Place} (places : m.places = p :: ps) (o : MoveOutcome) :
    s.moveEnd o = ({ s with engine := { s.engine with record := some (m.single p.remote) } } : State).moveEnd o := by
  have other : ∀ n : MoveRecord, n.kind = m.kind → ∀ u : State, u.adoptPlan n o = u := fun n kind u =>
    if_neg (by simp [MoveRecord.isBatch, kind, single])
  have report : ∀ (n : MoveRecord) (qs : List Place) (q : Place), n.kind = m.kind → n.places = q :: qs → ∀ u : State,
      u.postEnd n o = u.post .moveDone (.remote q.remote) (word16 o.code) := fun n qs q kind places u => by
    unfold State.postEnd
    split
    · rename_i batch _; exact absurd (kind.symm.trans batch) single
    · rename_i batch _; exact absurd (kind.symm.trans batch) single
    · rw [places]
  unfold State.moveEnd
  simp only [hm]
  rw [other m rfl, other (m.single p.remote) rfl, report m ps p rfl places,
    report (m.single p.remote) [] ⟨p.remote, none, .sector 0⟩ rfl rfl]
  exact congrArg State.askRetest (State.engineRests_congr
    (u := ({ s with engine := { s.engine with record := some { m.single p.remote with outcome := some o } } } : State).post
      .moveDone (.remote p.remote) (word16 o.code)) rfl)

/-- What the end of a move does to the map and to the Spreader (R79, R84). -/
theorem State.moveEnd_map {s : State} {m : MoveRecord} (hm : s.engine.record = some m) (o : MoveOutcome) :
    (s.moveEnd o).map = (if m.kind = .batch ∧ o = .done then { s.map with active := m.plan, diverged := false } else s.map) ∧
      (s.moveEnd o).spreader.lastEnd = some s.now := by
  unfold State.moveEnd
  simp only [hm]
  set a : State := { s with engine := { s.engine with record := some { m with outcome := some o } } } with ha
  rw [State.askRetest_frame, State.engineRests, State.releaseHolds_eq, State.postEnd_events]
  refine ⟨?_, ?_⟩
  · show (a.adoptPlan m o).map = _
    unfold State.adoptPlan
    by_cases adopts : m.kind = .batch ∧ o = .done
    · rw [if_pos adopts, if_pos (by simp [MoveRecord.isBatch, adopts])]
    · rw [if_neg adopts, if_neg (by simpa [MoveRecord.isBatch] using adopts)]
  · show some (a.adoptPlan m o).now = some s.now
    rw [State.adoptPlan_map]
    rfl

/-- The end of a move (R79, R84). -/
theorem State.moveEnd_closed {s : State} {m : MoveRecord} (hm : s.engine.record = some m) (o : MoveOutcome) :
    m.Closed o s (s.moveEnd o) := by
  obtain ⟨map, lastEnd⟩ := State.moveEnd_map hm o
  refine ⟨(State.moveEnd_apart hm o).engine, lastEnd, map, fun told => ?_⟩
  rcases told with shape | ⟨single, some⟩
  · exact State.moveEnd_ended hm shape o
  · obtain ⟨p, ps, places⟩ := List.exists_cons_of_ne_nil some
    have told := State.moveEnd_ended
      (s := { s with engine := { s.engine with record := Option.some (m.single p.remote) } }) rfl
      (MoveRecord.single_shape single p.remote) o
    rw [← State.moveEnd_single hm single places] at told
    have same : m.endEvent o = (m.single p.remote).endEvent o := by
      cases m with
      | mk kind plan ps' _ _ _ _ =>
        dsimp only at places
        subst places
        cases kind with
        | batch => exact absurd rfl single
        | manual => rfl
        | auto => rfl
        | homing => rfl
    exact ⟨told.engine, told.lastEnd, same ▸ told.reported, told.retest, fun batch => absurd batch single,
      fun _ => told.kept (.inl single)⟩

/-! ### Remotes leave the phase set, whatever the record -/

/-- `Leaving`, with the end of the move said of every record. -/
structure Ending (gone : List RemoteId) (s t : State) : Prop where
  leaving : Leaving gone s t
  ends : s.engine.phaseSet ≠ [] → s.engine.remaining gone = [] → s.engine.state = .fadeIn ∨ s.engine.state = .recovering →
    ∀ m, s.engine.record = some m → m.Closed (if s.engine.state = .fadeIn then .done else .aborted) s t

namespace Ending

variable {g g' : List RemoteId} {s t u : State}

theorem still (h : Rests s t) (engine : t.engine = s.engine) : Ending [] s t where
  leaving := .still h engine
  ends := fun some none => absurd ((Engine.remaining_of_disjoint fun _ _ => List.not_mem_nil).symm.trans none) some

theorem trans (h : Ending g s t) (k : Ending g' t u) : Ending (g ++ g') s u := by
  refine ⟨h.leaving.trans k.leaving, fun some none after m hm => ?_⟩
  have both : s.engine.remaining (g ++ g') = (s.engine.remaining g).filter fun z => decide (z ∉ g') := by
    rw [Engine.remaining, Engine.remaining, List.filter_filter]
    exact List.filter_congr fun z _ => by simp [Bool.and_comm]
  by_cases left : s.engine.remaining g = []
  · have closed := h.ends some left after m hm
    obtain ⟨rests, same⟩ := k.leaving.idle (by rw [closed.engine]; rfl)
    exact closed.after rests same
  · have goes := h.leaving.goes (.inr left)
    have state : t.engine.state = s.engine.state := by rw [goes]
    have rest : t.engine.remaining g' = s.engine.remaining (g ++ g') := by rw [both, goes]; rfl
    have closed := k.ends (by rw [goes]; exact left) (rest.trans none) (by rw [state]; exact after) m (by rw [goes]; exact hm)
    rw [state] at closed
    exact closed.before (h.leaving.rests (.inr (.inl left)))

theorem after_rests (h : Rests s t) (engine : t.engine = s.engine) (k : Ending g t u) : Ending g s u :=
  (still h engine).trans k

end Ending

/-- One remote leaves the phase set (R79, R84, R86). -/
theorem State.leavePhase_ending (s : State) (r : RemoteId) : Ending [r] s (s.leavePhase r) := by
  refine ⟨s.leavePhase_leaving r, fun some none after m hm => ?_⟩
  have left : s.engine.remaining [r] = s.engine.phaseSet.filter fun z => decide (z ≠ r) :=
    List.filter_congr fun z _ => by simp
  rw [left] at none
  have member : s.engine.phaseSet.contains r = true := by
    rw [List.contains_iff_mem]
    by_contra out
    refine some ((List.filter_eq_self.mpr fun z hz => ?_).symm.trans none)
    exact decide_eq_true fun own => out (own ▸ hz)
  set a : State := { s with engine := { s.engine with phaseSet := s.engine.phaseSet.filter fun z => decide (z ≠ r) } } with ha
  have whole : s.leavePhase r = a.phaseDone := by
    rw [State.leavePhase, if_pos member]
    exact if_pos (by rw [none]; rfl)
  have begun : Rests s a := ⟨rfl, rfl, rfl, rfl, id, .refl _ _⟩
  rw [whole]
  rcases after with q | q
  · rw [if_pos q, State.phaseDone_fadeIn (s := a) q]
    exact (State.moveEnd_closed (s := a) hm .done).before begun
  · rw [if_neg (by rw [q]; nofun), State.phaseDone_recovering (s := a) q]
    exact (State.moveEnd_closed (s := a) hm .aborted).before begun

end Sys2Proof.Machine
end

section
namespace Sys2Proof.Machine

/-! ### Targets, boosts and arrivals of one remote -/

/-- The applied boost of z is that of its sources (R134). -/
def State.Boosted (s : State) (z : RemoteId) : Prop := (s.supRec z).boost = s.appliedBoost z (s.sourcesOf z)

/-- The boost sources of z are those of R134. -/
def State.Sourced (s : State) (z : RemoteId) : Prop := (s.supRec z).sources = s.sourcesOf z

/-- The ramp of z has the target of R31. -/
def State.Aimed (s : State) (z : RemoteId) : Prop := (s.ramp z).target = s.targetOf z

/-- The present gain of z is at its target. -/
def State.Arrived (s : State) (z : RemoteId) : Prop := (s.ramp z).present = s.targetOf z

theorem State.rampOf_done (s : State) (z : RemoteId) : (s.rampOf z).done = true ↔ s.Arrived z := decide_eq_true_iff

/-- The boost sources read of the others whether they are out of service, and of the remote itself whether it serves. -/
theorem State.sourcesOf_congr_out {s t : State} (out : ∀ x, (t.health x).isOut = (s.health x).isOut)
    (live : ∀ x, t.live x = s.live x) {z : RemoteId} (own : t.health z = s.health z) : t.sourcesOf z = s.sourcesOf z := by
  have source : t.isSource z = s.isSource z := funext fun x => by
    rw [State.isSource, State.sectorOf, State.sectorOf, out, live, live]
    rfl
  simp only [State.sourcesOf, source, own]

/-- A change that serves a JOINING remote takes none out of the sources (R125, R134). -/
theorem SupRecord.Follows.isOut {v w : SupRecord} (h : v.Follows w) : w.health.isOut = v.health.isOut := by
  rcases h.health with same | ⟨joining, serves⟩
  · rw [same]
  · rw [joining]
    revert serves
    cases w.health <;> simp [Health.isOut, Health.serves]

theorem SupRecord.Follows.inService {v w : SupRecord} (h : v.Follows w) : w.health.inService = v.health.inService := by
  rcases h.health with same | ⟨joining, serves⟩
  · rw [same]
  · rw [joining]
    revert serves
    cases w.health <;> simp [Health.inService, Health.serves]

theorem Settles.sourcesOf {s t : State} (h : Settles s t) {z : RemoteId} (own : t.health z = s.health z) :
    t.sourcesOf z = s.sourcesOf z :=
  State.sourcesOf_congr_out (fun x => (h.sup x).isOut) h.live own

theorem Settles.hot {s t : State} (h : Settles s t) (z : RemoteId) :
    (t.supRec z).alarms.hot = (s.supRec z).alarms.hot := by rw [(h.sup z).rest]

/-- With the same boost and nothing held, the target stays. -/
theorem Settles.targetOf {s t : State} (h : Settles s t) (free : s.engine.holdSet = []) (free' : t.engine.holdSet = [])
    {z : RemoteId} (boost : (t.supRec z).boost = (s.supRec z).boost) : t.targetOf z = s.targetOf z :=
  State.targetOf_congr (h.sup z).inService (by rw [free, free']) (h.hot z) boost (by rw [h.live])

theorem Settles.boosted_iff {s t : State} (h : Settles s t) {z : RemoteId} (own : t.health z = s.health z)
    (boost : (t.supRec z).boost = (s.supRec z).boost) : t.Boosted z ↔ s.Boosted z := by
  rw [State.Boosted, State.Boosted, boost, h.sourcesOf own, State.appliedBoost_congr (h.hot z) h.live]

theorem Settles.sourced_iff {s t : State} (h : Settles s t) {z : RemoteId} (own : t.health z = s.health z)
    (sources : (t.supRec z).sources = (s.supRec z).sources) : t.Sourced z ↔ s.Sourced z := by
  rw [State.Sourced, State.Sourced, sources, h.sourcesOf own]

/-- A remote whose boost is right before and after, and whose health stays, keeps its boost. -/
theorem Settles.boost {s t : State} (h : Settles s t) {z : RemoteId} (own : t.health z = s.health z) (b : s.Boosted z)
    (b' : t.Boosted z) : (t.supRec z).boost = (s.supRec z).boost := by
  rw [b', b, h.sourcesOf own, State.appliedBoost_congr (h.hot z) h.live]

/-- A JOINING remote has no boost, and its target is that of its base gain (R31, R134). -/
theorem State.Boosted.joining {s : State} {z : RemoteId} (h : s.Boosted z) (joining : s.health z = .joining)
    (free : s.engine.holdSet = []) : s.targetOf z = if (s.supRec z).alarms.hot then (s.live z).baseGain * 3 / 4
      else min 1023 (s.live z).baseGain := by
  have none : (s.supRec z).boost = 0 := by
    rw [h, State.sourcesOf, if_neg (by rw [joining]; decide)]
    exact ite_self 0
  have serviced : s.serviced z = true := by rw [State.serviced, joining]; rfl
  rw [State.targetOf, serviced, free, none]
  rfl

/-! ### The evaluation of boosts (R135) -/

/-- The record with its boost evaluated (R134). -/
def State.evaluated (s : State) (z : RemoteId) : SupRecord :=
  { s.supRec z with sources := s.sourcesOf z, boost := s.appliedBoost z (s.sourcesOf z) }

/-- What the evaluation of one boost makes of each record, and that no evaluation reads another. -/
theorem State.reevalBoost_records (s : State) (y z : RemoteId) :
    (s.reevalBoost y).1.supRec z = (if y = z then s.evaluated z else s.supRec z) ∧
      (s.reevalBoost y).1.evaluated z = s.evaluated z ∧ ((s.reevalBoost y).1.Boosted z ↔ y = z ∨ s.Boosted z) := by
  have record : ∀ x, (s.reevalBoost y).1.supRec x = if y = x then s.evaluated x else s.supRec x := fun x => by
    refine (State.supRec_modSup s y x _).trans ?_
    split
    · rename_i own; rw [← own]; rfl
    · rfl
  have health : ∀ x, (s.reevalBoost y).1.health x = s.health x := fun x => by
    rw [State.health, record]; split <;> rfl
  have hot : ∀ x, ((s.reevalBoost y).1.supRec x).alarms.hot = (s.supRec x).alarms.hot := fun x => by
    rw [record]; split <;> rfl
  have sources := State.sourcesOf_congr (t := (s.reevalBoost y).1) health (fun _ => rfl) z
  have applied := State.appliedBoost_congr (t := (s.reevalBoost y).1) (hot z) (fun _ => rfl)
  refine ⟨record z, ?_, ?_⟩
  · rw [State.evaluated, sources, applied, record]
    split <;> rfl
  · rw [State.Boosted, sources, applied, record]
    by_cases own : y = z
    · simp [own, State.evaluated]
    · simp [own, State.Boosted]

/-- What an evaluation of boosts makes of each record, and which boosts it changes. -/
theorem State.reevalBoosts_records (ys : List RemoteId) (s : State) (z : RemoteId) :
    (s.reevalBoosts ys).1.supRec z = (if z ∈ ys then s.evaluated z else s.supRec z) ∧
      (z ∈ (s.reevalBoosts ys).2 ↔ z ∈ ys ∧ ¬ s.Boosted z) := by
  suffices all : ∀ (ys acc : List RemoteId) (t : State),
      let p := ys.foldl (fun (acc : State × List RemoteId) y =>
        let (s, ch) := acc.1.reevalBoost y
        (s, if ch then acc.2 ++ [y] else acc.2)) (t, acc)
      p.1.supRec z = (if z ∈ ys then t.evaluated z else t.supRec z) ∧ (z ∈ p.2 ↔ z ∈ acc ∨ z ∈ ys ∧ ¬ t.Boosted z) by
    obtain ⟨record, members⟩ := all ys [] s
    exact ⟨record, members.trans (or_iff_right List.not_mem_nil)⟩
  intro ys
  induction ys with
  | nil => exact fun acc t => by simp
  | cons y ys ih =>
    intro acc t
    obtain ⟨record, evaluated, boosted⟩ := t.reevalBoost_records y z
    have changed : (t.reevalBoost y).2 = true ↔ ¬ t.Boosted y := decide_eq_true_iff.trans (not_congr eq_comm)
    obtain ⟨rest, members⟩ := ih (if (t.reevalBoost y).2 then acc ++ [y] else acc) (t.reevalBoost y).1
    refine ⟨rest.trans ?_, members.trans ?_⟩
    · rw [record, evaluated]
      by_cases own : y = z
      · simp [own]
      · simp [own, Ne.symm own]
    · have listed : z ∈ (if (t.reevalBoost y).2 then acc ++ [y] else acc) ↔ z ∈ acc ∨ z = y ∧ ¬ t.Boosted y := by
        split
        · rename_i k; simp [changed.mp k]
        · rename_i k; simp [not_not.mp (mt changed.mpr k)]
      rw [listed, boosted, List.mem_cons]
      by_cases own : z = y
      · subst own; simp
      · simp [own, Ne.symm own]

section Evaluated

variable (s : State) (ys : List RemoteId)

/-- An evaluation of boosts changes neither the map nor the ramps nor the engine. -/
theorem State.reevalBoosts_parts : (s.reevalBoosts ys).1.dist = s.dist ∧ (s.reevalBoosts ys).1.map = s.map ∧
    (s.reevalBoosts ys).1.engine = s.engine := by
  suffices all : ∀ (ys acc : List RemoteId) (t : State), t.dist = s.dist ∧ t.map = s.map ∧ t.engine = s.engine →
      let p := (ys.foldl (fun (acc : State × List RemoteId) y =>
        let (s, ch) := acc.1.reevalBoost y
        (s, if ch then acc.2 ++ [y] else acc.2)) (t, acc)).1
      p.dist = s.dist ∧ p.map = s.map ∧ p.engine = s.engine from all ys [] s ⟨rfl, rfl, rfl⟩
  intro ys
  induction ys with
  | nil => exact fun _ _ h => h
  | cons y ys ih => exact fun acc t h => ih _ _ h

/-- Every evaluated boost is right, and every one that was stays so. -/
theorem State.reevalBoosts_boosted (z : RemoteId) : (s.reevalBoosts ys).1.Boosted z ↔ z ∈ ys ∨ s.Boosted z := by
  have settles := s.reevalBoosts_settles ys
  have kept := (s.reevalBoosts_healthsKept ys z).1
  obtain ⟨record, -⟩ := s.reevalBoosts_records ys z
  rw [State.Boosted, settles.sourcesOf kept, State.appliedBoost_congr (settles.hot z) settles.live, record]
  by_cases member : z ∈ ys
  · simp [member, State.evaluated]
  · simp [member, State.Boosted]

theorem State.reevalBoosts_sourced (z : RemoteId) (h : z ∈ ys ∨ s.Sourced z) : (s.reevalBoosts ys).1.Sourced z := by
  obtain ⟨record, -⟩ := s.reevalBoosts_records ys z
  rw [State.Sourced, (s.reevalBoosts_settles ys).sourcesOf (s.reevalBoosts_healthsKept ys z).1, record]
  split
  · rfl
  · rename_i out; exact h.resolve_left out

/-- A boost that no evaluation changes. -/
theorem State.reevalBoosts_boost {z : RemoteId} (h : z ∉ (s.reevalBoosts ys).2) :
    ((s.reevalBoosts ys).1.supRec z).boost = (s.supRec z).boost := by
  obtain ⟨record, members⟩ := s.reevalBoosts_records ys z
  rw [record]
  split
  · rename_i member
    have right : s.Boosted z := by
      by_contra wrong
      exact h (members.mpr ⟨member, wrong⟩)
    exact right.symm
  · rfl

end Evaluated

end Sys2Proof.Machine
end

section
namespace Sys2Proof.Machine

/-! ### Recomputes, seen from one remote and from the Move Engine -/

theorem State.evalSector_parts (s : State) (o : Option SectorId) : (s.evalSector o).dist = s.dist ∧
    (s.evalSector o).engine = s.engine ∧ ∀ z, (s.evalSector o).supRec z = s.supRec z := by
  cases o with
  | none => exact ⟨rfl, rfl, fun _ => rfl⟩
  | some x =>
    have parts : (s.evalDegraded true x).dist = s.dist ∧ (s.evalDegraded true x).engine = s.engine ∧
        (s.evalDegraded true x).sup.records = s.sup.records := by
      unfold State.evalDegraded
      simp only
      split
      · exact ⟨rfl, rfl, rfl⟩
      · split <;> exact ⟨rfl, rfl, rfl⟩
    obtain ⟨dist, engine, records⟩ := parts
    exact ⟨dist, engine, fun z => congrArg (fun t : Tab 16 SupRecord => t.get z) records⟩

/-- With nothing held a remote that leaves the phase set changes neither ramps nor records. -/
theorem State.leavePhase_free {s : State} (free : s.engine.holdSet = []) (r : RemoteId) :
    (s.leavePhase r).dist = s.dist ∧ (s.leavePhase r).sup = s.sup ∧ (s.leavePhase r).engine.holdSet = [] := by
  unfold State.leavePhase
  split
  swap
  · exact ⟨rfl, rfl, free⟩
  simp only
  split
  swap
  · exact ⟨rfl, rfl, free⟩
  set a : State := { s with engine := { s.engine with phaseSet := s.engine.phaseSet.filter fun x => decide (x ≠ r) } }
  unfold State.phaseDone
  split
  · exact ⟨rfl, rfl, free⟩
  · exact State.moveEnd_frame (s := a) free _
  · exact State.moveEnd_frame (s := a) free _
  · exact ⟨rfl, rfl, free⟩

/-- New ramps have begun for these remotes, and those complete at once have left the phase set; nothing joined. -/
structure Reramped (rs : List RemoteId) (s t : State) : Prop where
  settles : Settles s t
  sup : t.sup = s.sup
  free : t.engine.holdSet = []
  ramps : ∀ x, t.ramp x = if x ∈ rs then s.rampOf x else s.ramp x
  ending : Ending (rs.filter fun x => (s.rampOf x).done) s t

namespace Reramped

variable {rs rs' : List RemoteId} {s t u : State}

theorem targetOf (h : Reramped rs s t) (free : s.engine.holdSet = []) (z : RemoteId) : t.targetOf z = s.targetOf z :=
  h.settles.targetOf free h.free (by rw [State.supRec_congr h.sup])

theorem rampOf (h : Reramped rs s t) (free : s.engine.holdSet = []) (z : RemoteId) : t.rampOf z = s.rampOf z := by
  rw [State.rampOf, State.rampOf, h.settles.present, h.targetOf free]

theorem trans (free : s.engine.holdSet = []) (h : Reramped rs s t) (k : Reramped rs' t u) : Reramped (rs ++ rs') s u where
  settles := h.settles.trans k.settles
  sup := k.sup.trans h.sup
  free := k.free
  ramps := fun x => by
    rw [k.ramps, h.ramps, h.rampOf free]
    by_cases member : x ∈ rs' <;> simp [member]
  ending := by
    have ending := h.ending.trans k.ending
    simp only [h.rampOf free] at ending
    rwa [List.filter_append]

end Reramped

/-- A ramp that begins, and the notice of its completion to the Move Engine alone (R32, R35). -/
theorem State.beginRamp_reramped {s : State} (free : s.engine.holdSet = []) (r : RemoteId) :
    Reramped [r] s (if (s.rampOf r).done then (s.beginRamp r).leavePhase r else s.beginRamp r) := by
  have begun := s.beginRamp_rests r
  have ramps : ∀ x, (s.beginRamp r).ramp x = if x ∈ [r] then s.rampOf x else s.ramp x := fun x => by
    rw [State.ramp_beginRamp]
    by_cases own : r = x
    · subst own; simp [State.rampOf]
    · simp [own, Ne.symm own]
  split
  · rename_i done
    obtain ⟨dist, sup, holds⟩ := State.leavePhase_free (s := s.beginRamp r) free r
    refine ⟨(s.beginRamp_settles r).trans (State.leavePhase_settles _ r), sup, holds,
      fun x => Eq.trans ?_ (ramps x), ?_⟩
    · rw [State.ramp, dist]; rfl
    · rw [show [r].filter (fun x => (s.rampOf x).done) = [r] by simp [done]]
      exact .after_rests begun rfl (State.leavePhase_ending _ r)
  · rename_i moving
    refine ⟨s.beginRamp_settles r, rfl, free, ramps, ?_⟩
    rw [show [r].filter (fun x => (s.rampOf x).done) = [] by simp [moving]]
    exact .still begun rfl

theorem State.engineRecompute_eq (s : State) (r : RemoteId) : s.engineRecompute r =
    if (s.rampOf r).done then (s.beginRamp r).leavePhase r else s.beginRamp r := by
  have done : (s.beginRamp r).ramp r = s.rampOf r := by rw [State.ramp_beginRamp, if_pos rfl]; rfl
  unfold State.engineRecompute State.engineNotice
  simp only [done]

theorem State.engineRecomputes_reramped (rs : List RemoteId) : ∀ {s : State}, s.engine.holdSet = [] →
    Reramped rs s (rs.foldl State.engineRecompute s) := by
  induction rs with
  | nil => exact fun {s} free => ⟨.refl s, rfl, free, fun _ => rfl, .still (.refl s) rfl⟩
  | cons r rs ih =>
    intro s free
    have first : Reramped [r] s (s.engineRecompute r) := by
      rw [State.engineRecompute_eq]; exact State.beginRamp_reramped free r
    exact first.trans free (ih first.free)

/-- What recomputes leave of each remote: nothing is held, boosts that are right stay so, and so do targets; the recomputed
ones' become right. -/
structure Retargets (rs : List RemoteId) (s t : State) : Prop where
  settles : Settles s t
  free : t.engine.holdSet = []
  held : ∀ z, (s.supRec z).held = false → (t.supRec z).held = false
  boosted : ∀ z, s.Boosted z → t.Boosted z
  sourced : ∀ z, s.Sourced z → t.Sourced z
  aimed : ∀ z, z ∈ rs ∨ s.Aimed z → t.Aimed z

namespace Retargets

variable {rs rs' : List RemoteId} {s t u : State}

theorem trans (h : Retargets rs s t) (k : Retargets rs' t u) : Retargets (rs ++ rs') s u where
  settles := h.settles.trans k.settles
  free := k.free
  held := fun z q => k.held z (h.held z q)
  boosted := fun z q => k.boosted z (h.boosted z q)
  sourced := fun z q => k.sourced z (h.sourced z q)
  aimed := fun z q => k.aimed z (by
    rcases q with q | q
    · rcases List.mem_append.mp q with q | q
      · exact .inr (h.aimed z (.inl q))
      · exact .inl q
    · exact .inr (h.aimed z (.inr q)))

theorem of_subset (h : Retargets rs s t) (k : ∀ z ∈ rs', z ∈ rs) : Retargets rs' s t :=
  ⟨h.settles, h.free, h.held, h.boosted, h.sourced, fun z aim => h.aimed z (aim.imp_left (k z))⟩

/-- A remote with the right boost that does not join keeps its target. -/
theorem targetOf (h : Retargets rs s t) (free : s.engine.holdSet = []) {z : RemoteId} (b : s.Boosted z)
    (own : t.health z = s.health z) : t.targetOf z = s.targetOf z :=
  h.settles.targetOf free h.free (h.settles.boost own b (h.boosted z b))

theorem arrived (h : Retargets rs s t) (free : s.engine.holdSet = []) {z : RemoteId} (b : s.Boosted z)
    (own : t.health z = s.health z) : t.Arrived z ↔ s.Arrived z := by
  rw [State.Arrived, State.Arrived, h.settles.present, h.targetOf free b own]

end Retargets

theorem Reramped.retargets {rs : List RemoteId} {s t : State} (h : Reramped rs s t) (free : s.engine.holdSet = []) :
    Retargets rs s t := by
  have records : ∀ z, t.supRec z = s.supRec z := State.supRec_congr h.sup
  refine ⟨h.settles, h.free, fun z held => by rw [records]; exact held,
    fun z b => (h.settles.boosted_iff (congrArg SupRecord.health (records z)) (by rw [records])).mpr b,
    fun z q => (h.settles.sourced_iff (congrArg SupRecord.health (records z)) (by rw [records])).mpr q, fun z aim => ?_⟩
  rw [State.Aimed, h.ramps, h.targetOf free]
  split
  · rfl
  · rename_i out; exact aim.resolve_left out

/-- What a remote that joins leaves, up to the recomputes that follow (R125, R135). -/
theorem State.served_parts {s : State} {r : RemoteId} (joining : s.health r = .joining) :
    let q := (s.served r).1.evalSector ((s.served r).1.sectorOf r)
    Settles s q ∧ Rests s q ∧ q.engine = s.engine ∧ q.dist = s.dist ∧
      (∀ z, z ≠ r → q.health z = s.health z) ∧ (∀ z, s.Boosted z ∨ z = r → q.Boosted z) ∧
      (∀ z, s.Sourced z → q.Sourced z) ∧
      (∀ z, z ∉ withFirst r (s.served r).2 → (q.supRec z).boost = (s.supRec z).boost) ∧
      ∀ z, s.Boosted z → z ∈ withFirst r (s.served r).2 → z = r := by
  intro q
  have settles1 : Settles s (s.serve r) := s.serveNow_settles r joining
  have records1 : ∀ z, z ≠ r → (s.serve r).supRec z = s.supRec z := fun z hz => State.serve_others hz
  have boost1 : ∀ z, ((s.serve r).supRec z).boost = (s.supRec z).boost := fun z => by
    refine (congrArg SupRecord.boost (State.supRec_modSup s r z _)).trans ?_
    split <;> rfl
  have right1 : ∀ z, z ≠ r → s.Boosted z → (s.serve r).Boosted z := fun z hz =>
    (settles1.boosted_iff (congrArg SupRecord.health (records1 z hz)) (boost1 z)).mpr
  have sourced1 : ∀ z, z ≠ r → s.Sourced z → (s.serve r).Sourced z := fun z hz =>
    (settles1.sourced_iff (congrArg SupRecord.health (records1 z hz)) (by rw [records1 z hz])).mpr
  set ys := (s.serve r).concerned r with hys
  have listed : r ∈ ys := List.mem_cons_self
  obtain ⟨dist2, -, engine2⟩ := (s.serve r).reevalBoosts_parts ys
  have settles2 := (s.serve r).reevalBoosts_settles ys
  have right2 := (s.serve r).reevalBoosts_boosted ys
  have sourced2 := (s.serve r).reevalBoosts_sourced ys
  have kept2 := (s.serve r).reevalBoosts_healthsKept ys
  have boost2 := fun z => (s.serve r).reevalBoosts_boost ys (z := z)
  have changed2 : ∀ z, z ∈ ((s.serve r).reevalBoosts ys).2 → ¬ (s.serve r).Boosted z := fun z hz =>
    ((State.reevalBoosts_records ys (s.serve r) z).2.mp hz).2
  have rests2 := (s.serve r).reevalBoosts_rests ys
  set p := (s.serve r).reevalBoosts ys with hp
  have whole : s.served r = p := rfl
  obtain ⟨dist3, engine3, records3⟩ := p.1.evalSector_parts (p.1.sectorOf r)
  have settles3 := p.1.evalSector_settles (p.1.sectorOf r)
  have rests3 := p.1.evalSector_rests (p.1.sectorOf r)
  have same : q = p.1.evalSector (p.1.sectorOf r) := rfl
  rw [← same] at dist3 engine3 records3 settles3 rests3
  clear_value q
  have rests1 : Rests s (s.serve r) := .of_settles settles1 rfl rfl rfl
  refine ⟨(settles1.trans settles2).trans settles3, (rests1.trans rests2.1).trans rests3.1, engine3.trans engine2,
    dist3.trans dist2, fun z hz => ?_, fun z hz => ?_, fun z hz => ?_, fun z hz => ?_,
    fun z b hz => ?_⟩
  · rw [State.health, records3, ← State.health, (kept2 z).1, State.health, records1 z hz]
    rfl
  · refine (settles3.boosted_iff (congrArg SupRecord.health (records3 z)) (by rw [records3])).mpr ((right2 z).mpr ?_)
    by_cases own : z = r
    · exact .inl (own ▸ listed)
    · exact .inr (right1 z own (hz.resolve_right own))
  · refine (settles3.sourced_iff (congrArg SupRecord.health (records3 z)) (by rw [records3])).mpr (sourced2 z ?_)
    by_cases own : z = r
    · exact .inl (own ▸ listed)
    · exact .inr (sourced1 z own hz)
  · have out : z ∉ p.2 := fun k => hz (by
      rw [whole]
      by_cases own : z = r
      · exact own ▸ List.mem_cons_self
      · exact List.mem_cons_of_mem _ (List.mem_filter.mpr ⟨k, decide_eq_true own⟩))
    rw [records3, boost2 z out, boost1]
  · by_contra other
    have member : z ∈ p.2 := by
      rw [whole] at hz
      exact (List.mem_filter.mp ((List.mem_cons.mp hz).resolve_left other)).1
    exact changed2 z member (right1 z other b)

/-- A remote joins (R125): its own target is computed again, and that of each whose boost it changes (R135); to the Move
Engine only it can matter, where the boosts are right. -/
theorem State.joined_retargets {s : State} (free : s.engine.holdSet = []) {r : RemoteId} (joining : s.health r = .joining) :
    Retargets [r] s (s.joined r) ∧ (∀ z, z ≠ r → (s.joined r).health z = s.health z) ∧
      ∃ gone, Ending gone s (s.joined r) ∧ ∀ z, s.Boosted z → z ∈ gone → z = r := by
  have parts := State.served_parts joining
  have kept := s.joined_healthsKept r
  have member : r ∈ withFirst r (s.served r).2 := List.mem_cons_self
  rw [State.joined_eq] at kept ⊢
  generalize withFirst r (s.served r).2 = xs at parts kept member ⊢
  generalize (s.served r).1.evalSector ((s.served r).1.sectorOf r) = q at parts kept ⊢
  obtain ⟨settles, rests, engine, dist, healths, boosted, sourced, boosts, alone⟩ := parts
  have free' : q.engine.holdSet = [] := by rw [engine]; exact free
  have ramped := State.engineRecomputes_reramped xs free'
  have after := ramped.retargets free'
  have health : ∀ z, (xs.foldl State.engineRecompute q).health z = q.health z := fun z =>
    congrArg SupRecord.health (State.supRec_congr ramped.sup z)
  refine ⟨⟨settles.trans after.settles, after.free, fun z held => (kept z).2 ?_,
    fun z b => after.boosted z (boosted z (.inl b)), fun z q => after.sourced z (sourced z q), fun z aim => after.aimed z ?_⟩,
    fun z hz => (health z).trans (healths z hz),
    _, .after_rests rests engine ramped.ending, fun z b hz => alone z b (List.mem_filter.mp hz).1⟩
  · refine (congrArg SupRecord.held (State.supRec_modSup s r z _)).trans ?_
    split <;> exact held
  · by_cases listed : z ∈ xs
    · exact .inl listed
    · have aim : s.Aimed z := aim.resolve_left fun own => listed (List.mem_singleton.mp own ▸ member)
      refine .inr ?_
      rw [State.Aimed, settles.targetOf free free' (boosts z listed), State.ramp, dist]
      exact aim

/-- What recomputes are to the Move Engine and to JOINING remotes: those that are at their targets are noticed (R35, R125). -/
structure Recomputed (rs : List RemoteId) (s t : State) : Prop extends Retargets rs s t where
  joined : ∀ z, s.Boosted z → t.health z ≠ s.health z → z ∈ rs ∧ s.Arrived z
  ending : ∃ gone, Ending gone s t ∧ ∀ z, s.Boosted z → (z ∈ gone ↔ z ∈ rs ∧ s.Arrived z)

theorem Recomputed.trans {rs rs' : List RemoteId} {s t u : State} (free : s.engine.holdSet = []) (h : Recomputed rs s t)
    (k : Recomputed rs' t u) : Recomputed (rs ++ rs') s u := by
  obtain ⟨gone, ending, members⟩ := h.ending
  obtain ⟨gone', ending', members'⟩ := k.ending
  refine ⟨h.toRetargets.trans k.toRetargets, fun z b changed => ?_, gone ++ gone', ending.trans ending', fun z b => ?_⟩
  · by_cases own : t.health z = s.health z
    · obtain ⟨member, arrived⟩ := k.joined z (h.boosted z b) (fun same => changed (same.trans own))
      exact ⟨List.mem_append_right _ member, (h.arrived free b own).mp arrived⟩
    · obtain ⟨member, arrived⟩ := h.joined z b own
      exact ⟨List.mem_append_left _ member, arrived⟩
  · rw [List.mem_append, List.mem_append, members z b, members' z (h.boosted z b), or_and_right]
    by_cases own : t.health z = s.health z
    · rw [h.arrived free b own]
    · have first := h.joined z b own
      simp [first]

theorem State.recompute_recomputed {s : State} (free : s.engine.holdSet = []) (r : RemoteId) :
    Recomputed [r] s (s.recompute r) := by
  have ramped := State.beginRamp_reramped free r
  have retargets := ramped.retargets free
  have done : (s.beginRamp r).ramp r = s.rampOf r := by rw [State.ramp_beginRamp, if_pos rfl]; rfl
  have health : ∀ z, (if (s.rampOf r).done then (s.beginRamp r).leavePhase r else s.beginRamp r).health z = s.health z :=
    fun z => congrArg SupRecord.health (State.supRec_congr ramped.sup z)
  have plain : Recomputed [r] s (if (s.rampOf r).done then (s.beginRamp r).leavePhase r else s.beginRamp r) :=
    ⟨retargets, fun z _ changed => absurd (health z) changed, _, ramped.ending, fun z _ => by
      rw [List.mem_filter, State.rampOf_done]⟩
  unfold State.recompute State.completion State.engineNotice
  simp only [done]
  by_cases arrived : (s.rampOf r).done = true
  swap
  · rw [if_neg arrived] at plain ⊢
    exact plain
  rw [if_pos arrived] at plain retargets health ⊢
  split
  swap
  · exact plain
  rename_i joins
  simp only [Bool.and_eq_true, decide_eq_true_eq] at joins
  obtain ⟨after, others, gone, ending, alone⟩ := State.joined_retargets retargets.free joins.1
  have noticed : r ∈ [r] ∧ s.Arrived r := ⟨List.mem_singleton_self r, (s.rampOf_done r).mp arrived⟩
  refine ⟨(retargets.trans after).of_subset (by simp), fun z _ changed => ?_, ?_⟩
  · by_cases own : z = r
    · exact own ▸ noticed
    · exact absurd ((others z own).trans (health z)) changed
  · obtain ⟨left, leaving, members⟩ := plain.ending
    refine ⟨left ++ gone, leaving.trans ending, fun z b => ?_⟩
    rw [List.mem_append, members z b]
    refine or_iff_left_of_imp fun k => ?_
    exact alone z (retargets.boosted z b) k ▸ noticed

theorem State.recomputeAll_recomputed (rs : List RemoteId) : ∀ {s : State}, s.engine.holdSet = [] →
    Recomputed rs s (s.recomputeAll rs) := by
  induction rs with
  | nil =>
    exact fun {s} free => ⟨⟨.refl s, free, fun _ => id, fun _ => id, fun _ => id,
        fun z aim => aim.resolve_left List.not_mem_nil⟩,
      fun z _ changed => absurd rfl changed, [], .still (.refl s) rfl, fun z _ => by simp⟩
  | cons r rs ih =>
    intro s free
    have first := State.recompute_recomputed free r
    exact first.trans free (ih first.free)

end Sys2Proof.Machine
end

section
namespace Sys2Proof.Machine

/-! ### The end of a phase that may begin empty (R83, R86) -/

/-- With nothing held, the end of a move keeps what recomputes have left. -/
theorem Retargets.moveEnd {rs : List RemoteId} {s t : State} (h : Retargets rs s t) (o : MoveOutcome) :
    Retargets rs s (t.moveEnd o) := by
  obtain ⟨dist, sup, free⟩ := State.moveEnd_frame h.free o
  have settles := t.moveEnd_settles o
  have records : ∀ z, (t.moveEnd o).supRec z = t.supRec z := State.supRec_congr sup
  refine ⟨h.settles.trans settles, free, fun z held => by rw [records]; exact h.held z held, fun z b => ?_, fun z q => ?_,
    fun z aim => ?_⟩
  · exact (settles.boosted_iff (congrArg SupRecord.health (records z)) (by rw [records])).mpr (h.boosted z b)
  · exact (settles.sourced_iff (congrArg SupRecord.health (records z)) (by rw [records])).mpr (h.sourced z q)
  · rw [State.Aimed, settles.targetOf h.free free (by rw [records]), State.ramp, dist]
    exact h.aimed z aim

/-- A phase with these remotes gone, ended at once where it began empty. -/
structure Phased (gone : List RemoteId) (m : MoveRecord) (o : MoveOutcome) (s t : State) : Prop where
  goes : s.engine.remaining gone ≠ [] → Rests s t ∧ t.engine = { s.engine with phaseSet := s.engine.remaining gone }
  ends : s.engine.remaining gone = [] → m.Closed o s t

theorem Ending.phased {gone : List RemoteId} {m : MoveRecord} {o : MoveOutcome} {s t : State} (h : Ending gone s t)
    (after : s.engine.state = .fadeIn ∨ s.engine.state = .recovering) (hm : s.engine.record = some m)
    (ho : (if s.engine.state = .fadeIn then MoveOutcome.done else .aborted) = o) :
    Phased gone m o s (if s.engine.phaseSet.isEmpty then t.moveEnd o else t) := by
  by_cases empty : s.engine.phaseSet = []
  · rw [if_pos (by rw [empty]; rfl)]
    obtain ⟨rests, same⟩ := h.leaving.idle empty
    exact ⟨fun some => absurd (Engine.remaining_nil empty gone) some,
      fun _ => (State.moveEnd_closed (s := t) (by rw [same]; exact hm) o).before rests⟩
  · rw [if_neg (by simpa using empty)]
    exact ⟨fun some => ⟨h.leaving.rests (.inr (.inl some)), h.leaving.goes (.inr some)⟩,
      fun none => ho ▸ h.ends empty none after m hm⟩

/-- Under the laws every boost is right (R134). -/
theorem State.Settled.boosted {s : State} (h : s.Settled) (z : RemoteId) : s.Boosted z := by
  rw [State.Boosted, h.boosts.boost z List.not_mem_nil, h.boosts.sources z List.not_mem_nil]

/-- The target at which a remote arrives: where it joins, the one it has before it serves. -/
theorem Retargets.goal {rs : List RemoteId} {s t : State} (h : Retargets rs s t) (free : s.engine.holdSet = []) {z : RemoteId}
    (b : s.Boosted z) : (if s.health z = .joining then
        (if (s.supRec z).alarms.hot then (s.live z).baseGain * 3 / 4 else min 1023 (s.live z).baseGain)
      else t.targetOf z) = s.targetOf z := by
  split
  · rename_i joining; exact (b.joining joining free).symm
  · rename_i other
    exact h.targetOf free b ((h.settles.sup z).health.resolve_right fun k => other k.1)

/-! ## ABORT and CUT-OVER (R74, R81, R85, R86, R111, R112) -/

section Recovery

variable {s : State} {m : MoveRecord}

/-- A settling of a state that differs in its queues alone, answered. -/
theorem Settles.fill {s t : State} (h : Settles s t) (x : Response) : Settles (s.fill x) (t.fill x) where
  events := h.events
  pending := h.pending
  loader := h.loader
  clock := h.clock
  settings := h.settings
  links := h.links
  comb := h.comb
  meter := h.meter
  store := h.store
  svc := congrArg (fun v : Service => { v with filled := v.filled ++ [x] }) h.svc
  dist := h.dist
  present := h.present
  map := h.map
  spreader := h.spreader
  sup := h.sup
  force := h.force
  count := h.count
  acting := h.acting
  flags := h.flags
  joins := h.joins

theorem State.startRecovery_eq (hm : s.engine.record = some m) : s.startRecovery =
    if m.fading.isEmpty then ((s.enterRecovery m).recomputeAll s.engine.holdSet).moveEnd .aborted
    else (s.enterRecovery m).recomputeAll s.engine.holdSet := by
  rw [State.startRecovery, hm]

/-- Entry to RECOVERING releases the holds, and changes nothing else of a remote (R86). -/
theorem State.supRec_enterRecovery (z : RemoteId) : (s.enterRecovery m).supRec z =
    if z ∈ s.engine.holdSet then { s.supRec z with held := false } else s.supRec z :=
  State.supRec_tellHeld _ _ _ _

theorem State.enterRecovery_rests (s : State) (m : MoveRecord) :
    Rests s (s.enterRecovery m) ∧ Settles s (s.enterRecovery m) ∧ (s.enterRecovery m).dist = s.dist := by
  have settles : Settles s (s.enterRecovery m) := s.releaseHolds_settles.trans (State.setEngine_settles _ _)
  have frame : (s.enterRecovery m).dist = s.dist ∧ (s.enterRecovery m).spreader = s.spreader ∧
      (s.enterRecovery m).map = s.map ∧ (s.enterRecovery m).boundary = s.boundary := by
    rw [State.enterRecovery, State.releaseHolds_eq]
    exact ⟨rfl, rfl, rfl, rfl⟩
  obtain ⟨dist, spreader, map, boundary⟩ := frame
  exact ⟨.of_settles settles spreader map boundary, settles, dist⟩

/-- What a recovery comes to: every remote that was held ramps to its target, and the fading ones that are at theirs are not
waited for (R86). -/
theorem State.startRecovery_recovers (hm : s.engine.record = some m) :
    Retargets s.engine.holdSet (s.enterRecovery m) s.startRecovery ∧
      ∃ gone, Phased gone m .aborted (s.enterRecovery m) s.startRecovery ∧
        ∀ z, (s.enterRecovery m).Boosted z → (z ∈ gone ↔ z ∈ s.engine.holdSet ∧ (s.enterRecovery m).Arrived z) := by
  rw [State.startRecovery_eq hm]
  have recomputed := State.recomputeAll_recomputed s.engine.holdSet (s := s.enterRecovery m) rfl
  obtain ⟨gone, ending, members⟩ := recomputed.ending
  refine ⟨?_, gone, ending.phased (.inr rfl) hm rfl, members⟩
  split
  · exact recomputed.toRetargets.moveEnd _
  · exact recomputed.toRetargets

/-- Under the laws the fading remotes that are not at their targets are waited for (R86). -/
theorem State.Settled.recovery_left (h : s.Settled) (fades : s.engine.state = .fadeOut) (hm : s.engine.record = some m) :
    (∀ z, (s.enterRecovery m).Boosted z) ∧ ∀ z ∈ m.fading, z ∈ s.engine.holdSet := by
  obtain ⟨-, settles, -⟩ := s.enterRecovery_rests m
  obtain ⟨held, -⟩ := h.engine.held (.inl fades) m hm
  refine ⟨fun z => (settles.boosted_iff ?_ ?_).mpr (h.boosted z), held⟩
  · rw [State.health, State.supRec_enterRecovery]; split <;> rfl
  · rw [State.supRec_enterRecovery]; split <;> rfl

/-- A recovery under the laws (R86). -/
theorem State.Settled.startRecovery_phase (h : s.Settled) (fades : s.engine.state = .fadeOut) (hm : s.engine.record = some m) :
    let t := s.startRecovery
    let goal (r : RemoteId) : Nat := if s.health r = .joining then
        (if (s.supRec r).alarms.hot then (s.live r).baseGain * 3 / 4 else min 1023 (s.live r).baseGain)
      else t.targetOf r
    let left := m.fading.filter fun r => decide ((s.ramp r).present ≠ goal r)
    (left ≠ [] → t.engine = { s.engine with state := .recovering, phaseSet := left, holdSet := [] }) ∧
      (left = [] → m.Ended .aborted s t) := by
  intro t goal
  obtain ⟨retargets, gone, phased, members⟩ := State.startRecovery_recovers hm
  obtain ⟨boosted, held⟩ := h.recovery_left fades hm
  obtain ⟨rests, settles, dist⟩ := s.enterRecovery_rests m
  have goals : ∀ z, goal z = (s.enterRecovery m).targetOf z := fun z => by
    rw [← retargets.goal rfl (boosted z), settles.live, settles.hot]
    have health : (s.enterRecovery m).health z = s.health z := by
      rw [State.health, State.supRec_enterRecovery]; split <;> rfl
    rw [health]
  have rest : (s.enterRecovery m).engine.remaining gone = m.fading.filter fun r => decide ((s.ramp r).present ≠ goal r) :=
    List.filter_congr fun z hz => decide_eq_decide.mpr (not_congr ((members z (boosted z)).trans (by
      rw [State.Arrived, settles.present, goals]
      exact and_iff_right (held z hz))))
  rw [← rest]
  refine ⟨fun some => (phased.goes some).2, fun none => ?_⟩
  exact ((phased.ends none).ended (.inl (h.engine.shape m hm))).before rests

/-- A recovery, whatever the state (R85, R86). -/
theorem State.startRecovery_outcome (hm : s.engine.record = some m) :
    let t := s.startRecovery
    t.map = s.map ∧
      (t.engine.state = .recovering ∧ t.engine.record = some m ∧ (∀ z ∈ t.engine.phaseSet, z ∈ m.fading) ∨
        t.engine = ⟨.idle, none, [], [], none⟩ ∧ t.spreader.lastEnd = some s.now) ∧
      (m.fading = [] → t.engine.state = .idle) := by
  intro t
  obtain ⟨-, gone, phased, -⟩ := State.startRecovery_recovers hm
  obtain ⟨rests, -, -⟩ := s.enterRecovery_rests m
  by_cases left : (s.enterRecovery m).engine.remaining gone = []
  · have closed := (phased.ends left).before rests
    exact ⟨closed.map.trans (if_neg (by simp)), .inr ⟨closed.engine, closed.lastEnd⟩,
      fun _ => congrArg Engine.state closed.engine⟩
  · obtain ⟨after, engine⟩ := phased.goes left
    refine ⟨after.map.trans rests.map, .inl ⟨congrArg Engine.state engine, (congrArg Engine.record engine).trans hm,
      fun z hz => ?_⟩,
      fun none => absurd (Engine.remaining_nil none gone) left⟩
    have hz : z ∈ (s.enterRecovery m).engine.remaining gone := by rw [engine] at hz; exact hz
    exact (List.mem_filter.mp hz).1

end Recovery

theorem State.askAbort_fadeOut {s : State} (h : s.engine.state = .fadeOut) : s.askAbort = .ok (s.startRecovery, []) := by
  rw [State.askAbort, h]
  rfl

/-- Settles O53: the recovery (`State.startRecovery_outcome`, and under the laws `State.Settled.startRecovery_phase`), and the
batch to a valid plan (`State.startCutOver_started`). -/
theorem abortRecoversAndCutOverStarts : Obligations.AbortRecoversAndCutOverStarts := by
  intro s q
  refine ⟨fun takes => ?_, fun takes => ?_⟩
  · have refused : ∀ {st}, s.dropRequest.askAbort = .error st → exec .abort s = .next (s.turnedAway q st) :=
      fun e => congrArg Host.Outcome.next (State.takeRequest_refused takes e)
    refine ⟨fun state => refused ?_, fun state => refused ?_, fun m fades hm => ?_⟩
    · have state : s.dropRequest.engine.state = .idle ∨ s.dropRequest.engine.state = .recovering := state
      rw [State.askAbort]
      rcases state with state | state <;> rw [state]
    · have state : s.dropRequest.engine.state = .switchPending ∨ s.dropRequest.engine.state = .fadeIn := state
      rw [State.askAbort]
      rcases state with state | state <;> rw [state]
    obtain ⟨retargets, -⟩ := State.startRecovery_recovers (s := s.dropRequest) hm
    obtain ⟨map, outcome, empty⟩ := State.startRecovery_outcome (s := s.dropRequest) hm
    have settles := s.dropRequest.startRecovery_settles
    have taken : exec .abort s = .next (s.dropRequest.startRecovery.fill (q.answer .done [])) :=
      congrArg Host.Outcome.next (State.takeRequest_done takes (State.askAbort_fadeOut (s := s.dropRequest) fades))
    refine ⟨_, taken, settles.fill _, map, fun z hz => retargets.held z ?_, retargets.free, outcome, empty,
      fun z hz => retargets.aimed z (.inl hz), fun lawful moves supervision => ?_⟩
    · rw [State.supRec_enterRecovery]
      exact congrArg SupRecord.held (if_pos hz)
    · have settled : s.dropRequest.Settled :=
        ((State.settled_iff s).mpr ⟨lawful, moves, supervision⟩).apart (.of_svc rfl)
      obtain ⟨waits, ends⟩ := settled.startRecovery_phase fades hm
      refine ⟨waits, fun none => ?_⟩
      obtain ⟨engine, lastEnd, reported, retest, adopted, kept⟩ := ends none
      exact ⟨engine, lastEnd, reported, retest, adopted, kept⟩
  · have refused : ∀ {st}, s.dropRequest.askCutOver q.body = .error st → exec .cutOver s = .next (s.turnedAway q st) :=
      fun e => congrArg Host.Outcome.next (State.takeRequest_refused takes e)
    refine ⟨fun high => refused (by simp [State.askCutOver, finOf_eq_none high]), fun p hp => ?_⟩
    have hp := finOf_of_toNat hp
    refine ⟨fun busy => refused ?_, fun idle invalid => refused ?_, fun idle valid => ?_⟩
    · have busy := State.engineIdle_eq_false (s := s.dropRequest) busy
      simp [State.askCutOver, hp, busy]
    · have idle := State.engineIdle_eq_true (s := s.dropRequest) idle
      simp [State.askCutOver, hp, idle, invalid]
    · have free := State.engineIdle_eq_true (s := s.dropRequest) idle
      have taken : s.dropRequest.askCutOver q.body = .ok ((s.dropRequest.startCutOver p).1, []) := by
        simp [State.askCutOver, hp, free, valid, ok]
      obtain ⟨-, started⟩ := State.startCutOver_started (s := s.dropRequest) idle p
      exact ⟨_, started.fill _, congrArg Host.Outcome.next (State.takeRequest_done takes taken)⟩

end Sys2Proof.Machine
end

section
namespace Sys2Proof.Machine

/-! ## The switch (R47, R78, R79, R83) -/

/-- The boosts of these remotes have been evaluated, and flags after them (R135, R136). -/
structure BoostsEvaluated (ys : List RemoteId) (s t : State) : Prop where
  settles : Settles s t
  rests : Rests s t
  engine : t.engine = s.engine
  dist : t.dist = s.dist
  kept : HealthsKept s t
  boosted : ∀ z ∈ ys, t.Boosted z
  sourced : ∀ z ∈ ys, t.Sourced z

theorem State.reevalBoosts_evaluates (s : State) (ys : List RemoteId) : BoostsEvaluated ys s (s.reevalBoosts ys).1 := by
  obtain ⟨dist, -, engine⟩ := s.reevalBoosts_parts ys
  exact ⟨s.reevalBoosts_settles ys, (s.reevalBoosts_rests ys).1, engine, dist, s.reevalBoosts_healthsKept ys,
    fun z hz => (s.reevalBoosts_boosted ys z).mpr (.inl hz),
    fun z hz => s.reevalBoosts_sourced ys z (.inl hz)⟩

namespace BoostsEvaluated

variable {ys : List RemoteId} {s t : State}

theorem evalSector (h : BoostsEvaluated ys s t) (o : Option SectorId) : BoostsEvaluated ys s (t.evalSector o) := by
  obtain ⟨dist, engine, records⟩ := t.evalSector_parts o
  have settles := t.evalSector_settles o
  exact ⟨h.settles.trans settles, h.rests.trans (t.evalSector_rests o).1, engine.trans h.engine, dist.trans h.dist,
    h.kept.trans (t.evalSector_healthsKept o), fun z hz => (settles.boosted_iff (congrArg SupRecord.health (records z))
      (by rw [records])).mpr (h.boosted z hz), fun z hz => (settles.sourced_iff (congrArg SupRecord.health (records z))
      (by rw [records])).mpr (h.sourced z hz)⟩

theorem evalSectors (xs : List SectorId) : ∀ {t : State}, BoostsEvaluated ys s t →
    BoostsEvaluated ys s (xs.foldl (fun s x => s.evalDegraded true x) t) := by
  induction xs with
  | nil => exact id
  | cons x xs ih => exact fun h => ih (h.evalSector (some x))

end BoostsEvaluated

theorem Settles.members {s t : State} (h : Settles s t) (x : SectorId) : t.members x = s.members x := by
  simp only [State.members, h.sectorOf]

section Entry

variable (s : State) (m : MoveRecord) (phase : List RemoteId) (p : Option PlanMap)

/-- Entry to FADE-IN releases the holds, and changes nothing else of a remote (R78, R83). -/
theorem State.supRec_enterFadeIn (z : RemoteId) : (s.enterFadeIn m phase p).supRec z =
    if z ∈ s.engine.holdSet then { s.supRec z with held := false } else s.supRec z :=
  State.supRec_tellHeld _ _ _ _

theorem State.enterFadeIn_rests : Rests s (s.enterFadeIn m phase p) ∧ Settles s (s.enterFadeIn m phase p) ∧
    (s.enterFadeIn m phase p).dist = s.dist := by
  have settles : Settles s (s.enterFadeIn m phase p) := s.releaseHolds_settles.trans (State.setEngine_settles _ _)
  have frame : (s.enterFadeIn m phase p).dist = s.dist ∧ (s.enterFadeIn m phase p).spreader = s.spreader ∧
      (s.enterFadeIn m phase p).map = s.map ∧ (s.enterFadeIn m phase p).boundary = s.boundary := by
    rw [State.enterFadeIn, State.releaseHolds_eq]
    exact ⟨rfl, rfl, rfl, rfl⟩
  obtain ⟨dist, spreader, map, boundary⟩ := frame
  exact ⟨.of_settles settles spreader map boundary, settles, dist⟩

theorem State.enterFadeIn_engine : (s.enterFadeIn m phase p).engine =
    ⟨.fadeIn, some { m with switchFc := some s.now }, phase, [], p⟩ := rfl

end Entry

/-! ### The switch of a single move (R78) -/

section Single

variable {s : State} {m : MoveRecord} {r : RemoteId} {x : Option SectorId} {y : SectorId} {ps : List Place}

/-- Membership has changed: live record and history of r, and for a MANUAL move the diverged flag (R47, R78). -/
def State.moved (s : State) (m : MoveRecord) (r : RemoteId) (y : SectorId) : State :=
  if m.kind = .manual then (s.changeSector r (some y)).diverge else s.changeSector r (some y)

theorem State.moved_eq (s : State) (m : MoveRecord) (r : RemoteId) (y : SectorId) : s.moved m r y = { s with
    comb := { s.comb with
      history := s.comb.history.set r ⟨s.sectorOf r, some (s.comb.history.get r).switchFc, s.now⟩ }
    map := { s.map with
      remotes := s.map.remotes.modify r fun v => { v with entry := { v.entry with sector := some y } }
      diverged := s.map.diverged || decide (m.kind = .manual) } } := by
  unfold State.moved
  by_cases manual : m.kind = .manual
  · rw [if_pos manual, decide_eq_true manual, Bool.or_true]
    rfl
  · rw [if_neg manual, decide_eq_false manual, Bool.or_false]
    rfl

/-- The hub after the switch of a single move, before the recomputes (R78, R135, R136). -/
def State.movedIn (s : State) (m : MoveRecord) (r : RemoteId) (x : Option SectorId) (y : SectorId) : State × List RemoteId :=
  let c := (s.moved m r y).enterFadeIn m [r] none
  let p := c.reevalBoosts (withFirst r ((c.live r).partners ++ c.namers r).dedup)
  ((p.1.evalSector x).evalSector (some y), withFirst r p.2)

theorem State.singleSwitch_eq (hm : s.engine.record = some m) (places : m.places = ⟨r, x, .sector y⟩ :: ps) :
    s.singleSwitch = (s.movedIn m r x y).1.recomputeAll (s.movedIn m r x y).2 := by
  unfold State.singleSwitch
  simp only [hm, places]
  rfl

theorem State.movedIn_evaluates (s : State) (m : MoveRecord) (r : RemoteId) (x : Option SectorId) (y : SectorId) :
    r ∈ (s.movedIn m r x y).2 ∧ ∃ ys, r ∈ ys ∧
      BoostsEvaluated ys ((s.moved m r y).enterFadeIn m [r] none) (s.movedIn m r x y).1 :=
  ⟨List.mem_cons_self, _, List.mem_cons_self, ((State.reevalBoosts_evaluates _ _).evalSector x).evalSector (some y)⟩

/-- The recomputes of the switch, seen from where membership has changed. -/
theorem State.singleSwitch_recomputes (hm : s.engine.record = some m) (places : m.places = ⟨r, x, .sector y⟩ :: ps) :
    Settles (s.moved m r y) (s.movedIn m r x y).1 ∧ Rests (s.moved m r y) (s.movedIn m r x y).1 ∧
      Recomputed (s.movedIn m r x y).2 (s.movedIn m r x y).1 s.singleSwitch ∧
      (s.movedIn m r x y).1.engine = ⟨.fadeIn, some { m with switchFc := some s.now }, [r], [], none⟩ ∧
      (∀ z, (s.movedIn m r x y).1.health z = s.health z) ∧
      (∀ z ∈ s.engine.holdSet, ((s.movedIn m r x y).1.supRec z).held = false) := by
  obtain ⟨-, ys, -, evaluated⟩ := s.movedIn_evaluates m r x y
  obtain ⟨rests, settles, -⟩ := (s.moved m r y).enterFadeIn_rests m [r] none
  have records := (s.moved m r y).supRec_enterFadeIn m [r] none
  have before : (s.moved m r y).engine = s.engine ∧ (s.moved m r y).sup = s.sup ∧ (s.moved m r y).now = s.now := by
    rw [State.moved_eq]; exact ⟨rfl, rfl, rfl⟩
  obtain ⟨engineA, supA, nowA⟩ := before
  have engine := evaluated.engine.trans ((s.moved m r y).enterFadeIn_engine m [r] none)
  rw [nowA] at engine
  rw [State.singleSwitch_eq hm places]
  have free : (s.movedIn m r x y).1.engine.holdSet = [] := by rw [engine]
  have recomputed := State.recomputeAll_recomputed (s.movedIn m r x y).2 free
  refine ⟨settles.trans evaluated.settles, rests.trans evaluated.rests, recomputed, engine,
    fun z => ?_, fun z hz => (evaluated.kept z).2 ?_⟩
  · rw [(evaluated.kept z).1, State.health, records, State.supRec_congr supA]
    split <;> rfl
  · rw [records, engineA]
    exact congrArg SupRecord.held (if_pos hz)

/-- What the switch of a single move comes to for the engine: it waits for the remote, or the move has ended (R78, R79). -/
theorem State.singleSwitch_phase (hm : s.engine.record = some m) (single : m.kind ≠ .batch)
    (places : m.places = ⟨r, x, .sector y⟩ :: ps) :
    let t := s.singleSwitch
    let goal := if s.health r = .joining then
        (if (s.supRec r).alarms.hot then (s.live r).baseGain * 3 / 4 else min 1023 (s.live r).baseGain)
      else t.targetOf r
    t.map = (s.moved m r y).map ∧
      ((s.ramp r).present ≠ goal → t.engine = ⟨.fadeIn, some { m with switchFc := some s.now }, [r], [], none⟩) ∧
      ((s.ramp r).present = goal → m.Ended .done (s.moved m r y) t) := by
  intro t goal
  obtain ⟨settles, rests, recomputed, engine, health, -⟩ := State.singleSwitch_recomputes hm places
  obtain ⟨member, ys, listed, evaluated⟩ := s.movedIn_evaluates m r x y
  have boosted := evaluated.boosted r listed
  clear evaluated
  set d := (s.movedIn m r x y).1 with hd
  have free : d.engine.holdSet = [] := by rw [engine]
  have reads : ((s.moved m r y).supRec r).alarms.hot = (s.supRec r).alarms.hot ∧
      ((s.moved m r y).live r).baseGain = (s.live r).baseGain ∧ (s.moved m r y).ramp r = s.ramp r := by
    rw [State.moved_eq]
    refine ⟨rfl, ?_, rfl⟩
    simp only [State.live, Tab.get_modify, if_true]
  obtain ⟨hot, gain, ramp⟩ := reads
  have goals : goal = d.targetOf r := by
    rw [← recomputed.goal free boosted, health, settles.hot, hot, settles.live, gain]
  have arrives : d.Arrived r ↔ (s.ramp r).present = goal := by
    rw [State.Arrived, settles.present, ramp, goals]
  obtain ⟨gone, ending, members⟩ := recomputed.ending
  have phased : Phased gone { m with switchFc := some s.now } .done d t := by
    have phased := ending.phased (m := { m with switchFc := some s.now }) (o := .done) (.inl (by rw [engine])) (by rw [engine])
      (by rw [engine]; rfl)
    rwa [if_neg (by rw [engine]; nofun)] at phased
  have noticed : r ∈ gone ↔ d.Arrived r := (members r boosted).trans (and_iff_right member)
  have left : d.engine.remaining gone = [r].filter fun z => decide (z ∉ gone) := by rw [Engine.remaining, engine]
  by_cases arrived : d.Arrived r
  · have none : d.engine.remaining gone = [] := by rw [left]; simp [noticed.mpr arrived]
    have closed := (phased.ends none).before rests
    refine ⟨closed.map.trans (if_neg fun adopts => single adopts.1), fun away => absurd (arrives.mp arrived) away, fun _ => ?_⟩
    obtain ⟨engine, lastEnd, reported, retest, adopted, kept⟩ := closed.ended (.inr ⟨single, by rw [places]; nofun⟩)
    exact ⟨engine, lastEnd, reported, retest, adopted, kept⟩
  · have rest : d.engine.remaining gone = [r] := by rw [left]; simp [mt noticed.mp arrived]
    obtain ⟨after, waits⟩ := phased.goes (by rw [rest]; nofun)
    refine ⟨after.map.trans rests.map, fun _ => ?_, fun here => absurd (arrives.mpr here) arrived⟩
    rw [waits, rest, engine]

end Single

/-- Settles O43: membership changes (`State.moved_eq`), then the boosts, flags and recomputes follow
(`State.singleSwitch_recomputes`), and the engine waits for the remote or its move has ended (`State.singleSwitch_phase`). -/
theorem switchChangesMembership : Obligations.SwitchChangesMembership := by
  intro s m r x y ps hm
  have running : s.batchRunning = true ↔ m.kind = .batch := by
    rw [State.batchRunning_iff]
    exact ⟨fun ⟨n, hn, batch⟩ => Option.some.inj (hm.symm.trans hn) ▸ batch, fun batch => ⟨m, hm, batch⟩⟩
  refine ⟨fun batch => congrArg Host.Outcome.next (if_pos (running.mpr batch)),
    fun single => congrArg Host.Outcome.next (if_neg (mt running.mp single)), fun single places pending due => ?_⟩
  set b := s.unDue .switch with hb
  have falls : b.switchFalls = b.singleSwitch := (if_pos pending).trans (if_neg (mt running.mp single))
  have taken : exec .switch s = .next b.singleSwitch := by
    refine congrArg Host.Outcome.next ((if_neg (mt running.mp single)).trans ?_)
    rw [State.takeDue_of_due _ due, falls]
  have spares : Spares s b.singleSwitch := (s.unDue_spares .switch).trans b.singleSwitch_spares
  obtain ⟨entered, -, recomputed, -, -, held⟩ := State.singleSwitch_recomputes (s := b) hm places
  have settles := entered.trans recomputed.settles
  obtain ⟨map, waits, ends⟩ := State.singleSwitch_phase (s := b) hm single places
  obtain ⟨member, -⟩ := b.movedIn_evaluates m r x y
  rw [State.moved_eq] at settles map ends
  refine ⟨_, taken, spares, map, ?_, fun z hz => ?_, fun z => ⟨settles.sup z, settles.present z⟩,
    fun z hz => recomputed.held z (held z hz), recomputed.aimed r (.inl member), ⟨waits, fun arrived => ?_⟩, settles.meter,
    settles.links, settles.svc, settles.events, settles.joins, ?_⟩
  · rw [settles.comb]
    exact Tab.get_set_self _ _ _
  · rw [settles.comb]
    exact Tab.get_set_ne _ _ (Ne.symm hz)
  · obtain ⟨engine, lastEnd, reported, retest, adopted, kept⟩ := ends arrived
    exact ⟨engine, lastEnd, reported, retest, adopted, kept⟩
  · intro z changed
    obtain ⟨n, low, rest⟩ := settles.flags z changed
    refine ⟨n, ?_, rest⟩
    dsimp only
    rw [settles.members]
    exact low

end Sys2Proof.Machine
end

section
namespace Sys2Proof.Machine

/-! ### The pending map replaces the live map (R47, R94, R113) -/

/-- Steps over ports, each of which changes what is kept of its own port alone: every port is changed once. -/
theorem foldl_ports {β : Type} {port : State → RemoteId → β} {step : State → RemoteId → State} {g : RemoteId → β → β}
    {C : State → Prop} (keeps : ∀ s r, C s → C (step s r)) (others : ∀ s r x, x ≠ r → port (step s r) x = port s x)
    (own : ∀ s r, C s → port (step s r) r = g r (port s r)) (xs : List RemoteId) : xs.Nodup → ∀ s, C s →
      C (xs.foldl step s) ∧ ∀ r, port (xs.foldl step s) r = if r ∈ xs then g r (port s r) else port s r := by
  induction xs with
  | nil => exact fun _ s c => ⟨c, fun _ => rfl⟩
  | cons x xs ih =>
    intro nodup s c
    obtain ⟨new, rest⟩ := List.nodup_cons.mp nodup
    obtain ⟨after, each⟩ := ih rest (step s x) (keeps s x c)
    refine ⟨after, fun r => (each r).trans ?_⟩
    by_cases here : r = x
    · subst here
      rw [if_neg new, if_pos List.mem_cons_self, own s r c]
    · rw [others s x r here]
      simp [here]

/-- What the map holds of a port: its live record, its switch history and its homing streak. -/
abbrev MapPort := LiveRemote × History × Nat

def State.mapPort (s : State) (r : RemoteId) : MapPort :=
  (s.map.remotes.get r, s.comb.history.get r, s.spreader.homing.get r)

/-- A port as an entry taken up at this FC leaves it (R47, R94, R113). -/
def RemoteEntry.taken (e : RemoteEntry) (now : FC) : MapPort → MapPort
  | (v, h, k) => (e.asLive, if v.entry.sector = e.place then h else ⟨v.entry.sector, some h.switchFc, now⟩,
      if v.home = e.place then k else 0)

/-- What a replacement of the map leaves: all but the live map, the switch histories and the homing streaks. -/
def MapOnly (s t : State) : Prop := t = { s with
  comb := { s.comb with history := t.comb.history }
  spreader := { s.spreader with homing := t.spreader.homing }
  map := { s.map with remotes := t.map.remotes, sectors := t.map.sectors } }

theorem MapOnly.trans {s t u : State} (h : MapOnly s t) (k : MapOnly t u) : MapOnly s u := by
  unfold MapOnly at h k ⊢
  rw [k, h]

theorem MapOnly.now {s t : State} (h : MapOnly s t) : t.now = s.now := by
  unfold MapOnly at h
  rw [h]
  rfl

theorem State.applyEntry_mapOnly (s : State) (r : RemoteId) (e : RemoteEntry) : MapOnly s (s.applyEntry r e) := by
  unfold State.applyEntry MapOnly
  simp only
  split <;> split <;> rfl

theorem State.applyEntry_others (s : State) (r : RemoteId) (e : RemoteEntry) {x : RemoteId} (h : x ≠ r) :
    (s.applyEntry r e).mapPort x = s.mapPort x := by
  have live : (s.map.remotes.set r e.asLive).get x = s.map.remotes.get x := Tab.get_set_ne _ _ (Ne.symm h)
  have history : ∀ k, (s.comb.history.set r k).get x = s.comb.history.get x := fun k => Tab.get_set_ne _ _ (Ne.symm h)
  have homing : (s.spreader.homing.set r 0).get x = s.spreader.homing.get x := Tab.get_set_ne _ _ (Ne.symm h)
  unfold State.applyEntry
  simp only
  split <;> split
  · exact Prod.ext live rfl
  · exact Prod.ext live (Prod.ext (history _) rfl)
  · exact Prod.ext live (Prod.ext rfl homing)
  · exact Prod.ext live (Prod.ext (history _) homing)

theorem State.applyEntry_own (s : State) (r : RemoteId) (e : RemoteEntry) :
    (s.applyEntry r e).mapPort r = e.taken s.now (s.mapPort r) := by
  have live : (s.map.remotes.set r e.asLive).get r = e.asLive := Tab.get_set_self _ _ _
  have history : ∀ k, (s.comb.history.set r k).get r = k := fun k => Tab.get_set_self _ _ _
  have homing : (s.spreader.homing.set r 0).get r = 0 := Tab.get_set_self _ _ _
  unfold State.applyEntry
  simp only
  split <;> split
  · rename_i home sector
    exact Prod.ext live (Prod.ext (if_pos sector).symm (if_pos home).symm)
  · rename_i home sector
    exact Prod.ext live (Prod.ext ((history _).trans (if_neg sector).symm) (if_pos home).symm)
  · rename_i home sector
    exact Prod.ext live (Prod.ext (if_pos sector).symm (homing.trans (if_neg home).symm))
  · rename_i home sector
    exact Prod.ext live (Prod.ext ((history _).trans (if_neg sector).symm) (homing.trans (if_neg home).symm))

/-- The pending map replaces the live map, port by port. -/
theorem State.applyMap_ports (s : State) (new : PlanMap) : MapOnly s (s.applyMap new) ∧
    (s.applyMap new).map.sectors = new.sectors ∧
    ∀ r, (s.applyMap new).mapPort r = (new.remotes.get r).taken s.now (s.mapPort r) := by
  have keeps : ∀ (t : State) (r : RemoteId), MapOnly s t → MapOnly s (t.applyEntry r (new.remotes.get r)) :=
    fun t r h => h.trans (t.applyEntry_mapOnly r _)
  have own : ∀ (t : State) (r : RemoteId), MapOnly s t →
      (t.applyEntry r (new.remotes.get r)).mapPort r = (new.remotes.get r).taken s.now (t.mapPort r) := fun t r h => by
    rw [State.applyEntry_own, h.now]
  obtain ⟨only, each⟩ := foldl_ports (port := State.mapPort) (step := fun t r => t.applyEntry r (new.remotes.get r))
    (g := fun r => (new.remotes.get r).taken s.now) keeps (fun t r x h => t.applyEntry_others r _ h) own (List.finRange 16)
    (List.nodup_finRange 16) s rfl
  unfold State.applyMap
  generalize (List.finRange 16).foldl (fun t r => t.applyEntry r (new.remotes.get r)) s = u at only each ⊢
  have sectors : MapOnly u (u.setSectors new.sectors) := rfl
  exact ⟨only.trans sectors, rfl, fun r => (each r).trans (if_pos (List.mem_finRange r))⟩

end Sys2Proof.Machine
end

section
namespace Sys2Proof.Machine

/-! ### The ports follow the new configured fields (R114, R121, R128, R131, R163) -/

/-- What the blocks hold of a port: its record, ramp, framer and activity, and its pass-through. -/
structure Port where
  record : SupRecord
  ramp : Ramp
  framer : Framer
  row : Tab 12 Activity
  pass : Option Pass

def State.port (s : State) (r : RemoteId) : Port :=
  ⟨s.supRec r, s.ramp r, s.framer (.remote r), s.meter.records.get r, s.svc.pass.get r⟩

/-- At zero gain, with the activity stale (R34, R63). -/
def Port.silenced (p : Port) : Port :=
  { p with ramp := { p.ramp with present := 0 }, row := p.row.map fun a => { a with stale := true } }

/-- A port that has become unconfigured (R114, R121, R163). -/
def Port.vacated (mode : Mode) (p : Port) : Port :=
  { p.silenced with
    record := p.record.unconfigured mode
    framer := if p.pass = none then p.framer else { p.framer with relayQueue := p.framer.relayQueue.filter Relayed.copy }
    pass := none }

/-- A port that has become configured (R121). -/
def Port.broughtIn (p : Port) : Port :=
  { p.silenced with
    record := { p.record with
      health := .waiting, cause := none, awaiting := p.record.awaiting || decide (p.framer.rx = .locked) }
    framer := { p.framer with pollPlace := p.framer.pollPlace || decide (p.framer.rx = .locked) } }

/-- A port with its effective mode derived afresh (R128). -/
def Port.moded (mode : Mode) (p : Port) : Port :=
  { p with record := { p.record with mode := p.record.alarms.effective mode } }

/-- A port as its new configured field leaves it. -/
def Port.reconfigured (was now : Bool) (mode : Mode) (p : Port) : Port :=
  (if was && !now then p.vacated mode else if !was && now then p.broughtIn else p).moded mode

theorem State.live_congr {s t : State} (h : t.map = s.map) (r : RemoteId) : t.live r = s.live r := by
  rw [State.live, h]
  rfl

section OnePort

variable (s : State) (r : RemoteId)

/-- Remote r at zero gain with its activity stale, its record changed, and nothing else. -/
def State.silenceWith (f : SupRecord → SupRecord) : State :=
  ((s.modSup r f).modRamp r fun p => { p with present := 0 }).markStale r

theorem State.silenceWith_port (f : SupRecord → SupRecord) (x : RemoteId) : (s.silenceWith r f).port x =
    if x = r then { (s.port x).silenced with record := f (s.supRec x) } else s.port x := by
  have record : (s.silenceWith r f).supRec x = _ := State.supRec_modSup s r x f
  have ramp : (s.silenceWith r f).ramp x = _ := State.ramp_modRamp (s.modSup r f) r x _
  have row : (s.silenceWith r f).meter.records.get x = _ := Tab.get_modify s.meter.records r x _
  have framer : (s.silenceWith r f).framer (.remote x) = s.framer (.remote x) := rfl
  have pass : (s.silenceWith r f).svc.pass.get x = s.svc.pass.get x := rfl
  rw [State.port, record, ramp, row, framer, pass]
  by_cases own : x = r
  · subst own
    simp only [if_true]
    rfl
  · simp only [if_neg own, if_neg (Ne.symm own)]
    rfl

theorem State.abortPass_port (x : RemoteId) : (s.abortPass r).port x = if x = r then { s.port x with
      framer := if (s.port x).pass = none then (s.port x).framer
        else { (s.port x).framer with relayQueue := (s.port x).framer.relayQueue.filter Relayed.copy }
      pass := none }
    else s.port x := by
  have framer := s.abortPass_framer r (.remote x)
  have record : (s.abortPass r).supRec x = s.supRec x := by rw [State.abortPass_frame]; rfl
  have ramp : (s.abortPass r).ramp x = s.ramp x := by rw [State.abortPass_frame]; rfl
  have row : (s.abortPass r).meter.records.get x = s.meter.records.get x := by rw [State.abortPass_frame]
  rw [State.port, record, ramp, row, framer, State.abortPass_svc]
  by_cases own : x = r
  · subst own
    rw [if_pos rfl, if_pos rfl, Service.aborted_pass]
    rfl
  · rw [if_neg (fun k => own (Link.remote.inj k)), if_neg own, ((Service.aborted_others s.svc r).2 x own).1]
    rfl

theorem State.vacate_eq : s.vacate r =
    (((s.silenceWith r fun v => v.unconfigured (s.live r).mode).unDue (.linkGrace r)).unDue (.flap r)).abortPass r := rfl

theorem State.vacate_port (x : RemoteId) : (s.vacate r).port x =
    if x = r then (s.port x).vacated (s.live r).mode else s.port x := by
  rw [State.vacate_eq, State.abortPass_port]
  have same : (((s.silenceWith r fun v => v.unconfigured (s.live r).mode).unDue (.linkGrace r)).unDue (.flap r)).port x =
      (s.silenceWith r fun v => v.unconfigured (s.live r).mode).port x := rfl
  rw [same, State.silenceWith_port]
  by_cases own : x = r
  · simp only [if_pos own]
    rfl
  · simp only [if_neg own]

theorem State.queuePoll_port (x : RemoteId) : (s.queuePoll r).port x = if x = r then { s.port x with
      record := { (s.port x).record with awaiting := true }, framer := { (s.port x).framer with pollPlace := true } }
    else s.port x := by
  have record : (s.queuePoll r).supRec x = _ := State.supRec_modSup (s.modFramer (.remote r) _) r x _
  have framer : (s.queuePoll r).framer (.remote x) = _ := State.framer_modFramer s (.remote r) (.remote x) _
  rw [State.port, record, framer]
  by_cases own : x = r
  · subst own
    simp only [if_true]
    rfl
  · rw [if_neg (Ne.symm own), if_neg (fun k => own (Link.remote.inj k).symm), if_neg own]
    rfl

theorem State.bringIn_port (x : RemoteId) : (s.bringIn r).port x = if x = r then (s.port x).broughtIn else s.port x := by
  set u := s.silenceWith r fun v => { v with health := .waiting, cause := none } with hu
  have whole : s.bringIn r = if u.locked (.remote r) then u.queuePoll r else u := rfl
  have entered := s.silenceWith_port r (fun v => { v with health := .waiting, cause := none }) x
  rw [whole]
  by_cases own : x = r
  swap
  · rw [if_neg own] at entered ⊢
    split
    · rw [State.queuePoll_port, if_neg own]; exact entered
    · exact entered
  subst own
  rw [if_pos rfl] at entered ⊢
  have rx : u.locked (.remote x) = decide ((s.port x).framer.rx = .locked) := rfl
  rw [rx]
  unfold Port.broughtIn
  split
  · rename_i locked
    rw [State.queuePoll_port, if_pos rfl, entered]
    simp only [locked, Bool.or_true]
    rfl
  · rename_i off
    rw [entered]
    simp only [Bool.eq_false_iff.mpr off, Bool.or_false]
    rfl

theorem State.deriveMode_port (x : RemoteId) : (s.deriveMode r).port x =
    if x = r then (s.port x).moded (s.live r).mode else s.port x := by
  have record : (s.deriveMode r).supRec x = _ := State.supRec_modSup s r x _
  rw [State.port, record]
  by_cases own : x = r
  · subst own
    simp only [if_true]
    rfl
  · rw [if_neg (Ne.symm own), if_neg own]
    rfl

theorem State.applyConfigured_port (was : Bool) (x : RemoteId) : (s.applyConfigured r was).port x =
    if x = r then (s.port x).reconfigured was (s.live r).configured (s.live r).mode else s.port x := by
  obtain ⟨⟨-, gone, -, -⟩, -⟩ := s.vacate_ports r
  obtain ⟨⟨-, come, -, -⟩, -⟩ := s.bringIn_ports r
  unfold State.applyConfigured Port.reconfigured
  simp only
  by_cases leaves : (was && !(s.live r).configured) = true
  · simp only [leaves, if_true, State.deriveMode_port, State.vacate_port, State.live_congr gone]
    by_cases own : x = r
    · simp only [if_pos own]
    · simp only [if_neg own]
  by_cases enters : (!was && (s.live r).configured) = true
  · simp only [leaves, enters, if_true, Bool.false_eq_true, if_false, State.deriveMode_port, State.bringIn_port, State.live_congr come]
    by_cases own : x = r
    · simp only [if_pos own]
    · simp only [if_neg own]
  · simp only [leaves, enters, Bool.false_eq_true, if_false, State.deriveMode_port]

end OnePort

/-! ### All ports -/

/-- What the new configured fields leave: all but the ports, the links, the queues of the Interpreter and what is due. -/
def PortsAlone (s t : State) : Prop := t = { s with
  sup := { s.sup with records := t.sup.records }
  dist := { s.dist with ramps := t.dist.ramps }
  meter := { s.meter with records := t.meter.records }
  links := t.links
  svc := t.svc
  boundary := t.boundary }

theorem PortsAlone.trans {s t u : State} (h : PortsAlone s t) (k : PortsAlone t u) : PortsAlone s u := by
  unfold PortsAlone at h k ⊢
  rw [k, h]

theorem PortsAlone.map {s t : State} (h : PortsAlone s t) : t.map = s.map := by
  unfold PortsAlone at h
  rw [h]

theorem State.vacate_alone (s : State) (r : RemoteId) : PortsAlone s (s.vacate r) := by
  unfold PortsAlone
  rw [State.vacate_eq, State.abortPass_frame]
  rfl

theorem State.bringIn_alone (s : State) (r : RemoteId) : PortsAlone s (s.bringIn r) := by
  unfold State.bringIn State.pollIfLocked
  simp only
  split <;> rfl

theorem State.applyConfigured_alone (s : State) (r : RemoteId) (was : Bool) : PortsAlone s (s.applyConfigured r was) := by
  have moded : ∀ u : State, PortsAlone u (u.deriveMode r) := fun _ => rfl
  unfold State.applyConfigured
  simp only
  refine PortsAlone.trans ?_ (moded _)
  split
  · exact s.vacate_alone r
  · split
    · exact s.bringIn_alone r
    · rfl

theorem State.applyConfigured_svc (s : State) (r : RemoteId) (was : Bool) : (s.applyConfigured r was).svc =
    if was && !(s.live r).configured then s.svc.aborted r else s.svc := by
  have vacated : (s.vacate r).svc = s.svc.aborted r := by
    rw [State.vacate_eq, State.abortPass_svc]
    rfl
  have broughtIn : (s.bringIn r).svc = s.svc := by
    unfold State.bringIn State.pollIfLocked
    simp only
    split <;> rfl
  have moded : ∀ u : State, (u.deriveMode r).svc = u.svc := fun _ => rfl
  unfold State.applyConfigured
  simp only
  rw [moded]
  split
  · exact vacated
  · split
    · exact broughtIn
    · rfl

/-- The ports follow the new configured fields (R114, R121, R128). -/
theorem State.applyHealths_each (s before : State) : PortsAlone s (s.applyHealths before) ∧
    (∀ r, (s.applyHealths before).port r =
      (s.port r).reconfigured (before.live r).configured (s.live r).configured (s.live r).mode) ∧
    (s.applyHealths before).svc = ((List.finRange 16).filter fun r =>
      (before.live r).configured && !(s.live r).configured).foldl Service.aborted s.svc := by
  set step : State → RemoteId → State := fun t r => t.applyConfigured r (before.live r).configured with hstep
  have keeps : ∀ (t : State) (r : RemoteId), PortsAlone s t → PortsAlone s (step t r) :=
    fun t r h => h.trans (t.applyConfigured_alone r _)
  have live : ∀ {t : State}, PortsAlone s t → ∀ r, t.live r = s.live r := fun h r => State.live_congr h.map r
  obtain ⟨alone, each⟩ := foldl_ports (port := State.port) (step := step)
    (g := fun r p => p.reconfigured (before.live r).configured (s.live r).configured (s.live r).mode) keeps
    (fun t r x other => (t.applyConfigured_port r _ x).trans (if_neg other))
    (fun t r h => (t.applyConfigured_port r _ r).trans (by rw [if_pos rfl, live h]))
    (List.finRange 16) (List.nodup_finRange 16) s rfl
  refine ⟨alone, fun r => (each r).trans (if_pos (List.mem_finRange r)), ?_⟩
  have all : ∀ (xs : List RemoteId) (t : State), PortsAlone s t → (xs.foldl step t).svc =
      xs.foldl (fun v r => if (before.live r).configured && !(s.live r).configured then v.aborted r else v) t.svc := by
    intro xs
    induction xs with
    | nil => exact fun _ _ => rfl
    | cons r xs ih =>
      intro t h
      rw [List.foldl_cons, List.foldl_cons, ih (step t r) (keeps t r h), ← live h r]
      exact congrArg (xs.foldl _) (t.applyConfigured_svc r _)
  rw [List.foldl_filter]
  exact all (List.finRange 16) s rfl

end Sys2Proof.Machine
end

section
namespace Sys2Proof.Machine

/-! ### The switch of a batch (R47, R83, R84, R113, R114) -/

section Whole

variable {s : State} {m : MoveRecord} {new : PlanMap}

/-- The live map replaced whole, and the ports after it. -/
def State.replaced (s : State) (new : PlanMap) : State := (s.applyMap new).applyHealths s

/-- What the replacement leaves. -/
theorem State.replaced_frame (s : State) (new : PlanMap) : (s.replaced new).engine = s.engine ∧
    (s.replaced new).store = s.store ∧ (s.replaced new).events = s.events ∧ (s.replaced new).now = s.now ∧
    (s.replaced new).sup.degraded = s.sup.degraded ∧
    (s.replaced new).map = { s.map with remotes := (s.replaced new).map.remotes, sectors := new.sectors } := by
  obtain ⟨only, sectors, -⟩ := s.applyMap_ports new
  obtain ⟨alone, -⟩ := (s.applyMap new).applyHealths_each s
  have map : (s.replaced new).map = (s.applyMap new).map := alone.map
  rw [map]
  change PortsAlone _ (s.replaced new) at alone
  generalize s.applyMap new = a at only sectors alone map
  unfold MapOnly at only
  unfold PortsAlone at alone
  rw [alone, ← sectors, only]
  exact ⟨rfl, rfl, rfl, rfl, rfl, rfl⟩

/-- What the replacement makes of each port, and of the pass-through slots. -/
theorem State.replaced_each (s : State) (new : PlanMap) :
    (∀ r, (s.replaced new).mapPort r = (new.remotes.get r).taken s.now (s.mapPort r)) ∧
    (∀ r, (s.replaced new).port r =
      (s.port r).reconfigured (s.live r).configured (new.remotes.get r).configured (new.remotes.get r).mode) ∧
    (s.replaced new).svc = ((List.finRange 16).filter fun r =>
      (s.live r).configured && !(new.remotes.get r).configured).foldl Service.aborted s.svc := by
  obtain ⟨only, -, entries⟩ := s.applyMap_ports new
  obtain ⟨alone, ports, svc⟩ := (s.applyMap new).applyHealths_each s
  change PortsAlone _ (s.replaced new) at alone
  change ∀ r, (s.replaced new).port r = _ at ports
  change (s.replaced new).svc = _ at svc
  generalize s.replaced new = t at alone ports svc ⊢
  generalize s.applyMap new = a at only entries alone ports svc
  have live : ∀ r, a.live r = (new.remotes.get r).asLive.entry := fun r =>
    congrArg (fun p : MapPort => p.1.entry) (entries r)
  have kept : a.svc = s.svc ∧ ∀ r, a.port r = s.port r := by
    unfold MapOnly at only
    rw [only]
    exact ⟨rfl, fun _ => rfl⟩
  obtain ⟨start, before⟩ := kept
  have map : ∀ r, t.mapPort r = a.mapPort r := by
    unfold PortsAlone at alone
    rw [alone]
    exact fun _ => rfl
  refine ⟨fun r => (map r).trans (entries r), fun r => ?_, ?_⟩
  · rw [ports, before, live]
    rfl
  · rw [svc, start]
    simp only [live]
    rfl

/-- Every boost and every flag is evaluated (R83). -/
theorem State.evaluateAll_evaluates (s : State) : BoostsEvaluated (List.finRange 16) s s.evaluateAll.1 := by
  have boosted := s.reevalBoosts_evaluates (List.finRange 16)
  rw [State.evaluateAll_eq]
  generalize s.reevalBoosts (List.finRange 16) = p at boosted ⊢
  generalize List.finRange 8 = xs
  exact boosted.evalSectors xs

/-- The batch switch in FADE-IN, before the recomputes. -/
def State.replacedIn (s : State) (m : MoveRecord) (new : PlanMap) : State × List RemoteId :=
  ((s.replaced new).enterFadeIn m (m.fading.filter fun r => decide ((s.replaced new).health r ≠ .vacant)) (some new)).evaluateAll

theorem State.wholeSwitch_eq (hm : s.engine.record = some m) (hn : s.engine.pendingMap = some new) : s.wholeSwitch =
    let v := (s.replacedIn m new).1.recomputeAll ((s.replacedIn m new).1.recomputedAfter s (s.replacedIn m new).2)
    if (m.fading.filter fun r => decide ((s.replaced new).health r ≠ .vacant)).isEmpty then v.moveEnd .done else v := by
  unfold State.wholeSwitch
  simp only [hm, hn]
  rfl

/-- The switch of a batch, seen from where the map has been replaced: what is in FADE-IN, and what the recomputes leave. -/
theorem State.wholeSwitch_recomputes (hm : s.engine.record = some m) (hn : s.engine.pendingMap = some new) :
    ∃ u rs, Settles (s.replaced new) u ∧ Rests (s.replaced new) u ∧
      u.engine = ⟨.fadeIn, some { m with switchFc := some s.now },
        m.fading.filter fun r => decide ((s.replaced new).health r ≠ .vacant), [], some new⟩ ∧
      (∀ z, u.health z = (s.replaced new).health z) ∧ (∀ z ∈ s.engine.holdSet, (u.supRec z).held = false ∧ z ∈ rs) ∧
      (∀ z, u.Boosted z ∧ u.Sourced z) ∧ Retargets rs u s.wholeSwitch ∧
      ∃ gone, Phased gone { m with switchFc := some s.now } .done u s.wholeSwitch ∧
        ∀ z, z ∈ gone ↔ z ∈ rs ∧ u.Arrived z := by
  obtain ⟨engineT, -, -, nowT, -⟩ := s.replaced_frame new
  set t := s.replaced new with ht
  set phase := m.fading.filter fun r => decide (t.health r ≠ .vacant) with hphase
  obtain ⟨restsC, settlesC, -⟩ := t.enterFadeIn_rests m phase (some new)
  have records := t.supRec_enterFadeIn m phase (some new)
  have engineC := t.enterFadeIn_engine m phase (some new)
  have evaluated : BoostsEvaluated (List.finRange 16) (t.enterFadeIn m phase (some new)) (s.replacedIn m new).1 := by
    rw [State.replacedIn]
    exact State.evaluateAll_evaluates _
  rw [State.wholeSwitch_eq hm hn]
  have held : ∀ z ∈ s.engine.holdSet, z ∈ (s.replacedIn m new).1.recomputedAfter s (s.replacedIn m new).2 := fun z hz => by
    simp [State.recomputedAfter, hz]
  generalize (s.replacedIn m new).1.recomputedAfter s (s.replacedIn m new).2 = rs at held ⊢
  generalize (s.replacedIn m new).1 = u at evaluated ⊢
  generalize t.enterFadeIn m phase (some new) = c at restsC settlesC records engineC evaluated
  have engine : u.engine = ⟨.fadeIn, some { m with switchFc := some s.now }, phase, [], some new⟩ := by
    rw [evaluated.engine, engineC, nowT]
  have free : u.engine.holdSet = [] := by rw [engine]
  have recomputed := State.recomputeAll_recomputed rs free
  have right : ∀ z, u.Boosted z := fun z => evaluated.boosted z (List.mem_finRange z)
  obtain ⟨gone, ending, members⟩ := recomputed.ending
  have phased := ending.phased (m := { m with switchFc := some s.now }) (o := .done) (.inl (by rw [engine])) (by rw [engine])
    (by rw [engine]; rfl)
  rw [show u.engine.phaseSet = phase by rw [engine]] at phased
  refine ⟨u, rs, settlesC.trans evaluated.settles, restsC.trans evaluated.rests, engine, fun z => ?_,
    fun z hz => ⟨(evaluated.kept z).2 ?_, held z hz⟩, fun z => ⟨right z, evaluated.sourced z (List.mem_finRange z)⟩, ?_,
    gone, phased, fun z => members z (right z)⟩
  · rw [(evaluated.kept z).1, State.health, records]
    split <;> rfl
  · rw [records, engineT]
    exact congrArg SupRecord.held (if_pos hz)
  · split
    · exact recomputed.toRetargets.moveEnd _
    · exact recomputed.toRetargets

end Whole

end Sys2Proof.Machine
end

section
namespace Sys2Proof.Machine

/-! ### What the switch of a batch comes to -/

section Ports

variable {s t u : State} {r : RemoteId}

/-- What is held of a port reads back its parts. -/
theorem State.port_parts {p : Port} (h : s.port r = p) : s.supRec r = p.record ∧ s.ramp r = p.ramp ∧
    s.framer (.remote r) = p.framer ∧ s.meter.records.get r = p.row ∧ s.svc.pass.get r = p.pass := by
  subst h
  exact ⟨rfl, rfl, rfl, rfl, rfl⟩

/-- A remote that serves not and is not JOINING has neither sources nor a boost (R134). -/
theorem State.unboosted (out : (s.health r).serves = false) (boosted : s.Boosted r) (sourced : s.Sourced r) :
    (s.supRec r).sources = [] ∧ (s.supRec r).boost = 0 := by
  have none : s.sourcesOf r = [] := if_neg (by simp [out])
  refine ⟨sourced.trans none, boosted.trans ?_⟩
  rw [none]
  exact ite_self 0

/-- A VACANT remote stays VACANT through a settling. -/
theorem Settles.vacant (h : Settles s t) (vacant : s.health r = .vacant) : t.health r = .vacant :=
  ((h.sup r).health.resolve_right fun k => by rw [show (s.supRec r).health = .vacant from vacant] at k; cases k.1).trans vacant

theorem Settles.waiting (h : Settles s t) (waiting : s.health r = .waiting) : t.health r = .waiting :=
  ((h.sup r).health.resolve_right fun k => by rw [show (s.supRec r).health = .waiting from waiting] at k; cases k.1).trans waiting

/-- A port that has left the map, after a settling (R114, R121, R131, R163). -/
theorem Settles.port_left (h : Settles t u) {mode : Mode} (port : t.port r = (s.port r).reconfigured true false mode)
    (boosted : u.Boosted r) (sourced : u.Sourced r) :
    u.health r = .vacant ∧ (u.ramp r).present = 0 ∧ u.svc.pass.get r = none ∧ (∀ c, (u.activity r c).stale = true) ∧
      u.supRec r = { SupRecord.reset with mode := mode, held := (u.supRec r).held } ∧
      u.framer (.remote r) = (s.framer (.remote r)).withdrawn s.svc r := by
  obtain ⟨record, ramp, framer, row, pass⟩ := State.port_parts port
  have vacant := h.vacant (r := r) (congrArg SupRecord.health record)
  obtain ⟨sources, boost⟩ := State.unboosted (by rw [vacant]; rfl) boosted sourced
  refine ⟨vacant, by rw [h.present, ramp]; rfl, by rw [h.svc]; exact pass, fun c => ?_, ?_, ?_⟩
  · rw [h.activity, State.activity, row]
    exact congrArg Activity.stale (Tab.get_map ..)
  · have health : (u.supRec r).health = .vacant := vacant
    have rest := (h.sup r).rest
    rw [sources, boost, health, record] at rest
    exact rest
  · rw [State.framer_congr h.links, framer]
    rfl

/-- A port that has come into the map, after a settling (R121). -/
theorem Settles.port_come (h : Settles t u) {mode : Mode} (port : t.port r = (s.port r).reconfigured false true mode) :
    u.health r = .waiting ∧ (u.ramp r).present = 0 ∧
      SupRecord.Follows { s.supRec r with
        health := .waiting, cause := none, awaiting := (s.supRec r).awaiting || s.locked (.remote r)
        mode := (s.supRec r).alarms.effective mode } (u.supRec r) ∧
      u.framer (.remote r) = { s.framer (.remote r) with
        pollPlace := (s.framer (.remote r)).pollPlace || s.locked (.remote r) } := by
  obtain ⟨record, ramp, framer, -, -⟩ := State.port_parts port
  have follows := h.sup r
  rw [record] at follows
  exact ⟨h.waiting (congrArg SupRecord.health record), by rw [h.present, ramp]; rfl, follows,
    by rw [State.framer_congr h.links, framer]; rfl⟩

/-- A port that stays as it was in the map, after a settling (R128). -/
theorem Settles.port_stays (h : Settles t u) {b : Bool} {mode : Mode} (port : t.port r = (s.port r).reconfigured b b mode) :
    SupRecord.Follows { s.supRec r with mode := (s.supRec r).alarms.effective mode } (u.supRec r) ∧
      (u.ramp r).present = (s.ramp r).present ∧ u.framer (.remote r) = s.framer (.remote r) := by
  have same : (s.port r).reconfigured b b mode = (s.port r).moded mode := by cases b <;> rfl
  obtain ⟨record, ramp, framer, -, -⟩ := State.port_parts (port.trans same)
  have follows := h.sup r
  rw [record] at follows
  exact ⟨follows, by rw [h.present, ramp]; rfl, by rw [State.framer_congr h.links, framer]; rfl⟩

end Ports

section Whole

variable {s : State} {m : MoveRecord} {new : PlanMap}

/-- The remotes and the health of a replaced map. -/
theorem State.replaced_live (s : State) (new : PlanMap) (r : RemoteId) :
    (s.replaced new).live r = (new.remotes.get r).asLive.entry :=
  congrArg (fun p : MapPort => p.1.entry) ((s.replaced_each new).1 r)

theorem State.replaced_health (s : State) (new : PlanMap) {r : RemoteId} : (s.replaced new).health r =
    if (s.live r).configured && !(new.remotes.get r).configured then .vacant
    else if !(s.live r).configured && (new.remotes.get r).configured then .waiting else s.health r := by
  obtain ⟨-, ports, -⟩ := s.replaced_each new
  refine (congrArg (fun p : Port => p.record.health) (ports r)).trans ?_
  cases (s.live r).configured <;> cases (new.remotes.get r).configured <;> rfl

/-- What the batch comes to for the engine: FADE-IN, or DONE with its plan active (R79, R83, R84). -/
theorem State.wholeSwitch_outcome (hm : s.engine.record = some m) (hn : s.engine.pendingMap = some new)
    (batch : m.kind = .batch) : let t := s.wholeSwitch
    (t.engine.state = .fadeIn ∧ t.engine.record = some { m with switchFc := some s.now } ∧
        t.engine.pendingMap = some new ∧ t.map.active = s.map.active ∧ t.map.diverged = s.map.diverged ∨
      t.engine = ⟨.idle, none, [], [], none⟩ ∧ t.map.active = m.plan ∧ t.map.diverged = false ∧
        t.spreader.lastEnd = some s.now) ∧
    (m.fading = [] → t.engine.state = .idle) := by
  intro t
  obtain ⟨-, -, -, now, -, map⟩ := s.replaced_frame new
  obtain ⟨u, rs, -, rests, engine, -, -, -, -, gone, phased, -⟩ := State.wholeSwitch_recomputes hm hn
  by_cases left : u.engine.remaining gone = []
  · have closed := (phased.ends left).before rests
    have adopted := closed.map.trans (if_pos ⟨batch, rfl⟩)
    exact ⟨.inr ⟨closed.engine, by rw [adopted], by rw [adopted], by rw [closed.lastEnd, now]⟩,
      fun _ => congrArg Engine.state closed.engine⟩
  · obtain ⟨after, waits⟩ := phased.goes left
    have kept : t.map = (s.replaced new).map := after.map.trans rests.map
    refine ⟨.inl ⟨by rw [waits, engine], by rw [waits, engine], by rw [waits, engine], by rw [kept, map], by rw [kept, map]⟩,
      fun none => absurd (Engine.remaining_nil ?_ gone) left⟩
    rw [engine, none]
    rfl

/-- Under the laws a fading remote is in the live map, and stays as it is where the new one has it (R81, R121). -/
theorem State.Settled.fading_replaced (h : s.Settled) (pending : s.engine.state = .switchPending)
    (hm : s.engine.record = some m) (batch : m.kind = .batch) {z : RemoteId} (hz : z ∈ m.fading) :
    ((s.replaced new).health z ≠ .vacant ↔ (new.remotes.get z).configured = true) ∧
      ((new.remotes.get z).configured = true → (s.replaced new).health z = s.health z ∧
        ((s.replaced new).supRec z).alarms = (s.supRec z).alarms ∧ (s.replaced new).ramp z = s.ramp z) := by
  obtain ⟨fading, -⟩ := h.fading (.inr pending) m hm
  have serviced := fading (.inr (.inl batch)) z hz List.not_mem_nil
  have present : s.health z ≠ .vacant := fun vacant => by rw [State.serviced, vacant] at serviced; cases serviced
  have loaded : s.map.loadNext = false := Bool.eq_false_iff.mpr fun load => by
    obtain ⟨-, idle, -⟩ := h.load.unloaded load
    rw [pending] at idle
    cases idle
  have was : (s.live z).configured = true := by
    by_contra out
    exact present ((h.load.vacant loaded z).mpr (by simpa using out))
  obtain ⟨-, ports, -⟩ := s.replaced_each new
  have port := ports z
  have health := s.replaced_health new (r := z)
  rw [was] at port health
  cases now : (new.remotes.get z).configured with
  | false =>
    rw [now] at health
    exact ⟨by simp [health], nofun⟩
  | true =>
    rw [now] at health port
    obtain ⟨record, ramp, -, -, -⟩ := State.port_parts port
    have health : (s.replaced new).health z = s.health z := health
    exact ⟨by simp [health, present], fun _ => ⟨health, (congrArg SupRecord.alarms record).trans rfl, ramp⟩⟩

/-- Under the laws the fading remotes that stay configured and are not at their targets are waited for (R83, R84). -/
theorem State.Settled.wholeSwitch_phase (h : s.Settled) (pending : s.engine.state = .switchPending)
    (hm : s.engine.record = some m) (hn : s.engine.pendingMap = some new) (batch : m.kind = .batch) :
    let t := s.wholeSwitch
    let goal (r : RemoteId) : Nat := if s.health r = .joining then
        (if (s.supRec r).alarms.hot then (new.remotes.get r).baseGain * 3 / 4
          else min 1023 (new.remotes.get r).baseGain)
      else t.targetOf r
    let left := m.fading.filter fun r => (new.remotes.get r).configured && decide ((s.ramp r).present ≠ goal r)
    (left ≠ [] → t.engine = ⟨.fadeIn, some { m with switchFc := some s.now }, left, [], some new⟩) ∧
      (left = [] → m.Ended .done s t) := by
  intro t goal
  obtain ⟨-, store, events, now, -, -⟩ := s.replaced_frame new
  obtain ⟨u, rs, settles, rests, engine, health, held, right, retargets, gone, phased, members⟩ :=
    State.wholeSwitch_recomputes hm hn
  obtain ⟨holds, -⟩ := h.engine.held (.inr pending) m hm
  have free : u.engine.holdSet = [] := by rw [engine]
  have goals : ∀ z ∈ m.fading, (new.remotes.get z).configured = true → goal z = u.targetOf z := fun z hz configured => by
    obtain ⟨-, stays⟩ := h.fading_replaced (new := new) pending hm batch hz
    obtain ⟨same, alarms, -⟩ := stays configured
    rw [← retargets.goal free (right z).1, health, same, settles.hot, alarms, settles.live, State.replaced_live]
    rfl
  have rest : u.engine.remaining gone = m.fading.filter fun r =>
      (new.remotes.get r).configured && decide ((s.ramp r).present ≠ goal r) := by
    rw [Engine.remaining, engine, List.filter_filter]
    refine List.filter_congr fun z hz => ?_
    obtain ⟨remains, stays⟩ := h.fading_replaced (new := new) pending hm batch hz
    have flag : decide ((s.replaced new).health z ≠ .vacant) = (new.remotes.get z).configured := by
      rw [Bool.eq_iff_iff, decide_eq_true_iff, remains]
    rw [flag]
    cases configured : (new.remotes.get z).configured with
    | false => simp
    | true =>
      obtain ⟨-, -, ramp⟩ := stays configured
      have noticed : z ∈ gone ↔ (s.ramp z).present = goal z := by
        rw [members z, State.Arrived, settles.present, ramp, goals z hz configured]
        exact and_iff_right (held z (holds z hz)).2
      rw [decide_eq_decide.mpr (not_congr noticed), Bool.and_comm]
  rw [← rest]
  refine ⟨fun some => ?_, fun none => ?_⟩
  · rw [(phased.goes some).2, engine]
  · have shape := h.engine.shape m hm
    have closed := (phased.ends none).before rests
    obtain ⟨engine, lastEnd, reported, retest, adopted, -⟩ :=
      closed.ended (.inl ⟨shape.outcome, shape.plan, shape.single, shape.fading⟩)
    rw [events, now] at reported
    exact ⟨engine, by rw [lastEnd, now], reported, fun c hc => retest c (by rw [store]; exact hc), adopted,
      fun other => absurd batch (other.resolve_right (not_not.mpr rfl))⟩

/-- A remote that serves in the new map serves in the old one, and counts where the new map places it (R136). -/
theorem State.replaced_serving (s : State) (new : PlanMap) (x : SectorId) :
    ((List.finRange 16).filter fun r => (s.live r).configured && (new.remotes.get r).configured &&
      decide ((new.remotes.get r).sector = some x) && (s.health r).serves).length ≤ (s.replaced new).servingNow x := by
  rw [State.servingNow, State.members, List.filter_filter, ← List.countP_eq_length_filter, ← List.countP_eq_length_filter]
  refine List.countP_mono_left fun r _ serves => ?_
  simp only [Bool.and_eq_true, decide_eq_true_eq] at serves
  obtain ⟨⟨⟨was, now⟩, placed⟩, serves⟩ := serves
  have sector : (s.replaced new).sectorOf r = some x := by
    rw [State.sectorOf, State.replaced_live]
    exact (if_pos now).trans placed
  have health : (s.replaced new).health r = s.health r := by
    rw [State.replaced_health, was, now]
    rfl
  simp [sector, health, serves]

/-- A JOINING remote that serves after the switch was JOINING when the map had been replaced (R125). -/
theorem State.replaced_joining {t : State} (settles : Settles (s.replaced new) t) {z : RemoteId}
    (joining : s.health z = .joining) (serves : (t.health z).serves = true) : (s.replaced new).health z = .joining := by
  have health := s.replaced_health new (r := z)
  split at health
  · rw [settles.vacant health] at serves
    cases serves
  · split at health
    · rw [settles.waiting health] at serves
      cases serves
    · exact health.trans joining

end Whole

/-- Settles O44: the map and the ports are replaced (`State.replaced_each`), boosts, flags and recomputes follow
(`State.wholeSwitch_recomputes`), and the engine is in FADE-IN or the batch has ended (`State.wholeSwitch_outcome`, and under
the laws `State.Settled.wholeSwitch_phase`). -/
theorem batchSwitchReplacesTheLiveMap : Obligations.BatchSwitchReplacesTheLiveMap := by
  intro s m new hm batch pending hn due
  set b := s.unDue .switch with hb
  have running : s.batchRunning = true := (State.batchRunning_iff s).mpr ⟨m, hm, batch⟩
  have taken : exec .batchSwitch s = .next b.wholeSwitch := by
    refine congrArg Host.Outcome.next ((if_pos running).trans ((State.takeDue_of_due _ due).trans ?_))
    exact (if_pos pending).trans (if_pos running)
  have spares : Spares s b.wholeSwitch := (s.unDue_spares .switch).trans b.wholeSwitch_spares
  obtain ⟨-, -, events, now, degraded, map⟩ := b.replaced_frame new
  obtain ⟨maps, ports, svc⟩ := b.replaced_each new
  obtain ⟨outcome, empty⟩ := State.wholeSwitch_outcome (s := b) hm hn batch
  obtain ⟨u, rs, entered, -, -, -, held, right, retargets, -⟩ := State.wholeSwitch_recomputes (s := b) hm hn
  have settles := entered.trans retargets.settles
  refine ⟨_, taken, spares, ?_, fun r => ?_, settles.svc.trans svc, fun z joining serves => ?_, fun x changed => ?_,
    fun z hz => retargets.held z (held z hz).1, retargets.free, outcome, empty, fun lawful moves supervision => ?_, ?_⟩
  · rw [settles.map, map]
  · have entry := maps r
    have port := ports r
    obtain ⟨boosted, sourced⟩ := right r
    refine ⟨?_, ?_, ?_, fun was gone => ?_, fun was come => ?_, fun same => ?_⟩
    · rw [settles.map]
      exact congrArg (fun p : MapPort => p.1) entry
    · rw [settles.comb]
      exact congrArg (fun p : MapPort => p.2.1) entry
    · rw [settles.spreader]
      exact congrArg (fun p : MapPort => p.2.2) entry
    · rw [show (b.live r).configured = true from was, gone] at port
      exact settles.port_left port (retargets.boosted r boosted) (retargets.sourced r sourced)
    · rw [show (b.live r).configured = false from was, come] at port
      exact settles.port_come port
    · rw [show (b.live r).configured = (new.remotes.get r).configured from same] at port
      exact settles.port_stays port
  · have report := settles.joins z (State.replaced_joining settles joining serves) serves
    rw [events, now] at report
    exact report
  · obtain ⟨n, low, rest⟩ := settles.flags x (by rw [degraded]; exact changed)
    rw [events, now] at rest
    exact ⟨n, (b.replaced_serving new x).trans low, rest⟩
  · have settled : b.Settled := ((State.settled_iff s).mpr ⟨lawful, moves, supervision⟩).apart (s.unDue_apart .switch)
    obtain ⟨waits, ends⟩ := settled.wholeSwitch_phase pending hm hn batch
    refine ⟨waits, fun none => ?_⟩
    obtain ⟨engine, lastEnd, reported, retest, adopted, kept⟩ := ends none
    exact ⟨engine, lastEnd, reported, retest, adopted, kept⟩
  · have posted := settles.events
    rw [events] at posted
    exact posted

end Sys2Proof.Machine
end
